-- ==== Sys2Proof/Word.lean ====
section
/-! DEFINITION. The word types of the machine (R3, R37, R39). -/

namespace Sys2Proof

/-- A 64-bit scalar register, state register or record word (R37, R129). -/
abbrev Word := BitVec 64

/-- A 32-bit word: a lane of a beat, a slot word, a code address (R39, R98). -/
abbrev W32 := BitVec 32

/-- A byte. -/
abbrev Byte := BitVec 8

/-- A 28-bit pavilion-local address: core [27:21], offset [20:0] (R51). -/
abbrev LocalAddr := BitVec 28

end Sys2Proof
end

