-- ==== Sys2Proof/Machine/Flags.lean ====
section
/-! DEFINITION. The sticky flags (R73, R131) and the one rounding of every result (R68, R69, R71). -/

namespace Sys2Proof.Machine

/-- A flag set, six bits in the order of R131. -/
abbrev Flags := BitVec 6

def Flags.none : Flags := 0#6
def Flags.invalid : Flags := 1#6
def Flags.overflow : Flags := 2#6
def Flags.underflow : Flags := 4#6
def Flags.inexact : Flags := 8#6
def Flags.nonFinite : Flags := 16#6
def Flags.absentConsumed : Flags := 32#6

/-- The flag `f` when `b` holds. -/
def Flags.when (b : Bool) (f : Flags) : Flags := if b then f else Flags.none

/-- The rounding modes of FPCR.`rm` (R68). -/
inductive Rm where
  | rne | rtz | rup | rdn | rna
  deriving DecidableEq, Repr, Inhabited

/-- The mode of a code; 5-7 are reserved (R68). -/
def Rm.ofNat? (n : Nat) : Option Rm :=
  match n with
  | 0 => some .rne
  | 1 => some .rtz
  | 2 => some .rup
  | 3 => some .rdn
  | 4 => some .rna
  | _ => Option.none

/-- The code of a mode (R68). -/
def Rm.toNat : Rm → Nat
  | .rne => 0 | .rtz => 1 | .rup => 2 | .rdn => 3 | .rna => 4

/-- The floating-point formats (R60). -/
inductive FloatFmt where
  | f32 | f16 | b16 | e4 | e5
  deriving DecidableEq, Repr, Inhabited

/-- Width in bits (R59). -/
def FloatFmt.width : FloatFmt → Nat
  | .f32 => 32 | .f16 => 16 | .b16 => 16 | .e4 => 8 | .e5 => 8

/-- Width of the fraction field (R60). -/
def FloatFmt.frac : FloatFmt → Nat
  | .f32 => 23 | .f16 => 10 | .b16 => 7 | .e4 => 3 | .e5 => 2

/-- Width of the exponent field (R60). -/
def FloatFmt.expo : FloatFmt → Nat
  | .f32 => 8 | .f16 => 5 | .b16 => 8 | .e4 => 4 | .e5 => 5

/-- Exponent bias (R60). -/
def FloatFmt.bias : FloatFmt → Nat
  | .f32 => 127 | .f16 => 15 | .b16 => 127 | .e4 => 7 | .e5 => 15

/-- The canonical NaN (R60). -/
def FloatFmt.nan : FloatFmt → Nat
  | .f32 => 0x7FC00000 | .f16 => 0x7E00 | .b16 => 0x7FC0 | .e4 => 0x7F | .e5 => 0x7E

/-- The absent code (R60). -/
def FloatFmt.absent : FloatFmt → Nat
  | .f32 => 0xFFC00001 | .f16 => 0xFE01 | .b16 => 0xFFC1 | .e4 => 0xFF | .e5 => 0xFD

/-- The largest finite magnitude, as a code (R60). -/
def FloatFmt.maxFinite : FloatFmt → Nat
  | .f32 => 0x7F7FFFFF | .f16 => 0x7BFF | .b16 => 0x7F7F | .e4 => 0x7E | .e5 => 0x7B

/-- The code of +∞; E4 has none, and 0x7F stands for it (R60, R68). -/
def FloatFmt.inf : FloatFmt → Nat
  | .f32 => 0x7F800000 | .f16 => 0x7C00 | .b16 => 0x7F80 | .e4 => 0x7F | .e5 => 0x7C

/-- The sign bit. -/
def FloatFmt.signBit (f : FloatFmt) : Nat := 2 ^ (f.width - 1)

/-- The formats whose subnormals R69 flushes; E4 and E5 are storage formats. -/
def FloatFmt.flushes : FloatFmt → Bool
  | .f32 | .f16 | .b16 => true
  | .e4 | .e5 => false

/-- An integer format: Sn or Nn (R62). -/
structure IntFmt where
  signed : Bool
  width : Nat
  deriving DecidableEq, Repr, Inhabited

/-- The absent code of an integer format (R62). -/
def IntFmt.absent (f : IntFmt) : Nat := if f.signed then 2 ^ (f.width - 1) else 2 ^ f.width - 1

/-- The least present value (R62). -/
def IntFmt.lo (f : IntFmt) : Int := if f.signed then -(2 ^ (f.width - 1) - 1 : Int) else 0

/-- The greatest present value (R62). -/
def IntFmt.hi (f : IntFmt) : Int := if f.signed then 2 ^ (f.width - 1) - 1 else 2 ^ f.width - 2

/-- The value of a code. -/
def IntFmt.value (f : IntFmt) (v : Nat) : Int :=
  let u := v % 2 ^ f.width
  if f.signed && decide (2 ^ (f.width - 1) ≤ u) then (u : Int) - 2 ^ f.width else u

/-- The code of a value. -/
def IntFmt.code (f : IntFmt) (x : Int) : Nat := (x % 2 ^ f.width).toNat

/-- A value clamped to the present range, with the overflow flag (R62). -/
def IntFmt.clamp (f : IntFmt) (x : Int) : Nat × Flags :=
  if x < f.lo then (f.code f.lo, .overflow)
  else if f.hi < x then (f.code f.hi, .overflow)
  else (f.code x, .none)

/-- An element format of data: floating point or integer (R59). -/
inductive Elem where
  | flt (f : FloatFmt)
  | int (f : IntFmt)
  deriving DecidableEq, Repr, Inhabited

/-- Width of an element in bits. -/
def Elem.width : Elem → Nat
  | .flt f => f.width
  | .int f => f.width

/-- The absent code of an element format (R60, R62). -/
def Elem.absent : Elem → Nat
  | .flt f => f.absent
  | .int f => f.absent

/-- A format code (R59). -/
inductive Fmt where
  | elem (e : Elem)
  | a16
  /-- Qn, n from 2 to 8 (R63). -/
  | q (n : Nat)
  /-- A derived rotation pair (R67). -/
  | pair
  deriving DecidableEq, Repr, Inhabited

def Elem.f32 : Elem := .flt .f32
def Elem.n32 : Elem := .int ⟨false, 32⟩

/-- The format of a code; 5, 6 and 24-31 are reserved (R59). -/
def Fmt.ofCode? (c : Nat) : Option Fmt :=
  match c with
  | 0 => some (.elem (.flt .f32))
  | 1 => some (.elem (.flt .f16))
  | 2 => some (.elem (.flt .b16))
  | 3 => some (.elem (.flt .e4))
  | 4 => some (.elem (.flt .e5))
  | 7 => some .a16
  | 8 => some (.elem (.int ⟨true, 8⟩))
  | 9 => some (.elem (.int ⟨true, 16⟩))
  | 10 => some (.elem (.int ⟨true, 32⟩))
  | 11 => some (.elem (.int ⟨true, 64⟩))
  | 12 => some (.elem (.int ⟨false, 8⟩))
  | 13 => some (.elem (.int ⟨false, 16⟩))
  | 14 => some (.elem (.int ⟨false, 32⟩))
  | 15 => some (.elem (.int ⟨false, 64⟩))
  | 23 => some .pair
  | _ => if 16 ≤ c ∧ c ≤ 22 then some (.q (c - 14)) else Option.none

/-- The element format of a code, F32 where the code names none (callers check first). -/
def Elem.ofCode (c : Nat) : Elem :=
  match Fmt.ofCode? c with
  | some (.elem e) => e
  | _ => .f32

/-- Bits of a row element for tile geometry: blocks of a Qn count per 16 elements elsewhere (R59). -/
def Fmt.width : Fmt → Nat
  | .elem e => e.width
  | .a16 => 16
  | .q n => n
  | .pair => 64

/-- What an element denotes: absent, a NaN, the NaN of an invalid operation, an infinity, or (−1)^neg · num/den · 2^e. -/
inductive Val where
  | absent
  | nan
  | invalid
  | inf (neg : Bool)
  | fin (neg : Bool) (num den : Nat) (e : Int)
  deriving DecidableEq, Repr, Inhabited

/-- A zero. -/
def Val.zero (neg : Bool) : Val := .fin neg 0 1 0

/-- Sign of a number. -/
def Val.neg : Val → Bool
  | .inf s => s
  | .fin s _ _ _ => s
  | _ => false

/-- A finite zero. -/
def Val.isZero : Val → Bool
  | .fin _ n _ _ => n == 0
  | _ => false

/-- Is it a NaN of either kind. -/
def Val.isNan : Val → Bool
  | .nan => true
  | .invalid => true
  | _ => false

/-- What a floating-point code denotes (R60, R61); `honour` keeps subnormals, else R69 reads them as zeros. -/
def FloatFmt.decode (f : FloatFmt) (honour : Bool) (v : Nat) : Val :=
  let v := v % 2 ^ f.width
  if v = f.absent then .absent
  else
    let neg := decide (f.signBit ≤ v)
    let mag := v % f.signBit
    let e := mag / 2 ^ f.frac
    let m := mag % 2 ^ f.frac
    if f = .e4 ∧ mag = 0x7F then .nan
    else if f ≠ .e4 ∧ e = 2 ^ f.expo - 1 then (if m = 0 then .inf neg else .nan)
    else if e = 0 then
      if m = 0 ∨ (f.flushes ∧ ¬ honour) then .zero neg
      else .fin neg m 1 (1 - (f.bias : Int) - f.frac)
    else .fin neg (2 ^ f.frac + m) 1 ((e : Int) - f.bias - f.frac)

/-- What an integer code denotes (R62). -/
def IntFmt.decode (f : IntFmt) (v : Nat) : Val :=
  if v % 2 ^ f.width = f.absent then .absent
  else .fin (decide (f.value v < 0)) (f.value v).natAbs 1 0

/-- What an element denotes. -/
def Elem.decode (e : Elem) (honour : Bool) (v : Nat) : Val :=
  match e with
  | .flt f => f.decode honour v
  | .int f => f.decode v

/-- An element is absent by its code (R59, R175). -/
def Elem.isAbsent (e : Elem) (v : Nat) : Bool := v % 2 ^ e.width == e.absent

/-- `num / den` rounded to an integer, and whether that changed it (R68). -/
def roundNat (rm : Rm) (neg : Bool) (num den : Nat) : Nat × Bool :=
  let q := num / den
  let r := num % den
  if r = 0 then (q, false)
  else
    let up := match rm with
      | .rne => decide (den < 2 * r) || (2 * r == den && q % 2 == 1)
      | .rtz => false
      | .rup => !neg
      | .rdn => neg
      | .rna => decide (den ≤ 2 * r)
    (if up then q + 1 else q, true)

/-- `num / den · 2^e` rounded to an integer (R68). -/
def roundScaled (rm : Rm) (neg : Bool) (num den : Nat) (e : Int) : Nat × Bool :=
  roundNat rm neg (num * 2 ^ e.toNat) (den * 2 ^ (-e).toNat)

/-- floor(log2(num / den)) for positive num and den. -/
def floorLog2 (num den : Nat) : Int :=
  let d := (Nat.log2 num : Int) - Nat.log2 den
  if den * 2 ^ d.toNat ≤ num * 2 ^ (-d).toNat then d else d - 1

/-- The code of ±∞ and its flags; in E4 the canonical NaN, with overflow (R68). -/
def FloatFmt.infResult (f : FloatFmt) (neg : Bool) : Nat × Flags :=
  if f = .e4 then (f.nan, .overflow ||| .nonFinite)
  else ((if neg then f.signBit else 0) + f.inf, .nonFinite)

/-- What the mode gives on overflow (R68). -/
def FloatFmt.overflowed (f : FloatFmt) (rm : Rm) (neg : Bool) : Nat × Flags :=
  let away := match rm with
    | .rne | .rna => true
    | .rtz => false
    | .rup => !neg
    | .rdn => neg
  if away then ((f.infResult neg).1, (f.infResult neg).2 ||| .overflow ||| .inexact)
  else ((if neg then f.signBit else 0) + f.maxFinite, .overflow ||| .inexact)

/-- The exact value `num/den · 2^e` of the given sign rounded once to the format (R68), tiny results by R69. That a tiny inexact result in E4 or E5 sets underflow in every mode is the model's choice (log 60). -/
def FloatFmt.round (f : FloatFmt) (rm : Rm) (honour neg : Bool) (num den : Nat) (e : Int) : Nat × Flags :=
  let sign := if neg then f.signBit else 0
  if num = 0 then (sign, .none)
  else
    let ex := floorLog2 num den + e
    let emin : Int := 1 - f.bias
    -- rounded with an unbounded exponent range: is it below the smallest normal
    let unbounded := roundScaled rm neg num den (e - (ex - f.frac))
    let tiny := decide (ex < emin) && !(decide (ex = emin - 1) && decide (2 ^ (f.frac + 1) ≤ unbounded.1))
    if tiny && f.flushes && !honour then (sign, .underflow ||| .inexact)
    else
      let q := max ex emin - f.frac
      let r := roundScaled rm neg num den (e - q)
      let m := r.1
      let code := if m < 2 ^ f.frac then m
        else ((q + f.frac + f.bias).toNat - 1) * 2 ^ f.frac + m
      let flags := Flags.when r.2 .inexact ||| Flags.when (tiny && r.2) .underflow
      if f.maxFinite < code then
        let o := f.overflowed rm neg
        (o.1, o.2 ||| flags)
      else (sign + code, flags)

/-- A value delivered to a floating-point format with its flags (R61, R68, R72, R73). -/
def FloatFmt.deliver (f : FloatFmt) (rm : Rm) (honour : Bool) (v : Val) : Nat × Flags :=
  match v with
  | .absent => (f.absent, .absentConsumed)
  | .nan => (f.nan, .nonFinite)
  | .invalid => (f.nan, .invalid ||| .nonFinite)
  | .inf neg => f.infResult neg
  | .fin neg num den e => f.round rm honour neg num den e

/-- A value rounded to an integer and clamped to the present range (R62, R71). -/
def IntFmt.deliver (f : IntFmt) (rm : Rm) (v : Val) : Nat × Flags :=
  match v with
  | .absent => (f.absent, .absentConsumed)
  | .nan | .invalid => (0, .invalid)
  | .inf neg => (f.code (if neg then f.lo else f.hi), .invalid)
  | .fin neg num den e =>
    let r := roundScaled rm neg num den e
    let c := f.clamp (if neg then -(r.1 : Int) else r.1)
    (c.1, c.2 ||| Flags.when r.2 .inexact)

/-- A value delivered to an element format. -/
def Elem.deliver (e : Elem) (rm : Rm) (honour : Bool) (v : Val) : Nat × Flags :=
  match e with
  | .flt f => f.deliver rm honour v
  | .int f => f.deliver rm v

/-- The saturating narrowing of R172, R208, R233: a result that would be ±∞ (or E4's NaN for it) is ±largest finite, with overflow. That an infinite source sets overflow alone is the model's choice (log 60). -/
def FloatFmt.deliverSat (f : FloatFmt) (rm : Rm) (honour : Bool) (v : Val) : Nat × Flags :=
  let r := f.deliver rm honour v
  match v with
  | .inf neg => ((if neg then f.signBit else 0) + f.maxFinite, .overflow)
  | .fin neg _ _ _ =>
    if r.2 &&& .nonFinite = .none then r
    else ((if neg then f.signBit else 0) + f.maxFinite, r.2 &&& ~~~Flags.nonFinite)
  | _ => r

/-- A conversion between element formats (R71); `sat` acts only toward a floating-point format other than F32 (R172). -/
def convert (src dst : Elem) (rm : Rm) (honour sat : Bool) (v : Nat) : Nat × Flags :=
  let x := src.decode honour v
  match dst with
  | .int f => f.deliver rm x
  | .flt f => if sat ∧ f ≠ .f32 then f.deliverSat rm honour x else f.deliver rm honour x

end Sys2Proof.Machine
end

