-- ==== Sys2Proof/Machine/Arith.lean ====
section
/-! DEFINITION. Arithmetic on element codes: floating point (R68, R72, R164), integers (R168), comparisons (R166), reductions (R74, R75), top-k order (R77), stochastic rounding (R70), block floating point (R63-R65). -/

namespace Sys2Proof.Machine

/-- Product of two present, non-NaN values; 0 × ∞ is invalid (R73). -/
def Val.mul (x y : Val) : Val :=
  match x, y with
  | .absent, _ | _, .absent => .absent
  | .nan, _ | _, .nan => .nan
  | .invalid, _ | _, .invalid => .invalid
  | .inf s, y => if y.isZero then .invalid else .inf (s ^^ y.neg)
  | x, .inf s => if x.isZero then .invalid else .inf (x.neg ^^ s)
  | .fin s n d e, .fin t n' d' e' => .fin (s ^^ t) (n * n') (d * d') (e + e')

/-- Negation; absent and NaNs stay. -/
def Val.negate : Val → Val
  | .inf s => .inf (!s)
  | .fin s n d e => .fin (!s) n d e
  | v => v

/-- Magnitude; absent and NaNs stay. -/
def Val.abs : Val → Val
  | .inf _ => .inf false
  | .fin _ n d e => .fin false n d e
  | v => v

/-- Exact sum of two finite values over a common exponent. An exact zero is +0, −0 under RDN, unless both are zeros of one sign (R82, R164). -/
def Val.addFin (rm : Rm) (s : Bool) (n d : Nat) (e : Int) (t : Bool) (n' d' : Nat) (e' : Int) : Val :=
  if n = 0 ∧ n' = 0 then .zero (if s = t then s else rm = .rdn)
  else
    let m := Min.min e e'
    let a := (n * d' * 2 ^ (e - m).toNat : Nat)
    let b := (n' * d * 2 ^ (e' - m).toNat : Nat)
    let x : Int := (if s then -(a : Int) else a) + (if t then -(b : Int) else b)
    if x = 0 then .zero (rm = .rdn)
    else .fin (decide (x < 0)) x.natAbs (d * d') m

/-- Sum of two values; ∞ − ∞ is invalid (R73). A NaN operand decides the result before an invalid operation does (R61). -/
def Val.add (rm : Rm) (x y : Val) : Val :=
  match x, y with
  | .absent, _ | _, .absent => .absent
  | .nan, _ | _, .nan => .nan
  | .invalid, _ | _, .invalid => .invalid
  | .inf s, .inf t => if s = t then .inf s else .invalid
  | .inf s, _ => .inf s
  | _, .inf t => .inf t
  | .fin s n d e, .fin t n' d' e' => Val.addFin rm s n d e t n' d' e'

/-- Quotient; 0/0 and ∞/∞ are invalid, x/0 is a signed infinity (R73, R164). -/
def Val.div (x y : Val) : Val :=
  match x, y with
  | .absent, _ | _, .absent => .absent
  | .nan, _ | _, .nan => .nan
  | .invalid, _ | _, .invalid => .invalid
  | .inf _, .inf _ => .invalid
  | .inf s, y => .inf (s ^^ y.neg)
  | x, .inf t => .zero (x.neg ^^ t)
  | .fin s n d e, .fin t n' d' e' =>
    if n' = 0 then (if n = 0 then .invalid else .inf (s ^^ t))
    else .fin (s ^^ t) (n * d') (d * n') (e - e')

/-- Integer square root by bits, high to low. -/
def isqrtLoop (fuel : Nat) (n r : Nat) : Nat :=
  match fuel with
  | 0 => r
  | k + 1 =>
    let c := r + 2 ^ k
    isqrtLoop k n (if c * c ≤ n then c else r)

/-- floor(√n). -/
def isqrt (n : Nat) : Nat := isqrtLoop (Nat.log2 n / 2 + 1) n 0

/-- √(num/den · 2^e) as a value that rounds as the root does: exact where the root is, else with a sticky last bit far below every format. -/
def sqrtFin (num den : Nat) (e : Int) : Val :=
  let num := if e % 2 = 0 then num else num * 2
  let e := e - e % 2
  let k := 80 + Nat.log2 den
  let y := num * 4 ^ k / den
  let r := isqrt y
  if r * r = y ∧ num * 4 ^ k % den = 0 then .fin false r 1 (e / 2 - k)
  else .fin false (2 * r + 1) 1 (e / 2 - k - 1)

/-- Square root; −0 gives −0, a negative operand is invalid (R165). -/
def Val.sqrt (x : Val) : Val :=
  match x with
  | .inf s => if s then .invalid else .inf false
  | .fin s n d e => if n = 0 then .zero s else if s then .invalid else sqrtFin n d e
  | v => v

/-- 1/√x: ±0 gives ±∞, +∞ gives +0 (R165). -/
def Val.rsqrt (x : Val) : Val :=
  match x with
  | .inf s => if s then .invalid else .zero false
  | .fin s n d e => if n = 0 then .inf s else if s then .invalid else sqrtFin d n (-e)
  | v => v

/-- The number one. -/
def Val.one : Val := .fin false 1 1 0

/-- Signed comparison key of two finite values: the cross difference. -/
def Val.crossDiff (s : Bool) (n d : Nat) (e : Int) (t : Bool) (n' d' : Nat) (e' : Int) : Int :=
  let m := Min.min e e'
  let a : Int := (n * d' * 2 ^ (e - m).toNat : Nat)
  let b : Int := (n' * d * 2 ^ (e' - m).toNat : Nat)
  (if s then -a else a) - (if t then -b else b)

/-- Order of two present numbers; −0 equals +0 (R166). -/
def Val.compare (x y : Val) : Ordering :=
  match x, y with
  | .inf s, .inf t => if s = t then .eq else if s then .lt else .gt
  | .inf s, _ => if s then .lt else .gt
  | _, .inf t => if t then .gt else .lt
  | .fin s n d e, .fin t n' d' e' =>
    let c := Val.crossDiff s n d e t n' d' e'
    if c < 0 then .lt else if c = 0 then .eq else .gt
  | _, _ => .eq

/-- The larger of two values; MAX(−0, +0) is +0, a NaN decides (R72). -/
def Val.max (x y : Val) : Val :=
  match x, y with
  | .absent, _ | _, .absent => .absent
  | .nan, _ | _, .nan => .nan
  | .invalid, _ | _, .invalid => .invalid
  | x, y =>
    match x.compare y with
    | .lt => y
    | .gt => x
    | .eq => if x.neg then y else x

/-- The smaller of two values; MIN(−0, +0) is −0, a NaN decides (R72). -/
def Val.min (x y : Val) : Val :=
  match x, y with
  | .absent, _ | _, .absent => .absent
  | .nan, _ | _, .nan => .nan
  | .invalid, _ | _, .invalid => .invalid
  | x, y =>
    match x.compare y with
    | .lt => x
    | .gt => y
    | .eq => if x.neg then x else y

/-- p + q with one rounding to come, where p and q are products of one fused operation: an invalid one decides, whatever the other (R73, log 22). -/
def Val.addProducts (rm : Rm) (p q : Val) : Val :=
  match p, q with
  | .absent, _ | _, .absent => .absent
  | p, q => if p = .invalid ∨ q = .invalid then .invalid else p.add rm q

/-- a × b + c with one rounding to come; absent operands decide first, and 0 × ∞ is invalid whatever the addend (R61, R72, R73). -/
def Val.fma (rm : Rm) (a b c : Val) : Val :=
  match a, b, c with
  | .absent, _, _ | _, .absent, _ | _, _, .absent => .absent
  | a, b, c => if a.mul b = .invalid then .invalid else (a.mul b).add rm c

/-- The relations of the comparisons (R151, R166). -/
inductive Rel where
  | eq | ne | lt | le
  deriving DecidableEq, Repr

/-- Does an order satisfy the relation. -/
def Rel.holds (r : Rel) (o : Ordering) : Bool :=
  match r with
  | .eq => o == .eq
  | .ne => o != .eq
  | .lt => o == .lt
  | .le => o != .gt

/-- Comparison of two codes: the truth value and whether an operand is absent (R72). -/
def Elem.compare (r : Rel) (e : Elem) (honour : Bool) (a b : Nat) : Bool × Bool :=
  let x := e.decode honour a
  let y := e.decode honour b
  if x = .absent ∨ y = .absent then (false, true)
  else if x.isNan || y.isNan then (r == .ne, false)
  else (r.holds (x.compare y), false)

/-- The class mask of raw bits, without a flush (R167). -/
def FloatFmt.classOf (f : FloatFmt) (v : Nat) : Nat :=
  let mag := v % f.signBit
  let neg := decide (f.signBit ≤ v % 2 ^ f.width)
  match f.decode true v with
  | .absent => 2 ^ 9
  | .nan | .invalid => 2 ^ 8
  | .inf s => if s then 2 ^ 0 else 2 ^ 7
  | .fin _ n _ _ =>
    if n = 0 then (if neg then 2 ^ 3 else 2 ^ 4)
    else if mag < 2 ^ f.frac then (if neg then 2 ^ 2 else 2 ^ 5)
    else (if neg then 2 ^ 1 else 2 ^ 6)

/-- The integer operations of R168. -/
inductive IntOp where
  | add | sub | mul | max | min
  deriving DecidableEq, Repr

/-- The exact result of an integer operation. -/
def IntOp.apply (o : IntOp) (x y : Int) : Int :=
  match o with
  | .add => x + y
  | .sub => x - y
  | .mul => x * y
  | .max => if x < y then y else x
  | .min => if y < x then y else x

/-- An integer instruction on two codes: absent propagates, every other result is clamped (R62, R168). -/
def IntFmt.arith (f : IntFmt) (o : IntOp) (a b : Nat) : Nat × Flags :=
  if a % 2 ^ f.width = f.absent ∨ b % 2 ^ f.width = f.absent then (f.absent, .absentConsumed)
  else f.clamp (o.apply (f.value a) (f.value b))

/-- The reduction operations (R74, R181). -/
inductive RedOp where
  | add | mul | max | min | or | and
  deriving DecidableEq, Repr

/-- op of a combine step on two present codes (R74). -/
def RedOp.step (o : RedOp) (e : Elem) (rm : Rm) (honour : Bool) (a b : Nat) : Nat × Flags :=
  match o, e with
  | .or, _ => (a ||| b, .none)
  | .and, _ => (a &&& b, .none)
  | .add, .flt f => f.deliver rm honour ((f.decode honour a).add rm (f.decode honour b))
  | .mul, .flt f => f.deliver rm honour ((f.decode honour a).mul (f.decode honour b))
  | .max, .flt f => f.deliver rm honour ((f.decode honour a).max (f.decode honour b))
  | .min, .flt f => f.deliver rm honour ((f.decode honour a).min (f.decode honour b))
  | .add, .int f => f.clamp (f.value a + f.value b)
  | .mul, .int f => f.clamp (f.value a * f.value b)
  | .max, .int f => f.clamp (IntOp.max.apply (f.value a) (f.value b))
  | .min, .int f => f.clamp (IntOp.min.apply (f.value a) (f.value b))

/-- A partial reduction: value code, count, flags raised so far. Whether it is present, its code says (R6, R74). -/
structure Partial where
  value : Nat
  count : Nat
  flags : Flags
  deriving DecidableEq, Repr, Inhabited

/-- present(x) of a partial result (R6). -/
def Elem.there (e : Elem) (p : Partial) : Bool := !e.isAbsent p.value

/-- An input of a reduction: one contributor, or absent (R74). -/
def Elem.input (e : Elem) (absent : Bool) (v : Nat) : Partial :=
  if absent then ⟨e.absent, 0, .none⟩ else ⟨v, 1, .none⟩

/-- The combine step (R74): absent is the identity; a saturated count sets overflow. -/
def RedOp.combine (o : RedOp) (e : Elem) (rm : Rm) (honour : Bool) (a b : Partial) : Partial :=
  let flags := a.flags ||| b.flags
  match e.there a, e.there b with
  | false, false => ⟨e.absent, 0, flags⟩
  | false, true => { b with flags := flags }
  | true, false => { a with flags := flags }
  | true, true =>
    let r := o.step e rm honour a.value b.value
    let n := a.count + b.count
    ⟨r.1, Min.min n (2 ^ 32 - 1), flags ||| r.2 ||| Flags.when (decide (2 ^ 32 - 1 < n)) .overflow⟩

/-- The flag of a written value: an infinity or a NaN is a non-finite result (R73). -/
def Elem.written (e : Elem) (v : Nat) : Flags :=
  match e with
  | .int _ => .none
  | .flt f => Flags.when (match f.decode true v with | .inf _ => true | .nan => true | _ => false) .nonFinite

/-- The flags of a delivered reduction: those of its steps, with non-finite-produced from the written value alone (R73). -/
def Elem.reduceFlags (e : Elem) (p : Partial) : Flags :=
  match e with
  | .int _ => p.flags
  | .flt _ => (p.flags &&& ~~~Flags.nonFinite) ||| e.written p.value

/-- One level of the pairwise tree: adjacent results, lower first (R75). -/
def treeLevel (f : Partial → Partial → Partial) : List Partial → List Partial
  | a :: b :: rest => f a b :: treeLevel f rest
  | l => l

/-- The pairwise tree over a list, a level at a time (R75). -/
def treeLevels (fuel : Nat) (f : Partial → Partial → Partial) (l : List Partial) : List Partial :=
  match fuel with
  | 0 => l
  | k + 1 => treeLevels k f (treeLevel f l)

/-- The pairwise tree over at most 2^7 partial results (R75). -/
def treeReduce (f : Partial → Partial → Partial) (l : List Partial) (empty : Partial) : Partial :=
  ((treeLevels 7 f l).head?).getD empty

/-- The position of a key in the order of R77, larger first; absent is below every present key. Subnormals keep their value. -/
def Elem.orderKey (e : Elem) (v : Nat) : Nat :=
  match e with
  | .flt f =>
    match f.decode true v with
    | .absent => 0
    | .nan | .invalid => 2 ^ f.width + 1
    | _ =>
      let mag := v % f.signBit
      if f.signBit ≤ v % 2 ^ f.width then f.signBit - mag else f.signBit + 1 + mag
  | .int f =>
    if v % 2 ^ f.width = f.absent then 0
    else (f.value v + 2 ^ (f.width - 1) + 1).toNat

/-- A key as it is written back: a NaN key as the canonical NaN, every other with its bits (R77). -/
def Elem.keyOut (e : Elem) (v : Nat) : Nat :=
  match e with
  | .flt f => if (f.decode true v).isNan then f.nan else v
  | .int _ => v

/-- Insert into a list that falls by key, ties by ascending tie-breaker. Entries are (key order, index order, key code, index). -/
def insertKey (x : Nat × Nat × Nat × Nat) : List (Nat × Nat × Nat × Nat) → List (Nat × Nat × Nat × Nat)
  | [] => [x]
  | y :: r => if y.1 < x.1 ∨ (y.1 = x.1 ∧ x.2.1 < y.2.1) then x :: y :: r else y :: insertKey x r

/-- Stable descending sort of keys (R77, R182). -/
def sortKeys (l : List (Nat × Nat × Nat × Nat)) : List (Nat × Nat × Nat × Nat) :=
  l.foldl (fun acc x => insertKey x acc) []

/-- Stochastic rounding of F32 bits `x` to `d` with the random operand `r` of `k` bits (R70). An exact value, absent, a NaN and ±∞ set no flag (R325). -/
def stochastic (d : FloatFmt) (rm : Rm) (honour : Bool) (x r k : Nat) : Nat × Flags :=
  match FloatFmt.f32.decode honour x with
  | .fin neg n _ e =>
    if n = 0 then (if neg then d.signBit else 0, .none)
    else
      let ex := (Nat.log2 n : Int) + e
      let u := max ex (1 - (d.bias : Int)) - d.frac
      -- the exact value is n · 2^e; positions of x below u are those from its last place, max (ex − 23) (−149)
      let low := max (ex - 23) (-149)
      let width := (u - low).toNat
      let scaled := n * 2 ^ (e - low).toNat / 2 ^ (low - e).toNat
      let t := scaled / 2 ^ width
      let rest := scaled % 2 ^ width
      if rest = 0 then d.round rm honour neg n 1 e
      else
        let j := Min.min k width
        let f := rest * 2 ^ j / 2 ^ width
        let rj := r % 2 ^ k / 2 ^ (k - j)
        let m := if rj < f then t + 1 else t
        let res := d.round rm honour neg m 1 u
        let tiny := decide (m ≠ 0) && decide (floorLog2 m 1 + u < 1 - (d.bias : Int)) || decide (m = 0)
        (res.1, res.2 ||| .inexact ||| Flags.when tiny .underflow)
  | v => ((d.deliver rm honour v).1, .none)

/-- What a Qn element denotes: exponent byte `e`, mantissa code `m` (R64). -/
def qDecode (n e m : Nat) : Val :=
  if e = 0xFF then .absent
  else if m % 2 ^ n = 2 ^ (n - 1) then .absent
  else if e = 0 then .zero false
  else
    let x := (IntFmt.mk true n).value m
    .fin (decide (x < 0)) x.natAbs 1 ((e : Int) - 127 - ((n : Int) - 2))

/-- Mantissa `i` of the little-endian mantissa field of a block (R63). -/
def qMantissa (n field i : Nat) : Nat := field / 2 ^ (n * i) % 2 ^ n

/-- A finite magnitude in a block, zero elsewhere: num, den, exponent. -/
def Val.finMag : Val → Option (Nat × Nat × Int)
  | .fin _ n d e => some (n, d, e)
  | _ => none

/-- The largest floor(log2) of the finite non-zero elements (R65). -/
def qTop (xs : List Val) : Option Int :=
  xs.foldl (fun acc x =>
    match x with
    | .fin _ n d e =>
      if n = 0 then acc
      else
        let l := floorLog2 n d + e
        some (match acc with | some a => max a l | none => l)
    | _ => acc) none

/-- The rounded mantissas of the finite elements at quantum exponent `q`, with the inexact ones marked. -/
def qRound (rm : Rm) (q : Int) (xs : List Val) : List (Int × Bool) :=
  xs.map fun x =>
    match x with
    | .fin s n d e =>
      let r := roundScaled rm s n d (e - q)
      (if s then -(r.1 : Int) else r.1, r.2)
    | _ => (0, false)

/-- The encoding of a group of 16 elements as a Qn block: exponent byte, mantissa codes, flags (R65). NaN elements become absent first. -/
def qEncode (n : Nat) (rm : Rm) (xs0 : List Val) : Nat × List Nat × Flags :=
  let nanFlags := Flags.when (xs0.any Val.isNan) .invalid
  let xs := xs0.map fun x => if x.isNan then .absent else x
  let lim : Int := 2 ^ (n - 1) - 1
  let absentCode := 2 ^ (n - 1)
  if xs.all (· == .absent) then (0xFF, xs.map fun _ => absentCode, nanFlags)
  else
    let anyInf := xs.any fun x => match x with | .inf _ => true | _ => false
    let e0 : Int :=
      if anyInf then 0xFE
      else match qTop xs with
        | none => 0
        | some l => max 1 (l + 127)
    let quantum (e : Int) : Int := e - 127 - ((n : Int) - 2)
    let big (l : List (Int × Bool)) : Bool := l.any fun p => decide (lim < p.1) || decide (p.1 < -lim)
    let first := qRound rm (quantum e0) xs
    let e1 : Int := if e0 ≠ 0 ∧ big first ∧ e0 < 0xFE then e0 + 1 else e0
    let second := qRound rm (quantum e1) xs
    let top := decide (0xFE ≤ e1)
    let e2 : Int := if top then 0xFE else e1
    let final := qRound rm (quantum e2) xs
    let clamped := top && big final
    let ms : List Int := (xs.zip (if e0 = 0 then xs.map (fun _ => ((0 : Int), false)) else final)).map fun p =>
      match p.1 with
      | .inf s => if s then -lim else lim
      | .absent => -(2 ^ (n - 1) : Int)
      | _ => if lim < p.2.1 then lim else if p.2.1 < -lim then -lim else p.2.1
    let nonzero := (xs.zip ms).any fun p => p.1 != .absent && p.2 != 0
    let e3 : Nat := if nonzero then e2.toNat else 0
    let inexact := e0 ≠ 0 ∧ ((second.any (·.2) ∧ ¬ top) ∨ (top ∧ (final.any (·.2) ∨ clamped)) ∨ anyInf)
    (e3, ms.map fun m => (IntFmt.mk true n).code m,
      nanFlags ||| Flags.when (anyInf || clamped) .overflow ||| Flags.when (decide inexact) .inexact)

/-- The little-endian mantissa field of a block from its codes (R63). -/
def qField (n : Nat) (ms : List Nat) : Nat :=
  ms.foldr (fun m acc => m % 2 ^ n + 2 ^ n * acc) 0

end Sys2Proof.Machine
end

