-- ==== Sys2Proof/Config.lean ====
section
/-! DEFINITION. What the module fixes, and the free values: what the spec leaves open, as constants without a body. -/

namespace Sys2Proof.Config

/-- FREE VALUE (log 3). The n-th value that the spec leaves open: data that a far end returns (R1, R280, R292), a signature or key (R286, R289), a firmware measurement (R269, R287). `Sys.taken` counts the values taken. -/
opaque freeValue : Nat → Word

/-- FREE VALUE (log 3). The n-th off-core latency: a time that varies with the world outside the core (R120, R195, R199, R239). The model waits at least one cycle for it. -/
opaque latency : Nat → Nat

/-- FREE VALUE (log 3). Which stack's stride-gather unit of a die generates an element: true for stack 1. R312 names the unit; no rule places addresses in stacks. -/
opaque stackUnit : Word → Bool

/-- FREE VALUE (log 3). The firmware's version (R269). -/
opaque firmwareVersion : Word

/-- FREE VALUE (log 3). The firmware measurements of blocks 1 to 3, and the digest of the identity chain (R286, R287). -/
opaque measurement : Nat → BitVec 256
opaque identityDigest : BitVec 256

/-- FREE VALUE (log 3). Which of the measured images of R287 the manifest's "firmware" is, less 1 (R269): the spec does not say. -/
opaque firmwareBlock : Fin 3

/-- FREE VALUE (log 3). The span links that trained at boot, bit k for link k (R269, R285): the far ends decide it. -/
opaque trainedLinks : BitVec 16

/-- FREE VALUE (log 68). In each 512 cycles that begin at `dmax`, throttling opens one of every two, four or eight windows of 64 cycles: the device's choice, as 0, 1 or 2 (R356). -/
opaque throttle : Nat → Fin 3

/-- FREE VALUE (log 70). How long a write travels on the host link, in cycles: those on their way at a device-level reset are dropped (R349). -/
opaque hostFlight : Nat

/-- FREE VALUE (log 31). What an absent row holds in a format that has no absent code, by format code: A16, a derived pair (R66, R67, R233). -/
opaque absentCode : Nat → Word

/-- FREE VALUE (log 14). What an expansion leaves in a register whose last value R241 does not state: a function of its record's words, the rows of its operands, the register's number and what it held, so the same for equal inputs (R13, R240). -/
opaque expansionLeaves : List Word → List (List Byte) → Nat → Word → Word

/-- FREE VALUE (log 23). Cycles from the ordering point of a scope to the owner, for an access that reaches its owner in a given cycle (R242, R243). -/
opaque beyondPort : Nat → Nat → Nat

/-- HBM frames of a die's slice on the ZM8 (R273). -/
def hbmFrames : Nat := 114440

/-- Frames of one CXL port as sold: 2,048 GB (R8, R273). The module carries the capacity in GB of 10^9 bytes (R4); whole 2 MiB frames count. -/
def portFrames : Nat := 2048 * 1000000000 / 2097152

/-- Part code of the Zijan (R269, R283). -/
def partCode : Nat := 0x0003

/-- DEVID as the ZM8 ships: stepping 0x0001 in [31:16], part code in [15:0] (R283). -/
def devid : Word := 0x00010003

end Sys2Proof.Config
end

