-- ==== Sys2Proof/Syntax.lean ====
section
/-! DEFINITION. The instructions and steps of the machine: one constructor for each row of spec/opcode_table.json.

A row with an encoding carries the fields of its slot word, named and sized as the table has them (R104 to R111).
A Camvel row carries the 64-byte record (R218) and the number under which a level accepted it.
An event row carries what the event names: the core, the context, the command, the window, the value written. -/

namespace Sys2Proof

/-- A Camvel record: eight little-endian 64-bit words (R218). Words 1-2 describe the destination, 3-4 source A, 5-6 source B, word 7 is the parameter. -/
structure CamvelRecord where
  w0 : Word
  w1 : Word
  w2 : Word
  w3 : Word
  w4 : Word
  w5 : Word
  w6 : Word
  w7 : Word
  deriving DecidableEq, Repr, Inhabited

/-- The register block through which a level releases a frozen master (R313). -/
inductive FreezeBlock where
  | arbour (p : BitVec 3)
  | lodge (d : BitVec 2)
  | hub
  deriving DecidableEq, Repr, Inhabited

/-- Who holds a tile fault record: a context of a core, or a tile issue window (R311). -/
inductive FaultHolder where
  | context (core : Nat) (ctx : Fin 4)
  | window (n : BitVec 3)
  deriving DecidableEq, Repr, Inhabited

/-- Where a soft error strikes (R341): a byte-memory key, or the controller state of a level. -/
inductive ErrorSite where
  | memory (key : Nat)
  | controller (level : Nat)
  deriving DecidableEq, Repr, Inhabited

/-- Where an SPDM message arrives (R286): the DOE mailbox, or the management channel of a span link. -/
inductive Channel where
  | doe
  | span (link : BitVec 4)
  deriving DecidableEq, Repr, Inhabited

/-- What a request of a link asks for (R194, R281, R291): a read of n bytes, a write, or, of a span link, an ATOM by its opcode less 0x08, on 64 bits or 32, with its operands. -/
inductive PeerRequest where
  | read (n : Nat)
  | write (data : List Byte)
  | atom (op : BitVec 3) (wide uns : Bool) (v cmp : Word)
  deriving DecidableEq, Repr, Inhabited

/-- What an incoming request of a span link does, over the length that it gives (R194, R281): a read, a write, or an ATOM by its opcode less 0x08. -/
inductive PeerOp where
  | read
  | write (data : List Byte)
  | atom (op : BitVec 3) (uns : Bool) (v cmp : Word)
  deriving DecidableEq, Repr, Inhabited

/-- The instructions of the slots, the Camvel records and the events of the module. -/
inductive Instr where
  /-- BRA (R122). Unconditional branch to the issue group address plus a signed 26-bit displacement in 4-byte units. -/
  | bra (d : BitVec 26)
  /-- BZ (R122). Branches by a signed 21-bit displacement when all 64 bits of ra are zero. -/
  | bz (a : BitVec 5) (d : BitVec 21)
  /-- BNZ (R122). Branches by a signed 21-bit displacement when ra is non-zero. -/
  | bnz (a : BitVec 5) (d : BitVec 21)
  /-- JR (R122). Jumps to ra[31:0] plus a signed displacement, modulo 2^32. -/
  | jr (a : BitVec 5) (d : BitVec 21)
  /-- LOOP (R21). Pushes loop-stack entry LPj with its count and exit, and enters the body, or branches to the exit when the count is 0. -/
  | loop (l : BitVec 3) (d : BitVec 23)
  /-- ENDL (R21). Rotates ROTB, advances the innermost temporal index and loops back, or closes the entry and falls through. -/
  | endl
  /-- BREAK (R21). Closes the innermost temporal entry without rotating and branches to its exit. -/
  | breakLoop
  /-- WAITS (R124). Holds its group until every masked tile register has no pending write and, with idle, no readers. -/
  | waits (i : BitVec 1) (m : BitVec 16)
  /-- WAITC (R125). Holds its group until trigger counter TCn reaches the threshold in ra under the wrapping comparison. -/
  | waitc (a : BitVec 5) (n : BitVec 6)
  /-- BAR (R126). Marks arrival at the spread barrier once earlier accesses perform; the next group waits for the release. -/
  | bar
  /-- FENCE (R127). Orders the context's covered accesses at a scope as a full, release or acquire fence. -/
  | fence (k : BitVec 2) (s : BitVec 3)
  /-- CTI (R128). Reads a 64-byte Camvel record from the core's scratchpad and enters it in the named level's acceptance queue. -/
  | cti (a : BitVec 5) (l : BitVec 3)
  /-- RDST (R129). Reads a state register by number into ra, landing two cycles later. -/
  | rdst (a : BitVec 5) (s : BitVec 9)
  /-- WRST (R129). Writes ra to a state register by number, checked, effective from the next cycle. -/
  | wrst (a : BitVec 5) (s : BitVec 9)
  /-- TICK (R130). Holds its group until TTICK (timed) or WCYC (shared) reaches ra. -/
  | tick (a : BitVec 5)
  /-- FLRD (R131). Reads the sticky flag set of one slot position, or the OR of all, into ra. -/
  | flrd (a : BitVec 5) (l : BitVec 1) (p : BitVec 5)
  /-- FLCLR (R131). Clears the sticky flags of named slot positions and optionally the first-event record. -/
  | flclr (f : BitVec 1) (p : BitVec 18)
  /-- DIGEST (R132). Absorbs n 64-byte blocks of the core's scratchpad into the task's SHAKE256 state. -/
  | digest (a : BitVec 5) (n : BitVec 16)
  /-- YIELD (R133). In shared mode gives the next issue cycle to another ready context. -/
  | yield
  /-- TRAP (R135). Records class 0 with a code and enters the handler, or faults the context to the supervisor. -/
  | trap (c : BitVec 16)
  /-- ERET (R136). Returns from the handler to EPC.ret and clears EPC.inh. -/
  | eret
  /-- HALT (R137). Stops issue in the context; in-flight work runs on to the task's finish. -/
  | halt
  /-- NOP (R102). A bundle with an empty mask that takes one issue cycle, optionally marking a restart region. -/
  | nop (r : BitVec 1) (s : BitVec 1)
  /-- ADD (R140). Adds two registers modulo 2^64. -/
  | add (d : BitVec 5) (a : BitVec 5) (b : BitVec 5)
  /-- ADD_IMM (R140). Adds a sign-extended immediate modulo 2^64. -/
  | addImm (d : BitVec 5) (a : BitVec 5) (i : BitVec 14)
  /-- SUB (R140). Subtracts rb from ra modulo 2^64. -/
  | sub (d : BitVec 5) (a : BitVec 5) (b : BitVec 5)
  /-- AND (R140). Bitwise AND of two registers. -/
  | and (d : BitVec 5) (a : BitVec 5) (b : BitVec 5)
  /-- AND_IMM (R140). Bitwise AND with a sign-extended immediate. -/
  | andImm (d : BitVec 5) (a : BitVec 5) (i : BitVec 14)
  /-- OR (R140). Bitwise OR of two registers. -/
  | or (d : BitVec 5) (a : BitVec 5) (b : BitVec 5)
  /-- XOR (R140). Bitwise XOR of two registers. -/
  | xor (d : BitVec 5) (a : BitVec 5) (b : BitVec 5)
  /-- SHL (R141). Shifts left by rb[5:0]. -/
  | shl (d : BitVec 5) (a : BitVec 5) (b : BitVec 5)
  /-- SHL_IMM (R141). Shifts left by an immediate 0-63. -/
  | shlImm (d : BitVec 5) (a : BitVec 5) (i : BitVec 14)
  /-- SHR (R141). Logical right shift by rb[5:0]. -/
  | shr (d : BitVec 5) (a : BitVec 5) (b : BitVec 5)
  /-- SHR_IMM (R141). Logical right shift by an immediate 0-63. -/
  | shrImm (d : BitVec 5) (a : BitVec 5) (i : BitVec 14)
  /-- SAR (R141). Arithmetic right shift by rb[5:0]. -/
  | sar (d : BitVec 5) (a : BitVec 5) (b : BitVec 5)
  /-- MIN (R140). Lesser of two registers, signed or unsigned by fn[0]. -/
  | min (d : BitVec 5) (a : BitVec 5) (u : BitVec 1) (b : BitVec 5)
  /-- MAX (R140). Greater of two registers, signed or unsigned by fn[0]. -/
  | max (d : BitVec 5) (a : BitVec 5) (u : BitVec 1) (b : BitVec 5)
  /-- CMPEQ (R140). Writes 1 when the registers are equal, else 0. -/
  | cmpeq (d : BitVec 5) (a : BitVec 5) (b : BitVec 5)
  /-- CMPLT (R140). Writes 1 when ra is less than rb as signed values. -/
  | cmplt (d : BitVec 5) (a : BitVec 5) (b : BitVec 5)
  /-- CMPLTU (R140). Writes 1 when ra is less than rb as unsigned values. -/
  | cmpltu (d : BitVec 5) (a : BitVec 5) (b : BitVec 5)
  /-- MUL (R142). Low 64 bits of the product, latency 3. -/
  | mul (d : BitVec 5) (a : BitVec 5) (b : BitVec 5)
  /-- MULH (R142). High 64 bits of the signed or unsigned 128-bit product. -/
  | mulh (d : BitVec 5) (a : BitVec 5) (u : BitVec 1) (b : BitVec 5)
  /-- CLMUL (R143). Low half of the carry-less product. -/
  | clmul (d : BitVec 5) (a : BitVec 5) (b : BitVec 5)
  /-- CLMULH (R143). High half of the carry-less product. -/
  | clmulh (d : BitVec 5) (a : BitVec 5) (b : BitVec 5)
  /-- BREV (R144). Reverses bits over 64 bits, 32 bits or within each byte. -/
  | brev (d : BitVec 5) (a : BitVec 5) (w : BitVec 2)
  /-- POPC (R144). Counts the 1 bits of ra. -/
  | popc (d : BitVec 5) (a : BitVec 5)
  /-- MOV (R145). Copies a register within the slot's file. -/
  | mov (d : BitVec 5) (a : BitVec 5)
  /-- MOVX (R38). Copies a register of the other scalar file, landing at issue + 2. -/
  | movx (d : BitVec 5) (a : BitVec 5)
  /-- LIMM (R146). Writes a 16-bit immediate into one quarter of rd. -/
  | limm (d : BitVec 5) (q : BitVec 2) (i : BitVec 16)
  /-- MOV_STAGING (R147). Copies ra into an engine staging register at issue + 1. -/
  | movStaging (a : BitVec 5) (s : BitVec 6)
  /-- LD (R148). Loads 8 bytes from a local or remote scratchpad address. -/
  | ld (d : BitVec 5) (a : BitVec 5) (i : BitVec 14)
  /-- ST (R148). Stores 8 bytes to a local or remote scratchpad address. -/
  | st (d : BitVec 5) (a : BitVec 5) (i : BitVec 14)
  /-- FADD (R150). F32 addition rounded once. -/
  | fadd (d : BitVec 5) (a : BitVec 5) (o : BitVec 1) (m : BitVec 3) (b : BitVec 5)
  /-- FMUL (R150). F32 multiplication rounded once. -/
  | fmul (d : BitVec 5) (a : BitVec 5) (o : BitVec 1) (m : BitVec 3) (b : BitVec 5)
  /-- FMA (R150). Fused F32 ra times rb plus rd with one rounding. -/
  | fma (d : BitVec 5) (a : BitVec 5) (o : BitVec 1) (m : BitVec 3) (b : BitVec 5)
  /-- FCMP (R151). F32 comparison writing the truth bit and an absent bit. -/
  | fcmp (d : BitVec 5) (a : BitVec 5) (s : BitVec 5) (b : BitVec 5)
  /-- FCVT (R152). Scalar conversion between F32 and S64, N64, F16 or B16. -/
  | fcvt (d : BitVec 5) (a : BitVec 5) (o : BitVec 1) (m : BitVec 3) (s : BitVec 5)
  /-- PSET (R153). Sets a pointer's address from ra. -/
  | pset (p : BitVec 5) (a : BitVec 5)
  /-- PSTEP (R153). Sets a pointer's signed step from ra. -/
  | pstep (p : BitVec 5) (a : BitVec 5)
  /-- PWIN (R153). Sets a pointer's wrap length and window base from ra. -/
  | pwin (p : BitVec 5) (a : BitVec 5)
  /-- PADV (R154). Advances a pointer by n steps with wrap. -/
  | padv (p : BitVec 5) (n : BitVec 16)
  /-- SPCFG (R155). Writes one configuration register of a stream port and resets its position. -/
  | spcfg (p : BitVec 4) (a : BitVec 5) (r : BitVec 2)
  /-- SPRST (R155). Resets a stream port's walk position to 0. -/
  | sprst (p : BitVec 4)
  /-- XLAT (R157). Sends a translation probe for a virtual address to its owner into XAn. -/
  | xlat (x : BitVec 2) (a : BitVec 5)
  /-- XCLR (R157). Clears XAn and discards any outstanding probe result. -/
  | xclr (x : BitVec 2)
  /-- XLAT_RESULT (R157). A probe result lands in XAn with done set. -/
  | xlatResult (core : Nat) (ctx : Fin 4) (x : BitVec 2)
  /-- VADD_F (R164). Floating-point elementwise addition. -/
  | vaddF (k : BitVec 3) (d : BitVec 6) (a : BitVec 6) (b : BitVec 6) (p : BitVec 1) (q : BitVec 1) (f : BitVec 2)
  /-- VSUB_F (R164). Floating-point elementwise subtraction. -/
  | vsubF (k : BitVec 3) (d : BitVec 6) (a : BitVec 6) (b : BitVec 6) (p : BitVec 1) (q : BitVec 1) (f : BitVec 2)
  /-- VMUL_F (R164). Floating-point elementwise multiplication. -/
  | vmulF (k : BitVec 3) (d : BitVec 6) (a : BitVec 6) (b : BitVec 6) (p : BitVec 1) (q : BitVec 1) (f : BitVec 2)
  /-- VFMA_F (R164). Fused a times b plus d. -/
  | vfmaF (k : BitVec 3) (d : BitVec 6) (a : BitVec 6) (b : BitVec 6) (p : BitVec 1) (q : BitVec 1) (f : BitVec 2)
  /-- VFMS_F (R164). Fused a times b minus d. -/
  | vfmsF (k : BitVec 3) (d : BitVec 6) (a : BitVec 6) (b : BitVec 6) (p : BitVec 1) (q : BitVec 1) (f : BitVec 2)
  /-- VFNMA_F (R164). Fused d minus a times b. -/
  | vfnmaF (k : BitVec 3) (d : BitVec 6) (a : BitVec 6) (b : BitVec 6) (p : BitVec 1) (q : BitVec 1) (f : BitVec 2)
  /-- VDIV_F (R164). Floating-point elementwise division. -/
  | vdivF (k : BitVec 3) (d : BitVec 6) (a : BitVec 6) (b : BitVec 6) (p : BitVec 1) (q : BitVec 1) (f : BitVec 2)
  /-- VSQRT_F (R165). Elementwise square root. -/
  | vsqrtF (k : BitVec 3) (d : BitVec 6) (a : BitVec 6) (p : BitVec 1) (f : BitVec 2)
  /-- VMAX_F (R164). Elementwise floating-point maximum. -/
  | vmaxF (k : BitVec 3) (d : BitVec 6) (a : BitVec 6) (b : BitVec 6) (p : BitVec 1) (q : BitVec 1) (f : BitVec 2)
  /-- VMIN_F (R164). Elementwise floating-point minimum. -/
  | vminF (k : BitVec 3) (d : BitVec 6) (a : BitVec 6) (b : BitVec 6) (p : BitVec 1) (q : BitVec 1) (f : BitVec 2)
  /-- VABS_F (R165). Elementwise absolute value. -/
  | vabsF (k : BitVec 3) (d : BitVec 6) (a : BitVec 6) (p : BitVec 1) (f : BitVec 2)
  /-- VNEG_F (R165). Elementwise negation. -/
  | vnegF (k : BitVec 3) (d : BitVec 6) (a : BitVec 6) (p : BitVec 1) (f : BitVec 2)
  /-- VEXP2_F (R165). Elementwise 2 to the power a. -/
  | vexp2F (k : BitVec 3) (d : BitVec 6) (a : BitVec 6) (p : BitVec 1) (f : BitVec 2)
  /-- VLOG2_F (R165). Elementwise base-2 logarithm. -/
  | vlog2F (k : BitVec 3) (d : BitVec 6) (a : BitVec 6) (p : BitVec 1) (f : BitVec 2)
  /-- VRCP_F (R165). Elementwise reciprocal. -/
  | vrcpF (k : BitVec 3) (d : BitVec 6) (a : BitVec 6) (p : BitVec 1) (f : BitVec 2)
  /-- VRSQ_F (R165). Elementwise reciprocal square root. -/
  | vrsqF (k : BitVec 3) (d : BitVec 6) (a : BitVec 6) (p : BitVec 1) (f : BitVec 2)
  /-- VSIN_F (R165). Elementwise sine of pi times a. -/
  | vsinF (k : BitVec 3) (d : BitVec 6) (a : BitVec 6) (p : BitVec 1) (f : BitVec 2)
  /-- VCOS_F (R165). Elementwise cosine of pi times a. -/
  | vcosF (k : BitVec 3) (d : BitVec 6) (a : BitVec 6) (p : BitVec 1) (f : BitVec 2)
  /-- VTANH_F (R165). Elementwise hyperbolic tangent. -/
  | vtanhF (k : BitVec 3) (d : BitVec 6) (a : BitVec 6) (p : BitVec 1) (f : BitVec 2)
  /-- VCMPEQ_F (R166). Floating-point equality comparison into a predicate and absent mask. -/
  | vcmpeqF (k : BitVec 3) (d : BitVec 3) (a : BitVec 6) (b : BitVec 6) (p : BitVec 1) (q : BitVec 1) (f : BitVec 2)
  /-- VCMPNE_F (R166). Floating-point not-equal comparison. -/
  | vcmpneF (k : BitVec 3) (d : BitVec 3) (a : BitVec 6) (b : BitVec 6) (p : BitVec 1) (q : BitVec 1) (f : BitVec 2)
  /-- VCMPLT_F (R166). Floating-point less-than comparison. -/
  | vcmpltF (k : BitVec 3) (d : BitVec 3) (a : BitVec 6) (b : BitVec 6) (p : BitVec 1) (q : BitVec 1) (f : BitVec 2)
  /-- VCMPLE_F (R166). Floating-point less-or-equal comparison. -/
  | vcmpleF (k : BitVec 3) (d : BitVec 3) (a : BitVec 6) (b : BitVec 6) (p : BitVec 1) (q : BitVec 1) (f : BitVec 2)
  /-- VCLASS_F (R167). Writes a one-hot class mask for each element. -/
  | vclassF (k : BitVec 3) (d : BitVec 6) (a : BitVec 6) (p : BitVec 1) (f : BitVec 2)
  /-- VADD_S (R168). Saturating signed integer addition. -/
  | vaddS (k : BitVec 3) (d : BitVec 6) (a : BitVec 6) (b : BitVec 6) (p : BitVec 1) (q : BitVec 1) (f : BitVec 2)
  /-- VSUB_S (R168). Saturating signed integer subtraction. -/
  | vsubS (k : BitVec 3) (d : BitVec 6) (a : BitVec 6) (b : BitVec 6) (p : BitVec 1) (q : BitVec 1) (f : BitVec 2)
  /-- VMUL_S (R168). Saturating signed integer multiplication. -/
  | vmulS (k : BitVec 3) (d : BitVec 6) (a : BitVec 6) (b : BitVec 6) (p : BitVec 1) (q : BitVec 1) (f : BitVec 2)
  /-- VMAX_S (R168). Signed integer maximum. -/
  | vmaxS (k : BitVec 3) (d : BitVec 6) (a : BitVec 6) (b : BitVec 6) (p : BitVec 1) (q : BitVec 1) (f : BitVec 2)
  /-- VMIN_S (R168). Signed integer minimum. -/
  | vminS (k : BitVec 3) (d : BitVec 6) (a : BitVec 6) (b : BitVec 6) (p : BitVec 1) (q : BitVec 1) (f : BitVec 2)
  /-- VCMPEQ_S (R166). Signed integer equality comparison. -/
  | vcmpeqS (k : BitVec 3) (d : BitVec 3) (a : BitVec 6) (b : BitVec 6) (p : BitVec 1) (q : BitVec 1) (f : BitVec 2)
  /-- VCMPLT_S (R166). Signed integer less-than comparison. -/
  | vcmpltS (k : BitVec 3) (d : BitVec 3) (a : BitVec 6) (b : BitVec 6) (p : BitVec 1) (q : BitVec 1) (f : BitVec 2)
  /-- VCMPLE_S (R166). Signed integer less-or-equal comparison. -/
  | vcmpleS (k : BitVec 3) (d : BitVec 3) (a : BitVec 6) (b : BitVec 6) (p : BitVec 1) (q : BitVec 1) (f : BitVec 2)
  /-- VADD_N (R168). Saturating unsigned integer addition. -/
  | vaddN (k : BitVec 3) (d : BitVec 6) (a : BitVec 6) (b : BitVec 6) (p : BitVec 1) (q : BitVec 1) (f : BitVec 2)
  /-- VSUB_N (R168). Saturating unsigned integer subtraction. -/
  | vsubN (k : BitVec 3) (d : BitVec 6) (a : BitVec 6) (b : BitVec 6) (p : BitVec 1) (q : BitVec 1) (f : BitVec 2)
  /-- VMUL_N (R168). Saturating unsigned integer multiplication. -/
  | vmulN (k : BitVec 3) (d : BitVec 6) (a : BitVec 6) (b : BitVec 6) (p : BitVec 1) (q : BitVec 1) (f : BitVec 2)
  /-- VMAX_N (R168). Unsigned integer maximum. -/
  | vmaxN (k : BitVec 3) (d : BitVec 6) (a : BitVec 6) (b : BitVec 6) (p : BitVec 1) (q : BitVec 1) (f : BitVec 2)
  /-- VMIN_N (R168). Unsigned integer minimum. -/
  | vminN (k : BitVec 3) (d : BitVec 6) (a : BitVec 6) (b : BitVec 6) (p : BitVec 1) (q : BitVec 1) (f : BitVec 2)
  /-- VCMPEQ_N (R166). Unsigned integer equality comparison. -/
  | vcmpeqN (k : BitVec 3) (d : BitVec 3) (a : BitVec 6) (b : BitVec 6) (p : BitVec 1) (q : BitVec 1) (f : BitVec 2)
  /-- VCMPLT_N (R166). Unsigned integer less-than comparison. -/
  | vcmpltN (k : BitVec 3) (d : BitVec 3) (a : BitVec 6) (b : BitVec 6) (p : BitVec 1) (q : BitVec 1) (f : BitVec 2)
  /-- VCMPLE_N (R166). Unsigned integer less-or-equal comparison. -/
  | vcmpleN (k : BitVec 3) (d : BitVec 3) (a : BitVec 6) (b : BitVec 6) (p : BitVec 1) (q : BitVec 1) (f : BitVec 2)
  /-- VAND (R169). Raw-bit AND. -/
  | vand (k : BitVec 3) (d : BitVec 6) (a : BitVec 6) (b : BitVec 6) (p : BitVec 1) (q : BitVec 1) (f : BitVec 2)
  /-- VOR (R169). Raw-bit OR. -/
  | vor (k : BitVec 3) (d : BitVec 6) (a : BitVec 6) (b : BitVec 6) (p : BitVec 1) (q : BitVec 1) (f : BitVec 2)
  /-- VXOR (R169). Raw-bit XOR. -/
  | vxor (k : BitVec 3) (d : BitVec 6) (a : BitVec 6) (b : BitVec 6) (p : BitVec 1) (q : BitVec 1) (f : BitVec 2)
  /-- VNOT (R169). Raw-bit NOT. -/
  | vnot (k : BitVec 3) (d : BitVec 6) (a : BitVec 6) (p : BitVec 1) (f : BitVec 2)
  /-- VSHL (R169). Raw-bit left shift per element. -/
  | vshl (k : BitVec 3) (d : BitVec 6) (a : BitVec 6) (b : BitVec 6) (p : BitVec 1) (q : BitVec 1) (f : BitVec 2)
  /-- VSHR (R169). Raw-bit logical right shift per element. -/
  | vshr (k : BitVec 3) (d : BitVec 6) (a : BitVec 6) (b : BitVec 6) (p : BitVec 1) (q : BitVec 1) (f : BitVec 2)
  /-- VSAR (R169). Raw-bit arithmetic right shift per element. -/
  | vsar (k : BitVec 3) (d : BitVec 6) (a : BitVec 6) (b : BitVec 6) (p : BitVec 1) (q : BitVec 1) (f : BitVec 2)
  /-- VROT (R169). Raw-bit rotation toward higher bits per element. -/
  | vrot (k : BitVec 3) (d : BitVec 6) (a : BitVec 6) (b : BitVec 6) (p : BitVec 1) (q : BitVec 1) (f : BitVec 2)
  /-- VCVT (R172). Converts between F32 and another data format with row remapping by part. -/
  | vcvt (k : BitVec 3) (d : BitVec 6) (a : BitVec 6) (s : BitVec 1) (r : BitVec 1) (x : BitVec 4) (w : BitVec 1) (n : BitVec 2)
  /-- VCVTW (R173). Converts between integer formats with clamping and row remapping. -/
  | vcvtw (k : BitVec 3) (d : BitVec 6) (a : BitVec 6) (w : BitVec 2) (x : BitVec 4) (p : BitVec 1) (g : BitVec 1) (n : BitVec 2)
  /-- SRND (R174). Stochastically rounds the F32 value in vd to a narrower format using random bits from va. -/
  | srnd (k : BitVec 3) (d : BitVec 6) (a : BitVec 6) (r : BitVec 5) (p : BitVec 1) (f : BitVec 2)
  /-- FILLA (R175). Replaces absent elements with the fill held in vd. -/
  | filla (k : BitVec 3) (d : BitVec 6) (a : BitVec 6) (x : BitVec 4) (p : BitVec 1)
  /-- MKABS (R175). Writes the absent code where the predicate is set. -/
  | mkabs (k : BitVec 3) (d : BitVec 6) (x : BitVec 4)
  /-- VSEL (R177). Selects va or vb words by a predicate, writing every word. -/
  | vsel (k : BitVec 3) (d : BitVec 6) (a : BitVec 6) (b : BitVec 6) (p : BitVec 1) (q : BitVec 1)
  /-- VMOV (R177). Copies raw bits from va to vd. -/
  | vmov (k : BitVec 3) (d : BitVec 6) (a : BitVec 6) (p : BitVec 1) (f : BitVec 2)
  /-- VMOV_FROM_CN (R177). Writes each CN count to the lanes of its beat. -/
  | vmovFromCn (k : BitVec 3) (d : BitVec 6)
  /-- VMOV_TO_CN (R177). Sets CN entries from lane 0 of each beat. -/
  | vmovToCn (k : BitVec 3) (a : BitVec 6) (p : BitVec 1)
  /-- KAND (R178). Predicate AND with absent masks combined. -/
  | kand (k : BitVec 3) (d : BitVec 3) (a : BitVec 3) (b : BitVec 3)
  /-- KOR (R178). Predicate OR with absent masks combined. -/
  | kor (k : BitVec 3) (d : BitVec 3) (a : BitVec 3) (b : BitVec 3)
  /-- KXOR (R178). Predicate XOR with absent masks combined. -/
  | kxor (k : BitVec 3) (d : BitVec 3) (a : BitVec 3) (b : BitVec 3)
  /-- KNOT (R178). Predicate NOT, never true where absent. -/
  | knot (k : BitVec 3) (d : BitVec 3) (a : BitVec 3)
  /-- KMOV (R178). Copies a predicate and its absent mask. -/
  | kmov (k : BitVec 3) (d : BitVec 3) (a : BitVec 3)
  /-- KMOV_VK (R178). Sets a predicate where vector words are non-zero. -/
  | kmovVk (k : BitVec 3) (d : BitVec 3) (a : BitVec 6) (p : BitVec 1)
  /-- KMOV_KV (R178). Writes a predicate as N32 0 or 1 into a vector. -/
  | kmovKv (k : BitVec 3) (d : BitVec 6) (a : BitVec 3)
  /-- KMOV_AV (R178). Writes an absent mask as N32 0 or 1 into a vector. -/
  | kmovAv (k : BitVec 3) (d : BitVec 6) (a : BitVec 3)
  /-- CNTP (R176). Counts present elements of each beat into vd and CN. -/
  | cntp (k : BitVec 3) (d : BitVec 6) (a : BitVec 6) (x : BitVec 4) (p : BitVec 1)
  /-- CNTP_K (R176). Counts the set predicate bits of each beat into vd and CN. -/
  | cntpK (k : BitVec 3) (d : BitVec 6) (a : BitVec 3)
  /-- VPERM (R179). Permutes lanes within each beat by indices in vb. -/
  | vperm (k : BitVec 3) (d : BitVec 6) (a : BitVec 6) (b : BitVec 6) (p : BitVec 1) (q : BitVec 1)
  /-- VPERM_B (R179). Permutes beats within each lane by indices in vb. -/
  | vpermB (k : BitVec 3) (d : BitVec 6) (a : BitVec 6) (b : BitVec 6) (p : BitVec 1) (q : BitVec 1)
  /-- VBCAST (R179). Broadcasts one lane across each beat. -/
  | vbcast (k : BitVec 3) (d : BitVec 6) (a : BitVec 6) (i : BitVec 4) (p : BitVec 1)
  /-- VBCAST_B (R179). Broadcasts one beat across all beats. -/
  | vbcastB (k : BitVec 3) (d : BitVec 6) (a : BitVec 6) (i : BitVec 4) (p : BitVec 1)
  /-- VROTL (R179). Rotates lanes within each beat. -/
  | vrotl (k : BitVec 3) (d : BitVec 6) (a : BitVec 6) (n : BitVec 4) (p : BitVec 1)
  /-- VROTL_SH (R179). Shifts lanes down within each beat with zero fill. -/
  | vrotlSh (k : BitVec 3) (d : BitVec 6) (a : BitVec 6) (n : BitVec 4) (p : BitVec 1)
  /-- XG (R180). Copies a register of a named lane group into vd. -/
  | xg (k : BitVec 3) (d : BitVec 6) (a : BitVec 6) (g : BitVec 3)
  /-- XG_REL (R180). Copies a register of the lane group n above into vd. -/
  | xgRel (k : BitVec 3) (d : BitVec 6) (a : BitVec 6) (n : BitVec 3)
  /-- REDADD (R181). Sum reduction of each beat with contributor count into CN. -/
  | redadd (k : BitVec 3) (d : BitVec 6) (a : BitVec 6) (c : BitVec 1) (x : BitVec 4) (p : BitVec 1)
  /-- REDMUL (R181). Product reduction of each beat with count. -/
  | redmul (k : BitVec 3) (d : BitVec 6) (a : BitVec 6) (c : BitVec 1) (x : BitVec 4) (p : BitVec 1)
  /-- REDMAX (R181). Maximum reduction of each beat with count. -/
  | redmax (k : BitVec 3) (d : BitVec 6) (a : BitVec 6) (c : BitVec 1) (x : BitVec 4) (p : BitVec 1)
  /-- REDMIN (R181). Minimum reduction of each beat with count. -/
  | redmin (k : BitVec 3) (d : BitVec 6) (a : BitVec 6) (c : BitVec 1) (x : BitVec 4) (p : BitVec 1)
  /-- REDOR (R181). Raw-bit OR reduction of each beat with count. -/
  | redor (k : BitVec 3) (d : BitVec 6) (a : BitVec 6) (c : BitVec 1) (x : BitVec 4) (p : BitVec 1)
  /-- REDAND (R181). Raw-bit AND reduction of each beat with count. -/
  | redand (k : BitVec 3) (d : BitVec 6) (a : BitVec 6) (c : BitVec 1) (x : BitVec 4) (p : BitVec 1)
  /-- TOPK (R182). Sorts the keys of each beat descending with their indices into vd and vd + 1. -/
  | topk (k : BitVec 3) (d : BitVec 6) (a : BitVec 6) (b : BitVec 6) (p : BitVec 1) (q : BitVec 1) (f : BitVec 2)
  /-- QPACK (R184). Encodes each beat of F32 values as a Qn block. -/
  | qpack (k : BitVec 3) (d : BitVec 6) (a : BitVec 6) (n : BitVec 3) (p : BitVec 1)
  /-- QUNPK (R183). Decodes each Qn block into a beat of F32 values. -/
  | qunpk (k : BitVec 3) (d : BitVec 6) (a : BitVec 6) (n : BitVec 3)
  /-- ANGOF (R185). Computes the A16 angle code of (x, y). -/
  | angof (k : BitVec 3) (d : BitVec 6) (a : BitVec 6) (b : BitVec 6) (p : BitVec 1) (q : BitVec 1)
  /-- VCLMUL (R170). Low half of the elementwise carry-less product. -/
  | vclmul (k : BitVec 3) (d : BitVec 6) (a : BitVec 6) (b : BitVec 6) (p : BitVec 1) (q : BitVec 1) (f : BitVec 2)
  /-- VCLMULH (R170). High half of the elementwise carry-less product. -/
  | vclmulh (k : BitVec 3) (d : BitVec 6) (a : BitVec 6) (b : BitVec 6) (p : BitVec 1) (q : BitVec 1) (f : BitVec 2)
  /-- TLD (R192). Loads tile rows from a virtual address into a tile register. -/
  | tld (t : BitVec 16)
  /-- TST (R192). Stores tile rows to a virtual address. -/
  | tst (c : BitVec 1) (e : BitVec 8) (t : BitVec 16)
  /-- LDW (R193). Loads a 32- or 64-bit word from a virtual address into the scratchpad. -/
  | ldw (w : BitVec 1) (t : BitVec 16)
  /-- STW (R193). Stores a 32- or 64-bit scratchpad word to a virtual address. -/
  | stw (w : BitVec 1) (t : BitVec 16)
  /-- ATOM_ADD (R194). Indivisible add at the owner, returning the old value. -/
  | atomAdd (w : BitVec 1) (t : BitVec 16)
  /-- ATOM_MIN (R194). Indivisible minimum at the owner. -/
  | atomMin (w : BitVec 1) (t : BitVec 16)
  /-- ATOM_MAX (R194). Indivisible maximum at the owner. -/
  | atomMax (w : BitVec 1) (t : BitVec 16)
  /-- ATOM_AND (R194). Indivisible AND at the owner. -/
  | atomAnd (w : BitVec 1) (t : BitVec 16)
  /-- ATOM_OR (R194). Indivisible OR at the owner. -/
  | atomOr (w : BitVec 1) (t : BitVec 16)
  /-- ATOM_XOR (R194). Indivisible XOR at the owner. -/
  | atomXor (w : BitVec 1) (t : BitVec 16)
  /-- ATOM_SWAP (R194). Indivisible swap at the owner. -/
  | atomSwap (w : BitVec 1) (t : BitVec 16)
  /-- ATOM_CAS (R194). Indivisible compare-and-swap at the owner. -/
  | atomCas (w : BitVec 1) (t : BitVec 16)
  /-- TILE_TRANSFER_COMPLETE (R192). A TLD commits its rows, or a TST, LDW, STW or ATOM completes, and its counter is incremented. -/
  | tileTransferComplete (core : Nat) (id : Nat)
  /-- CPY (R197). Copies a contiguous range in 64-byte blocks. -/
  | cpy (t : BitVec 16)
  /-- CPYS (R197). Copies n strided elements. -/
  | cpys (t : BitVec 16)
  /-- CPYG (R197). Copies elements gathered by a stride-gather pattern from HBM. -/
  | cpyg (t : BitVec 16)
  /-- CPYR (R198). Refills tile rows from memory after earlier readers release the tile. -/
  | cpyr (t : BitVec 16)
  /-- CPYST (R197). Spills tile rows to memory. -/
  | cpyst (c : BitVec 1) (e : BitVec 8) (t : BitVec 16)
  /-- CPYF (R197). Fills a range with a 64-bit pattern. -/
  | cpyf (t : BitVec 16)
  /-- CPYR_FIRE (R198). A dispatched refill fires once every earlier reader of its tile has taken its last read. -/
  | cpyrFire (core : Nat) (id : Nat)
  /-- COPY_COMPLETE (R199). A copy's last block performs, or a refill's last row commits, and its counter is incremented. -/
  | copyComplete (core : Nat) (id : Nat)
  /-- OLATCH (R202). Copies a 2 KiB bank image from angle memory into a latch bank. -/
  | olatch (b : BitVec 2) (v : BitVec 1) (k : BitVec 2) (t : BitVec 16)
  /-- OPASS (R82). Runs a rotate pass of tile rows through the latched stages and scale stage. -/
  | opass (c : BitVec 1) (e : BitVec 8) (t : BitVec 16)
  /-- OPASSR (R90). Runs the exact transpose of a rotate pass. -/
  | opassr (c : BitVec 1) (e : BitVec 8) (t : BitVec 16)
  /-- ODERIVE (R91). Derives rotations from the data, triangularising rows into the sweep slot and emitting a pair stream. -/
  | oderive (c : BitVec 1) (e : BitVec 8) (t : BitVec 16)
  /-- OAPPLY (R93). Replays a pair stream on another tile with its own slot's residents. -/
  | oapply (c : BitVec 1) (e : BitVec 8) (t : BitVec 16)
  /-- OFREE (R94). Writes the slot's residents to a tile and ends the sweep. -/
  | ofree (t : BitVec 16)
  /-- OSAVE (R203). Freezes a sweep slot and stores its sweep state record to the scratchpad. -/
  | osave (s : BitVec 1) (p : BitVec 4) (t : BitVec 16)
  /-- OREST (R203). Loads a sweep state record into a slot and resumes its pass. -/
  | orest (s : BitVec 1) (p : BitVec 4) (t : BitVec 16)
  /-- ODRIFT (R204). Resets one or every drift register. -/
  | odrift (s : BitVec 2) (n : BitVec 4) (t : BitVec 16)
  /-- OSCFG (R205). Writes an entry of the core's orrery slot table. -/
  | oscfg (c : BitVec 2) (e : BitVec 4) (t : BitVec 16)
  /-- PASS_FINISH (R87). A pass's last row lands and its last pair group performs, clearing wpend and writing the tile tag. -/
  | passFinish (core : Nat) (ctx : Fin 4) (slot : Fin 2)
  /-- DOT (R207). Multiplies a Qn operand by a quantised tile into fresh accumulator entries with counts. -/
  | dot (c : BitVec 1) (e : BitVec 8) (t : BitVec 16)
  /-- DOTA (R207). Multiplies and accumulates into existing accumulator entries. -/
  | dota (c : BitVec 1) (e : BitVec 8) (t : BitVec 16)
  /-- DCFG (R209). Fills operand or accumulator memory from the scratchpad. -/
  | dcfg (s : BitVec 2) (t : BitVec 16)
  /-- DDRAIN (R208). Drains accumulator entries as values, normalised means or counts into a tile. -/
  | ddrain (s : BitVec 2) (t : BitVec 16)
  /-- DCLR (R209). Clears rows of accumulator entries to absent with count 0. -/
  | dclr (t : BitVec 16)
  /-- DSTAT (R209). Stores accumulator entries to the scratchpad. -/
  | dstat (t : BitVec 16)
  /-- ALD (R210). Loads angle memory from the scratchpad. -/
  | ald (d : BitVec 5) (s : BitVec 4) (a : BitVec 1) (b : BitVec 1) (l : BitVec 16)
  /-- SLD (R210). Loads scale memory from the scratchpad. -/
  | sld (d : BitVec 5) (s : BitVec 4) (a : BitVec 1) (b : BitVec 1) (l : BitVec 16)
  /-- PTLD (R210). Writes A16 codes into the angle fields of pair words in angle memory. -/
  | ptld (d : BitVec 5) (s : BitVec 4) (a : BitVec 1) (b : BitVec 1) (l : BitVec 16)
  /-- AST (R210). Stores angle memory to the scratchpad. -/
  | ast (d : BitVec 5) (s : BitVec 4) (a : BitVec 1) (b : BitVec 1) (l : BitVec 16)
  /-- SST (R210). Stores scale memory to the scratchpad. -/
  | sst (d : BitVec 5) (s : BitVec 4) (a : BitVec 1) (b : BitVec 1) (l : BitVec 16)
  /-- TRIG (R216). Arms a queue slot to fire a command header when a counter reaches a threshold. -/
  | trig (s : BitVec 2) (n : BitVec 6) (t : BitVec 16)
  /-- CINC (R215). Adds 1 or ES2 to a trigger counter. -/
  | cinc (s : BitVec 2) (n : BitVec 6) (t : BitVec 16)
  /-- CSET (R215). Sets a trigger counter from ES2, marking TCRW when armed operations name it. -/
  | cset (n : BitVec 6) (t : BitVec 16)
  /-- CRD (R215). Stores a trigger counter's value to the scratchpad. -/
  | crd (n : BitVec 6) (t : BitVec 16)
  /-- EPH (R262). Opens an ephemeris, reading its transit table and fixing its base tick. -/
  | eph (t : BitVec 16)
  /-- AOWCFG (R215). Writes an accumulate-on-write region's configuration registers. -/
  | aowcfg (s : BitVec 2) (n : BitVec 3) (t : BitVec 16)
  /-- READY (R217). Arms a queue slot that watches a region tile's ready bit. -/
  | ready (x : BitVec 5) (n : BitVec 3) (t : BitVec 16)
  /-- EPHEND (R215). Closes the open ephemeris. -/
  | ephend (t : BitVec 16)
  /-- ENGINE_COMMAND_START (R108). A dispatched engine command starts once its delay has run and its engine, slot or orrery grant is free. -/
  | engineCommandStart (core : Nat) (id : Nat)
  /-- TRIGGERED_FIRE (R214). An armed TRIG whose counter condition holds fires its command to the engine. -/
  | triggeredFire (core : Nat) (ctx : Fin 4) (q : Fin 32)
  /-- READY_SLOT_FIRE (R217). An armed READY sees its ready bit set and increments its counter, optionally clearing the bit. -/
  | readySlotFire (core : Nat) (ctx : Fin 4) (q : Fin 32)
  /-- TRANSIT_START (R263). A transit of an open ephemeris starts at its scheduled tick and moves its blocks. -/
  | transitStart (core : Nat) (ctx : Fin 4) (k : Nat)
  /-- TRANSIT_COMPLETE (R263). A transit's last block performs and its counter is incremented. -/
  | transitComplete (core : Nat) (ctx : Fin 4) (k : Nat)
  /-- READY_TIMEOUT (R340). 256 ticks after an ephemeris closes, still-armed READYs are released and a collective fault is raised. -/
  | readyTimeout (core : Nat) (ctx : Fin 4)
  /-- BARRIER_RELEASE (R126). The spread barrier releases L cycles after the last task arrives. -/
  | barrierRelease (spread : Nat)
  /-- REGION_COMMIT (R326). A restart region commits once its off-core accesses are translated, releasing its gated writes. -/
  | regionCommit (core : Nat) (ctx : Fin 4)
  /-- DEADLINE_FAULT (R22). An elapsed count exceeds its budget and a deadline fault is raised. -/
  | deadlineFault (core : Nat) (ctx : Fin 4)
  /-- DEFERRED_FAULT_RAISE (R302). A deferred fault is raised in the first cycle in which the context would issue a group. -/
  | deferredFaultRaise (core : Nat) (ctx : Fin 4)
  /-- TASK_FINISH (R137). After HALT, the last outstanding work completes, the digest is finished and the context becomes idle. -/
  | taskFinish (core : Nat) (ctx : Fin 4)
  /-- DRAIN_HALT (R31). A draining context reaches an iteration boundary, stops, freezes its passes and saves its state. -/
  | drainHalt (core : Nat) (ctx : Fin 4)
  /-- TLOAD (R225). Camvel record copying memory rows into memory or a tile. -/
  | tload (id : Nat) (r : CamvelRecord)
  /-- TSTORE (R225). Camvel record storing rows to memory. -/
  | tstore (id : Nat) (r : CamvelRecord)
  /-- TCOPY (R225). Camvel record copying memory to memory. -/
  | tcopy (id : Nat) (r : CamvelRecord)
  /-- TFILL (R226). Camvel record filling a destination with a pattern. -/
  | tfill (id : Nat) (r : CamvelRecord)
  /-- TMAP (R227). Camvel record launching a kernel image as tasks. -/
  | tmap (id : Nat) (r : CamvelRecord)
  /-- TROT (R228). Camvel record running rows through a rotation schedule. -/
  | trot (id : Nat) (r : CamvelRecord)
  /-- TROTR (R228). Camvel record running rows through the reverse schedule. -/
  | trotr (id : Nat) (r : CamvelRecord)
  /-- TQR (R229). Camvel record triangularising rows and writing the pair stream. -/
  | tqr (id : Nat) (r : CamvelRecord)
  /-- TAPPLY (R229). Camvel record replaying a pair stream on rows. -/
  | tapply (id : Nat) (r : CamvelRecord)
  /-- TDOT (R230). Camvel record computing a block floating-point matrix product. -/
  | tdot (id : Nat) (r : CamvelRecord)
  /-- TRED (R231). Camvel record reducing over rows or columns with counts. -/
  | tred (id : Nat) (r : CamvelRecord)
  /-- TNORM (R231). Camvel record computing count-normalised segment means. -/
  | tnorm (id : Nat) (r : CamvelRecord)
  /-- TTOPK (R232). Camvel record selecting the k largest keys with indices. -/
  | ttopk (id : Nat) (r : CamvelRecord)
  /-- TCONV (R233). Camvel record converting element formats. -/
  | tconv (id : Nat) (r : CamvelRecord)
  /-- TGATHER (R233). Camvel record gathering rows by index. -/
  | tgather (id : Nat) (r : CamvelRecord)
  /-- TSCATTER (R233). Camvel record scattering rows by index. -/
  | tscatter (id : Nat) (r : CamvelRecord)
  /-- TALLRED (R234). Camvel record running the ring all-reduce over child blocks. -/
  | tallred (id : Nat) (r : CamvelRecord)
  /-- TBCAST (R234). Camvel record broadcasting A to every child block. -/
  | tbcast (id : Nat) (r : CamvelRecord)
  /-- TFLIPV (R235). Camvel record flipping twin version selectors over a range. -/
  | tflipv (id : Nat) (r : CamvelRecord)
  /-- TBAR (R235). Camvel record that completes after every earlier record of its source. -/
  | tbar (id : Nat) (r : CamvelRecord)
  /-- TMAP_PLACE (R227). A waiting TMAP places all its tasks once every task fits. -/
  | tmapPlace (id : Nat)
  /-- BLOCK_DELIVERY (R236). An arbour delivers a record block to the lowest free core once one is free. -/
  | blockDelivery (id : Nat) (pav : BitVec 3)
  /-- CAMVEL_RECORD_COMPLETE (R223). A record completes, writes any fault record, advances the digest chain and increments its link counter. -/
  | camvelRecordComplete (id : Nat)
  /-- GATE_RELEASE (R255). A head gate leaves its window once its counter reaches the threshold and the window is enabled. -/
  | gateRelease (win : BitVec 3)
  /-- WINDOW_ACCEPT (R256). The belvedere accepts the head record of the highest-priority eligible window. -/
  | windowAccept (win : BitVec 3)
  /-- COMPARE_MANIFEST_DONE (R269). The comparison finishes and WINnCMS records done, match and the differing field. -/
  | compareManifestDone (win : BitVec 3)
  /-- TLB_INVALIDATE_DONE (R276). The invalidation ends, busy clears and waiting accesses are translated. -/
  | tlbInvalidateDone (owner : Fin 5)
  /-- CONTEXT_SAVE_AREA_DONE (R352). A save or restore finishes or stops on a fault, clearing busy. -/
  | contextSaveAreaDone (core : Nat) (ctx : Fin 4)
  /-- PREEMPTION_REQUEST (R31). The supervisor asks the belvedere to pre-empt a context or timed spread, which enters draining. -/
  | preemptionRequest (core : Nat) (ctx : Fin 4)
  /-- WINDOW_RECORD_PORT_WRITE (R254). A record written to a window's record port enters the window, or is dropped when full. -/
  | windowRecordPortWrite (win : BitVec 3) (r : CamvelRecord)
  /-- WINDOW_GATE_PORT_WRITE (R254). A gate written to a window's gate port enters the window, or is dropped when full. -/
  | windowGatePortWrite (win : BitVec 3) (g : Word)
  /-- WINDOW_COUNTER_WRITE (R257). A write to WINnTC sets the counter, with same-cycle increments added after. -/
  | windowCounterWrite (win : BitVec 3) (tc : BitVec 6) (v : W32)
  /-- COMPARE_MANIFEST_START (R269). A write to WINnCM starts a comparison of a 128-byte manifest with the present configuration. -/
  | compareManifestStart (win : BitVec 3) (addr : Word)
  /-- TLB_INVALIDATE (R276). A write to TLBINV starts invalidating a page range or every TLB entry. -/
  | tlbInvalidate (owner : Fin 5) (v : Word)
  /-- REPLAY (R331). A write of go retranslates every parked access and readies rolled-back contexts. -/
  | replay
  /-- TTHAW (R313). Releases a frozen context, copy engine, stride-gather unit or link. -/
  | tthaw (blk : FreezeBlock) (v : Word)
  /-- TKILL (R342). Kills a context or its whole spread. -/
  | tkill (core : Nat) (v : Word)
  /-- CCMD_SAVE (R352). Writes a halted, faulted or frozen context to its save area. -/
  | ccmdSave (core : Nat) (ctx : Fin 4)
  /-- CCMD_RESTORE (R352). Loads a context from its save area, leaving it halted. -/
  | ccmdRestore (core : Nat) (ctx : Fin 4)
  /-- CCMD_RELEASE (R352). Moves a restored or halted context to ready, restarting timed spreads together. -/
  | ccmdRelease (core : Nat) (ctx : Fin 4)
  /-- CCMD_CONTEXT_RESET (R353). Resets one context and releases its windows. -/
  | ccmdContextReset (core : Nat) (ctx : Fin 4)
  /-- PFQPOP (R314). A write removes the head entry of the package fault queue. -/
  | pfqpop
  /-- TILE_FAULT_RECORD_CLEAR (R311). Writing 1 to valid clears all four words of a tile fault record and ends discard mode. -/
  | tileFaultRecordClear (h : FaultHolder)
  /-- AOW_READY_CLEAR (R57). Writing 1 to a ready bit clears it and zeroes the tile's arrival counter. -/
  | aowReadyClear (core : Nat) (n : Fin 8) (t : BitVec 5)
  /-- READBACK_APERTURE_WRITE (R351). A write through the data aperture changes the selected core memory at its write port. -/
  | readbackApertureWrite (core : Nat) (off : BitVec 16) (bytes : List Byte)
  /-- PWRCTL_WRITE (R355). A write sets the power limit and largest divisor, leaving out-of-range fields unchanged. -/
  | pwrctlWrite (v : Word)
  /-- REGISTER_WRITE (R351). A write through the inspection window or resident program to a register with no row of its own. -/
  | registerWrite (off : BitVec 29) (v : Word) (be : BitVec 8)
  /-- SHARED_WINDOW_ACCESS (R291). A host access through BAR2 is mapped by a shared window to device memory and translated. -/
  | sharedWindowAccess (off : BitVec 36) (len : Nat) (data : Option (List Byte))
  /-- PEER_REQUEST (R281). An incoming span-link request is mapped by a peer window and translated. -/
  | peerRequest (link : BitVec 4) (off : BitVec 48) (len : Nat) (op : PeerOp)
  /-- COLD_RESET (R348). Power-on or PERST# resets everything and boots from phase 0. -/
  | coldReset
  /-- WARM_RESET (R348). RSTCTL warm, hot reset or link disable resets all but host link training and boots from phase 1. -/
  | warmReset
  /-- FUNCTION_LEVEL_RESET (R348). A PCIe Function Level Reset acts as a warm reset. -/
  | functionLevelReset
  /-- BOOT_PHASE_COMPLETE (R285). A boot phase completes or fails and DEVST advances. -/
  | bootPhaseComplete (ok : Bool) (err : BitVec 8)
  /-- GET_VERSION (R286). SPDM request for supported versions. -/
  | getVersion
  /-- GET_CAPABILITIES (R286). SPDM request for responder capabilities. -/
  | getCapabilities
  /-- NEGOTIATE_ALGORITHMS (R286). SPDM request selecting ML-DSA-65, SHAKE256, ML-KEM-768 and AES-256-GCM. -/
  | negotiateAlgorithms
  /-- GET_DIGESTS (R286). SPDM request for certificate chain digests. -/
  | getDigests
  /-- GET_CERTIFICATE (R286). SPDM request for the device identity chain. -/
  | getCertificate (slot : BitVec 3)
  /-- CHALLENGE (R286). SPDM authentication challenge signed with the identity key. -/
  | challenge (slot : BitVec 3)
  /-- GET_MEASUREMENTS (R287). SPDM request returning the signed measurement blocks. -/
  | getMeasurements (index : BitVec 8)
  /-- KEY_EXCHANGE (R286). SPDM session key exchange by ML-KEM-768. -/
  | keyExchange
  /-- FINISH (R286). SPDM message completing session establishment. -/
  | finish
  /-- KEY_UPDATE (R286). SPDM request updating session keys. -/
  | keyUpdate
  /-- HEARTBEAT (R286). SPDM session keep-alive. -/
  | heartbeat
  /-- HEARTBEAT_LOSS (R290). Three consecutive missed HEARTBEATs start the unseal. -/
  | heartbeatLoss
  /-- END_SESSION (R290). SPDM end of session, which starts the unseal when sealed. -/
  | endSession
  /-- SEAL (R290). Vendor-defined seal request: zeroes state, replaces keys, checks and starts the resident program. -/
  | seal (va : Word) (digest : BitVec 256) (size : Nat)
  /-- UNSEAL (R290). Vendor-defined unseal request: stops tasks, replaces keys, zeroes SRAM and opens the device. -/
  | unseal
  /-- DIVISOR_RAISE (R356). After 100 us over a power or thermal limit the clock divisor rises by 1 at a tick boundary. -/
  | divisorRaise
  /-- STALL_WINDOW_OPEN (R270). A package-wide stall window opens at a tick boundary when no context is draining. -/
  | stallWindowOpen (cycles : Nat)
  /-- DIVISOR_LOWER (R356). After 1 ms under the limits stall windows close and the divisor falls by 1. -/
  | divisorLower
  /-- THERMAL_TRIP (R356). The junction reaches 105 C and a stall window stays open until it falls below 100 C. -/
  | thermalTrip
  /-- THERMAL_POWER_OFF (R356). At 115 C junction the module removes its own power. -/
  | thermalPowerOff
  /-- SOFT_ERROR (R341). A bit error strikes a 64-bit word of SRAM, HBM, the CXL tier or controller state; an uncorrectable one leaves the word poisoned until a full 64-bit write. -/
  | softError (site : ErrorSite) (correctable : Bool)
  /-- STALL_WINDOW_CLOSE (R356). A 64-cycle throttling stall window expires at a tick boundary, and issue and engine progress resume package-wide. -/
  | stallWindowClose
  /-- TRIP_CLEAR (R356). The hottest junction falls below 105 °C, clearing THST.trip, and then below 100 °C, closing the trip stall window. -/
  | tripClear
  /-- IDE_KEY_MANAGEMENT (R282). An IDE key-management message on the DOE mailbox programs keys for, or activates or deactivates, the selective IDE stream. -/
  | ideKeyManagement (activate : Bool)
  deriving DecidableEq, Repr

end Sys2Proof
end

