-- ==== Sys2Proof/WellFormed.lean ====
section
/-! DEFINITION. Which instructions a slot word can carry: the reserved sub-field values of R149 to R152, R162, R186 and R317 are excluded. Values that only break an operand limit (R119, R320 to R322) are well formed: they fault when they would issue. -/

namespace Sys2Proof

/-- A format code that FILLA, MKABS name: 0-4 and 8-15 (R175). -/
def Instr.fmtFill (x : BitVec 4) : Bool := decide (x.toNat ≤ 4) || decide (8 ≤ x.toNat)

/-- A format code that VCVT names: 1-4 and 8-15 (R172). -/
def Instr.fmtCvt (x : BitVec 4) : Bool := (decide (1 ≤ x.toNat) && decide (x.toNat ≤ 4)) || decide (8 ≤ x.toNat)

/-- A format code that CNTP names: 0-4, 8-10, 12-14 (R176). -/
def Instr.fmtCount (x : BitVec 4) : Bool :=
  decide (x.toNat ≤ 4) || (decide (8 ≤ x.toNat) && decide (x.toNat ≤ 10)) || (decide (12 ≤ x.toNat) && decide (x.toNat ≤ 14))

/-- A format code that REDOR, REDAND name: 8-10, 12-14 (R181). -/
def Instr.fmtRaw (x : BitVec 4) : Bool :=
  (decide (8 ≤ x.toNat) && decide (x.toNat ≤ 10)) || (decide (12 ≤ x.toNat) && decide (x.toNat ≤ 14))

/-- `rm` is a reserved field when `ovr` is 0 (R149). -/
def Instr.rmOk (o : BitVec 1) (m : BitVec 3) : Bool := o == 1 || m == 0

/-- `etag` must be zero when `chk` is 0 (R186). -/
def Instr.tagOk (c : BitVec 1) (e : BitVec 8) : Bool := c == 1 || e == 0

/-- The fields of the instruction hold no reserved value. Camvel records and events have no slot word; they are always well formed. -/
def Instr.wf : Instr → Bool
  | .fence k s => k != 3 && decide (s.toNat < 6)
  | .cti _ l => decide (l.toNat < 4)
  | .brev _ _ w => w != 3
  | .movStaging _ s => decide (s.toNat < 0x28)
  | .fadd _ _ o m _ | .fmul _ _ o m _ | .fma _ _ o m _ => Instr.rmOk o m
  | .fcmp _ _ s _ => decide (s.toNat ≤ 3)
  | .fcvt _ _ o m s => Instr.rmOk o m && decide (s.toNat ≤ 7)
  | .spcfg _ _ r => r != 3
  | .vaddF _ _ _ _ _ _ f | .vsubF _ _ _ _ _ _ f | .vmulF _ _ _ _ _ _ f | .vfmaF _ _ _ _ _ _ f
  | .vfmsF _ _ _ _ _ _ f | .vfnmaF _ _ _ _ _ _ f | .vdivF _ _ _ _ _ _ f | .vmaxF _ _ _ _ _ _ f
  | .vminF _ _ _ _ _ _ f | .vcmpeqF _ _ _ _ _ _ f | .vcmpneF _ _ _ _ _ _ f | .vcmpltF _ _ _ _ _ _ f
  | .vcmpleF _ _ _ _ _ _ f | .topk _ _ _ _ _ _ f => f != 3
  | .vsqrtF _ _ _ _ f | .vabsF _ _ _ _ f | .vnegF _ _ _ _ f | .vexp2F _ _ _ _ f | .vlog2F _ _ _ _ f
  | .vrcpF _ _ _ _ f | .vrsqF _ _ _ _ f | .vsinF _ _ _ _ f | .vcosF _ _ _ _ f | .vtanhF _ _ _ _ f
  | .vclassF _ _ _ _ f => f != 3
  | .vcvt _ _ _ _ _ x _ _ => Instr.fmtCvt x
  | .vcvtw _ _ _ _ x _ _ _ => decide (8 ≤ x.toNat)
  | .filla _ _ _ x _ => Instr.fmtFill x
  | .mkabs _ _ x => Instr.fmtFill x
  | .cntp _ _ _ x _ => Instr.fmtCount x
  | .redadd _ _ _ _ x _ | .redmul _ _ _ _ x _ | .redmax _ _ _ _ x _ | .redmin _ _ _ _ x _ => Instr.fmtCount x
  | .redor _ _ _ _ x _ | .redand _ _ _ _ x _ => Instr.fmtRaw x
  | .qpack _ _ _ n _ => n != 7
  | .qunpk _ _ _ n => n != 7
  | .tst c e _ | .cpyst c e _ | .opass c e _ | .opassr c e _ | .oderive c e _ | .oapply c e _
  | .dot c e _ | .dota c e _ => Instr.tagOk c e
  | .odrift s n _ => s == 0 || (s == 1 && n == 0)
  | .ddrain s _ => s != 3
  | .dcfg s _ => decide (s.toNat < 2)
  | .ald _ _ _ _ l | .sld _ _ _ _ l | .ptld _ _ _ _ l | .ast _ _ _ _ l | .sst _ _ _ _ l => l != 0
  | .trig s _ _ => s != 3
  | .cinc s _ _ => decide (s.toNat < 2)
  | .aowcfg s _ _ => s != 0
  | _ => true

end Sys2Proof
end

