-- ==== Sys2Proof/Decode.lean ====
section
/-! DEFINITION. Bits to instructions and back: slot words (R104 to R111), the refusals of R317, Camvel records (R218). -/

namespace Sys2Proof

/-- Why a slot word is no instruction: the codes of the illegal instruction class (R301, R317). -/
inductive BadWord where
  /-- Code 1: an unassigned opcode. -/
  | unassigned
  /-- Code 2: a reserved field that is not zero. -/
  | reservedField
  /-- Code 3: a reserved value in a field that is in use. -/
  | reservedValue
  /-- Codes 2 and 3: both; the lower is the one reported (R302). -/
  | reservedBoth
  deriving DecidableEq, Repr

/-- The fault code of class 2 that a bad word raises (R317). -/
def BadWord.code : BadWord → Nat
  | .unassigned => 1
  | .reservedField => 2
  | .reservedValue => 3
  | .reservedBoth => 2

/-- The word breaks rules of two codes. -/
def BadWord.several (b : BadWord) : Bool := b == .reservedBoth

/-- The kinds of slot; a word means nothing without the kind of the slot that holds it (R99). -/
inductive SlotKind where
  | control | scalar | address | tileMem | copy | orrery | dot | load | collective | vector
  deriving DecidableEq, Repr

/-- The kind of slot position `p`; positions 18 and above are reserved (R99). -/
def slotKind (p : Nat) : Option SlotKind :=
  match p with
  | 0 => some .control
  | 1 | 2 => some .scalar
  | 3 => some .address
  | 4 => some .tileMem
  | 5 => some .copy
  | 6 => some .orrery
  | 7 => some .dot
  | 8 => some .load
  | 9 => some .collective
  | _ => if p < 18 then some .vector else none

/-- The lowest slot position of a kind (R99). -/
def SlotKind.position : SlotKind → Nat
  | .control => 0 | .scalar => 1 | .address => 3 | .tileMem => 4 | .copy => 5 | .orrery => 6
  | .dot => 7 | .load => 8 | .collective => 9 | .vector => 10

/-- The `n`-bit field of a word that starts at bit `lo`. -/
def bf (w : W32) (lo n : Nat) : BitVec n := BitVec.ofNat n (w.toNat / 2 ^ lo)

/-- The `n`-bit field at bit `lo` is not zero. -/
def nz (w : W32) (lo n : Nat) : Bool := w.toNat / 2 ^ lo % 2 ^ n != 0

/-- The fields hold no reserved value: what `Instr.wf` asks but for what R317 counts among the reserved fields, `etag` without `chk` (R186), `rm` without `ovr` (R149) and the bits of `sel` and `etag` that an entry does not use. -/
def Instr.valuesOk : Instr → Bool
  | .fadd .. | .fmul .. | .fma .. | .tst .. | .cpyst .. | .opass .. | .opassr .. | .oderive .. | .oapply .. | .dot .. | .dota .. | .cinc .. => true
  | .fcvt _ _ _ _ s => decide (s.toNat ≤ 7)
  | .odrift s _ _ => decide (s.toNat < 2)
  | i => i.wf

/-- An instruction whose word has no reserved field (`field`) or value (`value`, or a value `Instr.wf` excludes) set. -/
def pick (field value : Bool) (i : Instr) : Except BadWord Instr :=
  if field then .error (if value || !i.valuesOk then .reservedBoth else .reservedField)
  else if value || !i.wf then .error .reservedValue
  else .ok i

/-- A control word, by its opcode (R104 to R111, R317). -/
def decodeControl (w : W32) : Except BadWord Instr :=
  match w.toNat / 2 ^ 26 with
  | 0x01 => pick false false (.bra (bf w 0 26))
  | 0x02 => pick false false (.bz (bf w 21 5) (bf w 0 21))
  | 0x03 => pick false false (.bnz (bf w 21 5) (bf w 0 21))
  | 0x04 => pick false false (.jr (bf w 21 5) (bf w 0 21))
  | 0x08 => pick false false (.loop (bf w 23 3) (bf w 0 23))
  | 0x09 => pick (nz w 0 26) (false) (.endl)
  | 0x0A => pick (nz w 0 26) (false) (.breakLoop)
  | 0x10 => pick (nz w 17 9) (false) (.waits (bf w 16 1) (bf w 0 16))
  | 0x11 => pick (nz w 6 15) (false) (.waitc (bf w 21 5) (bf w 0 6))
  | 0x12 => pick (nz w 0 26) (false) (.bar)
  | 0x13 => pick (nz w 5 21) (false) (.fence (bf w 3 2) (bf w 0 3))
  | 0x14 => pick (nz w 3 18) (false) (.cti (bf w 21 5) (bf w 0 3))
  | 0x18 => pick (nz w 9 12) (false) (.rdst (bf w 21 5) (bf w 0 9))
  | 0x19 => pick (nz w 9 12) (false) (.wrst (bf w 21 5) (bf w 0 9))
  | 0x1A => pick (nz w 0 21) (false) (.tick (bf w 21 5))
  | 0x1B => pick (nz w 5 4 || nz w 10 11) (false) (.flrd (bf w 21 5) (bf w 9 1) (bf w 0 5))
  | 0x1C => pick (nz w 19 7) (false) (.flclr (bf w 18 1) (bf w 0 18))
  | 0x1D => pick (nz w 16 5) (false) (.digest (bf w 21 5) (bf w 0 16))
  | 0x20 => pick (nz w 0 26) (false) (.yield)
  | 0x21 => pick (nz w 16 10) (false) (.trap (bf w 0 16))
  | 0x22 => pick (nz w 0 26) (false) (.eret)
  | 0x23 => pick (nz w 0 26) (false) (.halt)
  | _ => .error .unassigned

/-- A scalar word, by its opcode (R104 to R111, R317). -/
def decodeScalar (w : W32) : Except BadWord Instr :=
  match w.toNat / 2 ^ 24 with
  | 0x01 => pick (nz w 5 9) (false) (.add (bf w 19 5) (bf w 14 5) (bf w 0 5))
  | 0x02 => pick (nz w 5 9) (false) (.sub (bf w 19 5) (bf w 14 5) (bf w 0 5))
  | 0x03 => pick (nz w 5 9) (false) (.and (bf w 19 5) (bf w 14 5) (bf w 0 5))
  | 0x04 => pick (nz w 5 9) (false) (.or (bf w 19 5) (bf w 14 5) (bf w 0 5))
  | 0x05 => pick (nz w 5 9) (false) (.xor (bf w 19 5) (bf w 14 5) (bf w 0 5))
  | 0x06 => pick (nz w 5 9) (false) (.shl (bf w 19 5) (bf w 14 5) (bf w 0 5))
  | 0x07 => pick (nz w 5 9) (false) (.shr (bf w 19 5) (bf w 14 5) (bf w 0 5))
  | 0x08 => pick (nz w 5 9) (false) (.sar (bf w 19 5) (bf w 14 5) (bf w 0 5))
  | 0x09 => pick (nz w 6 8) (false) (.min (bf w 19 5) (bf w 14 5) (bf w 5 1) (bf w 0 5))
  | 0x0A => pick (nz w 6 8) (false) (.max (bf w 19 5) (bf w 14 5) (bf w 5 1) (bf w 0 5))
  | 0x0B => pick (nz w 5 9) (false) (.cmpeq (bf w 19 5) (bf w 14 5) (bf w 0 5))
  | 0x0C => pick (nz w 5 9) (false) (.cmplt (bf w 19 5) (bf w 14 5) (bf w 0 5))
  | 0x0D => pick (nz w 5 9) (false) (.cmpltu (bf w 19 5) (bf w 14 5) (bf w 0 5))
  | 0x11 => pick false false (.addImm (bf w 19 5) (bf w 14 5) (bf w 0 14))
  | 0x13 => pick false false (.andImm (bf w 19 5) (bf w 14 5) (bf w 0 14))
  | 0x16 => pick false false (.shlImm (bf w 19 5) (bf w 14 5) (bf w 0 14))
  | 0x17 => pick false false (.shrImm (bf w 19 5) (bf w 14 5) (bf w 0 14))
  | 0x20 => pick (nz w 5 9) (false) (.mul (bf w 19 5) (bf w 14 5) (bf w 0 5))
  | 0x21 => pick (nz w 6 8) (false) (.mulh (bf w 19 5) (bf w 14 5) (bf w 5 1) (bf w 0 5))
  | 0x22 => pick (nz w 5 9) (false) (.clmul (bf w 19 5) (bf w 14 5) (bf w 0 5))
  | 0x23 => pick (nz w 5 9) (false) (.clmulh (bf w 19 5) (bf w 14 5) (bf w 0 5))
  | 0x28 => pick (nz w 0 5 || nz w 7 7) (false) (.brev (bf w 19 5) (bf w 14 5) (bf w 5 2))
  | 0x29 => pick (nz w 0 14) (false) (.popc (bf w 19 5) (bf w 14 5))
  | 0x30 => pick (nz w 0 14) (false) (.mov (bf w 19 5) (bf w 14 5))
  | 0x31 => pick (nz w 0 14) (false) (.movx (bf w 19 5) (bf w 14 5))
  | 0x32 => pick (nz w 18 1) (false) (.limm (bf w 19 5) (bf w 16 2) (bf w 0 16))
  | 0x33 => pick (nz w 6 8 || nz w 19 5) (false) (.movStaging (bf w 14 5) (bf w 0 6))
  | 0x38 => pick false false (.ld (bf w 19 5) (bf w 14 5) (bf w 0 14))
  | 0x39 => pick false false (.st (bf w 19 5) (bf w 14 5) (bf w 0 14))
  | 0x40 => pick ((!nz w 13 1 && nz w 10 3)) (nz w 5 5) (.fadd (bf w 19 5) (bf w 14 5) (bf w 13 1) (bf w 10 3) (bf w 0 5))
  | 0x41 => pick ((!nz w 13 1 && nz w 10 3)) (nz w 5 5) (.fmul (bf w 19 5) (bf w 14 5) (bf w 13 1) (bf w 10 3) (bf w 0 5))
  | 0x42 => pick ((!nz w 13 1 && nz w 10 3)) (nz w 5 5) (.fma (bf w 19 5) (bf w 14 5) (bf w 13 1) (bf w 10 3) (bf w 0 5))
  | 0x43 => pick (nz w 10 3) (nz w 13 1) (.fcmp (bf w 19 5) (bf w 14 5) (bf w 5 5) (bf w 0 5))
  | 0x44 => pick (nz w 0 5 || (!nz w 13 1 && nz w 10 3)) (false) (.fcvt (bf w 19 5) (bf w 14 5) (bf w 13 1) (bf w 10 3) (bf w 5 5))
  | _ => .error .unassigned

/-- An address word, by its opcode (R104 to R111, R317). -/
def decodeAddress (w : W32) : Except BadWord Instr :=
  match w.toNat / 2 ^ 26 with
  | 0x01 => pick (nz w 0 16) (false) (.pset (bf w 21 5) (bf w 16 5))
  | 0x02 => pick (nz w 0 16) (false) (.pstep (bf w 21 5) (bf w 16 5))
  | 0x03 => pick (nz w 0 16) (false) (.pwin (bf w 21 5) (bf w 16 5))
  | 0x04 => pick (nz w 16 5) (false) (.padv (bf w 21 5) (bf w 0 16))
  | 0x08 => pick (nz w 25 1) (nz w 2 14) (.spcfg (bf w 21 4) (bf w 16 5) (bf w 0 2))
  | 0x09 => pick (nz w 0 21 || nz w 25 1) (false) (.sprst (bf w 21 4))
  | 0x10 => pick (nz w 0 16 || nz w 23 3) (false) (.xlat (bf w 21 2) (bf w 16 5))
  | 0x11 => pick (nz w 0 21 || nz w 23 3) (false) (.xclr (bf w 21 2))
  | _ => .error .unassigned

/-- A vector word, by its opcode (R104 to R111, R317). -/
def decodeVector (w : W32) : Except BadWord Instr :=
  match w.toNat / 2 ^ 25 with
  | 0x01 => pick false false (.vaddF (bf w 22 3) (bf w 16 6) (bf w 10 6) (bf w 4 6) (bf w 3 1) (bf w 2 1) (bf w 0 2))
  | 0x02 => pick false false (.vsubF (bf w 22 3) (bf w 16 6) (bf w 10 6) (bf w 4 6) (bf w 3 1) (bf w 2 1) (bf w 0 2))
  | 0x03 => pick false false (.vmulF (bf w 22 3) (bf w 16 6) (bf w 10 6) (bf w 4 6) (bf w 3 1) (bf w 2 1) (bf w 0 2))
  | 0x04 => pick false false (.vfmaF (bf w 22 3) (bf w 16 6) (bf w 10 6) (bf w 4 6) (bf w 3 1) (bf w 2 1) (bf w 0 2))
  | 0x05 => pick false false (.vfmsF (bf w 22 3) (bf w 16 6) (bf w 10 6) (bf w 4 6) (bf w 3 1) (bf w 2 1) (bf w 0 2))
  | 0x06 => pick false false (.vfnmaF (bf w 22 3) (bf w 16 6) (bf w 10 6) (bf w 4 6) (bf w 3 1) (bf w 2 1) (bf w 0 2))
  | 0x07 => pick false false (.vdivF (bf w 22 3) (bf w 16 6) (bf w 10 6) (bf w 4 6) (bf w 3 1) (bf w 2 1) (bf w 0 2))
  | 0x08 => pick (nz w 2 1 || nz w 4 6) (false) (.vsqrtF (bf w 22 3) (bf w 16 6) (bf w 10 6) (bf w 3 1) (bf w 0 2))
  | 0x09 => pick false false (.vmaxF (bf w 22 3) (bf w 16 6) (bf w 10 6) (bf w 4 6) (bf w 3 1) (bf w 2 1) (bf w 0 2))
  | 0x0A => pick false false (.vminF (bf w 22 3) (bf w 16 6) (bf w 10 6) (bf w 4 6) (bf w 3 1) (bf w 2 1) (bf w 0 2))
  | 0x0B => pick (nz w 2 1 || nz w 4 6) (false) (.vabsF (bf w 22 3) (bf w 16 6) (bf w 10 6) (bf w 3 1) (bf w 0 2))
  | 0x0C => pick (nz w 2 1 || nz w 4 6) (false) (.vnegF (bf w 22 3) (bf w 16 6) (bf w 10 6) (bf w 3 1) (bf w 0 2))
  | 0x10 => pick (nz w 2 1 || nz w 4 6) (false) (.vexp2F (bf w 22 3) (bf w 16 6) (bf w 10 6) (bf w 3 1) (bf w 0 2))
  | 0x11 => pick (nz w 2 1 || nz w 4 6) (false) (.vlog2F (bf w 22 3) (bf w 16 6) (bf w 10 6) (bf w 3 1) (bf w 0 2))
  | 0x12 => pick (nz w 2 1 || nz w 4 6) (false) (.vrcpF (bf w 22 3) (bf w 16 6) (bf w 10 6) (bf w 3 1) (bf w 0 2))
  | 0x13 => pick (nz w 2 1 || nz w 4 6) (false) (.vrsqF (bf w 22 3) (bf w 16 6) (bf w 10 6) (bf w 3 1) (bf w 0 2))
  | 0x14 => pick (nz w 2 1 || nz w 4 6) (false) (.vsinF (bf w 22 3) (bf w 16 6) (bf w 10 6) (bf w 3 1) (bf w 0 2))
  | 0x15 => pick (nz w 2 1 || nz w 4 6) (false) (.vcosF (bf w 22 3) (bf w 16 6) (bf w 10 6) (bf w 3 1) (bf w 0 2))
  | 0x16 => pick (nz w 2 1 || nz w 4 6) (false) (.vtanhF (bf w 22 3) (bf w 16 6) (bf w 10 6) (bf w 3 1) (bf w 0 2))
  | 0x18 => pick (nz w 19 3) (false) (.vcmpeqF (bf w 22 3) (bf w 16 3) (bf w 10 6) (bf w 4 6) (bf w 3 1) (bf w 2 1) (bf w 0 2))
  | 0x19 => pick (nz w 19 3) (false) (.vcmpneF (bf w 22 3) (bf w 16 3) (bf w 10 6) (bf w 4 6) (bf w 3 1) (bf w 2 1) (bf w 0 2))
  | 0x1A => pick (nz w 19 3) (false) (.vcmpltF (bf w 22 3) (bf w 16 3) (bf w 10 6) (bf w 4 6) (bf w 3 1) (bf w 2 1) (bf w 0 2))
  | 0x1B => pick (nz w 19 3) (false) (.vcmpleF (bf w 22 3) (bf w 16 3) (bf w 10 6) (bf w 4 6) (bf w 3 1) (bf w 2 1) (bf w 0 2))
  | 0x1C => pick (nz w 2 1 || nz w 4 6) (false) (.vclassF (bf w 22 3) (bf w 16 6) (bf w 10 6) (bf w 3 1) (bf w 0 2))
  | 0x20 => pick false false (.vaddS (bf w 22 3) (bf w 16 6) (bf w 10 6) (bf w 4 6) (bf w 3 1) (bf w 2 1) (bf w 0 2))
  | 0x21 => pick false false (.vsubS (bf w 22 3) (bf w 16 6) (bf w 10 6) (bf w 4 6) (bf w 3 1) (bf w 2 1) (bf w 0 2))
  | 0x22 => pick false false (.vmulS (bf w 22 3) (bf w 16 6) (bf w 10 6) (bf w 4 6) (bf w 3 1) (bf w 2 1) (bf w 0 2))
  | 0x23 => pick false false (.vmaxS (bf w 22 3) (bf w 16 6) (bf w 10 6) (bf w 4 6) (bf w 3 1) (bf w 2 1) (bf w 0 2))
  | 0x24 => pick false false (.vminS (bf w 22 3) (bf w 16 6) (bf w 10 6) (bf w 4 6) (bf w 3 1) (bf w 2 1) (bf w 0 2))
  | 0x25 => pick (nz w 19 3) (false) (.vcmpeqS (bf w 22 3) (bf w 16 3) (bf w 10 6) (bf w 4 6) (bf w 3 1) (bf w 2 1) (bf w 0 2))
  | 0x26 => pick (nz w 19 3) (false) (.vcmpltS (bf w 22 3) (bf w 16 3) (bf w 10 6) (bf w 4 6) (bf w 3 1) (bf w 2 1) (bf w 0 2))
  | 0x27 => pick (nz w 19 3) (false) (.vcmpleS (bf w 22 3) (bf w 16 3) (bf w 10 6) (bf w 4 6) (bf w 3 1) (bf w 2 1) (bf w 0 2))
  | 0x28 => pick false false (.vaddN (bf w 22 3) (bf w 16 6) (bf w 10 6) (bf w 4 6) (bf w 3 1) (bf w 2 1) (bf w 0 2))
  | 0x29 => pick false false (.vsubN (bf w 22 3) (bf w 16 6) (bf w 10 6) (bf w 4 6) (bf w 3 1) (bf w 2 1) (bf w 0 2))
  | 0x2A => pick false false (.vmulN (bf w 22 3) (bf w 16 6) (bf w 10 6) (bf w 4 6) (bf w 3 1) (bf w 2 1) (bf w 0 2))
  | 0x2B => pick false false (.vmaxN (bf w 22 3) (bf w 16 6) (bf w 10 6) (bf w 4 6) (bf w 3 1) (bf w 2 1) (bf w 0 2))
  | 0x2C => pick false false (.vminN (bf w 22 3) (bf w 16 6) (bf w 10 6) (bf w 4 6) (bf w 3 1) (bf w 2 1) (bf w 0 2))
  | 0x2D => pick (nz w 19 3) (false) (.vcmpeqN (bf w 22 3) (bf w 16 3) (bf w 10 6) (bf w 4 6) (bf w 3 1) (bf w 2 1) (bf w 0 2))
  | 0x2E => pick (nz w 19 3) (false) (.vcmpltN (bf w 22 3) (bf w 16 3) (bf w 10 6) (bf w 4 6) (bf w 3 1) (bf w 2 1) (bf w 0 2))
  | 0x2F => pick (nz w 19 3) (false) (.vcmpleN (bf w 22 3) (bf w 16 3) (bf w 10 6) (bf w 4 6) (bf w 3 1) (bf w 2 1) (bf w 0 2))
  | 0x30 => pick false false (.vand (bf w 22 3) (bf w 16 6) (bf w 10 6) (bf w 4 6) (bf w 3 1) (bf w 2 1) (bf w 0 2))
  | 0x31 => pick false false (.vor (bf w 22 3) (bf w 16 6) (bf w 10 6) (bf w 4 6) (bf w 3 1) (bf w 2 1) (bf w 0 2))
  | 0x32 => pick false false (.vxor (bf w 22 3) (bf w 16 6) (bf w 10 6) (bf w 4 6) (bf w 3 1) (bf w 2 1) (bf w 0 2))
  | 0x33 => pick (nz w 2 1 || nz w 4 6) (false) (.vnot (bf w 22 3) (bf w 16 6) (bf w 10 6) (bf w 3 1) (bf w 0 2))
  | 0x34 => pick false false (.vshl (bf w 22 3) (bf w 16 6) (bf w 10 6) (bf w 4 6) (bf w 3 1) (bf w 2 1) (bf w 0 2))
  | 0x35 => pick false false (.vshr (bf w 22 3) (bf w 16 6) (bf w 10 6) (bf w 4 6) (bf w 3 1) (bf w 2 1) (bf w 0 2))
  | 0x36 => pick false false (.vsar (bf w 22 3) (bf w 16 6) (bf w 10 6) (bf w 4 6) (bf w 3 1) (bf w 2 1) (bf w 0 2))
  | 0x37 => pick false false (.vrot (bf w 22 3) (bf w 16 6) (bf w 10 6) (bf w 4 6) (bf w 3 1) (bf w 2 1) (bf w 0 2))
  | 0x38 => pick (nz w 2 1) (false) (.vcvt (bf w 22 3) (bf w 16 6) (bf w 10 6) (bf w 9 1) (bf w 8 1) (bf w 4 4) (bf w 3 1) (bf w 0 2))
  | 0x39 => pick false false (.vcvtw (bf w 22 3) (bf w 16 6) (bf w 10 6) (bf w 8 2) (bf w 4 4) (bf w 3 1) (bf w 2 1) (bf w 0 2))
  | 0x3A => pick (nz w 2 1 || nz w 9 1) (false) (.srnd (bf w 22 3) (bf w 16 6) (bf w 10 6) (bf w 4 5) (bf w 3 1) (bf w 0 2))
  | 0x3B => pick (nz w 0 3 || nz w 8 2) (false) (.filla (bf w 22 3) (bf w 16 6) (bf w 10 6) (bf w 4 4) (bf w 3 1))
  | 0x3C => pick (nz w 0 4 || nz w 8 8) (false) (.mkabs (bf w 22 3) (bf w 16 6) (bf w 4 4))
  | 0x3D => pick (false) (bf w 0 2 != 2) (.vsel (bf w 22 3) (bf w 16 6) (bf w 10 6) (bf w 4 6) (bf w 3 1) (bf w 2 1))
  | 0x3E =>
    match (bf w 4 2 : BitVec 2).toNat with
    | 0 => pick (nz w 2 1 || nz w 6 4) false (.vmov (bf w 22 3) (bf w 16 6) (bf w 10 6) (bf w 3 1) (bf w 0 2))
    | 1 => pick (nz w 2 1 || nz w 6 10 || nz w 3 1) (bf w 0 2 != (2 : BitVec 2)) (.vmovFromCn (bf w 22 3) (bf w 16 6))
    | 2 => pick (nz w 2 1 || nz w 6 4 || nz w 16 6) (bf w 0 2 != (2 : BitVec 2)) (.vmovToCn (bf w 22 3) (bf w 10 6) (bf w 3 1))
    | _ => pick (nz w 2 1 || nz w 6 4) true (.vmov (bf w 22 3) (bf w 16 6) (bf w 10 6) (bf w 3 1) (bf w 0 2))
  | 0x40 => pick (nz w 0 4 || nz w 7 3 || nz w 13 3 || nz w 19 3) (false) (.kand (bf w 22 3) (bf w 16 3) (bf w 10 3) (bf w 4 3))
  | 0x41 => pick (nz w 0 4 || nz w 7 3 || nz w 13 3 || nz w 19 3) (false) (.kor (bf w 22 3) (bf w 16 3) (bf w 10 3) (bf w 4 3))
  | 0x42 => pick (nz w 0 4 || nz w 7 3 || nz w 13 3 || nz w 19 3) (false) (.kxor (bf w 22 3) (bf w 16 3) (bf w 10 3) (bf w 4 3))
  | 0x43 => pick (nz w 0 10 || nz w 13 3 || nz w 19 3) (false) (.knot (bf w 22 3) (bf w 16 3) (bf w 10 3))
  | 0x44 =>
    match (bf w 4 2 : BitVec 2).toNat with
    | 0 => pick (nz w 0 4 || nz w 6 4 || nz w 13 3 || nz w 19 3) false (.kmov (bf w 22 3) (bf w 16 3) (bf w 10 3))
    | 1 => pick (nz w 0 3 || nz w 6 4 || nz w 19 3) false (.kmovVk (bf w 22 3) (bf w 16 3) (bf w 10 6) (bf w 3 1))
    | 2 => pick (nz w 0 4 || nz w 6 4 || nz w 13 3) false (.kmovKv (bf w 22 3) (bf w 16 6) (bf w 10 3))
    | _ => pick (nz w 0 4 || nz w 6 4 || nz w 13 3) false (.kmovAv (bf w 22 3) (bf w 16 6) (bf w 10 3))
  | 0x45 =>
    if bf w 9 1 = (0 : BitVec 1) then pick (nz w 0 3 || nz w 8 1) false (.cntp (bf w 22 3) (bf w 16 6) (bf w 10 6) (bf w 4 4) (bf w 3 1))
    else pick (nz w 0 9 || nz w 13 3) false (.cntpK (bf w 22 3) (bf w 16 6) (bf w 10 3))
  | 0x48 =>
    match (bf w 0 2 : BitVec 2).toNat with
    | 0 => pick false false (.vperm (bf w 22 3) (bf w 16 6) (bf w 10 6) (bf w 4 6) (bf w 3 1) (bf w 2 1))
    | 1 => pick false false (.vpermB (bf w 22 3) (bf w 16 6) (bf w 10 6) (bf w 4 6) (bf w 3 1) (bf w 2 1))
    | _ => pick false true (.vperm (bf w 22 3) (bf w 16 6) (bf w 10 6) (bf w 4 6) (bf w 3 1) (bf w 2 1))
  | 0x49 =>
    if bf w 0 1 = (0 : BitVec 1) then pick (nz w 1 2 || nz w 8 2) false (.vbcast (bf w 22 3) (bf w 16 6) (bf w 10 6) (bf w 4 4) (bf w 3 1))
    else pick (nz w 1 2 || nz w 8 2) false (.vbcastB (bf w 22 3) (bf w 16 6) (bf w 10 6) (bf w 4 4) (bf w 3 1))
  | 0x4A =>
    if bf w 0 1 = (0 : BitVec 1) then pick (nz w 1 2 || nz w 8 2) false (.vrotl (bf w 22 3) (bf w 16 6) (bf w 10 6) (bf w 4 4) (bf w 3 1))
    else pick (nz w 1 2 || nz w 8 2) false (.vrotlSh (bf w 22 3) (bf w 16 6) (bf w 10 6) (bf w 4 4) (bf w 3 1))
  | 0x4B =>
    if bf w 7 1 = (0 : BitVec 1) then pick (nz w 0 4 || nz w 8 2) false (.xg (bf w 22 3) (bf w 16 6) (bf w 10 6) (bf w 4 3))
    else pick (nz w 0 4 || nz w 8 2) false (.xgRel (bf w 22 3) (bf w 16 6) (bf w 10 6) (bf w 4 3))
  | 0x50 => pick (nz w 0 3 || nz w 9 1) (false) (.redadd (bf w 22 3) (bf w 16 6) (bf w 10 6) (bf w 8 1) (bf w 4 4) (bf w 3 1))
  | 0x51 => pick (nz w 0 3 || nz w 9 1) (false) (.redmul (bf w 22 3) (bf w 16 6) (bf w 10 6) (bf w 8 1) (bf w 4 4) (bf w 3 1))
  | 0x52 => pick (nz w 0 3 || nz w 9 1) (false) (.redmax (bf w 22 3) (bf w 16 6) (bf w 10 6) (bf w 8 1) (bf w 4 4) (bf w 3 1))
  | 0x53 => pick (nz w 0 3 || nz w 9 1) (false) (.redmin (bf w 22 3) (bf w 16 6) (bf w 10 6) (bf w 8 1) (bf w 4 4) (bf w 3 1))
  | 0x54 => pick (nz w 0 3 || nz w 9 1) (false) (.redor (bf w 22 3) (bf w 16 6) (bf w 10 6) (bf w 8 1) (bf w 4 4) (bf w 3 1))
  | 0x55 => pick (nz w 0 3 || nz w 9 1) (false) (.redand (bf w 22 3) (bf w 16 6) (bf w 10 6) (bf w 8 1) (bf w 4 4) (bf w 3 1))
  | 0x56 => pick false false (.topk (bf w 22 3) (bf w 16 6) (bf w 10 6) (bf w 4 6) (bf w 3 1) (bf w 2 1) (bf w 0 2))
  | 0x58 => pick (nz w 0 3 || nz w 7 3) (false) (.qpack (bf w 22 3) (bf w 16 6) (bf w 10 6) (bf w 4 3) (bf w 3 1))
  | 0x59 => pick (nz w 0 4 || nz w 7 3) (false) (.qunpk (bf w 22 3) (bf w 16 6) (bf w 10 6) (bf w 4 3))
  | 0x5A => pick (nz w 0 2) (false) (.angof (bf w 22 3) (bf w 16 6) (bf w 10 6) (bf w 4 6) (bf w 3 1) (bf w 2 1))
  | 0x5B => pick false false (.vclmul (bf w 22 3) (bf w 16 6) (bf w 10 6) (bf w 4 6) (bf w 3 1) (bf w 2 1) (bf w 0 2))
  | 0x5C => pick false false (.vclmulh (bf w 22 3) (bf w 16 6) (bf w 10 6) (bf w 4 6) (bf w 3 1) (bf w 2 1) (bf w 0 2))
  | _ => .error .unassigned

/-- A tileMem word, by its opcode (R104 to R111, R317). -/
def decodeTileMem (w : W32) : Except BadWord Instr :=
  match w.toNat / 2 ^ 27 with
  | 0x01 => pick (nz w 16 11) (false) (.tld (bf w 0 16))
  | 0x02 => pick (nz w 24 2 || (!nz w 26 1 && nz w 16 8)) (false) (.tst (bf w 26 1) (bf w 16 8) (bf w 0 16))
  | 0x03 => pick (nz w 16 8 || nz w 25 2) (false) (.ldw (bf w 24 1) (bf w 0 16))
  | 0x04 => pick (nz w 16 8 || nz w 25 2) (false) (.stw (bf w 24 1) (bf w 0 16))
  | 0x08 => pick (nz w 16 8 || nz w 25 2) (false) (.atomAdd (bf w 24 1) (bf w 0 16))
  | 0x09 => pick (nz w 16 8 || nz w 25 2) (false) (.atomMin (bf w 24 1) (bf w 0 16))
  | 0x0A => pick (nz w 16 8 || nz w 25 2) (false) (.atomMax (bf w 24 1) (bf w 0 16))
  | 0x0B => pick (nz w 16 8 || nz w 25 2) (false) (.atomAnd (bf w 24 1) (bf w 0 16))
  | 0x0C => pick (nz w 16 8 || nz w 25 2) (false) (.atomOr (bf w 24 1) (bf w 0 16))
  | 0x0D => pick (nz w 16 8 || nz w 25 2) (false) (.atomXor (bf w 24 1) (bf w 0 16))
  | 0x0E => pick (nz w 16 8 || nz w 25 2) (false) (.atomSwap (bf w 24 1) (bf w 0 16))
  | 0x0F => pick (nz w 16 8 || nz w 25 2) (false) (.atomCas (bf w 24 1) (bf w 0 16))
  | _ => .error .unassigned

/-- A copy word, by its opcode (R104 to R111, R317). -/
def decodeCopy (w : W32) : Except BadWord Instr :=
  match w.toNat / 2 ^ 27 with
  | 0x01 => pick (nz w 16 11) (false) (.cpy (bf w 0 16))
  | 0x02 => pick (nz w 16 11) (false) (.cpys (bf w 0 16))
  | 0x03 => pick (nz w 16 11) (false) (.cpyg (bf w 0 16))
  | 0x04 => pick (nz w 16 11) (false) (.cpyr (bf w 0 16))
  | 0x05 => pick (nz w 24 2 || (!nz w 26 1 && nz w 16 8)) (false) (.cpyst (bf w 26 1) (bf w 16 8) (bf w 0 16))
  | 0x06 => pick (nz w 16 11) (false) (.cpyf (bf w 0 16))
  | _ => .error .unassigned

/-- An orrery word, by its opcode (R104 to R111, R317). -/
def decodeOrrery (w : W32) : Except BadWord Instr :=
  match w.toNat / 2 ^ 27 with
  | 0x01 => pick (nz w 19 5 || nz w 26 1) (false) (.olatch (bf w 24 2) (bf w 18 1) (bf w 16 2) (bf w 0 16))
  | 0x02 => pick (nz w 24 2 || (!nz w 26 1 && nz w 16 8)) (false) (.opass (bf w 26 1) (bf w 16 8) (bf w 0 16))
  | 0x03 => pick (nz w 24 2 || (!nz w 26 1 && nz w 16 8)) (false) (.opassr (bf w 26 1) (bf w 16 8) (bf w 0 16))
  | 0x04 => pick (nz w 24 2 || (!nz w 26 1 && nz w 16 8)) (false) (.oderive (bf w 26 1) (bf w 16 8) (bf w 0 16))
  | 0x05 => pick (nz w 24 2 || (!nz w 26 1 && nz w 16 8)) (false) (.oapply (bf w 26 1) (bf w 16 8) (bf w 0 16))
  | 0x06 => pick (nz w 16 11) (false) (.ofree (bf w 0 16))
  | 0x07 => pick (nz w 20 4 || nz w 25 2) (false) (.osave (bf w 24 1) (bf w 16 4) (bf w 0 16))
  | 0x08 => pick (nz w 20 4 || nz w 25 2) (false) (.orest (bf w 24 1) (bf w 16 4) (bf w 0 16))
  | 0x09 => pick (nz w 20 4 || nz w 26 1 || (bf w 24 2 == (1 : BitVec 2) && nz w 16 4)) (false) (.odrift (bf w 24 2) (bf w 16 4) (bf w 0 16))
  | 0x0A => pick (nz w 20 4 || nz w 26 1) (false) (.oscfg (bf w 24 2) (bf w 16 4) (bf w 0 16))
  | _ => .error .unassigned

/-- A dot word, by its opcode (R104 to R111, R317). -/
def decodeDot (w : W32) : Except BadWord Instr :=
  match w.toNat / 2 ^ 27 with
  | 0x01 => pick (nz w 24 2 || (!nz w 26 1 && nz w 16 8)) (false) (.dot (bf w 26 1) (bf w 16 8) (bf w 0 16))
  | 0x02 => pick (nz w 24 2 || (!nz w 26 1 && nz w 16 8)) (false) (.dota (bf w 26 1) (bf w 16 8) (bf w 0 16))
  | 0x03 => pick (nz w 16 8 || nz w 26 1) (false) (.dcfg (bf w 24 2) (bf w 0 16))
  | 0x04 => pick (nz w 16 8 || nz w 26 1) (false) (.ddrain (bf w 24 2) (bf w 0 16))
  | 0x05 => pick (nz w 16 11) (false) (.dclr (bf w 0 16))
  | 0x06 => pick (nz w 16 11) (false) (.dstat (bf w 0 16))
  | _ => .error .unassigned

/-- A load word, by its opcode (R104 to R111, R317). -/
def decodeLoad (w : W32) : Except BadWord Instr :=
  match w.toNat / 2 ^ 27 with
  | 0x01 => pick false false (.ald (bf w 22 5) (bf w 18 4) (bf w 17 1) (bf w 16 1) (bf w 0 16))
  | 0x02 => pick false false (.sld (bf w 22 5) (bf w 18 4) (bf w 17 1) (bf w 16 1) (bf w 0 16))
  | 0x03 => pick false false (.ptld (bf w 22 5) (bf w 18 4) (bf w 17 1) (bf w 16 1) (bf w 0 16))
  | 0x04 => pick false false (.ast (bf w 22 5) (bf w 18 4) (bf w 17 1) (bf w 16 1) (bf w 0 16))
  | 0x05 => pick false false (.sst (bf w 22 5) (bf w 18 4) (bf w 17 1) (bf w 16 1) (bf w 0 16))
  | _ => .error .unassigned

/-- A collective word, by its opcode (R104 to R111, R317). -/
def decodeCollective (w : W32) : Except BadWord Instr :=
  match w.toNat / 2 ^ 27 with
  | 0x01 => pick (nz w 22 2 || nz w 26 1) (false) (.trig (bf w 24 2) (bf w 16 6) (bf w 0 16))
  | 0x02 => pick (nz w 22 2 || nz w 26 1 || decide (2 ≤ (bf w 24 2 : BitVec 2).toNat)) (false) (.cinc (bf w 24 2) (bf w 16 6) (bf w 0 16))
  | 0x03 => pick (nz w 22 5) (false) (.cset (bf w 16 6) (bf w 0 16))
  | 0x04 => pick (nz w 22 5) (false) (.crd (bf w 16 6) (bf w 0 16))
  | 0x05 => pick (nz w 16 11) (false) (.eph (bf w 0 16))
  | 0x06 => pick (nz w 19 5 || nz w 26 1) (false) (.aowcfg (bf w 24 2) (bf w 16 3) (bf w 0 16))
  | 0x07 => pick (nz w 24 3) (false) (.ready (bf w 19 5) (bf w 16 3) (bf w 0 16))
  | 0x08 => pick (nz w 16 11) (false) (.ephend (bf w 0 16))
  | _ => .error .unassigned

/-- The instruction that the word `w` of a slot of kind `k` stands for (R99, R317). -/
def decodeSlot (k : SlotKind) (w : W32) : Except BadWord Instr :=
  match k with
  | .control => decodeControl w
  | .scalar => decodeScalar w
  | .address => decodeAddress w
  | .tileMem => decodeTileMem w
  | .copy => decodeCopy w
  | .orrery => decodeOrrery w
  | .dot => decodeDot w
  | .load => decodeLoad w
  | .collective => decodeCollective w
  | .vector => decodeVector w

/-- A bundle header with an empty mask (R102): `nop`. The reserved bits and `bcast` are zero (R98, R103). -/
def decodeNop (w : W32) : Option Instr :=
  if nz w 0 23 || nz w 25 7 then none else some (.nop (bf w 24 1) (bf w 23 1))

/-- The order in which `decodeTableWord` asks the slot kinds: a table word does not say which slot holds it. -/
def tableKinds : List SlotKind :=
  [.scalar, .address, .vector, .control, .tileMem, .dot, .orrery, .collective, .copy, .load]

/-- The first slot kind, in the order given, whose word `w` is an instruction, with that instruction. -/
def decodeFirst (ks : List SlotKind) (w : W32) : Option (SlotKind × Instr) :=
  match ks with
  | [] => none
  | k :: rest =>
    match decodeSlot k w with
    | .ok i => some (k, i)
    | .error _ => decodeFirst rest w

/-- The instruction of a table word: an empty bundle header, else the first slot kind of `tableKinds` that has one. -/
def decodeTableWord (nbits w : Nat) : Option Instr :=
  if nbits ≤ 32 ∧ w < 2 ^ 32 then
    match decodeNop (BitVec.ofNat 32 w) with
    | some i => some i
    | none => (decodeFirst tableKinds (BitVec.ofNat 32 w)).map Prod.snd
  else none

/-- The Camvel instruction that a record's `topc` names (R218, R224). -/
def decodeRecord (id : Nat) (r : CamvelRecord) : Option Instr :=
  match r.w0.toNat % 256 with
  | 0x01 => some (.tload id r)
  | 0x02 => some (.tstore id r)
  | 0x03 => some (.tcopy id r)
  | 0x04 => some (.tfill id r)
  | 0x05 => some (.tmap id r)
  | 0x06 => some (.trot id r)
  | 0x07 => some (.trotr id r)
  | 0x08 => some (.tqr id r)
  | 0x09 => some (.tapply id r)
  | 0x0A => some (.tdot id r)
  | 0x0B => some (.tred id r)
  | 0x0C => some (.tnorm id r)
  | 0x0D => some (.ttopk id r)
  | 0x0E => some (.tconv id r)
  | 0x0F => some (.tgather id r)
  | 0x10 => some (.tscatter id r)
  | 0x11 => some (.tallred id r)
  | 0x12 => some (.tbcast id r)
  | 0x13 => some (.tflipv id r)
  | 0x14 => some (.tbar id r)
  | _ => none

/-- The slot kind of an instruction that has a slot word. -/
def Instr.kind : Instr → Option SlotKind
  | .bra _ | .bz _ _ | .bnz _ _ | .jr _ _ | .loop _ _ | .endl
  | .breakLoop | .waits _ _ | .waitc _ _ | .bar | .fence _ _ | .cti _ _
  | .rdst _ _ | .wrst _ _ | .tick _ | .flrd _ _ _ | .flclr _ _ | .digest _ _
  | .yield | .trap _ | .eret | .halt => some .control
  | .add _ _ _ | .addImm _ _ _ | .sub _ _ _ | .and _ _ _ | .andImm _ _ _ | .or _ _ _
  | .xor _ _ _ | .shl _ _ _ | .shlImm _ _ _ | .shr _ _ _ | .shrImm _ _ _ | .sar _ _ _
  | .min _ _ _ _ | .max _ _ _ _ | .cmpeq _ _ _ | .cmplt _ _ _ | .cmpltu _ _ _ | .mul _ _ _
  | .mulh _ _ _ _ | .clmul _ _ _ | .clmulh _ _ _ | .brev _ _ _ | .popc _ _ | .mov _ _
  | .movx _ _ | .limm _ _ _ | .movStaging _ _ | .ld _ _ _ | .st _ _ _ | .fadd _ _ _ _ _
  | .fmul _ _ _ _ _ | .fma _ _ _ _ _ | .fcmp _ _ _ _ | .fcvt _ _ _ _ _ => some .scalar
  | .pset _ _ | .pstep _ _ | .pwin _ _ | .padv _ _ | .spcfg _ _ _ | .sprst _
  | .xlat _ _ | .xclr _ => some .address
  | .vaddF _ _ _ _ _ _ _ | .vsubF _ _ _ _ _ _ _ | .vmulF _ _ _ _ _ _ _ | .vfmaF _ _ _ _ _ _ _ | .vfmsF _ _ _ _ _ _ _ | .vfnmaF _ _ _ _ _ _ _
  | .vdivF _ _ _ _ _ _ _ | .vsqrtF _ _ _ _ _ | .vmaxF _ _ _ _ _ _ _ | .vminF _ _ _ _ _ _ _ | .vabsF _ _ _ _ _ | .vnegF _ _ _ _ _
  | .vexp2F _ _ _ _ _ | .vlog2F _ _ _ _ _ | .vrcpF _ _ _ _ _ | .vrsqF _ _ _ _ _ | .vsinF _ _ _ _ _ | .vcosF _ _ _ _ _
  | .vtanhF _ _ _ _ _ | .vcmpeqF _ _ _ _ _ _ _ | .vcmpneF _ _ _ _ _ _ _ | .vcmpltF _ _ _ _ _ _ _ | .vcmpleF _ _ _ _ _ _ _ | .vclassF _ _ _ _ _
  | .vaddS _ _ _ _ _ _ _ | .vsubS _ _ _ _ _ _ _ | .vmulS _ _ _ _ _ _ _ | .vmaxS _ _ _ _ _ _ _ | .vminS _ _ _ _ _ _ _ | .vcmpeqS _ _ _ _ _ _ _
  | .vcmpltS _ _ _ _ _ _ _ | .vcmpleS _ _ _ _ _ _ _ | .vaddN _ _ _ _ _ _ _ | .vsubN _ _ _ _ _ _ _ | .vmulN _ _ _ _ _ _ _ | .vmaxN _ _ _ _ _ _ _
  | .vminN _ _ _ _ _ _ _ | .vcmpeqN _ _ _ _ _ _ _ | .vcmpltN _ _ _ _ _ _ _ | .vcmpleN _ _ _ _ _ _ _ | .vand _ _ _ _ _ _ _ | .vor _ _ _ _ _ _ _
  | .vxor _ _ _ _ _ _ _ | .vnot _ _ _ _ _ | .vshl _ _ _ _ _ _ _ | .vshr _ _ _ _ _ _ _ | .vsar _ _ _ _ _ _ _ | .vrot _ _ _ _ _ _ _
  | .vcvt _ _ _ _ _ _ _ _ | .vcvtw _ _ _ _ _ _ _ _ | .srnd _ _ _ _ _ _ | .filla _ _ _ _ _ | .mkabs _ _ _ | .vsel _ _ _ _ _ _
  | .vmov _ _ _ _ _ | .vmovFromCn _ _ | .vmovToCn _ _ _ | .kand _ _ _ _ | .kor _ _ _ _ | .kxor _ _ _ _
  | .knot _ _ _ | .kmov _ _ _ | .kmovVk _ _ _ _ | .kmovKv _ _ _ | .kmovAv _ _ _ | .cntp _ _ _ _ _
  | .cntpK _ _ _ | .vperm _ _ _ _ _ _ | .vpermB _ _ _ _ _ _ | .vbcast _ _ _ _ _ | .vbcastB _ _ _ _ _ | .vrotl _ _ _ _ _
  | .vrotlSh _ _ _ _ _ | .xg _ _ _ _ | .xgRel _ _ _ _ | .redadd _ _ _ _ _ _ | .redmul _ _ _ _ _ _ | .redmax _ _ _ _ _ _
  | .redmin _ _ _ _ _ _ | .redor _ _ _ _ _ _ | .redand _ _ _ _ _ _ | .topk _ _ _ _ _ _ _ | .qpack _ _ _ _ _ | .qunpk _ _ _ _
  | .angof _ _ _ _ _ _ | .vclmul _ _ _ _ _ _ _ | .vclmulh _ _ _ _ _ _ _ => some .vector
  | .tld _ | .tst _ _ _ | .ldw _ _ | .stw _ _ | .atomAdd _ _ | .atomMin _ _
  | .atomMax _ _ | .atomAnd _ _ | .atomOr _ _ | .atomXor _ _ | .atomSwap _ _ | .atomCas _ _ => some .tileMem
  | .cpy _ | .cpys _ | .cpyg _ | .cpyr _ | .cpyst _ _ _ | .cpyf _ => some .copy
  | .olatch _ _ _ _ | .opass _ _ _ | .opassr _ _ _ | .oderive _ _ _ | .oapply _ _ _ | .ofree _
  | .osave _ _ _ | .orest _ _ _ | .odrift _ _ _ | .oscfg _ _ _ => some .orrery
  | .dot _ _ _ | .dota _ _ _ | .dcfg _ _ | .ddrain _ _ | .dclr _ | .dstat _ => some .dot
  | .ald _ _ _ _ _ | .sld _ _ _ _ _ | .ptld _ _ _ _ _ | .ast _ _ _ _ _ | .sst _ _ _ _ _ => some .load
  | .trig _ _ _ | .cinc _ _ _ | .cset _ _ | .crd _ _ | .eph _ | .aowcfg _ _ _
  | .ready _ _ _ | .ephend _ => some .collective
  | _ => none

/-- The word with the bits `base` and each field `(value, lo)` at its place. -/
def mkWord (base : Nat) (fs : List (Nat × Nat)) : Option W32 :=
  some (BitVec.ofNat 32 (fs.foldl (fun n f => n + f.1 * 2 ^ f.2) base))

/-- The word of an instruction that has one, from the encoding tables of R104 to R111; `nop` is a header (R102). -/
def encode (i : Instr) : Option W32 :=
  match i with
  | .nop r s => mkWord 0 [(r.toNat, 24), (s.toNat, 23)]
  | .bra d => mkWord 0x04000000 [(d.toNat, 0)]
  | .bz a d => mkWord 0x08000000 [(a.toNat, 21), (d.toNat, 0)]
  | .bnz a d => mkWord 0x0C000000 [(a.toNat, 21), (d.toNat, 0)]
  | .jr a d => mkWord 0x10000000 [(a.toNat, 21), (d.toNat, 0)]
  | .loop l d => mkWord 0x20000000 [(l.toNat, 23), (d.toNat, 0)]
  | .endl => mkWord 0x24000000 []
  | .breakLoop => mkWord 0x28000000 []
  | .waits i m => mkWord 0x40000000 [(i.toNat, 16), (m.toNat, 0)]
  | .waitc a n => mkWord 0x44000000 [(a.toNat, 21), (n.toNat, 0)]
  | .bar => mkWord 0x48000000 []
  | .fence k s => mkWord 0x4C000000 [(k.toNat, 3), (s.toNat, 0)]
  | .cti a l => mkWord 0x50000000 [(a.toNat, 21), (l.toNat, 0)]
  | .rdst a s => mkWord 0x60000000 [(a.toNat, 21), (s.toNat, 0)]
  | .wrst a s => mkWord 0x64000000 [(a.toNat, 21), (s.toNat, 0)]
  | .tick a => mkWord 0x68000000 [(a.toNat, 21)]
  | .flrd a l p => mkWord 0x6C000000 [(a.toNat, 21), (l.toNat, 9), (p.toNat, 0)]
  | .flclr f p => mkWord 0x70000000 [(f.toNat, 18), (p.toNat, 0)]
  | .digest a n => mkWord 0x74000000 [(a.toNat, 21), (n.toNat, 0)]
  | .yield => mkWord 0x80000000 []
  | .trap c => mkWord 0x84000000 [(c.toNat, 0)]
  | .eret => mkWord 0x88000000 []
  | .halt => mkWord 0x8C000000 []
  | .add d a b => mkWord 0x01000000 [(d.toNat, 19), (a.toNat, 14), (b.toNat, 0)]
  | .addImm d a i => mkWord 0x11000000 [(d.toNat, 19), (a.toNat, 14), (i.toNat, 0)]
  | .sub d a b => mkWord 0x02000000 [(d.toNat, 19), (a.toNat, 14), (b.toNat, 0)]
  | .and d a b => mkWord 0x03000000 [(d.toNat, 19), (a.toNat, 14), (b.toNat, 0)]
  | .andImm d a i => mkWord 0x13000000 [(d.toNat, 19), (a.toNat, 14), (i.toNat, 0)]
  | .or d a b => mkWord 0x04000000 [(d.toNat, 19), (a.toNat, 14), (b.toNat, 0)]
  | .xor d a b => mkWord 0x05000000 [(d.toNat, 19), (a.toNat, 14), (b.toNat, 0)]
  | .shl d a b => mkWord 0x06000000 [(d.toNat, 19), (a.toNat, 14), (b.toNat, 0)]
  | .shlImm d a i => mkWord 0x16000000 [(d.toNat, 19), (a.toNat, 14), (i.toNat, 0)]
  | .shr d a b => mkWord 0x07000000 [(d.toNat, 19), (a.toNat, 14), (b.toNat, 0)]
  | .shrImm d a i => mkWord 0x17000000 [(d.toNat, 19), (a.toNat, 14), (i.toNat, 0)]
  | .sar d a b => mkWord 0x08000000 [(d.toNat, 19), (a.toNat, 14), (b.toNat, 0)]
  | .min d a u b => mkWord 0x09000000 [(d.toNat, 19), (a.toNat, 14), (u.toNat, 5), (b.toNat, 0)]
  | .max d a u b => mkWord 0x0A000000 [(d.toNat, 19), (a.toNat, 14), (u.toNat, 5), (b.toNat, 0)]
  | .cmpeq d a b => mkWord 0x0B000000 [(d.toNat, 19), (a.toNat, 14), (b.toNat, 0)]
  | .cmplt d a b => mkWord 0x0C000000 [(d.toNat, 19), (a.toNat, 14), (b.toNat, 0)]
  | .cmpltu d a b => mkWord 0x0D000000 [(d.toNat, 19), (a.toNat, 14), (b.toNat, 0)]
  | .mul d a b => mkWord 0x20000000 [(d.toNat, 19), (a.toNat, 14), (b.toNat, 0)]
  | .mulh d a u b => mkWord 0x21000000 [(d.toNat, 19), (a.toNat, 14), (u.toNat, 5), (b.toNat, 0)]
  | .clmul d a b => mkWord 0x22000000 [(d.toNat, 19), (a.toNat, 14), (b.toNat, 0)]
  | .clmulh d a b => mkWord 0x23000000 [(d.toNat, 19), (a.toNat, 14), (b.toNat, 0)]
  | .brev d a w => mkWord 0x28000000 [(d.toNat, 19), (a.toNat, 14), (w.toNat, 5)]
  | .popc d a => mkWord 0x29000000 [(d.toNat, 19), (a.toNat, 14)]
  | .mov d a => mkWord 0x30000000 [(d.toNat, 19), (a.toNat, 14)]
  | .movx d a => mkWord 0x31000000 [(d.toNat, 19), (a.toNat, 14)]
  | .limm d q i => mkWord 0x32000000 [(d.toNat, 19), (q.toNat, 16), (i.toNat, 0)]
  | .movStaging a s => mkWord 0x33000000 [(a.toNat, 14), (s.toNat, 0)]
  | .ld d a i => mkWord 0x38000000 [(d.toNat, 19), (a.toNat, 14), (i.toNat, 0)]
  | .st d a i => mkWord 0x39000000 [(d.toNat, 19), (a.toNat, 14), (i.toNat, 0)]
  | .fadd d a o m b => mkWord 0x40000000 [(d.toNat, 19), (a.toNat, 14), (o.toNat, 13), (m.toNat, 10), (b.toNat, 0)]
  | .fmul d a o m b => mkWord 0x41000000 [(d.toNat, 19), (a.toNat, 14), (o.toNat, 13), (m.toNat, 10), (b.toNat, 0)]
  | .fma d a o m b => mkWord 0x42000000 [(d.toNat, 19), (a.toNat, 14), (o.toNat, 13), (m.toNat, 10), (b.toNat, 0)]
  | .fcmp d a s b => mkWord 0x43000000 [(d.toNat, 19), (a.toNat, 14), (s.toNat, 5), (b.toNat, 0)]
  | .fcvt d a o m s => mkWord 0x44000000 [(d.toNat, 19), (a.toNat, 14), (o.toNat, 13), (m.toNat, 10), (s.toNat, 5)]
  | .pset p a => mkWord 0x04000000 [(p.toNat, 21), (a.toNat, 16)]
  | .pstep p a => mkWord 0x08000000 [(p.toNat, 21), (a.toNat, 16)]
  | .pwin p a => mkWord 0x0C000000 [(p.toNat, 21), (a.toNat, 16)]
  | .padv p n => mkWord 0x10000000 [(p.toNat, 21), (n.toNat, 0)]
  | .spcfg p a r => mkWord 0x20000000 [(p.toNat, 21), (a.toNat, 16), (r.toNat, 0)]
  | .sprst p => mkWord 0x24000000 [(p.toNat, 21)]
  | .xlat x a => mkWord 0x40000000 [(x.toNat, 21), (a.toNat, 16)]
  | .xclr x => mkWord 0x44000000 [(x.toNat, 21)]
  | .vaddF k d a b p q f => mkWord 0x02000000 [(k.toNat, 22), (d.toNat, 16), (a.toNat, 10), (b.toNat, 4), (p.toNat, 3), (q.toNat, 2), (f.toNat, 0)]
  | .vsubF k d a b p q f => mkWord 0x04000000 [(k.toNat, 22), (d.toNat, 16), (a.toNat, 10), (b.toNat, 4), (p.toNat, 3), (q.toNat, 2), (f.toNat, 0)]
  | .vmulF k d a b p q f => mkWord 0x06000000 [(k.toNat, 22), (d.toNat, 16), (a.toNat, 10), (b.toNat, 4), (p.toNat, 3), (q.toNat, 2), (f.toNat, 0)]
  | .vfmaF k d a b p q f => mkWord 0x08000000 [(k.toNat, 22), (d.toNat, 16), (a.toNat, 10), (b.toNat, 4), (p.toNat, 3), (q.toNat, 2), (f.toNat, 0)]
  | .vfmsF k d a b p q f => mkWord 0x0A000000 [(k.toNat, 22), (d.toNat, 16), (a.toNat, 10), (b.toNat, 4), (p.toNat, 3), (q.toNat, 2), (f.toNat, 0)]
  | .vfnmaF k d a b p q f => mkWord 0x0C000000 [(k.toNat, 22), (d.toNat, 16), (a.toNat, 10), (b.toNat, 4), (p.toNat, 3), (q.toNat, 2), (f.toNat, 0)]
  | .vdivF k d a b p q f => mkWord 0x0E000000 [(k.toNat, 22), (d.toNat, 16), (a.toNat, 10), (b.toNat, 4), (p.toNat, 3), (q.toNat, 2), (f.toNat, 0)]
  | .vsqrtF k d a p f => mkWord 0x10000000 [(k.toNat, 22), (d.toNat, 16), (a.toNat, 10), (p.toNat, 3), (f.toNat, 0)]
  | .vmaxF k d a b p q f => mkWord 0x12000000 [(k.toNat, 22), (d.toNat, 16), (a.toNat, 10), (b.toNat, 4), (p.toNat, 3), (q.toNat, 2), (f.toNat, 0)]
  | .vminF k d a b p q f => mkWord 0x14000000 [(k.toNat, 22), (d.toNat, 16), (a.toNat, 10), (b.toNat, 4), (p.toNat, 3), (q.toNat, 2), (f.toNat, 0)]
  | .vabsF k d a p f => mkWord 0x16000000 [(k.toNat, 22), (d.toNat, 16), (a.toNat, 10), (p.toNat, 3), (f.toNat, 0)]
  | .vnegF k d a p f => mkWord 0x18000000 [(k.toNat, 22), (d.toNat, 16), (a.toNat, 10), (p.toNat, 3), (f.toNat, 0)]
  | .vexp2F k d a p f => mkWord 0x20000000 [(k.toNat, 22), (d.toNat, 16), (a.toNat, 10), (p.toNat, 3), (f.toNat, 0)]
  | .vlog2F k d a p f => mkWord 0x22000000 [(k.toNat, 22), (d.toNat, 16), (a.toNat, 10), (p.toNat, 3), (f.toNat, 0)]
  | .vrcpF k d a p f => mkWord 0x24000000 [(k.toNat, 22), (d.toNat, 16), (a.toNat, 10), (p.toNat, 3), (f.toNat, 0)]
  | .vrsqF k d a p f => mkWord 0x26000000 [(k.toNat, 22), (d.toNat, 16), (a.toNat, 10), (p.toNat, 3), (f.toNat, 0)]
  | .vsinF k d a p f => mkWord 0x28000000 [(k.toNat, 22), (d.toNat, 16), (a.toNat, 10), (p.toNat, 3), (f.toNat, 0)]
  | .vcosF k d a p f => mkWord 0x2A000000 [(k.toNat, 22), (d.toNat, 16), (a.toNat, 10), (p.toNat, 3), (f.toNat, 0)]
  | .vtanhF k d a p f => mkWord 0x2C000000 [(k.toNat, 22), (d.toNat, 16), (a.toNat, 10), (p.toNat, 3), (f.toNat, 0)]
  | .vcmpeqF k d a b p q f => mkWord 0x30000000 [(k.toNat, 22), (d.toNat, 16), (a.toNat, 10), (b.toNat, 4), (p.toNat, 3), (q.toNat, 2), (f.toNat, 0)]
  | .vcmpneF k d a b p q f => mkWord 0x32000000 [(k.toNat, 22), (d.toNat, 16), (a.toNat, 10), (b.toNat, 4), (p.toNat, 3), (q.toNat, 2), (f.toNat, 0)]
  | .vcmpltF k d a b p q f => mkWord 0x34000000 [(k.toNat, 22), (d.toNat, 16), (a.toNat, 10), (b.toNat, 4), (p.toNat, 3), (q.toNat, 2), (f.toNat, 0)]
  | .vcmpleF k d a b p q f => mkWord 0x36000000 [(k.toNat, 22), (d.toNat, 16), (a.toNat, 10), (b.toNat, 4), (p.toNat, 3), (q.toNat, 2), (f.toNat, 0)]
  | .vclassF k d a p f => mkWord 0x38000000 [(k.toNat, 22), (d.toNat, 16), (a.toNat, 10), (p.toNat, 3), (f.toNat, 0)]
  | .vaddS k d a b p q f => mkWord 0x40000000 [(k.toNat, 22), (d.toNat, 16), (a.toNat, 10), (b.toNat, 4), (p.toNat, 3), (q.toNat, 2), (f.toNat, 0)]
  | .vsubS k d a b p q f => mkWord 0x42000000 [(k.toNat, 22), (d.toNat, 16), (a.toNat, 10), (b.toNat, 4), (p.toNat, 3), (q.toNat, 2), (f.toNat, 0)]
  | .vmulS k d a b p q f => mkWord 0x44000000 [(k.toNat, 22), (d.toNat, 16), (a.toNat, 10), (b.toNat, 4), (p.toNat, 3), (q.toNat, 2), (f.toNat, 0)]
  | .vmaxS k d a b p q f => mkWord 0x46000000 [(k.toNat, 22), (d.toNat, 16), (a.toNat, 10), (b.toNat, 4), (p.toNat, 3), (q.toNat, 2), (f.toNat, 0)]
  | .vminS k d a b p q f => mkWord 0x48000000 [(k.toNat, 22), (d.toNat, 16), (a.toNat, 10), (b.toNat, 4), (p.toNat, 3), (q.toNat, 2), (f.toNat, 0)]
  | .vcmpeqS k d a b p q f => mkWord 0x4A000000 [(k.toNat, 22), (d.toNat, 16), (a.toNat, 10), (b.toNat, 4), (p.toNat, 3), (q.toNat, 2), (f.toNat, 0)]
  | .vcmpltS k d a b p q f => mkWord 0x4C000000 [(k.toNat, 22), (d.toNat, 16), (a.toNat, 10), (b.toNat, 4), (p.toNat, 3), (q.toNat, 2), (f.toNat, 0)]
  | .vcmpleS k d a b p q f => mkWord 0x4E000000 [(k.toNat, 22), (d.toNat, 16), (a.toNat, 10), (b.toNat, 4), (p.toNat, 3), (q.toNat, 2), (f.toNat, 0)]
  | .vaddN k d a b p q f => mkWord 0x50000000 [(k.toNat, 22), (d.toNat, 16), (a.toNat, 10), (b.toNat, 4), (p.toNat, 3), (q.toNat, 2), (f.toNat, 0)]
  | .vsubN k d a b p q f => mkWord 0x52000000 [(k.toNat, 22), (d.toNat, 16), (a.toNat, 10), (b.toNat, 4), (p.toNat, 3), (q.toNat, 2), (f.toNat, 0)]
  | .vmulN k d a b p q f => mkWord 0x54000000 [(k.toNat, 22), (d.toNat, 16), (a.toNat, 10), (b.toNat, 4), (p.toNat, 3), (q.toNat, 2), (f.toNat, 0)]
  | .vmaxN k d a b p q f => mkWord 0x56000000 [(k.toNat, 22), (d.toNat, 16), (a.toNat, 10), (b.toNat, 4), (p.toNat, 3), (q.toNat, 2), (f.toNat, 0)]
  | .vminN k d a b p q f => mkWord 0x58000000 [(k.toNat, 22), (d.toNat, 16), (a.toNat, 10), (b.toNat, 4), (p.toNat, 3), (q.toNat, 2), (f.toNat, 0)]
  | .vcmpeqN k d a b p q f => mkWord 0x5A000000 [(k.toNat, 22), (d.toNat, 16), (a.toNat, 10), (b.toNat, 4), (p.toNat, 3), (q.toNat, 2), (f.toNat, 0)]
  | .vcmpltN k d a b p q f => mkWord 0x5C000000 [(k.toNat, 22), (d.toNat, 16), (a.toNat, 10), (b.toNat, 4), (p.toNat, 3), (q.toNat, 2), (f.toNat, 0)]
  | .vcmpleN k d a b p q f => mkWord 0x5E000000 [(k.toNat, 22), (d.toNat, 16), (a.toNat, 10), (b.toNat, 4), (p.toNat, 3), (q.toNat, 2), (f.toNat, 0)]
  | .vand k d a b p q f => mkWord 0x60000000 [(k.toNat, 22), (d.toNat, 16), (a.toNat, 10), (b.toNat, 4), (p.toNat, 3), (q.toNat, 2), (f.toNat, 0)]
  | .vor k d a b p q f => mkWord 0x62000000 [(k.toNat, 22), (d.toNat, 16), (a.toNat, 10), (b.toNat, 4), (p.toNat, 3), (q.toNat, 2), (f.toNat, 0)]
  | .vxor k d a b p q f => mkWord 0x64000000 [(k.toNat, 22), (d.toNat, 16), (a.toNat, 10), (b.toNat, 4), (p.toNat, 3), (q.toNat, 2), (f.toNat, 0)]
  | .vnot k d a p f => mkWord 0x66000000 [(k.toNat, 22), (d.toNat, 16), (a.toNat, 10), (p.toNat, 3), (f.toNat, 0)]
  | .vshl k d a b p q f => mkWord 0x68000000 [(k.toNat, 22), (d.toNat, 16), (a.toNat, 10), (b.toNat, 4), (p.toNat, 3), (q.toNat, 2), (f.toNat, 0)]
  | .vshr k d a b p q f => mkWord 0x6A000000 [(k.toNat, 22), (d.toNat, 16), (a.toNat, 10), (b.toNat, 4), (p.toNat, 3), (q.toNat, 2), (f.toNat, 0)]
  | .vsar k d a b p q f => mkWord 0x6C000000 [(k.toNat, 22), (d.toNat, 16), (a.toNat, 10), (b.toNat, 4), (p.toNat, 3), (q.toNat, 2), (f.toNat, 0)]
  | .vrot k d a b p q f => mkWord 0x6E000000 [(k.toNat, 22), (d.toNat, 16), (a.toNat, 10), (b.toNat, 4), (p.toNat, 3), (q.toNat, 2), (f.toNat, 0)]
  | .vcvt k d a s r x w n => mkWord 0x70000000 [(k.toNat, 22), (d.toNat, 16), (a.toNat, 10), (s.toNat, 9), (r.toNat, 8), (x.toNat, 4), (w.toNat, 3), (n.toNat, 0)]
  | .vcvtw k d a w x p g n => mkWord 0x72000000 [(k.toNat, 22), (d.toNat, 16), (a.toNat, 10), (w.toNat, 8), (x.toNat, 4), (p.toNat, 3), (g.toNat, 2), (n.toNat, 0)]
  | .srnd k d a r p f => mkWord 0x74000000 [(k.toNat, 22), (d.toNat, 16), (a.toNat, 10), (r.toNat, 4), (p.toNat, 3), (f.toNat, 0)]
  | .filla k d a x p => mkWord 0x76000000 [(k.toNat, 22), (d.toNat, 16), (a.toNat, 10), (x.toNat, 4), (p.toNat, 3)]
  | .mkabs k d x => mkWord 0x78000000 [(k.toNat, 22), (d.toNat, 16), (x.toNat, 4)]
  | .vsel k d a b p q => mkWord 0x7A000002 [(k.toNat, 22), (d.toNat, 16), (a.toNat, 10), (b.toNat, 4), (p.toNat, 3), (q.toNat, 2)]
  | .vmov k d a p f => mkWord 0x7C000000 [(k.toNat, 22), (d.toNat, 16), (a.toNat, 10), (p.toNat, 3), (f.toNat, 0)]
  | .vmovFromCn k d => mkWord 0x7C000012 [(k.toNat, 22), (d.toNat, 16)]
  | .vmovToCn k a p => mkWord 0x7C000022 [(k.toNat, 22), (a.toNat, 10), (p.toNat, 3)]
  | .kand k d a b => mkWord 0x80000000 [(k.toNat, 22), (d.toNat, 16), (a.toNat, 10), (b.toNat, 4)]
  | .kor k d a b => mkWord 0x82000000 [(k.toNat, 22), (d.toNat, 16), (a.toNat, 10), (b.toNat, 4)]
  | .kxor k d a b => mkWord 0x84000000 [(k.toNat, 22), (d.toNat, 16), (a.toNat, 10), (b.toNat, 4)]
  | .knot k d a => mkWord 0x86000000 [(k.toNat, 22), (d.toNat, 16), (a.toNat, 10)]
  | .kmov k d a => mkWord 0x88000000 [(k.toNat, 22), (d.toNat, 16), (a.toNat, 10)]
  | .kmovVk k d a p => mkWord 0x88000010 [(k.toNat, 22), (d.toNat, 16), (a.toNat, 10), (p.toNat, 3)]
  | .kmovKv k d a => mkWord 0x88000020 [(k.toNat, 22), (d.toNat, 16), (a.toNat, 10)]
  | .kmovAv k d a => mkWord 0x88000030 [(k.toNat, 22), (d.toNat, 16), (a.toNat, 10)]
  | .cntp k d a x p => mkWord 0x8A000000 [(k.toNat, 22), (d.toNat, 16), (a.toNat, 10), (x.toNat, 4), (p.toNat, 3)]
  | .cntpK k d a => mkWord 0x8A000200 [(k.toNat, 22), (d.toNat, 16), (a.toNat, 10)]
  | .vperm k d a b p q => mkWord 0x90000000 [(k.toNat, 22), (d.toNat, 16), (a.toNat, 10), (b.toNat, 4), (p.toNat, 3), (q.toNat, 2)]
  | .vpermB k d a b p q => mkWord 0x90000001 [(k.toNat, 22), (d.toNat, 16), (a.toNat, 10), (b.toNat, 4), (p.toNat, 3), (q.toNat, 2)]
  | .vbcast k d a i p => mkWord 0x92000000 [(k.toNat, 22), (d.toNat, 16), (a.toNat, 10), (i.toNat, 4), (p.toNat, 3)]
  | .vbcastB k d a i p => mkWord 0x92000001 [(k.toNat, 22), (d.toNat, 16), (a.toNat, 10), (i.toNat, 4), (p.toNat, 3)]
  | .vrotl k d a n p => mkWord 0x94000000 [(k.toNat, 22), (d.toNat, 16), (a.toNat, 10), (n.toNat, 4), (p.toNat, 3)]
  | .vrotlSh k d a n p => mkWord 0x94000001 [(k.toNat, 22), (d.toNat, 16), (a.toNat, 10), (n.toNat, 4), (p.toNat, 3)]
  | .xg k d a g => mkWord 0x96000000 [(k.toNat, 22), (d.toNat, 16), (a.toNat, 10), (g.toNat, 4)]
  | .xgRel k d a n => mkWord 0x96000080 [(k.toNat, 22), (d.toNat, 16), (a.toNat, 10), (n.toNat, 4)]
  | .redadd k d a c x p => mkWord 0xA0000000 [(k.toNat, 22), (d.toNat, 16), (a.toNat, 10), (c.toNat, 8), (x.toNat, 4), (p.toNat, 3)]
  | .redmul k d a c x p => mkWord 0xA2000000 [(k.toNat, 22), (d.toNat, 16), (a.toNat, 10), (c.toNat, 8), (x.toNat, 4), (p.toNat, 3)]
  | .redmax k d a c x p => mkWord 0xA4000000 [(k.toNat, 22), (d.toNat, 16), (a.toNat, 10), (c.toNat, 8), (x.toNat, 4), (p.toNat, 3)]
  | .redmin k d a c x p => mkWord 0xA6000000 [(k.toNat, 22), (d.toNat, 16), (a.toNat, 10), (c.toNat, 8), (x.toNat, 4), (p.toNat, 3)]
  | .redor k d a c x p => mkWord 0xA8000000 [(k.toNat, 22), (d.toNat, 16), (a.toNat, 10), (c.toNat, 8), (x.toNat, 4), (p.toNat, 3)]
  | .redand k d a c x p => mkWord 0xAA000000 [(k.toNat, 22), (d.toNat, 16), (a.toNat, 10), (c.toNat, 8), (x.toNat, 4), (p.toNat, 3)]
  | .topk k d a b p q f => mkWord 0xAC000000 [(k.toNat, 22), (d.toNat, 16), (a.toNat, 10), (b.toNat, 4), (p.toNat, 3), (q.toNat, 2), (f.toNat, 0)]
  | .qpack k d a n p => mkWord 0xB0000000 [(k.toNat, 22), (d.toNat, 16), (a.toNat, 10), (n.toNat, 4), (p.toNat, 3)]
  | .qunpk k d a n => mkWord 0xB2000000 [(k.toNat, 22), (d.toNat, 16), (a.toNat, 10), (n.toNat, 4)]
  | .angof k d a b p q => mkWord 0xB4000000 [(k.toNat, 22), (d.toNat, 16), (a.toNat, 10), (b.toNat, 4), (p.toNat, 3), (q.toNat, 2)]
  | .vclmul k d a b p q f => mkWord 0xB6000000 [(k.toNat, 22), (d.toNat, 16), (a.toNat, 10), (b.toNat, 4), (p.toNat, 3), (q.toNat, 2), (f.toNat, 0)]
  | .vclmulh k d a b p q f => mkWord 0xB8000000 [(k.toNat, 22), (d.toNat, 16), (a.toNat, 10), (b.toNat, 4), (p.toNat, 3), (q.toNat, 2), (f.toNat, 0)]
  | .tld t => mkWord 0x08000000 [(t.toNat, 0)]
  | .tst c e t => mkWord 0x10000000 [(c.toNat, 26), (e.toNat, 16), (t.toNat, 0)]
  | .ldw w t => mkWord 0x18000000 [(w.toNat, 24), (t.toNat, 0)]
  | .stw w t => mkWord 0x20000000 [(w.toNat, 24), (t.toNat, 0)]
  | .atomAdd w t => mkWord 0x40000000 [(w.toNat, 24), (t.toNat, 0)]
  | .atomMin w t => mkWord 0x48000000 [(w.toNat, 24), (t.toNat, 0)]
  | .atomMax w t => mkWord 0x50000000 [(w.toNat, 24), (t.toNat, 0)]
  | .atomAnd w t => mkWord 0x58000000 [(w.toNat, 24), (t.toNat, 0)]
  | .atomOr w t => mkWord 0x60000000 [(w.toNat, 24), (t.toNat, 0)]
  | .atomXor w t => mkWord 0x68000000 [(w.toNat, 24), (t.toNat, 0)]
  | .atomSwap w t => mkWord 0x70000000 [(w.toNat, 24), (t.toNat, 0)]
  | .atomCas w t => mkWord 0x78000000 [(w.toNat, 24), (t.toNat, 0)]
  | .cpy t => mkWord 0x08000000 [(t.toNat, 0)]
  | .cpys t => mkWord 0x10000000 [(t.toNat, 0)]
  | .cpyg t => mkWord 0x18000000 [(t.toNat, 0)]
  | .cpyr t => mkWord 0x20000000 [(t.toNat, 0)]
  | .cpyst c e t => mkWord 0x28000000 [(c.toNat, 26), (e.toNat, 16), (t.toNat, 0)]
  | .cpyf t => mkWord 0x30000000 [(t.toNat, 0)]
  | .olatch b v k t => mkWord 0x08000000 [(b.toNat, 24), (v.toNat, 18), (k.toNat, 16), (t.toNat, 0)]
  | .opass c e t => mkWord 0x10000000 [(c.toNat, 26), (e.toNat, 16), (t.toNat, 0)]
  | .opassr c e t => mkWord 0x18000000 [(c.toNat, 26), (e.toNat, 16), (t.toNat, 0)]
  | .oderive c e t => mkWord 0x20000000 [(c.toNat, 26), (e.toNat, 16), (t.toNat, 0)]
  | .oapply c e t => mkWord 0x28000000 [(c.toNat, 26), (e.toNat, 16), (t.toNat, 0)]
  | .ofree t => mkWord 0x30000000 [(t.toNat, 0)]
  | .osave s p t => mkWord 0x38000000 [(s.toNat, 24), (p.toNat, 16), (t.toNat, 0)]
  | .orest s p t => mkWord 0x40000000 [(s.toNat, 24), (p.toNat, 16), (t.toNat, 0)]
  | .odrift s n t => mkWord 0x48000000 [(s.toNat, 24), (n.toNat, 16), (t.toNat, 0)]
  | .oscfg c e t => mkWord 0x50000000 [(c.toNat, 24), (e.toNat, 16), (t.toNat, 0)]
  | .dot c e t => mkWord 0x08000000 [(c.toNat, 26), (e.toNat, 16), (t.toNat, 0)]
  | .dota c e t => mkWord 0x10000000 [(c.toNat, 26), (e.toNat, 16), (t.toNat, 0)]
  | .dcfg s t => mkWord 0x18000000 [(s.toNat, 24), (t.toNat, 0)]
  | .ddrain s t => mkWord 0x20000000 [(s.toNat, 24), (t.toNat, 0)]
  | .dclr t => mkWord 0x28000000 [(t.toNat, 0)]
  | .dstat t => mkWord 0x30000000 [(t.toNat, 0)]
  | .ald d s a b l => mkWord 0x08000000 [(d.toNat, 22), (s.toNat, 18), (a.toNat, 17), (b.toNat, 16), (l.toNat, 0)]
  | .sld d s a b l => mkWord 0x10000000 [(d.toNat, 22), (s.toNat, 18), (a.toNat, 17), (b.toNat, 16), (l.toNat, 0)]
  | .ptld d s a b l => mkWord 0x18000000 [(d.toNat, 22), (s.toNat, 18), (a.toNat, 17), (b.toNat, 16), (l.toNat, 0)]
  | .ast d s a b l => mkWord 0x20000000 [(d.toNat, 22), (s.toNat, 18), (a.toNat, 17), (b.toNat, 16), (l.toNat, 0)]
  | .sst d s a b l => mkWord 0x28000000 [(d.toNat, 22), (s.toNat, 18), (a.toNat, 17), (b.toNat, 16), (l.toNat, 0)]
  | .trig s n t => mkWord 0x08000000 [(s.toNat, 24), (n.toNat, 16), (t.toNat, 0)]
  | .cinc s n t => mkWord 0x10000000 [(s.toNat, 24), (n.toNat, 16), (t.toNat, 0)]
  | .cset n t => mkWord 0x18000000 [(n.toNat, 16), (t.toNat, 0)]
  | .crd n t => mkWord 0x20000000 [(n.toNat, 16), (t.toNat, 0)]
  | .eph t => mkWord 0x28000000 [(t.toNat, 0)]
  | .aowcfg s n t => mkWord 0x30000000 [(s.toNat, 24), (n.toNat, 16), (t.toNat, 0)]
  | .ready x n t => mkWord 0x38000000 [(x.toNat, 19), (n.toNat, 16), (t.toNat, 0)]
  | .ephend t => mkWord 0x40000000 [(t.toNat, 0)]
  | _ => none

/-! Words written out from the encoding tables, for every instruction that has one. The first of each family that the spec gives as bytes is the spec's own. -/

theorem decodeControl_words :
    decodeControl 0x054B9AD1 = .ok (.bra 21732049) ∧
    decodeControl 0x0BE4D3C2 = .ok (.bz 31 316354) ∧
    decodeControl 0x0DB4D475 = .ok (.bnz 13 1365109) ∧
    decodeControl 0x10425166 = .ok (.jr 2 151910) ∧
    decodeControl 0x23C497C9 = .ok (.loop 7 4495305) ∧
    decodeControl 0x24000000 = .ok .endl ∧
    decodeControl 0x28000000 = .ok .breakLoop ∧
    decodeControl 0x40015D9E = .ok (.waits 1 23966) ∧
    decodeControl 0x46600004 = .ok (.waitc 19 4) ∧
    decodeControl 0x48000000 = .ok .bar ∧
    decodeControl 0x4C000015 = .ok (.fence 2 5) ∧
    decodeControl 0x50400003 = .ok (.cti 2 3) ∧
    decodeControl 0x61C000D7 = .ok (.rdst 14 215) ∧
    decodeControl 0x6460007C = .ok (.wrst 3 124) ∧
    decodeControl 0x68600000 = .ok (.tick 3) ∧
    decodeControl 0x6E400202 = .ok (.flrd 18 1 2) ∧
    decodeControl 0x7007CA31 = .ok (.flclr 1 248369) ∧
    decodeControl 0x7500A171 = .ok (.digest 8 41329) ∧
    decodeControl 0x80000000 = .ok .yield ∧
    decodeControl 0x8400A0A0 = .ok (.trap 41120) ∧
    decodeControl 0x88000000 = .ok .eret ∧
    decodeControl 0x8C000000 = .ok .halt := by
  refine ⟨rfl, rfl, rfl, rfl, rfl, rfl, rfl, rfl, rfl, rfl, rfl, rfl, rfl, rfl, rfl, rfl, rfl, rfl, rfl, rfl, rfl, rfl⟩

theorem decodeScalar_words :
    decodeScalar 0x01088003 = .ok (.add 1 2 3) ∧
    decodeScalar 0x019FC002 = .ok (.add 19 31 2) ∧
    decodeScalar 0x119CD964 = .ok (.addImm 19 19 6500) ∧
    decodeScalar 0x02120002 = .ok (.sub 2 8 2) ∧
    decodeScalar 0x03970005 = .ok (.and 18 28 5) ∧
    decodeScalar 0x1353893C = .ok (.andImm 10 14 2364) ∧
    decodeScalar 0x04910013 = .ok (.or 18 4 19) ∧
    decodeScalar 0x0554801B = .ok (.xor 10 18 27) ∧
    decodeScalar 0x06B18004 = .ok (.shl 22 6 4) ∧
    decodeScalar 0x169CE8E4 = .ok (.shlImm 19 19 10468) ∧
    decodeScalar 0x073B0004 = .ok (.shr 7 12 4) ∧
    decodeScalar 0x1795C405 = .ok (.shrImm 18 23 1029) ∧
    decodeScalar 0x08988014 = .ok (.sar 19 2 20) ∧
    decodeScalar 0x093C0039 = .ok (.min 7 16 1 25) ∧
    decodeScalar 0x0A5BC02C = .ok (.max 11 15 1 12) ∧
    decodeScalar 0x0B52001A = .ok (.cmpeq 10 8 26) ∧
    decodeScalar 0x0C35C019 = .ok (.cmplt 6 23 25) ∧
    decodeScalar 0x0D40C013 = .ok (.cmpltu 8 3 19) ∧
    decodeScalar 0x20544010 = .ok (.mul 10 17 16) ∧
    decodeScalar 0x21EAC02A = .ok (.mulh 29 11 1 10) ∧
    decodeScalar 0x22A0C004 = .ok (.clmul 20 3 4) ∧
    decodeScalar 0x238B8006 = .ok (.clmulh 17 14 6) ∧
    decodeScalar 0x28CAC040 = .ok (.brev 25 11 2) ∧
    decodeScalar 0x29F40000 = .ok (.popc 30 16) ∧
    decodeScalar 0x30708000 = .ok (.mov 14 2) ∧
    decodeScalar 0x31FD8000 = .ok (.movx 31 22) ∧
    decodeScalar 0x321B92B2 = .ok (.limm 3 3 37554) ∧
    decodeScalar 0x33068027 = .ok (.movStaging 26 39) ∧
    decodeScalar 0x38DAD5C5 = .ok (.ld 27 11 5573) ∧
    decodeScalar 0x39BB260B = .ok (.st 23 12 9739) := by
  refine ⟨rfl, rfl, rfl, rfl, rfl, rfl, rfl, rfl, rfl, rfl, rfl, rfl, rfl, rfl, rfl, rfl, rfl, rfl, rfl, rfl, rfl, rfl, rfl, rfl, rfl, rfl, rfl, rfl, rfl, rfl⟩

theorem decodeScalar_words_1 :
    decodeScalar 0x4084E41B = .ok (.fadd 16 19 1 1 27) ∧
    decodeScalar 0x411FF017 = .ok (.fmul 3 31 1 4 23) ∧
    decodeScalar 0x42B0F817 = .ok (.fma 22 3 1 6 23) ∧
    decodeScalar 0x43554056 = .ok (.fcmp 10 21 2 22) ∧
    decodeScalar 0x44DBF8E0 = .ok (.fcvt 27 15 1 6 7) := by
  refine ⟨rfl, rfl, rfl, rfl, rfl⟩

theorem decodeAddress_words :
    decodeAddress 0x07B60000 = .ok (.pset 29 22) ∧
    decodeAddress 0x09810000 = .ok (.pstep 12 1) ∧
    decodeAddress 0x0FEF0000 = .ok (.pwin 31 15) ∧
    decodeAddress 0x11802B06 = .ok (.padv 12 11014) ∧
    decodeAddress 0x21440002 = .ok (.spcfg 10 4 2) ∧
    decodeAddress 0x24200000 = .ok (.sprst 1) ∧
    decodeAddress 0x40390000 = .ok (.xlat 1 25) ∧
    decodeAddress 0x44400000 = .ok (.xclr 2) := by
  refine ⟨rfl, rfl, rfl, rfl, rfl, rfl, rfl, rfl⟩

theorem decodeVector_words :
    decodeVector 0x7C00000A = .ok (.vmov 0 0 0 1 2) ∧
    decodeVector 0x02B041AE = .ok (.vaddF 2 48 16 26 1 1 2) ∧
    decodeVector 0x049D6A4E = .ok (.vsubF 2 29 26 36 1 1 2) ∧
    decodeVector 0x07E44AEE = .ok (.vmulF 7 36 18 46 1 1 2) ∧
    decodeVector 0x093E3CAE = .ok (.vfmaF 4 62 15 10 1 1 2) ∧
    decodeVector 0x0AAB3C1E = .ok (.vfmsF 2 43 15 1 1 1 2) ∧
    decodeVector 0x0CC129BE = .ok (.vfnmaF 3 1 10 27 1 1 2) ∧
    decodeVector 0x0FB787DE = .ok (.vdivF 6 55 33 61 1 1 2) ∧
    decodeVector 0x11E4680A = .ok (.vsqrtF 7 36 26 1 2) ∧
    decodeVector 0x13077E9E = .ok (.vmaxF 4 7 31 41 1 1 2) ∧
    decodeVector 0x144E74BE = .ok (.vminF 1 14 29 11 1 1 2) ∧
    decodeVector 0x1647040A = .ok (.vabsF 1 7 1 1 2) ∧
    decodeVector 0x187D600A = .ok (.vnegF 1 61 24 1 2) ∧
    decodeVector 0x21CEA00A = .ok (.vexp2F 7 14 40 1 2) ∧
    decodeVector 0x2391F80A = .ok (.vlog2F 6 17 62 1 2) ∧
    decodeVector 0x24DF200A = .ok (.vrcpF 3 31 8 1 2) ∧
    decodeVector 0x271F7C0A = .ok (.vrsqF 4 31 31 1 2) ∧
    decodeVector 0x2887C00A = .ok (.vsinF 2 7 48 1 2) ∧
    decodeVector 0x2ADFD80A = .ok (.vcosF 3 31 54 1 2) ∧
    decodeVector 0x2C4EF40A = .ok (.vtanhF 1 14 61 1 2) ∧
    decodeVector 0x3185EC2E = .ok (.vcmpeqF 6 5 59 2 1 1 2) ∧
    decodeVector 0x33C3898E = .ok (.vcmpneF 7 3 34 24 1 1 2) ∧
    decodeVector 0x3545CA1E = .ok (.vcmpltF 5 5 50 33 1 1 2) ∧
    decodeVector 0x37C7C77E = .ok (.vcmpleF 7 7 49 55 1 1 2) ∧
    decodeVector 0x39B43C0A = .ok (.vclassF 6 52 15 1 2) ∧
    decodeVector 0x4117BC2E = .ok (.vaddS 4 23 47 2 1 1 2) ∧
    decodeVector 0x42CDB67F = .ok (.vsubS 3 13 45 39 1 1 3) ∧
    decodeVector 0x44FEFD8D = .ok (.vmulS 3 62 63 24 1 1 1) ∧
    decodeVector 0x469F356F = .ok (.vmaxS 2 31 13 22 1 1 3) ∧
    decodeVector 0x497605FF = .ok (.vminS 5 54 1 31 1 1 3) := by
  refine ⟨rfl, rfl, rfl, rfl, rfl, rfl, rfl, rfl, rfl, rfl, rfl, rfl, rfl, rfl, rfl, rfl, rfl, rfl, rfl, rfl, rfl, rfl, rfl, rfl, rfl, rfl, rfl, rfl, rfl, rfl⟩

theorem decodeVector_words_1 :
    decodeVector 0x4A44CEED = .ok (.vcmpeqS 1 4 51 46 1 1 1) ∧
    decodeVector 0x4D07A56E = .ok (.vcmpltS 4 7 41 22 1 1 2) ∧
    decodeVector 0x4F06F46D = .ok (.vcmpleS 4 6 61 6 1 1 1) ∧
    decodeVector 0x504A9BAF = .ok (.vaddN 1 10 38 58 1 1 3) ∧
    decodeVector 0x53E7FDFF = .ok (.vsubN 7 39 63 31 1 1 3) ∧
    decodeVector 0x5549081E = .ok (.vmulN 5 9 2 1 1 1 2) ∧
    decodeVector 0x57CDD78E = .ok (.vmaxN 7 13 53 56 1 1 2) ∧
    decodeVector 0x5893850F = .ok (.vminN 2 19 33 16 1 1 3) ∧
    decodeVector 0x5B07244F = .ok (.vcmpeqN 4 7 9 4 1 1 3) ∧
    decodeVector 0x5D47EA2F = .ok (.vcmpltN 5 7 58 34 1 1 3) ∧
    decodeVector 0x5E85842F = .ok (.vcmpleN 2 5 33 2 1 1 3) ∧
    decodeVector 0x6072D0AE = .ok (.vand 1 50 52 10 1 1 2) ∧
    decodeVector 0x636F224F = .ok (.vor 5 47 8 36 1 1 3) ∧
    decodeVector 0x656291FD = .ok (.vxor 5 34 36 31 1 1 1) ∧
    decodeVector 0x66920C0B = .ok (.vnot 2 18 3 1 3) ∧
    decodeVector 0x69240B1E = .ok (.vshl 4 36 2 49 1 1 2) ∧
    decodeVector 0x6B7F867E = .ok (.vshr 5 63 33 39 1 1 2) ∧
    decodeVector 0x6D63D1FF = .ok (.vsar 5 35 52 31 1 1 3) ∧
    decodeVector 0x6EB6749E = .ok (.vrot 2 54 29 9 1 1 2) ∧
    decodeVector 0x7115179B = .ok (.vcvt 4 21 5 1 1 9 1 3) ∧
    decodeVector 0x72F321DE = .ok (.vcvtw 3 51 8 1 13 1 1 2) ∧
    decodeVector 0x74BE788A = .ok (.srnd 2 62 30 8 1 2) ∧
    decodeVector 0x770BACA8 = .ok (.filla 4 11 43 10 1) ∧
    decodeVector 0x78AE0040 = .ok (.mkabs 2 46 4) ∧
    decodeVector 0x7B5A59BE = .ok (.vsel 5 26 22 27 1 1) ∧
    decodeVector 0x7CC6BC09 = .ok (.vmov 3 6 47 1 1) ∧
    decodeVector 0x7CE40012 = .ok (.vmovFromCn 3 36) ∧
    decodeVector 0x7D00742A = .ok (.vmovToCn 4 29 1) ∧
    decodeVector 0x81031450 = .ok (.kand 4 3 5 5) ∧
    decodeVector 0x82C50410 = .ok (.kor 3 5 1 1) := by
  refine ⟨rfl, rfl, rfl, rfl, rfl, rfl, rfl, rfl, rfl, rfl, rfl, rfl, rfl, rfl, rfl, rfl, rfl, rfl, rfl, rfl, rfl, rfl, rfl, rfl, rfl, rfl, rfl, rfl, rfl, rfl⟩

theorem decodeVector_words_2 :
    decodeVector 0x85C20410 = .ok (.kxor 7 2 1 1) ∧
    decodeVector 0x86C30400 = .ok (.knot 3 3 1) ∧
    decodeVector 0x89C20C00 = .ok (.kmov 7 2 3) ∧
    decodeVector 0x89C2D418 = .ok (.kmovVk 7 2 53 1) ∧
    decodeVector 0x89FB1820 = .ok (.kmovKv 7 59 6) ∧
    decodeVector 0x89FD0C30 = .ok (.kmovAv 7 61 3) ∧
    decodeVector 0x8B0A8CC8 = .ok (.cntp 4 10 35 12 1) ∧
    decodeVector 0x8B950600 = .ok (.cntpK 6 21 1) ∧
    decodeVector 0x90C4D2DC = .ok (.vperm 3 4 52 45 1 1) ∧
    decodeVector 0x9052F42D = .ok (.vpermB 1 18 61 2 1 1) ∧
    decodeVector 0x9267DC48 = .ok (.vbcast 1 39 55 4 1) ∧
    decodeVector 0x92F82089 = .ok (.vbcastB 3 56 8 8 1) ∧
    decodeVector 0x94E46CF8 = .ok (.vrotl 3 36 27 15 1) ∧
    decodeVector 0x95490C99 = .ok (.vrotlSh 5 9 3 9 1) ∧
    decodeVector 0x967F2C30 = .ok (.xg 1 63 11 3) ∧
    decodeVector 0x964C34B0 = .ok (.xgRel 1 12 13 3) ∧
    decodeVector 0xA1948988 = .ok (.redadd 6 20 34 1 8 1) ∧
    decodeVector 0xA36C3188 = .ok (.redmul 5 44 12 1 8 1) ∧
    decodeVector 0xA4C30588 = .ok (.redmax 3 3 1 1 8 1) ∧
    decodeVector 0xA75F4188 = .ok (.redmin 5 31 16 1 8 1) ∧
    decodeVector 0xA9A08D88 = .ok (.redor 6 32 35 1 8 1) ∧
    decodeVector 0xAB8EFD88 = .ok (.redand 6 14 63 1 8 1) ∧
    decodeVector 0xADF9BAFE = .ok (.topk 7 57 46 47 1 1 2) ∧
    decodeVector 0xB0762458 = .ok (.qpack 1 54 9 5 1) ∧
    decodeVector 0xB3B0E460 = .ok (.qunpk 6 48 57 6) ∧
    decodeVector 0xB50B106C = .ok (.angof 4 11 4 6 1 1) ∧
    decodeVector 0xB750B53D = .ok (.vclmul 5 16 45 19 1 1 1) ∧
    decodeVector 0xB892741E = .ok (.vclmulh 2 18 29 1 1 1 2) := by
  refine ⟨rfl, rfl, rfl, rfl, rfl, rfl, rfl, rfl, rfl, rfl, rfl, rfl, rfl, rfl, rfl, rfl, rfl, rfl, rfl, rfl, rfl, rfl, rfl, rfl, rfl, rfl, rfl, rfl⟩

theorem decodeTileMem_words :
    decodeTileMem 0x0800F8FE = .ok (.tld 63742) ∧
    decodeTileMem 0x143F08D2 = .ok (.tst 1 63 2258) ∧
    decodeTileMem 0x190037C7 = .ok (.ldw 1 14279) ∧
    decodeTileMem 0x21002ED7 = .ok (.stw 1 11991) ∧
    decodeTileMem 0x410055D9 = .ok (.atomAdd 1 21977) ∧
    decodeTileMem 0x4900157A = .ok (.atomMin 1 5498) ∧
    decodeTileMem 0x51004768 = .ok (.atomMax 1 18280) ∧
    decodeTileMem 0x59003F89 = .ok (.atomAnd 1 16265) ∧
    decodeTileMem 0x61001743 = .ok (.atomOr 1 5955) ∧
    decodeTileMem 0x6900D12A = .ok (.atomXor 1 53546) ∧
    decodeTileMem 0x710024D5 = .ok (.atomSwap 1 9429) ∧
    decodeTileMem 0x79009639 = .ok (.atomCas 1 38457) := by
  refine ⟨rfl, rfl, rfl, rfl, rfl, rfl, rfl, rfl, rfl, rfl, rfl, rfl⟩

theorem decodeCopy_words :
    decodeCopy 0x08000AAB = .ok (.cpy 2731) ∧
    decodeCopy 0x100064DC = .ok (.cpys 25820) ∧
    decodeCopy 0x180005C3 = .ok (.cpyg 1475) ∧
    decodeCopy 0x20004CB6 = .ok (.cpyr 19638) ∧
    decodeCopy 0x2CA23B9A = .ok (.cpyst 1 162 15258) ∧
    decodeCopy 0x300015A1 = .ok (.cpyf 5537) := by
  refine ⟨rfl, rfl, rfl, rfl, rfl, rfl⟩

theorem decodeOrrery_words :
    decodeOrrery 0x10000000 = .ok (.opass 0 0 0) ∧
    decodeOrrery 0x0B07E48F = .ok (.olatch 3 1 3 58511) ∧
    decodeOrrery 0x14C4537E = .ok (.opass 1 196 21374) ∧
    decodeOrrery 0x1C2748C0 = .ok (.opassr 1 39 18624) ∧
    decodeOrrery 0x240CD32A = .ok (.oderive 1 12 54058) ∧
    decodeOrrery 0x2CBCB379 = .ok (.oapply 1 188 45945) ∧
    decodeOrrery 0x3000CFEE = .ok (.ofree 53230) ∧
    decodeOrrery 0x390F8615 = .ok (.osave 1 15 34325) ∧
    decodeOrrery 0x410EAFBD = .ok (.orest 1 14 44989) ∧
    decodeOrrery 0x4900E491 = .ok (.odrift 1 0 58513) ∧
    decodeOrrery 0x530BF4C2 = .ok (.oscfg 3 11 62658) := by
  refine ⟨rfl, rfl, rfl, rfl, rfl, rfl, rfl, rfl, rfl, rfl, rfl⟩

theorem decodeDot_words :
    decodeDot 0x0C1607FB = .ok (.dot 1 22 2043) ∧
    decodeDot 0x1423A31B = .ok (.dota 1 35 41755) ∧
    decodeDot 0x1900F5A3 = .ok (.dcfg 1 62883) ∧
    decodeDot 0x2200606B = .ok (.ddrain 2 24683) ∧
    decodeDot 0x2800D5F9 = .ok (.dclr 54777) ∧
    decodeDot 0x3000738F = .ok (.dstat 29583) := by
  refine ⟨rfl, rfl, rfl, rfl, rfl, rfl⟩

theorem decodeLoad_words :
    decodeLoad 0x0C040200 = .ok (.ald 16 1 0 0 512) ∧
    decodeLoad 0x0C877D43 = .ok (.ald 18 1 1 1 32067) ∧
    decodeLoad 0x1247BF8F = .ok (.sld 9 1 1 1 49039) ∧
    decodeLoad 0x1FA7BEE9 = .ok (.ptld 30 9 1 1 48873) ∧
    decodeLoad 0x2623D89D = .ok (.ast 24 8 1 1 55453) ∧
    decodeLoad 0x2A53BD66 = .ok (.sst 9 4 1 1 48486) := by
  refine ⟨rfl, rfl, rfl, rfl, rfl, rfl⟩

theorem decodeCollective_words :
    decodeCollective 0x0A3F75D9 = .ok (.trig 2 63 30169) ∧
    decodeCollective 0x113761F0 = .ok (.cinc 1 55 25072) ∧
    decodeCollective 0x18057AA1 = .ok (.cset 5 31393) ∧
    decodeCollective 0x203BAF07 = .ok (.crd 59 44807) ∧
    decodeCollective 0x2800498E = .ok (.eph 18830) ∧
    decodeCollective 0x3305A1FF = .ok (.aowcfg 3 5 41471) ∧
    decodeCollective 0x38AA13D6 = .ok (.ready 21 2 5078) ∧
    decodeCollective 0x40009987 = .ok (.ephend 39303) := by
  refine ⟨rfl, rfl, rfl, rfl, rfl, rfl, rfl, rfl⟩

theorem decodeNop_words : decodeNop 0x00800000 = some (.nop 0 1) ∧ decodeNop 0x01800000 = some (.nop 1 1) := ⟨rfl, rfl⟩

end Sys2Proof
end

