-- ==== Sys2Proof/Machine/State.lean ====
section
/-! DEFINITION. The state of the module as plain data, and the state after reset (R348). -/

namespace Sys2Proof.Machine

/-! ## Scalar side of a context -/

/-- CTXST.`state` (R29), in the order of its codes. -/
inductive CtxState where
  | idle | running | ready | waiting | draining | halted | faulted | frozen
  deriving DecidableEq, Repr, Inhabited

/-- ROTB (R24). -/
structure Rotb where
  vsize : Nat := 0
  vbase : Nat := 0
  bsize : Nat := 0
  bbase : Nat := 0
  asize : Nat := 0
  abase : Nat := 0
  deriving DecidableEq, Repr, Inhabited

/-- A pointer: Xn and XnW (R43). -/
structure Pointer where
  addr : BitVec 28 := 0
  step : BitVec 24 := 0
  wbase : BitVec 28 := 0
  wrap : BitVec 22 := 0
  deriving DecidableEq, Repr, Inhabited

/-- A stream port: SnA, SnB, SnC and the walk position SnD (R45). -/
structure Port where
  a : Word := 0
  b : Word := 0
  c : Word := 0
  pos : Nat := 0
  deriving DecidableEq, Repr, Inhabited

/-- Loop-table kinds (R15). -/
inductive LevelKind where
  | temporal | cores | dies
  deriving DecidableEq, Repr, Inhabited

/-- A level of a task's loop table, its count resolved at launch (R15, R123). -/
structure Level where
  kind : LevelKind := .temporal
  interlocked : Bool := false
  count : Nat := 0
  budget : Nat := 0
  deriving DecidableEq, Repr, Inhabited

/-- A loop-stack entry LPk (R20). -/
structure LoopEntry where
  index : W32 := 0
  count : W32 := 0
  start : W32 := 0
  exit : W32 := 0
  budget : Nat := 0
  kind : LevelKind := .temporal
  valid : Bool := false
  interlocked : Bool := false
  elapsed : Nat := 0
  deriving DecidableEq, Repr, Inhabited

/-- The first-event record FER (R307). -/
structure Fer where
  valid : Bool := false
  mask : Flags := 0
  flags : Flags := 0
  slot : Nat := 0
  addr : W32 := 0
  deriving DecidableEq, Repr, Inhabited

/-- The predicates, absent masks and count register of a lane group (R42); entry 0 of `k` and `ka` is never read. -/
structure LaneRegs where
  k : Vector (BitVec 256) 8 := Vector.replicate 8 0
  ka : Vector (BitVec 256) 8 := Vector.replicate 8 0
  cn : Vector W32 16 := Vector.replicate 16 0
  deriving DecidableEq, Repr, Inhabited

/-- A triggered operation or READY in a queue slot (R212, R216, R217). -/
structure Queued where
  /-- READY instead of TRIG. -/
  isReady : Bool := false
  tc : Nat := 0
  eng : Nat := 0
  thr : W32 := 0
  hdr : W32 := 0
  stg : List Word := []
  region : Nat := 0
  tile : Nat := 0
  clr : Bool := false
  grp : W32 := 0
  /-- The command id of the TRIG or READY that armed it. -/
  armer : Nat := 0
  /-- Armed from this tick; until then the slot is taken and not tested. -/
  armedAt : Option Nat := none
  /-- Its condition held, or its bit was seen, in this tick; it waits for its dispatch or increment. -/
  fired : Option Nat := none
  /-- A fired operation whose dispatch waits on an event of varying timing (R216). -/
  blocked : Bool := false
  /-- A READY is released at this meridian tick (R340). -/
  lapse : Option Nat := none
  deriving DecidableEq, Repr, Inhabited

/-- The registers that a restart region checkpoints (R328). -/
structure Regs where
  a : Vector Word 32 := Vector.replicate 32 0
  b : Vector Word 32 := Vector.replicate 32 0
  /-- By the pointer codes of R106: P0-15, AP, ZP, OP, CP. -/
  ptr : Vector Pointer 32 := Vector.replicate 32 {}
  port : Vector Port 16 := Vector.replicate 16 {}
  xa : Vector Word 4 := Vector.replicate 4 0
  lane : Vector LaneRegs 8 := Vector.replicate 8 {}
  /-- By the numbers of R109. -/
  staging : Vector Word 40 := Vector.replicate 40 0
  tc : Vector W32 64 := Vector.replicate 64 0
  tcrw : Word := 0
  tq : Vector (Option Queued) 32 := Vector.replicate 32 none
  loops : Vector LoopEntry 6 := Vector.replicate 6 {}
  rotb : Rotb := {}
  rm : Rm := .rne
  flags : Vector Flags 18 := Vector.replicate 18 0
  fer : Fer := {}
  deriving DecidableEq, Repr, Inhabited

/-! ## Faults and work of a context -/

/-- A fault: class and code of R301, the slot position, the address it concerns, the group it names. -/
structure FaultRec where
  cls : Nat
  code : Nat
  slot : Nat := 0
  far : Word := 0
  grp : W32 := 0
  /-- Of a deferred fault: the wall cycle in which it was detected. -/
  seen : Nat := 0
  /-- Another fault of its slot or cycle was discarded (R302). -/
  more : Bool := false
  /-- The lane group in which it arose: a beat of a word raised it (R9). -/
  lg : Option Nat := none
  deriving DecidableEq, Repr, Inhabited

/-- FGA (R302). -/
structure Fga where
  pend : Bool := false
  more : Bool := false
  slot : Nat := 0
  grp : W32 := 0
  deriving DecidableEq, Repr, Inhabited

/-- A write held back by an open restart region (R327). -/
inductive Gated where
  /-- A 64-byte segment, or the bytes of an STW, toward a virtual address. -/
  | store (cmd : Nat) (va : Word) (data : List Byte)
  /-- A Camvel record for a level; the order of its CTI. -/
  | record (ord level : Nat) (r : CamvelRecord)
  deriving DecidableEq, Repr, Inhabited

/-- RGST and what a restart region holds (R326-R329). -/
structure Region where
  open_ : Bool := false
  rback : Bool := false
  mark : W32 := 0
  /-- Issue order of its restart group. -/
  since : Nat := 0
  /-- Entries taken by issued groups; those whose data is known stand in `gated`. -/
  taken : Nat := 0
  gated : List Gated := []
  checkpoint : Option Regs := none
  /-- Shadows: lane group, physical register, its 1 KiB image; empty until the first write lands, and in timed mode. -/
  shadows : List (Nat × Nat × List Byte) := []
  /-- A group has met an event that closes it; it holds until the commit (R326). -/
  closing : Bool := false
  deriving DecidableEq, Repr, Inhabited

/-- DRn (R89). -/
structure Drift where
  gmax : W32 := 0x3F800000
  exceeded : Bool := false
  deriving DecidableEq, Repr, Inhabited

/-- 128 lanes of a row, F32 or the absent code, in column order (R82). -/
abbrev Row := List W32

/-- A row in flight in the orrery (R96). -/
structure Flight where
  row : Nat
  round : Nat
  age : Nat
  m : Nat := 0
  wabs : Bool := false
  pairs : List Word := []
  lanes : Row := []
  /-- The row as it leaves, from age 18, and the factor of its renormalisation. -/
  out : Option (List Nat) := none
  factor : Option W32 := none
  /-- It depends on a poisoned word, and the pairs of it that do not: it never lands (R341). -/
  soiled : Option Nat := none
  deriving DecidableEq, Repr, Inhabited

/-- A pass in progress in a sweep slot (R86, R92-R96). -/
structure Pass where
  /-- The command that runs it. -/
  cmd : Nat
  /-- 0 rotate, 1 reverse, 2 derive, 3 apply. -/
  kind : Nat
  word : W32
  os : List Word
  tag : BitVec 16
  rm : Rm
  honour : Bool
  /-- The next row to enter, and its round; `next` = rows when none is left. -/
  next : Nat := 0
  round : Nat := 0
  /-- Ticks until the next row enters. -/
  due : Nat := 0
  /-- Rows landed in this tick: row, width, the codes they replaced. -/
  undo : List (Nat × Nat × List Nat) := []
  /-- An OSAVE has frozen it (R203). -/
  frozen : Bool := false
  /-- The scale pointer's address, read at dispatch (R109). -/
  zp : Nat := 0
  /-- Where the pair stream of this tick goes, once its pointer has served it (R44); a use out of the wrap window has been reported. -/
  stream : Option (List Nat) := none
  strayed : Bool := false
  /-- Rows that never landed, for poison (R341). -/
  lost : List Nat := []
  nin : List (Nat × W32) := []
  flight : List Flight := []
  /-- Completed pair groups not yet written. -/
  groups : List (List Word) := []
  deriving DecidableEq, Repr, Inhabited

/-- A sweep slot: residents of the stages from stage 0 up, an empty one where a poisoned word spoiled it (R341), and the pass it holds (R92, R358). -/
structure Sweep where
  residents : List Row := []
  pass : Option Pass := none
  /-- The slot's bytes, where a supervisor has written what is no sweep record: it stands until it becomes one or is judged (R96, R351, R354). -/
  raw : Option (List Byte) := none
  deriving DecidableEq, Repr, Inhabited

/-- A transit entry (R261). -/
structure Transit where
  tick : Nat
  len : Nat
  lane : Nat
  dloc : Bool
  tc : Nat
  cinc : Bool
  src : Nat
  dst : Word
  deriving DecidableEq, Repr, Inhabited

/-- An open ephemeris (R262). -/
structure Ephemeris where
  /-- Order of its EPH. -/
  id : Nat
  table : Nat
  count : Nat
  start : Nat
  base : Nat
  grp : W32
  entries : List Transit := []
  /-- Transits completed so far. -/
  finished : Nat := 0
  deriving DecidableEq, Repr, Inhabited

/-- A transit that has started (R263). Its key names its ephemeris and its number there. -/
structure Moving where
  key : Nat
  transit : Transit
  start : Nat
  grp : W32
  /-- Blocks still to perform. -/
  left : Nat
  /-- A block waits at its owner for REPLAY (R330). -/
  parked : Bool := false
  deriving DecidableEq, Repr, Inhabited

/-- A SHAKE256 sponge: 25 lanes of 64 bits, bytes of the rate block absorbed (R266, R267). -/
structure Sponge where
  lanes : Vector Word 25 := Vector.replicate 25 0
  pos : Nat := 0
  deriving DecidableEq, Repr, Inhabited

/-- A DIGEST in progress (R132, R267). -/
structure DigestRun where
  /-- Order of its DIGEST. -/
  id : Nat
  addr : Nat
  n : Nat
  done : Nat
  start : Nat
  /-- The group of its DIGEST. -/
  grp : W32 := 0
  deriving DecidableEq, Repr, Inhabited

/-- The engines, by the slot that commands them (R99). -/
inductive Engine where
  | tm | cp | orr | dot | load | col
  deriving DecidableEq, Repr, Inhabited

/-- An engine command from its dispatch to its completion (R187, R188). -/
structure Cmd where
  /-- Dispatch order over the package. -/
  id : Nat
  ctx : Nat
  eng : Engine
  instr : Instr
  word : W32
  /-- The engine's staging registers as read at dispatch (R109). -/
  stg : List Word
  rm : Rm
  honour : Bool
  /-- Pointer addresses read at dispatch, in the order the entry names them. -/
  ptrs : List Nat
  grp : W32
  slot : Nat
  dispatched : Nat
  start : Nat
  started : Bool := false
  tag : BitVec 16 := 0
  /-- Tiles on which this command still counts in `readers`. -/
  reads : List Nat := []
  /-- Tiles whose `wpend` this command holds. -/
  writes : List Nat := []
  /-- The units issued so far: rows, blocks, chunks. -/
  pos : Nat := 0
  /-- The units performed so far. -/
  done : Nat := 0
  /-- CPYR: fired. -/
  fired : Bool := false
  parked : Bool := false
  /-- Waits for a frozen master or a fault to be mended; it makes no progress. -/
  stopped : Bool := false
  /-- Its violation froze a master: 1 the copy engine, 2 and 3 the stride-gather units of stacks 0 and 1 (R312). -/
  froze : Nat := 0
  /-- Of a command whose writes a restart region gated: the region's first order plus 1. Such writes perform in gating order (R327). -/
  gateOf : Nat := 0
  /-- Its writes, or its record, wait for the restart region to commit. -/
  gated : Bool := false
  /-- Data read and not yet written, by unit. -/
  data : List (Nat × List Byte) := []
  /-- Numbers kept: partial sums, row codes, pattern words. -/
  nums : List Nat := []
  deriving DecidableEq, Repr

/-! ## Landings and performs -/

/-- The effect of a result that lands, or of an access that performs. -/
inductive Act where
  /-- A scalar result: file B or A, register, the bits written, the value. -/
  | scalar (fileB : Bool) (r : Nat) (mask v : Word)
  /-- A staging register. -/
  | staging (n : Nat) (v : Word)
  /-- A pointer's address, step, or wrap fields. -/
  | ptrAddr (n : Nat) (v : BitVec 28)
  | ptrStep (n : Nat) (v : BitVec 24)
  | ptrWrap (n : Nat) (wbase : BitVec 28) (wrap : BitVec 22)
  /-- A port register A, B or C, or the position alone (3). -/
  | port (n q : Nat) (v : Word)
  /-- A checked WRST. -/
  | wrst (sn : Nat) (v : Word)
  | xaClear (n : Nat)
  /-- A beat of a vector register: lane group, physical register, beat, words with their write enables. -/
  | beat (lg reg beat : Nat) (words : List (Option W32))
  /-- A beat of a predicate and its absent mask, with write enables. -/
  | pred (lg k beat : Nat) (bits absent enable : BitVec 16)
  | cn (lg beat : Nat) (v : W32)
  /-- Flags of a slot position, with the group they are charged to. -/
  | flags (slot : Nat) (f : Flags) (grp : W32)
  /-- A scalar load reads its bank: owner core, offset, register, group; the value lands `wait` cycles later, or from 100 up travels back on lane `wait` − 100. -/
  | load (owner off : Nat) (fileB : Bool) (r wait : Nat) (grp : W32)
  /-- Bytes arrive at a scratchpad: owner core, offset, R54 rank. -/
  | store (owner off rank : Nat) (data : List Byte)
  /-- A write of an engine memory or of any other memory key. -/
  | put (key rank : Nat) (data : List Byte)
  /-- A CTI's record is read. -/
  | ctiRead (addr level : Nat) (grp : W32)
  /-- A trigger counter change: set or increment. -/
  | tcSet (n : Nat) (v : W32)
  | tcAdd (n : Nat) (v : W32)
  /-- TCRW marks a counter. -/
  | tcrw (n : Nat)
  /-- A queue slot becomes armed. -/
  | arm (q : Nat)
  /-- A command releases its readers of a tile, or finishes its write of a tile. -/
  | release (cmd tile : Nat)
  | wrote (cmd tile : Nat)
  /-- A command leaves the core. -/
  | finish (cmd : Nat)
  /-- A latch bank takes its image. -/
  | latch (key : Nat) (data : List Byte)
  /-- A drift register is reset. -/
  | driftReset (n : Nat)
  /-- An accumulate-on-write region's registers are written: sel, n, A, B. -/
  | aow (sel n : Nat) (a b : Word) (grp : W32)
  /-- A tile's ready bit is set. -/
  | readySet (n t : Nat)
  /-- A ready bit is cleared by a READY with `clr`. -/
  | readyClear (n t : Nat)
  /-- Unit u of a command reads, or writes what it has read, at a tick the schedule fixes. -/
  | unitRead (cmd u : Nat)
  | unitWrite (cmd u : Nat) (data : List Byte)
  /-- An off-core access of a command, on its way to its owner: a read of n bytes, a write, an ATOM. -/
  | farRead (cmd u : Nat) (va : Word) (n : Nat)
  | farWrite (cmd u : Nat) (va : Word) (data : List Byte)
  | farAtom (cmd : Nat) (va : Word)
  /-- The data of unit u of a command arrives at the core. -/
  | back (cmd u : Nat) (data : List Byte)
  /-- The far end of a host window or a peer acknowledges a write of a command (R243, R251). -/
  | acked (cmd : Nat)
  /-- A row of a tile lands: physical register of its first row, row, width, 128 codes. -/
  | row (reg r w : Nat) (vals : List Nat)
  /-- A transit, by its key, starts; block i of it is read; the block seeks its destination; it performs at a memory key. -/
  | transitBegin (k : Nat)
  | transit (k i : Nat)
  | transitGo (k i : Nat) (data : List Byte)
  | transitPerform (k dest : Nat) (plain : Bool) (data : List Byte)
  /-- An ephemeris closes. -/
  | ephClose (id : Nat)
  /-- Armed READYs lapse. -/
  | readyLapse
  /-- A queue slot becomes free. -/
  | queueFree (q : Nat)
  /-- The flag sets are read at the end of a cycle for an FLRD: all, position, destination. -/
  | flagRead (all : Bool) (pos r : Nat)
  deriving DecidableEq, Repr, Inhabited

/-- Something due at a tick. `phase` mod 4: 0 at the start of the tick, 1 reads, 2 writes, 3 off-core performs. `phase` div 4 names the clock: 0 the context's, 1 the meridian, 2 wall cycles. -/
structure Ev where
  core : Nat
  ctx : Nat
  due : Nat
  phase : Nat
  /-- Issue order: later wins between same-cycle landings (R36). -/
  ord : Nat
  act : Act
  deriving DecidableEq, Repr, Inhabited

/-- What a vector word read in one beat (R161). -/
structure BeatRead where
  a : List W32
  b : List W32
  d : List W32
  /-- The governing predicate and the predicates named as sources, with their absent masks. -/
  k : BitVec 16
  ka : BitVec 16
  kb : BitVec 16
  kaa : BitVec 16
  kab : BitVec 16
  cn : W32
  deriving DecidableEq, Repr, Inhabited

/-- A word in flight in a lane group (R159, R161). Names are resolved at issue. -/
structure InFlight where
  ctx : Nat
  instr : Instr
  /-- Issue tick of the context. -/
  issued : Nat
  ord : Nat
  slot : Nat
  grp : W32
  rm : Rm
  honour : Bool
  /-- Extra cycles of an interlocked level (R23). -/
  extra : Nat
  /-- Physical registers of vd, va, vb and vd + 1. -/
  vd : Nat
  va : Nat
  vb : Nat
  vd1 : Nat
  /-- Lane group whose registers va names (XG), else the own one. -/
  srcGroup : Nat
  /-- Scratchpad offsets of a popped vector for va and vb. -/
  popA : Option (List Nat)
  popB : Option (List Nat)
  reads : List BeatRead := []
  /-- Beats whose read met a poisoned word (R341). -/
  spoiled : List Nat := []
  deriving DecidableEq, Repr

/-! ## Contexts and cores -/

/-- The windows of a context in the core's shared resources (R14, R19). -/
structure Window where
  vwin : Nat := 0
  vbase : Nat := 0
  lbanks : Nat := 0
  lbase : Nat := 0
  tcount : Nat := 0
  tqueue : Nat := 0
  opmem : Nat := 0
  opbase : Nat := 0
  accmem : Nat := 0
  accbase : Nat := 0
  deriving DecidableEq, Repr, Inhabited

/-- The task a context runs (R14-R18). -/
structure Task where
  code : List Byte := []
  levels : List Level := []
  bodyBudget : Nat := 0
  params : List Word := []
  /-- Spread it belongs to, and its number in it. -/
  spread : Nat := 0
  index : Nat := 0
  deriving DecidableEq, Repr, Inhabited

/-- A FENCE that waits: the order of its issue, its kind and scope as R127 codes them, its group (R343). -/
structure Fence where
  id : Nat
  kind : Nat
  scope : Nat
  grp : W32
  deriving DecidableEq, Repr, Inhabited

/-- A context (R19, R29-R34). -/
structure Ctx where
  regs : Regs := {}
  pc : W32 := 0
  state : CtxState := .idle
  preq : Bool := false
  timed : Bool := false
  /-- CSAB base and en (R34). -/
  csab : Word := 0
  tvecEn : Bool := false
  tvecAddr : W32 := 0
  epcInh : Bool := false
  epcRet : W32 := 0
  causeClass : BitVec 8 := 0
  causeCode : BitVec 16 := 0
  far : Word := 0
  fga : Fga := {}
  region : Region := {}
  bodyElapsed : Nat := 0
  tstm : Word := 0
  sbTag : Vector (BitVec 16) 16 := Vector.replicate 16 0
  /-- Dispatch order of the writer whose tag each entry holds (R188). -/
  sbBy : Vector Nat 16 := Vector.replicate 16 0
  tfr : Vector Word 4 := Vector.replicate 4 0
  drift : Vector Drift 16 := Vector.replicate 16 {}
  dfault : Bool := false
  driftLimit : W32 := 0x7F800000
  sweep : Vector Sweep 2 := Vector.replicate 2 {}
  /-- Outstanding XLAT probes: the XLAT's order, per register (R157). -/
  probe : Vector (Option Nat) 4 := Vector.replicate 4 none
  /-- Addresses of the outstanding probes, and the wall cycles in which their results land. -/
  probeVa : Vector Word 4 := Vector.replicate 4 0
  probeDue : Vector Nat 4 := Vector.replicate 4 0
  eph : Option Ephemeris := none
  /-- Transits under way. -/
  moving : List Moving := []
  sponge : Sponge := {}
  /-- DIGESTs in progress, oldest first; the last read of one may fall in the issue cycle of the next. -/
  digesting : List DigestRun := []
  task : Task := {}
  win : Window := {}
  /-- Deferred faults detected and not yet delivered (R302). -/
  deferred : List FaultRec := []
  killed : Bool := false
  /-- The next group issues no earlier than this tick (R121); a timed context issues at most once a tick. -/
  readyAt : Nat := 0
  /-- Barriers passed; the barrier waited for, and whether this task has arrived (R126). -/
  bars : Nat := 0
  barWait : Bool := false
  barOrd : Nat := 0
  barArrived : Bool := false
  /-- FENCEs that are not complete, oldest first (R127). -/
  fences : List Fence := []
  /-- The elapsed counts were set to 0 in this cycle (R21, R22). -/
  boundary : Bool := false
  /-- The last group held, and its hold waits on an event of varying timing (R118, R120). -/
  held : Bool := false
  stalling : Bool := false
  /-- HALT was executed; the task finishes when its work completes (R137). -/
  ended : Bool := false
  /-- The tick of the stop. -/
  haltTick : Nat := 0
  /-- A stop has taken hold: its tick is over, and what is under way stands set aside, until the first group after a release comes to issue (R31, R34, R303). -/
  parked : Bool := false
  /-- What is set aside, with the ticks from that group's to its own; the tick, and the meridian tick, that the group would have had. -/
  suspended : List Ev := []
  asideAt : Nat := 0
  asideMer : Nat := 0
  /-- The lane groups stay busy until these ticks for words that were set aside (R159). -/
  laneUntil : Vector Nat 8 := Vector.replicate 8 0
  /-- A fault stopped it: the group of that tick has not issued and issues again in its own tick (R303, R338). -/
  mid : Bool := false
  /-- A YIELD was executed in this cycle (R133). -/
  yielded : Bool := false
  /-- A release has been asked for and waits for the other tasks of the spread (R352). -/
  relReq : Bool := false
  deriving DecidableEq, Repr, Inhabited

/-- An accumulate-on-write region: AOWnA, AOWnB, counters, and the context and group of the last AOWCFG of A (R55-R57, R339). -/
structure AowRegion where
  a : Word := 0
  ready : W32 := 0
  expect : Nat := 0
  counts : Vector Nat 32 := Vector.replicate 32 0
  owner : Nat := 0
  grp : W32 := 0
  /-- The task whose AOWCFG wrote AOWnA has finished, and another has its context (R339). -/
  gone : Bool := false
  /-- Tiles whose first discarded arrival has been reported. -/
  overrun : W32 := 0
  deriving DecidableEq, Repr, Inhabited

/-- A flit on a pavilion ring (R53). -/
structure Flit where
  pav : Nat
  lane : Nat
  /-- Core of the pavilion it stands at, and hops it still crosses. -/
  place : Nat
  hops : Nat
  /-- Tick at which it next seeks a hop, and the cycle in which it would have crossed its first. -/
  due : Nat
  entry : Nat
  origin : Nat
  core : Nat
  ctx : Nat
  ord : Nat
  grp : W32
  slot : Nat
  /-- What happens two ticks after its last hop, in the phase given. -/
  phase : Nat
  act : Act
  deriving DecidableEq, Repr, Inhabited

/-- A save or a restore in progress (R34, R352). -/
structure Job where
  ctx : Nat
  restore : Bool
  /-- The wall cycle at which its accesses are made. -/
  due : Nat
  /-- An access waits for REPLAY (R330). -/
  parked : Bool := false
  deriving DecidableEq, Repr, Inhabited

/-- CCMD (R352): `err`, `op`, `ctx`; `busy` is 1 while a job is in progress. -/
structure Ccmd where
  err : Bool := false
  op : Nat := 0
  ctx : Nat := 0
  jobs : List Job := []
  deriving DecidableEq, Repr, Inhabited

/-- A core (R9, R19). -/
structure Core where
  ctxs : Vector Ctx 4 := Vector.replicate 4 {}
  /-- The running context of the selector (R258). -/
  sel : Nat := 0
  /-- Word in flight of each lane group, busy from issue to issue + 15. -/
  lane : Vector (Option InFlight) 8 := Vector.replicate 8 none
  cmds : List Cmd := []
  /-- Ticks from which the engines are free, by tm, cp, orr, dot, load, col. -/
  free : Vector Nat 6 := Vector.replicate 6 0
  /-- The scale/angle load slot is busy until this tick (R211). -/
  oslt : Word := 0x3210321032103210
  /-- Pending OSCFG writes: entry, context (R205). -/
  osltPending : List (Nat × Nat) := []
  aow : Vector AowRegion 8 := Vector.replicate 8 {}
  rbsel : Word := 0
  ccmd : Ccmd := {}
  frozenCopy : Bool := false
  /-- The context that the slot table names had an orrery command waiting at the start of the cycle (R259). -/
  orrHeld : Bool := false
  deriving DecidableEq, Repr, Inhabited

/-- What a save wrote of a context beyond the bytes whose layout the spec gives (log 8): the base of its area, the free values that mark its open bytes, the context, its commands, its flits, its landings in wall cycles with the cycles that remained, its engines' ticks, its core's accumulate-on-write regions. -/
structure Saved where
  base : Nat
  /-- The number of the first free value in its open bytes. -/
  seed : Nat
  /-- The core and context it was. -/
  place : Nat × Nat
  ctx : Ctx
  cmds : List Cmd
  flits : List Flit
  landings : List Ev
  free : Vector Nat 6
  aow : Vector AowRegion 8
  deriving DecidableEq, Repr, Inhabited

/-! ## The package -/

/-- Where a Camvel record came from (R222). A child record starts in the cycle in which its parent hands it on, so the queue of the source "parent" is always empty and holds no state (log 14). -/
inductive Source where
  | window (n : Nat)
  | context (core ctx : Nat)
  deriving DecidableEq, Repr, Inhabited

/-- A level that accepts records (R9, R128). -/
inductive LevelAt where
  | core (g : Nat)
  | pav (p : Nat)
  | die (d : Nat)
  | pkg
  deriving DecidableEq, Repr, Inhabited

/-- Progress of an accepted record (R222, R223). -/
inductive RecPhase where
  /-- In the acceptance queue. -/
  | queued
  /-- Started; waits for its blocks, tasks or writes. -/
  | running
  /-- Its effect is complete, or it has faulted or been discarded; it waits for its completion. -/
  | done
  deriving DecidableEq, Repr, Inhabited

/-- A level, a core or a lane group in the tree of a record: `depth` 0 to 4 as R308 codes it. -/
structure Spot where
  depth : Nat
  ctx : Nat := 0
  die : Nat := 0
  pav : Nat := 0
  core : Nat := 0
  lg : Nat := 0
  deriving DecidableEq, Repr, Inhabited

/-- A fault found in a record's tree: its place, master, class, code, address, information. -/
structure TreeFault where
  spot : Spot
  mst : Nat
  cls : Nat
  code : Nat
  addr : Word := 0
  info : Word := 0
  deriving DecidableEq, Repr, Inhabited

/-- Bytes that a record puts into an operand: operand (0 dst, 1 A, 2 B), row, first byte of the row, data. -/
structure Put where
  operand : Nat
  row : Nat
  off : Nat
  data : List Byte
  deriving DecidableEq, Repr, Inhabited

/-- What a block gives: bytes for memory, partial results by dst element, keys with their indices, flags by slot position, factors of renormalised rows by expansion tile. -/
structure LeafOut where
  puts : List Put := []
  partials : List Partial := []
  keys : List (Nat × Nat × Nat × Nat) := []
  codes : List Nat := []
  flags : List (Nat × Flags) := []
  factors : List (Nat × W32) := []
  /-- The accumulator entries of a matrix product, by row and column. -/
  entries : List (List Partial) := []
  deriving DecidableEq, Repr, Inhabited

/-- A block of a record for one core (R236). -/
structure Leaf where
  pav : Nat
  /-- The core that took it, and when that core is done. -/
  core : Option Nat := none
  due : Option Nat := none
  /-- The rows of A and B that its staging delivered. -/
  a : List (List Byte) := []
  b : List (List Byte) := []
  /-- What it gave, once its core is done. -/
  out : Option LeafOut := none
  /-- Its level has copied back what it gave, or will not. -/
  back : Bool := false
  /-- It is never delivered: a fault keeps it from its core (R309, R310). -/
  gone : Bool := false
  deriving DecidableEq, Repr, Inhabited

/-- A kernel image that a TMAP has read, its counts resolved (R14 to R18). -/
structure Kernel where
  timed : Bool
  levels : List Level
  bodyBudget : Nat
  code : List Byte
  data : List Byte
  vwin : Nat
  lbanks : Nat
  tcount : Nat
  tqueue : Nat
  opmem : Nat
  accmem : Nat
  params : List Word
  /-- The image's bytes, as a lodge stages them (R227). -/
  raw : List Byte := []
  deriving DecidableEq, Repr, Inhabited

/-- An accepted Camvel record (R222-R224, R310). -/
structure Rec where
  id : Nat
  source : Source
  level : LevelAt
  record : CamvelRecord
  /-- The context on whose behalf a core-level record runs. -/
  ctx : Nat := 0
  /-- The cycle of its acceptance, outside stall windows. -/
  accepted : Nat := 0
  phase : RecPhase := .queued
  discarded : Bool := false
  /-- The cycle, outside stall windows, at which its effect is complete, once known. -/
  due : Option Nat := none
  leaves : List Leaf := []
  /-- Faults found in its tree so far (R309). -/
  faults : List TreeFault := []
  /-- The dies whose lodge has staged its blocks, and the bytes of each by die and operand (R239). -/
  lodged : List Nat := []
  held : List (Nat × Nat × List Byte) := []
  /-- An access of its staging waits for REPLAY (R330). -/
  parked : Bool := false
  /-- The range of a TFLIPV is marked as flipping (R277). -/
  marked : Bool := false
  /-- The image of a TMAP, once read, and the spread it placed. -/
  image : Option Kernel := none
  spread : Option Nat := none
  /-- The record that its tree reports, if it faulted (R309). -/
  fault : Option (Word × Word × Word × Word) := none
  deriving DecidableEq, Repr, Inhabited

/-- A task of a spread (R17). -/
structure Member where
  core : Nat
  ctx : Nat
  finished : Bool := false
  /-- Barriers at which it has arrived. -/
  arrived : Nat := 0
  digest : List Byte := []
  deriving DecidableEq, Repr, Inhabited

/-- A spread (R17). -/
structure Spread where
  id : Nat
  timed : Bool
  members : List Member
  /-- The record that launched it. -/
  record : Nat
  /-- Barriers released so far, and the cycle in which the next releases. -/
  released : Nat := 0
  releaseAt : Option Nat := none
  /-- The tick at which its first task stopped in the drain under way (R32). -/
  stopTick : Option Nat := none
  deriving DecidableEq, Repr, Inhabited

/-- An entry of a tile issue window (R254). -/
inductive WinEntry where
  | record (r : CamvelRecord)
  | gate (w : Word)
  deriving DecidableEq, Repr, Inhabited

/-- A tile issue window (R254, R269, R311). -/
structure TileWindow where
  entries : List WinEntry := []
  en : Bool := false
  prio : Nat := 0
  ovf : Bool := false
  h : Vector Word 4 := Vector.replicate 4 0
  cm : Word := 0
  cms : Word := 0
  cmDue : Option Nat := none
  tc : Vector W32 64 := Vector.replicate 64 0
  /-- Counters that a completion increments in the next cycle, and those incremented at the start of this one (R257). -/
  pend : List Nat := []
  landed : List Nat := []
  /-- Bytes of an entry that has arrived in part at the record port, and at the gate port. -/
  part : List Byte := []
  gpart : List Byte := []
  tfr : Vector Word 4 := Vector.replicate 4 0
  deriving DecidableEq, Repr, Inhabited

/-- A memory-side TLB entry: page, the leaf entry as loaded (R275). -/
structure TlbEntry where
  page : Nat
  large : Bool
  leaf : Word
  second : Word
  deriving DecidableEq, Repr, Inhabited

/-- An owner: a die's slice or the tier (R273-R277). -/
structure Owner where
  ptb : Word := 0
  tlb : List TlbEntry := []
  /-- TLBINV: page, npg, all, busy. -/
  inv : Word := 0
  invDue : Option Nat := none
  /-- The page range a TFLIPV is flipping. -/
  flipping : Option (Nat × Nat) := none
  /-- Owner key generation (R289). -/
  keyGen : Nat := 0
  deriving DecidableEq, Repr, Inhabited

/-- A lodge (R239, R278, R313). -/
structure Lodge where
  lstg : Word := 0
  patterns : Vector (Vector Word 4) 64 := Vector.replicate 64 (Vector.replicate 4 0)
  frozen : BitVec 2 := 0
  deriving DecidableEq, Repr, Inhabited

/-- An access parked at its owner by an unmapped translation (R330). -/
structure Parked where
  owner : Nat
  va : Word
  /-- Core, context and command that wait, or none for a level's staging. -/
  core : Nat
  ctx : Nat
  cmd : Nat
  unit : Nat
  record : Option Nat := none
  deriving DecidableEq, Repr, Inhabited

/-- The algorithms that Twidom negotiates (R286): signatures, hashes, key exchange, session messages. -/
inductive Algorithm where
  | mlDsa65 | shake256 | mlKem768 | aes256Gcm
  deriving DecidableEq, Repr, Inhabited

/-- An answer of Twidom's responder (R286): its code, what of its contents the spec gives, and a signature. -/
structure Response where
  code : Nat
  data : List Byte := []
  algorithms : List Algorithm := []
  signature : Option Word := none
  deriving DecidableEq, Repr, Inhabited

/-- How far the exchange with the requester of a channel has come: version, capabilities, algorithms, keys, session; and the last answer (R286). -/
structure Session where
  version : Bool := false
  capabilities : Bool := false
  algorithms : Bool := false
  keyed : Bool := false
  session : Bool := false
  response : Option Response := none
  deriving DecidableEq, Repr, Inhabited

/-- A seal under way (R290): the wall cycle in which it ends, and the image read, if it could be, with the digest it must have. -/
structure Sealing where
  due : Nat
  image : Option (List Byte)
  digest : List Byte
  deriving DecidableEq, Repr, Inhabited

/-- Boot, sealing and session state (R285-R290). -/
structure Security where
  /-- DEVST `err`, `phase`, `fail`, `ready`. -/
  err : BitVec 8 := 0
  phase : Nat := 0
  fail : Bool := false
  ready : Bool := false
  /-- SEALST. -/
  gen : W32 := 0
  sealState : Nat := 0
  /-- Measurement block 6; empty for 32 zero bytes. -/
  measured : List Byte := []
  /-- The resident program that runs on the belvedere's control cores; empty while none does. -/
  program : List Byte := []
  /-- Steps 4 to 6 of a seal are still to come (R290); the wall cycle in which an unseal ends. -/
  sealing : Option Sealing := none
  unsealing : Option Nat := none
  /-- The channel whose session sealed the device. -/
  sealer : Nat := 16
  /-- The exchanges on the span links' channels, and on the mailbox as the last. -/
  sessions : Vector Session 17 := Vector.replicate 17 {}
  /-- Span links with an agreed key (R281). -/
  linkKeys : BitVec 16 := 0
  /-- The selective IDE stream is active (R282). -/
  ide : Bool := false
  deriving DecidableEq, Repr, Inhabited

/-- How a read that came from outside completed: its link (16 the host link), and its data, or none with an error (R291, R312, R330). -/
structure Completion where
  link : Nat
  data : Option (List Byte)
  deriving DecidableEq, Repr, Inhabited

/-- Power and thermal state (R270, R355, R356). -/
structure Power where
  nstall : W32 := 0
  pwr : Nat := 0
  stall : Bool := false
  d : Nat := 1
  plim : Nat := 420
  dmax : Nat := 4
  trip : Bool := false
  alarm : Bool := false
  tout : Nat := 0
  tin : Nat := 0
  tj : Nat := 0
  /-- Cycles left of the open stall window; none: until the trip clears. -/
  left : Option Nat := none
  /-- A stall window that waits for drains to end, with its cycles; 0: until the trip clears (R31). -/
  pendingStall : Option Nat := none
  /-- The module has power (R356). -/
  powered : Bool := true
  /-- For how long a limit has been exceeded, and for how long both readings have been under the points of recovery, in half nanoseconds (R4, R356). -/
  hot : Nat := 0
  cool : Nat := 0
  deriving DecidableEq, Repr, Inhabited

/-- The package (R8, R9). -/
structure Pkg where
  owners : Vector Owner 5 := Vector.replicate 5 {}
  lodges : Vector Lodge 4 := Vector.replicate 4 {}
  astg : Vector Word 8 := Vector.replicate 8 0
  hwin : Vector Word 32 := Vector.replicate 32 0
  shw : Vector Word 16 := Vector.replicate 16 0
  prt : Vector Word 256 := Vector.replicate 256 0
  pwin : Vector Word 32 := Vector.replicate 32 0
  /-- FRZST of the hub: host link [16], span links [15:0]. -/
  frozenLinks : BitVec 17 := 0
  wins : Vector TileWindow 8 := Vector.replicate 8 {}
  recs : List Rec := []
  nextRec : Nat := 1
  spreads : List Spread := []
  nextSpread : Nat := 1
  /-- Package fault queue entries, 4 words each, head first; its overflow bit; the head index. -/
  pfq : List (Word × Word × Word × Word) := []
  pfqOvf : Bool := false
  pfqHead : Nat := 0
  /-- Entries appended in this cycle: they stand in ascending path order (R314). -/
  pfqNew : Nat := 0
  parked : List Parked := []
  /-- The source that each arbour served last, as its place in the turn (R256). -/
  turns : Vector (Option Nat) 8 := Vector.replicate 8 none
  /-- Pages and masters already reported unmapped since the last REPLAY (R330). -/
  reported : List (Nat × Nat × Nat) := []
  msix : BitVec 16 := 0
  sec : Security := {}
  pw : Power := {}
  serrUe : Nat := 0
  serrCe : Nat := 0
  /-- Levels whose controller met an uncorrectable error accept no records. -/
  deafLevels : List Nat := []
  /-- Levels whose controller has met an uncorrectable word of a page table in a walk of this cycle (R341). -/
  walked : List Nat := []
  /-- Levels whose controller state holds an uncorrectable word that no read has met yet (R341). -/
  struck : List Nat := []
  /-- RSTCTL `key` (R348). -/
  rstKey : W32 := 0
  /-- The last read or ATOM of a link that completed. -/
  completion : Option Completion := none
  images : List Saved := []
  deriving DecidableEq, Repr, Inhabited

/-! ## The machine -/

/-- Byte memory: (key, byte) pairs, keys strictly rising, no zero byte; an unlisted key reads 0 (log 1). -/
abbrev Memory := List Host.Cell

/-- A write of memory at the end of a cycle: bytes put, or elements that arrive in an accumulate-on-write region (R54, R56). -/
inductive Write where
  | put (key : Nat) (data : List Byte)
  /-- Region operation (AOWnA.`op`), key of the word, element code. -/
  | accumulate (op : Nat) (key : Nat) (elem : W32)
  deriving DecidableEq, Repr, Inhabited

/-- What became of the slot being executed. -/
inductive Verdict where
  | ran
  | held (varying : Bool)
  | faulted (f : FaultRec)
  deriving DecidableEq, Repr, Inhabited

/-- The slot being executed: core, context, slot position, lane groups that take the word, group address, fall-through. -/
structure Cursor where
  core : Nat := 0
  ctx : Nat := 0
  slot : Nat := 0
  lanes : List Nat := []
  grp : W32 := 0
  next : W32 := 0
  word : W32 := 0
  /-- Order of this issue among all issues and slots (R36). -/
  ord : Nat := 0
  verdict : Verdict := .ran
  /-- RGST and the addresses of the pointers as the cycle found them (R129, R153). -/
  rgst : Word := 0
  addrs : Vector (BitVec 28) 32 := Vector.replicate 32 0
  deriving DecidableEq, Repr, Inhabited

/-- Everything but memory. -/
structure Sys where
  mer : Nat := 0
  wcyc : Nat := 0
  /-- Cycles outside stall windows: the time of shared-mode latencies (R270). -/
  run : Nat := 0
  /-- Counter of free values and latencies taken; the model's own (log 3). -/
  taken : Nat := 0
  /-- Issue counter; the model's own (log 4). -/
  ord : Nat := 0
  cores : List (Nat × Core) := []
  pkg : Pkg := {}
  agenda : List Ev := []
  flits : List Flit := []
  /-- Rows of the table due in this cycle, before any core issues. -/
  events : List Instr := []
  /-- Cores whose turn to issue in this cycle is still to come. -/
  turn : List Nat := []
  /-- Outside events with the wall cycle in which they arrive. -/
  inbox : List (Nat × Instr) := []
  /-- The channels on which Twidom's messages arrive, in their order; past its end, the mailbox (R286). -/
  channels : List Channel := []
  /-- What the sensors read, with the wall cycle from which they do: `pwr` [15:0], `tj` [31:16], `tin` [39:32], `tout` [47:40] (R355). -/
  sensors : List (Nat × Word) := []
  /-- What the resident program on the control cores does, with the wall cycle of each of its writes (R284, R290). -/
  control : List (Nat × Instr) := []
  /-- Its writes of this cycle, and whether the write under way is one. -/
  programmed : List Instr := []
  byProgram : Bool := false
  /-- Requests of links that wait for an invalidation: link (16 the host link), offset, request; they are tried again in the next cycle (R276). -/
  retried : List (Nat × Nat × PeerRequest) := []
  cur : Cursor := {}
  /-- Stage of the cycle: 0 issue, 1 firings, 2 starts, 3 completions. -/
  stage : Nat := 0
  /-- The meridian does not advance at the end of this cycle (R26, R27). -/
  stalled : Bool := false
  /-- Flags set in this cycle, for the first-event record: core, context, slot, flags, group. -/
  raised : List (Nat × Nat × Nat × Flags × W32) := []
  /-- FLCLR clears of this cycle, applied at its end (R131): core, context, slots, fer. -/
  clears : List (Nat × Nat × BitVec 18 × Bool) := []
  /-- Vector registers that a rollback restores, written at the end of the cycle (R328). -/
  restore : List Write := []
  /-- Poisoned 64-bit words, by key / 8 (R341). -/
  poison : List Nat := []
  /-- The 64-byte units of HBM and the tier that are stored in plaintext, by key / 64 (R289). -/
  plainUnits : List Nat := []
  deriving DecidableEq, Repr, Inhabited

/-- The machine. -/
structure State where
  mem : Memory := []
  sys : Sys := {}
  deriving DecidableEq, Repr, Inhabited

/-- Why the machine stops with a fault. -/
inductive Fault where
  /-- Raised by an event that names a core, context, window or level the module does not have (R8, R9). Safe: the module has no such unit, so no such event arises. -/
  | absentUnit
  deriving DecidableEq, Repr, Inhabited

/-- Why the machine gives an instruction no meaning. -/
inductive Refusal where
  /-- Raised by an arm of `exec` that has no meaning yet. Safe: the machine stops. -/
  | notModelled (mnemonic : String)
  deriving DecidableEq, Repr, Inhabited

/-- The machine right after a cold reset (R348): every register at its reset value, every memory zero, boot phase 0. -/
def State.reset : State := { mem := [], sys := {} }

end Sys2Proof.Machine
end

