-- ==== Sys2Proof/Machine/Memory.lean ====
section
/-! DEFINITION. Byte memory in one canonical form, and the keys of the module's memories. -/

namespace Sys2Proof.Machine

/-! ## Keys: one key space per memory -/

/-- The first key of a memory. -/
def spaceBase (n : Nat) : Nat := n * 2 ^ 60

/-- Byte `off` of the HBM slice of die `k`, or of the tier for `k` = 8 (R271, R273). -/
def farKey (k off : Nat) : Nat := spaceBase k + off

/-- Byte `off` of core `g`'s scratchpad (R51). -/
def scratchKey (g off : Nat) : Nat := spaceBase 0x10 + g * 2 ^ 21 + off

/-- Byte `off` of core `g`'s angle memory (R49). -/
def angleKey (g off : Nat) : Nat := spaceBase 0x11 + g * 2 ^ 18 + off

/-- Byte `off` of core `g`'s scale memory (R49). -/
def scaleKey (g off : Nat) : Nat := spaceBase 0x12 + g * 2 ^ 15 + off

/-- Byte `off` of core `g`'s operand memory (R49). -/
def operandKey (g off : Nat) : Nat := spaceBase 0x13 + g * 2 ^ 17 + off

/-- Entry `n` of core `g`'s accumulator memory, 8 bytes (R50). -/
def accKey (g n : Nat) : Nat := spaceBase 0x14 + g * 2 ^ 17 + 8 * n

/-- The word of lane `lane`, beat `beat`, of physical register `reg` in lane group `lg` of core `g` (R39). -/
def vecKey (g lg reg beat lane : Nat) : Nat :=
  spaceBase 0x15 + g * 2 ^ 19 + lg * 2 ^ 16 + reg * 2 ^ 10 + beat * 64 + lane * 4

/-- Byte `off` of latch bank `bank` of core `g` (R80). -/
def latchKey (g bank off : Nat) : Nat := spaceBase 0x16 + g * 2 ^ 13 + bank * 2 ^ 11 + off

/-! ## Reading -/

/-- The byte at a key; an unlisted key reads 0 (log 1). -/
def Memory.get (m : Memory) (k : Nat) : Byte :=
  match m with
  | [] => 0
  | c :: rest => if c.1 = k then c.2 else Memory.get rest k

/-- `n` bytes from key `k` up, given the cells at or above `k`. -/
def Memory.take (n k : Nat) (cells : Memory) : List Byte :=
  match n with
  | 0 => []
  | j + 1 =>
    match cells with
    | [] => 0 :: Memory.take j (k + 1) []
    | c :: rest => if c.1 = k then c.2 :: Memory.take j (k + 1) rest else 0 :: Memory.take j (k + 1) (c :: rest)

/-- The `n` bytes from key `k` up. -/
def Memory.bytes (m : Memory) (k n : Nat) : List Byte := Memory.take n k (m.dropWhile (fun c => c.1 < k))

/-! ## Writing -/

/-- The cells of bytes that stand from key `k` up: a zero byte is not listed. -/
def Memory.cells (k : Nat) : List Byte → Memory
  | [] => []
  | b :: rest => if b = 0 then Memory.cells (k + 1) rest else (k, b) :: Memory.cells (k + 1) rest

/-- Bytes written from key `k` up; the form stays canonical. -/
def Memory.put (m : Memory) (k : Nat) (data : List Byte) : Memory :=
  m.takeWhile (fun c => c.1 < k) ++ Memory.cells k data ++ m.dropWhile (fun c => c.1 < k + data.length)

/-- Keys strictly rising, no zero byte. -/
def Memory.wfFrom (lo : Nat) : Memory → Bool
  | [] => true
  | c :: rest => decide (lo ≤ c.1) && c.2 != 0 && Memory.wfFrom (c.1 + 1) rest

/-- The canonical form. -/
def Memory.wf (m : Memory) : Bool := Memory.wfFrom 0 m

/-! ## Little-endian words -/

/-- The number of a little-endian byte list (R3). -/
def leNat : List Byte → Nat
  | [] => 0
  | b :: rest => b.toNat + 256 * leNat rest

/-- `n` little-endian bytes of a number (R3). -/
def leBytes (n : Nat) (v : Nat) : List Byte :=
  match n with
  | 0 => []
  | j + 1 => BitVec.ofNat 8 v :: leBytes j (v / 256)

/-- The 64-bit word at a key. -/
def Memory.word (m : Memory) (k : Nat) : Word := BitVec.ofNat 64 (leNat (m.bytes k 8))

/-- The 32-bit word at a key. -/
def Memory.word32 (m : Memory) (k : Nat) : W32 := BitVec.ofNat 32 (leNat (m.bytes k 4))

/-- `n` consecutive 32-bit words of a byte list. -/
def words32 (n : Nat) (bs : List Byte) : List W32 :=
  match n with
  | 0 => []
  | j + 1 => BitVec.ofNat 32 (leNat (bs.take 4)) :: words32 j (bs.drop 4)

/-- The bytes of 32-bit words. -/
def bytes32 (ws : List W32) : List Byte := ws.flatMap fun w => leBytes 4 w.toNat

/-- `n` consecutive 64-bit words of a byte list. -/
def words64 (n : Nat) (bs : List Byte) : List Word :=
  match n with
  | 0 => []
  | j + 1 => BitVec.ofNat 64 (leNat (bs.take 8)) :: words64 j (bs.drop 8)

/-- The bytes of 64-bit words. -/
def bytes64 (ws : List Word) : List Byte := ws.flatMap fun w => leBytes 8 w.toNat

/-- The 16 words of a beat of a vector register. -/
def Memory.beat (m : Memory) (g lg reg beat : Nat) : List W32 := words32 16 (m.bytes (vecKey g lg reg beat 0) 64)

/-! ## The writes of a cycle -/

/-- A subnormal F32 becomes the zero of its sign (R56). -/
def flushWord (v : W32) : W32 := if v &&& 0x7F800000 = 0 then v &&& 0x80000000 else v

/-- An element that arrives at a word of an accumulate-on-write region: the word's new value (R56). -/
def accumulateWord (op : Nat) (w v : W32) : W32 :=
  match op with
  | 0 | 1 =>
    if v = 0xFFC00001 then w
    else if w = 0xFFC00001 then flushWord v
    else BitVec.ofNat 32 (RedOp.step .add .f32 .rne false w.toNat v.toNat).1
  | 2 =>
    if v = 0x80000000 then w
    else if w = 0x80000000 then v
    else BitVec.ofNat 32 ((IntFmt.mk true 32).clamp ((IntFmt.mk true 32).value w.toNat + (IntFmt.mk true 32).value v.toNat)).1
  | _ => w ||| v

/-- One write. -/
def Memory.write (m : Memory) (w : Write) : Memory :=
  match w with
  | .put k data => m.put k data
  | .accumulate op k v => m.put k (leBytes 4 (accumulateWord op (m.word32 k) v).toNat)

/-- Writes in order. -/
def Memory.writeAll (m : Memory) (ws : List Write) : Memory := ws.foldl Memory.write m

end Sys2Proof.Machine
end

