-- ==== Sys2Proof/Machine/Ops.lean ====
section
/-! DEFINITION. The named operations over the state: reading and replacing a core or a context, scheduling a landing, holding, taking a fault, returning from one. -/

namespace Sys2Proof.Machine

/-! ## Vectors by number -/

/-- Entry `i`, or the type's default beyond the end. -/
def vget {α : Type} [Inhabited α] {n : Nat} (v : Vector α n) (i : Nat) : α := (v[i]?).getD default

/-- Entry `i` replaced; beyond the end nothing changes. -/
def vset {α : Type} {n : Nat} (v : Vector α n) (i : Nat) (x : α) : Vector α n := v.setIfInBounds i x

/-- Entry `i` changed by a function. -/
def vmod {α : Type} [Inhabited α] {n : Nat} (v : Vector α n) (i : Nat) (f : α → α) : Vector α n := vset v i (f (vget v i))

/-! ## Fields -/

/-- The `n` bits of a word at `lo`, as a number. -/
def fld (w : Word) (lo n : Nat) : Nat := w.toNat / 2 ^ lo % 2 ^ n

/-- Bit `i` of a word. -/
def bit (w : Word) (i : Nat) : Bool := w.toNat / 2 ^ i % 2 == 1

/-! ## Cores and contexts -/

/-- Core `g`; one that nothing has touched is as after reset. -/
def lookupCore (g : Nat) : List (Nat × Core) → Core
  | [] => {}
  | p :: rest => if p.1 = g then p.2 else lookupCore g rest

/-- Core `g` replaced, the list in ascending core number. -/
def insertCore (g : Nat) (c : Core) : List (Nat × Core) → List (Nat × Core)
  | [] => [(g, c)]
  | p :: rest =>
    if p.1 < g then p :: insertCore g c rest
    else if p.1 = g then (g, c) :: rest
    else (g, c) :: p :: rest

def Sys.core (s : Sys) (g : Nat) : Core := lookupCore g s.cores

def Sys.setCore (s : Sys) (g : Nat) (c : Core) : Sys := { s with cores := insertCore g c s.cores }

def Sys.modCore (s : Sys) (g : Nat) (f : Core → Core) : Sys := s.setCore g (f (s.core g))

def Core.ctx (c : Core) (x : Nat) : Ctx := vget c.ctxs x

def Core.setCtx (c : Core) (x : Nat) (k : Ctx) : Core := { c with ctxs := vset c.ctxs x k }

def Sys.ctx (s : Sys) (g x : Nat) : Ctx := (s.core g).ctx x

def Sys.setCtx (s : Sys) (g x : Nat) (k : Ctx) : Sys := s.setCore g ((s.core g).setCtx x k)

def Sys.modCtx (s : Sys) (g x : Nat) (f : Ctx → Ctx) : Sys := s.setCtx g x (f (s.ctx g x))

def Sys.modRegs (s : Sys) (g x : Nat) (f : Regs → Regs) : Sys := s.modCtx g x fun k => { k with regs := f k.regs }

/-- The context of the slot being executed. -/
def Sys.here (s : Sys) : Ctx := s.ctx s.cur.core s.cur.ctx

/-- The core of the slot being executed. -/
def Sys.hereCore (s : Sys) : Core := s.core s.cur.core

def Sys.modHere (s : Sys) (f : Ctx → Ctx) : Sys := s.modCtx s.cur.core s.cur.ctx f

def Sys.modHereRegs (s : Sys) (f : Regs → Regs) : Sys := s.modRegs s.cur.core s.cur.ctx f

def Sys.modHereCore (s : Sys) (f : Core → Core) : Sys := s.modCore s.cur.core f

/-- The tick of a context: the meridian in timed mode, cycles outside stall windows in shared mode (R26, R270). -/
def Sys.tick (s : Sys) (timed : Bool) : Nat := if timed then s.mer else s.run

def Sys.now (s : Sys) (g x : Nat) : Nat := s.tick (s.ctx g x).timed

/-- The tick of the slot being executed. -/
def Sys.t (s : Sys) : Nat := s.now s.cur.core s.cur.ctx

/-- Task tick of a context: MER − TSTM (R27). -/
def Sys.ttick (s : Sys) (k : Ctx) : Word := BitVec.ofNat 64 s.mer - k.tstm

/-! ## Scheduling -/

/-- Something becomes due. -/
def Sys.post (s : Sys) (g x due phase ord : Nat) (a : Act) : Sys := { s with agenda := s.agenda ++ [⟨g, x, due, phase, ord, a⟩] }

/-- A result of the slot being executed lands at issue + `n` (R36). -/
def Sys.land (s : Sys) (n : Nat) (a : Act) : Sys := s.post s.cur.core s.cur.ctx (s.t + n) 0 s.cur.ord a

/-- An access of the slot being executed reads (phase 1) or writes (phase 2) at issue + `n`. -/
def Sys.perform (s : Sys) (n phase : Nat) (a : Act) : Sys := s.post s.cur.core s.cur.ctx (s.t + n) phase s.cur.ord a

/-- A free value of the model: the next that the spec leaves open (log 3). -/
def Sys.freeValue (s : Sys) : Word × Sys := (Config.freeValue s.taken, { s with taken := s.taken + 1 })

/-- An off-core time, at least one cycle (log 3). -/
def Sys.latency (s : Sys) : Nat × Sys := (1 + Config.latency s.taken, { s with taken := s.taken + 1 })

/-! ## Where a core stands -/

/-- Pavilion of a core, its number there, its die (R9, R240). -/
def pavOf (g : Nat) : Nat := g / 128
def corePart (g : Nat) : Nat := g % 128
def dieOf (g : Nat) : Nat := g / 256

/-- The core that a pavilion-local address names, seen from core `g` (R51). -/
def localOwner (g addr : Nat) : Nat := 128 * pavOf g + addr / 2 ^ 21 % 128

/-- The offset of a pavilion-local address (R51). -/
def localOff (addr : Nat) : Nat := addr % 2 ^ 21

/-- The address lies in core `g`'s own scratchpad. -/
def ownScratch (g addr : Nat) : Bool := addr / 2 ^ 21 % 128 == corePart g

/-- Hops from core `c` to core `o` of one pavilion on a lane (R53). -/
def hops (c o lane : Nat) : Nat := if lane < 8 then (o + 128 - c) % 128 else (c + 128 - o) % 128

/-! ## Interlocked levels and rounding -/

/-- The innermost valid temporal entry (R21). -/
def innermost (v : Vector LoopEntry 6) (k : Nat) : Option Nat :=
  match k with
  | 0 => none
  | j + 1 => if (vget v j).valid && (vget v j).kind == .temporal then some j else innermost v j

def Ctx.inner (k : Ctx) : Option Nat := innermost k.regs.loops 6

/-- The innermost active level is marked interlocked: subnormals are honoured (R23, R69). -/
def Ctx.interlocked (k : Ctx) : Bool :=
  match k.inner with
  | some j => (vget k.regs.loops j).interlocked
  | none => false

/-! ## Fault records and delivery -/

/-- A fault of the slot being executed. -/
def Sys.faultHere (s : Sys) (cls code : Nat) (far : Word := 0) : FaultRec :=
  { cls := cls, code := code, slot := s.cur.slot, far := far, grp := s.cur.grp }

/-- One of two faults comes before the other: class, then slot, then code (R302). -/
def FaultRec.before (a b : FaultRec) : Bool :=
  decide (a.cls < b.cls) ||
    (a.cls == b.cls && (decide (a.slot < b.slot) || (a.slot == b.slot && decide (a.code < b.code))))

/-- The fault to report among several (R302). -/
def firstFault : List FaultRec → Option FaultRec
  | [] => none
  | f :: rest =>
    match firstFault rest with
    | none => some f
    | some g => if g.before f then some g else some f

/-- The fault to report of one slot: `more` when the slot breaks a rule of another class or code too (R302). -/
def slotFault (fs : List FaultRec) : Option FaultRec :=
  (firstFault fs).map fun f => { f with more := f.more || fs.any fun e => e.cls != f.cls || e.code != f.code }

/-- The class and code of a fault as ECAUSE holds them. -/
def Ctx.setCause (k : Ctx) (cls code : Nat) : Ctx := { k with causeClass := BitVec.ofNat 8 cls, causeCode := BitVec.ofNat 16 code }

/-- FGA as a register (R302). -/
def Fga.word (f : Fga) : Word :=
  BitVec.ofNat 64 ((if f.pend then 2 ^ 63 else 0) + (if f.more then 2 ^ 62 else 0) + f.slot % 32 * 2 ^ 32 + f.grp.toNat)

/-- Word 0 of a fault record (R308). -/
def faultWord0 (more : Bool) (cls code seq topc : Nat) : Word :=
  BitVec.ofNat 64 (2 ^ 63 + (if more then 2 ^ 62 else 0) + cls % 256 * 2 ^ 48 + code % 65536 * 2 ^ 32 + seq % 65536 * 2 ^ 16 + topc % 256 * 2 ^ 8)

/-- Word 1 of a fault record for a master at a context of a core (R308). -/
def faultPathCore (mst g x : Nat) : Word :=
  BitVec.ofNat 64 (mst * 2 ^ 27 + 3 * 2 ^ 24 + x % 4 * 2 ^ 22 + dieOf g % 4 * 2 ^ 20 + pavOf g % 8 * 2 ^ 17 + corePart g * 2 ^ 10)

/-- Word 1 of the record of a context's fault: one that arose in a lane group has depth 4 and the lane group's number (R9, R308; a precise fault of a lane-group slot is found by the sequencer, at depth 3: DEDUCED, log 43). -/
def FaultRec.path (f : FaultRec) (g x : Nat) : Word :=
  match f.lg with
  | none => faultPathCore 0 g x
  | some l => faultPathCore 0 g x + BitVec.ofNat 64 (2 ^ 24 + l % 8 * 2 ^ 7)

/-- Its place in the order of paths, from word 1 of its record: a field that `depth` does not cover comes first (R309). -/
def pathKey (w : Word) : Nat :=
  let part (d lo n : Nat) : Nat := if d ≤ fld w 24 3 then fld w lo n + 1 else 0
  part 1 20 2 * 2 ^ 24 + part 2 17 3 * 2 ^ 16 + part 3 10 7 * 2 ^ 8 + part 4 7 3

/-- An entry takes its place among those of its cycle, after those of its own path. -/
def insertPath (e : Word × Word × Word × Word) : List (Word × Word × Word × Word) → List (Word × Word × Word × Word)
  | [] => [e]
  | x :: rest => if pathKey e.2.1 < pathKey x.2.1 then e :: x :: rest else x :: insertPath e rest

/-- An entry appended to the package fault queue, those of one cycle in ascending path order; a full queue drops what comes beyond it. Each append raises MSI-X vector 8 (R314). -/
def Pkg.pfqAppend (p : Pkg) (e : Word × Word × Word × Word) : Pkg :=
  let old := p.pfq.length - p.pfqNew
  let l := p.pfq.take old ++ insertPath e (p.pfq.drop old)
  { p with pfq := l.take 64, pfqNew := (l.take 64).length - old, pfqOvf := p.pfqOvf || decide (64 < l.length), msix := if p.pfq.length < 64 then p.msix ||| 0x100 else p.msix }

def Sys.pfqAppend (s : Sys) (e : Word × Word × Word × Word) : Sys := { s with pkg := s.pkg.pfqAppend e }

/-- The registers of a checkpoint, the elapsed counts as they stand (R328). -/
def Ctx.restoreRegs (k : Ctx) (r : Regs) : Regs :=
  { r with loops := Vector.ofFn fun i : Fin 6 => { vget r.loops i with elapsed := (vget k.regs.loops i).elapsed } }

/-! ## Restart regions undone -/

/-- A copy whose timing R199 fixes: every memory end named by a pavilion-local address of the copy's own pavilion. -/
def Cmd.fixedCopy (m : Cmd) : Bool :=
  let y4 := m.stg.getD 4 0
  let sloc := bit y4 7
  let dloc := bit y4 8
  match m.instr with
  | .cpyf .. => dloc
  | .cpyr .. => sloc
  | .cpyst .. => dloc
  | .cpyg .. => false
  | _ => sloc && dloc

/-- The command's timing varies with the world outside (R120, R195, R199). -/
def Cmd.varies (m : Cmd) : Bool :=
  match m.eng with
  | .tm => true
  | .cp => !m.fixedCopy
  | _ => false

/-- A result of an issued instruction, as against a store under way or the work of an engine. -/
def Act.isResult : Act → Bool
  | .scalar .. | .staging .. | .ptrAddr .. | .ptrStep .. | .ptrWrap .. | .port .. | .wrst .. | .xaClear .. | .beat .. | .pred .. | .cn ..
  | .flags .. | .load .. | .ctiRead .. | .tcSet .. | .tcAdd .. | .tcrw .. | .arm .. | .flagRead .. => true
  | _ => false

/-- The action reads a CTI's record, which a WAITC of its own context may await: it reads in the first cycle of its tick, whether the tick ends with it or not (R120, R128). -/
def Act.isCtiRead : Act → Bool
  | .ctiRead .. => true
  | _ => false

/-- The action takes effect though its context has halted: a store or a read under way, or a change that the area holds where it takes effect and that no group before the first resumed one can see (R31, R34). -/
def Act.goesOn : Act → Bool
  | .store .. | .load .. | .ctiRead .. | .flagRead .. | .staging .. | .ptrAddr .. | .ptrStep .. | .ptrWrap .. | .port .. | .wrst .. | .xaClear ..
  | .tcSet .. | .tcAdd .. | .tcrw .. | .arm .. | .aow .. | .readyClear .. | .queueFree .. => true
  | _ => false

/-- A row of a tile that an engine puts. -/
def Act.isRow : Act → Bool
  | .row .. => true
  | _ => false

/-- The results and the commands that a context issued from an order on are cancelled: its off-core accesses, and the copies whose rows or counts would reach the restored state (R330). -/
def Sys.cancel (s : Sys) (g x since : Nat) : Sys :=
  let dead (core ctx ord : Nat) (a : Act) : Bool := core == g && ctx == x && decide (since ≤ ord) && (a.isResult || a.isRow)
  let s := { s with agenda := s.agenda.filter fun e => !dead e.core e.ctx e.ord e.act, flits := s.flits.filter fun f => !dead f.core f.ctx f.ord f.act }
  let s := s.modCore g fun c => { c with
    lane := c.lane.map fun w => match w with
      | some w => if w.ctx == x && decide (since ≤ w.ord) then none else some w
      | none => none
    cmds := c.cmds.filter fun m => !(m.ctx == x && decide (since ≤ m.id)) }
  s.modCtx g x fun k => { k with probe := k.probe.map fun p => match p with
    | some o => if since ≤ o then none else some o
    | none => none }

/-- An open restart region is undone: its gated writes are discarded, and so are the records it has still to read; in shared mode its results are cancelled, the checkpoint and the shadowed registers are restored, no flag of the cycle stays, and the pc is `mark` (R306, R327, R330, R333). -/
def Sys.dropRegion (s : Sys) (g x : Nat) : Sys :=
  let k := s.ctx g x
  if k.region.open_ then
    match k.region.checkpoint with
    | some r =>
      let s := s.cancel g x k.region.since
      let s := { s with raised := s.raised.filter fun q => !(q.1 == g && q.2.1 == x), clears := s.clears.filter fun q => !(q.1 == g && q.2.1 == x) }
      let s := s.modCtx g x fun k =>
        let bar := k.barWait && !k.barArrived && decide (k.region.since ≤ k.barOrd)
        { k with
        fences := k.fences.filter fun f => decide (f.id < k.region.since), barWait := k.barWait && !bar, bars := if bar then k.bars - 1 else k.bars
        region := {}, regs := k.restoreRegs r, pc := k.region.mark }
      { s with restore := s.restore ++ (k.region.shadows.filter fun sh => !sh.2.2.isEmpty).map fun sh => .put (vecKey g sh.1 sh.2.1 0 0) sh.2.2 }
    | none =>
      let s := s.modCore g fun c => { c with cmds := c.cmds.filter fun m => !(m.ctx == x && m.gated) }
      let s := { s with agenda := s.agenda.filter fun e => !(e.core == g && e.ctx == x && decide (k.region.since ≤ e.ord) && e.act.isCtiRead) }
      s.modCtx g x fun k => { k with region := {} }
  else s

/-- The context stops in state 6 with its fault recorded (R303). -/
def Ctx.toSupervisor (k : Ctx) (f : FaultRec) (more : Bool) (t : Nat) : Ctx :=
  { k.setCause f.cls f.code with far := f.far, fga := ⟨!k.deferred.isEmpty, more, f.slot, f.grp⟩, state := .faulted, preq := false, held := false, stalling := false, haltTick := t, mid := true }

/-- The context enters its handler: EPC takes `ret`, the pc goes to TVEC.`addr` (R303, R135). The handler's first group issues at +2, as a taken transfer (R121). -/
def Ctx.toHandler (k : Ctx) (f : FaultRec) (more : Bool) (ret : W32) (t : Nat) : Ctx :=
  { k.setCause f.cls f.code with
    far := f.far, fga := ⟨!k.deferred.isEmpty, more, f.slot, f.grp⟩, epcInh := true, epcRet := ret, pc := k.tvecAddr, readyAt := t + 2,
    state := if k.state = .waiting then .running else k.state, held := false, stalling := false }

/-- A fault of class 1 to 3 goes to the handler when TVEC.`en` is 1 and EPC.`inh` is 0 (R303). -/
def Ctx.handles (k : Ctx) (f : FaultRec) : Bool := decide (f.cls ≤ 3) && k.tvecEn && !k.epcInh

/-- Members of a spread. -/
def Sys.spreadOf (s : Sys) (id : Nat) : Option Spread := s.pkg.spreads.find? (·.id == id)

/-- A pre-emption request reaches a context: it drains to its next iteration boundary (R31). -/
def Ctx.request (k : Ctx) : Ctx :=
  match k.state with
  | .running | .ready => if k.ended then k else { k with state := .draining, preq := true }
  | .waiting => if k.ended then k else { k with preq := true }
  | _ => k

/-- A row becomes due in this cycle. -/
def Sys.happens (s : Sys) (i : Instr) : Sys := { s with events := s.events ++ [i] }

/-- A request to a context that has issued a boundary bundle in this very cycle: it halts after that bundle (R31). -/
def Sys.requestNow (s : Sys) (g x : Nat) : Sys :=
  let s := s.modCtx g x Ctx.request
  let k := s.ctx g x
  if k.state == .draining && k.boundary then s.happens (.drainHalt g (Fin.ofNat 4 x)) else s

/-- The other unfinished tasks of a timed spread drain when one of them goes to the supervisor (R304). -/
def Sys.stopSpread (s : Sys) (g x : Nat) : Sys :=
  if (s.ctx g x).timed then
    match s.spreadOf (s.ctx g x).task.spread with
    | none => s
    | some sp => sp.members.foldl (fun s m => if m.finished || (m.core == g && m.ctx == x) then s else s.requestNow m.core m.ctx) s
  else s

/-- Taking a fault (R303): to the handler, or to the supervisor with an entry of the package fault queue. `ret` is where the handler returns. -/
def Sys.takeFault (s : Sys) (g x : Nat) (f : FaultRec) (more : Bool) (ret : W32) : Sys :=
  let k := s.ctx g x
  if k.handles f then s.setCtx g x (k.toHandler f more ret (s.tick k.timed))
  else
    let s := (s.dropRegion g x).modCtx g x fun k => k.toSupervisor f more (s.now g x)
    let s := s.pfqAppend (faultWord0 more f.cls f.code 0 0, f.path g x, f.far, (s.ctx g x).fga.word)
    s.stopSpread g x

/-- The return from a handler: pc ← EPC.`ret`, EPC.`inh` ← 0; a taken transfer (R136, R121). -/
def Ctx.returnFromHandler (k : Ctx) (t : Nat) : Ctx := { k with pc := k.epcRet, epcInh := false, readyAt := t + 2 }

/-- A deferred fault joins those that wait; of several detected in one cycle the first in order stays (R302). -/
def addDeferred (waiting : List FaultRec) (f : FaultRec) : List FaultRec :=
  match waiting with
  | [] => [f]
  | [a] => if a.seen = f.seen then [{ (if f.before a then f else a) with more := true }] else [a, f]
  | a :: rest => a :: addDeferred rest f

/-- A deferred fault is detected: it waits for the next group that would issue (R302). -/
def Sys.deferFault (s : Sys) (g x : Nat) (f : FaultRec) : Sys :=
  s.modCtx g x fun k => { k with deferred := addDeferred k.deferred { f with seen := s.wcyc }, fga := { k.fga with pend := true } }

/-! ## Running a slot -/

/-- The slot ran. -/
def Sys.ran (s : Sys) : Sys := { s with cur := { s.cur with verdict := .ran } }

/-- The slot's group holds; its context waits (R118). -/
def Sys.hold (s : Sys) (varying : Bool) : Sys :=
  let s := s.modHere fun k => { k with state := .waiting, held := true, stalling := varying && k.timed }
  { s with cur := { s.cur with verdict := .held varying } }

/-- The slot faults: its group does not issue, and the fault is taken (R119, R302). -/
def Sys.faulted (s : Sys) (f : FaultRec) : Sys :=
  let s := s.takeFault s.cur.core s.cur.ctx f f.more s.cur.grp
  { s with cur := { s.cur with verdict := .faulted f } }

/-- An instruction of a slot: it holds its group (`hold`: is the wait of varying timing), or breaks limits (`checks`), or has its effect (R118, R119). -/
def State.issue (s : State) (hold : Option Bool) (checks : List FaultRec) (effect : Sys → Sys) : Host.Outcome State Fault Refusal :=
  match hold with
  | some v => .next { s with sys := s.sys.hold v }
  | none =>
    match slotFault checks with
    | some f => .next { s with sys := s.sys.faulted f }
    | none => .next { s with sys := (effect s.sys).ran }

/-- Words wholly replaced by writes are poisoned no longer (R341). -/
def Sys.mend (s : Sys) (ws : List Write) : Sys :=
  match ws with
  | [] => s
  | _ => { s with poison := s.poison.filter fun w => !ws.any fun x =>
      match x with
      | .put k d => decide (k ≤ 8 * w) && decide (8 * w + 8 ≤ k + d.length)
      | .accumulate .. => false }

/-- An event of the module: it changes the state and may write memory. -/
def State.event (s : State) (effect : Sys → Sys × List Write) : Host.Outcome State Fault Refusal :=
  .next { mem := s.mem.writeAll (effect s.sys).2, sys := (effect s.sys).1.mend (effect s.sys).2 }

/-- An event that names a unit the module lacks stops the machine. -/
def State.eventOn (s : State) (present : Bool) (effect : Sys → Sys × List Write) : Host.Outcome State Fault Refusal :=
  if present then s.event effect else .fault .absentUnit

/-- A limit: a fault unless it is met. -/
def Sys.limit (s : Sys) (ok : Bool) (cls code : Nat) (far : Word := 0) : List FaultRec :=
  if ok then [] else [s.faultHere cls code far]

/-- An operand within its limit (class 3, code 1). -/
def Sys.range (s : Sys) (ok : Bool) (far : Word := 0) : List FaultRec := s.limit ok 3 1 far

/-- Two holds together. -/
def orHold (a b : Option Bool) : Option Bool :=
  match a, b with
  | some x, some y => some (x || y)
  | some x, none => some x
  | none, h => h

/-- A hold of timing fixed by the schedule, while a condition is false. -/
def holdUnless (ok : Bool) : Option Bool := if ok then none else some false

end Sys2Proof.Machine
end

