-- ==== Sys2Proof/Machine/Operands.lean ====
section
/-! DEFINITION. The operand forms: scalar registers with rotation (R24, R25, R37), pointers (R43, R44), stream ports (R45-R47), state registers by number (R129), and the interlock of R23. -/

namespace Sys2Proof.Machine

/-! ## Rotation -/

/-- Name `n` of a file of `total` registers whose top `size` rotate by `base` (R24). -/
def rotate (total size base n : Nat) : Nat :=
  if size ≠ 0 ∧ total - size ≤ n then total - size + (n - (total - size) + base) % size else n

def Rotb.physA (r : Rotb) (n : Nat) : Nat := rotate 32 r.asize r.abase n
def Rotb.physB (r : Rotb) (n : Nat) : Nat := rotate 32 r.bsize r.bbase n
def Rotb.physV (r : Rotb) (vwin n : Nat) : Nat := rotate vwin r.vsize r.vbase n

/-- "Rotate ROTB": each offset with a size goes down by one, cyclically (R24). -/
def Rotb.step (r : Rotb) : Rotb :=
  let dec (size base : Nat) : Nat := if size = 0 then base else (base + size - 1) % size
  { r with vbase := dec r.vsize r.vbase, bbase := dec r.bsize r.bbase, abase := dec r.asize r.abase }

def Rotb.word (r : Rotb) : Word :=
  BitVec.ofNat 64 (r.vsize * 2 ^ 26 + r.vbase * 2 ^ 20 + r.bsize * 2 ^ 15 + r.bbase * 2 ^ 10 + r.asize * 2 ^ 5 + r.abase)

def Rotb.ofWord (w : Word) : Rotb :=
  { vsize := fld w 26 6, vbase := fld w 20 6, bsize := fld w 15 5, bbase := fld w 10 5, asize := fld w 5 5, abase := fld w 0 5 }

/-- The ranges of R24; an offset is below its size, or 0. -/
def Rotb.ok (r : Rotb) (vwin : Nat) : Bool :=
  let below (size base : Nat) : Bool := if size = 0 then base == 0 else decide (base < size)
  decide (r.vsize ≤ 32) && decide (r.vsize ≤ vwin) && below r.vsize r.vbase &&
  decide (r.bsize ≤ 16) && below r.bsize r.bbase && decide (r.asize ≤ 16) && below r.asize r.abase

/-! ## Scalar registers -/

/-- The slot's own file: slot B is position 2; every other slot reads the A file (R37). -/
def Sys.fileB (s : Sys) : Bool := s.cur.slot == 2

/-- The physical register of a name in a file (R25). -/
def Ctx.phys (k : Ctx) (fileB : Bool) (n : Nat) : Nat := if fileB then k.regs.rotb.physB n else k.regs.rotb.physA n

/-- A physical scalar register. -/
def Regs.scalar (r : Regs) (fileB : Bool) (n : Nat) : Word := if fileB then vget r.b n else vget r.a n

/-- A scalar register by name. -/
def Ctx.reg (k : Ctx) (fileB : Bool) (n : Nat) : Word := k.regs.scalar fileB (k.phys fileB n)

/-- A register of the slot's own file, by name. -/
def Sys.own (s : Sys) (n : BitVec 5) : Word := s.here.reg s.fileB n.toNat

/-- A register of the A file, by name: control and address slots (R37). -/
def Sys.regA (s : Sys) (n : BitVec 5) : Word := s.here.reg false n.toNat

/-- Bits of a physical scalar register replaced. -/
def Regs.setScalar (r : Regs) (fileB : Bool) (n : Nat) (mask v : Word) : Regs :=
  let x := (r.scalar fileB n &&& ~~~mask) ||| (v &&& mask)
  if fileB then { r with b := vset r.b n x } else { r with a := vset r.a n x }

/-- All 64 bits. -/
def allOnes : Word := BitVec.allOnes 64

/-- A result for a register of the slot's own file lands at issue + `n` (R25, R36). -/
def Sys.landReg (s : Sys) (n : Nat) (d : BitVec 5) (v : Word) : Sys :=
  s.land n (.scalar s.fileB (s.here.phys s.fileB d.toNat) allOnes v)

/-- A result for a register of the A file. -/
def Sys.landA (s : Sys) (n : Nat) (d : BitVec 5) (v : Word) : Sys :=
  s.land n (.scalar false (s.here.phys false d.toNat) allOnes v)

/-! ## The interlock of interlocked levels (R23) -/

/-- A landing still to come writes the scalar register. -/
def Act.writesScalar (fileB : Bool) (r : Nat) : Act → Bool
  | .scalar f q _ _ => f == fileB && q == r
  | .load _ _ f q _ _ => f == fileB && q == r
  | .flagRead _ _ q => !fileB && q == r
  | _ => false

/-- The order is that of an earlier group of the context than the one being executed. -/
def Sys.earlier (s : Sys) (core ctx ord : Nat) : Bool := core == s.cur.core && ctx == s.cur.ctx && ord / 32 != s.cur.ord / 32

/-- A result of an earlier group for the scalar register has not landed. -/
def Sys.pendingScalar (s : Sys) (fileB : Bool) (r : Nat) : Bool :=
  (s.agenda.any fun e => s.earlier e.core e.ctx e.ord && e.act.writesScalar fileB r) ||
  (s.flits.any fun f => s.earlier f.core f.ctx f.ord && f.act.writesScalar fileB r)

/-- Inside an interlocked level, a group that reads an unlanded register holds (R23). -/
def Sys.interlock (s : Sys) (fileB : Bool) (names : List (BitVec 5)) : Option Bool :=
  if s.here.interlocked then
    holdUnless (!names.any fun n => s.pendingScalar fileB (s.here.phys fileB n.toNat))
  else none

/-! ## Pointers -/

/-- Bytes (entries for CP) of the memory a pointer code names, as the context's window gives it (R43, R44, R106). -/
def Ctx.pointerSpan (k : Ctx) (code : Nat) : Nat :=
  if code < 16 then 2 ^ 28
  else if code < 20 then 2 ^ 18
  else if code < 24 then 2 ^ 15
  else if code < 28 then k.win.opmem
  else k.win.accmem

def Ctx.pointer (k : Ctx) (code : Nat) : Pointer := vget k.regs.ptr code

/-- The address after `n` advances (R44, R154). -/
def Pointer.advance (p : Pointer) (span n : Nat) : BitVec 28 :=
  let step : Int := p.step.toInt * n
  if p.wrap = 0 then BitVec.ofInt 28 (((p.addr.toNat : Int) + step) % (span : Int))
  else BitVec.ofInt 28 ((p.wbase.toNat : Int) + (((p.addr.toNat : Int) - p.wbase.toNat + step) % (p.wrap.toNat : Int)))

/-- A use with advance needs the address inside the wrap window, and a P window inside one core (R44, R153). -/
def Pointer.usable (p : Pointer) (code : Nat) : Bool :=
  p.wrap == 0 ||
    (decide (p.wbase.toNat ≤ p.addr.toNat) && decide (p.addr.toNat < p.wbase.toNat + p.wrap.toNat) &&
      (decide (16 ≤ code) || p.wbase.toNat / 2 ^ 21 == (p.wbase.toNat + p.wrap.toNat - 1) / 2 ^ 21))

/-- The pointer advances `n` times, visible at once to later slots of the cycle (R44). -/
def Sys.advance (s : Sys) (code n : Nat) : Sys :=
  s.modHereRegs fun r => { r with ptr := vmod r.ptr code fun p => { p with addr := p.advance (s.here.pointerSpan code) n } }

/-- Limits of an address written to a pointer (R43, R153). -/
def Ctx.addrOk (k : Ctx) (code addr : Nat) : Bool := decide (code < 16) || decide (addr < k.pointerSpan code)

/-- Limits of a wrap window written to a pointer (R43, R153). -/
def Ctx.wrapOk (k : Ctx) (code wbase wrap : Nat) : Bool :=
  decide (wrap ≤ 2 ^ 21) &&
    (decide (code < 16) || (decide (wbase < k.pointerSpan code) && decide (wbase + wrap ≤ k.pointerSpan code)))

/-! ## Stream ports -/

def Port.count0 (p : Port) : Nat := fld p.a 32 16
def Port.count1 (p : Port) : Nat := fld p.a 48 16
def Port.count2 (p : Port) : Nat := fld p.b 48 16
def Port.base (p : Port) : Nat := fld p.a 0 21
/-- A signed 24-bit stride. -/
def stride (n : Nat) : Int := (BitVec.ofNat 24 n).toInt
def Port.stride0 (p : Port) : Int := stride (fld p.b 0 24)
def Port.stride1 (p : Port) : Int := stride (fld p.b 24 24)
def Port.stride2 (p : Port) : Int := stride (fld p.c 0 24)
def Port.length (p : Port) : Nat := p.count0 * p.count1 * p.count2

/-- A port is configured when its three counts are non-zero (R45). -/
def Port.configured (p : Port) : Bool := p.count0 != 0 && p.count1 != 0 && p.count2 != 0

/-- The address of walk position `q` (R46). -/
def Port.walk (p : Port) (q : Nat) : Int :=
  (p.base : Int) + (q % p.count0 : Nat) * p.stride0 + (q / p.count0 % p.count1 : Nat) * p.stride1 +
    (q / (p.count0 * p.count1) : Nat) * p.stride2

/-- The sixteen addresses of a pop (R46). -/
def Port.popAddrs (p : Port) : List Int := (List.range 16).map fun j => p.walk ((p.pos + j) % p.length)

/-- Every address of the pop lies in 0 to 2 MiB − 64 (R46). -/
def Port.popOk (p : Port) : Bool :=
  p.configured && p.popAddrs.all fun a => decide (0 ≤ a) && decide (a ≤ 2 ^ 21 - 64)

/-- A pop of port `n` (R46). -/
def Sys.pop (s : Sys) (n : Nat) : Sys :=
  s.modHereRegs fun r => { r with port := vmod r.port n fun p => { p with pos := (p.pos + 16) % p.length } }

/-- SnA, SnB, SnC with their reserved bits cleared (R45). -/
def portField (q : Nat) (v : Word) : Word :=
  match q with
  | 0 => v &&& 0xFFFFFFFF001FFFFF
  | 1 => v
  | _ => v &&& 0x0000000000FFFFFF

/-- A base or stride that is not a multiple of 64 (R155). -/
def portFieldOk (q : Nat) (v : Word) : Bool :=
  match q with
  | 0 => fld v 0 6 == 0
  | 1 => fld v 0 6 == 0 && fld v 24 6 == 0
  | _ => fld v 0 6 == 0

/-! ## Scoreboard -/

/-- Commands of a context that still read the tile (R41, R188). -/
def Core.readers (c : Core) (x tile : Nat) : Nat := (c.cmds.filter fun m => m.ctx == x && m.reads.contains tile).length

/-- A write of the tile by a command of the context is outstanding (R41, R188). -/
def Core.wpend (c : Core) (x tile : Nat) : Bool := c.cmds.any fun m => m.ctx == x && m.writes.contains tile

/-- A write of the tile by a command dispatched before `id` is outstanding (R188). -/
def Core.wpendBefore (c : Core) (x tile id : Nat) : List Cmd := c.cmds.filter fun m => m.ctx == x && m.writes.contains tile && decide (m.id < id)

/-- The slot holds a pass: one in progress, or a pass or OREST dispatched into it and not finished (R358). -/
def Cmd.slotNamed (m : Cmd) : Option Nat :=
  match m.instr with
  | .opass .. | .opassr .. | .oderive .. | .oapply .. => some (fld (m.stg.headD 0) 42 1)
  | .orest s .. => some s.toNat
  | _ => none

/-- Nothing of the pass is left but rows that land in this tick (R358). -/
def Pass.finished (p : Pass) (rows rounds : Nat) : Bool :=
  p.next == rows && p.round + 1 == rounds && p.groups.isEmpty && !p.frozen && p.flight.all fun f => f.age == 20

/-- Rows and rounds of a pass, from its OS0 (R81). -/
def Pass.rows (p : Pass) : Nat := fld (p.os.headD 0) 16 9
def Pass.rounds (p : Pass) : Nat := fld (p.os.headD 0) 45 3 + 1

/-- The pass that a slot still holds: one that has started. One dispatched and not started does not show as busy (R97; DESIGN CHOICE, log 64). -/
def Sweep.held (w : Sweep) : Option Pass :=
  match w.pass with
  | some p => if p.finished p.rows p.rounds then none else some p
  | none => none

def Core.slotBusy (c : Core) (x slot : Nat) : Bool :=
  let w := vget (c.ctx x).sweep slot
  w.held.isSome || c.cmds.any fun m => m.ctx == x && m.slotNamed == some slot && !(w.held.isNone && w.pass.any fun p => p.cmd == m.id)

/-! ## State registers by number -/

def boolNat (b : Bool) : Nat := if b then 1 else 0

def CtxState.code : CtxState → Nat
  | .idle => 0 | .running => 1 | .ready => 2 | .waiting => 3 | .draining => 4 | .halted => 5 | .faulted => 6 | .frozen => 7

/-- CTXST (R29). A context that has executed HALT reads 5 until its task finishes (R137). -/
def Ctx.status (k : Ctx) (x : Nat) : Word :=
  BitVec.ofNat 64 (k.state.code * 32 + boolNat k.preq * 16 + boolNat k.timed * 8 + x)

def LevelKind.code : LevelKind → Nat
  | .temporal => 0 | .cores => 1 | .dies => 2

def LoopEntry.wordC (e : LoopEntry) : Word :=
  BitVec.ofNat 64 (e.budget * 2 ^ 40 + e.kind.code * 2 ^ 35 + boolNat e.valid * 2 ^ 34 + boolNat e.interlocked * 2 ^ 33 + e.elapsed % 2 ^ 24)

/-- The flag registers: six bits a position (R306). -/
def flagWord (v : Vector Flags 18) (lo n : Nat) : Word :=
  BitVec.ofNat 64 ((List.range n).foldl (fun acc i => acc + (vget v (lo + i)).toNat * 2 ^ (6 * i)) 0)

def Fer.word (f : Fer) : Word :=
  BitVec.ofNat 64 (boolNat f.valid * 2 ^ 63 + f.mask.toNat * 2 ^ 50 + f.flags.toNat * 2 ^ 37 + f.slot % 32 * 2 ^ 32 + f.addr.toNat)

def Region.word (r : Region) (cow : Nat) : Word :=
  BitVec.ofNat 64 (boolNat r.open_ * 2 ^ 63 + boolNat r.rback * 2 ^ 62 + r.taken * 2 ^ 48 + cow * 2 ^ 40 + r.mark.toNat)

/-- The most registers shadowed in one lane group; none in timed mode (R328, R329). -/
def Region.cow (r : Region) : Nat :=
  ((List.range 8).map fun lg => (r.shadows.filter fun p => p.1 == lg && !p.2.2.isEmpty).length).foldl Nat.max 0

def Pointer.word (p : Pointer) : Word := BitVec.ofNat 64 (p.step.toNat * 2 ^ 28 + p.addr.toNat)
def Pointer.wordW (p : Pointer) : Word := BitVec.ofNat 64 (p.wrap.toNat * 2 ^ 28 + p.wbase.toNat)

/-- The slots of the trigger queue that hold an armed operation (R212). -/
def Regs.queueUsed (r : Regs) : Nat := (r.tq.toList.filter fun q => q.any fun q => q.armedAt.isSome).length

/-- AOWnB as read (R55). -/
def AowRegion.wordB (r : AowRegion) : Word := BitVec.ofNat 64 (r.ready.toNat * 2 ^ 32 + r.expect)

/-- A state register of a context by its number; none when no map assigns it (R129). -/
def Sys.stateReg (s : Sys) (g x sn : Nat) : Option Word :=
  let c := s.core g
  let k := c.ctx x
  let r := k.regs
  if sn = 0x000 then some (k.pc.setWidth 64)
  else if sn = 0x001 then some r.rotb.word
  else if sn = 0x002 then some (k.status x)
  else if sn = 0x003 then some k.csab
  else if sn = 0x004 then some (BitVec.ofNat 64 r.rm.toNat)
  else if sn = 0x005 then some (BitVec.ofNat 64 (boolNat k.tvecEn * 2 ^ 32 + k.tvecAddr.toNat))
  else if sn = 0x006 then some (BitVec.ofNat 64 (boolNat k.epcInh * 2 ^ 32 + k.epcRet.toNat))
  else if sn = 0x007 then some (BitVec.ofNat 64 (k.causeClass.toNat * 2 ^ 16 + k.causeCode.toNat))
  else if sn = 0x008 then some (BitVec.ofNat 64 g)
  else if sn = 0x009 then some k.far
  else if sn = 0x00A then some k.fga.word
  else if sn = 0x00B then some (k.region.word k.region.cow)
  else if 0x010 ≤ sn ∧ sn < 0x028 then
    let e := vget r.loops ((sn - 0x010) / 4)
    some (match (sn - 0x010) % 4 with
      | 0 => BitVec.ofNat 64 (e.count.toNat * 2 ^ 32 + e.index.toNat)
      | 1 => BitVec.ofNat 64 (e.exit.toNat * 2 ^ 32 + e.start.toNat)
      | 2 => e.wordC
      | _ => e.index.setWidth 64)
  else if sn = 0x030 then some (BitVec.ofNat 64 s.mer)
  else if sn = 0x031 then some (BitVec.ofNat 64 s.wcyc)
  else if sn = 0x032 then some (s.ttick k)
  else if sn = 0x033 then some k.tstm
  else if sn = 0x034 then some (flagWord r.flags 0 10)
  else if sn = 0x035 then some (flagWord r.flags 10 8)
  else if sn = 0x036 then some r.fer.word
  else if 0x040 ≤ sn ∧ sn < 0x050 then
    let n := sn - 0x040
    some (BitVec.ofNat 64 ((vget k.sbTag n).toNat * 2 ^ 16 + c.readers x n % 256 * 2 ^ 8 + boolNat (c.wpend x n)))
  else if 0x050 ≤ sn ∧ sn < 0x054 then some (vget k.tfr (sn - 0x050))
  else if 0x080 ≤ sn ∧ sn < 0x0C0 then
    let p := vget r.ptr ((sn - 0x080) / 2)
    some (if sn % 2 = 0 then p.word else p.wordW)
  else if 0x0C0 ≤ sn ∧ sn < 0x100 then
    let p := vget r.port ((sn - 0x0C0) / 4)
    some (match sn % 4 with
      | 0 => p.a
      | 1 => p.b
      | 2 => p.c
      | _ => BitVec.ofNat 64 p.pos)
  else if 0x100 ≤ sn ∧ sn < 0x110 then
    let w := vget c.aow ((sn - 0x100) / 2)
    some (if sn % 2 = 0 then w.a else w.wordB)
  else if 0x140 ≤ sn ∧ sn < 0x180 then
    let w := vget c.aow ((sn - 0x140) / 8)
    let q := (sn - 0x140) % 8
    some (BitVec.ofNat 64 ((List.range 4).foldl (fun acc i => acc + Nat.min (vget w.counts (4 * q + i)) 65535 * 2 ^ (16 * i)) 0))
  else if 0x180 ≤ sn ∧ sn < 0x190 then
    let d := vget k.drift (sn - 0x180)
    some (BitVec.ofNat 64 (boolNat d.exceeded * 2 ^ 32 + d.gmax.toNat))
  else if sn = 0x190 then some (BitVec.ofNat 64 (boolNat k.dfault * 2 ^ 33 + k.driftLimit.toNat))
  else if sn = 0x191 then
    some (BitVec.ofNat 64 ((vget k.sweep 1).residents.length * 2 ^ 8 + (vget k.sweep 0).residents.length * 2 ^ 4 +
      boolNat (vget k.sweep 1).held.isSome * 2 + boolNat (vget k.sweep 0).held.isSome))
  else if sn = 0x192 then some c.oslt
  else if 0x1A0 ≤ sn ∧ sn < 0x1A4 then some (vget r.xa (sn - 0x1A0))
  else if sn = 0x1B0 then some r.tcrw
  else if sn = 0x1B2 then some (BitVec.ofNat 64 r.queueUsed)
  else none

/-- The bits of a staging register that hold a value: reserved ones read zero whatever is written (R5, R81, R190, R196, R206, R213). Bit 7 of TS4 and bits 31 to 28 of DS4, which no field covers, are taken as reserved. -/
def stagingMask (n : Nat) : Word :=
  match n with
  | 0x00 => 0xFFFFFFFF01FF0FF0
  | 0x01 => 0x000000000000FF33
  | 0x08 => 0x0000FFFF00FF7FFF
  | 0x0A => 0x00000000037F03FF
  | 0x0B => 0x000000000000037F
  | 0x0C => 0x00007FFF0FFFFFFF
  | 0x14 => 0x0000000000003F7F
  | 0x1C => 0x0000000000001FFF
  | 0x20 | 0x21 => 0x00000000FFFFFFFF
  | _ => 0xFFFFFFFFFFFFFFFF

/-- A drift limit is at least 1.0 and neither NaN nor absent (R89). -/
def driftLimitOk (v : Nat) : Bool :=
  match FloatFmt.f32.decode true v with
  | .inf s => !s
  | .fin s n d e => Rel.holds .le ((Val.one).compare (.fin s n d e))
  | _ => false

/-- The ranges that a WRST checks (R318). -/
def Ctx.wrstOk (k : Ctx) (sn : Nat) (v : Word) : Bool :=
  if sn = 0x001 then (Rotb.ofWord v).ok k.win.vwin
  else if sn = 0x004 then decide (fld v 0 3 < 5)
  else if sn = 0x190 then driftLimitOk (fld v 0 32)
  else if 0x080 ≤ sn ∧ sn < 0x0C0 then
    let code := (sn - 0x080) / 2
    if sn % 2 = 0 then k.addrOk code (fld v 0 28) else k.wrapOk code (fld v 0 28) (fld v 28 22)
  else true

/-- Write-1-to-clear of flag positions (R306). -/
def clearFlags (v : Vector Flags 18) (lo n : Nat) (w : Word) : Vector Flags 18 :=
  (List.range n).foldl (fun acc i => vmod acc (lo + i) fun f => f &&& ~~~(BitVec.ofNat 6 (fld w (6 * i) 6))) v

/-- The registers of an accumulate-on-write region written by AOWCFG or WRST: A, and B with `ready` as write-1-to-clear, which zeroes the tile's counter (R55, R57, R215). -/
def AowRegion.setB (r : AowRegion) (v : Word) : AowRegion :=
  let clr := fld v 32 32
  { r with
    ready := r.ready &&& ~~~(BitVec.ofNat 32 clr)
    expect := fld v 0 15
    counts := Vector.ofFn fun i : Fin 32 => if clr / 2 ^ i.val % 2 = 1 then 0 else vget r.counts i
    overrun := r.overrun &&& ~~~(BitVec.ofNat 32 clr) }

/-- AOWnA without its reserved bits (R55). -/
def aowMask (v : Word) : Word := v &&& 0x000001FFFFFFFFFF

/-- What a write of a state register by number changes; RO fields keep their values (R5, R129). R68 faults a WRST of FPCR.`rm` 5 to 7 and gives a supervisor's write of one no effect: here it leaves the mode as it was (DESIGN CHOICE, log 48). -/
def Sys.setStateReg (s : Sys) (g x sn : Nat) (v : Word) : Sys :=
  let modR (f : Regs → Regs) : Sys := s.modRegs g x f
  let modK (f : Ctx → Ctx) : Sys := s.modCtx g x f
  if sn = 0x001 then modR fun r => { r with rotb := Rotb.ofWord v }
  else if sn = 0x003 then modK fun k => { k with csab := v &&& 0xFFFFFFFFFFF00001 }
  else if sn = 0x004 then modR fun r => { r with rm := (Rm.ofNat? (fld v 0 3)).getD r.rm }
  else if sn = 0x005 then modK fun k => { k with tvecEn := bit v 32, tvecAddr := v.setWidth 32 }
  else if sn = 0x006 then modK fun k => { k with epcRet := v.setWidth 32 }
  else if sn = 0x034 then modR fun r => { r with flags := clearFlags r.flags 0 10 v }
  else if sn = 0x035 then modR fun r => { r with flags := clearFlags r.flags 10 8 v }
  else if sn = 0x036 then modR fun r => { r with fer := { r.fer with valid := r.fer.valid && !bit v 63, mask := BitVec.ofNat 6 (fld v 50 6) } }
  else if sn = 0x050 then modK fun k => if bit v 63 then { k with tfr := Vector.replicate 4 0 } else k
  else if 0x080 ≤ sn ∧ sn < 0x0C0 then
    let code := (sn - 0x080) / 2
    if sn % 2 = 0 then
      modR fun r => { r with ptr := vmod r.ptr code fun p => { p with addr := BitVec.ofNat 28 (fld v 0 28), step := BitVec.ofNat 24 (fld v 28 24) } }
    else
      modR fun r => { r with ptr := vmod r.ptr code fun p => { p with wbase := BitVec.ofNat 28 (fld v 0 28), wrap := BitVec.ofNat 22 (fld v 28 22) } }
  else if 0x0C0 ≤ sn ∧ sn < 0x100 ∧ sn % 4 ≠ 3 then
    modR fun r => { r with port := vmod r.port ((sn - 0x0C0) / 4) fun p =>
      match sn % 4 with
      | 0 => { p with a := portField 0 v, pos := 0 }
      | 1 => { p with b := portField 1 v, pos := 0 }
      | _ => { p with c := portField 2 v, pos := 0 } }
  else if 0x100 ≤ sn ∧ sn < 0x110 then
    s.modCore g fun c => { c with aow := vmod c.aow ((sn - 0x100) / 2) fun w =>
      if sn % 2 = 0 then { w with a := aowMask v, owner := x, gone := false } else w.setB v }
  else if 0x180 ≤ sn ∧ sn < 0x190 then
    modK fun k => { k with drift := vmod k.drift (sn - 0x180) fun d => ⟨v.setWidth 32, d.exceeded && !bit v 32⟩ }
  else if sn = 0x190 then modK fun k => { k with dfault := bit v 33, driftLimit := v.setWidth 32 }
  else if sn = 0x1B0 then modR fun r => { r with tcrw := r.tcrw &&& ~~~v }
  else s

end Sys2Proof.Machine
end

