-- ==== Sys2Proof/Machine/Control.lean ====
section
/-! DEFINITION. The control slot: R121 to R137, and the empty bundle of R102. -/

namespace Sys2Proof.Machine

/-! ## Transfers of control -/

/-- A taken transfer: the next group issues at issue + 2 (R121). -/
def Ctx.jump (k : Ctx) (target : W32) (t : Nat) : Ctx := { k with pc := target, readyAt := t + 2 }

/-- The address of a displacement in 4-byte units from the group address (R104, R122). -/
def branchTarget (grp : W32) {n : Nat} (d : BitVec n) : W32 := grp + BitVec.ofInt 32 (4 * d.toInt)

def Sys.jumpTo (s : Sys) (target : W32) : Sys := s.modHere fun k => k.jump target s.t

/-- BRA (R122). -/
def execBra (d : BitVec 26) (s : State) : Host.Outcome State Fault Refusal :=
  s.issue none [] fun y => y.jumpTo (branchTarget y.cur.grp d)

/-- BZ: the test reads all 64 bits of ra at issue (R122). -/
def execBz (a : BitVec 5) (d : BitVec 21) (s : State) : Host.Outcome State Fault Refusal :=
  s.issue (s.sys.interlock false [a]) [] fun y =>
    if y.regA a = 0 then y.jumpTo (branchTarget y.cur.grp d) else y

/-- BNZ (R122). -/
def execBnz (a : BitVec 5) (d : BitVec 21) (s : State) : Host.Outcome State Fault Refusal :=
  s.issue (s.sys.interlock false [a]) [] fun y =>
    if y.regA a = 0 then y else y.jumpTo (branchTarget y.cur.grp d)

/-- JR (R122). -/
def execJr (a : BitVec 5) (d : BitVec 21) (s : State) : Host.Outcome State Fault Refusal :=
  s.issue (s.sys.interlock false [a]) [] fun y => y.jumpTo (branchTarget ((y.regA a).setWidth 32) d)

/-! ## Loops -/

/-- The level a LOOP names, when it is temporal (R123). -/
def Ctx.temporalLevel (k : Ctx) (j : Nat) : Option Level :=
  match k.task.levels[j]? with
  | some l => if l.kind == .temporal then some l else none
  | none => none

/-- LOOP's limits: a temporal level, valid outer levels, an invalid entry of its own (R123). -/
def Ctx.loopOk (k : Ctx) (j : Nat) : Bool :=
  (k.temporalLevel j).isSome && (List.range j).all (fun i => (vget k.regs.loops i).valid) && !(vget k.regs.loops j).valid

/-- A loop-stack entry replaced. -/
def Ctx.setLoop (k : Ctx) (j : Nat) (e : LoopEntry) : Ctx := { k with regs := { k.regs with loops := vset k.regs.loops j e } }

/-- When no temporal entry is left, a stretch of the body starts, its count at 0 (R22). -/
def Ctx.closed (k : Ctx) : Ctx := if k.inner.isNone then { k with bodyElapsed := 0 } else k

/-- The effect of LOOP (R21). A count of 0 leaves the entry invalid and takes the exit. -/
def Ctx.loop (k : Ctx) (j : Nat) (next exit : W32) (t : Nat) : Ctx :=
  match k.temporalLevel j with
  | none => k
  | some l =>
    let e : LoopEntry := { index := 0, count := BitVec.ofNat 32 l.count, start := next, exit := exit, budget := l.budget,
                           kind := .temporal, valid := l.count != 0, interlocked := l.interlocked, elapsed := 0 }
    let k := { k.setLoop j e with boundary := true }
    if l.count = 0 then k.jump exit t else { k with pc := next }

/-- LOOP (R21, R123). -/
def execLoop (l : BitVec 3) (d : BitVec 23) (s : State) : Host.Outcome State Fault Refusal :=
  s.issue none (s.sys.range (s.sys.here.loopOk l.toNat)) fun y =>
    y.modHere fun k => k.loop l.toNat y.cur.next (branchTarget y.cur.grp d) y.t

/-- The effect of ENDL on entry `j` (R21). -/
def Ctx.endLoop (k : Ctx) (j : Nat) (next : W32) : Ctx :=
  let k := { k with regs := { k.regs with rotb := k.regs.rotb.step }, boundary := true }
  let e := vget k.regs.loops j
  let i := e.index + 1
  if i < e.count then { k.setLoop j { e with index := i, elapsed := 0 } with pc := e.start }
  else ({ k.setLoop j { e with index := i, valid := false } with pc := next }).closed

/-- ENDL (R21, R123). -/
def execEndl (s : State) : Host.Outcome State Fault Refusal :=
  s.issue none (s.sys.range s.sys.here.inner.isSome) fun y =>
    y.modHere fun k => match k.inner with
      | some j => k.endLoop j y.cur.next
      | none => k

/-- The effect of BREAK on entry `j` (R21). -/
def Ctx.breakLoop (k : Ctx) (j : Nat) (t : Nat) : Ctx :=
  let e := vget k.regs.loops j
  (({ k.setLoop j { e with valid := false } with boundary := true }).closed).jump e.exit t

/-- BREAK (R21, R123). -/
def execBreakLoop (s : State) : Host.Outcome State Fault Refusal :=
  s.issue none (s.sys.range s.sys.here.inner.isSome) fun y =>
    y.modHere fun k => match k.inner with
      | some j => k.breakLoop j y.t
      | none => k

/-! ## Waiting -/

/-- The command increments trigger counter `n` at its completion (R189). -/
def Cmd.incs (m : Cmd) (n : Nat) : Bool :=
  let y4 := m.stg.getD 4 0
  (m.eng == .tm || m.eng == .cp) && bit y4 6 && fld y4 0 6 == n

/-- A tile is free for WAITS (R124). -/
def Core.tileFree (c : Core) (x : Nat) (idle : Bool) (n : Nat) : Bool := !c.wpend x n && (!idle || c.readers x n == 0)

/-- The tiles of a WAITS mask. -/
def maskTiles (m : BitVec 16) : List Nat := (List.range 16).filter fun n => m.toNat / 2 ^ n % 2 == 1

/-- The wrapping comparison of thresholds (R125, R214). -/
def reached (tc thr : W32) : Bool := decide ((tc - thr).toNat < 2 ^ 31)

/-- The link of a record is set and names counter `n` (R218, R223). -/
def linksTo (w0 : Word) (n : Nat) : Bool := bit w0 14 && fld w0 48 6 == n

/-- A record issued by the context's CTI will increment counter `n` (R120, R223): from the CTI's issue, through the read of the record, its wait in an open region and its course at the level, until the counter counts. -/
def State.ctiIncs (s : State) (g x n : Nat) : Bool :=
  (s.sys.pkg.recs.any fun r => r.source == .context g x && linksTo r.record.w0 n) ||
    ((s.sys.ctx g x).region.gated.any fun e => match e with | .record _ _ r => linksTo r.w0 n | _ => false) ||
    (s.sys.agenda.any fun e => e.core == g && e.ctx == x && (match e.act with
      | .ctiRead addr _ _ => linksTo (s.mem.word (scratchKey g (localOff addr))) n
      | .tcAdd q _ => q == n && e.phase == 8
      | _ => false))

/-- BAR: the context waits for its release; it arrives once its earlier accesses have performed (R126). -/
def execBar (s : State) : Host.Outcome State Fault Refusal :=
  s.issue none [] fun y => y.modHere fun k => { k with barWait := true, barOrd := y.cur.ord, barArrived := false, bars := k.bars + 1 }

/-- FENCE (R127): a fence of that kind and scope waits until every covered access issued so far has performed at the scope. -/
def execFence (k : BitVec 2) (p : BitVec 3) (s : State) : Host.Outcome State Fault Refusal :=
  s.issue none [] fun y => y.modHere fun c => { c with fences := c.fences ++ [⟨y.cur.ord, k.toNat, p.toNat, y.cur.grp⟩] }

/-- TICK (R130). -/
def execTick (a : BitVec 5) (s : State) : Host.Outcome State Fault Refusal :=
  let k := s.sys.here
  let now : Word := if k.timed then s.sys.ttick k else BitVec.ofNat 64 s.sys.wcyc
  s.issue (orHold (s.sys.interlock false [a]) (holdUnless (decide ((s.sys.regA a).toNat ≤ now.toNat)))) [] id

/-! ## Camvel issue, state access, flags, digest -/

/-- Records in the level's acceptance queue for this source, which holds sixteen (R222). -/
def Sys.queued (s : Sys) (src : Source) (lv : LevelAt) : Nat :=
  (s.pkg.recs.filter fun r => r.source == src && r.level == lv && r.phase == .queued).length

/-- CTIs of a context to a level whose records are still to enter its queue. -/
def Sys.ctiReads (s : Sys) (g x l : Nat) : Nat :=
  (s.agenda.filter fun e => e.core == g && e.ctx == x && (match e.act with | .ctiRead _ q _ => q == l | _ => false)).length +
    ((s.ctx g x).region.gated.filter fun e => match e with | .record _ q _ => q == l | _ => false).length

/-- The level a CTI names, from core `g` (R128). -/
def ctiLevel (g l : Nat) : LevelAt :=
  match l with
  | 0 => .core g
  | 1 => .pav (pavOf g)
  | 2 => .die (dieOf g)
  | _ => .pkg

/-- The number of a level: the belvedere 0, then lodges, arbours, cores. -/
def LevelAt.number : LevelAt → Nat
  | .pkg => 0 | .die d => 1 + d | .pav p => 5 + p | .core g => 13 + g

/-- The level's controller has met an uncorrectable error: it accepts no record until a reset (R341). -/
def Sys.deaf (s : Sys) (l : LevelAt) : Bool := s.pkg.deafLevels.contains l.number

/-- Region bookkeeping: entries of the gated buffer taken by an issued group (R327). -/
def Ctx.take (k : Ctx) (n : Nat) : Ctx := if k.region.open_ then { k with region := { k.region with taken := k.region.taken + n } } else k

/-- CTI: the record is read at issue + 2 (R128). -/
def execCti (a : BitVec 5) (l : BitVec 3) (s : State) : Host.Outcome State Fault Refusal :=
  let y := s.sys
  let addr := (y.regA a).toNat % 2 ^ 28
  let full := y.deaf (ctiLevel y.cur.core l.toNat) || decide (16 ≤ y.queued (.context y.cur.core y.cur.ctx) (ctiLevel y.cur.core l.toNat) + y.ctiReads y.cur.core y.cur.ctx l.toNat)
  s.issue (orHold (y.interlock false [a]) (if full then some true else none))
    (y.range (addr % 64 == 0 && ownScratch y.cur.core addr) (BitVec.ofNat 64 addr))
    fun y => (y.perform 2 1 (.ctiRead addr l.toNat y.cur.grp)).modHere fun k => k.take 1

/-- RDST: the register as it stands at the start of the issue cycle lands at issue + 2 (R129). An XA register whose probe is outstanding holds the group (R157). -/
def execRdst (a : BitVec 5) (n : BitVec 9) (s : State) : Host.Outcome State Fault Refusal :=
  let y := s.sys
  let sn := n.toNat
  let xa := 0x1A0 ≤ sn ∧ sn < 0x1A4 ∧ (vget y.here.probe (sn - 0x1A0)).isSome
  s.issue (if xa then some true else none) (y.range (y.stateReg y.cur.core y.cur.ctx sn).isSome)
    fun y => y.landA 2 a (if sn = 0 then y.cur.grp.setWidth 64 else if sn = 0x00B then y.cur.rgst else (y.stateReg y.cur.core y.cur.ctx sn).getD 0)

/-- A write of a pointer's step or wrap fields replaces an advance of the pointer in its cycle: the address lands as the cycle found it, before what the group itself writes (R44, R153). -/
def Sys.keepPointer (s : Sys) (code : Nat) : Sys := s.post s.cur.core s.cur.ctx (s.t + 1) 0 (s.cur.ord / 32 * 32 - 1) (.ptrAddr code (vget s.cur.addrs code))

/-- The same for a WRST to XnW. -/
def Sys.keepAddr (s : Sys) (sn : Nat) : Sys := if 0x080 ≤ sn ∧ sn < 0x0C0 ∧ sn % 2 = 1 then s.keepPointer ((sn - 0x080) / 2) else s

/-- WRST: a checked write, effective from the next cycle (R129, R318). -/
def execWrst (a : BitVec 5) (n : BitVec 9) (s : State) : Host.Outcome State Fault Refusal :=
  let y := s.sys
  s.issue (y.interlock false [a])
    (y.range ((y.stateReg y.cur.core y.cur.ctx n.toNat).isSome && y.here.wrstOk n.toNat (y.regA a)))
    fun y => (y.keepAddr n.toNat).land 1 (.wrst n.toNat (y.regA a))

/-- FLRD: the sets are read at the end of the issue cycle and land at issue + 2 (R131). -/
def execFlrd (a : BitVec 5) (l : BitVec 1) (p : BitVec 5) (s : State) : Host.Outcome State Fault Refusal :=
  s.issue none (s.sys.range (l == 1 || decide (p.toNat < 18)))
    fun y => y.perform 0 2 (.flagRead (l == 1) p.toNat (y.here.phys false a.toNat))

/-- FLCLR: the clear takes effect at the end of the issue cycle (R131). -/
def execFlclr (f : BitVec 1) (p : BitVec 18) (s : State) : Host.Outcome State Fault Refusal :=
  s.issue none [] fun y => { y with clears := y.clears ++ [(y.cur.core, y.cur.ctx, p, f == 1)] }

/-- The last read of the newest DIGEST lies after this tick (R132). -/
def Ctx.digestBusy (k : Ctx) (t : Nat) : Bool :=
  k.digesting.any fun d => decide (t < d.start + d.n - 1)

/-- DIGEST: block i is read at issue + 2 + i (R132). -/
def execDigest (a : BitVec 5) (n : BitVec 16) (s : State) : Host.Outcome State Fault Refusal :=
  let y := s.sys
  let k := y.here
  let addr := (y.regA a).toNat % 2 ^ 28
  let busy := k.digestBusy y.t
  s.issue (orHold (y.interlock false [a]) (if busy && !k.timed then some false else none))
    (y.range (addr % 64 == 0 && ownScratch y.cur.core addr && n != 0 && decide (n.toNat ≤ 32768) &&
        decide (localOff addr + 64 * n.toNat ≤ 2 ^ 21)) (BitVec.ofNat 64 addr) ++
      y.limit (!(busy && k.timed)) 5 1)
    fun y => y.modHere fun k => { k with digesting := k.digesting ++ [⟨y.cur.ord, addr, n.toNat, 0, y.t + 2, y.cur.grp⟩] }

/-! ## Yield, traps, halt -/

/-- YIELD: in shared mode the context becomes ready, or goes on draining, and the selector passes issue on; in timed mode nothing happens (R31, R133). -/
def execYield (s : State) : Host.Outcome State Fault Refusal :=
  s.issue none [] fun y => y.modHere fun k => if k.timed then k else { k with state := if k.preq then k.state else .ready, yielded := true }

/-- TRAP: its group issues, then the trap is taken: to the handler with EPC.`ret` the fall-through address, or to the supervisor (R135). -/
def execTrap (c : BitVec 16) (s : State) : Host.Outcome State Fault Refusal :=
  s.issue none [] fun y => y.takeFault y.cur.core y.cur.ctx (y.faultHere 0 c.toNat) false y.cur.next

/-- ERET: back to EPC.`ret`; outside a handler, class 2 code 4 (R136, R318). -/
def execEret (s : State) : Host.Outcome State Fault Refusal :=
  s.issue none (s.sys.limit s.sys.here.epcInh 2 4) fun y => y.modHere fun k => k.returnFromHandler y.t

/-- HALT: the context issues nothing more; its work runs on to the task's finish (R137). -/
def execHalt (s : State) : Host.Outcome State Fault Refusal :=
  s.issue none [] fun y => y.modHere fun k => { k with state := .halted, ended := true, preq := false, boundary := true }

/-- The restart region of a group opens: `mark` is its address, and in shared mode the registers are checkpointed (R326, R328). -/
def Ctx.openRegion (k : Ctx) (grp : W32) (ord : Nat) : Ctx :=
  { k with region := { open_ := true, mark := grp, since := ord / 32 * 32, checkpoint := if k.timed then none else some k.regs } }

/-- An empty bundle: one cycle of issue; with the restart mark it opens a region (R102, R326). -/
def execNop (r _stop : BitVec 1) (s : State) : Host.Outcome State Fault Refusal :=
  s.issue none [] fun y => if r = 1 then y.modHere fun k => k.openRegion y.cur.grp y.cur.ord else y

end Sys2Proof.Machine
end

