-- ==== Sys2Proof/Machine/Special.lean ====
section
/-! DEFINITION. The special functions (R165), A16 decoding (R66) and ANGOF (R185), from integer arithmetic with 448 fractional bits.

Each returns a value that rounds as the exact function value does: exact where the function value is a dyadic rational, else an approximation with a sticky last bit (log 11). -/

namespace Sys2Proof.Machine

/-- Fractional bits of the fixed-point arithmetic. -/
def fixBits : Nat := 448

/-- One in fixed point. -/
def fixOne : Nat := 2 ^ fixBits

/-- π in fixed point, truncated. -/
def fixPi : Nat := 0x3243F6A8885A308D313198A2E03707344A4093822299F31D0082EFA98EC4E6C89452821E638D01377BE5466CF34E90C6CC0AC29B7C97C50DD

/-- ln 2 in fixed point, truncated. -/
def fixLn2 : Nat := 0xB17217F7D1CF79ABC9E3B39803F2F6AF40F343267298B62D8A0D175B8BAAFA2BE7B876206DEBAC98559552FB4AFA1B10ED2EAE35C1382144

/-- Product in fixed point. -/
def fixMul (a b : Nat) : Nat := a * b / fixOne

/-- The terms t, t·x/(k+1), t·x²/((k+1)(k+2)) … summed into four sums by their place modulo 4. -/
def seriesLoop (fuel : Nat) (x t k : Nat) (c0 c1 c2 c3 : Nat) : Nat × Nat × Nat × Nat :=
  match fuel with
  | 0 => (c0, c1, c2, c3)
  | n + 1 =>
    if t = 0 then (c0, c1, c2, c3)
    else
      let t' := fixMul t x / (k + 1)
      match k % 4 with
      | 0 => seriesLoop n x t' (k + 1) (c0 + t) c1 c2 c3
      | 1 => seriesLoop n x t' (k + 1) c0 (c1 + t) c2 c3
      | 2 => seriesLoop n x t' (k + 1) c0 c1 (c2 + t) c3
      | _ => seriesLoop n x t' (k + 1) c0 c1 c2 (c3 + t)

/-- The exponential series of x ≥ 0 by place modulo 4. -/
def fixSeries (x : Nat) : Nat × Nat × Nat × Nat := seriesLoop 160 x fixOne 0 0 0 0 0

/-- e^x for 0 ≤ x ≤ 2 in fixed point. -/
def fixExp (x : Nat) : Nat :=
  let s := fixSeries x
  s.1 + s.2.1 + s.2.2.1 + s.2.2.2

/-- cos x for 0 ≤ x ≤ π/2 in fixed point. -/
def fixCos (x : Nat) : Nat :=
  let s := fixSeries x
  s.1 - s.2.2.1

/-- sin x for 0 ≤ x ≤ π/2 in fixed point. -/
def fixSin (x : Nat) : Nat :=
  let s := fixSeries x
  s.2.1 - s.2.2.2

/-- The series z + z³/3 + z⁵/5 + … of atanh. -/
def atanhLoop (fuel : Nat) (z2 p k acc : Nat) : Nat :=
  match fuel with
  | 0 => acc
  | n + 1 => if p = 0 then acc else atanhLoop n z2 (fixMul p z2) (k + 2) (acc + p / k)

/-- ln(num/den) for 1 ≤ num/den < 2 in fixed point. -/
def fixLn (num den : Nat) : Nat :=
  let z := (num - den) * fixOne / (num + den)
  2 * atanhLoop 160 (fixMul z z) z 1 0

/-- An approximate fixed-point result as a value with a sticky last bit. -/
def sticky (neg : Bool) (v : Nat) (e : Int) : Val := .fin neg (2 * v + 1) 1 (e - fixBits - 1)

/-- A value just below n·2^e in magnitude. -/
def justBelow (neg : Bool) (n : Nat) (e : Int) : Val := .fin neg (n * 2 ^ 128 - 1) 1 (e - 128)

/-- A value just above n·2^e in magnitude. -/
def justAbove (neg : Bool) (n : Nat) (e : Int) : Val := .fin neg (n * 2 ^ 128 + 1) 1 (e - 128)

/-- 2^a (R165). Beyond ±1,100 every format overflows or is tiny, and the value stands just above 2^±1,100. -/
def Val.exp2 (x : Val) : Val :=
  match x with
  | .inf s => if s then .zero false else .inf false
  | .fin s n d e =>
    let l := floorLog2 n d + e
    if n = 0 then .one
    else if 11 ≤ l then justAbove false 1 (if s then -1100 else 1100)
    else if l < -128 then (if s then justBelow false 1 0 else justAbove false 1 0)
    else
      -- |a| in fixed point is exact: its last place is far above 2^-448
      let a := n * 2 ^ (e + fixBits).toNat / d
      let whole := a / fixOne
      let part := a % fixOne
      if part = 0 then .fin false 1 1 (if s then -(whole : Int) else whole)
      else if s then sticky false (fixExp (fixMul (fixOne - part) fixLn2)) (-(whole : Int) - 1)
      else sticky false (fixExp (fixMul part fixLn2)) whole
  | v => v

/-- log2 a: ±0 gives −∞, a negative operand is invalid, 1 gives +0 (R165). -/
def Val.log2 (x : Val) : Val :=
  match x with
  | .inf s => if s then .invalid else .inf false
  | .fin s n d e =>
    if n = 0 then .inf true
    else if s then .invalid
    else
      let l := floorLog2 n d
      let num := n * 2 ^ (-l).toNat
      let den := d * 2 ^ l.toNat
      let whole := l + e
      if num = den then .fin (decide (whole < 0)) whole.natAbs 1 0
      else
        let part : Int := (fixLn num den * fixOne / fixLn2 : Nat)
        let v : Int := whole * fixOne + part
        sticky (decide (v < 0)) v.natAbs 0
  | v => v

/-- |a| modulo 2 in half-turns: the octant-free reduction of R165's sinPi and cosPi. Quadrant and the fixed-point part in [0, ½). -/
def halfTurns (n d : Nat) (e : Int) : Nat × Nat :=
  let a := (if 0 ≤ e + fixBits then n * 2 ^ (e + fixBits).toNat / d else n / (d * 2 ^ (-(e + fixBits)).toNat)) % (2 * fixOne)
  (a / (fixOne / 2), a % (fixOne / 2))

/-- sin(π·part) by quadrant: (cosine wanted, negative). -/
def quadrantValue (cosine neg : Bool) (part : Nat) : Val :=
  let x := fixMul part fixPi
  if cosine then (if part = 0 then .fin neg 1 1 0 else sticky neg (fixCos x) 0)
  else if part = 0 then .zero neg
  else sticky neg (fixSin x) 0

/-- sin(π·a): an integer n > 0 gives +0, n < 0 gives −0; ±∞ is invalid (R165). Below 2^-100 it is π·a with its cubic term far below every rounding. -/
def Val.sinPi (x : Val) : Val :=
  match x with
  | .inf _ => .invalid
  | .fin s n d e =>
    if n = 0 then .zero s
    else if floorLog2 n d + e < -100 then .fin s (2 * (n * fixPi) + 1) d (e - fixBits - 1)
    else
      let q := halfTurns n d e
      match q.1 with
      | 0 => quadrantValue false s q.2
      | 1 => quadrantValue true s q.2
      | 2 => if q.2 = 0 then .zero s else quadrantValue false (!s) q.2
      | _ => quadrantValue true (!s) q.2
  | v => v

/-- cos(π·a): n + ½ gives +0; ±∞ is invalid (R165). -/
def Val.cosPi (x : Val) : Val :=
  match x with
  | .inf _ => .invalid
  | .fin _ n d e =>
    if n = 0 then .one
    else if floorLog2 n d + e < -100 then justBelow false 1 0
    else
      let q := halfTurns n d e
      match q.1 with
      | 0 => quadrantValue true false q.2
      | 1 => if q.2 = 0 then .zero false else quadrantValue false true q.2
      | 2 => quadrantValue true true q.2
      | _ => if q.2 = 0 then .zero false else quadrantValue false false q.2
  | v => v

/-- u^(2^k) in fixed point, u below one. -/
def fixSquares (k : Nat) (u : Nat) : Nat :=
  match k with
  | 0 => u
  | j + 1 => fixSquares j (fixMul u u)

/-- tanh a: ±∞ gives ±1, ±0 gives ±0 (R165). -/
def Val.tanh (x : Val) : Val :=
  match x with
  | .inf s => .fin s 1 1 0
  | .fin s n d e =>
    let l := floorLog2 n d + e
    if n = 0 then .zero s
    else if l < -60 then .fin s (n * 2 ^ 128 - 1) d (e - 128)
    else if 6 ≤ l then justBelow s 1 0
    else
      -- e^(−2|a|) = (e^(−2|a|/128))^128, with 2|a|/128 ≤ 1
      let y := n * 2 ^ (e + fixBits - 6).toNat / d
      let u := fixSquares 7 (fixOne * fixOne / fixExp y)
      sticky s ((fixOne - u) * fixOne / (fixOne + u)) 0
  | v => v

/-- The cosine and sine of 2π·a/65,536 as F32 codes, to nearest even; a zero is +0 (R66). -/
def a16Decode (a : Nat) : Nat × Nat :=
  let v : Val := .fin false (a % 65536) 1 (-15)
  let c := FloatFmt.f32.deliver .rne false v.cosPi
  let s := FloatFmt.f32.deliver .rne false v.sinPi
  (c.1, if s.1 = FloatFmt.f32.signBit then 0 else s.1)

/-- Is angle(x, y) above (2k + 1)/2 codes, in the first quadrant: y·cos > x·sin with x, y ≥ 0 as integers. -/
def angleAbove (x y k : Nat) : Bool :=
  let phi := (2 * k + 1) * fixPi / 65536
  decide (x * fixSin phi < y * fixCos phi)

/-- The number of half codes below the angle of (x, y) in the first quadrant, by bits. -/
def angleSearch (fuel : Nat) (x y acc : Nat) : Nat :=
  match fuel with
  | 0 => acc
  | k + 1 => angleSearch k x y (if angleAbove x y (acc + 2 ^ k - 1) then acc + 2 ^ k else acc)

/-- The A16 code of atan2(y, x), to nearest even (R185). Infinities take IEEE 754's diagonal and axis values. -/
def angleOf (x y : Val) : Nat :=
  let code (xn yn : Bool) (first : Nat) : Nat :=
    let half := if xn then 32768 - first else first
    (if yn then 65536 - half else half) % 65536
  match x, y with
  | .inf xs, .inf ys => code xs ys 8192
  | .inf xs, y => code xs y.neg 0
  | x, .inf ys => code x.neg ys 16384
  | .fin xs xn xd xe, .fin ys yn yd ye =>
    if xn = 0 ∧ yn = 0 then code xs ys 0
    else
      let m := Min.min xe ye
      let a := xn * yd * 2 ^ (xe - m).toNat
      let b := yn * xd * 2 ^ (ye - m).toNat
      code xs ys (angleSearch 15 a b 0)
  | _, _ => 0

end Sys2Proof.Machine
end

