-- ==== Sys2Proof/Machine/Scalar.lean ====
section
/-! DEFINITION. The scalar slots: R138 to R152. -/

namespace Sys2Proof.Machine

/-! ## The shape of a scalar instruction -/

/-- A scalar instruction that reads registers of its own file and lands a value `n` cycles later. -/
def State.scalarOp (s : State) (srcs : List (BitVec 5)) (checks : List FaultRec) (n : Nat) (d : BitVec 5) (v : Sys → Word) :
    Host.Outcome State Fault Refusal :=
  s.issue (s.sys.interlock s.sys.fileB srcs) checks fun y => y.landReg n d (v y)

/-- An integer instruction of two registers (R140). -/
def State.int2 (s : State) (n : Nat) (d a b : BitVec 5) (f : Word → Word → Word) : Host.Outcome State Fault Refusal :=
  s.scalarOp [a, b] [] n d fun y => f (y.own a) (y.own b)

/-- A sign-extended immediate (R140). -/
def sxImm (i : BitVec 14) : Word := i.signExtend 64

/-! ## Integer operations (R140, R141) -/

def execAdd (d a b : BitVec 5) (s : State) : Host.Outcome State Fault Refusal := s.int2 1 d a b fun x y => x + y
def execAddImm (d a : BitVec 5) (i : BitVec 14) (s : State) : Host.Outcome State Fault Refusal :=
  s.scalarOp [a] [] 1 d fun y => y.own a + sxImm i
def execSub (d a b : BitVec 5) (s : State) : Host.Outcome State Fault Refusal := s.int2 1 d a b fun x y => x - y
def execAnd (d a b : BitVec 5) (s : State) : Host.Outcome State Fault Refusal := s.int2 1 d a b fun x y => x &&& y
def execAndImm (d a : BitVec 5) (i : BitVec 14) (s : State) : Host.Outcome State Fault Refusal :=
  s.scalarOp [a] [] 1 d fun y => y.own a &&& sxImm i
def execOr (d a b : BitVec 5) (s : State) : Host.Outcome State Fault Refusal := s.int2 1 d a b fun x y => x ||| y
def execXor (d a b : BitVec 5) (s : State) : Host.Outcome State Fault Refusal := s.int2 1 d a b fun x y => x ^^^ y

/-- The distance of a form R shift: rb[5:0] (R141). -/
def shiftDist (b : Word) : Nat := b.toNat % 64

def execShl (d a b : BitVec 5) (s : State) : Host.Outcome State Fault Refusal := s.int2 1 d a b fun x y => x <<< shiftDist y
def execShr (d a b : BitVec 5) (s : State) : Host.Outcome State Fault Refusal := s.int2 1 d a b fun x y => x >>> shiftDist y
def execSar (d a b : BitVec 5) (s : State) : Host.Outcome State Fault Refusal := s.int2 1 d a b fun x y => x.sshiftRight (shiftDist y)

/-- SHL, immediate: `imm` in 0-63, else an operand range fault (R141). -/
def execShlImm (d a : BitVec 5) (i : BitVec 14) (s : State) : Host.Outcome State Fault Refusal :=
  s.scalarOp [a] (s.sys.range (decide (i.toNat < 64))) 1 d fun y => y.own a <<< i.toNat
def execShrImm (d a : BitVec 5) (i : BitVec 14) (s : State) : Host.Outcome State Fault Refusal :=
  s.scalarOp [a] (s.sys.range (decide (i.toNat < 64))) 1 d fun y => y.own a >>> i.toNat

/-- Less, unsigned when `u` is 1 (R140). -/
def lessBy (u : BitVec 1) (x y : Word) : Bool := if u = 1 then x.ult y else x.slt y

def execMin (d a : BitVec 5) (u : BitVec 1) (b : BitVec 5) (s : State) : Host.Outcome State Fault Refusal :=
  s.int2 1 d a b fun x y => if lessBy u y x then y else x
def execMax (d a : BitVec 5) (u : BitVec 1) (b : BitVec 5) (s : State) : Host.Outcome State Fault Refusal :=
  s.int2 1 d a b fun x y => if lessBy u x y then y else x

/-- A truth value as a register (R140). -/
def truth (b : Bool) : Word := if b then 1 else 0

def execCmpeq (d a b : BitVec 5) (s : State) : Host.Outcome State Fault Refusal := s.int2 1 d a b fun x y => truth (x == y)
def execCmplt (d a b : BitVec 5) (s : State) : Host.Outcome State Fault Refusal := s.int2 1 d a b fun x y => truth (x.slt y)
def execCmpltu (d a b : BitVec 5) (s : State) : Host.Outcome State Fault Refusal := s.int2 1 d a b fun x y => truth (x.ult y)

/-! ## Multiplication (R142, R143) -/

def execMul (d a b : BitVec 5) (s : State) : Host.Outcome State Fault Refusal := s.int2 3 d a b fun x y => x * y

/-- floor(x × y / 2^64) of the exact product, signed unless `u` is 1 (R142). -/
def mulHigh (u : BitVec 1) (x y : Word) : Word :=
  if u = 1 then BitVec.ofNat 64 (x.toNat * y.toNat / 2 ^ 64) else BitVec.ofInt 64 (x.toInt * y.toInt / 2 ^ 64)

def execMulh (d a : BitVec 5) (u : BitVec 1) (b : BitVec 5) (s : State) : Host.Outcome State Fault Refusal :=
  s.int2 3 d a b (mulHigh u)

/-- The carry-less product of `a` and the low `n` bits of `b` (R143, R170). -/
def clmulNat (n a b : Nat) : Nat :=
  match n with
  | 0 => 0
  | i + 1 => clmulNat i a b ^^^ (if b / 2 ^ i % 2 = 1 then a * 2 ^ i else 0)

def execClmul (d a b : BitVec 5) (s : State) : Host.Outcome State Fault Refusal :=
  s.int2 3 d a b fun x y => BitVec.ofNat 64 (clmulNat 64 x.toNat y.toNat)
def execClmulh (d a b : BitVec 5) (s : State) : Host.Outcome State Fault Refusal :=
  s.int2 3 d a b fun x y => BitVec.ofNat 64 (clmulNat 64 x.toNat y.toNat / 2 ^ 64)

/-! ## Bits and moves (R144 to R147) -/

/-- The low `n` bits of `x` reversed. -/
def revBits (n x : Nat) : Nat :=
  match n with
  | 0 => 0
  | i + 1 => x % 2 * 2 ^ i + revBits i (x / 2)

/-- BREV over 64 bits, 32 bits, or within each byte (R144). -/
def brevWord (w : BitVec 2) (x : Word) : Word :=
  match w.toNat with
  | 0 => BitVec.ofNat 64 (revBits 64 x.toNat)
  | 1 => BitVec.ofNat 64 (revBits 32 x.toNat)
  | _ => BitVec.ofNat 64 (leNat ((leBytes 8 x.toNat).map fun b => BitVec.ofNat 8 (revBits 8 b.toNat)))

def execBrev (d a : BitVec 5) (w : BitVec 2) (s : State) : Host.Outcome State Fault Refusal :=
  s.scalarOp [a] [] 1 d fun y => brevWord w (y.own a)

/-- The number of 1 bits among the low `n` of `x`. -/
def popNat (n x : Nat) : Nat :=
  match n with
  | 0 => 0
  | i + 1 => x % 2 + popNat i (x / 2)

def execPopc (d a : BitVec 5) (s : State) : Host.Outcome State Fault Refusal :=
  s.scalarOp [a] [] 1 d fun y => BitVec.ofNat 64 (popNat 64 (y.own a).toNat)

def execMov (d a : BitVec 5) (s : State) : Host.Outcome State Fault Refusal := s.scalarOp [a] [] 1 d fun y => y.own a

/-- MOVX: `ra` names the other file; the result lands at issue + 2 (R38, R145). -/
def execMovx (d a : BitVec 5) (s : State) : Host.Outcome State Fault Refusal :=
  s.issue (s.sys.interlock (!s.sys.fileB) [a]) [] fun y => y.landReg 2 d (y.here.reg (!y.fileB) a.toNat)

/-- LIMM writes one quarter; for R36 each quarter is an element of its own (R146). -/
def execLimm (d : BitVec 5) (q : BitVec 2) (i : BitVec 16) (s : State) : Host.Outcome State Fault Refusal :=
  s.issue none [] fun y =>
    y.land 1 (.scalar y.fileB (y.here.phys y.fileB d.toNat) (BitVec.ofNat 64 (0xFFFF * 2 ^ (16 * q.toNat)))
      (BitVec.ofNat 64 (i.toNat * 2 ^ (16 * q.toNat))))

/-- The move to a staging register lands at issue + 1 (R109, R147). -/
def execMovStaging (a : BitVec 5) (n : BitVec 6) (s : State) : Host.Outcome State Fault Refusal :=
  s.issue (s.sys.interlock s.sys.fileB [a]) [] fun y => y.land 1 (.staging n.toNat (y.own a &&& stagingMask n.toNat))

/-! ## Scratchpad access (R148, R52, R53) -/

/-- The pavilion-local address of an access. -/
def scalarEa (a : Word) (i : BitVec 14) : BitVec 28 := a.setWidth 28 + i.signExtend 28

/-- The ring lane of a remote access: ra[31:28]. -/
def scalarLane (a : Word) : Nat := fld a 28 4

/-- Limits of an access: ea[2:0] is 0; a remote access has at most 64 hops on its lane (R148). -/
def scalarEaOk (g : Nat) (ea lane : Nat) : Bool :=
  ea % 8 == 0 && (ownScratch g ea || decide (hops (corePart g) (ea / 2 ^ 21) lane ≤ 64))

/-- A flit sets out on a lane: it seeks its first hop at issue + `wait`, in wall cycles for a copy of varying timing (R53, R199). -/
def Sys.sendFlit (s : Sys) (g x lane start hopCount wait ord slot phase : Nat) (grp : W32) (a : Act) : Sys :=
  let now := if phase / 4 = 2 then s.wcyc else s.now g x
  let f : Flit :=
    { pav := pavOf g, lane := lane, place := start, hops := hopCount, due := now + wait, entry := s.wcyc + wait,
      origin := start, core := g, ctx := x, ord := ord, grp := grp, slot := slot, phase := phase, act := a }
  { s with flits := s.flits ++ [f] }

/-- A store issued now at a pavilion-local address by a core: local at issue + 2, remote at issue + 2 + h (R52). `rank` is its place in R54's order when local. -/
def Sys.storeLocal (s : Sys) (g x ea lane rank ord slot : Nat) (grp : W32) (data : List Byte) : Sys :=
  let owner := localOwner g ea
  if owner = g then s.post g x (s.now g x + 2) 2 ord (.store owner (localOff ea) rank data)
  else s.sendFlit g x lane (corePart g) (hops (corePart g) (corePart owner) lane) 1 ord slot 2 grp (.store owner (localOff ea) (32 + lane) data)

/-- LD (R148): a local load reads at issue + 2 and lands at issue + 4; a remote one reads its owner's bank at issue + 3 and lands at issue + 6 + h (R52). -/
def execLd (d a : BitVec 5) (i : BitVec 14) (s : State) : Host.Outcome State Fault Refusal :=
  let y := s.sys
  let ea := (scalarEa (y.own a) i).toNat
  s.issue (y.interlock y.fileB [a]) (y.range (scalarEaOk y.cur.core ea (scalarLane (y.own a))) (BitVec.ofNat 64 ea)) fun y =>
    let g := y.cur.core
    let owner := localOwner g ea
    let r := y.here.phys y.fileB d.toNat
    if owner = g then y.perform 2 1 (.load owner (localOff ea) y.fileB r 2 y.cur.grp)
    else y.perform 3 1 (.load owner (localOff ea) y.fileB r (scalarLane (y.own a) + 100) y.cur.grp)

/-- ST (R148): `rd` is read at issue. -/
def execSt (d a : BitVec 5) (i : BitVec 14) (s : State) : Host.Outcome State Fault Refusal :=
  let y := s.sys
  let ea := (scalarEa (y.own a) i).toNat
  s.issue (y.interlock y.fileB [d, a]) (y.range (scalarEaOk y.cur.core ea (scalarLane (y.own a))) (BitVec.ofNat 64 ea)) fun y =>
    y.storeLocal y.cur.core y.cur.ctx ea (scalarLane (y.own a)) y.cur.slot y.cur.ord y.cur.slot y.cur.grp (leBytes 8 (y.own d).toNat)

/-! ## Scalar F32 (R149 to R152) -/

/-- Latency of the F32 instructions: 4, or 6 in an interlocked level (R139, R23). -/
def Ctx.f32Latency (k : Ctx) : Nat := if k.interlocked then 6 else 4

/-- The mode of an instruction: its own `rm` when `ovr` is 1, else FPCR.`rm` (R149). -/
def Ctx.modeOf (k : Ctx) (o : BitVec 1) (m : BitVec 3) : Rm := if o = 1 then (Rm.ofNat? m.toNat).getD .rne else k.regs.rm

/-- An F32 instruction: its value and flags land together (R36, R73, R149). -/
def State.f32Op (s : State) (srcs : List (BitVec 5)) (o : BitVec 1) (m : BitVec 3) (d : BitVec 5) (f : Sys → Rm → Bool → Nat × Flags) :
    Host.Outcome State Fault Refusal :=
  s.issue (s.sys.interlock s.sys.fileB srcs) (s.sys.range (o == 0 || decide (m.toNat < 5))) fun y =>
    let r := f y (y.here.modeOf o m) y.here.interlocked
    let n := y.here.f32Latency
    (y.landReg n d (BitVec.ofNat 64 r.1)).land n (.flags y.cur.slot r.2 y.cur.grp)

/-- The F32 value of a register: bits [31:0] (R149). -/
def Sys.f32 (s : Sys) (honour : Bool) (n : BitVec 5) : Val := FloatFmt.f32.decode honour (fld (s.own n) 0 32)

def execFadd (d a : BitVec 5) (o : BitVec 1) (m : BitVec 3) (b : BitVec 5) (s : State) : Host.Outcome State Fault Refusal :=
  s.f32Op [a, b] o m d fun y rm h => FloatFmt.f32.deliver rm h ((y.f32 h a).add rm (y.f32 h b))
def execFmul (d a : BitVec 5) (o : BitVec 1) (m : BitVec 3) (b : BitVec 5) (s : State) : Host.Outcome State Fault Refusal :=
  s.f32Op [a, b] o m d fun y rm h => FloatFmt.f32.deliver rm h ((y.f32 h a).mul (y.f32 h b))

/-- FMA: `rd` is the addend, read at issue; one rounding (R150). -/
def execFma (d a : BitVec 5) (o : BitVec 1) (m : BitVec 3) (b : BitVec 5) (s : State) : Host.Outcome State Fault Refusal :=
  s.f32Op [a, b, d] o m d fun y rm h => FloatFmt.f32.deliver rm h (Val.fma rm (y.f32 h a) (y.f32 h b) (y.f32 h d))

/-- The relation of FCMP's `sub` (R151). -/
def relOf (n : Nat) : Rel :=
  match n with
  | 0 => .eq
  | 1 => .ne
  | 2 => .lt
  | _ => .le

/-- FCMP: the truth in bit 0, absent in bit 1 (R151). -/
def execFcmp (d a : BitVec 5) (n : BitVec 5) (b : BitVec 5) (s : State) : Host.Outcome State Fault Refusal :=
  s.f32Op [a, b] 0 0 d fun y _ h =>
    let r := Elem.f32.compare (relOf n.toNat) h (fld (y.own a) 0 32) (fld (y.own b) 0 32)
    (boolNat r.1 + 2 * boolNat r.2, Flags.when r.2 .absentConsumed)

/-- Source and destination formats of FCVT's `sub` (R152). -/
def fcvtFmts (n : Nat) : Elem × Elem :=
  match n with
  | 0 => (.f32, .int ⟨true, 64⟩)
  | 1 => (.f32, .int ⟨false, 64⟩)
  | 2 => (.int ⟨true, 64⟩, .f32)
  | 3 => (.int ⟨false, 64⟩, .f32)
  | 4 => (.f32, .flt .f16)
  | 5 => (.flt .f16, .f32)
  | 6 => (.f32, .flt .b16)
  | _ => (.flt .b16, .f32)

/-- FCVT (R152, R71). -/
def execFcvt (d a : BitVec 5) (o : BitVec 1) (m : BitVec 3) (n : BitVec 5) (s : State) : Host.Outcome State Fault Refusal :=
  s.f32Op [a] o m d fun y rm h =>
    let f := fcvtFmts n.toNat
    convert f.1 f.2 rm h false ((y.own a).toNat % 2 ^ f.1.width)

end Sys2Proof.Machine
end

