-- ==== Sys2Proof/Machine/Address.lean ====
section
/-! DEFINITION. The address slot: R153 to R157. -/

namespace Sys2Proof.Machine

/-- PSET: the address lands in the following cycle and replaces any advance of it (R44, R153). -/
def execPset (p a : BitVec 5) (s : State) : Host.Outcome State Fault Refusal :=
  let y := s.sys
  s.issue (y.interlock false [a]) (y.range (y.here.addrOk p.toNat (fld (y.regA a) 0 28)))
    fun y => y.land 1 (.ptrAddr p.toNat ((y.regA a).setWidth 28))

/-- PSTEP: ra from −8,388,608 to 8,388,607 (R153). -/
def execPstep (p a : BitVec 5) (s : State) : Host.Outcome State Fault Refusal :=
  let y := s.sys
  let v := (y.regA a).toInt
  s.issue (y.interlock false [a])
    (y.range (decide (-8388608 ≤ v) && decide (v ≤ 8388607) && y.here.addrOk p.toNat (y.here.pointer p.toNat).addr.toNat))
    fun y => (y.keepPointer p.toNat).land 1 (.ptrStep p.toNat ((y.regA a).setWidth 24))

/-- PWIN: `mod` is ra[49:28], `wbase` ra[27:0] (R153). -/
def execPwin (p a : BitVec 5) (s : State) : Host.Outcome State Fault Refusal :=
  let y := s.sys
  s.issue (y.interlock false [a])
    (y.range (y.here.wrapOk p.toNat (fld (y.regA a) 0 28) (fld (y.regA a) 28 22) &&
      y.here.addrOk p.toNat (y.here.pointer p.toNat).addr.toNat))
    fun y => (y.keepPointer p.toNat).land 1 (.ptrWrap p.toNat ((y.regA a).setWidth 28) (BitVec.ofNat 22 (fld (y.regA a) 28 22)))

/-- PADV: a use with advance, the step taken n times (R154). -/
def execPadv (p : BitVec 5) (n : BitVec 16) (s : State) : Host.Outcome State Fault Refusal :=
  let y := s.sys
  s.issue none (y.range (n != 0 && (y.here.pointer p.toNat).usable p.toNat)) fun y => y.advance p.toNat n.toNat

/-- SPCFG: the register is written and `pos` goes to 0, effective the following cycle (R45, R155). -/
def execSpcfg (p : BitVec 4) (a : BitVec 5) (r : BitVec 2) (s : State) : Host.Outcome State Fault Refusal :=
  let y := s.sys
  s.issue (y.interlock false [a]) (y.range (portFieldOk r.toNat (y.regA a)))
    fun y => y.land 1 (.port p.toNat r.toNat (y.regA a))

/-- SPRST: `pos` goes to 0 in the following cycle (R155). -/
def execSprst (p : BitVec 4) (s : State) : Host.Outcome State Fault Refusal :=
  s.issue none [] fun y => y.land 1 (.port p.toNat 3 0)

/-- XLAT: XAn is cleared at issue + 1, and the probe's result lands after an off-core time, at most 640 cycles after issue (R157). An earlier outstanding probe of XAn is discarded. -/
def execXlat (x : BitVec 2) (a : BitVec 5) (s : State) : Host.Outcome State Fault Refusal :=
  s.issue (s.sys.interlock false [a]) [] fun y =>
    let va := y.regA a
    let w := y.latency
    let y := w.2.land 1 (.xaClear x.toNat)
    let due := y.wcyc + 2 + w.1 % 639
    let y := y.modHere fun k =>
      { k with probe := vset k.probe x.toNat (some y.cur.ord), probeVa := vset k.probeVa x.toNat va, probeDue := vset k.probeDue x.toNat due }
    { y with inbox := y.inbox ++ [(due, .xlatResult y.cur.core (Fin.ofNat 4 y.cur.ctx) x)] }

/-- XCLR: XAn ← 0 in the following cycle; any outstanding result is discarded (R157). -/
def execXclr (x : BitVec 2) (s : State) : Host.Outcome State Fault Refusal :=
  s.issue none [] fun y => (y.land 1 (.xaClear x.toNat)).modHere fun k => { k with probe := vset k.probe x.toNat none }

end Sys2Proof.Machine
end

