-- ==== Sys2Proof/Machine/Vector.lean ====
section
/-! DEFINITION. The lane-group words: R158 to R185. -/

namespace Sys2Proof.Machine

/-! ## What a word names and when it lands -/

/-- Landing classes (R160). -/
inductive LandClass where
  | o | s | x | w
  deriving DecidableEq, Repr

/-- Cycles from issue to the landing of beat 0, or of every beat for class W (R160). -/
def LandClass.base : LandClass → Nat
  | .o => 6 | .s => 14 | .x => 8 | .w => 22

/-- What a beat computes. An elementwise function takes the mode, whether subnormals are honoured, and the codes of va, vb and vd. -/
inductive VSem where
  /-- Each element of width w (R164 to R169). -/
  | elem (w : Nat) (f : Rm → Bool → Nat → Nat → Nat → Nat × Flags)
  /-- A comparison of each element (R166). -/
  | compare (w : Nat) (f : Bool → Nat → Nat → Bool × Bool)
  /-- A conversion that remaps rows (R171). -/
  | rows (src dst : Elem) (sat : Bool) (p : Nat)
  /-- VSEL (R177). -/
  | select
  | fromCn | toCn
  /-- A predicate function of (Ka, KAa, Kb, KAb): the new K and KA (R178). -/
  | pred (f : BitVec 16 → BitVec 16 → BitVec 16 → BitVec 16 → BitVec 16 × BitVec 16)
  /-- KMOV `.vk`, and `.kv` / `.av` (the flag). -/
  | predOfWords
  | wordsOfPred (absent : Bool)
  /-- CNTP of elements, or of a predicate. -/
  | count (e : Option Elem)
  /-- Words of the beat from the words of va and vb. -/
  | move (f : List W32 → List W32 → List W32)
  /-- Words of beat j from all beats of va and the words of vb (beat modes). -/
  | beats (f : List (List W32) → List W32 → List W32)
  | reduce (o : RedOp) (src dst : Elem) (acc : Bool)
  | topk (key : Elem)
  | qpack (n : Nat)
  | qunpk (n : Nat)

/-- A lane-group word: names, ports, predicates and what it computes. -/
structure VWord where
  k : BitVec 3
  /-- Vector destination, read as a source too when `readsD`. -/
  dst : Option (BitVec 6) := none
  readsD : Bool := false
  dst2 : Bool := false
  kdst : Option (BitVec 3) := none
  a : Option (BitVec 6) := none
  portA : Bool := false
  b : Option (BitVec 6) := none
  portB : Bool := false
  ka : Option (BitVec 3) := none
  kb : Option (BitVec 3) := none
  /-- CN read and written. -/
  cnIn : Bool := false
  cnOut : Bool := false
  /-- XG: relative, group number. -/
  group : Option (Bool × Nat) := none
  /-- Elements of 64 bits. -/
  wide : Bool := false
  cls : LandClass := .o
  /-- Further limits on sub-fields (R171). -/
  ok : Bool := true
  sem : VSem

/-- The float format of `fsel` (R107). -/
def fselFloat (f : BitVec 2) : FloatFmt :=
  match f.toNat with
  | 0 => .f32
  | 1 => .f16
  | _ => .b16

/-- The element width of `fsel` (R107). -/
def fselWidth (f : BitVec 2) : Nat := 8 * 2 ^ f.toNat

/-- A binary or fused floating-point word (R164). -/
def vFloat (k : BitVec 3) (d a b : BitVec 6) (p q : BitVec 1) (f : BitVec 2) (cls : LandClass) (readsD : Bool) (g : Rm → Val → Val → Val → Val) : VWord :=
  let e := fselFloat f
  { k := k, dst := some d, readsD := readsD, a := some a, portA := p == 1, b := some b, portB := q == 1, cls := cls,
    sem := .elem e.width fun rm h x y z => e.deliver rm h (g rm (e.decode h x) (e.decode h y) (e.decode h z)) }

/-- A unary floating-point word (R165). -/
def vUnary (k : BitVec 3) (d a : BitVec 6) (p : BitVec 1) (f : BitVec 2) (cls : LandClass) (g : Val → Val) : VWord :=
  let e := fselFloat f
  { k := k, dst := some d, a := some a, portA := p == 1, cls := cls,
    sem := .elem e.width fun rm h x _ _ => e.deliver rm h (g (e.decode h x)) }

/-- A comparison word (R166). -/
def vCompare (k d : BitVec 3) (a b : BitVec 6) (p q : BitVec 1) (e : Elem) (r : Rel) : VWord :=
  { k := k, kdst := some d, a := some a, portA := p == 1, b := some b, portB := q == 1, wide := e.width == 64,
    sem := .compare e.width fun h x y => e.compare r h x y }

/-- An integer word (R168). -/
def vInt (k : BitVec 3) (d a b : BitVec 6) (p q : BitVec 1) (signed : Bool) (f : BitVec 2) (o : IntOp) : VWord :=
  let e : IntFmt := ⟨signed, fselWidth f⟩
  { k := k, dst := some d, a := some a, portA := p == 1, b := some b, portB := q == 1, wide := e.width == 64,
    sem := .elem e.width fun _ _ x y _ => e.arith o x y }

/-- A raw-bit word of two sources (R169). -/
def vRaw (k : BitVec 3) (d a b : BitVec 6) (p q : BitVec 1) (f : BitVec 2) (g : Nat → Nat → Nat → Nat) : VWord :=
  let w := fselWidth f
  { k := k, dst := some d, a := some a, portA := p == 1, b := some b, portB := q == 1, wide := w == 64,
    sem := .elem w fun _ _ x y _ => (g w x y % 2 ^ w, .none) }

/-- A conversion word (R171 to R173). -/
def vConvert (k : BitVec 3) (d a : BitVec 6) (p : BitVec 1) (src dst : Elem) (sat : Bool) (n : Nat) : VWord :=
  let eq := src.width == dst.width
  { k := k, dst := some d, a := some a, portA := p == 1, wide := eq && src.width == 64, cls := if eq then .o else .w,
    ok := if eq then n == 0 else if dst.width < src.width then decide (n < src.width / dst.width) else decide (n < dst.width / src.width),
    sem := if eq then .elem src.width fun rm h x _ _ => convert src dst rm h sat x else .rows src dst sat n }

/-- A predicate word (R178). -/
def vPred (k d a b : BitVec 3) (two : Bool) (f : BitVec 16 → BitVec 16 → BitVec 16 → BitVec 16 → BitVec 16 × BitVec 16) : VWord :=
  { k := k, kdst := some d, ka := some a, kb := if two then some b else none, sem := .pred f }

/-- A word that moves the words of a beat (R179). -/
def vMove (k : BitVec 3) (d a : BitVec 6) (p : BitVec 1) (f : List W32 → List W32 → List W32) : VWord :=
  { k := k, dst := some d, a := some a, portA := p == 1, sem := .move f }

/-- The result format of a reduction (R181). -/
def reduceFmt (src : Elem) : Elem :=
  match src with
  | .flt _ => .f32
  | .int f => .int ⟨f.signed, 32⟩

/-- A reduction word (R181). -/
def vReduce (k : BitVec 3) (d a : BitVec 6) (c : BitVec 1) (x : BitVec 4) (p : BitVec 1) (o : RedOp) : VWord :=
  let src := Elem.ofCode x.toNat
  { k := k, dst := some d, readsD := c == 1, a := some a, portA := p == 1, cnIn := c == 1, cnOut := true, cls := .s,
    sem := .reduce o src (reduceFmt src) (c == 1) }

/-- Lane `l` of a beat. -/
def laneOf (ws : List W32) (l : Nat) : W32 := ws.getD l 0

/-- A beat whose lane l is given by a function. -/
def lanes (f : Nat → W32) : List W32 := (List.range 16).map f

/-- The low four bits of a lane: an index. -/
def laneIndex (ws : List W32) (l : Nat) : Nat := (laneOf ws l).toNat % 16

/-- The destination format of SRND's `mod` (R174). -/
def srndFmt (f : BitVec 2) : FloatFmt :=
  match f.toNat with
  | 0 => .f16
  | 1 => .b16
  | 2 => .e4
  | _ => .e5

/-- SRND on a word: the narrowed value as F32 (R174). -/
def srndWord (d : FloatFmt) (rm : Rm) (honour : Bool) (x r k : Nat) : Nat × Flags :=
  let n := stochastic d rm honour x r k
  ((FloatFmt.f32.deliver .rne true (d.decode true n.1)).1, n.2)

/-- The key format of TOPK (R182). -/
def topkFmt (f : BitVec 2) : Elem :=
  match f.toNat with
  | 0 => .f32
  | 1 => .int ⟨true, 32⟩
  | _ => .n32

/-- ANGOF on a word (R185). -/
def angofWord (honour : Bool) (x y : Nat) : Nat × Flags :=
  let a := FloatFmt.f32.decode honour x
  let b := FloatFmt.f32.decode honour y
  let absent := a == .absent || b == .absent
  let nan := a.isNan || b.isNan
  (if absent || nan then 0 else angleOf a b, Flags.when absent .absentConsumed ||| Flags.when nan .invalid)

/-- The signed value of w raw bits. -/
def rawSigned (w x : Nat) : Int := if x < 2 ^ (w - 1) then x else (x : Int) - 2 ^ w

/-- The word of a lane-group instruction. -/
def vwordOf : Instr → Option VWord
  | .vaddF k d a b p q f => some (vFloat k d a b p q f .o false fun rm x y _ => x.add rm y)
  | .vsubF k d a b p q f => some (vFloat k d a b p q f .o false fun rm x y _ => x.add rm y.negate)
  | .vmulF k d a b p q f => some (vFloat k d a b p q f .o false fun _ x y _ => x.mul y)
  | .vfmaF k d a b p q f => some (vFloat k d a b p q f .o true fun rm x y z => Val.fma rm x y z)
  | .vfmsF k d a b p q f => some (vFloat k d a b p q f .o true fun rm x y z => Val.fma rm x y z.negate)
  | .vfnmaF k d a b p q f => some (vFloat k d a b p q f .o true fun rm x y z => Val.fma rm x.negate y z)
  | .vdivF k d a b p q f => some (vFloat k d a b p q f .s false fun _ x y _ => x.div y)
  | .vsqrtF k d a p f => some (vUnary k d a p f .s Val.sqrt)
  | .vmaxF k d a b p q f => some (vFloat k d a b p q f .o false fun _ x y _ => x.max y)
  | .vminF k d a b p q f => some (vFloat k d a b p q f .o false fun _ x y _ => x.min y)
  | .vabsF k d a p f => some (vUnary k d a p f .o Val.abs)
  | .vnegF k d a p f => some (vUnary k d a p f .o Val.negate)
  | .vexp2F k d a p f => some (vUnary k d a p f .s Val.exp2)
  | .vlog2F k d a p f => some (vUnary k d a p f .s Val.log2)
  | .vrcpF k d a p f => some (vUnary k d a p f .s fun x => Val.one.div x)
  | .vrsqF k d a p f => some (vUnary k d a p f .s Val.rsqrt)
  | .vsinF k d a p f => some (vUnary k d a p f .s Val.sinPi)
  | .vcosF k d a p f => some (vUnary k d a p f .s Val.cosPi)
  | .vtanhF k d a p f => some (vUnary k d a p f .s Val.tanh)
  | .vcmpeqF k d a b p q f => some (vCompare k d a b p q (.flt (fselFloat f)) .eq)
  | .vcmpneF k d a b p q f => some (vCompare k d a b p q (.flt (fselFloat f)) .ne)
  | .vcmpltF k d a b p q f => some (vCompare k d a b p q (.flt (fselFloat f)) .lt)
  | .vcmpleF k d a b p q f => some (vCompare k d a b p q (.flt (fselFloat f)) .le)
  | .vclassF k d a p f =>
    let e := fselFloat f
    some { k := k, dst := some d, a := some a, portA := p == 1, sem := .elem e.width fun _ _ x _ _ => (e.classOf x, .none) }
  | .vaddS k d a b p q f => some (vInt k d a b p q true f .add)
  | .vsubS k d a b p q f => some (vInt k d a b p q true f .sub)
  | .vmulS k d a b p q f => some (vInt k d a b p q true f .mul)
  | .vmaxS k d a b p q f => some (vInt k d a b p q true f .max)
  | .vminS k d a b p q f => some (vInt k d a b p q true f .min)
  | .vcmpeqS k d a b p q f => some (vCompare k d a b p q (.int ⟨true, fselWidth f⟩) .eq)
  | .vcmpltS k d a b p q f => some (vCompare k d a b p q (.int ⟨true, fselWidth f⟩) .lt)
  | .vcmpleS k d a b p q f => some (vCompare k d a b p q (.int ⟨true, fselWidth f⟩) .le)
  | .vaddN k d a b p q f => some (vInt k d a b p q false f .add)
  | .vsubN k d a b p q f => some (vInt k d a b p q false f .sub)
  | .vmulN k d a b p q f => some (vInt k d a b p q false f .mul)
  | .vmaxN k d a b p q f => some (vInt k d a b p q false f .max)
  | .vminN k d a b p q f => some (vInt k d a b p q false f .min)
  | .vcmpeqN k d a b p q f => some (vCompare k d a b p q (.int ⟨false, fselWidth f⟩) .eq)
  | .vcmpltN k d a b p q f => some (vCompare k d a b p q (.int ⟨false, fselWidth f⟩) .lt)
  | .vcmpleN k d a b p q f => some (vCompare k d a b p q (.int ⟨false, fselWidth f⟩) .le)
  | .vand k d a b p q f => some (vRaw k d a b p q f fun _ x y => x &&& y)
  | .vor k d a b p q f => some (vRaw k d a b p q f fun _ x y => x ||| y)
  | .vxor k d a b p q f => some (vRaw k d a b p q f fun _ x y => x ^^^ y)
  | .vnot k d a p f => some { vRaw k d a 0 p 0 f (fun w x _ => 2 ^ w - 1 - x) with b := none }
  | .vshl k d a b p q f => some (vRaw k d a b p q f fun w x y => x * 2 ^ (y % w))
  | .vshr k d a b p q f => some (vRaw k d a b p q f fun w x y => x / 2 ^ (y % w))
  | .vsar k d a b p q f => some (vRaw k d a b p q f fun w x y => ((rawSigned w x / 2 ^ (y % w)) % 2 ^ w).toNat)
  | .vrot k d a b p q f => some (vRaw k d a b p q f fun w x y => x * 2 ^ (y % w) + x / 2 ^ (w - y % w))
  | .vcvt k d a s r x w n =>
    let e := Elem.ofCode x.toNat
    some (if r = 0 then vConvert k d a w .f32 e (s == 1) n.toNat else vConvert k d a w e .f32 (s == 1) n.toNat)
  | .vcvtw k d a w x p g n => some (vConvert k d a p (Elem.ofCode x.toNat) (.int ⟨g == 1, fselWidth w⟩) false n.toNat)
  | .srnd k d a r p f =>
    some { k := k, dst := some d, readsD := true, a := some a, portA := p == 1,
           sem := .elem 32 fun rm h x _ z => srndWord (srndFmt f) rm h z x (r.toNat + 1) }
  | .filla k d a x p =>
    let e := Elem.ofCode x.toNat
    some { k := k, dst := some d, readsD := true, a := some a, portA := p == 1, wide := e.width == 64,
           sem := .elem e.width fun _ _ x _ z => (if e.isAbsent x then z else x, .none) }
  | .mkabs k d x =>
    let e := Elem.ofCode x.toNat
    some { k := k, dst := some d, wide := e.width == 64, sem := .elem e.width fun _ _ _ _ _ => (e.absent, .none) }
  | .vsel k d a b p q => some { k := k, dst := some d, a := some a, portA := p == 1, b := some b, portB := q == 1, sem := .select }
  | .vmov k d a p f =>
    some { k := k, dst := some d, a := some a, portA := p == 1, wide := f == 3,
           sem := .elem (if f = 3 then 64 else 32) fun _ _ x _ _ => (x, .none) }
  | .vmovFromCn k d => some { k := k, dst := some d, cnIn := true, sem := .fromCn }
  | .vmovToCn k a p => some { k := k, a := some a, portA := p == 1, cnOut := true, sem := .toCn }
  | .kand k d a b => some (vPred k d a b true fun x m y n => (x &&& y &&& ~~~(m ||| n), m ||| n))
  | .kor k d a b => some (vPred k d a b true fun x m y n => ((x ||| y) &&& ~~~(m ||| n), m ||| n))
  | .kxor k d a b => some (vPred k d a b true fun x m y n => ((x ^^^ y) &&& ~~~(m ||| n), m ||| n))
  | .knot k d a => some (vPred k d a 0 false fun x m _ _ => (~~~x &&& ~~~m, m))
  | .kmov k d a => some (vPred k d a 0 false fun x m _ _ => (x, m))
  | .kmovVk k d a p => some { k := k, kdst := some d, a := some a, portA := p == 1, sem := .predOfWords }
  | .kmovKv k d a => some { k := k, dst := some d, ka := some a, sem := .wordsOfPred false }
  | .kmovAv k d a => some { k := k, dst := some d, ka := some a, sem := .wordsOfPred true }
  | .cntp k d a x p => some { k := k, dst := some d, a := some a, portA := p == 1, cnOut := true, sem := .count (some (Elem.ofCode x.toNat)) }
  | .cntpK k d a => some { k := k, dst := some d, ka := some a, cnOut := true, sem := .count none }
  | .vperm k d a b p q =>
    some { vMove k d a p (fun x y => lanes fun l => laneOf x (laneIndex y l)) with b := some b, portB := q == 1 }
  | .vpermB k d a b p q =>
    some { k := k, dst := some d, a := some a, portA := p == 1, b := some b, portB := q == 1, cls := .w,
           sem := .beats fun xs y => lanes fun l => laneOf (xs.getD (laneIndex y l) []) l }
  | .vbcast k d a i p => some (vMove k d a p fun x _ => lanes fun _ => laneOf x i.toNat)
  | .vbcastB k d a i p =>
    some { k := k, dst := some d, a := some a, portA := p == 1, cls := .w, sem := .beats fun xs _ => xs.getD i.toNat [] }
  | .vrotl k d a n p => some (vMove k d a p fun x _ => lanes fun l => laneOf x ((l + n.toNat) % 16))
  | .vrotlSh k d a n p => some (vMove k d a p fun x _ => lanes fun l => if l + n.toNat ≤ 15 then laneOf x (l + n.toNat) else 0)
  | .xg k d a g => some { vMove k d a 0 (fun x _ => x) with group := some (false, g.toNat), cls := .x }
  | .xgRel k d a n => some { vMove k d a 0 (fun x _ => x) with group := some (true, n.toNat), cls := .x }
  | .redadd k d a c x p => some (vReduce k d a c x p .add)
  | .redmul k d a c x p => some (vReduce k d a c x p .mul)
  | .redmax k d a c x p => some (vReduce k d a c x p .max)
  | .redmin k d a c x p => some (vReduce k d a c x p .min)
  | .redor k d a c x p => some (vReduce k d a c x p .or)
  | .redand k d a c x p => some (vReduce k d a c x p .and)
  | .topk k d a b p q f =>
    some { k := k, dst := some d, dst2 := true, a := some a, portA := p == 1, b := some b, portB := q == 1, cnOut := true, cls := .s,
           sem := .topk (topkFmt f) }
  | .qpack k d a n p => some { k := k, dst := some d, a := some a, portA := p == 1, cls := .w, sem := .qpack (n.toNat + 2) }
  | .qunpk k d a n => some { k := k, dst := some d, a := some a, sem := .qunpk (n.toNat + 2) }
  | .angof k d a b p q =>
    some { k := k, dst := some d, a := some a, portA := p == 1, b := some b, portB := q == 1, cls := .s,
           sem := .elem 32 fun _ h x y _ => angofWord h x y }
  | .vclmul k d a b p q f => some (vRaw k d a b p q f fun w x y => clmulNat w x y)
  | .vclmulh k d a b p q f => some (vRaw k d a b p q f fun w x y => clmulNat w x y / 2 ^ w)
  | _ => none

/-! ## The beats -/

/-- What a beat writes: beats of vd and of vd + 1 with write enables, predicates, CN entries, flags. -/
structure BeatOut where
  words : List (Nat × List (Option W32)) := []
  second : List (Nat × List (Option W32)) := []
  preds : List (Nat × BitVec 16 × BitVec 16 × BitVec 16) := []
  cn : List (Nat × W32) := []
  flags : Flags := 0

/-- Element `i` of width `w` of a word. -/
def subElem (w i : Nat) (x : W32) : Nat := x.toNat / 2 ^ (w * i) % 2 ^ w

/-- An elementwise function over the elements of one word. -/
def perWord (w : Nat) (f : Nat → Nat → Nat → Nat × Flags) (a b d : W32) : W32 × Flags :=
  (List.range (32 / w)).foldl (fun acc i =>
    let r := f (subElem w i a) (subElem w i b) (subElem w i d)
    (acc.1 ||| BitVec.ofNat 32 (r.1 % 2 ^ w * 2 ^ (w * i)), acc.2 ||| r.2)) (0, .none)

/-- Bit `l` of a 16-bit mask. -/
def laneBit (m : BitVec 16) (l : Nat) : Bool := m.toNat / 2 ^ l % 2 == 1

/-- A mask from a function of the lane. -/
def maskOf (f : Nat → Bool) : BitVec 16 :=
  BitVec.ofNat 16 ((List.range 16).foldl (fun acc l => acc + (if f l then 2 ^ l else 0)) 0)

/-- Words under their governing bits. -/
def governed (k : BitVec 16) (ws : List W32) : List (Option W32) :=
  (List.range 16).map fun l => if laneBit k l then some (laneOf ws l) else none

/-- The 64-bit element of a lane from the words of beats 2b and 2b + 1 (R39). -/
def pair64 (lo hi : List W32) (l : Nat) : Nat := (laneOf lo l).toNat + 2 ^ 32 * (laneOf hi l).toNat

/-- The flags of the written lanes. -/
def laneFlags (k : BitVec 16) (fs : List Flags) : Flags :=
  (List.range 16).foldl (fun acc l => if laneBit k l then acc ||| fs.getD l .none else acc) .none

/-- A beat of an elementwise function of at most 32 bits. -/
def beatElem (w : Nat) (f : Nat → Nat → Nat → Nat × Flags) (j : Nat) (r : BeatRead) : BeatOut :=
  let rs := (List.range 16).map fun l => perWord w f (laneOf r.a l) (laneOf r.b l) (laneOf r.d l)
  { words := [(j, governed r.k (rs.map (·.1)))], flags := laneFlags r.k (rs.map (·.2)) }

/-- Beats 2b and 2b + 1 of an elementwise function of 64 bits, under the bits of beat 2b (R161). -/
def beatElem64 (f : Nat → Nat → Nat → Nat × Flags) (j : Nat) (r0 r1 : BeatRead) : BeatOut :=
  let rs := (List.range 16).map fun l => f (pair64 r0.a r1.a l) (pair64 r0.b r1.b l) (pair64 r0.d r1.d l)
  { words := [(j - 1, governed r0.k (rs.map fun r => BitVec.ofNat 32 r.1)), (j, governed r0.k (rs.map fun r => BitVec.ofNat 32 (r.1 / 2 ^ 32)))],
    flags := laneFlags r0.k (rs.map (·.2)) }

/-- The comparison of a word: AND of the truths, OR of the absences (R166). -/
def compareWord (w : Nat) (f : Nat → Nat → Bool × Bool) (a b : W32) : Bool × Bool :=
  (List.range (32 / w)).foldl (fun acc i =>
    let r := f (subElem w i a) (subElem w i b)
    (acc.1 && r.1, acc.2 || r.2)) (true, false)

/-- The predicate results of a beat, with absent-consumed where a written position met absent. -/
def comparison (beats : List Nat) (k : BitVec 16) (rs : List (Bool × Bool)) : BeatOut :=
  let t := maskOf fun l => (rs.getD l (false, false)).1
  let x := maskOf fun l => (rs.getD l (false, false)).2
  { preds := beats.map fun j => (j, t, x, k), flags := Flags.when (x &&& k != 0) .absentConsumed }

/-- The elements of a beat in element order (R181). -/
def beatElems (w : Nat) (ws : List W32) : List Nat := ws.flatMap fun x => (List.range (32 / w)).map fun i => subElem w i x

/-- A reduction of a beat (R181). -/
def beatReduce (o : RedOp) (src dst : Elem) (acc : Bool) (rm : Rm) (honour : Bool) (j : Nat) (r : BeatRead) : BeatOut :=
  let enter (x : Nat) : Partial :=
    dst.input (src.isAbsent x) (match o with | .or | .and => x | _ => (convert src dst rm honour false x).1)
  let f := o.combine dst rm honour
  let t := treeReduce f ((beatElems src.width r.a).map enter) (dst.input true 0)
  let old : Partial := ⟨(laneOf r.d 0).toNat, r.cn.toNat, .none⟩
  let t := if acc then f old t else t
  { words := [(j, governed r.k (lanes fun _ => BitVec.ofNat 32 t.value))],
    cn := if laneBit r.k 0 then [(j, BitVec.ofNat 32 t.count)] else [],
    flags := if r.k = 0 then .none else dst.reduceFlags t }

/-- TOPK of a beat (R182): keys and indices, descending. -/
def beatTopk (key : Elem) (j : Nat) (r : BeatRead) : BeatOut :=
  let l := (List.range 16).map fun l =>
    (key.orderKey (laneOf r.a l).toNat, (laneOf r.b l).toNat * 16 + l, (laneOf r.a l).toNat, (laneOf r.b l).toNat)
  let s := sortKeys l
  let n := (l.filter fun e => !key.isAbsent e.2.2.1).length
  let ent (i : Nat) : Nat × Nat × Nat × Nat := s.getD i (0, 0, 0, 0)
  { words := [(j, governed r.k (lanes fun i => BitVec.ofNat 32 (if i < n then key.keyOut (ent i).2.2.1 else key.absent)))],
    second := [(j, governed r.k (lanes fun i => if i < n then BitVec.ofNat 32 (ent i).2.2.2 else 0xFFFFFFFF))],
    cn := if laneBit r.k 0 then [(j, BitVec.ofNat 32 n)] else [] }

/-- The bits of the governing predicate of a beat; beats not read govern nothing. -/
def beatK (rs : List BeatRead) (j : Nat) : BitVec 16 := (rs.getD j default).k

/-- Row i of width w: beat and bit position in a lane's word (R40, R171). -/
def rowPlace (w i : Nat) : Nat × Nat := (i * w / 32, i * w % 32)

/-- The element of row i and lane l in a register image of sixteen beats. -/
def rowElem (w : Nat) (beats : List (List W32)) (i l : Nat) : Nat :=
  let p := rowPlace w i
  if w = 64 then pair64 (beats.getD p.1 []) (beats.getD (p.1 + 1) []) l
  else (laneOf (beats.getD p.1 []) l).toNat / 2 ^ p.2 % 2 ^ w

/-- A conversion that remaps rows: destination beat j, from the source beats (R171, R172, R173). Each destination element takes source row p·m + i or i. -/
def rowsBeat (src dst : Elem) (sat : Bool) (p : Nat) (rm : Rm) (honour : Bool) (beats : List (List W32)) (j l : Nat) : List (Nat × Flags) :=
  let ws := src.width
  let wd := dst.width
  let per := if wd = 64 then 1 else 32 / wd
  let first := if wd = 64 then j / 2 else j * per
  (List.range per).map fun e =>
    let row := first + e
    let from_ := if wd < ws then row - p * (512 / ws) else p * (512 / wd) + row
    convert src dst rm honour sat (rowElem ws beats from_ l)

/-- The destination beats that a narrowing conversion writes (R171). -/
def rowsWritten (ws wd p : Nat) : List Nat :=
  if wd < ws then (List.range (16 * wd / ws)).map fun i => p * (16 * wd / ws) + i else List.range 16

/-- All beats of a conversion that remaps rows. -/
def beatRows (src dst : Elem) (sat : Bool) (p : Nat) (rm : Rm) (honour : Bool) (rs : List BeatRead) : BeatOut :=
  let beats := rs.map (·.a)
  let wd := dst.width
  let outs := (rowsWritten src.width wd p).map fun j =>
    let k := if wd = 64 then beatK rs (j - j % 2) else beatK rs j
    let vals := (List.range 16).map fun l => rowsBeat src dst sat p rm honour beats j l
    let word (es : List (Nat × Flags)) : W32 :=
      if wd = 64 then BitVec.ofNat 32 ((es.headD (0, .none)).1 / 2 ^ (32 * (j % 2)))
      else BitVec.ofNat 32 (es.foldr (fun e acc => e.1 % 2 ^ wd + 2 ^ wd * acc) 0)
    ((j, governed k (vals.map word)), laneFlags k (vals.map fun es => es.foldl (fun acc e => acc ||| e.2) .none))
  { words := outs.map (·.1), flags := outs.foldl (fun acc o => acc ||| o.2) .none }

/-- The F32 values of beat j of va as sixteen elements. -/
def beatVals (honour : Bool) (r : BeatRead) : List Val := (List.range 16).map fun l => FloatFmt.f32.decode honour (laneOf r.a l).toNat

/-- QPACK: block b of the image from beat b (R184). Flags are those of the blocks any of whose words is written. -/
def beatQpack (n : Nat) (rm : Rm) (honour : Bool) (rs : List BeatRead) : BeatOut :=
  let blocks := rs.map fun r => qEncode n rm (beatVals honour r)
  let image : List Byte := blocks.flatMap fun b => BitVec.ofNat 8 b.1 :: leBytes (2 * n) (qField n b.2.1)
  let image := image ++ List.replicate (1024 - image.length) 0
  { words := (List.range 16).map fun j => (j, governed (beatK rs j) (words32 16 (image.drop (64 * j)))),
    flags := (List.range 16).foldl (fun acc b =>
      let lo := b * (1 + 2 * n) / 4
      let hi := (b * (1 + 2 * n) + 2 * n) / 4
      if (List.range (hi + 1 - lo)).any (fun i => laneBit (beatK rs ((lo + i) / 16)) ((lo + i) % 16))
      then acc ||| (blocks.getD b (0, [], .none)).2.2 else acc) .none }

/-- QUNPK: beat b from block b of the image read so far (R183). An absent element is a conversion that writes absent (R72, R73); that a value below 2^−126 counts as a tiny result is the model's choice (log 60). -/
def beatQunpk (n : Nat) (honour : Bool) (j : Nat) (rs : List BeatRead) : BeatOut :=
  let image := bytes32 (rs.flatMap (·.a))
  let block := (image.drop (j * (1 + 2 * n))).take (1 + 2 * n)
  let e := leNat (block.take 1)
  let field := leNat (block.drop 1)
  let k := beatK rs j
  let vals := (List.range 16).map fun i => FloatFmt.f32.deliver .rne honour (qDecode n e (qMantissa n field i))
  { words := [(j, governed k (vals.map fun v => BitVec.ofNat 32 v.1))],
    flags := laneFlags k (vals.map (·.2)) }

/-- What a word writes when its beat j has been read; `rs` holds beats 0 to j. -/
def VWord.beat (v : VWord) (rm : Rm) (honour : Bool) (rs : List BeatRead) : BeatOut :=
  let j := rs.length - 1
  let r := rs.getD j default
  let odd := j % 2 == 1
  let last := j == 15
  match v.sem with
  | .elem w f =>
    if w = 64 then (if odd then beatElem64 (f rm honour) j (rs.getD (j - 1) default) r else {})
    else beatElem w (f rm honour) j r
  | .compare w f =>
    if w = 64 then
      if odd then
        let r0 := rs.getD (j - 1) default
        comparison [j - 1, j] r0.k ((List.range 16).map fun l => f honour (pair64 r0.a r.a l) (pair64 r0.b r.b l))
      else {}
    else comparison [j] r.k ((List.range 16).map fun l => compareWord w (f honour) (laneOf r.a l) (laneOf r.b l))
  | .rows src dst sat p => if last then beatRows src dst sat p rm honour rs else {}
  | .select => { words := [(j, (lanes fun l => if laneBit r.k l then laneOf r.a l else laneOf r.b l).map some)] }
  | .fromCn => { words := [(j, governed r.k (lanes fun _ => r.cn))] }
  | .toCn => { cn := if laneBit r.k 0 then [(j, laneOf r.a 0)] else [] }
  | .pred f => { preds := [(j, (f r.ka r.kaa r.kb r.kab).1, (f r.ka r.kaa r.kb r.kab).2, r.k)] }
  | .predOfWords => { preds := [(j, maskOf fun l => laneOf r.a l != 0, 0, r.k)] }
  | .wordsOfPred absent => { words := [(j, governed r.k (lanes fun l => if laneBit (if absent then r.kaa else r.ka) l then 1 else 0))] }
  | .count e =>
    let n := match e with
      | some e => ((beatElems e.width r.a).filter fun x => !e.isAbsent x).length
      | none => popNat 16 r.ka.toNat
    { words := [(j, governed r.k (lanes fun _ => BitVec.ofNat 32 n))], cn := if laneBit r.k 0 then [(j, BitVec.ofNat 32 n)] else [] }
  | .move f => { words := [(j, governed r.k (f r.a r.b))] }
  | .beats f =>
    if last then { words := (List.range 16).map fun b => (b, governed (beatK rs b) (f (rs.map (·.a)) (rs.getD b default).b)) } else {}
  | .reduce o src dst acc => beatReduce o src dst acc rm honour j r
  | .topk key => beatTopk key j r
  | .qpack n => if last then beatQpack n rm honour rs else {}
  | .qunpk n => beatQunpk n honour j rs

/-! ## Reading a beat -/

/-- The 16 bits of beat j of a predicate; K0 reads as all ones (R42). -/
def LaneRegs.kBeat (l : LaneRegs) (k j : Nat) : BitVec 16 := if k = 0 then BitVec.allOnes 16 else BitVec.ofNat 16 ((vget l.k k).toNat / 2 ^ (16 * j))

/-- The 16 bits of beat j of an absent mask; KA0 reads as all zeros (R42). -/
def LaneRegs.kaBeat (l : LaneRegs) (k j : Nat) : BitVec 16 := if k = 0 then 0 else BitVec.ofNat 16 ((vget l.ka k).toNat / 2 ^ (16 * j))

/-- What the word in flight in lane group `lg` of core `g` reads as beat j (R36, R48, R161). -/
def InFlight.read (w : InFlight) (v : VWord) (m : Memory) (g lg : Nat) (regs : LaneRegs) (j : Nat) : BeatRead :=
  let source (name : Option (BitVec 6)) (pop : Option (List Nat)) (group reg : Nat) : List W32 :=
    match name with
    | none => []
    | some _ =>
      match pop with
      | some addrs => words32 16 (m.bytes (scratchKey g (addrs.getD j 0)) 64)
      | none => m.beat g group reg j
  { a := source v.a w.popA w.srcGroup w.va
    b := source v.b w.popB lg w.vb
    d := if v.readsD then m.beat g lg w.vd j else []
    k := regs.kBeat v.k.toNat j
    ka := match v.ka with | some n => regs.kBeat n.toNat j | none => 0
    kaa := match v.ka with | some n => regs.kaBeat n.toNat j | none => 0
    kb := match v.kb with | some n => regs.kBeat n.toNat j | none => 0
    kab := match v.kb with | some n => regs.kaBeat n.toNat j | none => 0
    cn := vget regs.cn j }

/-- The landings of what a beat writes (R160, R163, R23): after `wait` cycles from now. -/
def InFlight.landings (w : InFlight) (v : VWord) (lg : Nat) (o : BeatOut) : List Act :=
  o.words.map (fun p => .beat lg w.vd p.1 p.2) ++ o.second.map (fun p => .beat lg w.vd1 p.1 p.2) ++
  (match v.kdst with
    | some n => o.preds.map fun p => .pred lg n.toNat p.1 p.2.1 p.2.2.1 p.2.2.2
    | none => []) ++
  o.cn.map (fun p => .cn lg p.1 p.2) ++
  (if o.flags = .none then [] else [.flags (10 + lg) o.flags w.grp])

/-! ## Issue -/

/-- The physical register of a vector name (R19, R25). -/
def Ctx.physVec (k : Ctx) (n : Nat) : Nat := k.win.vbase + k.regs.rotb.physV k.win.vwin n

/-- Every vector register a word names lies in the window (R162). -/
def VWord.named (v : VWord) (vwin : Nat) : Bool :=
  let below (n : Option (BitVec 6)) (port : Bool) : Bool := match n with | some n => port || decide (n.toNat < vwin) | none => true
  below v.dst false && below v.a v.portA && below v.b v.portB &&
    (!v.dst2 || (match v.dst with | some d => decide (d.toNat + 1 < vwin) | none => true))

/-- The ports a word pops, each once (R47). -/
def VWord.ports (v : VWord) : List Nat :=
  let a := match v.a with | some n => if v.portA then [n.toNat % 16] else [] | none => []
  let b := match v.b with | some n => if v.portB then [n.toNat % 16] else [] | none => []
  match a, b with
  | [x], [y] => if x = y then [x] else [x, y]
  | _, _ => a ++ b

/-- The sixteen addresses of a pop of the port a source names. -/
def popOf (k : Ctx) (name : Option (BitVec 6)) (port : Bool) : Option (List Nat) :=
  match name with
  | some n => if port then some ((vget k.regs.port (n.toNat % 16)).popAddrs.map Int.toNat) else none
  | none => none

/-- Some word of an earlier group of the context is under way in a lane group, with a property (R23). -/
def Sys.wordPending (s : Sys) (lg : Nat) (p : InFlight → VWord → Bool) : Bool :=
  let mine (w : InFlight) : Bool := s.earlier s.cur.core w.ctx w.ord && (match vwordOf w.instr with | some v => p w v | none => false)
  (vget s.hereCore.lane lg).any mine

/-- A physical vector register of a lane group has a result to come (R23). -/
def Sys.pendingVec (s : Sys) (lg reg : Nat) : Bool :=
  (s.agenda.any fun e => s.earlier e.core e.ctx e.ord && (match e.act with | .beat g r _ _ => g == lg && r == reg | _ => false)) ||
    s.wordPending lg fun w v => v.dst.isSome && (w.vd == reg || (v.dst2 && w.vd1 == reg))

/-- Predicate `n` of a lane group has a result to come. -/
def Sys.pendingPred (s : Sys) (lg n : Nat) : Bool :=
  (s.agenda.any fun e => s.earlier e.core e.ctx e.ord && (match e.act with | .pred g r _ _ _ _ => g == lg && r == n | _ => false)) ||
    s.wordPending lg fun _ v => v.kdst.any fun d => d.toNat == n

/-- CN of a lane group has a result to come. -/
def Sys.pendingCn (s : Sys) (lg : Nat) : Bool :=
  (s.agenda.any fun e => s.earlier e.core e.ctx e.ord && (match e.act with | .cn g _ _ => g == lg | _ => false)) ||
    s.wordPending lg fun _ v => v.cnOut

/-- The lane group whose registers va names (R180). -/
def VWord.sourceGroup (v : VWord) (lg : Nat) : Nat :=
  match v.group with
  | some (false, g) => g
  | some (true, n) => (lg + n) % 8
  | none => lg

/-- Inside an interlocked level a word waits while a register it reads has a result to come (R23); a register waits as a whole (log 13). -/
def Sys.vectorInterlock (s : Sys) (v : VWord) (lg : Nat) : Bool :=
  let k := s.here
  let vec (g : Nat) (n : Option (BitVec 6)) (port : Bool) : Bool :=
    match n with
    | some n => !port && s.pendingVec g (k.physVec n.toNat)
    | none => false
  let prd (n : Option (BitVec 3)) : Bool := match n with | some n => s.pendingPred lg n.toNat | none => false
  k.interlocked &&
    (vec (v.sourceGroup lg) v.a v.portA || vec lg v.b v.portB || (v.readsD && vec lg v.dst false) ||
      prd (some v.k) || prd v.ka || prd v.kb || (v.cnIn && s.pendingCn lg))

/-- A register that the open region is to write has a shadow; it is filled as the first write lands, in shared mode (R328). -/
def Ctx.shadow (k : Ctx) (lg reg : Nat) : Ctx :=
  if k.region.open_ && !(k.region.shadows.any fun p => p.1 == lg && p.2.1 == reg) then
    { k with region := { k.region with shadows := k.region.shadows ++ [(lg, reg, [])] } }
  else k

/-- The registers of a lane group that a word writes. -/
def VWord.writes (v : VWord) (k : Ctx) : List Nat :=
  match v.dst with
  | some d => k.physVec d.toNat :: (if v.dst2 then [k.physVec (d.toNat + 1)] else [])
  | none => []

/-- Lane group `lg` takes a word: its names resolve, its ports pop, and it is busy for sixteen cycles (R25, R47, R159). -/
def Sys.startWord (s : Sys) (i : Instr) (v : VWord) (lg : Nat) : Sys :=
  let k := s.here
  let num (n : Option (BitVec 6)) : Nat := match n with | some n => k.physVec n.toNat | none => 0
  let w : InFlight :=
    { ctx := s.cur.ctx, instr := i, issued := s.t, ord := s.cur.ord / 32 * 32 + 10 + lg, slot := 10 + lg, grp := s.cur.grp, rm := k.regs.rm, honour := k.interlocked,
      extra := if k.interlocked then 2 else 0, vd := num v.dst, va := num v.a, vb := num v.b,
      vd1 := match v.dst with | some d => k.physVec (d.toNat + 1) | none => 0,
      srcGroup := v.sourceGroup lg, popA := popOf k v.a v.portA, popB := popOf k v.b v.portB }
  let s := s.modHere fun k => (v.writes k).foldl (fun k r => k.shadow lg r) k
  let s := v.ports.foldl Sys.pop s
  s.modHereCore fun c => { c with lane := vset c.lane lg (some w) }

/-- A lane group is busy: a word is in it, or a word of the context that a stop set aside still holds it (R35, R159). -/
def Sys.laneBusy (s : Sys) (lg : Nat) : Bool := (vget s.hereCore.lane lg).isSome || decide (s.t < vget s.here.laneUntil lg)

/-- The faults of a word in its lane groups, the pops served in order (R47, R162). -/
def vectorFaults (v : VWord) (s : Sys) (lgs : List Nat) : List FaultRec :=
  match lgs with
  | [] => []
  | lg :: rest =>
    let at_ (f : FaultRec) : FaultRec := { f with slot := 10 + lg }
    let ports := v.ports.all fun n => (vget s.here.regs.port n).popOk
    let busy := s.laneBusy lg && s.here.timed
    (s.range (v.ok && v.named s.here.win.vwin && ports)).map at_ ++ (s.limit (!busy) 5 1).map at_ ++
      vectorFaults v (v.ports.foldl Sys.pop s) rest

/-- A lane-group word: every lane group of the cursor takes it (R100, R158 to R163). -/
def State.vector (s : State) (i : Instr) : Host.Outcome State Fault Refusal :=
  match vwordOf i with
  | none => .next s
  | some v =>
    let y := s.sys
    let lgs := y.cur.lanes
    let wait := lgs.any fun lg => y.vectorInterlock v lg || (y.laneBusy lg && !y.here.timed)
    s.issue (if wait then some false else none) (vectorFaults v y lgs) fun y => lgs.foldl (fun y lg => y.startWord i v lg) y

/-- VADD_F (R164). -/
def execVaddF (k : BitVec 3) (d a b : BitVec 6) (p q : BitVec 1) (f : BitVec 2) (s : State) : Host.Outcome State Fault Refusal := s.vector (.vaddF k d a b p q f)

/-- VSUB_F (R164). -/
def execVsubF (k : BitVec 3) (d a b : BitVec 6) (p q : BitVec 1) (f : BitVec 2) (s : State) : Host.Outcome State Fault Refusal := s.vector (.vsubF k d a b p q f)

/-- VMUL_F (R164). -/
def execVmulF (k : BitVec 3) (d a b : BitVec 6) (p q : BitVec 1) (f : BitVec 2) (s : State) : Host.Outcome State Fault Refusal := s.vector (.vmulF k d a b p q f)

/-- VFMA_F (R164). -/
def execVfmaF (k : BitVec 3) (d a b : BitVec 6) (p q : BitVec 1) (f : BitVec 2) (s : State) : Host.Outcome State Fault Refusal := s.vector (.vfmaF k d a b p q f)

/-- VFMS_F (R164). -/
def execVfmsF (k : BitVec 3) (d a b : BitVec 6) (p q : BitVec 1) (f : BitVec 2) (s : State) : Host.Outcome State Fault Refusal := s.vector (.vfmsF k d a b p q f)

/-- VFNMA_F (R164). -/
def execVfnmaF (k : BitVec 3) (d a b : BitVec 6) (p q : BitVec 1) (f : BitVec 2) (s : State) : Host.Outcome State Fault Refusal := s.vector (.vfnmaF k d a b p q f)

/-- VDIV_F (R164). -/
def execVdivF (k : BitVec 3) (d a b : BitVec 6) (p q : BitVec 1) (f : BitVec 2) (s : State) : Host.Outcome State Fault Refusal := s.vector (.vdivF k d a b p q f)

/-- VSQRT_F (R165). -/
def execVsqrtF (k : BitVec 3) (d a : BitVec 6) (p : BitVec 1) (f : BitVec 2) (s : State) : Host.Outcome State Fault Refusal := s.vector (.vsqrtF k d a p f)

/-- VMAX_F (R164). -/
def execVmaxF (k : BitVec 3) (d a b : BitVec 6) (p q : BitVec 1) (f : BitVec 2) (s : State) : Host.Outcome State Fault Refusal := s.vector (.vmaxF k d a b p q f)

/-- VMIN_F (R164). -/
def execVminF (k : BitVec 3) (d a b : BitVec 6) (p q : BitVec 1) (f : BitVec 2) (s : State) : Host.Outcome State Fault Refusal := s.vector (.vminF k d a b p q f)

/-- VABS_F (R165). -/
def execVabsF (k : BitVec 3) (d a : BitVec 6) (p : BitVec 1) (f : BitVec 2) (s : State) : Host.Outcome State Fault Refusal := s.vector (.vabsF k d a p f)

/-- VNEG_F (R165). -/
def execVnegF (k : BitVec 3) (d a : BitVec 6) (p : BitVec 1) (f : BitVec 2) (s : State) : Host.Outcome State Fault Refusal := s.vector (.vnegF k d a p f)

/-- VEXP2_F (R165). -/
def execVexp2F (k : BitVec 3) (d a : BitVec 6) (p : BitVec 1) (f : BitVec 2) (s : State) : Host.Outcome State Fault Refusal := s.vector (.vexp2F k d a p f)

/-- VLOG2_F (R165). -/
def execVlog2F (k : BitVec 3) (d a : BitVec 6) (p : BitVec 1) (f : BitVec 2) (s : State) : Host.Outcome State Fault Refusal := s.vector (.vlog2F k d a p f)

/-- VRCP_F (R165). -/
def execVrcpF (k : BitVec 3) (d a : BitVec 6) (p : BitVec 1) (f : BitVec 2) (s : State) : Host.Outcome State Fault Refusal := s.vector (.vrcpF k d a p f)

/-- VRSQ_F (R165). -/
def execVrsqF (k : BitVec 3) (d a : BitVec 6) (p : BitVec 1) (f : BitVec 2) (s : State) : Host.Outcome State Fault Refusal := s.vector (.vrsqF k d a p f)

/-- VSIN_F (R165). -/
def execVsinF (k : BitVec 3) (d a : BitVec 6) (p : BitVec 1) (f : BitVec 2) (s : State) : Host.Outcome State Fault Refusal := s.vector (.vsinF k d a p f)

/-- VCOS_F (R165). -/
def execVcosF (k : BitVec 3) (d a : BitVec 6) (p : BitVec 1) (f : BitVec 2) (s : State) : Host.Outcome State Fault Refusal := s.vector (.vcosF k d a p f)

/-- VTANH_F (R165). -/
def execVtanhF (k : BitVec 3) (d a : BitVec 6) (p : BitVec 1) (f : BitVec 2) (s : State) : Host.Outcome State Fault Refusal := s.vector (.vtanhF k d a p f)

/-- VCMPEQ_F (R166). -/
def execVcmpeqF (k d : BitVec 3) (a b : BitVec 6) (p q : BitVec 1) (f : BitVec 2) (s : State) : Host.Outcome State Fault Refusal := s.vector (.vcmpeqF k d a b p q f)

/-- VCMPNE_F (R166). -/
def execVcmpneF (k d : BitVec 3) (a b : BitVec 6) (p q : BitVec 1) (f : BitVec 2) (s : State) : Host.Outcome State Fault Refusal := s.vector (.vcmpneF k d a b p q f)

/-- VCMPLT_F (R166). -/
def execVcmpltF (k d : BitVec 3) (a b : BitVec 6) (p q : BitVec 1) (f : BitVec 2) (s : State) : Host.Outcome State Fault Refusal := s.vector (.vcmpltF k d a b p q f)

/-- VCMPLE_F (R166). -/
def execVcmpleF (k d : BitVec 3) (a b : BitVec 6) (p q : BitVec 1) (f : BitVec 2) (s : State) : Host.Outcome State Fault Refusal := s.vector (.vcmpleF k d a b p q f)

/-- VCLASS_F (R167). -/
def execVclassF (k : BitVec 3) (d a : BitVec 6) (p : BitVec 1) (f : BitVec 2) (s : State) : Host.Outcome State Fault Refusal := s.vector (.vclassF k d a p f)

/-- VADD_S (R168). -/
def execVaddS (k : BitVec 3) (d a b : BitVec 6) (p q : BitVec 1) (f : BitVec 2) (s : State) : Host.Outcome State Fault Refusal := s.vector (.vaddS k d a b p q f)

/-- VSUB_S (R168). -/
def execVsubS (k : BitVec 3) (d a b : BitVec 6) (p q : BitVec 1) (f : BitVec 2) (s : State) : Host.Outcome State Fault Refusal := s.vector (.vsubS k d a b p q f)

/-- VMUL_S (R168). -/
def execVmulS (k : BitVec 3) (d a b : BitVec 6) (p q : BitVec 1) (f : BitVec 2) (s : State) : Host.Outcome State Fault Refusal := s.vector (.vmulS k d a b p q f)

/-- VMAX_S (R168). -/
def execVmaxS (k : BitVec 3) (d a b : BitVec 6) (p q : BitVec 1) (f : BitVec 2) (s : State) : Host.Outcome State Fault Refusal := s.vector (.vmaxS k d a b p q f)

/-- VMIN_S (R168). -/
def execVminS (k : BitVec 3) (d a b : BitVec 6) (p q : BitVec 1) (f : BitVec 2) (s : State) : Host.Outcome State Fault Refusal := s.vector (.vminS k d a b p q f)

/-- VCMPEQ_S (R166). -/
def execVcmpeqS (k d : BitVec 3) (a b : BitVec 6) (p q : BitVec 1) (f : BitVec 2) (s : State) : Host.Outcome State Fault Refusal := s.vector (.vcmpeqS k d a b p q f)

/-- VCMPLT_S (R166). -/
def execVcmpltS (k d : BitVec 3) (a b : BitVec 6) (p q : BitVec 1) (f : BitVec 2) (s : State) : Host.Outcome State Fault Refusal := s.vector (.vcmpltS k d a b p q f)

/-- VCMPLE_S (R166). -/
def execVcmpleS (k d : BitVec 3) (a b : BitVec 6) (p q : BitVec 1) (f : BitVec 2) (s : State) : Host.Outcome State Fault Refusal := s.vector (.vcmpleS k d a b p q f)

/-- VADD_N (R168). -/
def execVaddN (k : BitVec 3) (d a b : BitVec 6) (p q : BitVec 1) (f : BitVec 2) (s : State) : Host.Outcome State Fault Refusal := s.vector (.vaddN k d a b p q f)

/-- VSUB_N (R168). -/
def execVsubN (k : BitVec 3) (d a b : BitVec 6) (p q : BitVec 1) (f : BitVec 2) (s : State) : Host.Outcome State Fault Refusal := s.vector (.vsubN k d a b p q f)

/-- VMUL_N (R168). -/
def execVmulN (k : BitVec 3) (d a b : BitVec 6) (p q : BitVec 1) (f : BitVec 2) (s : State) : Host.Outcome State Fault Refusal := s.vector (.vmulN k d a b p q f)

/-- VMAX_N (R168). -/
def execVmaxN (k : BitVec 3) (d a b : BitVec 6) (p q : BitVec 1) (f : BitVec 2) (s : State) : Host.Outcome State Fault Refusal := s.vector (.vmaxN k d a b p q f)

/-- VMIN_N (R168). -/
def execVminN (k : BitVec 3) (d a b : BitVec 6) (p q : BitVec 1) (f : BitVec 2) (s : State) : Host.Outcome State Fault Refusal := s.vector (.vminN k d a b p q f)

/-- VCMPEQ_N (R166). -/
def execVcmpeqN (k d : BitVec 3) (a b : BitVec 6) (p q : BitVec 1) (f : BitVec 2) (s : State) : Host.Outcome State Fault Refusal := s.vector (.vcmpeqN k d a b p q f)

/-- VCMPLT_N (R166). -/
def execVcmpltN (k d : BitVec 3) (a b : BitVec 6) (p q : BitVec 1) (f : BitVec 2) (s : State) : Host.Outcome State Fault Refusal := s.vector (.vcmpltN k d a b p q f)

/-- VCMPLE_N (R166). -/
def execVcmpleN (k d : BitVec 3) (a b : BitVec 6) (p q : BitVec 1) (f : BitVec 2) (s : State) : Host.Outcome State Fault Refusal := s.vector (.vcmpleN k d a b p q f)

/-- VAND (R169). -/
def execVand (k : BitVec 3) (d a b : BitVec 6) (p q : BitVec 1) (f : BitVec 2) (s : State) : Host.Outcome State Fault Refusal := s.vector (.vand k d a b p q f)

/-- VOR (R169). -/
def execVor (k : BitVec 3) (d a b : BitVec 6) (p q : BitVec 1) (f : BitVec 2) (s : State) : Host.Outcome State Fault Refusal := s.vector (.vor k d a b p q f)

/-- VXOR (R169). -/
def execVxor (k : BitVec 3) (d a b : BitVec 6) (p q : BitVec 1) (f : BitVec 2) (s : State) : Host.Outcome State Fault Refusal := s.vector (.vxor k d a b p q f)

/-- VNOT (R169). -/
def execVnot (k : BitVec 3) (d a : BitVec 6) (p : BitVec 1) (f : BitVec 2) (s : State) : Host.Outcome State Fault Refusal := s.vector (.vnot k d a p f)

/-- VSHL (R169). -/
def execVshl (k : BitVec 3) (d a b : BitVec 6) (p q : BitVec 1) (f : BitVec 2) (s : State) : Host.Outcome State Fault Refusal := s.vector (.vshl k d a b p q f)

/-- VSHR (R169). -/
def execVshr (k : BitVec 3) (d a b : BitVec 6) (p q : BitVec 1) (f : BitVec 2) (s : State) : Host.Outcome State Fault Refusal := s.vector (.vshr k d a b p q f)

/-- VSAR (R169). -/
def execVsar (k : BitVec 3) (d a b : BitVec 6) (p q : BitVec 1) (f : BitVec 2) (s : State) : Host.Outcome State Fault Refusal := s.vector (.vsar k d a b p q f)

/-- VROT (R169). -/
def execVrot (k : BitVec 3) (d a b : BitVec 6) (p q : BitVec 1) (f : BitVec 2) (s : State) : Host.Outcome State Fault Refusal := s.vector (.vrot k d a b p q f)

/-- VCVT (R172). -/
def execVcvt (k : BitVec 3) (d a : BitVec 6) (s_ r : BitVec 1) (x : BitVec 4) (w : BitVec 1) (n : BitVec 2) (s : State) : Host.Outcome State Fault Refusal := s.vector (.vcvt k d a s_ r x w n)

/-- VCVTW (R173). -/
def execVcvtw (k : BitVec 3) (d a : BitVec 6) (w : BitVec 2) (x : BitVec 4) (p g : BitVec 1) (n : BitVec 2) (s : State) : Host.Outcome State Fault Refusal := s.vector (.vcvtw k d a w x p g n)

/-- SRND (R174). -/
def execSrnd (k : BitVec 3) (d a : BitVec 6) (r : BitVec 5) (p : BitVec 1) (f : BitVec 2) (s : State) : Host.Outcome State Fault Refusal := s.vector (.srnd k d a r p f)

/-- FILLA (R175). -/
def execFilla (k : BitVec 3) (d a : BitVec 6) (x : BitVec 4) (p : BitVec 1) (s : State) : Host.Outcome State Fault Refusal := s.vector (.filla k d a x p)

/-- MKABS (R175). -/
def execMkabs (k : BitVec 3) (d : BitVec 6) (x : BitVec 4) (s : State) : Host.Outcome State Fault Refusal := s.vector (.mkabs k d x)

/-- VSEL (R177). -/
def execVsel (k : BitVec 3) (d a b : BitVec 6) (p q : BitVec 1) (s : State) : Host.Outcome State Fault Refusal := s.vector (.vsel k d a b p q)

/-- VMOV (R177). -/
def execVmov (k : BitVec 3) (d a : BitVec 6) (p : BitVec 1) (f : BitVec 2) (s : State) : Host.Outcome State Fault Refusal := s.vector (.vmov k d a p f)

/-- VMOV_FROM_CN (R177). -/
def execVmovFromCn (k : BitVec 3) (d : BitVec 6) (s : State) : Host.Outcome State Fault Refusal := s.vector (.vmovFromCn k d)

/-- VMOV_TO_CN (R177). -/
def execVmovToCn (k : BitVec 3) (a : BitVec 6) (p : BitVec 1) (s : State) : Host.Outcome State Fault Refusal := s.vector (.vmovToCn k a p)

/-- KAND (R178). -/
def execKand (k d a b : BitVec 3) (s : State) : Host.Outcome State Fault Refusal := s.vector (.kand k d a b)

/-- KOR (R178). -/
def execKor (k d a b : BitVec 3) (s : State) : Host.Outcome State Fault Refusal := s.vector (.kor k d a b)

/-- KXOR (R178). -/
def execKxor (k d a b : BitVec 3) (s : State) : Host.Outcome State Fault Refusal := s.vector (.kxor k d a b)

/-- KNOT (R178). -/
def execKnot (k d a : BitVec 3) (s : State) : Host.Outcome State Fault Refusal := s.vector (.knot k d a)

/-- KMOV (R178). -/
def execKmov (k d a : BitVec 3) (s : State) : Host.Outcome State Fault Refusal := s.vector (.kmov k d a)

/-- KMOV_VK (R178). -/
def execKmovVk (k d : BitVec 3) (a : BitVec 6) (p : BitVec 1) (s : State) : Host.Outcome State Fault Refusal := s.vector (.kmovVk k d a p)

/-- KMOV_KV (R178). -/
def execKmovKv (k : BitVec 3) (d : BitVec 6) (a : BitVec 3) (s : State) : Host.Outcome State Fault Refusal := s.vector (.kmovKv k d a)

/-- KMOV_AV (R178). -/
def execKmovAv (k : BitVec 3) (d : BitVec 6) (a : BitVec 3) (s : State) : Host.Outcome State Fault Refusal := s.vector (.kmovAv k d a)

/-- CNTP (R176). -/
def execCntp (k : BitVec 3) (d a : BitVec 6) (x : BitVec 4) (p : BitVec 1) (s : State) : Host.Outcome State Fault Refusal := s.vector (.cntp k d a x p)

/-- CNTP_K (R176). -/
def execCntpK (k : BitVec 3) (d : BitVec 6) (a : BitVec 3) (s : State) : Host.Outcome State Fault Refusal := s.vector (.cntpK k d a)

/-- VPERM (R179). -/
def execVperm (k : BitVec 3) (d a b : BitVec 6) (p q : BitVec 1) (s : State) : Host.Outcome State Fault Refusal := s.vector (.vperm k d a b p q)

/-- VPERM_B (R179). -/
def execVpermB (k : BitVec 3) (d a b : BitVec 6) (p q : BitVec 1) (s : State) : Host.Outcome State Fault Refusal := s.vector (.vpermB k d a b p q)

/-- VBCAST (R179). -/
def execVbcast (k : BitVec 3) (d a : BitVec 6) (i : BitVec 4) (p : BitVec 1) (s : State) : Host.Outcome State Fault Refusal := s.vector (.vbcast k d a i p)

/-- VBCAST_B (R179). -/
def execVbcastB (k : BitVec 3) (d a : BitVec 6) (i : BitVec 4) (p : BitVec 1) (s : State) : Host.Outcome State Fault Refusal := s.vector (.vbcastB k d a i p)

/-- VROTL (R179). -/
def execVrotl (k : BitVec 3) (d a : BitVec 6) (n : BitVec 4) (p : BitVec 1) (s : State) : Host.Outcome State Fault Refusal := s.vector (.vrotl k d a n p)

/-- VROTL_SH (R179). -/
def execVrotlSh (k : BitVec 3) (d a : BitVec 6) (n : BitVec 4) (p : BitVec 1) (s : State) : Host.Outcome State Fault Refusal := s.vector (.vrotlSh k d a n p)

/-- XG (R180). -/
def execXg (k : BitVec 3) (d a : BitVec 6) (g : BitVec 3) (s : State) : Host.Outcome State Fault Refusal := s.vector (.xg k d a g)

/-- XG_REL (R180). -/
def execXgRel (k : BitVec 3) (d a : BitVec 6) (n : BitVec 3) (s : State) : Host.Outcome State Fault Refusal := s.vector (.xgRel k d a n)

/-- REDADD (R181). -/
def execRedadd (k : BitVec 3) (d a : BitVec 6) (c : BitVec 1) (x : BitVec 4) (p : BitVec 1) (s : State) : Host.Outcome State Fault Refusal := s.vector (.redadd k d a c x p)

/-- REDMUL (R181). -/
def execRedmul (k : BitVec 3) (d a : BitVec 6) (c : BitVec 1) (x : BitVec 4) (p : BitVec 1) (s : State) : Host.Outcome State Fault Refusal := s.vector (.redmul k d a c x p)

/-- REDMAX (R181). -/
def execRedmax (k : BitVec 3) (d a : BitVec 6) (c : BitVec 1) (x : BitVec 4) (p : BitVec 1) (s : State) : Host.Outcome State Fault Refusal := s.vector (.redmax k d a c x p)

/-- REDMIN (R181). -/
def execRedmin (k : BitVec 3) (d a : BitVec 6) (c : BitVec 1) (x : BitVec 4) (p : BitVec 1) (s : State) : Host.Outcome State Fault Refusal := s.vector (.redmin k d a c x p)

/-- REDOR (R181). -/
def execRedor (k : BitVec 3) (d a : BitVec 6) (c : BitVec 1) (x : BitVec 4) (p : BitVec 1) (s : State) : Host.Outcome State Fault Refusal := s.vector (.redor k d a c x p)

/-- REDAND (R181). -/
def execRedand (k : BitVec 3) (d a : BitVec 6) (c : BitVec 1) (x : BitVec 4) (p : BitVec 1) (s : State) : Host.Outcome State Fault Refusal := s.vector (.redand k d a c x p)

/-- TOPK (R182). -/
def execTopk (k : BitVec 3) (d a b : BitVec 6) (p q : BitVec 1) (f : BitVec 2) (s : State) : Host.Outcome State Fault Refusal := s.vector (.topk k d a b p q f)

/-- QPACK (R184). -/
def execQpack (k : BitVec 3) (d a : BitVec 6) (n : BitVec 3) (p : BitVec 1) (s : State) : Host.Outcome State Fault Refusal := s.vector (.qpack k d a n p)

/-- QUNPK (R183). -/
def execQunpk (k : BitVec 3) (d a : BitVec 6) (n : BitVec 3) (s : State) : Host.Outcome State Fault Refusal := s.vector (.qunpk k d a n)

/-- ANGOF (R185). -/
def execAngof (k : BitVec 3) (d a b : BitVec 6) (p q : BitVec 1) (s : State) : Host.Outcome State Fault Refusal := s.vector (.angof k d a b p q)

/-- VCLMUL (R170). -/
def execVclmul (k : BitVec 3) (d a b : BitVec 6) (p q : BitVec 1) (f : BitVec 2) (s : State) : Host.Outcome State Fault Refusal := s.vector (.vclmul k d a b p q f)

/-- VCLMULH (R170). -/
def execVclmulh (k : BitVec 3) (d a b : BitVec 6) (p q : BitVec 1) (f : BitVec 2) (s : State) : Host.Outcome State Fault Refusal := s.vector (.vclmulh k d a b p q f)

end Sys2Proof.Machine
end

