-- ==== Sys2Proof/Machine/Translate.lean ====
section
/-! DEFINITION. Virtual addresses and their translation at the owner (R271 to R277), host windows, peers and shared windows (R280, R281, R291, R292). -/

namespace Sys2Proof.Machine

/-- The kind of an access for translation. An ATOM reads and writes. -/
structure Access where
  reads : Bool := false
  writes : Bool := false
  atom : Bool := false
  /-- It arrives from the host link. -/
  host : Bool := false
  deriving DecidableEq, Repr, Inhabited

def Access.read : Access := { reads := true }
def Access.write : Access := { writes := true }
def Access.atomic : Access := { reads := true, writes := true, atom := true }

/-- Where a translated address lies. -/
inductive Place where
  /-- HBM or the tier; in plaintext where `sh` is 1 (R289). -/
  | mem (key : Nat) (plain : Bool)
  | scratch (g off : Nat)
  /-- The far end of a link (16: the host link), and the address there: a host bus address, or a peer's (R280, R292). The far end keeps the data. -/
  | outside (link addr : Nat)
  deriving DecidableEq, Repr, Inhabited

/-- The answer of an owner. -/
inductive Trans where
  | ok (p : Place)
  /-- Class 7: 1 unmapped, 2 protection, 3 version conflict, 4 malformed. -/
  | fault (code : Nat)
  /-- The page is being invalidated: the access waits (R276). -/
  | wait
  deriving DecidableEq, Repr, Inhabited

/-- The owner code of an address (R271). -/
def ownerCode (va : Word) : Nat := fld va 60 4

/-- A malformed address (R272). -/
def malformed (va : Word) : Bool :=
  let c := ownerCode va
  if c ≤ 3 ∨ c = 8 ∨ c = 15 then fld va 48 12 != 0
  else if c = 14 then fld va 48 4 != 0
  else true

/-- The slice that holds an owner's tables: a die's own, D0's for the tier (R274). -/
def tableSlice (o : Nat) : Nat := if o = 4 then 0 else o

/-- The owner's number among the five, by code. -/
def ownerIndex (code : Nat) : Nat := if code = 8 then 4 else code

/-- The memory that a frame of an owner names (R273); none for an invalid frame. -/
def frameBase (o f : Nat) : Option Place :=
  if o = 4 then
    if f % 2 ^ 20 < Config.portFrames then some (.mem (farKey 8 (f * 2 ^ 21)) false) else none
  else if f < Config.hbmFrames then some (.mem (farKey o (f * 2 ^ 21)) false)
  else if 0x3FFF00 ≤ f then some (.scratch (256 * o + (f - 0x3FFF00)) 0)
  else none

/-- The 512 frames of a 1 GiB page are HBM or tier frames (R273). -/
def largeFrameOk (o f : Nat) : Bool :=
  f % 512 == 0 && (List.range 512).all fun i => match frameBase o (f + i) with | some (.mem ..) => true | _ => false

/-- A place moved by an offset. -/
def Place.plus (p : Place) (n : Nat) : Place :=
  match p with
  | .mem k h => .mem (k + n) h
  | .scratch g o => .scratch g (o + n)
  | .outside l a => .outside l (a + n)

/-- The place as an entry with `sh` set, or clear, maps it (R289). -/
def Place.stored (p : Place) (plain : Bool) : Place := match p with | .mem k _ => .mem k plain | q => q

/-- Frame A and frame B of an entry. -/
def frameA (w0 : Word) : Nat := fld w0 21 22
def frameB (w1 : Word) : Nat := fld w1 21 22

/-- A leaf entry breaks no rule of R274. -/
def leafOk (w0 w1 : Word) : Bool :=
  fld w0 43 21 == 0 && !bit w0 2 && fld w0 8 13 == 0 &&
    (if bit w0 5 then fld w1 43 21 == 0 && fld w1 0 21 == 0 else w1 == 0)

/-- A non-leaf entry breaks no rule of R274. -/
def nextOk (w0 w1 : Word) : Bool := fld w0 43 21 == 0 && fld w0 1 12 == 0 && w1 == 0

/-- The frames of a leaf are valid (R273, R275). -/
def framesOk (o : Nat) (large : Bool) (w0 w1 : Word) : Bool :=
  let one (f : Nat) : Bool := if large then largeFrameOk o f else (frameBase o f).isSome
  one (frameA w0) && (!bit w0 5 || one (frameB w1))

/-- The key of the table entry that maps an address, if the walk reaches a leaf: key, 1 GiB page (R274, R275). -/
def leafKey (m : Memory) (o : Nat) (ptb va : Word) : Option (Nat × Bool) :=
  if bit ptb 0 then
    let base := tableSlice o
    let k1 := farKey base (fld ptb 22 21 * 2 ^ 22 + 16 * fld va 30 18)
    let e0 := m.word k1
    let e1 := m.word (k1 + 8)
    if !bit e0 0 then none
    else if bit e0 1 then (if leafOk e0 e1 then some (k1, true) else none)
    else if !nextOk e0 e1 then none
    else
      let k2 := farKey base (fld e0 13 30 * 2 ^ 13 + 16 * fld va 21 9)
      let l0 := m.word k2
      if bit l0 0 && bit l0 1 && leafOk l0 (m.word (k2 + 8)) then some (k2, false) else none
  else none

/-- The keys of the table entries, of 16 bytes, that the walk of an address reads (R274, R275). -/
def walkKeys (m : Memory) (o : Nat) (ptb va : Word) : List Nat :=
  let base := tableSlice o
  let k1 := farKey base (fld ptb 22 21 * 2 ^ 22 + 16 * fld va 30 18)
  let e0 := m.word k1
  if bit e0 0 && !bit e0 1 && nextOk e0 (m.word (k1 + 8)) then [k1, farKey base (fld e0 13 30 * 2 ^ 13 + 16 * fld va 21 9)] else [k1]

/-- The page number of an address in an owner's space. -/
def pageOf (va : Word) : Nat := fld va 21 27

/-- A TLB entry holds the page. -/
def TlbEntry.covers (e : TlbEntry) (page : Nat) : Bool := if e.large then e.page / 512 == page / 512 else e.page == page

/-- The walk of an address: the TLB's entry, else the table's, which the TLB then keeps (R275, R276). -/
def Owner.walk (w : Owner) (m : Memory) (o : Nat) (va : Word) : Option TlbEntry × Owner :=
  if !bit w.ptb 0 then (none, w)
  else
    match w.tlb.find? fun e => e.covers (pageOf va) with
    | some e => (some e, w)
    | none =>
      match leafKey m o w.ptb va with
      | none => (none, w)
      | some (k, large) =>
        let e : TlbEntry := { page := pageOf va, large := large, leaf := m.word k, second := m.word (k + 8) }
        if framesOk o large e.leaf e.second then (some e, { w with tlb := w.tlb ++ [e] }) else (none, w)

/-- The invalidation under way covers the page (R276). -/
def Owner.invalidating (w : Owner) (page : Nat) : Bool :=
  w.invDue.isSome && (bit w.inv 62 || (decide (fld w.inv 21 27 ≤ page) && decide (page < fld w.inv 21 27 + fld w.inv 48 14)))

/-- The page lies in the range being flipped (R277). -/
def Owner.inFlip (w : Owner) (page : Nat) : Bool := w.flipping.any fun r => decide (r.1 ≤ page) && decide (page < r.2)

/-- Translation by an entry (R275). -/
def TlbEntry.access (e : TlbEntry) (w : Owner) (o : Nat) (va : Word) (a : Access) (isSealed : Bool) : Trans :=
  let off := if e.large then fld va 0 30 else fld va 0 21
  if (a.reads && !bit e.leaf 3) || (a.writes && !bit e.leaf 4) then .fault 2
  else if a.host && isSealed && !bit e.leaf 7 then .fault 2
  else
    let place (f : Nat) : Trans := match frameBase o f with | some p => .ok ((p.stored (bit e.leaf 7)).plus off) | none => .fault 1
    if !bit e.leaf 5 then place (frameA e.leaf)
    else if a.atom || w.inFlip (pageOf va) then .fault 3
    else if a.reads == !bit e.leaf 6 then place (frameA e.leaf)
    else place (frameB e.second)

/-- The device is open to its host: SEALST.`state` is 0 (R288). -/
def Pkg.opened (p : Pkg) : Bool := p.sec.sealState == 0

/-- The lowest host window that covers an offset: its words 0 and 1 (R292). -/
def hwinOf (h : Vector Word 32) (off : Nat) (n : Nat) : Option (Word × Word) :=
  match n with
  | 0 => none
  | j + 1 =>
    match hwinOf h off j with
    | some w => some w
    | none =>
      let w := vget h (2 * j)
      let page := off / 2 ^ 21
      if bit w 63 && decide (fld w 21 27 ≤ page) && decide (page < fld w 21 27 + fld w 48 13) then some (w, vget h (2 * j + 1)) else none

/-- A host-window access (R292). -/
def Pkg.hostWindow (p : Pkg) (va : Word) (a : Access) : Trans :=
  match hwinOf p.hwin (fld va 0 48) 16 with
  | none => .fault 1
  | some w =>
    if (a.reads && !bit w.1 61) || (a.writes && !bit w.1 62) then .fault 2
    else .ok (.outside 16 ((w.2.toNat + fld va 0 48 - fld w.1 21 27 * 2 ^ 21) % 2 ^ 64))

/-- The link that a peer access takes: the j-th set bit of the entry's `lmask` (R280). -/
def linkOf (entry va : Word) : Option Nat :=
  let links := (List.range 16).filter fun k => bit entry k
  if bit entry 16 then links[fld va 8 40 % links.length]? else none

/-- A peer access (R280). A link without an agreed key carries nothing: the access waits (R281, log 67). -/
def Pkg.peer (p : Pkg) (va : Word) : Trans :=
  match linkOf (vget p.prt (fld va 52 8)) va with
  | some k => if p.sec.linkKeys.getLsbD k then .ok (.outside k va.toNat) else .wait
  | none => .fault 1

/-- Some 64-bit word of the bytes is poisoned (R341). -/
def Sys.poisoned (s : Sys) (key n : Nat) : Option Nat := s.poison.find? fun w => decide (key / 8 ≤ w) && decide (w ≤ (key + n - 1) / 8)

/-- The walk of an address that no TLB entry covers meets a poisoned word of a table: its controller's state is struck, and no entry is loaded (R341, log 43). -/
def Sys.walkPoison (s : Sys) (m : Memory) (o : Nat) (va : Word) : Bool :=
  let w := vget s.pkg.owners o
  bit w.ptb 0 && !(w.tlb.any fun e => e.covers (pageOf va)) && (walkKeys m o w.ptb va).any fun k => (s.poisoned k 16).isSome

/-- The level whose controller walks an owner's tables, by its number: a lodge, or the belvedere for the tier. -/
def walker (o : Nat) : Nat := if o < 4 then o + 1 else 0

/-- A walk met poison: the report is made with those of the cycle. -/
def Sys.strikeWalker (s : Sys) (o : Nat) : Sys :=
  { s with pkg := { s.pkg with walked := if s.pkg.walked.contains (walker o) then s.pkg.walked else s.pkg.walked ++ [walker o] } }

/-- Translation of an access at its owner, the owner's TLB loaded (R272, R275, R276, R280, R292). -/
def Sys.translate (s : Sys) (m : Memory) (va : Word) (a : Access) : Trans × Sys :=
  if malformed va then (.fault 4, s)
  else
    let c := ownerCode va
    if c = 15 then (s.pkg.hostWindow va a, s)
    else if c = 14 then (s.pkg.peer va, s)
    else
      let o := ownerIndex c
      let w := vget s.pkg.owners o
      if w.invalidating (pageOf va) then (.wait, s)
      else if s.walkPoison m o va then (.fault 1, s.strikeWalker o)
      else
        let r := w.walk m o va
        let s := { s with pkg := { s.pkg with owners := vset s.pkg.owners o r.2 } }
        match r.1 with
        | none => (.fault 1, s)
        | some e => (e.access r.2 o va a (!s.pkg.opened), s)

/-- The memory key of a place, for the bytes the device holds. -/
def Place.key : Place → Option Nat
  | .mem k _ => some k
  | .scratch g off => some (scratchKey g off)
  | .outside .. => none

/-- Bytes that the spec leaves open: free values. -/
def Sys.freeBytes (s : Sys) (n : Nat) : List Byte × Sys :=
  (List.range ((n + 7) / 8)).foldl (fun acc _ =>
    let v := acc.2.freeValue
    (acc.1 ++ (leBytes 8 v.1.toNat).take (n - acc.1.length), v.2)) ([], s)

/-! ## Encryption (R289) -/

/-- A unit of HBM or the tier is stored in plaintext where the access would decrypt it, or the other way about: changing `sh` re-encrypts nothing. What nothing has stored in plaintext is stored encrypted, a unit that nothing has written among it. -/
def Sys.misread (s : Sys) (unit : Nat) (plain : Bool) : Bool := s.plainUnits.contains unit != plain

/-- The bytes that an access, which lies in one unit, meets: free values where the unit is stored otherwise. -/
def Sys.readUnit (s : Sys) (m : Memory) (key n : Nat) (plain : Bool) : List Byte × Sys :=
  if s.misread (key / 64) plain then s.freeBytes n else (m.bytes key n, s)

/-- A write to HBM or the tier: the unit is stored as the access says from now on. The bytes of it that a partial write leaves are those that the access would have read. -/
def Sys.writeUnit (s : Sys) (m : Memory) (key : Nat) (plain : Bool) (data : List Byte) : Sys × List (Nat × List Byte) :=
  let unit := key / 64
  let stored (s : Sys) : Sys := let units := s.plainUnits.filter (· != unit); { s with plainUnits := if plain then units ++ [unit] else units }
  if s.misread unit plain && decide (data.length < 64) then
    let rest := s.readUnit m (64 * unit) 64 plain
    (stored rest.2, [(64 * unit, rest.1.take (key % 64) ++ data ++ rest.1.drop (key % 64 + data.length))])
  else (stored s, [(key, data)])

/-- The bytes read at a place; a far end's bytes are free values (log 2). -/
def Sys.readPlace (s : Sys) (m : Memory) (p : Place) (n : Nat) : List Byte × Sys :=
  match p with
  | .mem k h => s.readUnit m k n h
  | .scratch g off => (m.bytes (scratchKey g off) n, s)
  | .outside .. => s.freeBytes n

/-- What an XLAT reports (R156, R157): the probe as a plain read and write would be met; no fault is raised. A probe of a page that a TLBINV is invalidating does not wait: R276 lets an access wait and R157 bounds the probe, and that it walks at once is the model's choice (DESIGN CHOICE, log 35). -/
def Sys.probe (s : Sys) (m : Memory) (va : Word) : Word × Sys :=
  let done : Nat := 2 ^ 63
  if malformed va then (BitVec.ofNat 64 (done + 2 ^ 60), s)
  else
    let c := ownerCode va
    if c = 15 then
      match hwinOf s.pkg.hwin (fld va 0 48) 16 with
      | none => (BitVec.ofNat 64 (done + 2 ^ 60), s)
      | some w =>
        (BitVec.ofNat 64 (done + (if bit w.1 61 || bit w.1 62 then 0 else 2 * 2 ^ 60) + boolNat (bit w.1 62) * 2 ^ 56 + boolNat (bit w.1 61) * 2 ^ 55), s)
    else if c = 14 then
      match s.pkg.peer va with
      | .fault _ => (BitVec.ofNat 64 (done + 2 ^ 60), s)
      | _ => (BitVec.ofNat 64 (done + 3 * 2 ^ 55), s)
    else
      let o := ownerIndex c
      if s.walkPoison m o va then (BitVec.ofNat 64 (done + 2 ^ 60), s.strikeWalker o) else
      let r := (vget s.pkg.owners o).walk m o va
      let s := { s with pkg := { s.pkg with owners := vset s.pkg.owners o r.2 } }
      match r.1 with
      | none => (BitVec.ofNat 64 (done + 2 ^ 60), s)
      | some e =>
        let status := if bit e.leaf 5 && r.2.inFlip (pageOf va) then 3 else if bit e.leaf 3 || bit e.leaf 4 then 0 else 2
        (BitVec.ofNat 64 (done + status * 2 ^ 60 + boolNat e.large * 2 ^ 59 + boolNat (bit e.leaf 5) * 2 ^ 58 +
          boolNat (bit e.leaf 6) * 2 ^ 57 + boolNat (bit e.leaf 4) * 2 ^ 56 + boolNat (bit e.leaf 3) * 2 ^ 55), s)

/-- XLAT_RESULT: an outstanding probe's result lands in XAn, after the clear of issue + 1 where the context's ticks have stood still (R157). -/
def execXlatResult (core : Nat) (ctx : Fin 4) (x : BitVec 2) (s : State) : Host.Outcome State Fault Refusal :=
  s.eventOn (decide (core < 1024)) fun y =>
    let k := y.ctx core ctx
    let clears : Bool := y.agenda.any fun e => e.core == core && e.ctx == ctx.val && e.act == .xaClear x.toNat
    if (vget k.probe x.toNat).isSome && decide (vget k.probeDue x.toNat ≤ y.wcyc) then
      if clears then ({ y with inbox := y.inbox ++ [(y.wcyc + 1, .xlatResult core ctx x)] }, []) else
      let r := y.probe s.mem (vget k.probeVa x.toNat)
      (r.2.modCtx core ctx fun k => { k with probe := vset k.probe x.toNat none, regs := { k.regs with xa := vset k.regs.xa x.toNat r.1 } }, [])
    else (y, [])

/-- The lowest peer window that covers an incoming offset: its words 0 and 1 (R281). -/
def pwinOf (h : Vector Word 32) (off : Nat) (n : Nat) : Option (Word × Word) :=
  match n with
  | 0 => none
  | j + 1 =>
    match pwinOf h off j with
    | some w => some w
    | none =>
      let w := vget h (2 * j)
      let page := off / 2 ^ 21
      if bit w 63 && decide (fld w 21 27 ≤ page) && decide (page < fld w 21 27 + fld w 48 14) then some (w, vget h (2 * j + 1)) else none

/-- The lowest shared window that covers a BAR2 offset: its words 0 and 1 (R291). -/
def shwOf (h : Vector Word 16) (off : Nat) (n : Nat) : Option (Word × Word) :=
  match n with
  | 0 => none
  | j + 1 =>
    match shwOf h off j with
    | some w => some w
    | none =>
      let w := vget h (2 * j)
      let page := off / 2 ^ 21
      if bit w 63 && decide (fld w 21 15 ≤ page) && decide (page < fld w 21 15 + fld w 48 14) then some (w, vget h (2 * j + 1)) else none

/-! ## Poison (R341) -/

/-- The code of class 11 for a key (R301): on-core SRAM 1, HBM 2, the tier 3. -/
def memoryCode (key : Nat) : Nat := if key / 2 ^ 60 < 4 then 2 else if key / 2 ^ 60 = 8 then 3 else 1

end Sys2Proof.Machine
end

