-- ==== Sys2Proof/Machine/Engine.lean ====
section
/-! DEFINITION. What every engine command shares: dispatch, queues, start, scoreboard, tile rows, counters (R186 to R189, R214). -/

namespace Sys2Proof.Machine

/-! ## Tile rows (R40) -/

/-- Rows of a tile of width w (R40). -/
def tileRows (w : Nat) : Nat := 2048 / w

/-- The physical register of row r of the tile whose first register is `base`, and the row within that register. -/
def rowReg (base r w : Nat) : Nat × Nat := (base + r / (512 / w), r % (512 / w))

/-- The 128 codes of row r, in column order, of the tile whose first register is `base`. -/
def readRow (m : Memory) (g base r w : Nat) : List Nat :=
  let p := rowReg base r w
  let at_ := rowPlace w p.2
  (List.range 8).flatMap fun lg =>
    let lo := m.beat g lg p.1 at_.1
    let hi := if w = 64 then m.beat g lg p.1 (at_.1 + 1) else []
    (List.range 16).map fun l => if w = 64 then pair64 lo hi l else (laneOf lo l).toNat / 2 ^ at_.2 % 2 ^ w

/-- A poisoned word of row r: its lane group and its place in `poison` (R341). -/
def Sys.rowPoison (s : Sys) (g base r w : Nat) : Option (Nat × Nat) :=
  let p := rowReg base r w
  let at_ := rowPlace w p.2
  (List.range 8).findSome? fun lg => (s.poisoned (vecKey g lg p.1 at_.1 0) (if w = 64 then 128 else 64)).map fun q => (lg, q)

/-- Lane group `lg` holds a poisoned word of row r. -/
def Sys.lanePoison (s : Sys) (g base r w lg : Nat) : Bool :=
  let p := rowReg base r w
  (s.poisoned (vecKey g lg p.1 (rowPlace w p.2).1 0) (if w = 64 then 128 else 64)).isSome

/-- The writes that put row r. -/
def writeRow (g base r w : Nat) (vals : List Nat) : List Write :=
  let p := rowReg base r w
  let at_ := rowPlace w p.2
  (List.range 8).flatMap fun lg =>
    let vs := (vals.drop (16 * lg)).take 16
    if w = 64 then
      [.put (vecKey g lg p.1 at_.1 0) (vs.flatMap fun v => leBytes 4 v), .put (vecKey g lg p.1 (at_.1 + 1) 0) (vs.flatMap fun v => leBytes 4 (v / 2 ^ 32))]
    else if w = 32 then [.put (vecKey g lg p.1 at_.1 0) (vs.flatMap fun v => leBytes 4 v)]
    else (List.range 16).map fun l => .put (vecKey g lg p.1 at_.1 l + at_.2 / 8) (leBytes (w / 8) (vs.getD l 0))

/-- The bytes of a row in memory: column c at byte c × w/8 (R192). -/
def rowBytes (w : Nat) (vals : List Nat) : List Byte := vals.flatMap fun v => leBytes (w / 8) v

/-- The codes of a row from its bytes. -/
def bytesRow (w : Nat) (bs : List Byte) : List Nat := (List.range 128).map fun c => leNat ((bs.drop (c * (w / 8))).take (w / 8))

/-- The first physical register of tile n (R19, R40). -/
def Ctx.tileBase (k : Ctx) (n : Nat) : Nat := k.win.vbase + 4 * n

/-- The layout of TS2, used by TLD, TST, CPYR and CPYST (R190, R196). -/
def tsTile (v : Word) : Nat := fld v 0 4
def tsWidth (v : Word) : Nat := 8 * 2 ^ fld v 20 2
def tsRow0 (v : Word) : Nat := fld v 24 8
def tsRows (v : Word) : Nat := fld v 32 9

/-- Limits of TS2 (R190). -/
def Ctx.tsOk (k : Ctx) (v : Word) : Bool :=
  decide (1 ≤ tsRows v) && decide (tsRows v ≤ 256) && decide (tsRow0 v + tsRows v ≤ tileRows (tsWidth v)) && decide (tsTile v < k.win.vwin / 4)

/-- 64-byte blocks in a row of width w. -/
def rowBlocks (w : Nat) : Nat := w / 4

/-- A signed 32-bit field. -/
def signed32 (n : Nat) : Int := (BitVec.ofNat 32 n).toInt

/-- An address moved by a signed distance. -/
def moveVa (va : Word) (d : Int) : Word := va + BitVec.ofInt 64 d

/-! ## Dispatch -/

/-- A command at its dispatch. -/
structure Dispatch where
  eng : Engine
  instr : Instr
  delay : Nat := 0
  stg : List Word := []
  /-- Addresses of the pointers it names, and the pointers that advance once. -/
  ptrs : List Nat := []
  advances : List Nat := []
  reads : List Nat := []
  writes : List Nat := []
  hold : Option Bool := none
  /-- A wait for a place in its queue varies with the world outside (R120, R187). -/
  slow : Bool := false
  faults : List FaultRec := []
  /-- Ticks from its start for which it occupies its engine. -/
  occ : Option Nat := none
  /-- Entries of the gated buffer that it takes in an open region, when its writes are gated. -/
  gate : Nat := 0

def Engine.index : Engine → Nat
  | .tm => 0 | .cp => 1 | .orr => 2 | .dot => 3 | .load => 4 | .col => 5

/-- The slot position of an engine (R99). -/
def Engine.slot : Engine → Nat
  | .tm => 4 | .cp => 5 | .orr => 6 | .dot => 7 | .load => 8 | .col => 9

/-- First staging number and count of an engine (R109). -/
def Engine.staging : Engine → Nat × Nat
  | .orr => (0, 8)
  | .dot => (8, 8)
  | .tm => (16, 8)
  | .cp => (24, 8)
  | .col => (32, 8)
  | .load => (0, 0)

/-- The staging registers an engine's command reads (R109). -/
def Ctx.staged (k : Ctx) (e : Engine) : List Word := (List.range e.staging.2).map fun i => vget k.regs.staging (e.staging.1 + i)

/-- Staging register i of a command. -/
def Cmd.st (c : Cmd) (i : Nat) : Word := c.stg.getD i 0

/-- The engine's queue is full for a dispatch of the context (R187). -/
def Core.queueFull (c : Core) (x : Nat) (e : Engine) : Bool :=
  match e with
  | .tm => decide (16 ≤ (c.cmds.filter fun m => m.eng == .tm).length)
  | .cp => decide (64 ≤ (c.cmds.filter fun m => m.eng == .cp).length) || c.frozenCopy
  | .load => false
  | e => decide (8 ≤ (c.cmds.filter fun m => m.eng == e && m.ctx == x && !m.started).length)

/-- The hold of a dispatch: its own, then the queue's (R187, R120). -/
def Dispatch.waits (d : Dispatch) (s : Sys) : Option Bool :=
  let full := s.hereCore.queueFull s.cur.ctx d.eng
  let q := match d.eng with
    | .tm | .cp => if full then some d.slow else none
    | .load => none
    | _ => if full && !s.here.timed then some false else none
  orHold d.hold q

/-- The faults of a dispatch: its own, a full queue, and in timed mode a start before the engine is free (R187). -/
def Dispatch.breaches (d : Dispatch) (s : Sys) : List FaultRec :=
  let full := match d.eng with
    | .tm | .cp | .load => false
    | e => s.hereCore.queueFull s.cur.ctx e
  let early := match d.occ with
    | some _ => decide (s.t + d.delay < vget s.hereCore.free d.eng.index)
    | none => false
  d.faults ++ s.limit (!(s.here.timed && (full || (early && d.eng != .load)))) 5 2

/-- The registers of a tile that the open region is to write have shadows (R328). -/
def Ctx.shadowTile (k : Ctx) (tile : Nat) : Ctx :=
  (List.range 32).foldl (fun k i => k.shadow (i / 4) (k.tileBase tile + i % 4)) k

/-- Dispatch (R108, R109, R187, R188): pointers advance, the command joins its queue, `readers` and `wpend` follow from it. -/
def Dispatch.accept (d : Dispatch) (s : Sys) : Sys :=
  let k := s.here
  let start := s.t + d.delay
  let c : Cmd :=
    { id := s.cur.ord, ctx := s.cur.ctx, eng := d.eng, instr := d.instr, word := s.cur.word, stg := d.stg, rm := k.regs.rm, honour := k.interlocked,
      ptrs := d.ptrs, grp := s.cur.grp, slot := d.eng.slot, dispatched := s.t, start := start, reads := d.reads, writes := d.writes,
      gated := k.region.open_ && d.gate != 0 }
  let s := d.advances.foldl (fun s p => s.advance p 1) s
  let s := s.modHere fun k => (if k.region.open_ then d.writes.foldl (fun k t => k.shadowTile t) k else k).take d.gate
  s.modHereCore fun q => { q with
    cmds := q.cmds ++ [c]
    free := match d.occ with
      | some n => if k.timed || d.eng == .load then vset q.free d.eng.index (start + n) else q.free
      | none => q.free }

/-- An engine instruction: it dispatches its command. -/
def State.dispatch (s : State) (d : Dispatch) : Host.Outcome State Fault Refusal :=
  s.issue (d.waits s.sys) (d.breaches s.sys) d.accept

/-- A completion counter within `tcount` (R189, R322). -/
def Ctx.tcOk (k : Ctx) (n : Nat) : Bool := decide (n < k.win.tcount)

/-- A pointer used with advance lies in its wrap window (R44). -/
def Ctx.advanceOk (k : Ctx) (p : Nat) : Bool := (k.pointer p).usable p

/-! ## Commands by id -/

def Sys.cmd (s : Sys) (g id : Nat) : Option Cmd := (s.core g).cmds.find? (·.id == id)

/-- A command changed. -/
def Sys.modCmd (s : Sys) (g id : Nat) (f : Cmd → Cmd) : Sys :=
  s.modCore g fun q => { q with cmds := q.cmds.map fun c => if c.id = id then f c else c }

/-- A command leaves the core. -/
def Sys.dropCmd (s : Sys) (g id : Nat) : Sys := s.modCore g fun q => { q with cmds := q.cmds.filter fun c => c.id != id }

/-- Something due in the clock of the command's context, in the meridian, or in wall cycles. -/
def Sys.postCmd (s : Sys) (g : Nat) (c : Cmd) (due phase : Nat) (a : Act) : Sys := s.post g c.ctx due phase c.id a

/-- The tick of a command's context. -/
def Sys.cmdTick (s : Sys) (g : Nat) (c : Cmd) : Nat := s.now g c.ctx

/-- A fault of a command, deferred to its context (R302). -/
def Sys.cmdFault (s : Sys) (g : Nat) (c : Cmd) (cls code : Nat) (far : Word := 0) : Sys :=
  s.deferFault g c.ctx { cls := cls, code := code, slot := c.slot, far := far, grp := c.grp }

/-- Flags of a command for its slot (R73, R307). -/
def Sys.cmdFlags (s : Sys) (g : Nat) (c : Cmd) (f : Flags) : Sys :=
  if f = .none then s else { s with raised := s.raised ++ [(g, c.ctx, c.slot, f, c.grp)] }

/-- The writer of a tile finishes: it writes `tag` unless a later-dispatched writer has, and gives up its `wpend` (R188). -/
def Sys.tileWritten (s : Sys) (g id tile : Nat) : Sys :=
  match s.cmd g id with
  | none => s
  | some c =>
    let s := s.modCtx g c.ctx fun k =>
      if vget k.sbBy tile ≤ id then { k with sbTag := vset k.sbTag tile c.tag, sbBy := vset k.sbBy tile id } else k
    s.modCmd g id fun c => { c with writes := c.writes.filter (· != tile) }

/-- A reader gives up its 1 (R188). -/
def Sys.tileReleased (s : Sys) (g id tile : Nat) : Sys := s.modCmd g id fun c => { c with reads := c.reads.filter (· != tile) }

/-! ## Start -/

/-- The verdict of the checks at a command's first read of its source tiles (R108, R188). -/
inductive FirstRead where
  | ok
  /-- An outstanding writer: the command waits; in timed mode it stalls. -/
  | wait
  | fault (cls code : Nat)
  deriving DecidableEq, Repr

/-- `chk` and `etag` of a command that reads tiles (R108, R186). -/
def chkOf (i : Instr) : Bool × Nat :=
  match i with
  | .tst c e _ | .cpyst c e _ | .opass c e _ | .opassr c e _ | .oderive c e _ | .oapply c e _ | .dot c e _ | .dota c e _ => (c == 1, e.toNat)
  | _ => (false, 0)

/-- The tiles checked at a command's first read: its sources, and `dst` of a pass of more than one round (R201). -/
def Cmd.checked (c : Cmd) : List Nat :=
  match c.instr with
  | .opass .. | .opassr .. => if fld (c.st 0) 45 3 = 0 then c.reads else c.reads ++ c.writes
  | .tst .. | .cpyst .. | .oderive .. | .oapply .. | .dot .. | .dota .. => c.reads
  | _ => []

/-- The checks of a command that starts now. -/
def Sys.firstRead (s : Sys) (g : Nat) (c : Cmd) : FirstRead :=
  let k := s.ctx g c.ctx
  let outstanding := c.checked.flatMap fun t => ((s.core g).wpendBefore c.ctx t c.id).filter fun w => w.id != c.id
  let chk := chkOf c.instr
  if outstanding.isEmpty then
    if k.timed && chk.1 && c.checked.any (fun t => (vget k.sbTag t).toNat % 256 != chk.2) then .fault 6 1 else .ok
  else if !k.timed then .wait
  else if outstanding.all (fun w => (match w.instr with | .tld .. => true | _ => w.eng == .cp && w.varies)) then .wait
  else .fault 5 3

/-- The context's engine work makes progress: it is not parked by a halt, a fault or a freeze, from the tick after the stop to the tick in which a release lets it go on (R31, R303, R312). The dot engine and the loads of a faulted context run to their end (R334). -/
def Ctx.engineRuns (k : Ctx) (e : Engine) : Bool :=
  match k.state with
  | .halted => !k.parked
  | .faulted => !k.parked || (!k.killed && (e == .dot || e == .load || e == .col))
  | .frozen => !k.parked
  | .idle => false
  | _ => !k.parked

/-- The tag a command writes: TTICK[15:0] of its start in timed mode, else 0 (R108). -/
def Sys.startTag (s : Sys) (g : Nat) (c : Cmd) : BitVec 16 :=
  let k := s.ctx g c.ctx
  if k.timed then (s.ttick k).setWidth 16 else 0

/-- A command of a single word: it is never parked (R200). -/
def Cmd.isWord (c : Cmd) : Bool := c.eng == .tm && (match c.instr with | .tld .. | .tst .. => false | _ => true)

/-- Earlier commands of the same queue still wait: they start first (R187); of the tile memory slot those that a stop of their context has parked do not hold up the others, for a word access completes (R200). Copies start on their own (R199). -/
def Core.startsBefore (q : Core) (c : Cmd) : Bool :=
  match c.eng with
  | .cp => false
  | .tm => q.cmds.any fun b => b.eng == .tm && decide (b.id < c.id) && !b.started && (b.isWord || (q.ctx b.ctx).engineRuns .tm)
  | .load => q.cmds.any fun b => b.eng == c.eng && decide (b.id < c.id) && !b.started
  | e => q.cmds.any fun b => b.eng == e && b.ctx == c.ctx && decide (b.id < c.id) && !b.started

/-! ## Counters -/

/-- The slots of the trigger queue of a context whose operation is armed at a tick (R212, R216). -/
def Queued.armed (q : Queued) (t : Nat) : Bool := match q.armedAt with | some a => decide (a ≤ t) && q.fired.isNone | none => false

/-- A counter set by CSET: TCRW marks it when an armed operation names it (R215). -/
def Regs.csetTc (r : Regs) (n : Nat) (v : W32) (t : Nat) : Regs :=
  let named := r.tq.toList.any fun q => match q with | some q => q.armed t && q.tc == n | none => false
  { r with tc := vset r.tc n v, tcrw := if named then r.tcrw ||| (1 <<< n) else r.tcrw }

/-- A counter increment, modulo 2^32 (R214). -/
def Regs.addTc (r : Regs) (n : Nat) (v : W32) : Regs := { r with tc := vmod r.tc n fun c => c + v }

/-- Every armed TRIG whose condition holds fires (R214). -/
def Regs.testQueue (r : Regs) (t : Nat) : Regs :=
  { r with tq := r.tq.map fun q => match q with
      | some q => some (if !q.isReady && q.armed t && reached (vget r.tc q.tc) q.thr then { q with fired := some t } else q)
      | none => none }

end Sys2Proof.Machine
end

