-- ==== Sys2Proof/Machine/Fabric.lean ====
section
/-! DEFINITION. Off-core accesses of commands: their way to the owner, parking, faults at the owner, and writes that arrive at a scratchpad (R54 to R57, R195, R246, R312, R330 to R334, R339, R341). -/

namespace Sys2Proof.Machine

/-! ## Arrivals at a scratchpad (R56, R57, R339) -/

/-- Bytes from offset `off`, cut at 64-byte boundaries. -/
def segments (fuel off : Nat) (data : List Byte) : List (Nat × List Byte) :=
  match fuel with
  | 0 => []
  | n + 1 =>
    if data.isEmpty then []
    else
      let k := 64 - off % 64
      (off, data.take k) :: segments n (off + k) (data.drop k)

def AowRegion.base (r : AowRegion) : Nat := fld r.a 0 21
def AowRegion.tileBytes (r : AowRegion) : Nat := 64 * fld r.a 21 11
def AowRegion.tiles (r : AowRegion) : Nat := fld r.a 32 6
def AowRegion.op (r : AowRegion) : Nat := fld r.a 38 2
def AowRegion.on (r : AowRegion) : Bool := bit r.a 40

/-- The enabled region of a core that holds a scratchpad offset. -/
def Core.regionAt (c : Core) (off : Nat) : Option Nat :=
  (List.range 8).find? fun n =>
    let r := vget c.aow n
    r.on && decide (r.base ≤ off) && decide (off < r.base + r.tiles * r.tileBytes)

/-- One element that arrives: the region's counters, the write it makes, whether it is the tile's first discarded one. -/
def AowRegion.element (r : AowRegion) (g off : Nat) (v : Nat) : AowRegion × List Write × Bool :=
  let t := (off - r.base) / r.tileBytes
  let o := (off - r.base) % r.tileBytes
  if r.op = 1 ∧ r.tileBytes / 2 ≤ o then (r, [], false)
  else if vget r.counts t = r.expect then
    let seen := r.overrun.toNat / 2 ^ t % 2 == 1
    ({ r with overrun := r.overrun ||| (1 <<< t) }, [], !seen)
  else
    let word := if r.op = 1 then (convert (.flt .b16) .f32 .rne false false v).1 else v
    let at_ := if r.op = 1 then r.base + t * r.tileBytes + 2 * o else off
    ({ r with counts := vmod r.counts t fun c => Nat.min (c + 1) 65535 }, [.accumulate r.op (scratchKey g at_) (BitVec.ofNat 32 word)], false)

/-- A fault of a region, reported to the context whose AOWCFG last wrote it, or to the package fault queue when its task has finished (R339). -/
def Sys.regionFault (s : Sys) (g off cls : Nat) (r : AowRegion) : Sys :=
  let va : Word := BitVec.ofNat 64 (corePart g * 2 ^ 21 + off)
  if r.gone ∨ (s.ctx g r.owner).state = .idle then
    s.pfqAppend (faultWord0 false cls 1 0 0, faultPathCore 0 g r.owner, va, (Fga.mk false false 9 r.grp).word)
  else s.deferFault g r.owner { cls := cls, code := 1, slot := 9, far := va, grp := r.grp }

/-- The overrun of a tile (R339). -/
def Sys.overrun (s : Sys) (g off : Nat) (r : AowRegion) : Sys := s.regionFault g off 10 r

/-- The writes of an element, but for those that would add to a poisoned word, which they read: they are not made, and the region's owner has a fault of class 11 (R341; DEDUCED, log 43). -/
def Sys.addable (s : Sys) (g : Nat) (r : AowRegion) (ws : List Write) : Sys × List Write :=
  ws.foldl (fun acc w =>
    match w with
    | .accumulate _ key _ =>
      match acc.1.poisoned key 4 with
      | some q => (acc.1.regionFault g (8 * q - scratchKey g 0) 11 r, acc.2)
      | none => (acc.1, acc.2 ++ [w])
    | .put .. => (acc.1, acc.2 ++ [w])) (s, [])

/-- The elements of one segment inside region n, in ascending address order. A ready bit is set in the next cycle, an event of the core and of no context. -/
def Sys.elements (s : Sys) (g n off : Nat) (data : List Byte) : Sys × List Write :=
  let size := if (vget (s.core g).aow n).op = 1 then 2 else 4
  let before := vget (s.core g).aow n
  let t := (off - before.base) / before.tileBytes
  let acc := (List.range (data.length / size)).foldl (fun acc i =>
    let r := vget (acc.1.core g).aow n
    let e := r.element g (off + size * i) (leNat ((data.drop (size * i)).take size))
    let s := acc.1.modCore g fun c => { c with aow := vset c.aow n e.1 }
    let a := (if e.2.2 then s.overrun g (off + size * i) r else s).addable g r e.2.1
    (a.1, acc.2 ++ a.2)) (s, [])
  let after := vget (acc.1.core g).aow n
  if vget before.counts t ≠ vget after.counts t ∧ vget after.counts t = after.expect then
    (acc.1.post g 4 (s.wcyc + 1) 8 0 (.readySet n t), acc.2)
  else acc

/-- A write that performs on a core's scratchpad: bytes outside enabled regions, elements inside (R54, R56). -/
def Sys.arrive (s : Sys) (g off : Nat) (data : List Byte) : Sys × List Write :=
  (segments (data.length + 1) off data).foldl (fun acc p =>
    match (acc.1.core g).regionAt p.1 with
    | some n => let r := acc.1.elements g n p.1 p.2; (r.1, acc.2 ++ r.2)
    | none => (acc.1, acc.2 ++ [.put (scratchKey g p.1) p.2])) (s, [])

/-! ## Events and commands -/

/-- A row becomes due in a later wall cycle. -/
def Sys.later (s : Sys) (n : Nat) (i : Instr) : Sys := { s with inbox := s.inbox ++ [(s.wcyc + n, i)] }

/-- A landing at a tick of a command's own clock (phase 0 to 3), or of wall cycles for a command of varying timing. -/
def Sys.cmdSoon (s : Sys) (g : Nat) (c : Cmd) (n phase : Nat) (a : Act) : Sys :=
  if c.varies then s.post g c.ctx (s.wcyc + n) (8 + phase) c.id a else s.post g c.ctx (s.now g c.ctx + n) phase c.id a

/-- Completion (R188, R189): in the next tick the counter counts, destinations finish, and the command leaves. -/
def Sys.complete (s : Sys) (g : Nat) (c : Cmd) : Sys :=
  let y4 := c.st 4
  let s := if (c.eng == .tm || c.eng == .cp) && bit y4 6 then s.cmdSoon g c 1 0 (.tcAdd (fld y4 0 6) 1) else s
  let s := c.writes.foldl (fun s t => s.cmdSoon g c 1 0 (.wrote c.id t)) s
  s.cmdSoon g c 1 0 (.finish c.id)

/-- A command meets a fault at a unit: it stops there, and the fault is deferred to its context (R334). -/
def Sys.stopCmd (s : Sys) (g : Nat) (c : Cmd) (cls code : Nat) (far : Word) : Sys :=
  (s.cmdFault g c cls code far).modCmd g c.id fun c => { c with stopped := true }

/-- Bytes read for a command: none when a word is poisoned, which stops the command (R341). -/
def Sys.readFor (s : Sys) (m : Memory) (g : Nat) (c : Cmd) (key n : Nat) (far : Word) : Option (List Byte) × Sys :=
  match s.poisoned key n with
  | some w => (none, s.stopCmd g c 11 (memoryCode key) (far + BitVec.ofNat 64 (8 * w - key)))
  | none => (some (m.bytes key n), s)

/-- The command an action works for. -/
def Act.cmd : Act → Option Nat
  | .release c _ | .wrote c _ | .finish c | .unitRead c _ | .unitWrite c _ _ | .farRead c .. | .farWrite c .. | .farAtom c _ | .back c .. | .acked c => some c
  | _ => none

/-- A copy, a row transfer or a word access makes progress. Word accesses are never parked (R200). -/
def Sys.moves (s : Sys) (g : Nat) (c : Cmd) : Bool :=
  let k := s.ctx g c.ctx
  match c.instr with
  | .ldw .. | .stw .. | .atomAdd .. | .atomMin .. | .atomMax .. | .atomAnd .. | .atomOr .. | .atomXor .. | .atomSwap .. | .atomCas .. => !k.killed && !c.stopped
  | _ => k.engineRuns c.eng && !c.stopped && !(c.eng == .cp && (s.core g).frozenCopy)

/-! ## Leaving the core -/

/-- Accesses of the tile memory slot: how many a command makes (R192 to R194). -/
def Cmd.units (c : Cmd) : Nat :=
  match c.instr with
  | .tld .. | .tst .. => tsRows (c.st 2) * rowBlocks (tsWidth (c.st 2))
  | _ => 1

/-- The virtual address of access u of a row transfer or a word access. -/
def Cmd.unitVa (c : Cmd) (u : Nat) : Word :=
  match c.instr with
  | .tld .. | .tst .. =>
    let q := rowBlocks (tsWidth (c.st 2))
    moveVa (c.st 0) (signed32 (fld (c.st 1) 0 32) * (u / q : Nat) + 64 * (u % q : Nat))
  | _ => c.st 0

/-- The address of an off-core access. -/
def Act.va : Act → Word
  | .farRead _ _ va _ | .farWrite _ _ va _ | .farAtom _ va => va
  | _ => 0

/-- An access sets out for its owner; it reaches it after an off-core time. -/
def Sys.sendFar (s : Sys) (g : Nat) (c : Cmd) (a : Act) : Sys :=
  let l := s.latency
  l.2.post g c.ctx (s.wcyc + l.1) 11 c.id a

/-- The order of the instruction whose write or record an entry holds. -/
def Gated.ord : Gated → Nat
  | .store c _ _ => c
  | .record o _ _ => o

/-- An entry of the gated buffer stands where its group took it: by issue, then as it comes (R327). -/
def insertGated (e : Gated) : List Gated → List Gated
  | [] => [e]
  | x :: rest => if e.ord < x.ord then e :: x :: rest else x :: insertGated e rest

/-- A write of a command leaves the core, or is held by its open restart region (R327). -/
def Sys.sendWrite (s : Sys) (g : Nat) (c : Cmd) (u : Nat) (va : Word) (data : List Byte) : Sys :=
  if c.gated && (s.ctx g c.ctx).region.open_ then
    s.modCtx g c.ctx fun k => { k with region := { k.region with gated := insertGated (.store c.id va data) k.region.gated } }
  else s.sendFar g c (.farWrite c.id u va data)

/-- The memory key and the length of a command's own scratchpad word. -/
def wordBytes (i : Instr) : Nat :=
  match i with
  | .ldw w _ | .stw w _ | .atomAdd w _ | .atomMin w _ | .atomMax w _ | .atomAnd w _ | .atomOr w _ | .atomXor w _ | .atomSwap w _ | .atomCas w _ => if w = 1 then 8 else 4
  | _ => 64

/-! ## Ordering at the owner (R58, R191, R246) -/

/-- The owner of the location that a write names lies in the instance of a scope around core `g` (R242, R243): the bank of a scratchpad frame, else the slice of the die, the hub or a span link. -/
def Sys.within (s : Sys) (m : Memory) (g scope : Nat) (va : Word) : Bool :=
  match (s.translate m va .write).1, scope with
  | .ok (.scratch o _), 0 | .ok (.scratch o _), 1 => o == g
  | .ok (.scratch o _), 2 => pavOf o == pavOf g
  | .ok (.scratch o _), 3 => dieOf o == dieOf g
  | _, 3 => ownerCode va == dieOf g
  | _, n => decide (4 ≤ n)

/-- Cycles from the ordering point of a scope to the owner of an access that reaches it in a given cycle: the way from each port to the next (R242). -/
def portTime (scope due : Nat) : Nat := ((List.range 4).drop scope).foldl (fun n p => n + Config.beyondPort p due) 0

/-- An earlier tile memory command of the core, toward the same owner, still has data to read in ticks to come; accesses leave the slot in dispatch order (R191). -/
def Sys.heldUp (s : Sys) (g : Nat) (c : Cmd) : Bool :=
  c.eng == .tm && (s.core g).cmds.any fun b => b.eng == .tm && decide (b.id < c.id) && b.started && !b.parked && !b.stopped && ownerCode (b.unitVa 0) == ownerCode (c.unitVa 0) &&
    s.agenda.any fun e => e.core == g && (match e.act with | .unitRead id _ => id == b.id | _ => false)

/-- A write under way has passed the ordering point of a scope, although its owner has not changed the byte (R242, R243): one parked at its owner has, a release access counts when it has performed, and past the core the time from a port to the owner is a free value (log 23). -/
def Sys.passed (s : Sys) (m : Memory) (g scope : Nat) (c : Cmd) (e : Ev) : Bool :=
  match e.act with
  | .farWrite _ _ va _ => !s.within m g scope va && (c.parked || (!(c.eng == .tm && bit (c.st 4) 8) && !s.heldUp g c && decide (e.due ≤ s.wcyc + portTime scope e.due)))
  | .acked _ => decide (scope ≤ 4)
  | _ => false

/-- Writes of a command that have not performed at their owner but at the scope. -/
def Sys.passedUnits (s : Sys) (m : Memory) (g scope : Nat) (c : Cmd) : Nat :=
  (s.agenda.filter fun e => e.core == g && e.act.cmd == some c.id && s.passed m g scope c e).length

/-- A read of the command is on its way to its owner. -/
def Sys.readsFar (s : Sys) (g : Nat) (c : Cmd) : Bool :=
  s.agenda.any fun e => e.core == g && e.act.cmd == some c.id && (match e.act with | .farRead .. | .farAtom .. => true | _ => false)

/-- Some access of a tile memory command or a copy has not performed at the scope: a read until its value is fixed, a write until it has passed (R127, R243). Rows that a TLD or a CPYR has yet to commit to its tile do not count (R250). -/
def Sys.unperformed (s : Sys) (m : Memory) (g scope : Nat) (c : Cmd) : Bool :=
  match c.instr with
  | .tld .. => !c.started || decide (c.pos < c.units)
  | .tst .. | .stw .. => decide (c.done + s.passedUnits m g scope c < c.units)
  | .cpyr .. => !c.started || decide (c.pos < tsRows (c.st 2) * (tsWidth (c.st 2) / 4)) || s.readsFar g c
  | .cpy .. | .cpyf .. => decide (c.done + s.passedUnits m g scope c < fld (c.st 2) 0 32 / 64)
  | .cpys .. | .cpyg .. => decide (c.done + s.passedUnits m g scope c < fld (c.st 2) 32 32 * (fld (c.st 2) 0 32 / 64))
  | .cpyst .. => decide (c.done + s.passedUnits m g scope c < tsRows (c.st 2) * (tsWidth (c.st 2) / 4))
  | _ => c.done == 0

/-- The order of a scalar instruction: its slot is one of the two scalar slots (R99). -/
def scalarOrd (ord : Nat) : Bool := ord % 32 == 1 || ord % 32 == 2

/-- A scalar LD or ST, a CTI or a DIGEST of the context, issued before order `id`, has not performed: a read until its value is fixed, a store until it is made, at every scope, for a ring is no fabric port (R127, R242, R243; log 23). -/
def Sys.scalarDue (s : Sys) (g x id : Nat) : Bool :=
  (s.agenda.any fun e => e.core == g && e.ctx == x && decide (e.ord < id) && (match e.act with | .load .. | .ctiRead .. => true | .store .. => scalarOrd e.ord | _ => false)) ||
  (s.flits.any fun f => f.core == g && f.ctx == x && decide (f.ord < id) && scalarOrd f.ord && (match f.act with | .store .. => true | _ => false)) ||
  ((s.ctx g x).digesting.any fun d => decide (d.done < d.n) && decide (d.id < id))

/-- The tile memory commands and copies of the context, dispatched before order `id`, that have not performed at a scope. -/
def Sys.transfersBefore (s : Sys) (m : Memory) (g x scope id : Nat) : List Cmd :=
  (s.core g).cmds.filter fun c => c.ctx == x && (c.eng == .tm || c.eng == .cp) && decide (c.id < id) && s.unperformed m g scope c

/-- A covered access of the context, dispatched before order `id`, has not performed at a scope (R127). -/
def Sys.coveredBefore (s : Sys) (m : Memory) (g x scope id : Nat) : Bool := !(s.transfersBefore m g x scope id).isEmpty || s.scalarDue g x id

/-- The fence is not complete (R127). -/
def Sys.fenceWaits (s : Sys) (m : Memory) (g x : Nat) (f : Fence) : Bool := s.coveredBefore m g x f.scope f.id

/-- Every write of a gated command stands in the gated buffer, so that it holds up nothing behind it (R327). -/
def Sys.buffered (s : Sys) (g : Nat) (c : Cmd) : Bool :=
  let r := (s.ctx g c.ctx).region
  c.gated && r.open_ && decide (c.units ≤ (r.gated.filter fun e => match e with | .store id _ _ => id == c.id | _ => false).length)

/-- A read of the open region names bytes that an earlier gated write is to store: it performs after the commit (R246, R327). -/
def Sys.overlapsGated (s : Sys) (g : Nat) (c : Cmd) : Bool :=
  let r := (s.ctx g c.ctx).region
  let n := match c.instr with | .tld .. => 64 | _ => wordBytes c.instr
  (match c.instr with | .tld .. | .ldw .. => true | _ => false) && r.open_ && decide (r.since ≤ c.id) && c.started && decide (c.pos < c.units) &&
    r.gated.any fun e =>
      match e with
      | .store id va data => decide (id < c.id) && (List.range c.units).any fun u => decide (va.toNat < (c.unitVa u).toNat + n) && decide ((c.unitVa u).toNat < va.toNat + data.length)
      | _ => false

/-- A command waits for the commit of its context's region: such a read, or one behind it to the same owner. -/
def Sys.waitsCommit (s : Sys) (g : Nat) (c : Cmd) : Bool :=
  c.eng == .tm && (s.core g).cmds.any fun b => b.ctx == c.ctx && decide (b.id ≤ c.id) && ownerCode (b.unitVa 0) == ownerCode (c.unitVa 0) && s.overlapsGated g b

/-- The commands whose accesses go before one of a command toward an owner: earlier tile memory commands of the core with an access to that owner to come, and the command itself where an earlier access of it is to perform (R246). -/
def Sys.ahead (s : Sys) (g : Nat) (c : Cmd) (va : Word) (earlier : List Ev) : List Nat :=
  (if earlier.any fun e => e.core == g && e.act.cmd == some c.id then [c.id] else []) ++
  (if c.eng == .tm then
    ((s.core g).cmds.filter fun b => b.eng == .tm && decide (b.id < c.id) && b.started && !b.parked && !b.stopped && decide (b.pos < b.units) &&
      ownerCode (b.unitVa 0) == ownerCode va && !s.buffered g b && (b.ctx == c.ctx || !s.waitsCommit g b)).map (·.id)
  else [])

/-- A release access waits until every earlier covered access of its context has performed at its scope (R191). -/
def Sys.released (s : Sys) (m : Memory) (g : Nat) (c : Cmd) : Bool := !(c.eng == .tm && bit (c.st 4) 8) || !s.coveredBefore m g c.ctx (fld (c.st 4) 11 3) c.id

/-- An access that has set out before for the same owner, from the same die, performs first: accesses reach an owner in the order in which they passed an ordering point that they share (R243), which is taken to be the order in which they set out (DESIGN CHOICE, log 23). One that waits at its owner has arrived. -/
def Sys.follows (s : Sys) (g : Nat) (va : Word) (coming : List Ev) : Bool :=
  coming.any fun e => dieOf e.core == dieOf g && ownerCode e.act.va == ownerCode va && (match s.cmd e.core e.ord with | some b => !b.parked && !b.stopped && s.moves e.core b | none => false)

/-- What the command waits for varies with the world outside: it has an access off the core or is a copy whose timing is not fixed, and no access of its own context or core holds it up at a tick (R120, R192, R193, R199). -/
def Sys.underWay (s : Sys) (m : Memory) (g : Nat) (c : Cmd) : Bool :=
  c.started && c.varies && !s.heldUp g c && s.released m g c &&
    (match c.instr with
      | .tst .. | .stw .. => s.agenda.any fun e => e.core == g && e.act.cmd == some c.id && decide (8 ≤ e.phase)
      | .cpyr .. => c.fired
      | _ => true)

/-- A wait for the command is a stall of its context (R120): it is under way, or a release access or a refill that has not fired waits for one that is. A wait for a tick of the schedule passes ticks (DEDUCED, log 72). -/
def Sys.outside (s : Sys) (m : Memory) (g : Nat) (c : Cmd) : Bool :=
  s.underWay m g c ||
    (c.started && (s.core g).cmds.any fun b => b.ctx == c.ctx && decide (b.id < c.id) && s.underWay m g b &&
      (!s.released m g c || (match c.instr with | .cpyr .. => !c.fired && b.reads.any fun t => c.writes.contains t | _ => false)))

/-- A wait for a place in the queue of the tile memory or copy engine varies with the world outside: a command of it does, or the copy engine stands frozen (R120, R187, R312; DEDUCED, log 55). -/
def Sys.queueVaries (s : Sys) (m : Memory) (e : Engine) : Bool :=
  (s.hereCore.frozenCopy && e == .cp) || s.hereCore.cmds.any fun c => c.eng == e && s.outside m s.cur.core c

/-- Such a wait for the transfers that a fence of order `id` covers. -/
def Sys.outsideBefore (s : Sys) (m : Memory) (g x scope id : Nat) : Bool := (s.transfersBefore m g x scope id).any (s.outside m g)

/-- The same for the tile memory accesses that a barrier of order `id` waits for (R126). -/
def Sys.tmOutside (s : Sys) (m : Memory) (g x id : Nat) : Bool := ((s.transfersBefore m g x 5 id).filter fun c => c.eng == .tm).any (s.outside m g)

/-- What keeps a later covered access of the context from being dispatched: a fence of the full or acquire kind, or an acquire access (R127, R191). The flag says whether the wait varies with the world outside. -/
def Sys.accessHold (s : Sys) (m : Memory) (g x : Nat) : Option Bool :=
  let fences := (s.ctx g x).fences.filter fun f => f.kind != 1 && s.fenceWaits m g x f
  let acquires := (s.core g).cmds.filter fun c => c.ctx == x && c.eng == .tm && bit (c.st 4) 9
  if !fences.isEmpty then some (fences.any fun f => s.outsideBefore m g x f.scope f.id)
  else if !acquires.isEmpty then some (acquires.any (s.outside m g))
  else none

/-- An access of the context that has yet to come shares a byte with this one: a parked row transfer or word access, dispatched earlier (R246). -/
def Sys.parkedBefore (s : Sys) (g : Nat) (c : Cmd) (va : Word) (n : Nat) : Bool :=
  c.eng == .tm && (s.core g).cmds.any fun b => b.eng == .tm && b.ctx == c.ctx && decide (b.id < c.id) && b.parked &&
    ((List.range b.units).drop b.pos).any fun u => decide (va.toNat < (b.unitVa u).toNat + (if b.units = 1 then wordBytes b.instr else 64)) && decide ((b.unitVa u).toNat < va.toNat + n)

/-- Of writes that one region gated, those gated earlier perform first (R327). -/
def Sys.gatedBefore (s : Sys) (m : Memory) (g : Nat) (c : Cmd) : Bool :=
  c.gateOf != 0 && (s.core g).cmds.any fun b => b.ctx == c.ctx && b.gateOf == c.gateOf && decide (b.id < c.id) && s.unperformed m g 4 b

/-! ## Faults at the owner -/

/-- The master of a command's access (R308, R312): the source of a CPYG is read by a stride-gather unit, every other copy access is the copy engine's. -/
def Cmd.master (c : Cmd) (writes : Bool) : Nat :=
  match c.instr with
  | .cpyg .. => if writes then 1 else 2
  | _ => if c.eng == .cp then 1 else 0

/-- The path of a stride-gather unit: the lodge of its die (R308). -/
def pathOf (mst g x : Nat) (va : Word) : Word :=
  if mst = 2 then BitVec.ofNat 64 (2 * 2 ^ 27 + 2 ^ 24 + ownerCode va % 4 * 2 ^ 20) else faultPathCore mst g x

/-- A master by number: a context, the copy engine of a core, a stride-gather unit of a stack (R308, R312). -/
def masterKey (mst g x : Nat) (va : Word) : Nat :=
  match mst with
  | 0 => 4 * g + x
  | 1 => g
  | _ => 2 * (ownerCode va % 4) + boolNat (Config.stackUnit va)

/-- One entry for each page and each master until the next REPLAY (R330). -/
def Sys.reportPage (s : Sys) (mst g x : Nat) (va : Word) : Sys :=
  let key := (va.toNat / 2 ^ 21, mst, masterKey mst g x va)
  if s.pkg.reported.contains key then s
  else
    let s := s.pfqAppend (faultWord0 false 7 1 0 0, pathOf mst g x va, va, 0)
    { s with pkg := { s.pkg with reported := s.pkg.reported ++ [key] } }

/-- The access belongs to the open shared-mode region of its context. -/
def Ctx.inRegion (k : Ctx) (id : Nat) : Bool := k.region.open_ && k.region.checkpoint.isSome && decide (k.region.since ≤ id)

/-- The context freezes, its fault recorded; the rest of a timed spread stops with it (R304, R312, R319). -/
def Sys.freezeContext (s : Sys) (g x : Nat) (f : FaultRec) : Sys :=
  let s := (s.dropRegion g x).modCtx g x fun k => { k.setCause f.cls f.code with far := f.far, fga := ⟨!k.deferred.isEmpty, false, f.slot, f.grp⟩, state := .frozen, held := false, stalling := false, haltTick := s.now g x, mid := false }
  (s.pfqAppend (faultWord0 false f.cls f.code 0 0, f.path g x, f.far, (s.ctx g x).fga.word)).stopSpread g x

/-- A fault that an access of a command meets at its owner (R312, R330, R333, R334). -/
def Sys.accessFault (s : Sys) (g : Nat) (c : Cmd) (writes : Bool) (code : Nat) (va : Word) : Sys :=
  let k := s.ctx g c.ctx
  let mst := c.master writes
  match code with
  | 1 =>
    let s := s.reportPage mst g c.ctx va
    if k.inRegion c.id then
      (s.dropRegion g c.ctx).modCtx g c.ctx fun k => { k with region := { rback := true }, state := .waiting, held := false, stalling := false }
    else
      let s := s.modCmd g c.id fun c => { c with parked := true }
      { s with pkg := { s.pkg with parked := s.pkg.parked ++ [{ owner := ownerCode va, va := va, core := g, ctx := c.ctx, cmd := c.id, unit := c.pos }] } }
  | 2 =>
    let f : FaultRec := { cls := 7, code := 2, slot := c.slot, far := va, grp := c.grp }
    let stop (s : Sys) : Sys := s.modCmd g c.id fun c => { c with stopped := true, froze := if mst = 2 then (if Config.stackUnit va then 3 else 2) else mst }
    if mst = 0 then stop (s.freezeContext g c.ctx f)
    else
      let s := s.pfqAppend (faultWord0 false 7 2 0 0, pathOf mst g c.ctx va, va, (Fga.mk false false c.slot c.grp).word)
      let s := stop (s.deferFault g c.ctx f)
      if mst = 1 then s.modCore g fun q => { q with frozenCopy := true }
      else { s with pkg := { s.pkg with lodges := vmod s.pkg.lodges (ownerCode va % 4) fun l => { l with frozen := l.frozen ||| (if Config.stackUnit va then 2 else 1) } } }
  | 3 =>
    if k.inRegion c.id then (s.dropRegion g c.ctx).modCtx g c.ctx fun k => { k with state := .ready, held := false, stalling := false }
    else s.stopCmd g c 7 3 va
  | n => s.stopCmd g c 7 n va

/-! ## Performing at the owner -/

/-- What an ATOM stores, by its opcode less 0x08 (R194). -/
def atomResult (op n : Nat) (uns : Bool) (old v cmp : Nat) : Nat :=
  let signed (x : Nat) : Int := if x < 2 ^ (8 * n - 1) then x else (x : Int) - 2 ^ (8 * n)
  let less (x y : Nat) : Bool := if uns then decide (x < y) else decide (signed x < signed y)
  match op with
  | 0 => (old + v) % 2 ^ (8 * n)
  | 1 => if less v old then v else old
  | 2 => if less old v then v else old
  | 3 => old &&& v
  | 4 => old ||| v
  | 5 => old ^^^ v
  | 6 => v
  | _ => if old = cmp then v else old

/-- What an ATOM instruction stores. -/
def atomNew (i : Instr) (n : Nat) (uns : Bool) (old v cmp : Nat) : Nat :=
  let op : Nat := match i with
    | .atomAdd .. => 0 | .atomMin .. => 1 | .atomMax .. => 2 | .atomAnd .. => 3 | .atomOr .. => 4 | .atomXor .. => 5 | .atomSwap .. => 6 | _ => 7
  atomResult op n uns old v cmp

/-- The writes of data at a place; a far end keeps its own. -/
def Sys.writePlace (s : Sys) (m : Memory) (p : Place) (data : List Byte) : Sys × List Write :=
  match p with
  | .mem k h => let r := s.writeUnit m k h data; (r.1, r.2.map fun w => .put w.1 w.2)
  | .scratch g off => s.arrive g off data
  | .outside .. => (s, [])

/-- The read's address is translated at its owner, whatever else it waits for. -/
def Sys.translates (s : Sys) (m : Memory) (va : Word) : Bool := match (s.translate m va .read).1 with | .ok _ => true | _ => false

/-- What became of an access that reached its owner. -/
inductive Reached where
  /-- It has performed, or it will never be. -/
  | ended (s : Sys) (ws : List Write)
  /-- It waits. -/
  | stays (s : Sys)

/-- Data read at the owner travels back (R195). -/
def Sys.sendBack (s : Sys) (g : Nat) (c : Cmd) (u : Nat) (data : List Byte) : Sys :=
  let s := s.modCmd g c.id fun c => { c with pos := if c.eng == .tm then c.pos + 1 else c.pos }
  let l := s.latency
  l.2.post g c.ctx (s.wcyc + l.1) 8 c.id (.back c.id u data)

/-- Bytes of a translated read: poison stops the command. -/
def Sys.readFar (s : Sys) (m : Memory) (g : Nat) (c : Cmd) (p : Place) (n : Nat) (va : Word) : Option (List Byte) × Sys :=
  match p.key.bind fun k => (s.poisoned k n).map fun _ => k with
  | some k => s.readFor m g c k n va
  | none => let r := s.readPlace m p n; (some r.1, r.2)

/-- A write of a command has performed: the next unit, or the command's completion, follows. -/
def Sys.writeDone (s : Sys) (g : Nat) (c : Cmd) (complete : Instr) (total : Nat) : Sys :=
  let n := c.done + 1
  let s := s.modCmd g c.id fun c => { c with done := n, pos := if c.eng == .tm then c.pos + 1 else c.pos }
  if n = total then s.happens complete
  else if c.eng == .cp && c.pos == n then s.cmdSoon g c 1 1 (.unitRead c.id n)
  else s

/-- A write has performed at its place: a host window or a peer acknowledges it after an off-core time (R243, R251). -/
def Sys.performed (s : Sys) (g : Nat) (c : Cmd) (p : Place) (complete : Instr) (total : Nat) : Sys :=
  match p with
  | .outside .. => let l := s.latency; l.2.post g c.ctx (s.wcyc + l.1) 8 c.id (.acked c.id)
  | _ => s.writeDone g c complete total

/-- An access of command `c` reaches its owner. `total` units complete it, with the row `complete`. -/
def Sys.reach (s : Sys) (m : Memory) (g : Nat) (c : Cmd) (a : Act) (complete : Instr) (total : Nat) : Reached :=
  match a with
  | .farRead _ u va n =>
    let r := s.translate m va .read
    match r.1 with
    | .wait => .stays r.2
    | .fault code => .stays (r.2.accessFault g c false code va)
    | .ok p =>
      match r.2.readFar m g c p n va with
      | (some bs, s) => .ended (s.sendBack g c u bs) []
      | (none, s) => .stays s
  | .farWrite _ _ va data =>
    let r := s.translate m va .write
    match r.1 with
    | .wait => .stays r.2
    | .fault code => .stays (r.2.accessFault g c true code va)
    | .ok p =>
      let w := r.2.writePlace m p data
      .ended (w.1.performed g c p complete total) w.2
  | .farAtom _ va =>
    let n := wordBytes c.instr
    let r := s.translate m va .atomic
    match r.1 with
    | .wait => .stays r.2
    | .fault code => .stays (r.2.accessFault g c true code va)
    | .ok p =>
      match r.2.readFar m g c p n va with
      | (none, s) => .stays s
      | (some bs, s) =>
        let v := atomNew c.instr n (bit (c.st 4) 10) (leNat bs) ((c.st 2).toNat % 2 ^ (8 * n)) ((c.st 3).toNat % 2 ^ (8 * n))
        let w := s.writePlace m p (leBytes n v)
        .ended (w.1.sendBack g c 0 bs) w.2
  | _ => .ended s []

end Sys2Proof.Machine
end

