-- ==== Sys2Proof/Machine/TileMem.lean ====
section
/-! DEFINITION. The tile memory slot: R190 to R195. -/

namespace Sys2Proof.Machine

/-! ## Dispatch -/

/-- Limits common to the slot's commands: the scope of TS4 and the completion counter (R189, R190). -/
def Ctx.ts4Ok (k : Ctx) (v : Word) : Bool := decide (fld v 11 3 < 6) && k.tcOk (fld v 0 6)

/-- An address within its limits, with the address that a breach concerns: the first that breaks one, else 0 (R302, R322). -/
def badAddress (l : List (Bool × Word)) : Word := ((l.find? fun p => !p.1).map (·.2)).getD 0

/-- FAR of a row transfer's limits: `va`, where it is not a multiple of 64. -/
def Ctx.rowsFar (k : Ctx) : Word :=
  let va := (k.staged .tm).getD 0 0
  badAddress [(fld va 0 6 == 0, va)]

/-- Limits of a row transfer (R190, R322). -/
def Ctx.rowsOk (k : Ctx) : Bool :=
  let st := k.staged .tm
  fld (st.getD 0 0) 0 6 == 0 && fld (st.getD 1 0) 0 6 == 0 && k.tsOk (st.getD 2 0) && k.ts4Ok (st.getD 4 0)

/-- The 64-byte segments of a row transfer (R327). -/
def Ctx.rowSegments (k : Ctx) : Nat :=
  let v := (k.staged .tm).getD 2 0
  tsRows v * rowBlocks (tsWidth v)

/-- TLD: rows of memory into a tile (R192). -/
def execTld (t : BitVec 16) (s : State) : Host.Outcome State Fault Refusal :=
  let k := s.sys.here
  let st := k.staged .tm
  s.dispatch { eng := .tm, instr := .tld t, delay := t.toNat, stg := st, writes := [tsTile (st.getD 2 0)], occ := some 1, slow := s.sys.queueVaries s.mem .tm,
               faults := s.sys.range k.rowsOk k.rowsFar }

/-- TST: rows of a tile into memory (R192). -/
def execTst (c : BitVec 1) (e : BitVec 8) (t : BitVec 16) (s : State) : Host.Outcome State Fault Refusal :=
  let k := s.sys.here
  let st := k.staged .tm
  s.dispatch { eng := .tm, instr := .tst c e t, delay := t.toNat, stg := st, reads := [tsTile (st.getD 2 0)], occ := some (tsRows (st.getD 2 0)), slow := s.sys.queueVaries s.mem .tm,
               faults := s.sys.range k.rowsOk k.rowsFar, gate := k.rowSegments }

/-- Limits of a word access: the address is a multiple of the word, the scratchpad side is the core's own (R190, R322). -/
def Ctx.wordOk (k : Ctx) (g n : Nat) : Bool :=
  let st := k.staged .tm
  let pad := fld (st.getD 1 0) 0 28
  (st.getD 0 0).toNat % n == 0 && pad % 8 == 0 && ownScratch g pad && k.ts4Ok (st.getD 4 0)

/-- FAR of a word access's limits: the side whose address breaks one (R322). -/
def Ctx.wordFar (k : Ctx) (g n : Nat) : Word :=
  let st := k.staged .tm
  let pad := fld (st.getD 1 0) 0 28
  badAddress [((st.getD 0 0).toNat % n == 0, st.getD 0 0), (pad % 8 == 0 && ownScratch g pad, BitVec.ofNat 64 pad)]

/-- The delay that a word access carries. -/
def wordDelay (i : Instr) : Nat :=
  match i with
  | .ldw _ t | .stw _ t | .atomAdd _ t | .atomMin _ t | .atomMax _ t | .atomAnd _ t | .atomOr _ t | .atomXor _ t | .atomSwap _ t | .atomCas _ t => t.toNat
  | _ => 0

/-- A word access joins the queue (R193, R194). -/
def State.wordAccess (s : State) (i : Instr) (gate : Nat) : Host.Outcome State Fault Refusal :=
  let k := s.sys.here
  let st := k.staged .tm
  s.dispatch { eng := .tm, instr := i, delay := wordDelay i, stg := st, occ := some 1, slow := s.sys.queueVaries s.mem .tm,
               faults := s.sys.range (k.wordOk s.sys.cur.core (wordBytes i)) (k.wordFar s.sys.cur.core (wordBytes i)), gate := gate }

/-- LDW: a word of memory into the scratchpad (R193). -/
def execLdw (w : BitVec 1) (t : BitVec 16) (s : State) : Host.Outcome State Fault Refusal := s.wordAccess (.ldw w t) 0

/-- STW: a word of the scratchpad into memory (R193). -/
def execStw (w : BitVec 1) (t : BitVec 16) (s : State) : Host.Outcome State Fault Refusal := s.wordAccess (.stw w t) 1

/-- ATOM.add (R194). -/
def execAtomAdd (w : BitVec 1) (t : BitVec 16) (s : State) : Host.Outcome State Fault Refusal := s.wordAccess (.atomAdd w t) 0

/-- ATOM.min (R194). -/
def execAtomMin (w : BitVec 1) (t : BitVec 16) (s : State) : Host.Outcome State Fault Refusal := s.wordAccess (.atomMin w t) 0

/-- ATOM.max (R194). -/
def execAtomMax (w : BitVec 1) (t : BitVec 16) (s : State) : Host.Outcome State Fault Refusal := s.wordAccess (.atomMax w t) 0

/-- ATOM.and (R194). -/
def execAtomAnd (w : BitVec 1) (t : BitVec 16) (s : State) : Host.Outcome State Fault Refusal := s.wordAccess (.atomAnd w t) 0

/-- ATOM.or (R194). -/
def execAtomOr (w : BitVec 1) (t : BitVec 16) (s : State) : Host.Outcome State Fault Refusal := s.wordAccess (.atomOr w t) 0

/-- ATOM.xor (R194). -/
def execAtomXor (w : BitVec 1) (t : BitVec 16) (s : State) : Host.Outcome State Fault Refusal := s.wordAccess (.atomXor w t) 0

/-- ATOM.swap (R194). -/
def execAtomSwap (w : BitVec 1) (t : BitVec 16) (s : State) : Host.Outcome State Fault Refusal := s.wordAccess (.atomSwap w t) 0

/-- ATOM.cas (R194). -/
def execAtomCas (w : BitVec 1) (t : BitVec 16) (s : State) : Host.Outcome State Fault Refusal := s.wordAccess (.atomCas w t) 0

/-! ## Progress -/

/-- A tile memory command starts in this tick (R192 to R194). -/
def Sys.startTm (s : Sys) (g : Nat) (c : Cmd) : Sys :=
  let now := s.now g c.ctx
  match c.instr with
  | .tld .. => (List.range c.units).foldl (fun s u => s.sendFar g c (.farRead c.id u (c.unitVa u) 64)) s
  | .tst .. => s.postCmd g c now 1 (.unitRead c.id 0)
  | .ldw .. => s.sendFar g c (.farRead c.id 0 (c.st 0) (wordBytes c.instr))
  | .stw .. => s.postCmd g c (now + 2) 1 (.unitRead c.id 0)
  | _ => s.sendFar g c (.farAtom c.id (c.st 0))

/-- A unit is read: a row of the tile of a TST, of which the segments that have not performed then leave (R200), or the scratchpad word of an STW. A poisoned word of the tile stops the command; FAR is 0, for the vector file has no address (R341, log 43). -/
def Sys.readTm (s : Sys) (m : Memory) (g : Nat) (c : Cmd) (u : Nat) : Sys :=
  let k := s.ctx g c.ctx
  match c.instr with
  | .tst .. =>
    let v := c.st 2
    let w := tsWidth v
    let q := rowBlocks w
    let bytes := rowBytes w (readRow m g (k.tileBase (tsTile v)) (tsRow0 v + u) w)
    if (s.rowPoison g (k.tileBase (tsTile v)) (tsRow0 v + u) w).isSome then s.stopCmd g c 11 1 0 else
    let s := ((List.range q).filter fun j => decide (c.done ≤ u * q + j)).foldl (fun s j => s.sendWrite g c (u * q + j) (c.unitVa (u * q + j)) ((bytes.drop (64 * j)).take 64)) s
    if u + 1 = tsRows v then s.postCmd g c (s.now g c.ctx + 1) 0 (.release c.id (tsTile v))
    else s.postCmd g c (s.now g c.ctx + 1) 1 (.unitRead c.id (u + 1))
  | _ =>
    let off := localOff (fld (c.st 1) 0 28)
    let r := s.readFor m g c (scratchKey g off) (wordBytes c.instr) (BitVec.ofNat 64 (fld (c.st 1) 0 28))
    match r.1 with
    | some bs => r.2.sendWrite g c 0 (c.st 0) bs
    | none => r.2

/-- Data arrives at the core: of a TLD it waits for the last byte, of a word access it is written to the scratchpad in this cycle (R192, R193). -/
def Sys.backTm (s : Sys) (g : Nat) (c : Cmd) (u : Nat) (data : List Byte) : Sys :=
  match c.instr with
  | .tld .. =>
    let s := s.modCmd g c.id fun c => { c with data := c.data ++ [(u, data)], done := c.done + 1 }
    if c.done + 1 = c.units then s.later 1 (.tileTransferComplete g c.id) else s
  | _ => s.post g c.ctx s.wcyc 10 c.id (.unitWrite c.id 0 data)

/-- The scratchpad write of a word access performs: it ranks with the copy-engine writes (R193). -/
def Sys.writeTm (s : Sys) (g : Nat) (c : Cmd) (data : List Byte) : Sys × List Write :=
  let r := s.arrive g (localOff (fld (c.st 1) 0 28)) data
  ((r.1.modCmd g c.id fun c => { c with done := 1 }).happens (.tileTransferComplete g c.id), r.2)

/-- The bytes of unit u of a command's data. -/
def Cmd.dataAt (c : Cmd) (u : Nat) : List Byte := ((c.data.find? fun p => p.1 == u).map (·.2)).getD []

/-- The writes that commit the rows of a TLD. -/
def Cmd.commitRows (c : Cmd) (base g : Nat) : List Write :=
  let v := c.st 2
  let w := tsWidth v
  let q := rowBlocks w
  (List.range (tsRows v)).flatMap fun r =>
    writeRow g base (tsRow0 v + r) w (bytesRow w ((List.range q).flatMap fun j => c.dataAt (r * q + j)))

/-- TILE_TRANSFER_COMPLETE: a TLD commits all its rows in this tick; a TST, LDW, STW or ATOM has completed (R192, R193). A transfer parked by a halt or a fault completes after its context resumes. -/
def execTileTransferComplete (core id : Nat) (s : State) : Host.Outcome State Fault Refusal :=
  s.eventOn (decide (core < 1024)) fun y =>
    match y.cmd core id with
    | none => (y, [])
    | some c =>
      if c.eng == .tm && y.moves core c then
        match c.instr with
        | .tld .. => if c.done = c.units then (y.complete core c, c.commitRows ((y.ctx core c.ctx).tileBase (tsTile (c.st 2))) core) else (y, [])
        | .tst .. => if c.done = c.units then (y.complete core c, []) else (y, [])
        | _ => if c.done = 0 then (y, []) else (y.complete core c, [])
      else (y, [])

end Sys2Proof.Machine
end

