-- ==== Sys2Proof/Machine/Copy.lean ====
section
/-! DEFINITION. The copy engine: R196 to R200, with the stride-gather patterns of R278. -/

namespace Sys2Proof.Machine

/-! ## Fields and addresses -/

def Cmd.src (c : Cmd) : Word := c.st 0
def Cmd.dst (c : Cmd) : Word := c.st 1
def Cmd.elen (c : Cmd) : Nat := fld (c.st 2) 0 32
def Cmd.arg (c : Cmd) : Word := c.st 3
def Cmd.sloc (c : Cmd) : Bool := bit (c.st 4) 7
def Cmd.dloc (c : Cmd) : Bool := bit (c.st 4) 8
def Cmd.lane (c : Cmd) : Nat := fld (c.st 4) 9 4

/-- 64-byte blocks of a copy, from its opcode and YS2 (R196, R197). -/
def copyBlocks (i : Instr) (y2 : Word) : Nat :=
  match i with
  | .cpys .. | .cpyg .. => fld y2 32 32 * (fld y2 0 32 / 64)
  | .cpyr .. | .cpyst .. => tsRows y2 * rowBlocks (tsWidth y2)
  | _ => fld y2 0 32 / 64

def Cmd.blocks (c : Cmd) : Nat := copyBlocks c.instr (c.st 2)

/-- Blocks of an element. -/
def Cmd.perElem (c : Cmd) : Nat := c.elen / 64

/-- The distance of block u of row-wise commands. -/
def Cmd.rowStep (c : Cmd) (u : Nat) : Int :=
  let q := rowBlocks (tsWidth (c.st 2))
  signed32 (fld c.arg 0 32) * (u / q : Nat) + 64 * (u % q : Nat)

/-- The distance of element e under a stride pattern: s0, s1, s2, c0, c1 (R278). -/
def patternStep (p : List Nat) (e : Nat) : Int :=
  let c0 := p.getD 3 1
  let c1 := p.getD 4 1
  (e % c0 : Nat) * signed32 (p.getD 0 0) + (e / c0 % c1 : Nat) * signed32 (p.getD 1 0) + (e / (c0 * c1) : Nat) * signed32 (p.getD 2 0)

/-- How far from `src` block u is read. -/
def Cmd.srcStep (c : Cmd) (u : Nat) : Int :=
  match c.instr with
  | .cpys .. => signed32 (fld c.arg 0 32) * (u / c.perElem : Nat) + 64 * (u % c.perElem : Nat)
  | .cpyg .. => patternStep c.nums (u / c.perElem) + 64 * (u % c.perElem : Nat)
  | .cpyr .. => c.rowStep u
  | _ => 64 * (u : Nat)

/-- How far from `dst` block u is written. -/
def Cmd.dstStep (c : Cmd) (u : Nat) : Int :=
  match c.instr with
  | .cpys .. => signed32 (fld c.arg 32 32) * (u / c.perElem : Nat) + 64 * (u % c.perElem : Nat)
  | .cpyst .. => c.rowStep u
  | _ => 64 * (u : Nat)

/-- A pavilion-local address moved by a distance (R51). -/
def moveLocal (a : Word) (d : Int) : Nat := (moveVa a d).toNat % 2 ^ 28

/-! ## Dispatch -/

/-- Lengths and strides are multiples of 64 in their ranges (R196, R322). -/
def lengthOk (n : Nat) : Bool := n % 64 == 0 && decide (64 ≤ n) && decide (n ≤ 2 ^ 30)

/-- Limits of a copy (R190, R196, R197, R322). -/
def Ctx.copyOk (k : Ctx) (i : Instr) : Bool :=
  let st := k.staged .cp
  let src := st.getD 0 0
  let dst := st.getD 1 0
  let y2 := st.getD 2 0
  let arg := st.getD 3 0
  let n := fld y2 32 32
  k.tcOk (fld (st.getD 4 0) 0 6) &&
    (match i with
      | .cpy .. => fld src 0 6 == 0 && fld dst 0 6 == 0 && lengthOk (fld y2 0 32)
      | .cpys .. => fld src 0 6 == 0 && fld dst 0 6 == 0 && lengthOk (fld y2 0 32) && decide (1 ≤ n) && decide (n ≤ 65535) && fld arg 0 6 == 0 && fld arg 32 6 == 0
      | .cpyg .. => fld src 0 6 == 0 && fld dst 0 6 == 0 && lengthOk (fld y2 0 32) && decide (1 ≤ n) && decide (n ≤ 65535) && decide (ownerCode src ≤ 3) && !bit (st.getD 4 0) 7
      | .cpyr .. => fld src 0 6 == 0 && k.tsOk y2 && fld arg 0 6 == 0
      | .cpyst .. => fld dst 0 6 == 0 && k.tsOk y2 && fld arg 0 6 == 0
      | _ => fld dst 0 6 == 0 && lengthOk (fld y2 0 32))

/-- FAR of a copy's limits: the end whose address breaks one (R322). -/
def Ctx.copyFar (k : Ctx) (i : Instr) : Word :=
  let st := k.staged .cp
  let src := st.getD 0 0
  let dst := st.getD 1 0
  let reads := match i with | .cpyst .. | .cpyf .. => false | _ => true
  let writes := match i with | .cpyr .. => false | _ => true
  let owner := match i with | .cpyg .. => decide (ownerCode src ≤ 3) | _ => true
  badAddress [(!reads || (fld src 0 6 == 0 && owner), src), (!writes || fld dst 0 6 == 0, dst)]

/-- Entries of the gated buffer that a copy takes: its blocks, when `dst` is a virtual address (R327). -/
def Ctx.copyGate (k : Ctx) (i : Instr) : Nat :=
  let st := k.staged .cp
  match i with
  | .cpyr .. => 0
  | _ => if bit (st.getD 4 0) 8 then 0 else copyBlocks i (st.getD 2 0)

/-- A copy joins its queue. -/
def State.copy (s : State) (i : Instr) (delay : Nat) (reads writes : List Nat) : Host.Outcome State Fault Refusal :=
  let k := s.sys.here
  let st := k.staged .cp
  s.dispatch { eng := .cp, instr := i, delay := delay, stg := st, reads := reads, writes := writes, gate := k.copyGate i, slow := s.sys.queueVaries s.mem .cp,
               faults := s.sys.range (k.copyOk i) (k.copyFar i) }

/-- The tile that YS2 names. -/
def Ctx.copyTile (k : Ctx) : Nat := tsTile ((k.staged .cp).getD 2 0)

/-- CPY (R197). -/
def execCpy (t : BitVec 16) (s : State) : Host.Outcome State Fault Refusal := s.copy (.cpy t) t.toNat [] []

/-- CPYS (R197). -/
def execCpys (t : BitVec 16) (s : State) : Host.Outcome State Fault Refusal := s.copy (.cpys t) t.toNat [] []

/-- CPYG (R197, R278). -/
def execCpyg (t : BitVec 16) (s : State) : Host.Outcome State Fault Refusal := s.copy (.cpyg t) t.toNat [] []

/-- CPYR (R197, R198). -/
def execCpyr (t : BitVec 16) (s : State) : Host.Outcome State Fault Refusal := s.copy (.cpyr t) t.toNat [] [s.sys.here.copyTile]

/-- CPYST (R197). -/
def execCpyst (c : BitVec 1) (e : BitVec 8) (t : BitVec 16) (s : State) : Host.Outcome State Fault Refusal :=
  s.copy (.cpyst c e t) t.toNat [s.sys.here.copyTile] []

/-- CPYF (R197). -/
def execCpyf (t : BitVec 16) (s : State) : Host.Outcome State Fault Refusal := s.copy (.cpyf t) t.toNat [] []

/-! ## Progress -/

/-- Ticks from the issue of a block's load to the read of the bank (R52). -/
def Cmd.loadWait (c : Cmd) (g u : Nat) : Nat :=
  match c.instr with
  | .cpyst .. | .cpyf .. => 0
  | _ => if localOwner g (moveLocal c.src (c.srcStep u)) = g then 2 else 3

/-- The copy runs from this tick: of a varying copy the blocks follow one another, of a fixed one block 0 is read at its load's tick (R199). -/
def Sys.runCopy (s : Sys) (g : Nat) (c : Cmd) : Sys :=
  if c.varies then s.post g c.ctx s.wcyc 9 c.id (.unitRead c.id 0)
  else s.post g c.ctx (s.now g c.ctx + c.loadWait g 0) 1 c.id (.unitRead c.id 0)

/-- A copy starts; a refill waits for its readers (R198, R199). -/
def Sys.startCp (s : Sys) (g : Nat) (c : Cmd) : Sys :=
  match c.instr with
  | .cpyr .. => s.happens (.cpyrFire g c.id)
  | _ => s.runCopy g c

/-- A refill may fire: it has started, and every command dispatched before it that reads the tile has taken its last read (R198). -/
def Core.refillFree (q : Core) (c : Cmd) : Bool :=
  !(q.cmds.any fun b => b.ctx == c.ctx && decide (b.id < c.id) && b.reads.any fun t => c.writes.contains t)

/-- CPYR_FIRE (R198). -/
def execCpyrFire (core id : Nat) (s : State) : Host.Outcome State Fault Refusal :=
  s.eventOn (decide (core < 1024)) fun y =>
    match y.cmd core id with
    | none => (y, [])
    | some c =>
      match c.instr with
      | .cpyr .. =>
        if c.started && !c.fired && (y.core core).refillFree c && y.moves core c then
          ((y.modCmd core id fun c => { c with fired := true }).runCopy core c, [])
        else (y, [])
      | _ => (y, [])

/-- The words of the pattern that a CPYG names, when its entry is valid (R278). -/
def patternOf (v : Vector Word 4) : Option (List Nat) :=
  let w0 := vget v 0
  let w1 := vget v 1
  let s0 := fld w0 0 32
  let s1 := fld w0 32 32
  let s2 := fld w1 0 32
  let c0 := fld w1 32 16
  let c1 := fld w1 48 16
  if vget v 2 = 1 ∧ vget v 3 = 0 ∧ s0 % 64 = 0 ∧ s1 % 64 = 0 ∧ s2 % 64 = 0 ∧ c0 ≠ 0 ∧ c1 ≠ 0 then some [s0, s1, s2, c0, c1] else none

/-- The command reads block u next (u + 1 after it). -/
def Sys.copyPos (s : Sys) (g : Nat) (c : Cmd) (u : Nat) : Sys := s.modCmd g c.id fun c => { c with pos := u + 1 }

/-- The bank of block u + 1 is read in the tick of block u's: a remote load reads a tick after a local one issued with it (R52). -/
def Cmd.abreast (c : Cmd) (g u : Nat) : Bool := decide (u + 1 < c.blocks) && c.loadWait g (u + 1) + 1 == c.loadWait g u

/-- The load of the next block of a fixed copy, unless its bank is read in this tick. -/
def Sys.nextBlock (s : Sys) (g : Nat) (c : Cmd) (u : Nat) : Sys :=
  if u + 1 < c.blocks && !c.abreast g u then s.post g c.ctx (s.now g c.ctx + 1 + c.loadWait g (u + 1) - c.loadWait g u) 1 c.id (.unitRead c.id (u + 1)) else s

/-- A block of a fixed copy is stored at a pavilion-local address by a store issued `n` ticks from now (R52, R199). -/
def Sys.storeBlock (s : Sys) (g : Nat) (c : Cmd) (u n : Nat) (data : List Byte) : Sys :=
  let a := moveLocal c.dst (c.dstStep u)
  let o := localOwner g a
  if o = g then s.post g c.ctx (s.now g c.ctx + n + 2) 2 c.id (.unitWrite c.id u data)
  else s.sendFlit g c.ctx c.lane (corePart g) (hops (corePart g) (corePart o) c.lane) (n + 1) c.id c.slot 2 c.grp (.unitWrite c.id u data)

/-- The block of a fill. -/
def fillBlock (arg : Word) : List Byte := (List.range 8).flatMap fun _ => leBytes 8 arg.toNat

/-- The data of block u stands at the core, of a copy of varying timing: it goes to its destination, on the ring to another core of the pavilion (R53). -/
def Sys.forward (s : Sys) (g : Nat) (c : Cmd) (u : Nat) (data : List Byte) : Sys :=
  let o := localOwner g (moveLocal c.dst (c.dstStep u))
  if c.dloc && o == g then s.post g c.ctx s.wcyc 10 c.id (.unitWrite c.id u data)
  else if c.dloc then s.sendFlit g c.ctx c.lane (corePart g) (hops (corePart g) (corePart o) c.lane) 1 c.id c.slot 10 c.grp (.unitWrite c.id u data)
  else
    let s := s.sendWrite g c u (moveVa c.dst (c.dstStep u)) data
    if c.gated && (s.ctx g c.ctx).region.open_ && u + 1 < c.blocks then s.post g c.ctx (s.wcyc + 1) 9 c.id (.unitRead c.id (u + 1)) else s

/-- The element of a CPYG's block leaves its owner's space (R278). -/
def Cmd.outOfSpace (c : Cmd) (u : Nat) : Bool :=
  match c.instr with
  | .cpyg .. => let a : Int := (fld c.src 0 48 : Nat) + c.srcStep u; decide (a < 0) || decide ((2 : Int) ^ 48 ≤ a)
  | _ => false

/-- The stride-gather unit of a CPYG's block is frozen (R312). -/
def Sys.unitFrozen (s : Sys) (c : Cmd) (u : Nat) : Bool :=
  match c.instr with
  | .cpyg .. =>
    let va := moveVa c.src (c.srcStep u)
    (vget s.pkg.lodges (ownerCode c.src % 4)).frozen.getLsbD (if Config.stackUnit va then 1 else 0)
  | _ => false

/-- Block u is read (R199). The last part of the answer: the read stays due. -/
def Sys.readCopyBlock (s : Sys) (m : Memory) (g : Nat) (c : Cmd) (u : Nat) : Sys × Bool :=
  let k := s.ctx g c.ctx
  match c.instr with
  | .cpyf .. =>
    let s := s.copyPos g c u
    if c.varies then (s.forward g c u (fillBlock c.arg), false)
    else ((s.storeBlock g c u 0 (fillBlock c.arg)).nextBlock g c u, false)
  | .cpyst .. =>
    let v := c.st 2
    let w := tsWidth v
    let q := rowBlocks w
    let fresh := u % q = 0 || c.data.isEmpty
    if fresh && (s.rowPoison g (k.tileBase (tsTile v)) (tsRow0 v + u / q) w).isSome then (s.stopCmd g c 11 1 0, true) else
    let row : List Byte := if fresh then rowBytes w (readRow m g (k.tileBase (tsTile v)) (tsRow0 v + u / q) w) else c.dataAt 0
    let s := (s.copyPos g c u).modCmd g c.id fun c => { c with data := [(0, row)] }
    let s := if u = (tsRows v - 1) * q then s.cmdSoon g c 1 0 (.release c.id (tsTile v)) else s
    let block := (row.drop (64 * (u % q))).take 64
    if c.varies then (s.forward g c u block, false) else ((s.storeBlock g c u 1 block).nextBlock g c u, false)
  | _ =>
    let loaded : Option (Cmd × Sys) :=
      match c.instr with
      | .cpyg .. =>
        if c.nums.isEmpty then
          match patternOf (vget (vget s.pkg.lodges (ownerCode c.src % 4)).patterns (fld c.arg 0 6)) with
          | some p => some ({ c with nums := p }, s.modCmd g c.id fun c => { c with nums := p })
          | none => none
        else some (c, s)
      | _ => some (c, s)
    match loaded with
    | none => (s.stopCmd g c 8 1 c.src, true)
    | some (c, s) =>
      let va := moveVa c.src (c.srcStep u)
      if c.outOfSpace u then (s.stopCmd g c 8 2 va, true)
      else if s.unitFrozen c u then (s, true)
      else if !c.sloc then ((s.copyPos g c u).sendFar g c (.farRead c.id u va 64), false)
      else
        let a := moveLocal c.src (c.srcStep u)
        let o := localOwner g a
        match s.readFor m g c (scratchKey o (localOff a)) 64 (BitVec.ofNat 64 a) with
        | (none, s) => (s, true)
        | (some bs, s) =>
          let s := s.copyPos g c u
          if c.varies && o == g then (s.sendBack g c u bs, false)
          else if c.varies then
            (s.sendFlit g c.ctx ((c.lane + 8) % 16) (corePart o) (hops (corePart g) (corePart o) c.lane) 2 c.id c.slot 8 c.grp (.back c.id u bs), false)
          else
            let s := s.nextBlock g c u
            if o = g then (s.post g c.ctx (s.now g c.ctx + 2) 0 c.id (.back c.id u bs), false)
            else (s.sendFlit g c.ctx ((c.lane + 8) % 16) (corePart o) (hops (corePart g) (corePart o) c.lane) 2 c.id c.slot 0 c.grp (.back c.id u bs), false)

/-- Reads of a copy in a tick: block u, and the next one where it reads abreast. -/
def Sys.readCp (s : Sys) (m : Memory) (g : Nat) (c : Cmd) (u : Nat) : Sys × Bool :=
  let r := s.readCopyBlock m g c u
  if r.2 || c.varies || !c.abreast g u then r
  else
    match r.1.cmd g c.id with
    | none => r
    | some c' =>
      let n := r.1.readCopyBlock m g c' (u + 1)
      if n.2 then (n.1.post g c.ctx (n.1.now g c.ctx) 1 c.id (.unitRead c.id (u + 1)), false) else n

/-- The blocks of row r stand at the core. -/
def Cmd.rowHere (c : Cmd) (q r : Nat) : Bool := (List.range q).all fun j => c.data.any fun p => p.1 == r * q + j

/-- The rows of a refill whose last blocks are available commit, in ascending order (R199). -/
def Sys.commitRows (s : Sys) (g : Nat) (c : Cmd) (n : Nat) : Sys × List Write :=
  match n with
  | 0 => (s, [])
  | j + 1 =>
    let v := c.st 2
    let w := tsWidth v
    let q := rowBlocks w
    if c.done < tsRows v && c.rowHere q c.done then
      let row := (List.range q).flatMap fun j => c.dataAt (c.done * q + j)
      let c' : Cmd := { c with done := c.done + 1, data := c.data.filter fun p => decide (p.1 / q != c.done) }
      let r := (s.modCmd g c.id fun _ => c').commitRows g c' j
      (if c'.done = tsRows v then r.1.happens (.copyComplete g c.id) else r.1,
       writeRow g ((s.ctx g c.ctx).tileBase (tsTile v)) (tsRow0 v + c.done) w (bytesRow w row) ++ r.2)
    else (s, [])

/-- The block becomes available at the core (R199): a refill's row commits with its last block. -/
def Sys.backCp (s : Sys) (g : Nat) (c : Cmd) (u : Nat) (data : List Byte) : Sys × List Write :=
  match c.instr with
  | .cpyr .. =>
    let c : Cmd := { c with data := c.data ++ [(u, data)] }
    let s := s.modCmd g c.id fun _ => c
    let s := if c.varies && u + 1 < c.blocks then s.post g c.ctx (s.wcyc + 1) 9 c.id (.unitRead c.id (u + 1)) else s
    s.commitRows g c (tsRows (c.st 2))
  | _ => if c.varies then (s.forward g c u data, []) else (s.storeBlock g c u 0 data, [])

/-- A block performs at a pavilion-local destination. -/
def Sys.writeCp (s : Sys) (g : Nat) (c : Cmd) (u : Nat) (data : List Byte) : Sys × List Write :=
  let a := moveLocal c.dst (c.dstStep u)
  let r := s.arrive (localOwner g a) (localOff a) data
  let n := c.done + 1
  let s := r.1.modCmd g c.id fun c => { c with done := n }
  (if n = c.blocks then s.happens (.copyComplete g c.id)
   else if c.varies then s.post g c.ctx (s.wcyc + 1) 9 c.id (.unitRead c.id n)
   else s, r.2)

/-- The units after which a copy is complete: its blocks, or the rows of a refill. -/
def Cmd.copyTotal (c : Cmd) : Nat :=
  match c.instr with
  | .cpyr .. => tsRows (c.st 2)
  | _ => c.blocks

/-- COPY_COMPLETE: the last block has performed, or the last row has committed (R189, R199). -/
def execCopyComplete (core id : Nat) (s : State) : Host.Outcome State Fault Refusal :=
  s.eventOn (decide (core < 1024)) fun y =>
    match y.cmd core id with
    | none => (y, [])
    | some c => if c.eng == .cp && c.done == c.copyTotal then (y.complete core c, []) else (y, [])

/-! ## Entries of the gated buffer (R327) -/

/-- The entries that an instruction takes in an open region. -/
def Ctx.gateOf (k : Ctx) (i : Instr) : Nat :=
  match i with
  | .tst .. => k.rowSegments
  | .stw .. | .cti .. => 1
  | .cpy .. | .cpys .. | .cpyg .. | .cpyst .. | .cpyf .. => k.copyGate i
  | _ => 0

end Sys2Proof.Machine
end

