-- ==== Sys2Proof/Machine/Orrery.lean ====
section
/-! DEFINITION. The orrery: what a row becomes (R78 to R93), passes in progress (R85 to R96, R293, R294), and the orrery slot (R201 to R205). -/

namespace Sys2Proof.Machine

/-! ## Lanes -/

/-- The F32 absent code. -/
def absentLane : W32 := 0xFFC00001

def laneVal (honour : Bool) (x : W32) : Val := FloatFmt.f32.decode honour x.toNat

/-- Rounded once to F32. -/
def laneOut (rm : Rm) (honour : Bool) (v : Val) : W32 × Flags :=
  let r := FloatFmt.f32.deliver rm honour v
  (BitVec.ofNat 32 r.1, r.2)

/-- NEG: the sign bit of a present value flips; a NaN gives the canonical NaN (R82). -/
def negLane (x : W32) : W32 :=
  if x = absentLane then x
  else if (FloatFmt.f32.decode true x.toNat).isNan then BitVec.ofNat 32 FloatFmt.f32.nan
  else x ^^^ 0x80000000

/-- The ROT or ROTF cell on two lanes with the pair (c, s) (R82, R83). -/
def rotLanes (flip : Bool) (rm : Rm) (honour : Bool) (c s : W32) (x y : W32) : W32 × W32 × Flags :=
  if x = absentLane ∧ y = absentLane then (absentLane, absentLane, .none)
  else
    let took := Flags.when (x == absentLane || y == absentLane) .absentConsumed
    let vx := laneVal honour (if x = absentLane then 0 else x)
    let vy := laneVal honour (if y = absentLane then 0 else y)
    let vc := laneVal honour c
    let vs := laneVal honour s
    let a := laneOut rm honour ((vc.mul vx).addProducts rm (if flip then vs.mul vy else (vs.mul vy).negate))
    let b := laneOut rm honour ((vs.mul vx).addProducts rm (if flip then (vc.mul vy).negate else vc.mul vy))
    (a.1, b.1, took ||| a.2 ||| b.2)

/-- Lane `i` of a row. -/
def laneAt (r : Row) (i : Nat) : W32 := r.getD i absentLane

/-- One pair word on a row (R79, R82); in reverse a ROT takes the negated code (R90). -/
def pairStep (reverse : Bool) (rm : Rm) (honour : Bool) (acc : Row × Flags) (w : W32) : Row × Flags :=
  let n := w.toNat
  let op := n / 2 ^ 30
  let xl := n / 2 ^ 16 % 128
  let yl := n / 2 ^ 23 % 128
  let angle := n % 65536
  let x := laneAt acc.1 xl
  let y := laneAt acc.1 yl
  let put (a b : W32) : Row := (acc.1.set xl a).set yl b
  match op with
  | 0 => acc
  | 3 => if angle = 0 then (put (negLane x) (negLane y), acc.2) else if angle = 1 then (put y x, acc.2) else acc
  | op =>
    let cs := a16Decode (if reverse && op == 1 then (65536 - angle) % 65536 else angle)
    let r := rotLanes (op == 2) rm honour (BitVec.ofNat 32 cs.1) (BitVec.ofNat 32 cs.2) x y
    (put r.1 r.2.1, acc.2 ||| r.2.2)

/-- A stage of 64 pair words on a row (R78). -/
def stageRow (reverse : Bool) (rm : Rm) (honour : Bool) (words : List W32) (r : Row) : Row × Flags :=
  words.foldl (pairStep reverse rm honour) (r, .none)

/-- IEEE 754 hypot before its rounding (R91). -/
def Val.hypot (rm : Rm) (x y : Val) : Val :=
  match x, y with
  | .inf _, _ | _, .inf _ => .inf false
  | .nan, _ | _, .nan => .nan
  | x, y => ((x.mul x).add rm (y.mul y)).sqrt

/-- The derive step of a resident and an incoming row on column q: the rows after it, the emitted pair (R91). -/
def deriveStep (rm : Rm) (honour : Bool) (q : Nat) (res inc : Row) : Row × Row × Word × Flags :=
  let x := laneAt res q
  let y := laneAt inc q
  let both := x == absentLane && y == absentLane
  let x0 : W32 := if x = absentLane then 0 else x
  let y0 : W32 := if y = absentLane then 0 else y
  let r := laneOut rm honour ((laneVal honour x0).hypot rm (laneVal honour y0))
  let zero := r.1 &&& 0x7FFFFFFF == 0
  let c := laneOut rm honour ((laneVal honour x0).div (laneVal honour r.1))
  let s := laneOut rm honour ((laneVal honour y0).negate.div (laneVal honour r.1))
  let cv : W32 := if both || zero then 0x3F800000 else c.1
  let sv : W32 := if both || zero then 0 else s.1
  let start := if both then Flags.none
    else Flags.when (x == absentLane || y == absentLane) .absentConsumed ||| r.2 ||| (if zero then .none else c.2 ||| s.2)
  let cells := (List.range 128).map fun j =>
    if j = q then (if both then (x, y, Flags.none) else (r.1, 0, Flags.none)) else rotLanes false rm honour cv sv (laneAt res j) (laneAt inc j)
  (cells.map (·.1), cells.map (·.2.1), cv.setWidth 64 ||| (sv.setWidth 64 <<< 32), cells.foldl (fun f e => f ||| e.2.2) start)

/-- A replayed pair on a resident and an incoming row, all columns (R93). -/
def applyStep (rm : Rm) (honour : Bool) (p : Word) (res inc : Row) : Row × Row × Flags :=
  let cells := (List.range 128).map fun j => rotLanes false rm honour (p.setWidth 32) ((p >>> 32).setWidth 32) (laneAt res j) (laneAt inc j)
  (cells.map (·.1), cells.map (·.2.1), cells.foldl (fun f e => f ||| e.2.2) .none)

/-- The sum of squares of the present lanes: a tree in each lane group, then groups 0 to 7 in order (R88). -/
def sumSquares (honour : Bool) (r : Row) : W32 × Flags :=
  let f := RedOp.combine .add .f32 .rne honour
  let sq (x : W32) : Partial :=
    if x = absentLane then Elem.f32.input true 0
    else
      let v := laneVal honour x
      let o := FloatFmt.f32.deliver .rne honour (v.mul v)
      ⟨o.1, 1, o.2⟩
  let group (g : Nat) : Partial := treeReduce f ((List.range 16).map fun l => sq (laneAt r (16 * g + l))) (Elem.f32.input true 0)
  let t := (List.range 7).foldl (fun acc i => f acc (group (i + 1))) (group 0)
  (BitVec.ofNat 32 t.value, t.flags)

/-- A sum that gives no factor: absent, zero, infinite or NaN (R88). -/
def noFactor (x : W32) : Bool :=
  x == absentLane ||
    (match FloatFmt.f32.decode true x.toNat with
      | .fin _ n _ _ => n == 0
      | _ => true)

/-- Renormalisation of a row: the row, the factor when it was not forced to 1, flags (R88). -/
def renormRow (rm : Rm) (honour : Bool) (nin : W32) (r : Row) : Row × Option W32 × Flags :=
  let out := sumSquares honour r
  if noFactor nin || noFactor out.1 then (r, none, out.2)
  else
    let g := laneOut .rne honour ((laneVal honour nin).div (laneVal honour out.1)).sqrt
    if g.1 = 0x3F800000 then (r, some g.1, out.2 ||| g.2)
    else
      let cells := r.map fun y => if y = absentLane then (y, Flags.none) else laneOut rm honour ((laneVal honour g.1).mul (laneVal honour y))
      (cells.map (·.1), some g.1, cells.foldl (fun f e => f ||| e.2) (out.2 ||| g.2))

/-- Scaling of a lane, rounded once to a format (R84). -/
def scaleLane (dst : FloatFmt) (rm : Rm) (honour : Bool) (y z : W32) : Nat × Flags :=
  if y = absentLane then (dst.absent, .none)
  else if z = absentLane then (dst.absent, .absentConsumed)
  else dst.deliver rm honour ((laneVal honour y).mul (laneVal honour z))

/-- Narrowing of a lane to a format; F32 takes the bits (R84). -/
def narrowLane (dst : FloatFmt) (rm : Rm) (honour : Bool) (y : W32) : Nat × Flags :=
  if y = absentLane then (dst.absent, .none)
  else if dst = .f32 then (y.toNat, .none)
  else dst.deliver rm honour (laneVal honour y)

/-- The floating-point formats 0 to 4 (R81). -/
def floatOf (code : Nat) : FloatFmt :=
  match code with
  | 0 => .f32
  | 1 => .f16
  | 2 => .b16
  | 3 => .e4
  | _ => .e5

/-- An element of the source format as a lane (R69, R71). A NaN, in F32 too, enters as the canonical NaN (DESIGN CHOICE, log 64). -/
def widenLane (src : FloatFmt) (honour : Bool) (v : Nat) : W32 :=
  if v = src.absent then absentLane else BitVec.ofNat 32 (FloatFmt.f32.deliver .rne true (src.decode honour v)).1

/-! ## Parameters (R81) -/

def osSrc (o : Word) : Nat := fld o 4 4
def osDst (o : Word) : Nat := fld o 8 4
def osRows (o : Word) : Nat := fld o 16 9
def osIn (o : Word) : FloatFmt := floatOf (fld o 32 5)
def osOut (o : Word) : FloatFmt := floatOf (fld o 37 5)
def osSlot (o : Word) : Nat := fld o 42 1
def osScale (o : Word) : Bool := bit o 43
def osRenorm (o : Word) : Bool := bit o 44
def osRounds (o : Word) : Nat := fld o 45 3 + 1
def osBank (o : Word) (i : Nat) : Nat := fld o (48 + 2 * i) 2
def osZp (o1 : Word) : Nat := 20 + fld o1 0 2
def osAp (o1 : Word) : Nat := 16 + fld o1 4 2
def osCol (o1 : Word) : Nat := fld o1 8 8

/-- OS2 to OS7 are zero (R81). -/
def restZero (os : List Word) : Bool := (os.drop 2).all fun w => w == 0

/-- The limits of R81 on a pass of a kind (0 rotate, 1 reverse, 2 derive, 3 apply). -/
def Ctx.passOk (k : Ctx) (kind : Nat) (os : List Word) : Bool :=
  let o := os.getD 0 0
  let o1 := os.getD 1 0
  let tiles := k.win.vwin / 4
  restZero os && decide (fld o 32 5 ≤ 4) && decide (fld o 37 5 ≤ 4) && decide (osSrc o < tiles) && decide (osDst o < tiles) &&
    decide (1 ≤ osRows o) && decide (osRows o ≤ tileRows (Nat.max (osIn o).width (osOut o).width)) &&
    (osRounds o == 1 || fld o 37 5 == 0) &&
    (if 2 ≤ kind then osRounds o == 1 && !osRenorm o && !osScale o && decide (osCol o1 ≤ 120)
     else (List.range (osRounds o)).all fun i => decide (osBank o i < k.win.lbanks))

/-- Round spacing P (R86). -/
def passSpacing (o : Word) : Nat := if osRounds o = 1 then osRows o else Nat.max (osRows o) 21

/-- Ticks until the next pass may issue (R86). -/
def passOcc (kind : Nat) (o : Word) : Nat := if 2 ≤ kind then 2 * osRows o else (osRounds o - 1) * passSpacing o + osRows o

/-! ## A pass in progress -/

/-- The pass stands at a row-step boundary (R95). -/
def Pass.atBoundary (p : Pass) : Bool := decide (p.kind < 2) || p.due % 2 == 0

/-- The pass of a context acts in this tick: until the context stops, and then up to its next boundary (R31, R95, R303). -/
def Ctx.passActs (k : Ctx) (p : Pass) : Bool :=
  !p.frozen && (k.engineRuns .orr || (!k.killed && !p.atBoundary))

/-- The pointer after a use with advance; its address before (R44). -/
def Sys.streamStep (s : Sys) (g x code : Nat) : Nat × Sys :=
  let k := s.ctx g x
  ((k.pointer code).addr.toNat,
   s.modRegs g x fun r => { r with ptr := vmod r.ptr code fun p => { p with addr := p.advance (k.pointerSpan code) 1 } })

/-- The addresses of the next `n` pairs of a stream, one advance each (R92, R93). -/
def Sys.streamSteps (s : Sys) (g x code n : Nat) : List Nat × Sys :=
  match n with
  | 0 => ([], s)
  | j + 1 =>
    let a := s.streamStep g x code
    let r := a.2.streamSteps g x code j
    (a.1 :: r.1, r.2)

/-- The angle memory from an address on, which goes on at 0 past its end (DESIGN CHOICE, log 64). -/
def angleRound (g a i : Nat) : Nat := angleKey g ((a + i) % 2 ^ 18)

/-- The pair at an address (R67). -/
def pairAt (m : Memory) (g a : Nat) : Word := BitVec.ofNat 64 (leNat ((List.range 8).map fun i => m.get (angleRound g a i)))

/-- The write of a pair (R67, R92); one that depends on a poisoned word is not made (R341). -/
def pairPut (g a : Nat) (p : Option Word) : List Write :=
  match p with
  | some p => (List.range 8).map fun i => .put (angleRound g a i) [BitVec.ofNat 8 (p.toNat / 2 ^ (8 * i))]
  | none => []

/-- The 128 scales at a scale-memory address; past the end of the memory they go on at 0 (R84; DESIGN CHOICE, log 64). -/
def scalesAt (m : Memory) (g a : Nat) : List W32 :=
  (List.range 128).map fun l => BitVec.ofNat 32 (leNat ((List.range 4).map fun i => m.get (scaleKey g ((a + 4 * l + i) % 2 ^ 15))))

/-- The 64 pair words of stage `st` of a bank (R80). -/
def stageWords (m : Memory) (g bank st : Nat) : List W32 := words32 64 (m.bytes (latchKey g bank (256 * st)) 256)

/-- N_in of a row. -/
def Pass.ninAt (p : Pass) (r : Nat) (other : W32) : W32 := match p.nin.find? fun e => e.1 == r with | some e => e.2 | none => other

/-- Rows of the last round run leave through the exit of R84; earlier rounds leave in F32 (R85). -/
def Pass.lastRound (p : Pass) (round : Nat) : Bool := round + 1 == p.rounds

/-- The pass reads its scales at the exit of its last round (R84). -/
def Pass.scales (p : Pass) (round : Nat) : Bool := p.kind == 0 && osScale (p.os.getD 0 0) && p.lastRound round

/-- A row leaves at age 18: what lands, the factor, flags (R84, R85, R88, R92). One that depends on a poisoned word does not (R341). -/
def Pass.leave (p : Pass) (m : Memory) (g : Nat) (f : Flight) : Flight × Flags :=
  let o := p.os.getD 0 0
  if f.soiled.isSome then (f, .none)
  else if p.kind < 2 ∧ !p.lastRound f.round then ({ f with out := some (f.lanes.map BitVec.toNat) }, .none)
  else
    let rn : Row × Option W32 × Flags :=
      if p.kind < 2 ∧ osRenorm o then renormRow p.rm p.honour (p.ninAt f.row absentLane) f.lanes
      else (f.lanes, none, .none)
    let cells :=
      if p.scales f.round then
        let z := scalesAt m g p.zp
        (List.range 128).map fun l => scaleLane (osOut o) p.rm p.honour (laneAt rn.1 l) (z.getD l absentLane)
      else rn.1.map fun y => narrowLane (osOut o) p.rm p.honour y
    ({ f with out := some (cells.map (·.1)), factor := rn.2.1 }, cells.foldl (fun a c => a ||| c.2) rn.2.2)

/-- The width at which a row lands. -/
def Pass.landWidth (p : Pass) (f : Flight) : Nat := if p.kind < 2 ∧ !p.lastRound f.round then 32 else (osOut (p.os.getD 0 0)).width

/-- The rows that land at the start of this tick: row, width, codes (R86). A row that a record held at age 19 or 20 stands there in F32 only: it leaves again as it lands, with the scales then in memory (DESIGN CHOICE, log 64). -/
def Pass.landings (p : Pass) (m : Memory) (g : Nat) : List (Nat × Nat × List Nat) :=
  (p.flight.filter fun f => f.age == 20 && f.soiled.isNone).map fun f =>
    (f.row, p.landWidth f, match f.out with | some o => o | none => ((p.leave m g f).1.out).getD [])

/-- D(g) = max(g, 1/g) exceeds D(h), decided exactly (R89). No D(h) is defined where software has written a NaN or the absent code into h: nothing exceeds it, and such a `gmax` stays (DESIGN CHOICE, log 64). -/
def driftMore (g h : W32) : Bool :=
  let big (x : W32) : Val :=
    let v := FloatFmt.f32.decode true x.toNat
    match v.compare Val.one with
    | .lt => Val.one.div v
    | _ => v
  decide ((big g).compare (big h) = .gt)

/-- A renormalised row has landed in tile n (R89, R335). -/
def Sys.driftUpdate (s : Sys) (g x n : Nat) (factor : W32) (grp : W32) : Sys :=
  let k := s.ctx g x
  let d := vget k.drift n
  let beyond := driftMore factor k.driftLimit
  let s := s.modCtx g x fun k => { k with drift := vset k.drift n ⟨if driftMore factor d.gmax then factor else d.gmax, d.exceeded || beyond⟩ }
  if beyond && k.dfault then s.deferFault g x { cls := 9, code := 1, slot := 6, grp := grp } else s

/-- The pairs of a row, those that depend on a poisoned word left out (R341). -/
def Flight.group (f : Flight) : List (Option Word) := (List.range f.pairs.length).map fun i => if f.soiled.all fun n => decide (i < n) then f.pairs[i]? else none

/-- The row depends on a poisoned word from here on (R341). -/
def Flight.soil (f : Flight) : Flight := { f with soiled := some (f.soiled.getD f.pairs.length) }

/-- A flight of a derive or apply pass enters a stage: the residents, the flight, a group to write, flags (R91 to R93, R293). A row that depends on a poisoned word spoils the residents it meets, and is spoilt by them (R341). -/
def Pass.meet (p : Pass) (residents : List Row) (f : Flight) : List Row × Flight × List (Option Word) × Flags :=
  let kk := (f.age - 2) / 2
  if f.wabs ∨ f.age < 2 ∨ f.age % 2 = 1 ∨ f.m < kk then (residents, f, [], .none)
  else if kk < f.m then
    let res := residents.getD kk (List.replicate 128 absentLane)
    if f.soiled.isSome ∨ res = [] then (residents.set kk [], { f.soil with pairs := if p.kind = 2 then f.pairs ++ [0] else f.pairs }, [], .none)
    else if p.kind = 2 then
      let r := deriveStep p.rm p.honour (osCol (p.os.getD 1 0) + kk) res f.lanes
      (residents.set kk r.1, { f with lanes := r.2.1, pairs := f.pairs ++ [r.2.2.1] }, [], r.2.2.2)
    else
      let r := applyStep p.rm p.honour (f.pairs.getD kk 0x3F800000) res f.lanes
      (residents.set kk r.1, { f with lanes := r.2.1 }, [], r.2.2)
  else
    let group := if p.kind = 2 then f.group else []
    if f.m < 8 then (residents ++ [if f.soiled.isSome then [] else f.lanes], { f with lanes := List.replicate 128 absentLane, pairs := [], soiled := none }, group, .none)
    else (residents, { f with pairs := [] }, group, .none)

/-- A flight of a rotate or reverse pass enters a stage in this tick. -/
def Flight.turns (f : Flight) : Bool := decide (2 ≤ f.age) && f.age % 2 == 0 && decide (f.age ≤ 16)

/-- The latch bank of the pass and the stage of it that a flight meets (R85, R90). -/
def Pass.stageAt (p : Pass) (f : Flight) : Nat × Nat :=
  let st := (f.age - 2) / 2
  (osBank (p.os.getD 0 0) (if p.kind = 1 then p.rounds - 1 - f.round else f.round), if p.kind = 1 then 7 - st else st)

/-- A flight of a rotate or reverse pass enters a stage (R82, R90). -/
def Pass.turn (p : Pass) (k : Ctx) (m : Memory) (g : Nat) (f : Flight) : Flight × Flags :=
  if !f.turns ∨ f.soiled.isSome then (f, .none)
  else
    let a := p.stageAt f
    let r := stageRow (p.kind == 1) p.rm p.honour (stageWords m g (k.win.lbase + a.1) a.2) f.lanes
    ({ f with lanes := r.1 }, r.2)

/-- Residents that the next row to enter will meet: those in place and those on their way (R92). -/
def Pass.claims (p : Pass) (residents : List Row) : Nat :=
  Nat.min 8 (residents.length + (p.flight.filter fun f => !f.wabs && decide (f.m < 8) && decide (f.age ≤ 2 * f.m + 2)).length)

/-- The pass scales its rows as they enter (R84, R90). -/
def Pass.scaledEntry (p : Pass) : Bool := p.kind == 1 && p.round == 0 && osScale (p.os.getD 0 0)

/-- The first physical register of the tile from which the next row enters, and the width of its elements (R82, R85). -/
def Pass.entry (p : Pass) (k : Ctx) : Nat × Nat :=
  let o := p.os.getD 0 0
  if p.round = 0 then (k.tileBase (osSrc o), (osIn o).width) else (k.tileBase (osDst o), 32)

/-- The next row enters the entry step (R82, R85, R88, R90, R92). -/
def Pass.enter (p : Pass) (k : Ctx) (m : Memory) (g : Nat) (residents : List Row) : Pass × Flags :=
  let o := p.os.getD 0 0
  let r := p.next
  let src := p.entry k
  let codes := readRow m g src.1 r src.2
  let lanes : Row := if p.round = 0 then codes.map (widenLane (osIn o) p.honour) else codes.map fun v => BitVec.ofNat 32 v
  let scaled : Row × Flags :=
    if p.scaledEntry then
      let z := scalesAt m g p.zp
      let cells := (List.range 128).map fun l => scaleLane .f32 p.rm p.honour (laneAt lanes l) (z.getD l absentLane)
      (cells.map fun c => BitVec.ofNat 32 c.1, cells.foldl (fun a c => a ||| c.2) .none)
    else (lanes, .none)
  let nin : W32 × Flags := if p.kind < 2 ∧ p.round = 0 ∧ osRenorm o then sumSquares p.honour scaled.1 else (0, .none)
  let wabs := decide (2 ≤ p.kind) && scaled.1.all fun x => x == absentLane
  let f : Flight := { row := r, round := p.round, age := 1, m := if 2 ≤ p.kind ∧ !wabs then p.claims residents else 0, wabs := wabs, lanes := scaled.1 }
  let more := r + 1 == p.rows && decide (p.kind < 2) && p.round + 1 != p.rounds
  ({ p with
      next := if more then 0 else r + 1
      round := if more then p.round + 1 else p.round
      due := if 2 ≤ p.kind then 1 else if more then passSpacing o - p.rows else 0
      nin := if p.kind < 2 ∧ p.round = 0 ∧ osRenorm o then p.nin ++ [(r, nin.1)] else p.nin
      flight := p.flight ++ [f] },
   scaled.2 ||| nin.2)

/-- The flags of an orrery event (R83). -/
def Sys.passFlags (s : Sys) (g x : Nat) (f : Flags) (grp : W32) : Sys :=
  if f = .none then s else { s with raised := s.raised ++ [(g, x, 6, f, grp)] }

/-- The command of a pass names its group. -/
def Sys.passGrp (s : Sys) (g : Nat) (p : Pass) : W32 := match s.cmd g p.cmd with | some c => c.grp | none => 0

/-- Rows of age 20 have landed: drift registers follow, and the rows leave the pass (R89, R295). -/
def Sys.passSettle (s : Sys) (m : Memory) (g x : Nat) (p : Pass) : Sys × Pass :=
  let grp := s.passGrp g p
  let s := p.flight.foldl (fun s f =>
    match f.age == 20, (if f.out.isNone then (p.leave m g f).1.factor else f.factor) with
    | true, some v => s.driftUpdate g x (osDst (p.os.getD 0 0)) v grp
    | _, _ => s) s
  (s, { p with flight := p.flight.filter fun f => f.age != 20, undo := [], lost := p.lost ++ (p.flight.filter fun f => f.age == 20 && f.soiled.isSome).map (·.row) })

/-! ### The pair stream (R44, R92, R93) -/

/-- A row of an apply pass reads its pairs in this tick. -/
def Pass.readsPairs (p : Pass) (f : Flight) : Bool := p.kind == 3 && f.age == 2 && !f.wabs

/-- A row of a derive pass writes its group in this tick. -/
def Pass.emits (p : Pass) (f : Flight) : Bool := p.kind == 2 && !f.wabs && f.age == 2 * f.m + 2

/-- The uses that the pass makes of its stream in this tick. -/
def Pass.uses (p : Pass) : Nat :=
  p.groups.flatten.length + p.flight.foldl (fun n f => n + (if p.readsPairs f then f.m else if p.emits f then f.pairs.length else 0)) 0

/-- Ticks for which an orrery command occupies the engine from its start. -/
def Cmd.orreryTicks (c : Cmd) : Option Nat :=
  match c.instr with
  | .opass .. => some (passOcc 0 (c.st 0))
  | .opassr .. => some (passOcc 1 (c.st 0))
  | .oderive .. => some (passOcc 2 (c.st 0))
  | .oapply .. => some (passOcc 3 (c.st 0))
  | .ofree .. => some 8
  | _ => none

/-- The context that the slot table names in this cycle (R259). -/
def Sys.slotOwner (s : Sys) (g : Nat) : Nat := fld (s.core g).oslt (4 * (s.wcyc / 64 % 16)) 2

/-- The slot table lets the context start an orrery command in this cycle (R259). -/
def Sys.granted (s : Sys) (g x : Nat) : Bool := (s.ctx g x).timed || s.slotOwner g == x || !(s.core g).orrHeld

/-- The sweep slot that a command names is free for it (R358). -/
def Ctx.slotFree (k : Ctx) (c : Cmd) : Bool := match c.slotNamed with | some n => !(vget k.sweep n).held.isSome | none => true

/-- An orrery command starts in this cycle once those before it in its queue have: its time has come, the slot table grants it, its engine and its slot are free, its tiles are written (R187, R201, R259). -/
def Sys.orreryDue (s : Sys) (g : Nat) (c : Cmd) : Bool :=
  let k := s.ctx g c.ctx
  decide (c.start ≤ s.now g c.ctx) && s.moves g c && s.granted g c.ctx && k.slotFree c && s.firstRead g c == .ok &&
    (k.timed || c.orreryTicks.isNone || decide (vget (s.core g).free Engine.orr.index ≤ s.now g c.ctx))

/-- An OSAVE freezes the slot in this tick: one that waits for this boundary, or one that starts now, with those queued before it; in shared mode the engine takes one of these that occupies it (R95, R187, R203). -/
def Sys.saveComes (s : Sys) (g x slot : Nat) : Bool :=
  let names (c : Cmd) : Bool := c.ctx == x && (match c.instr with | .osave n _ _ => n.toNat == slot && c.data.isEmpty | _ => false)
  let waiting := (s.core g).cmds.filter fun c => c.eng == .orr && c.ctx == x && !c.started
  let starts (c : Cmd) : Bool :=
    let first := waiting.filter fun b => decide (b.id < c.id)
    s.orreryDue g c && first.all (s.orreryDue g) && ((s.ctx g x).timed || decide ((first.filter fun b => b.orreryTicks.isSome).length ≤ 1))
  (vget (s.ctx g x).sweep slot).pass.all Pass.atBoundary &&
    (waiting.any (fun c => names c && starts c) || (s.core g).cmds.any fun c => names c && c.started && s.moves g c && s.agenda.any fun e =>
      e.core == g && decide (e.due ≤ s.now g x) && (match e.act with | .unitRead id _ => id == c.id | _ => false))

/-- The pass of a slot takes the uses of its stream in this tick, if they are not taken. The first that finds the pointer outside its wrap window is an operand range fault (R44, R153). -/
def Sys.serve (s : Sys) (g x slot : Nat) : Sys :=
  match (vget (s.ctx g x).sweep slot).pass with
  | none => s
  | some p =>
    if p.stream.isSome then s
    else
      let code := osAp (p.os.getD 1 0)
      let bad := p.uses != 0 && !p.strayed && !(s.ctx g x).advanceOk code
      let s := if bad then s.deferFault g x { cls := 3, code := 1, slot := 6, far := ((s.ctx g x).pointer code).addr.setWidth 64, grp := s.passGrp g p } else s
      let r := s.streamSteps g x code p.uses
      r.2.modCtx g x fun k => { k with sweep := vmod k.sweep slot fun w => { w with pass := w.pass.map fun p => { p with stream := some r.1, strayed := p.strayed || bad } } }

/-- The passes of a context use their streams before a slot beyond the orrery's names a pointer: the uses of a cycle are served in slot-position order (R44). A pass that an OSAVE freezes in this tick uses none. Of the uses at position 6, whose order R44 leaves open, an OLATCH's comes first, at its dispatch, and those of sweep slot 0 come before those of slot 1 (DESIGN CHOICE, log 64). -/
def Sys.served (s : Sys) (g x : Nat) : Sys :=
  (List.range 2).foldl (fun s n =>
    match (vget (s.ctx g x).sweep n).pass with
    | some p => if (s.ctx g x).passActs p && !s.saveComes g x n then s.serve g x n else s
    | none => s) s

/-! ### A tick of a pass -/

/-- A poisoned word met by a pass: class 11, code 1, deferred; the row depends on it (R341). -/
def Sys.passHurt (s : Sys) (g x : Nat) (p : Pass) (far : Option Word) (f : Flight) : Sys × Flight :=
  match far with
  | some a => (s.deferFault g x { cls := 11, code := 1, slot := 6, far := a, grp := s.passGrp g p }, f.soil)
  | none => (s, f)

/-- A poisoned word of the 512 bytes of scales at an address: its address in scale memory. -/
def Sys.scalePoison (s : Sys) (g a : Nat) : Option Word :=
  (List.range 128).findSome? fun l => (s.poisoned (scaleKey g ((a + 4 * l) % 2 ^ 15)) 4).map fun w => BitVec.ofNat 64 (8 * w - scaleKey g 0)

/-- A poisoned word that a flight meets in this tick: a pair of its stream, its stage's latch bank, its scales (R341). The latch bank has no address: FAR is 0 (log 43). -/
def Sys.flightPoison (s : Sys) (g x : Nat) (p : Pass) (pairs : List Nat) (f : Flight) : Option Word :=
  if p.readsPairs f then
    pairs.findSome? fun a => (s.poisoned (angleKey g a) 8).map fun w => BitVec.ofNat 64 (8 * w - angleKey g 0)
  else if decide (p.kind < 2) && f.turns then
    let a := p.stageAt f
    (s.poisoned (latchKey g ((s.ctx g x).win.lbase + a.1) (256 * a.2)) 256).map fun _ => 0
  else if f.age = 18 ∧ p.scales f.round then s.scalePoison g p.zp
  else none

/-- What the flights of a pass came to so far in a tick. -/
structure PassRun where
  sys : Sys
  residents : List Row
  flight : List Flight := []
  groups : List (List (Option Word)) := []
  flags : Flags := .none
  /-- Addresses of the stream that are left for reads. -/
  stream : List Nat := []

/-- One flight of a pass: its stage, its exit, its next age. -/
def PassRun.fly (m : Memory) (g x : Nat) (p : Pass) (acc : PassRun) (f : Flight) : PassRun :=
  let n := if p.readsPairs f then f.m else 0
  let at_ := acc.stream.take n
  let hurt := acc.sys.passHurt g x p (if acc.sys.poison.isEmpty then none else acc.sys.flightPoison g x p at_ f) f
  let f := if n = 0 then hurt.2 else { hurt.2 with pairs := at_.map (pairAt m g) }
  let stepped : List Row × Flight × List (Option Word) × Flags :=
    if p.kind < 2 then let t := p.turn (hurt.1.ctx g x) m g f; (acc.residents, t.1, [], t.2) else p.meet acc.residents f
  let left : Flight × Flags := if f.age = 18 then p.leave m g stepped.2.1 else (stepped.2.1, .none)
  { sys := hurt.1, residents := stepped.1, flight := acc.flight ++ [{ left.1 with age := f.age + 1 }],
    groups := if stepped.2.2.1.isEmpty then acc.groups else acc.groups ++ [stepped.2.2.1],
    flags := acc.flags ||| stepped.2.2.2 ||| left.2, stream := acc.stream.drop n }

/-- The next row enters, if one is due. A poisoned word of its tile, or of its scales, spoils it (R341). -/
def Sys.passEnter (s : Sys) (m : Memory) (g x : Nat) (p : Pass) (residents : List Row) : Sys × Pass × Flags :=
  if p.due = 0 ∧ p.next < p.rows then
    let src := p.entry (s.ctx g x)
    let far :=
      if s.poison.isEmpty then none
      else if (s.rowPoison g src.1 p.next src.2).isSome then some 0
      else if p.scaledEntry then s.scalePoison g p.zp
      else none
    let e := p.enter (s.ctx g x) m g residents
    let last := e.1.flight.getLast?.getD { row := 0, round := 0, age := 0 }
    let lost := 0 < p.round && p.lost.contains p.next
    let hurt := s.passHurt g x p (if lost then none else far) last
    if far.isNone && !lost then (s, e)
    else (hurt.1, { e.1 with flight := e.1.flight.dropLast ++ [{ hurt.2.soil with wabs := false, m := if 2 ≤ p.kind then p.claims residents else 0 }] }, .none)
  else (s, { p with due := if p.due = 0 then (if 2 ≤ p.kind then 1 else 0) else p.due - 1 }, .none)

/-- The context went to the supervisor in this tick, whose group has not issued. -/
def Ctx.faultedAt (k : Ctx) (now : Nat) : Bool := k.state == .faulted && !k.killed && !k.parked && k.mid && k.haltTick == now

/-- A pass freezes at a boundary in this tick: the rows that landed at the start of it have not, and what they replaced is written back (R95, R294). -/
def Sys.freezePass (s : Sys) (g x slot : Nat) : Sys × List Write :=
  match (vget (s.ctx g x).sweep slot).pass with
  | none => (s, [])
  | some p =>
    (s.modCtx g x fun k => { k with sweep := vmod k.sweep slot fun w => { w with pass := w.pass.map fun p => { p with undo := [] } } },
     p.undo.flatMap fun u => writeRow g ((s.ctx g x).tileBase (osDst (p.os.getD 0 0))) u.1 u.2.1 u.2.2)

/-- A pass acts in a tick (R86, R92 to R95, R294). A context that a fault stops in this tick has its passes freeze at it, if they stand at a boundary: its group of this tick issues again in the tick in which they go on (R303, R338). -/
def Sys.passTick (s : Sys) (m : Memory) (g x slot : Nat) : Sys × List Write :=
  match (vget (s.ctx g x).sweep slot).pass with
  | none => (s, [])
  | some p0 =>
    if !(s.ctx g x).passActs p0 then (s, [])
    else if (s.ctx g x).faultedAt (s.now g x) && p0.atBoundary then s.freezePass g x slot
    else
      let s := s.serve g x slot
      let settled := s.passSettle m g x ((vget (s.ctx g x).sweep slot).pass.getD p0)
      let p := settled.2
      let grp := settled.1.passGrp g p
      let residents := (vget (settled.1.ctx g x).sweep slot).residents
      let stream := p.stream.getD []
      let run := p.flight.foldl (PassRun.fly m g x p) { sys := settled.1, residents := residents, stream := stream }
      let pairs := (p.groups.map (·.map some) ++ run.groups).flatten
      let wrote := (stream.zip pairs).flatMap fun q => pairPut g q.1 q.2
      let p : Pass := { p with flight := run.flight, groups := [], stream := none }
      let entered := run.sys.passEnter m g x p run.residents
      let s := (entered.1.passFlags g x run.flags grp).passFlags g x entered.2.2 grp
      let s :=
        if p.due = 0 ∧ p.next + 1 = p.rows ∧ p.round = 0 then s.post g x (s.now g x + 1) 0 p.cmd (.release p.cmd (osSrc (p.os.getD 0 0))) else s
      let p := entered.2.1
      let s := s.modCtx g x fun k => { k with sweep := vset k.sweep slot { residents := run.residents, pass := some p } }
      (if p.flight.isEmpty ∧ p.next = p.rows ∧ p.round + 1 = p.rounds then s.happens (.passFinish g (Fin.ofNat 4 x) (Fin.ofNat 2 slot)) else s, wrote)

/-- An OSAVE that waits for a boundary freezes the slot in this tick (R95). -/
def Sys.saveWaits (s : Sys) (g x slot : Nat) : Bool :=
  s.agenda.any fun e => e.core == g && decide (e.due ≤ s.now g x) && (match e.act with
    | .unitRead id _ => (s.cmd g id).any fun c => c.ctx == x && (match c.instr with | .osave n _ _ => n.toNat == slot | _ => false)
    | _ => false)

/-- The landings of the passes of a context at the start of a tick; the places of the rows are kept for an OSAVE of this tick. None land in the tick of a freeze (R95). -/
def Sys.passLandings (s : Sys) (m : Memory) (g x slot : Nat) : Sys × List Ev :=
  let k := s.ctx g x
  match (vget k.sweep slot).pass with
  | none => (s, [])
  | some p =>
    if !k.passActs p || s.saveWaits g x slot then (s, [])
    else
      let base := k.tileBase (osDst (p.os.getD 0 0))
      let ls := p.landings m g
      let undo := ls.map fun l => (l.1, l.2.1, [])
      (s.modCtx g x fun k => { k with sweep := vset k.sweep slot { vget k.sweep slot with pass := some { p with undo := undo } } },
       ls.map fun l => ⟨g, x, s.now g x, 0, p.cmd, .row base l.1 l.2.1 l.2.2⟩)

/-- The codes that the rows of a pass replaced: those that stand in the tile without them, from the memory that every other landing of the tick leaves. -/
def Sys.keepUndo (s : Sys) (m : Memory) (g x slot : Nat) : Sys :=
  let base (p : Pass) : Nat := (s.ctx g x).tileBase (osDst (p.os.getD 0 0))
  s.modCtx g x fun k => { k with sweep := vmod k.sweep slot fun w => { w with pass := w.pass.map fun p => { p with undo := p.undo.map fun u => (u.1, u.2.1, readRow m g (base p) u.1 u.2.1) } } }

/-- The pass of a slot leaves it, its command complete (R87, R188, R358). -/
def Sys.passEnd (s : Sys) (m : Memory) (g x slot : Nat) : Sys :=
  match (vget (s.ctx g x).sweep slot).pass with
  | none => s
  | some p =>
    let r := s.passSettle m g x p
    let s := r.1.modCtx g x fun k => { k with sweep := vmod k.sweep slot fun w => { w with pass := none } }
    match s.cmd g p.cmd with
    | some c => s.complete g c
    | none => s

/-- PASS_FINISH (R87, R358). -/
def execPassFinish (core : Nat) (ctx : Fin 4) (slot : Fin 2) (s : State) : Host.Outcome State Fault Refusal :=
  s.eventOn (decide (core < 1024)) fun y =>
    match (vget (y.ctx core ctx.val).sweep slot.val).pass with
    | some p => if p.flight.isEmpty && p.next == p.rows && p.round + 1 == p.rounds then (y.passEnd s.mem core ctx.val slot.val, []) else (y, [])
    | none => (y, [])

/-! ## The sweep state record (R96) -/

/-- The 512 bytes of a row. -/
def laneBytes (r : Row) : List Byte := bytes32 ((List.range 128).map fun l => laneAt r l)

/-- `n` bytes exactly: cut, or filled with zeros. -/
def fillTo (n : Nat) (bs : List Byte) : List Byte := (bs ++ List.replicate (n - bs.length) 0).take n

/-- An in-flight entry (R96). -/
def Flight.bytes (f : Flight) : List Byte :=
  let head := f.row % 512 + f.round % 8 * 2 ^ 9 + f.age % 32 * 2 ^ 12 + f.pairs.length % 16 * 2 ^ 17 + f.m % 16 * 2 ^ 21 + boolNat f.wabs * 2 ^ 25
  fillTo 16 (leBytes 4 head) ++ fillTo 64 (bytes64 f.pairs) ++ laneBytes f.lanes

/-- Inserted before the first that comes later. -/
def insertBy {α : Type} (le : α → α → Bool) (a : α) : List α → List α
  | [] => [a]
  | b :: rest => if le b a then b :: insertBy le a rest else a :: b :: rest

/-- Sorted, equal ones in their order. -/
def sortBy {α : Type} (le : α → α → Bool) (l : List α) : List α := l.foldl (fun acc a => insertBy le a acc) []

/-- The record of a slot: 20 KiB. Rounds count in the order in which they run, 0 for the first, in a reverse pass too (DESIGN CHOICE, log 64). Of a slot that a supervisor has filled with what is no record, the bytes written (R351). -/
def Ctx.sweepRecord (k : Ctx) (slot : Nat) (word : W32) : List Byte :=
  let w := vget k.sweep slot
  let residents := fillTo 4096 ((List.range 8).flatMap fun i => laneBytes (w.residents.getD i []))
  match w.raw, w.pass with
  | some bs, _ => bs
  | none, none =>
    fillTo 0x700 (leBytes 8 (w.residents.length * 16 + 1)) ++ residents ++ List.replicate (0x5000 - 0x1700) 0
  | none, some p =>
    let o := p.os.getD 0 0
    let d := vget k.drift (osDst o)
    let control := p.groups.flatten.length * 2 ^ 25 + p.next * 2 ^ 16 + p.round * 2 ^ 13 + p.flight.length * 2 ^ 8 + w.residents.length * 16 + p.kind * 4 + 2 + 1
    let head := leBytes 8 control ++ leBytes 8 (d.gmax.toNat + boolNat d.exceeded * 2 ^ 32) ++ leBytes 8 word.toNat ++
      fillTo 64 (bytes64 p.os) ++ leBytes 8 p.tag.toNat
    let nin := (List.range 256).flatMap fun r => leBytes 4 (p.ninAt r 0).toNat
    fillTo 0x100 head ++ nin ++ fillTo 0x200 (bytes64 p.groups.flatten) ++ residents ++
      fillTo (0x5000 - 0x1700) ((sortBy (fun (a b : Flight) => decide (a.row ≤ b.row)) p.flight).flatMap Flight.bytes)

/-- Bytes `off` to `off + n` of a record, as a number. -/
def recNat (bs : List Byte) (off n : Nat) : Nat := leNat ((bs.drop off).take n)

/-- The 128 lanes at an offset. -/
def recLanes (bs : List Byte) (off : Nat) : Row := words32 128 (bs.drop off)

/-- `npp` of an in-flight entry. -/
def recPairs (bs : List Byte) (i : Nat) : Nat := recNat bs (0x1700 + 592 * i) 4 / 2 ^ 17 % 16

/-- An in-flight entry read back. -/
def recFlight (bs : List Byte) (i : Nat) : Flight :=
  let at_ := 0x1700 + 592 * i
  let h := recNat bs at_ 4
  { row := h % 512, round := h / 2 ^ 9 % 8, age := h / 2 ^ 12 % 32, m := h / 2 ^ 21 % 16, wabs := h / 2 ^ 25 % 2 == 1,
    pairs := (words64 8 (bs.drop (at_ + 16))).take (recPairs bs i), lanes := recLanes bs (at_ + 80) }

/-- Ticks until the next row enters, from the rows in flight: a round's first row enters P ticks after that of the round before (R86). -/
def recDue (o : Word) (kind next round : Nat) (fs : List Flight) : Nat :=
  if kind < 2 ∧ next = 0 ∧ 0 < round then
    match fs.find? fun f => f.row == 0 && f.round + 1 == round with
    | some f => passSpacing o - f.age
    | none => 0
  else 0

/-- A record as a slot, with the drift register it restores; none when it fails R96. The record does not hold the scale pointer's address: it is read again, as the slot takes the record. A record fails too whose next row, or whose round, or an entry's row or round, lies beyond the pass that its parameters describe, where R96 names no such check (DESIGN CHOICE, log 64). -/
def Ctx.readRecord (k : Ctx) (bs : List Byte) (cmd : Nat) (tag : BitVec 16) (rm : Rm) (honour : Bool) : Option (Sweep × Option Drift) :=
  let v := recNat bs 0 8
  let npair := v / 2 ^ 25 % 128
  let next := v / 2 ^ 16 % 512
  let round := v / 2 ^ 13 % 8
  let nflight := v / 2 ^ 8 % 32
  let nres := v / 16 % 16
  let kind := v / 4 % 4
  let os := words64 8 (bs.drop 0x18)
  let o := os.getD 0 0
  let fs := (List.range nflight).map (recFlight bs)
  let residents := (List.range nres).map fun i => recLanes bs (0x700 + 512 * i)
  if v % 2 = 0 ∨ 64 < npair ∨ 256 < next ∨ 20 < nflight ∨ 8 < nres then none
  else if v / 2 % 2 = 0 then some ({ residents := residents }, none)
  else if !k.passOk kind os || decide (osRows o < next) || decide (osRounds o ≤ round) ||
      fs.any (fun f => decide (osRows o ≤ f.row) || decide (osRounds o ≤ f.round) || f.age == 0 || decide (20 < f.age) || decide (8 < f.m)) || (List.range nflight).any (fun i => decide (8 < recPairs bs i)) then none
  else
    let p : Pass :=
      { cmd := cmd, kind := kind, word := BitVec.ofNat 32 (recNat bs 0x10 4), os := os, tag := tag, rm := rm, honour := honour, next := next, round := round,
        due := recDue o kind next round fs, zp := (k.pointer (osZp (os.getD 1 0))).addr.toNat, flight := fs,
        nin := (List.range (if round = 0 then next else 256)).map fun r => (r, BitVec.ofNat 32 (recNat bs (0x100 + 4 * r) 4)),
        groups := if npair = 0 then [] else [(words64 64 (bs.drop 0x500)).take npair] }
    some ({ residents := residents, pass := some p },
      if osRenorm o then some ⟨BitVec.ofNat 32 (recNat bs 8 4), recNat bs 12 4 % 2 == 1⟩ else none)

/-! ## Dispatch (R201 to R205) -/

/-- A pass command. -/
def State.orreryPass (s : State) (i : Instr) (kind delay : Nat) : Host.Outcome State Fault Refusal :=
  let y := s.sys
  let k := y.here
  let os := k.staged .orr
  let o := os.getD 0 0
  s.dispatch { eng := .orr, instr := i, delay := delay, stg := os, ptrs := [(k.pointer (osZp (os.getD 1 0))).addr.toNat], reads := [osSrc o], writes := [osDst o], occ := some (passOcc kind o),
               faults := y.range (k.passOk kind os) ++ y.limit (!(k.timed && y.hereCore.slotBusy y.cur.ctx (osSlot o))) 5 2 }

/-- OPASS (R82 to R89). -/
def execOpass (c : BitVec 1) (e : BitVec 8) (t : BitVec 16) (s : State) : Host.Outcome State Fault Refusal := s.orreryPass (.opass c e t) 0 t.toNat

/-- OPASSR (R90). -/
def execOpassr (c : BitVec 1) (e : BitVec 8) (t : BitVec 16) (s : State) : Host.Outcome State Fault Refusal := s.orreryPass (.opassr c e t) 1 t.toNat

/-- ODERIVE (R91, R92). -/
def execOderive (c : BitVec 1) (e : BitVec 8) (t : BitVec 16) (s : State) : Host.Outcome State Fault Refusal := s.orreryPass (.oderive c e t) 2 t.toNat

/-- OAPPLY (R93). -/
def execOapply (c : BitVec 1) (e : BitVec 8) (t : BitVec 16) (s : State) : Host.Outcome State Fault Refusal := s.orreryPass (.oapply c e t) 3 t.toNat

/-- OLATCH: the pointer's address at dispatch names the image (R202). It uses the pointer at its dispatch, before the pair streams of the cycle (R44; DESIGN CHOICE, log 64). FAR is that address, where the address is what breaks a limit (R322). -/
def execOlatch (b : BitVec 2) (v : BitVec 1) (k : BitVec 2) (t : BitVec 16) (s : State) : Host.Outcome State Fault Refusal :=
  let y := s.sys
  let x := y.here
  let code := 16 + k.toNat
  let a := (x.pointer code).addr.toNat
  let os := x.staged .orr
  s.dispatch { eng := .orr, instr := .olatch b v k t, delay := t.toNat, stg := os, ptrs := [a], advances := if v = 1 then [code] else [],
               faults := y.range (restZero os && decide (b.toNat < x.win.lbanks) && a % 64 == 0 && decide (a + 2048 ≤ 2 ^ 18) && (v == 0 || x.advanceOk code))
                 (badAddress [(a % 64 == 0 && decide (a + 2048 ≤ 2 ^ 18), BitVec.ofNat 64 a)]) }

/-- OFREE: slot, `dst` and `ofmt` of OS0 (R94). It does not look at a pass that the slot holds: it takes the residents that stand there at its start, and the pass goes on, its next rows making new ones; the spec says only that such a use breaks a rule (DESIGN CHOICE, log 64). -/
def execOfree (t : BitVec 16) (s : State) : Host.Outcome State Fault Refusal :=
  let y := s.sys
  let k := y.here
  let os := k.staged .orr
  let o := os.getD 0 0
  s.dispatch { eng := .orr, instr := .ofree t, delay := t.toNat, stg := os, writes := [osDst o], occ := some 8,
               faults := y.range (restZero os && decide (fld o 37 5 ≤ 4) && decide (osDst o < k.win.vwin / 4)) }

/-- The scratchpad pointer of OSAVE and OREST (R203). -/
def sweepPointerOk (g a : Nat) : Bool := a % 64 == 0 && ownScratch g a && decide (localOff a + 20480 ≤ 2 ^ 21)

/-- FAR of OSAVE's and OREST's limits: the pointer's address, where it is what breaks one (R322). -/
def sweepFar (g a : Nat) : Word := badAddress [(sweepPointerOk g a, BitVec.ofNat 64 a)]

/-- OSAVE (R203). -/
def execOsave (n : BitVec 1) (p : BitVec 4) (t : BitVec 16) (s : State) : Host.Outcome State Fault Refusal :=
  let y := s.sys
  let k := y.here
  let a := (k.pointer p.toNat).addr.toNat
  s.dispatch { eng := .orr, instr := .osave n p t, delay := t.toNat, stg := k.staged .orr, ptrs := [a],
               faults := y.range (restZero (k.staged .orr) && sweepPointerOk y.cur.core a) (sweepFar y.cur.core a) }

/-- OREST: block j is read by a local load issued at dispatch + j (R203). -/
def execOrest (n : BitVec 1) (p : BitVec 4) (t : BitVec 16) (s : State) : Host.Outcome State Fault Refusal :=
  let y := s.sys
  let k := y.here
  let a := (k.pointer p.toNat).addr.toNat
  let d : Dispatch :=
    { eng := .orr, instr := .orest n p t, delay := t.toNat, stg := k.staged .orr, ptrs := [a],
      faults := y.range (restZero (k.staged .orr) && sweepPointerOk y.cur.core a && decide (324 ≤ t.toNat) && !y.hereCore.slotBusy y.cur.ctx n.toNat)
        (sweepFar y.cur.core a) }
  s.issue (d.waits y) (d.breaches y) fun y => (d.accept y).post y.cur.core y.cur.ctx (y.t + 2) 1 y.cur.ord (.unitRead y.cur.ord 0)

/-- ODRIFT (R204). -/
def execOdrift (a : BitVec 2) (n : BitVec 4) (t : BitVec 16) (s : State) : Host.Outcome State Fault Refusal :=
  let os := s.sys.here.staged .orr
  s.dispatch { eng := .orr, instr := .odrift a n t, delay := t.toNat, stg := os, faults := s.sys.range (restZero os) }

/-- OSCFG (R205). -/
def execOscfg (c : BitVec 2) (e : BitVec 4) (t : BitVec 16) (s : State) : Host.Outcome State Fault Refusal :=
  let os := s.sys.here.staged .orr
  s.dispatch { eng := .orr, instr := .oscfg c e t, delay := t.toNat, stg := os, faults := s.sys.range (restZero os) }

/-! ## Progress -/

/-- The kind of a pass command. -/
def passKind (i : Instr) : Option Nat :=
  match i with
  | .opass .. => some 0
  | .opassr .. => some 1
  | .oderive .. => some 2
  | .oapply .. => some 3
  | _ => none

/-- A command with no work left leaves in the next tick. -/
def Sys.finishSoon (s : Sys) (g : Nat) (c : Cmd) (n : Nat) : Sys := s.post g c.ctx (s.now g c.ctx + n) 0 c.id (.finish c.id)

/-- OFREE takes the residents; row k lands at start + 4 + k (R94). -/
def Sys.freeSlot (s : Sys) (g : Nat) (c : Cmd) : Sys :=
  let k := s.ctx g c.ctx
  let o := c.st 0
  let fmt := osOut o
  let now := s.now g c.ctx
  let w := vget k.sweep (osSlot o)
  let s := s.setCtx g c.ctx { k with sweep := vset k.sweep (osSlot o) { w with residents := [] } }
  let s := ((List.range 8).filter fun i => w.residents[i]? != some []).foldl (fun s i =>
    let cells := (List.range 128).map fun l => narrowLane fmt c.rm c.honour (laneAt (w.residents.getD i []) l)
    let f := cells.foldl (fun a e => a ||| e.2) Flags.none
    let s := s.post g c.ctx (now + 4 + i) 0 c.id (.row (k.tileBase (osDst o)) i fmt.width (cells.map (·.1)))
    if f = .none then s else s.post g c.ctx (now + 4 + i) 0 c.id (.flags 6 f c.grp)) s
  (s.post g c.ctx (now + 12) 0 c.id (.wrote c.id (osDst o))).finishSoon g c 12

/-- OSAVE freezes its slot at a boundary: rows that landed in this very tick have not, the record stands as of its start, and its 320 blocks are stored (R203, R294). -/
def Sys.saveSweep (s : Sys) (g : Nat) (c : Cmd) (slot : Nat) : Sys × List Write :=
  let k := s.ctx g c.ctx
  let w := vget k.sweep slot
  let now := s.now g c.ctx
  let word : W32 := match w.pass with | some p => p.word | none => 0
  let bytes := k.sweepRecord slot word
  let r := s.freezePass g c.ctx slot
  let back := r.2
  let s := r.1.modCtx g c.ctx fun k => { k with sweep := vmod k.sweep slot fun w => { w with pass := w.pass.map fun p => { p with frozen := true } } }
  let s := s.modCmd g c.id fun c => { c with data := [(0, bytes)] }
  let s := s.post g c.ctx (now + 2) 2 c.id (.unitWrite c.id 0 [])
  (s.post g c.ctx (now + 320) 0 c.id (.back c.id 0 []), back)

/-- The slot has been saved: it is empty, and its pass leaves the scoreboard without a tag (R203). -/
def Sys.emptySlot (s : Sys) (g x slot : Nat) : Sys :=
  let w := vget (s.ctx g x).sweep slot
  let s := match w.pass with | some p => s.dropCmd g p.cmd | none => s
  s.modCtx g x fun k => { k with sweep := vset k.sweep slot {} }

/-- An OSAVE starts, or waits one tick for the boundary of a derive or apply pass (R95). -/
def Sys.trySave (s : Sys) (g : Nat) (c : Cmd) (slot : Nat) : Sys × List Write :=
  match (vget (s.ctx g c.ctx).sweep slot).pass with
  | some p => if p.atBoundary then s.saveSweep g c slot else (s.post g c.ctx (s.now g c.ctx + 1) 1 c.id (.unitRead c.id 0), [])
  | none => s.saveSweep g c slot

/-- The record that an OREST read takes effect: a row recorded at age 20 lands in this tick (R95, R294), and its pass stands among the commands as one dispatched now (R203). The rounding mode and the subnormal mode, which a record does not hold, are those of OREST's own dispatch (DESIGN CHOICE, log 64). One that fails R96 leaves the slot empty and raises class 9, code 2 (R203, R336). -/
def Sys.loadSweep (s : Sys) (m : Memory) (g : Nat) (c : Cmd) (slot : Nat) : Sys × List Write :=
  let k := s.ctx g c.ctx
  let id := 32 * (s.ord + 1)
  match k.readRecord (c.dataAt 0) id c.tag c.rm c.honour with
  | none =>
    (((s.setCtx g c.ctx { k with sweep := vset k.sweep slot {} }).cmdFault g c 9 2 (BitVec.ofNat 64 (c.ptrs.headD 0))).finishSoon g c 1, [])
  | some (w, d) =>
    let dst := match w.pass with | some p => osDst (p.os.getD 0 0) | none => 0
    let s := s.setCtx g c.ctx { k with
      sweep := vset k.sweep slot w
      drift := match d with | some d => vset k.drift dst d | none => k.drift }
    match w.pass with
    | none => (s.finishSoon g c 1, [])
    | some p =>
      ({ s with ord := s.ord + 1 }.modCmd g c.id fun c => { c with id := id, data := [], writes := [dst], reads := if p.round = 0 ∧ p.next < p.rows then [osSrc (p.os.getD 0 0)] else [], stg := p.os },
       (p.landings m g).flatMap fun l => writeRow g (k.tileBase dst) l.1 l.2.1 l.2.2)

/-- A pass over in this tick gives up its slot before another starts there. -/
def Sys.clearSlot (s : Sys) (m : Memory) (g x slot : Nat) : Sys :=
  let w := vget (s.ctx g x).sweep slot
  if w.pass.isSome && w.held.isNone then s.passEnd m g x slot else s

/-- An orrery command starts in this tick. -/
def Sys.startOrr (s : Sys) (m : Memory) (g : Nat) (c : Cmd) : Sys × List Write :=
  let now := s.now g c.ctx
  match c.instr with
  | .olatch .. => ((s.post g c.ctx (now + 2) 1 c.id (.unitRead c.id 0)), [])
  | .ofree .. => (s.freeSlot g c, [])
  | .osave n _ _ => s.trySave g c n.toNat
  | .orest n _ _ => s.loadSweep m g c n.toNat
  | .odrift a n _ =>
    (((s.modCtx g c.ctx fun k => { k with drift := if a = 1 then Vector.replicate 16 {} else vset k.drift n.toNat {} }).finishSoon g c 1), [])
  | .oscfg x e _ => ((s.modCore g fun q => { q with osltPending := q.osltPending ++ [(e.toNat, x.toNat)] }).finishSoon g c 1, [])
  | i =>
    match passKind i with
    | none => (s, [])
    | some kind =>
      let o := c.st 0
      let s := s.clearSlot m g c.ctx (osSlot o)
      let p : Pass := { cmd := c.id, kind := kind, word := c.word, os := c.stg, tag := c.tag, rm := c.rm, honour := c.honour, zp := c.ptrs.headD 0 }
      (s.modCtx g c.ctx fun k => { k with sweep := vmod k.sweep (osSlot o) fun w => { w with pass := some p } }, [])

/-- Reads of OLATCH (its image), OREST (block u) and a waiting OSAVE. -/
def Sys.readOrr (s : Sys) (m : Memory) (g : Nat) (c : Cmd) (u : Nat) : Sys × List Write :=
  let now := s.now g c.ctx
  match c.instr with
  | .olatch b _ _ _ =>
    let a := c.ptrs.headD 0
    match s.readFor m g c (angleKey g a) 2048 (BitVec.ofNat 64 a) with
    | (some bs, s) => ((s.post g c.ctx (now + 2) 2 c.id (.latch (latchKey g ((s.ctx g c.ctx).win.lbase + b.toNat) 0) bs)).finishSoon g c 3, [])
    | (none, s) => (s, [])
  | .orest .. =>
    let a := c.ptrs.headD 0 + 64 * u
    match s.readFor m g c (scratchKey g (localOff a)) 64 (BitVec.ofNat 64 a) with
    | (some bs, s) =>
      let s := s.modCmd g c.id fun c => { c with data := [(0, c.dataAt 0 ++ bs)] }
      (if u < 319 then s.post g c.ctx (now + 1) 1 c.id (.unitRead c.id (u + 1)) else s, [])
    | (none, s) => (s, [])
  | .osave n _ _ => s.trySave g c n.toNat
  | _ => (s, [])

/-- The stores of an OSAVE: block u of its record (R203). -/
def Sys.writeOrr (s : Sys) (g : Nat) (c : Cmd) (u : Nat) : Sys × List Write :=
  let now := s.now g c.ctx
  let r := s.arrive g (localOff (c.ptrs.headD 0) + 64 * u) (((c.dataAt 0).drop (64 * u)).take 64)
  (if u < 319 then r.1.post g c.ctx (now + 1) 2 c.id (.unitWrite c.id (u + 1) []) else r.1.finishSoon g c 1, r.2)

/-- The slot of an OSAVE empties. -/
def Sys.backOrr (s : Sys) (g : Nat) (c : Cmd) : Sys :=
  match c.instr with
  | .osave n _ _ => s.emptySlot g c.ctx n.toNat
  | _ => s

end Sys2Proof.Machine
end

