-- ==== Sys2Proof/Machine/Dot.lean ====
section
/-! DEFINITION. The dot engine: R206 to R209, R325. -/

namespace Sys2Proof.Machine

/-! ## Staging (R206) -/

def dsMask (d : Word) : Nat := fld d 40 8
def dsCp (d : Word) : Nat := 28 + fld d 38 2
def dsOp (d : Word) : Nat := 24 + fld d 36 2
def dsK (d : Word) : Nat := 32 * fld d 32 4
def dsM (d : Word) : Nat := fld d 16 8 + 1
/-- Bits of a Qn element of A, and of B. -/
def dsA (d : Word) : Nat := fld d 12 3 + 2
def dsB (d : Word) : Nat := fld d 9 3 + 2
def dsFmt (d : Word) : FloatFmt := floatOf (fld d 4 5)
def dsSrc (d : Word) : Nat := fld d 0 4

/-- Bytes of a row of A (R206). -/
def rowOfA (d : Word) : Nat := dsK d / 16 * (1 + 2 * dsA d)

/-- E of R207. -/
def dotStep (d : Word) : Nat := dsK d / 16 * ((dsB d + 1) / 2)

/-- Ticks for which a DOT or DOTA occupies the engine (R207). -/
def dotOcc (d : Word) : Nat := dsK d + dsM d * dotStep d

/-! ## Dispatch -/

/-- The rows of A lie in the window of operand memory (R206). -/
def Ctx.rowsInWindow (k : Ctx) (d : Word) : Bool := decide ((k.pointer (dsOp d)).addr.toNat + dsM d * rowOfA d ≤ k.win.opmem)

/-- The entries that a DOT or DOTA uses, those of the lane groups in `gmask`, lie in the window of accumulator memory (R206). -/
def Ctx.entriesInWindow (k : Ctx) (d : Word) : Bool :=
  (List.range 8).all fun g => !bit d (40 + g) || decide ((k.pointer (dsCp d)).addr.toNat + 128 * (dsM d - 1) + 16 * (g + 1) ≤ k.win.accmem)

/-- Limits of DOT and DOTA (R206, R322). -/
def Ctx.dotOk (k : Ctx) (d : Word) : Bool :=
  dsMask d != 0 && decide (fld d 12 3 ≤ 6) && decide (fld d 9 3 ≤ 6) && decide (1 ≤ fld d 32 4) && decide (fld d 32 4 ≤ 8) && decide (fld d 4 5 ≤ 4) &&
    decide (dsK d ≤ tileRows (dsFmt d).width) && decide (dsSrc d < k.win.vwin / 4) && decide (dsM d ≤ 128) &&
    k.rowsInWindow d && k.entriesInWindow d

/-- FAR of DOT's and DOTA's limits: the pointer whose rows or entries leave the window (R322). -/
def Ctx.dotFar (k : Ctx) (d : Word) : Word :=
  badAddress [(k.rowsInWindow d, BitVec.ofNat 64 (k.pointer (dsOp d)).addr.toNat), (k.entriesInWindow d, BitVec.ofNat 64 (k.pointer (dsCp d)).addr.toNat)]

/-- DOT or DOTA joins its queue. -/
def State.dotCommand (s : State) (i : Instr) (delay : Nat) : Host.Outcome State Fault Refusal :=
  let k := s.sys.here
  let ds := k.staged .dot
  let d := ds.getD 0 0
  s.dispatch { eng := .dot, instr := i, delay := delay, stg := ds, ptrs := [(k.pointer (dsOp d)).addr.toNat, (k.pointer (dsCp d)).addr.toNat],
               reads := [dsSrc d], occ := some (dotOcc d), faults := s.sys.range (k.dotOk d) (k.dotFar d) }

/-- DOT (R207). -/
def execDot (c : BitVec 1) (e : BitVec 8) (t : BitVec 16) (s : State) : Host.Outcome State Fault Refusal := s.dotCommand (.dot c e t) t.toNat

/-- DOTA (R207). -/
def execDota (c : BitVec 1) (e : BitVec 8) (t : BitVec 16) (s : State) : Host.Outcome State Fault Refusal := s.dotCommand (.dota c e t) t.toNat

/-- Blocks of DCFG and DSTAT. -/
def ds4Blocks (d : Word) : Nat := fld d 32 12
def ds4Addr (d : Word) : Nat := fld d 0 28

/-- Limits of the scratchpad side of DCFG and DSTAT (R206). -/
def ds4Ok (g : Nat) (d : Word) : Bool :=
  decide (1 ≤ ds4Blocks d) && decide (ds4Blocks d ≤ 2048) && ds4Addr d % 64 == 0 && ownScratch g (ds4Addr d) &&
    decide (localOff (ds4Addr d) + 64 * ds4Blocks d ≤ 2 ^ 21)

/-- FAR of the limits of DCFG and DSTAT: the side that breaks one (R322). -/
def ds4Far (g : Nat) (d : Word) (fits : Bool) (a : Nat) : Word := badAddress [(ds4Ok g d, BitVec.ofNat 64 (ds4Addr d)), (fits, BitVec.ofNat 64 a)]

/-- DCFG: operand memory (`sel` 0) or accumulator memory (`sel` 1) from the scratchpad (R209). -/
def execDcfg (n : BitVec 2) (t : BitVec 16) (s : State) : Host.Outcome State Fault Refusal :=
  let k := s.sys.here
  let ds := k.staged .dot
  let d := ds.getD 4 0
  let code := (if n = 0 then 24 else 28) + fld d 44 2
  let a := (k.pointer code).addr.toNat
  let fits := if n = 0 then decide (a + 64 * ds4Blocks d ≤ k.win.opmem) else decide (a + 8 * ds4Blocks d ≤ k.win.accmem)
  s.dispatch { eng := .dot, instr := .dcfg n t, delay := t.toNat, stg := ds, ptrs := [a], advances := if bit d 46 then [code] else [],
               occ := some (ds4Blocks d), faults := s.sys.range (ds4Ok s.sys.cur.core d && fits && (!bit d 46 || k.advanceOk code)) (ds4Far s.sys.cur.core d fits a) }

/-- DSTAT: accumulator entries to the scratchpad (R209). -/
def execDstat (t : BitVec 16) (s : State) : Host.Outcome State Fault Refusal :=
  let k := s.sys.here
  let ds := k.staged .dot
  let d := ds.getD 4 0
  let code := 28 + fld d 44 2
  let a := (k.pointer code).addr.toNat
  let fits := decide (a + 8 * ds4Blocks d ≤ k.win.accmem)
  s.dispatch { eng := .dot, instr := .dstat t, delay := t.toNat, stg := ds, ptrs := [a], advances := if bit d 46 then [code] else [],
               occ := some (ds4Blocks d), faults := s.sys.range (ds4Ok s.sys.cur.core d && fits && (!bit d 46 || k.advanceOk code)) (ds4Far s.sys.cur.core d fits a) }

def ds2Cp (d : Word) : Nat := 28 + fld d 24 2
def ds2Rows (d : Word) : Nat := fld d 16 7 + 1
def ds2Clr (d : Word) : Bool := bit d 9
def ds2Fmt (d : Word) : Nat := fld d 4 5
def ds2Dst (d : Word) : Nat := fld d 0 4

/-- The width of the tile that a DDRAIN writes. -/
def drainWidth (d : Word) : Nat := if ds2Fmt d = 14 then 32 else (floatOf (ds2Fmt d)).width

/-- DDRAIN: values, means or counts of accumulator entries into a tile (R208). -/
def execDdrain (n : BitVec 2) (t : BitVec 16) (s : State) : Host.Outcome State Fault Refusal :=
  let k := s.sys.here
  let ds := k.staged .dot
  let d := ds.getD 2 0
  let a := (k.pointer (ds2Cp d)).addr.toNat
  let fits := decide (a + 128 * ds2Rows d ≤ k.win.accmem)
  let ok := (if n = 2 then ds2Fmt d == 14 else decide (ds2Fmt d ≤ 4)) && decide (ds2Rows d ≤ (if drainWidth d = 32 then 64 else 128)) &&
    decide (ds2Dst d < k.win.vwin / 4) && fits
  s.dispatch { eng := .dot, instr := .ddrain n t, delay := t.toNat, stg := ds, ptrs := [a], writes := [ds2Dst d], occ := some (ds2Rows d),
               faults := s.sys.range ok (badAddress [(fits, BitVec.ofNat 64 a)]) }

/-- DCLR (R209). -/
def execDclr (t : BitVec 16) (s : State) : Host.Outcome State Fault Refusal :=
  let k := s.sys.here
  let ds := k.staged .dot
  let d := ds.getD 3 0
  let code := 28 + fld d 8 2
  let a := (k.pointer code).addr.toNat
  let fits := decide (a + 128 * (fld d 0 7 + 1) ≤ k.win.accmem)
  s.dispatch { eng := .dot, instr := .dclr t, delay := t.toNat, stg := ds, ptrs := [a], occ := some (fld d 0 7 + 1),
               faults := s.sys.range fits (badAddress [(fits, BitVec.ofNat 64 a)]) }

/-! ## What a DOT computes (R207) -/

/-- A Qn element as the F32 value that enters a product (R64, R69). DESIGN CHOICE (log 60): a value below 2^-126 is flushed here as an operand, with no flag. -/
def qValue (honour : Bool) (v : Val) : Val :=
  match v with
  | .absent => .absent
  | v => FloatFmt.f32.decode honour (FloatFmt.f32.deliver .rne true v).1

/-- The blocks of B's group g: for each row of the tile, exponent and mantissas, with their flags. -/
def quantise (d : Word) (rm : Rm) (honour : Bool) (rows : List (List Nat)) (g : Nat) : List (Nat × List Nat) × Flags :=
  let bs := rows.map fun r => qEncode (dsB d) rm (((r.drop (16 * g)).take 16).map fun v => (dsFmt d).decode honour v)
  (bs.map fun b => (b.1, b.2.1), bs.foldl (fun f b => f ||| b.2.2) .none)

/-- Element k of a row of A from its bytes. -/
def elemOfA (d : Word) (bytes : List Byte) (k : Nat) : Val :=
  let n := dsA d
  let block := (bytes.drop (k / 16 * (1 + 2 * n))).take (1 + 2 * n)
  qDecode n (leNat (block.take 1)) (qMantissa n (leNat (block.drop 1)) (k % 16))

/-- An accumulator entry as a partial result (R50). -/
def entryPartial (v : Nat) : Partial :=
  ⟨v % 2 ^ 32, v / 2 ^ 32 % 2 ^ 32, .none⟩

/-- The entry of row i of A and one column of B (R207): 32-element trees in ascending order onto the start value. -/
def dotEntry (d : Word) (rm : Rm) (honour : Bool) (a b : List Val) (start : Partial) : Partial :=
  let f := RedOp.combine .add .f32 rm honour
  let none_ := Elem.f32.input true 0
  let term (k : Nat) : Partial :=
    match a.getD k .absent, b.getD k .absent with
    | .absent, _ | _, .absent => none_
    | x, y =>
      let r := FloatFmt.f32.deliver rm honour (x.mul y)
      ⟨r.1, 1, r.2⟩
  (List.range (dsK d / 32)).foldl (fun acc u => f acc (treeReduce f ((List.range 32).map fun t => term (32 * u + t)) none_)) start

/-- An entry's eight bytes. -/
def entryBytes (p : Partial) : List Byte := leBytes 4 p.value ++ leBytes 4 p.count

/-- The cleared entry: absent, count 0 (R50). -/
def clearedEntry : List Byte := leBytes 4 0xFFC00001 ++ leBytes 4 0

/-- Row i of a DOT or DOTA: the writes of its entries, and its flags. -/
def Cmd.dotRow (c : Cmd) (m : Memory) (g opBase accBase : Nat) (i : Nat) : List (Nat × List Byte) × Flags :=
  let d := c.st 0
  let more := match c.instr with | .dota .. => true | _ => false
  let rows := (List.range (dsK d)).map fun k => let bs := c.dataAt k; (List.range 128).map fun l => leNat ((bs.drop (l * ((dsFmt d).width / 8))).take ((dsFmt d).width / 8))
  let abytes := m.bytes (operandKey g (opBase + c.ptrs.getD 0 0 + i * rowOfA d)) (rowOfA d)
  let a := (List.range (dsK d)).map fun k => qValue c.honour (elemOfA d abytes k)
  let groups := (List.range 8).filter fun q => dsMask d / 2 ^ q % 2 == 1
  groups.foldl (fun acc q =>
    let bq := quantise d c.rm c.honour rows q
    let entries := (List.range 16).map fun l =>
      let b := bq.1.map fun blk => qValue c.honour (qDecode (dsB d) blk.1 (blk.2.getD l 0))
      let n := accBase + c.ptrs.getD 1 0 + 128 * i + 16 * q + l
      let start := if more then entryPartial (leNat (m.bytes (accKey g n) 8)) else Elem.f32.input true 0
      (accKey g n, dotEntry d c.rm c.honour a b start)
    (acc.1 ++ entries.map (fun e => (e.1, entryBytes e.2)), entries.foldl (fun f e => f ||| Elem.f32.reduceFlags e.2) (acc.2 ||| bq.2))) ([], .none)

/-! ## Progress -/

/-- A dot command starts in this tick: its first unit is read then, of a DCFG after its load (R207 to R209). -/
def Sys.startDot (s : Sys) (g : Nat) (c : Cmd) : Sys :=
  let now := s.now g c.ctx
  s.postCmd g c (match c.instr with | .dcfg .. => now + 2 | _ => now) 1 (.unitRead c.id 0)

/-- What a drain writes for an entry (R76, R208); `sat` is a record's (R218), a DDRAIN has none. -/
def drained (n : Nat) (d : Word) (rm : Rm) (honour sat : Bool) (e : Nat) : Nat × Flags :=
  let v := e % 2 ^ 32
  let count := e / 2 ^ 32 % 2 ^ 32
  let fmt := floatOf (ds2Fmt d)
  if n = 2 then (if count = 2 ^ 32 - 1 then (2 ^ 32 - 2, .overflow) else (count, .none))
  else if Elem.f32.isAbsent v ∨ (n = 1 ∧ count = 0) then (fmt.absent, .none)
  else
    let to_ (rm : Rm) (x : Val) : Nat × Flags := if sat && fmt != .f32 then fmt.deliverSat rm honour x else fmt.deliver rm honour x
    if n = 1 then to_ .rne ((FloatFmt.f32.decode honour v).div (.fin false count 1 0)) else to_ rm (FloatFmt.f32.decode honour v)

/-- Unit u is read (R207 to R209). -/
def Sys.readDot (s : Sys) (m : Memory) (g : Nat) (c : Cmd) (u : Nat) : Sys :=
  let k := s.ctx g c.ctx
  let now := s.now g c.ctx
  let next (s : Sys) (n : Nat) : Sys := s.postCmd g c (now + n) 1 (.unitRead c.id (u + 1))
  match c.instr with
  | .dot .. | .dota .. =>
    let d := c.st 0
    if u < dsK d then
      if (s.rowPoison g (k.tileBase (dsSrc d)) u (dsFmt d).width).isSome then s.stopCmd g c 11 1 0 else
      let row := rowBytes (dsFmt d).width (readRow m g (k.tileBase (dsSrc d)) u (dsFmt d).width)
      let s := s.modCmd g c.id fun c => { c with data := c.data ++ [(u, row)] }
      let s := if u + 1 = dsK d then s.postCmd g c (now + 1) 0 (.release c.id (dsSrc d)) else s
      next s 1
    else
      let i := u - dsK d
      let e := dotStep d
      let more := match c.instr with | .dota .. => true | _ => false
      let got := s.readFor m g c (operandKey g (k.win.opbase + c.ptrs.getD 0 0 + i * rowOfA d)) (rowOfA d) 0
      match if more && got.1.isSome then s.readFor m g c (accKey g (k.win.accbase + c.ptrs.getD 1 0 + 128 * i)) 1024 0 else got with
      | (none, s) => s
      | (some _, s) =>
        let r := c.dotRow m g k.win.opbase k.win.accbase i
        let s := r.1.foldl (fun s p => s.postCmd g c (now + e + 4) 2 (.put p.1 7 p.2)) (s.cmdFlags g c r.2)
        if i + 1 < dsM d then next s e else s.finishSoon g c (e + 5)
  | .ddrain n _ =>
    let d := c.st 2
    let first := k.win.accbase + c.ptrs.getD 0 0 + 128 * u
    match s.readFor m g c (accKey g first) 1024 0 with
    | (none, s) => s
    | (some bs, s) =>
      let cells := (words64 128 bs).map fun w => drained n.toNat d c.rm c.honour false w.toNat
      let f := cells.foldl (fun a e => a ||| e.2) Flags.none
      let s := s.postCmd g c (now + 6) 0 (.row (k.tileBase (ds2Dst d)) u (drainWidth d) (cells.map (·.1)))
      let s := if f = .none then s else s.postCmd g c (now + 6) 0 (.flags 7 f c.grp)
      let s := if ds2Clr d then s.postCmd g c (now + 1) 2 (.put (accKey g first) 7 ((List.range 128).flatMap fun _ => clearedEntry)) else s
      if u + 1 < ds2Rows d then next s 1
      else (s.postCmd g c (now + 7) 0 (.wrote c.id (ds2Dst d))).finishSoon g c 7
  | .dclr .. =>
    let d := c.st 3
    let s := s.postCmd g c now 2 (.put (accKey g (k.win.accbase + c.ptrs.getD 0 0 + 128 * u)) 7 ((List.range 128).flatMap fun _ => clearedEntry))
    if u + 1 < fld d 0 7 + 1 then next s 1 else s.finishSoon g c 1
  | .dcfg n _ =>
    let d := c.st 4
    let a := localOff (ds4Addr d) + 64 * u
    match s.readFor m g c (scratchKey g a) 64 (BitVec.ofNat 64 (ds4Addr d + 64 * u)) with
    | (none, s) => s
    | (some bs, s) =>
      let key := if n = 0 then operandKey g (k.win.opbase + c.ptrs.getD 0 0 + 64 * u) else accKey g (k.win.accbase + c.ptrs.getD 0 0 + 8 * u)
      let s := s.postCmd g c (now + 2) 2 (.put key 7 bs)
      if u + 1 < ds4Blocks d then next s 1 else s.finishSoon g c 3
  | _ =>
    let d := c.st 4
    match s.readFor m g c (accKey g (k.win.accbase + c.ptrs.getD 0 0 + 8 * u)) 64 0 with
    | (none, s) => s
    | (some bs, s) =>
      let s := s.postCmd g c (now + 3) 2 (.store g (localOff (ds4Addr d) + 64 * u) 7 bs)
      if u + 1 < ds4Blocks d then next s 1 else s.finishSoon g c 4

end Sys2Proof.Machine
end

