-- ==== Sys2Proof/Machine/Load.lean ====
section
/-! DEFINITION. The scale/angle load slot: R210, R211. -/

namespace Sys2Proof.Machine

/-- What a transfer moves: engine pointer, scratchpad pointer, length in words; toward the scratchpad; angle codes only. -/
structure Transfer where
  dp : Nat
  sp : Nat
  words : Nat
  out : Bool := false
  codes : Bool := false
  /-- The pointer codes that the entry allows begin here. -/
  low : Nat := 16

/-- The transfer of an instruction (R210). -/
def transferOf : Instr → Option Transfer
  | .ald d s _ _ l => some { dp := d.toNat, sp := s.toNat, words := l.toNat }
  | .sld d s _ _ l => some { dp := d.toNat, sp := s.toNat, words := l.toNat, low := 20 }
  | .ptld d s _ _ l => some { dp := d.toNat, sp := s.toNat, words := l.toNat, codes := true }
  | .ast d s _ _ l => some { dp := d.toNat, sp := s.toNat, words := l.toNat, out := true }
  | .sst d s _ _ l => some { dp := d.toNat, sp := s.toNat, words := l.toNat, out := true, low := 20 }
  | _ => none

/-- Bytes on the scratchpad side. -/
def Transfer.padBytes (r : Transfer) : Nat := if r.codes then 2 * r.words else 4 * r.words

/-- 2 KiB chunks of engine memory (R211). -/
def Transfer.chunks (r : Transfer) : Nat := (4 * r.words + 2047) / 2048

/-- Limits of a transfer (R211, R322). -/
def Ctx.transferOk (k : Ctx) (g : Nat) (r : Transfer) (a b : BitVec 1) : Bool :=
  let pad := (k.pointer r.sp).addr.toNat
  decide (r.low ≤ r.dp) && decide (r.dp < r.low + 4) && pad % 4 == 0 && ownScratch g pad && decide (localOff pad + r.padBytes ≤ 2 ^ 21) &&
    decide ((k.pointer r.dp).addr.toNat + 4 * r.words ≤ k.pointerSpan r.dp) && (a == 0 || k.advanceOk r.sp) && (b == 0 || k.advanceOk r.dp)

/-- FAR of a transfer's limits: the side that breaks one, as its pointer gives it (R322). -/
def Ctx.transferFar (k : Ctx) (g : Nat) (r : Transfer) : Word :=
  let pad := (k.pointer r.sp).addr.toNat
  let own := (k.pointer r.dp).addr.toNat
  badAddress [(pad % 4 == 0 && ownScratch g pad && decide (localOff pad + r.padBytes ≤ 2 ^ 21), BitVec.ofNat 64 pad),
    (decide (own + 4 * r.words ≤ k.pointerSpan r.dp), BitVec.ofNat 64 own)]

/-- A transfer starts at issue, its pointers as the streams of the passes leave them (R44); a busy slot holds it, or is a timing fault in timed mode (R211). -/
def State.transfer (s : State) (i : Instr) (r : Transfer) (a b : BitVec 1) : Host.Outcome State Fault Refusal :=
  let y := s.sys.served s.sys.cur.core s.sys.cur.ctx
  let k := y.here
  let busy := decide (y.t < vget y.hereCore.free Engine.load.index)
  let d : Dispatch :=
    { eng := .load, instr := i, ptrs := [(k.pointer r.dp).addr.toNat, (k.pointer r.sp).addr.toNat],
      advances := (if a = 1 then [r.sp] else []) ++ (if b = 1 then [r.dp] else []),
      hold := if busy && !k.timed then some false else none, occ := some r.chunks,
      faults := y.range (k.transferOk y.cur.core r a b) (k.transferFar y.cur.core r) ++ y.limit (!(busy && k.timed)) 5 1 }
  s.issue (d.waits y) (d.breaches y) fun _ =>
    ((d.accept y).modCmd y.cur.core y.cur.ord fun c => { c with started := true }).post y.cur.core y.cur.ctx (y.t + 2) 1 y.cur.ord (.unitRead y.cur.ord 0)

/-- ALD: angle memory from the scratchpad (R210). -/
def execAld (d : BitVec 5) (p : BitVec 4) (a b : BitVec 1) (l : BitVec 16) (s : State) : Host.Outcome State Fault Refusal :=
  s.transfer (.ald d p a b l) { dp := d.toNat, sp := p.toNat, words := l.toNat } a b

/-- SLD: scale memory from the scratchpad (R210). -/
def execSld (d : BitVec 5) (p : BitVec 4) (a b : BitVec 1) (l : BitVec 16) (s : State) : Host.Outcome State Fault Refusal :=
  s.transfer (.sld d p a b l) { dp := d.toNat, sp := p.toNat, words := l.toNat, low := 20 } a b

/-- PTLD: the angle fields of pair words in angle memory (R210). -/
def execPtld (d : BitVec 5) (p : BitVec 4) (a b : BitVec 1) (l : BitVec 16) (s : State) : Host.Outcome State Fault Refusal :=
  s.transfer (.ptld d p a b l) { dp := d.toNat, sp := p.toNat, words := l.toNat, codes := true } a b

/-- AST: angle memory to the scratchpad (R210). -/
def execAst (d : BitVec 5) (p : BitVec 4) (a b : BitVec 1) (l : BitVec 16) (s : State) : Host.Outcome State Fault Refusal :=
  s.transfer (.ast d p a b l) { dp := d.toNat, sp := p.toNat, words := l.toNat, out := true } a b

/-- SST: scale memory to the scratchpad (R210). -/
def execSst (d : BitVec 5) (p : BitVec 4) (a b : BitVec 1) (l : BitVec 16) (s : State) : Host.Outcome State Fault Refusal :=
  s.transfer (.sst d p a b l) { dp := d.toNat, sp := p.toNat, words := l.toNat, out := true, low := 20 } a b

/-! ## Progress -/

/-- The key of byte `off` of the engine memory of a transfer. -/
def Transfer.key (r : Transfer) (g off : Nat) : Nat := if r.low = 16 then angleKey g off else scaleKey g off

/-- Words of chunk u. -/
def Transfer.chunkWords (r : Transfer) (u : Nat) : Nat := Nat.min 512 (r.words - 512 * u)

/-- Chunk u is read; it is written in the next tick (R211). -/
def Sys.readLoad (s : Sys) (m : Memory) (g : Nat) (c : Cmd) (u : Nat) : Sys :=
  match transferOf c.instr with
  | none => s
  | some r =>
    let now := s.now g c.ctx
    let n := r.chunkWords u
    let eng := c.ptrs.getD 0 0 + 2048 * u
    let pad := c.ptrs.getD 1 0 + (if r.codes then 1024 else 2048) * u
    let got :=
      if r.out then s.readFor m g c (r.key g eng) (4 * n) (BitVec.ofNat 64 eng)
      else s.readFor m g c (scratchKey g (localOff pad)) (if r.codes then 2 * n else 4 * n) (BitVec.ofNat 64 pad)
    match got with
    | (none, s) => s
    | (some bs, s) =>
      let s := s.postCmd g c (now + 1) 2 (.unitWrite c.id u bs)
      if u + 1 < r.chunks then s.postCmd g c (now + 1) 1 (.unitRead c.id (u + 1)) else s.finishSoon g c 2

/-- Chunk u is written (R210). -/
def Sys.writeLoad (s : Sys) (g : Nat) (c : Cmd) (u : Nat) (data : List Byte) : Sys × List Write :=
  match transferOf c.instr with
  | none => (s, [])
  | some r =>
    let eng := c.ptrs.getD 0 0 + 2048 * u
    if r.out then s.arrive g (localOff (c.ptrs.getD 1 0) + 2048 * u) data
    else if r.codes then (s, (List.range (data.length / 2)).map fun i => .put (r.key g (eng + 4 * i)) ((data.drop (2 * i)).take 2))
    else (s, [.put (r.key g eng) data])

end Sys2Proof.Machine
end

