-- ==== Sys2Proof/Machine/Region.lean ====
section
/-! DEFINITION. Restart regions: when they close and commit (R326, R327), and records that enter an acceptance queue (R128, R222). -/

namespace Sys2Proof.Machine

/-! ## Acceptance queues -/

/-- A record enters the acceptance queue of a level (R222). -/
def Sys.enqueue (s : Sys) (src : Source) (lv : LevelAt) (ctx : Nat) (r : CamvelRecord) : Sys :=
  let e : Rec := { id := s.pkg.nextRec, source := src, level := lv, record := r, ctx := ctx, accepted := s.run }
  { s with pkg := { s.pkg with recs := s.pkg.recs ++ [e], nextRec := s.pkg.nextRec + 1 } }

/-- The record of a CTI enters its level's queue (R128). -/
def Sys.enqueueCti (s : Sys) (g x level : Nat) (r : CamvelRecord) : Sys := s.enqueue (.context g x) (ctiLevel g level) x r

/-- The record whose 64 bytes stand in memory order (R218). -/
def recordOf (bs : List Byte) : CamvelRecord :=
  let w := words64 8 bs
  ⟨w.getD 0 0, w.getD 1 0, w.getD 2 0, w.getD 3 0, w.getD 4 0, w.getD 5 0, w.getD 6 0, w.getD 7 0⟩

/-- The record of the CTI of an order has been read: the open region holds it, if the CTI issued in that region (R327). -/
def Sys.ctiRecord (s : Sys) (g x ord level : Nat) (r : CamvelRecord) : Sys :=
  if (s.ctx g x).region.open_ ∧ (s.ctx g x).region.since ≤ ord then
    s.modCtx g x fun k => { k with region := { k.region with gated := insertGated (.record ord level r) k.region.gated } }
  else s.enqueueCti g x level r

/-! ## Commit -/

/-- The command has an access whose address its owner has not yet translated; its gated writes are not counted (R326). -/
def Sys.untranslated (s : Sys) (m : Memory) (g : Nat) (c : Cmd) : Bool :=
  (s.agenda.any fun e => e.core == g && e.act.cmd == some c.id &&
      (match e.act with
        | .farRead .. => !(decide (e.due ≤ s.wcyc) && s.waitsCommit g c && s.translates m e.act.va)
        | .farAtom .. => true
        | _ => false)) ||
    (match c.instr with
      | .tld .. | .ldw .. => !c.started
      | .cpy .. | .cpys .. | .cpyg .. | .cpyr .. => !c.sloc && decide (c.pos < c.blocks)
      | _ => false)

/-- The commands of the region with an off-core access that has not been translated. -/
def Sys.uncommitted (s : Sys) (m : Memory) (g x : Nat) : List Cmd :=
  (s.core g).cmds.filter fun c => c.ctx == x && decide ((s.ctx g x).region.since ≤ c.id) && s.untranslated m g c

/-- Every off-core access dispatched in the region has been translated. -/
def Sys.regionReady (s : Sys) (m : Memory) (g x : Nat) : Bool := (s.uncommitted m g x).isEmpty

/-- The wait for the commit is a stall in timed mode (R326), once some access of the region is off the core; the start of a command is a tick of the schedule (DEDUCED, log 72). -/
def Sys.commitVaries (s : Sys) (m : Memory) (g x : Nat) : Bool := (s.uncommitted m g x).any (s.outside m g)

/-- A gated entry leaves: a write sets out to perform in this cycle, a record enters its queue. -/
def Sys.leave (s : Sys) (g x : Nat) (e : Gated) : Sys :=
  match e with
  | .store cmd va data => s.post g x s.wcyc 11 cmd (.farWrite cmd 0 va data)
  | .record _ level r => s.enqueueCti g x level r

/-- The region closes: its gated entries leave in gating order, and writes of its commands that are still to be read follow in that order (R326, R327). -/
def Sys.commitRegion (s : Sys) (g x : Nat) : Sys :=
  let entries := (s.ctx g x).region.gated
  let mark := (s.ctx g x).region.since + 1
  let s := s.modCtx g x fun k => { k with region := {} }
  let s := entries.foldl (fun s e => s.leave g x e) s
  s.modCore g fun q => { q with cmds := q.cmds.map fun c => if c.ctx = x && c.gated then { c with gated := false, gateOf := mark } else c }

/-- REGION_COMMIT: an open region whose accesses are all translated commits (R326). -/
def execRegionCommit (core : Nat) (ctx : Fin 4) (s : State) : Host.Outcome State Fault Refusal :=
  s.eventOn (decide (core < 1024)) fun y =>
    if (y.ctx core ctx).region.open_ && y.regionReady s.mem core ctx then (y.commitRegion core ctx, []) else (y, [])

/-! ## Events that close a region -/

/-- An instruction closes the open region before it issues, whatever the region holds (R326). -/
def closes (i : Instr) : Bool :=
  match i with
  | .halt | .trap .. | .eret | .yield => true
  | .atomAdd .. | .atomMin .. | .atomMax .. | .atomAnd .. | .atomOr .. | .atomXor .. | .atomSwap .. | .atomCas .. => true
  | i => match i.kind with
    | some .orrery | some .dot | some .load | some .collective => true
    | _ => false

/-- The instruction takes more entries of the gated buffer than are free, or it closes the region by itself. -/
def Ctx.mustClose (k : Ctx) (taken : Nat) (i : Instr) : Bool := closes i || decide (64 < taken + k.gateOf i)

/-- The physical registers that an instruction writes in a lane group. -/
def Ctx.regsWritten (k : Ctx) (lanes : List Nat) (lg : Nat) (i : Instr) : List Nat :=
  match i with
  | .tld .. => (List.range 4).map fun n => k.tileBase (tsTile ((k.staged .tm).getD 2 0)) + n
  | .cpyr .. => (List.range 4).map fun n => k.tileBase k.copyTile + n
  | i => if lanes.contains lg then (match vwordOf i with | some v => v.writes k | none => []) else []

/-- The writes of these instructions, each with its lane groups, reach a ninth register of a lane group since the mark (R326). -/
def Ctx.ninthOf (k : Ctx) (is : List (List Nat × Instr)) : Bool :=
  (List.range 8).any fun lg =>
    let old := (k.region.shadows.filter fun p => p.1 == lg).map (·.2.1)
    decide (8 < ((is.flatMap fun p => k.regsWritten p.1 lg p.2).foldl (fun acc r => if acc.contains r then acc else acc ++ [r]) old).length)

end Sys2Proof.Machine
end

