-- ==== Sys2Proof/Machine/Collective.lean ====
section
/-! DEFINITION. The collective slot: R212 to R217, ephemerides and transits (R261 to R263), READYs that lapse (R340), and the start of engine commands (R108, R187, R259). -/

namespace Sys2Proof.Machine

/-! ## Dispatch -/

/-- The lowest free queue slot of a context (R212). -/
def Ctx.freeQueue (k : Ctx) : Option Nat := (List.range k.win.tqueue).find? fun q => (vget k.regs.tq q).isNone

/-- A command of the collective engine at its dispatch: it leaves the engine free at start + 1 (R215). -/
def Sys.collective (s : Sys) (i : Instr) (delay : BitVec 16) (ok : Bool) (far : Word := 0) : Dispatch :=
  { eng := .col, instr := i, delay := delay.toNat, stg := s.here.staged .col, occ := some 1, faults := s.range ok far }

/-- The engine that a TRIG names (R215). -/
def trigEngine (n : Nat) : Engine := match n with | 0 => .tm | 1 => .cp | _ => .col

def Engine.kind : Engine → SlotKind
  | .tm => .tileMem | .cp => .copy | .orr => .orrery | .dot => .dot | .load => .load | .col => .collective

/-- A command header that TRIG may fire: an assigned opcode, not TRIG or READY (R216). -/
def hdrOk (e : Engine) (hdr : W32) : Bool :=
  match decodeSlot e.kind hdr with
  | .ok (.trig ..) | .ok (.ready ..) => false
  | .ok _ => true
  | .error .unassigned => false
  | .error _ => !(e == .col && (hdr.toNat / 2 ^ 27 == 1 || hdr.toNat / 2 ^ 27 == 7))

/-- The five staging registers that a fired command reads (R216). -/
def Ctx.snapshot (k : Ctx) (e : Engine) : List Word :=
  let st := k.staged e
  match e with
  | .col => (st.drop 2).take 5
  | _ => st.take 5

/-- A command that takes a queue slot at its dispatch; without a free one its group holds (R216). -/
def State.queue (s : State) (d : Dispatch) (entry : Queued) : Host.Outcome State Fault Refusal :=
  let y := s.sys
  match y.here.freeQueue with
  | none => s.dispatch { d with hold := some (y.hereCore.cmds.any fun c => c.ctx == y.cur.ctx && y.outside s.mem y.cur.core c) }
  | some q =>
    s.issue (d.waits y) (d.breaches y) fun y =>
      (d.accept y).modHereRegs fun r => { r with tq := vset r.tq q (some { entry with armer := y.cur.ord, grp := y.cur.grp }) }

/-- TRIG (R216). -/
def execTrig (e : BitVec 2) (n : BitVec 6) (t : BitVec 16) (s : State) : Host.Outcome State Fault Refusal :=
  let k := s.sys.here
  let es := k.staged .col
  let hdr : W32 := (es.getD 1 0).setWidth 32
  let eng := trigEngine e.toNat
  s.queue (s.sys.collective (.trig e n t) t (decide (e.toNat < 3) && k.tcOk n.toNat && hdrOk eng hdr))
    { tc := n.toNat, eng := e.toNat, thr := (es.getD 0 0).setWidth 32, hdr := hdr, stg := k.snapshot eng }

/-- READY (R217). -/
def execReady (x : BitVec 5) (n : BitVec 3) (t : BitVec 16) (s : State) : Host.Outcome State Fault Refusal :=
  let k := s.sys.here
  let e2 := (k.staged .col).getD 2 0
  s.queue (s.sys.collective (.ready x n t) t (k.tcOk (fld e2 0 6)))
    { isReady := true, tc := fld e2 0 6, region := n.toNat, tile := x.toNat, clr := bit e2 6 }

/-- CINC (R215). -/
def execCinc (v : BitVec 2) (n : BitVec 6) (t : BitVec 16) (s : State) : Host.Outcome State Fault Refusal :=
  s.dispatch (s.sys.collective (.cinc v n t) t (s.sys.here.tcOk n.toNat))

/-- CSET (R215). -/
def execCset (n : BitVec 6) (t : BitVec 16) (s : State) : Host.Outcome State Fault Refusal :=
  s.dispatch (s.sys.collective (.cset n t) t (s.sys.here.tcOk n.toNat))

/-- The scratchpad address in ES2. -/
def Ctx.es2Addr (k : Ctx) : Nat := fld ((k.staged .col).getD 2 0) 0 28

/-- CRD: the address is the core's own, a multiple of 8 (R215). -/
def execCrd (n : BitVec 6) (t : BitVec 16) (s : State) : Host.Outcome State Fault Refusal :=
  let k := s.sys.here
  let a := k.es2Addr
  s.dispatch (s.sys.collective (.crd n t) t (k.tcOk n.toNat && a % 8 == 0 && ownScratch s.sys.cur.core a)
    (badAddress [(a % 8 == 0 && ownScratch s.sys.cur.core a, BitVec.ofNat 64 a)]))

/-- EPH: a table of 1 to 4,096 transits in the core's own scratchpad, and no ephemeris open (R215). -/
def execEph (t : BitVec 16) (s : State) : Host.Outcome State Fault Refusal :=
  let k := s.sys.here
  let a := k.es2Addr
  let n := fld ((k.staged .col).getD 3 0) 0 16
  s.dispatch (s.sys.collective (.eph t) t
    (a % 64 == 0 && ownScratch s.sys.cur.core a && decide (1 ≤ n) && decide (n ≤ 4096) && decide (localOff a + 32 * n ≤ 2 ^ 21) && k.eph.isNone)
    (badAddress [(a % 64 == 0 && ownScratch s.sys.cur.core a && decide (localOff a + 32 * n ≤ 2 ^ 21), BitVec.ofNat 64 a)]))

/-- AOWnA and AOWnB hold a configuration that R55 allows, beside the core's other regions. -/
def Core.aowOk (q : Core) (sel n : Nat) (a b : Word) : Bool :=
  let r : AowRegion := { a := if sel % 2 = 1 then a else (vget q.aow n).a }
  let last (r : AowRegion) : Nat := r.base + r.tiles * r.tileBytes
  (sel / 2 == 0 || (decide (1 ≤ fld b 0 15) && decide (fld b 0 15 ≤ 16384))) &&
    (!r.on ||
      (decide (1 ≤ r.tiles) && decide (r.tiles ≤ 32) && decide (64 ≤ r.tileBytes) && decide (r.tileBytes ≤ 65536) && r.base % 64 == 0 && decide (last r ≤ 2 ^ 21) &&
        (List.range 8).all fun m => let o := vget q.aow m; m == n || !o.on || decide (last r ≤ o.base) || decide (last o ≤ r.base)))

/-- AOWCFG (R55, R215). -/
def execAowcfg (l : BitVec 2) (n : BitVec 3) (t : BitVec 16) (s : State) : Host.Outcome State Fault Refusal :=
  let es := s.sys.here.staged .col
  s.dispatch (s.sys.collective (.aowcfg l n t) t (s.sys.hereCore.aowOk l.toNat n.toNat (es.getD 2 0) (es.getD 3 0)))

/-- EPHEND (R215). -/
def execEphend (t : BitVec 16) (s : State) : Host.Outcome State Fault Refusal := s.dispatch (s.sys.collective (.ephend t) t true)

/-! ## Start -/

/-- The ephemeris closes: the READYs armed by now lapse 256 ticks later (R262, R340). -/
def Sys.closeEph (s : Sys) (g x : Nat) : Sys :=
  match (s.ctx g x).eph with
  | none => s
  | some e =>
    let t := s.mer + 256
    let s := s.modCtx g x fun k => { k with eph := none, regs := { k.regs with tq := k.regs.tq.map fun q => match q with
      | some q => some (if q.isReady && q.armed (s.tick k.timed) && q.lapse.isNone then { q with lapse := some t } else q)
      | none => none } }
    s.post g x t 4 e.id .readyLapse

/-- The queue slot that a command armed. -/
def Ctx.armedBy (k : Ctx) (id : Nat) : Option Nat := (List.range 32).find? fun q => (vget k.regs.tq q).any fun e => e.armer == id

/-- A READY of slot q has seen its bit: in the next tick it counts, clears the bit if it is to, and its slot is released (R217). -/
def Sys.fireReady (s : Sys) (g x q : Nat) (e : Queued) : Sys :=
  let soon (s : Sys) (a : Act) : Sys := s.post g x (s.now g x + 1) 0 e.armer a
  let s := s.modRegs g x fun r => { r with tq := vset r.tq q (some { e with fired := some (s.now g x) }) }
  let s := soon (soon s (.tcAdd e.tc 1)) (.queueFree q)
  if e.clr then soon s (.readyClear e.region e.tile) else s

/-- The ready bit that a READY watches is set. -/
def Core.readyBit (q : Core) (e : Queued) : Bool := (vget q.aow e.region).ready.toNat / 2 ^ e.tile % 2 == 1

/-- A READY starts: a bit that is already set is seen at once, else the slot is armed from the next tick (R217). -/
def Sys.startReady (s : Sys) (g x q : Nat) (id : Nat) : Sys :=
  match vget (s.ctx g x).regs.tq q with
  | some e =>
    if (s.core g).readyBit e then (s.modRegs g x fun r => { r with tq := vset r.tq q (some { e with armedAt := some (s.now g x) }) }).fireReady g x q { e with armedAt := some (s.now g x) }
    else s.post g x (s.now g x + 1) 0 id (.arm q)
  | none => s

/-- A collective command starts (R215). -/
def Sys.startCol (s : Sys) (g : Nat) (c : Cmd) : Sys :=
  let soon (s : Sys) (a : Act) : Sys := s.post g c.ctx (s.now g c.ctx + 1) 0 c.id a
  let k := s.ctx g c.ctx
  match c.instr with
  | .trig .. => soon (match k.armedBy c.id with | some q => soon s (.arm q) | none => s) (.finish c.id)
  | .ready .. => soon (match k.armedBy c.id with | some q => s.startReady g c.ctx q c.id | none => s) (.finish c.id)
  | .cinc v n _ => soon (soon s (.tcAdd n.toNat (if v = 1 then (c.st 2).setWidth 32 else 1))) (.finish c.id)
  | .cset n _ => soon (soon s (.tcSet n.toNat ((c.st 2).setWidth 32))) (.finish c.id)
  | .crd n _ =>
    let a := fld (c.st 2) 0 28
    soon (s.storeLocal g c.ctx a 0 9 c.id c.slot c.grp (leBytes 8 (vget k.regs.tc n.toNat).toNat)) (.finish c.id)
  | .aowcfg l n _ => soon (soon s (.aow l.toNat n.toNat (c.st 2) (c.st 3) c.grp)) (.finish c.id)
  | .eph .. =>
    let e : Ephemeris := { id := c.id, table := localOff (fld (c.st 2) 0 28), count := fld (c.st 3) 0 16, start := s.mer, base := s.mer + fld (c.st 3) 32 32, grp := c.grp }
    if k.eph.isSome then soon (s.cmdFault g c 3 1 (BitVec.ofNat 64 (fld (c.st 2) 0 28))) (.finish c.id)
    else (s.modCtx g c.ctx fun k => { k with eph := some e }).post g c.ctx (s.mer + 2) 5 c.id (.unitRead c.id 0)
  | _ => soon (s.closeEph g c.ctx) (.finish c.id)

/-! ## Ephemerides -/

/-- A transit entry from its 32 bytes (R261). -/
def transitOf (bs : List Byte) : Transit :=
  let w := words64 4 bs
  let w0 := w.getD 0 0
  { tick := fld w0 0 32, len := fld w0 32 16, lane := fld w0 48 4, dloc := bit w0 52, tc := fld w0 56 6, cinc := bit w0 62,
    src := (w.getD 1 0).toNat, dst := w.getD 2 0 }

/-- The entry breaks no rule of R261, R262 and R272: `last` is the tick of the entry before it. -/
def Ephemeris.entryOk (e : Ephemeris) (k : Ctx) (g : Nat) (bs : List Byte) : Bool :=
  let w0 := (words64 4 bs).getD 0 0
  let t := transitOf bs
  let last := match e.entries.getLast? with | some p => p.tick | none => 0
  decide (last ≤ t.tick) && decide (e.start + (e.count + 1) / 2 + 4 ≤ e.base + t.tick) && decide (1 ≤ t.len) && decide (t.len ≤ 1024) &&
    fld w0 53 3 == 0 && !bit w0 63 && decide (t.src < 2 ^ 28) && t.src % 64 == 0 && ownScratch g t.src && fld t.dst 0 6 == 0 && (bs.drop 24).all (· == 0) &&
    k.tcOk t.tc && (t.dloc || (decide (ownerCode t.dst ≤ 3) && !malformed t.dst))

/-- Block j of an ephemeris's table is read (R262): a bad entry closes the ephemeris. -/
def Sys.readCol (s : Sys) (m : Memory) (g : Nat) (c : Cmd) (j : Nat) : Sys :=
  let done (s : Sys) : Sys := s.cmdSoon g c 1 0 (.finish c.id)
  match (s.ctx g c.ctx).eph with
  | none => done s
  | some e =>
    if e.id ≠ c.id then done s
    else
      let r := (List.range (Nat.min 2 (e.count - 2 * j))).foldl (fun (acc : Option Sys) i =>
        match acc with
        | none => none
        | some s =>
          match (s.ctx g c.ctx).eph with
          | none => some s
          | some e =>
            let k := 2 * j + i
            let at_ := e.table + 32 * k
            let va : Word := BitVec.ofNat 64 (corePart g * 2 ^ 21 + at_)
            match s.poisoned (scratchKey g at_) 32 with
            | some w => some ((s.deferFault g c.ctx { cls := 11, code := 1, slot := 9, far := va + BitVec.ofNat 64 (8 * w - scratchKey g at_), grp := c.grp }).closeEph g c.ctx)
            | none =>
              let bs := m.bytes (scratchKey g at_) 32
              if e.entryOk (s.ctx g c.ctx) g bs then
                let t := transitOf bs
                let s := s.modCtx g c.ctx fun q => { q with eph := some { e with entries := e.entries ++ [t] } }
                some (s.post g c.ctx (e.base + t.tick) 4 c.id (.transitBegin (4096 * e.id + k)))
              else some ((s.deferFault g c.ctx { cls := 3, code := 1, slot := 9, far := va, grp := c.grp }).closeEph g c.ctx)) (some s)
      match r with
      | none => s
      | some s =>
        if 2 * j + 2 < e.count && (s.ctx g c.ctx).eph.isSome then s.post g c.ctx (s.mer + 1) 5 c.id (.unitRead c.id (j + 1)) else done s

/-- A transit under way, by its key. -/
def Ctx.transit (k : Ctx) (key : Nat) : Option Moving := k.moving.find? (·.key == key)

/-- TRANSIT_START: transit `k` of the open ephemeris starts; block i's load is issued i ticks later (R262, R263). -/
def execTransitStart (core : Nat) (ctx : Fin 4) (k : Nat) (s : State) : Host.Outcome State Fault Refusal :=
  s.eventOn (decide (core < 1024)) fun y =>
    match (y.ctx core ctx).eph with
    | none => (y, [])
    | some e =>
      match (if k / 4096 = e.id then e.entries[k % 4096]? else none) with
      | none => (y, [])
      | some t =>
        ((y.modCtx core ctx fun q => { q with moving := q.moving ++ [{ key := k, transit := t, start := y.mer, grp := e.grp, left := t.len }] }).post core ctx (y.mer + 2) 5 e.id (.transit k 0), [])

/-- D for a destination that is not in the sender's pavilion or is its own scratchpad (R263). -/
def transitDelay (g key : Nat) : Nat :=
  let sp := key / 2 ^ 60
  if sp < 4 then (if sp = dieOf g then 64 else 112)
  else
    let o := (key - spaceBase 0x10) / 2 ^ 21
    if o = g then 6 else if dieOf o = dieOf g then 48 else 96

/-- A transit stops at a block. -/
def Sys.dropTransit (s : Sys) (g x key : Nat) : Sys := s.modCtx g x fun k => { k with moving := k.moving.filter fun t => t.key != key }

/-- A block whose data is read seeks its destination (R263): an unmapped page parks it (R330), a protection fault freezes the copy engine (R312). -/
def Sys.goTransit (s : Sys) (m : Memory) (g x : Nat) (t : Moving) (i : Nat) (data : List Byte) : Sys :=
  let va := moveVa t.transit.dst (64 * (i : Nat))
  let issued := t.start + i
  let ord := t.key / 4096
  let send (s : Sys) (p : Place) : Sys :=
    match p with
    | .outside .. => s
    | p =>
      let key := p.key.getD 0
      let plain := match p with | .mem _ h => h | _ => false
      let o := (key - spaceBase 0x10) / 2 ^ 21
      if key / 2 ^ 60 = 0x10 ∧ o ≠ g ∧ pavOf o = pavOf g then
        let h := hops (corePart g) (corePart o) t.transit.lane
        let f : Flit :=
          { pav := pavOf g, lane := t.transit.lane, place := corePart g, hops := h, due := Nat.max (issued + 5) (s.mer + 1), entry := s.wcyc + (issued + 5 - s.mer),
            origin := corePart g, core := g, ctx := x, ord := ord, grp := t.grp, slot := 9, phase := 6, act := .transitPerform t.key key plain data }
        { s with flits := s.flits ++ [f] }
      else s.post g x (Nat.max (issued + transitDelay g key) s.mer) 6 ord (.transitPerform t.key key plain data)
  let refuse (s : Sys) (code : Nat) : Sys := (s.deferFault g x { cls := 7, code := code, slot := 9, far := va, grp := t.grp }).dropTransit g x t.key
  if t.transit.dloc then send s (.scratch (localOwner g (moveLocal t.transit.dst (64 * (i : Nat)))) (localOff (moveLocal t.transit.dst (64 * (i : Nat)))))
  else
    let r := s.translate m va .write
    match r.1 with
    | .ok p => send r.2 p
    | .wait => r.2.post g x s.mer 5 ord (.transitGo t.key i data)
    | .fault 1 =>
      let s := r.2.reportPage 1 g x va
      let s := s.modCtx g x fun k => { k with moving := k.moving.map fun q => if q.key = t.key then { q with parked := true } else q }
      let p : Parked := { owner := ownerCode va, va := va, core := g, ctx := x, cmd := ord, unit := i }
      let s := { s with pkg := { s.pkg with parked := s.pkg.parked ++ [p] } }
      s.post g x s.mer 5 ord (.transitGo t.key i data)
    | .fault 2 =>
      let s := r.2.pfqAppend (faultWord0 false 7 2 0 0, faultPathCore 1 g x, va, (Fga.mk false false 9 t.grp).word)
      (refuse s 2).modCore g fun q => { q with frozenCopy := true }
    | .fault code => refuse r.2 code

/-- Block i of a transit is read (R263). -/
def Sys.readTransit (s : Sys) (m : Memory) (g x : Nat) (t : Moving) (i : Nat) : Sys :=
  let off := localOff (t.transit.src + 64 * i)
  let s := if i + 1 < t.transit.len then s.post g x (s.mer + 1) 5 (t.key / 4096) (.transit t.key (i + 1)) else s
  match s.poisoned (scratchKey g off) 64 with
  | some w =>
    (s.deferFault g x { cls := 11, code := 1, slot := 9, far := BitVec.ofNat 64 (corePart g * 2 ^ 21 + off + (8 * w - scratchKey g off)), grp := t.grp }).dropTransit g x t.key
  | none => s.goTransit m g x t i (m.bytes (scratchKey g off) 64)

/-- A transit block performs (R263). -/
def Sys.transitDone (s : Sys) (m : Memory) (g x key dest : Nat) (plain : Bool) (data : List Byte) : Sys × List Write :=
  let r := if dest / 2 ^ 60 = 0x10 then s.arrive ((dest - spaceBase 0x10) / 2 ^ 21) ((dest - spaceBase 0x10) % 2 ^ 21) data else let r := s.writeUnit m dest plain data; (r.1, r.2.map fun w => .put w.1 w.2)
  match (r.1.ctx g x).transit key with
  | none => r
  | some t =>
    let s := r.1.modCtx g x fun k => { k with moving := k.moving.map fun q => if q.key = key then { q with left := q.left - 1 } else q }
    (if t.left ≤ 1 then (if h : x < 4 then s.happens (.transitComplete g ⟨x, h⟩ key) else s) else s, r.2)

/-- TRANSIT_COMPLETE: the counter counts in the following tick; the last transit closes its ephemeris (R262, R263). -/
def execTransitComplete (core : Nat) (ctx : Fin 4) (k : Nat) (s : State) : Host.Outcome State Fault Refusal :=
  s.eventOn (decide (core < 1024)) fun y =>
    match (y.ctx core ctx).transit k with
    | none => (y, [])
    | some t =>
      if t.left ≠ 0 then (y, [])
      else
        let y := y.dropTransit core ctx k
        let y := if t.transit.cinc then y.post core ctx (y.now core ctx + 1) 0 (k / 4096) (.tcAdd t.transit.tc 1) else y
        match (y.ctx core ctx).eph with
        | none => (y, [])
        | some e =>
          if e.id ≠ k / 4096 then (y, [])
          else
            let y := y.modCtx core ctx fun q => { q with eph := some { e with finished := e.finished + 1 } }
            (if e.finished + 1 = e.count then y.post core ctx (y.mer + 1) 4 e.id (.ephClose e.id) else y, [])

/-! ## Queue slots -/

/-- The instruction of an engine that TRIG can fire, as a bundle would execute it. -/
def fireInstr (i : Instr) (s : State) : Host.Outcome State Fault Refusal :=
  match i with
  | .tld t => execTld t s
  | .tst c e t => execTst c e t s
  | .ldw w t => execLdw w t s
  | .stw w t => execStw w t s
  | .atomAdd w t => execAtomAdd w t s
  | .atomMin w t => execAtomMin w t s
  | .atomMax w t => execAtomMax w t s
  | .atomAnd w t => execAtomAnd w t s
  | .atomOr w t => execAtomOr w t s
  | .atomXor w t => execAtomXor w t s
  | .atomSwap w t => execAtomSwap w t s
  | .atomCas w t => execAtomCas w t s
  | .cpy t => execCpy t s
  | .cpys t => execCpys t s
  | .cpyg t => execCpyg t s
  | .cpyr t => execCpyr t s
  | .cpyst c e t => execCpyst c e t s
  | .cpyf t => execCpyf t s
  | .cinc v n t => execCinc v n t s
  | .cset n t => execCset n t s
  | .crd n t => execCrd n t s
  | .eph t => execEph t s
  | .aowcfg l n t => execAowcfg l n t s
  | .ephend t => execEphend t s
  | _ => .next s

/-- The staging registers of an engine replaced by a snapshot. -/
def Regs.withSnapshot (r : Regs) (e : Engine) (stg : List Word) : Regs :=
  let first := e.staging.1 + (match e with | .col => 2 | _ => 0)
  { r with staging := (List.range 5).foldl (fun v i => vset v (first + i) (stg.getD i 0)) r.staging }

/-- A queue slot changed. -/
def Sys.setQueue (s : Sys) (g x q : Nat) (e : Option Queued) : Sys := s.modRegs g x fun r => { r with tq := vset r.tq q e }

/-- A fired operation's dispatch as if a bundle held it: a new order, its group, its staging registers. -/
def State.fired (s : State) (g x : Nat) (e : Queued) (i : Instr) : Host.Outcome State Fault Refusal :=
  let eng := trigEngine e.eng
  let y := s.sys
  let y : Sys := { y with ord := y.ord + 1, cur := { core := g, ctx := x, slot := eng.slot, lanes := [], grp := e.grp, next := e.grp, word := e.hdr, ord := 32 * (y.ord + 1) + eng.slot } }
  fireInstr i { s with sys := y.modRegs g x fun r => r.withSnapshot eng e.stg }

/-- What keeps a fired command of an engine from its dispatch: in shared mode a busy engine (R216); a covered access waits as a later access of its context would, for a fence or an acquire access, and for a barrier the context waits at (R126, R127, R191; DEDUCED, logs 23 and 56). -/
def Sys.firedHold (s : Sys) (m : Memory) (g x : Nat) (e : Engine) : Option Bool :=
  let k := s.ctx g x
  let busy := if !k.timed && e != .cp && decide (s.now g x < vget (s.core g).free e.index) then some false else none
  if e == .tm || e == .cp then orHold busy (orHold (s.accessHold m g x) (if k.barWait then some (!k.barArrived && s.tmOutside m g x k.barOrd) else none))
  else busy

/-- TRIGGERED_FIRE: the command of a fired TRIG is dispatched; it waits in its slot where a bundle would hold, and its fault is deferred where a bundle would fault (R214, R216). -/
def execTriggeredFire (core : Nat) (ctx : Fin 4) (q : Fin 32) (s : State) : Host.Outcome State Fault Refusal :=
  s.eventOn (decide (core < 1024)) fun y =>
    let k := y.ctx core ctx
    match vget k.regs.tq q with
    | none => (y, [])
    | some e =>
      let due := match e.fired with | some t => decide (t < y.tick k.timed) | none => false
      if e.isReady || !due || !k.engineRuns .col then (y, [])
      else
        let eng := trigEngine e.eng
        let refuse (f : FaultRec) : Sys × List Write := ((y.setQueue core ctx q none).deferFault core ctx { f with grp := e.grp, slot := eng.slot }, [])
        match decodeSlot eng.kind e.hdr with
        | .error b => refuse { cls := 2, code := b.code, more := b.several }
        | .ok i =>
          let armed : Ctx := { k with regs := k.regs.withSnapshot eng e.stg }
          let shuts := armed.mustClose k.region.taken i || armed.ninthOf [([], i)]
          let y' := if k.region.open_ && shuts && y.regionReady s.mem core ctx then y.commitRegion core ctx else y
          match y.firedHold s.mem core ctx eng with
          | some varying => (y.setQueue core ctx q (some { e with blocked := varying }), [])
          | none =>
          if (y'.ctx core ctx).region.open_ && shuts then
            (y.setQueue core ctx q (some { e with blocked := y.commitVaries s.mem core ctx }), [])
          else
            match State.fired { s with sys := y' } core ctx e i with
            | .next t =>
              match t.sys.cur.verdict with
              | .ran => ((t.sys.modRegs core ctx fun r => { r with staging := k.regs.staging }).setQueue core ctx q none, [])
              | .held varying => (y.setQueue core ctx q (some { e with blocked := varying }), [])
              | .faulted f => refuse f
            | _ => (y, [])

/-- READY_SLOT_FIRE: an armed READY sees its bit; in the next tick it counts, clears the bit if it is to, and its slot is released (R217). -/
def execReadySlotFire (core : Nat) (ctx : Fin 4) (q : Fin 32) (s : State) : Host.Outcome State Fault Refusal :=
  s.eventOn (decide (core < 1024)) fun y =>
    let k := y.ctx core ctx
    match vget k.regs.tq q with
    | none => (y, [])
    | some e =>
      if e.isReady && e.armed (y.tick k.timed) && (y.core core).readyBit e && k.engineRuns .col then (y.fireReady core ctx q e, []) else (y, [])

/-- READY_TIMEOUT: READYs still armed 256 ticks after their ephemeris closed are released; the first raises class 10, code 2 (R340). -/
def execReadyTimeout (core : Nat) (ctx : Fin 4) (s : State) : Host.Outcome State Fault Refusal :=
  s.eventOn (decide (core < 1024)) fun y =>
    let k := y.ctx core ctx
    let late (q : Option Queued) : Bool := match q with
      | some e => e.isReady && e.fired.isNone && (match e.lapse with | some t => decide (t ≤ y.mer) | none => false)
      | none => false
    match k.regs.tq.toList.find? late with
    | some (some e) =>
      let y := y.modRegs core ctx fun r => { r with tq := r.tq.map fun q => if late q then none else q }
      (y.deferFault core ctx { cls := 10, code := 2, slot := 9, far := BitVec.ofNat 64 (8 * e.tile + e.region), grp := e.grp }, [])
    | _ => (y, [])

/-! ## The start of a command (R108, R187, R201, R259) -/

/-- Ticks for which a command occupies its engine from its start. -/
def Cmd.occupies (c : Cmd) : Option Nat :=
  match c.instr with
  | .dot .. | .dota .. => some (dotOcc (c.st 0))
  | .dcfg .. | .dstat .. => some (ds4Blocks (c.st 4))
  | .ddrain .. => some (ds2Rows (c.st 2))
  | .dclr .. => some (fld (c.st 3) 0 7 + 1)
  | .tst .. => some (tsRows (c.st 2))
  | _ => if c.eng == .tm || c.eng == .col then some 1 else c.orreryTicks

/-- An orrery command of a context waits for its start (R259). -/
def Core.orreryWaits (q : Core) (x now : Nat) : Bool := q.cmds.any fun c => c.eng == .orr && c.ctx == x && !c.started && decide (c.start ≤ now)

/-- At the start of a cycle: has the context that the slot table names an orrery command waiting (R259)? -/
def Sys.lookSlots (s : Sys) : Sys :=
  { s with cores := s.cores.map fun p => (p.1, { p.2 with orrHeld := p.2.orreryWaits (s.slotOwner p.1) (s.now p.1 (s.slotOwner p.1)) }) }

/-- The command may start now, as far as queue, engine and slot go. -/
def Sys.eligible (s : Sys) (g : Nat) (c : Cmd) : Bool :=
  let k := s.ctx g c.ctx
  let q := s.core g
  let now := s.now g c.ctx
  !c.started && decide (c.start ≤ now) && !q.startsBefore c && s.moves g c &&
    (k.timed || c.occupies.isNone || decide (vget q.free c.eng.index ≤ now)) &&
    (c.eng != .orr || (s.granted g c.ctx && k.slotFree c))

/-- The first action of a command that starts. -/
def Sys.startAction (s : Sys) (m : Memory) (g : Nat) (c : Cmd) : Sys × List Write :=
  match c.eng with
  | .tm => (s.startTm g c, [])
  | .cp => (s.startCp g c, [])
  | .orr => s.startOrr m g c
  | .dot => (s.startDot g c, [])
  | .col => (s.startCol g c, [])
  | .load => (s, [])

/-- ENGINE_COMMAND_START: the command reads its tag, takes its engine and begins; a failed check of its source tiles drops it (R108, R187, R188). -/
def execEngineCommandStart (core id : Nat) (s : State) : Host.Outcome State Fault Refusal :=
  s.eventOn (decide (core < 1024)) fun y =>
    match y.cmd core id with
    | none => (y, [])
    | some c =>
      if !y.eligible core c then (y, [])
      else
        match y.firstRead core c with
        | .wait => (y, [])
        | .fault cls code => ((y.cmdFault core c cls code).dropCmd core id, [])
        | .ok =>
          let now := y.now core c.ctx
          let c := { c with started := true, start := now, tag := y.startTag core c }
          let y := y.modCmd core id fun _ => c
          let y := match c.occupies with
            | some n => if (y.ctx core c.ctx).timed then y else y.modCore core fun q => { q with free := vset q.free c.eng.index (now + n) }
            | none => y
          y.startAction s.mem core c

end Sys2Proof.Machine
end

