-- ==== Sys2Proof/Machine/Sponge.lean ====
section
/-! DEFINITION. SHAKE256: the sponge of a task's digest (R132, R266 to R268). -/

namespace Sys2Proof.Machine

/-- The next state of the feedback register that yields the round constants, bit 0 out first. -/
def feedback (r : BitVec 8) : BitVec 8 := r <<< 1 ^^^ (if r.getLsbD 7 then 0x71 else 0)

/-- What round constant a register gives in its next seven states, state j its bit 2^j − 1, and the register after them. -/
def constantFrom (r : BitVec 8) : Word × BitVec 8 :=
  (List.range 7).foldl (fun p j => (if p.2.getLsbD 0 then p.1 ||| BitVec.twoPow 64 (2 ^ j - 1) else p.1, feedback p.2)) (0, r)

/-- The lane to which the contents of lane x + 5y move. -/
def laneAfter (i : Nat) : Nat := i / 5 + 5 * ((2 * (i % 5) + 3 * (i / 5)) % 5)

/-- Parity of column x. -/
def columnParity (v : Vector Word 25) (x : Nat) : Word := (List.range 5).foldl (fun w y => w ^^^ vget v (x % 5 + 5 * y)) 0

/-- Each lane takes the parities of the columns beside its own. -/
def mixColumns (v : Vector Word 25) : Vector Word 25 :=
  Vector.ofFn fun i : Fin 25 => vget v i.val ^^^ columnParity v (i.val + 4) ^^^ (columnParity v (i.val + 1)).rotateLeft 1

/-- The lanes but lane 0 move one place along the path of `laneAfter` from lane 1, the t-th of them turned by the (t + 1)-th triangular number. -/
def turnLanes (v : Vector Word 25) : Vector Word 25 :=
  ((List.range 24).foldl (fun p t => (laneAfter p.1, vset p.2 (laneAfter p.1) ((vget v p.1).rotateLeft ((t + 1) * (t + 2) / 2 % 64)))) (1, v)).2

/-- The step along the rows, with the round's constant on lane 0. -/
def mixRows (c : Word) (v : Vector Word 25) : Vector Word 25 :=
  let lane (i : Nat) (x : Nat) : Word := vget v (i / 5 * 5 + (i + x) % 5)
  Vector.ofFn fun i : Fin 25 => lane i.val 0 ^^^ (~~~ lane i.val 1 &&& lane i.val 2) ^^^ (if i.val = 0 then c else 0)

/-- The permutation of 24 rounds. -/
def permute (v : Vector Word 25) : Vector Word 25 :=
  ((List.range 24).foldl (fun p _ => let c := constantFrom p.2; (mixRows c.1 (turnLanes (mixColumns p.1)), c.2)) (v, 1)).1

def Sponge.ofLanes (l : List Word) (pos : Nat) : Sponge := { lanes := Vector.ofFn fun i : Fin 25 => l.getD i.val 0, pos := pos }

/-- One byte absorbed; the permutation follows the 136th of a rate block. -/
def Sponge.byte (s : Sponge) (b : Byte) : Sponge :=
  let l := vmod s.lanes (s.pos / 8) fun w => w ^^^ (b.setWidth 64 <<< (8 * (s.pos % 8)))
  if s.pos = 135 then { lanes := permute l, pos := 0 } else { lanes := l, pos := s.pos + 1 }

/-- Bytes absorbed in order. -/
def Sponge.absorb (s : Sponge) (bs : List Byte) : Sponge := bs.foldl Sponge.byte s

/-- The first 32 bytes of output over everything absorbed. -/
def Sponge.digest (s : Sponge) : List Byte :=
  let l := vmod (vmod s.lanes (s.pos / 8) fun w => w ^^^ (0x1F <<< (8 * (s.pos % 8)))) 16 fun w => w ^^^ 0x8000000000000000
  bytes64 ((permute l).toList.take 4)

/-- The first 32 bytes of SHAKE256 over some bytes. -/
def shake256 (bs : List Byte) : List Byte := (({} : Sponge).absorb bs).digest

end Sys2Proof.Machine
end

