-- ==== Sys2Proof/Machine/Landing.lean ====
section
/-! DEFINITION. What lands at the start of a tick (R36, R163, R188, R214). -/

namespace Sys2Proof.Machine

/-! ## Clocks -/

/-- A stall window is open (R270). -/
def Sys.windowOpen (s : Sys) : Bool := s.pkg.pw.stall

/-- The clock that an entry of the agenda counts in: its context's, the meridian, or wall cycles. -/
def Sys.clockOf (s : Sys) (e : Ev) : Nat :=
  match e.phase / 4 with
  | 0 => s.now e.core e.ctx
  | 1 => s.mer
  | _ => s.wcyc

/-- The tick of that clock ends with this cycle, so that its reads and writes happen now. In a stall window only accesses on their way in the fabric go on (R26, R270). -/
def Sys.clockRuns (s : Sys) (e : Ev) : Bool :=
  match e.phase / 4 with
  | 0 => !s.windowOpen && (e.act.isCtiRead || !((s.ctx e.core e.ctx).timed && s.stalled))
  | 1 => !s.windowOpen && !s.stalled
  | _ => !s.windowOpen || e.phase == 11 || e.act.cmd.isNone

/-! ## Flags -/

/-- A slot position's flags are set, charged to a group (R73, R306, R307). -/
def Sys.raise (s : Sys) (g x slot : Nat) (f : Flags) (grp : W32) : Sys :=
  if f = .none then s
  else
    let s := s.modRegs g x fun r => { r with flags := vmod r.flags slot fun p => p ||| f }
    { s with raised := s.raised ++ [(g, x, slot, f, grp)] }

/-! ## Landings -/

/-- Word enables as writes of a beat. -/
def beatWrites (key : Nat) (ws : List (Option W32)) : List Write :=
  if ws.all Option.isSome then [.put key (ws.flatMap fun w => match w with | some w => leBytes 4 w.toNat | none => [])]
  else (List.range ws.length).flatMap fun l => match ws.getD l none with | some w => [.put (key + 4 * l) (leBytes 4 w.toNat)] | none => []

/-- 16 bits of a 256-bit mask replaced where enabled. -/
def setBeat (m : BitVec 256) (beat : Nat) (v enable : BitVec 16) : BitVec 256 :=
  let e : BitVec 256 := enable.setWidth 256 <<< (16 * beat)
  (m &&& ~~~e) ||| ((v.setWidth 256 <<< (16 * beat)) &&& e)

/-- Data of a command's unit arrives at the core. -/
def Sys.backCmd (s : Sys) (g : Nat) (c : Cmd) (u : Nat) (data : List Byte) : Sys × List Write :=
  match c.eng with
  | .tm => (s.backTm g c u data, [])
  | .cp => s.backCp g c u data
  | .orr => (s.backOrr g c, [])
  | _ => (s, [])

/-- A region as AOWCFG leaves it (R57, R215). -/
def AowRegion.configured (w : AowRegion) (sel : Nat) (a b : Word) (x : Nat) (grp : W32) : AowRegion :=
  let w := if sel % 2 = 1 then { w with a := aowMask a, owner := x, grp := grp, gone := false } else w
  if sel / 2 % 2 = 1 then w.setB b else w

/-- One landing. Counter changes are made apart, in their own order (R214). -/
def Sys.landAct (s : Sys) (e : Ev) : Sys × List Write :=
  let g := e.core
  let x := e.ctx
  let k (f : Ctx → Ctx) : Sys × List Write := (s.modCtx g x f, [])
  let r (f : Regs → Regs) : Sys × List Write := (s.modRegs g x f, [])
  match e.act with
  | .scalar b n m v => r fun r => r.setScalar b n m v
  | .staging n v => r fun r => { r with staging := vset r.staging n v }
  | .ptrAddr n v => r fun r => { r with ptr := vmod r.ptr n fun p => { p with addr := v } }
  | .ptrStep n v => r fun r => { r with ptr := vmod r.ptr n fun p => { p with step := v } }
  | .ptrWrap n b w => r fun r => { r with ptr := vmod r.ptr n fun p => { p with wbase := b, wrap := w } }
  | .port n q v => r fun r => { r with port := vmod r.port n fun p =>
      match q with
      | 0 => { p with a := portField 0 v, pos := 0 }
      | 1 => { p with b := portField 1 v, pos := 0 }
      | 2 => { p with c := portField 2 v, pos := 0 }
      | _ => { p with pos := 0 } }
  | .wrst n v => (s.setStateReg g x n v, [])
  | .xaClear n => r fun r => { r with xa := vset r.xa n 0 }
  | .beat lg reg b ws => (s, beatWrites (vecKey g lg reg b 0) ws)
  | .pred lg n b v ab en =>
    if n = 0 then (s, [])
    else r fun r => { r with lane := vmod r.lane lg fun l => { l with k := vmod l.k n fun m => setBeat m b v en, ka := vmod l.ka n fun m => setBeat m b ab en } }
  | .cn lg b v => r fun r => { r with lane := vmod r.lane lg fun l => { l with cn := vset l.cn b v } }
  | .flags slot f grp => (s.raise g x slot f grp, [])
  | .arm q => r fun r => { r with tq := vset r.tq q ((vget r.tq q).map fun w => if w.armer = e.ord then { w with armedAt := some (s.now g x) } else w) }
  | .queueFree q => r fun r => { r with tq := vset r.tq q (match vget r.tq q with | some w => if w.armer = e.ord then none else some w | none => none) }
  | .release c t => (s.tileReleased g c t, [])
  | .wrote c t => (s.tileWritten g c t, [])
  | .finish c => (s.dropCmd g c, [])
  | .driftReset n => k fun k => { k with drift := vset k.drift n {} }
  | .aow l n a b grp => (s.modCore g fun q => { q with aow := vmod q.aow n fun w => w.configured l a b x grp }, [])
  | .readySet n t => (s.modCore g fun q => { q with aow := vmod q.aow n fun w => { w with ready := w.ready ||| (1 <<< t) } }, [])
  | .readyClear n t =>
    (s.modCore g fun q => { q with aow := vmod q.aow n fun w => { w with
      ready := w.ready &&& ~~~((1 : W32) <<< t), counts := vset w.counts t 0, overrun := w.overrun &&& ~~~((1 : W32) <<< t) } }, [])
  | .acked c => match s.cmd g c with
    | some c => (s.writeDone g c (match c.eng with | .tm => .tileTransferComplete g c.id | _ => .copyComplete g c.id) (match c.eng with | .tm => c.units | _ => c.copyTotal), [])
    | none => (s, [])
  | .back c u d => match s.cmd g c with | some c => s.backCmd g c u d | none => (s, [])
  | .row reg n w vals => (s, writeRow g reg n w vals)
  | .transitBegin key => (if h : x < 4 then s.happens (.transitStart g ⟨x, h⟩ key) else s, [])
  | .ephClose id => (if (s.ctx g x).eph.any fun p => p.id == id then s.closeEph g x else s, [])
  | .readyLapse => (if h : x < 4 then s.happens (.readyTimeout g ⟨x, h⟩) else s, [])
  | _ => (s, [])

/-- Landings in issue order: a later issue wins (R36). -/
def evBefore (a b : Ev) : Bool := decide (a.ord ≤ b.ord)

/-- The entry lands at the start of this cycle. Results of a command whose context does not run wait for it. -/
def Sys.landsNow (s : Sys) (e : Ev) : Bool := e.phase % 4 == 0 && decide (e.due ≤ s.clockOf e) && (e.phase / 4 == 2 || !s.windowOpen)

/-- Every armed operation of every context is tested (R214). -/
def Sys.testQueues (s : Sys) : Sys :=
  let test (k : Ctx) : Ctx := if k.engineRuns .col then { k with regs := k.regs.testQueue (s.tick k.timed) } else k
  { s with cores := s.cores.map fun p => (p.1, { p.2 with ctxs := p.2.ctxs.map test }) }

/-- A counter change: sets before increments (R214). -/
def Sys.countAct (s : Sys) (e : Ev) : Sys :=
  match e.act with
  | .tcSet n v => s.modRegs e.core e.ctx fun r => r.csetTc n v (s.now e.core e.ctx)
  | .tcAdd n v => s.modRegs e.core e.ctx fun r => r.addTc n v
  | .tcrw n => s.modRegs e.core e.ctx fun r => { r with tcrw := r.tcrw ||| (1 <<< n) }
  | _ => s

def Act.isSet : Act → Bool
  | .tcSet .. => true
  | _ => false

/-- The passes of the contexts put the rows that land in this tick. -/
def Sys.passRows (s : Sys) (m : Memory) (who : Nat → Nat → Bool) : Sys × List Ev :=
  s.cores.foldl (fun acc p =>
    (List.range 4).foldl (fun acc x =>
      if who p.1 x then
        (List.range 2).foldl (fun acc n => let r := acc.1.passLandings m p.1 x n; (r.1, acc.2 ++ r.2)) acc
      else acc) acc) (s, [])

/-- What the rows of a pass replace, for an OSAVE of this tick: the pass of one of its landings, all the landings with their writes. -/
def Sys.undoOf (s : Sys) (m : Memory) (landed : List (Ev × List Write)) (e : Ev) : Sys :=
  let others := landed.flatMap fun p => if p.1.core == e.core && p.1.ctx == e.ctx && p.1.ord == e.ord then [] else p.2
  (List.range 2).foldl (fun s n =>
    if (vget (s.ctx e.core e.ctx).sweep n).pass.any fun p => p.cmd == e.ord then s.keepUndo (m.writeAll others) e.core e.ctx n else s) s

/-! ### Landings and an open restart region (R328) -/

/-- The registers of the vector file that a landing writes: lane group and physical register. -/
def Act.regsTouched : Act → List (Nat × Nat)
  | .beat lg reg _ _ => [(lg, reg)]
  | .row reg n w _ => (List.range 8).map fun lg => (lg, (rowReg reg n w).1)
  | _ => []

/-- Bytes that stand from a key on, a write made to them. -/
def patchBytes (key : Nat) (bs : List Byte) (w : Write) : List Byte :=
  match w with
  | .put k d => bs.mapIdx fun i b => if k ≤ key + i ∧ key + i < k + d.length then d.getD (key + i - k) b else b
  | .accumulate .. => bs

/-- The first write of the region to a register copies what stands there to its shadow. -/
def Region.copies (r : Region) (m : Memory) (g : Nat) (touched : List (Nat × Nat)) : Region :=
  { r with shadows := r.shadows.map fun p => if p.2.2.isEmpty && touched.contains (p.1, p.2.1) then (p.1, p.2.1, m.bytes (vecKey g p.1 p.2.1 0 0) 1024) else p }

/-- A write from before the mark reaches the shadows too. -/
def Region.patched (r : Region) (g : Nat) (ws : List Write) : Region :=
  { r with shadows := r.shadows.map fun p => if p.2.2.isEmpty then p else (p.1, p.2.1, ws.foldl (patchBytes (vecKey g p.1 p.2.1 0 0)) p.2.2) }

/-- The context has an open region with a checkpoint. -/
def Ctx.checkpointed (k : Ctx) : Bool := k.region.open_ && k.region.checkpoint.isSome

/-- What an action from before the mark does to the context's registers it does to the checkpoint, which holds what was in flight at the mark once it has landed. -/
def Sys.alsoThere (s : Sys) (e : Ev) (f : Sys → Sys) : Sys :=
  let k := s.ctx e.core e.ctx
  match k.region.checkpoint with
  | some r =>
    if k.region.open_ ∧ e.ord < k.region.since then
      let regs := ((f (s.modRegs e.core e.ctx fun _ => r)).ctx e.core e.ctx).regs
      s.modCtx e.core e.ctx fun k => { k with region := { k.region with checkpoint := some regs } }
    else s
  | none => s

/-- One landing, with its part in an open region: `ws` are the writes of the landings before it in this tick. -/
def Sys.landMarked (s : Sys) (m : Memory) (ws : List Write) (e : Ev) : Sys × List Write :=
  let k := s.ctx e.core e.ctx
  if !k.checkpointed then s.landAct e
  else
    let before := decide (e.ord < k.region.since)
    let s := s.alsoThere e fun y => (y.landAct e).1
    let s := if before || e.act.regsTouched.isEmpty then s else s.modCtx e.core e.ctx fun k => { k with region := k.region.copies (m.writeAll ws) e.core e.act.regsTouched }
    let r := s.landAct e
    (if before && !e.act.regsTouched.isEmpty then r.1.modCtx e.core e.ctx fun k => { k with region := k.region.patched e.core r.2 } else r.1, r.2)

/-- A counter change, in the checkpoint too if it comes from before the mark. -/
def Sys.countMarked (s : Sys) (e : Ev) : Sys := if (s.ctx e.core e.ctx).checkpointed then (s.alsoThere e fun y => y.countAct e).countAct e else s.countAct e

/-- What lands at the start of a tick: the rows of the passes of some contexts, and of what is due the entries given. -/
def Sys.landing (s : Sys) (m : Memory) (who : Nat → Nat → Bool) (takes : Ev → Bool) : Sys × List Write :=
  let rows := s.passRows m who
  let s := rows.1
  let due := s.agenda.filter fun e => s.landsNow e && takes e
  let s := { s with agenda := s.agenda.filter fun e => !(s.landsNow e && takes e) }
  let evs := sortBy evBefore (due ++ rows.2)
  let r := evs.foldl (fun (acc : Sys × List (Ev × List Write)) e => let w := acc.1.landMarked m (acc.2.flatMap (·.2)) e; (w.1, acc.2 ++ [(e, w.2)])) (s, [])
  let s := rows.2.foldl (fun s e => s.undoOf m r.2 e) r.1
  let s := (evs.filter fun e => e.act.isSet).foldl Sys.countMarked s
  let s := (evs.filter fun e => !e.act.isSet).foldl Sys.countMarked s
  (s.testQueues, r.2.flatMap (·.2))

/-- The landings of a new cycle. `moved` says whether the clock of a mode has advanced. -/
def Sys.land0 (s : Sys) (m : Memory) (moved : Bool → Bool) : Sys × List Write :=
  s.landing m (fun g x => moved (s.ctx g x).timed) fun _ => true

end Sys2Proof.Machine
end

