-- ==== Sys2Proof/Machine/Perform.lean ====
section
/-! DEFINITION. What a cycle reads and writes: the order of its performs (R36, R52 to R54, R58, R132, R161, R246). -/

namespace Sys2Proof.Machine

/-! ## Poison (R341) -/

/-- The address of a poisoned word met in core `g`'s scratchpad, as FAR holds it. -/
def scratchFar (g word : Nat) : Word := BitVec.ofNat 64 (corePart g * 2 ^ 21 + (8 * word - scratchKey g 0))

/-- A context's own read meets a poisoned word: class 11, code 1, deferred. -/
def Sys.poisonRead (s : Sys) (g x slot owner word : Nat) (grp : W32) (lg : Option Nat := none) : Sys :=
  s.deferFault g x { cls := 11, code := 1, slot := slot, far := scratchFar owner word, grp := grp, lg := lg }

/-! ## Reads -/

/-- A scalar load reads its bank (R52): a local one lands in `wait` cycles, a remote one's data travels back on the partner lane, its first hop two cycles from now (R53). -/
def Sys.loadNow (s : Sys) (m : Memory) (e : Ev) (owner off : Nat) (fileB : Bool) (r wait : Nat) (grp : W32) : Sys :=
  let key := scratchKey owner off
  match s.poisoned key 8 with
  | some w => s.poisonRead e.core e.ctx (e.ord % 32) owner w grp
  | none =>
    let a : Act := .scalar fileB r allOnes (m.word key)
    if wait < 100 then s.post e.core e.ctx (s.clockOf e + wait) 0 e.ord a
    else
      let l := wait - 100
      s.sendFlit e.core e.ctx ((l + 8) % 16) (corePart owner) (hops (corePart e.core) (corePart owner) l) 2 e.ord (e.ord % 32) 0 grp a

/-- The record of a CTI is read (R128). -/
def Sys.ctiNow (s : Sys) (m : Memory) (e : Ev) (addr level : Nat) (grp : W32) : Sys :=
  let key := scratchKey e.core (localOff addr)
  match s.poisoned key 64 with
  | some w => s.poisonRead e.core e.ctx 0 e.core w grp
  | none => s.ctiRecord e.core e.ctx e.ord level (recordOf (m.bytes key 64))

/-- A unit of a command is read. The last part of the answer: the read stays due. -/
def Sys.readCmd (s : Sys) (m : Memory) (g : Nat) (c : Cmd) (u : Nat) : Sys × List Write × Bool :=
  let stays (s : Sys) : Bool := (s.cmd g c.id).any fun c => c.stopped
  match c.eng with
  | .tm => let s := s.readTm m g c u; (s, [], stays s)
  | .cp => let r := s.readCp m g c u; (r.1, [], r.2)
  | .orr => let r := s.readOrr m g c u; (r.1, r.2, stays r.1)
  | .dot => let s := s.readDot m g c u; (s, [], stays s)
  | .load => let s := s.readLoad m g c u; (s, [], stays s)
  | .col => (s.readCol m g c u, [], false)

/-- One read that is due in this cycle. A frozen copy engine moves no transit (R312). -/
def Sys.readAct (s : Sys) (m : Memory) (e : Ev) : Sys × List Write × Bool :=
  match e.act with
  | .load o off b r w grp => (s.loadNow m e o off b r w grp, [], false)
  | .ctiRead a l grp => (s.ctiNow m e a l grp, [], false)
  | .unitRead id u =>
    match s.cmd e.core id with
    | none => (s, [], false)
    | some c => if s.moves e.core c then s.readCmd m e.core c u else (s, [], true)
  | .transit key i =>
    match (s.ctx e.core e.ctx).transit key with
    | some t => if (s.core e.core).frozenCopy then (s, [], true) else (s.readTransit m e.core e.ctx t i, [], false)
    | none => (s, [], false)
  | .transitGo key i d =>
    match (s.ctx e.core e.ctx).transit key with
    | some t => if t.parked || (s.core e.core).frozenCopy then (s, [], true) else (s.goTransit m e.core e.ctx t i d, [], false)
    | none => (s, [], false)
  | _ => (s, [], false)

/-! ## Issue order in shared mode (R245) -/

/-- A scratchpad access of a shared-mode context that R52 times and that has yet to perform: its context, the tick of its issue, its bytes. -/
structure Waiting where
  core : Nat
  ctx : Nat
  issue : Nat
  key : Nat
  len : Nat
  deriving DecidableEq, Repr, Inhabited

/-- The scratchpad bytes that unit u of a command reads by loads that R52 times: owner, offset, length. -/
def Cmd.readSpan (c : Cmd) (g u : Nat) : Option (Nat × Nat × Nat) :=
  match c.instr with
  | .orest .. => some (g, localOff (c.ptrs.headD 0) + 64 * u, 64)
  | .dcfg .. => some (g, localOff (ds4Addr (c.st 4)) + 64 * u, 64)
  | .stw .. => some (g, localOff (fld (c.st 1) 0 28), wordBytes c.instr)
  | .cpyst .. | .cpyf .. => none
  | i =>
    if c.eng == .cp && c.sloc && !c.varies then
      let a := moveLocal c.src (c.srcStep u)
      some (localOwner g a, localOff a, 64)
    else
      match transferOf i with
      | some r => if r.out then none else some (g, localOff (c.ptrs.getD 1 0) + (if r.codes then 1024 else 2048) * u, r.chunkWords u * (if r.codes then 2 else 4))
      | none => none

/-- The scratchpad bytes that unit u of a command stores in the same way. -/
def Cmd.writeSpan (c : Cmd) (g u : Nat) : Option (Nat × Nat × Nat) :=
  match c.instr with
  | .osave .. => some (g, localOff (c.ptrs.headD 0) + 64 * u, 64)
  | i =>
    if c.eng == .cp && c.dloc && !c.varies then
      let a := moveLocal c.dst (c.dstStep u)
      some (localOwner g a, localOff a, 64)
    else
      match transferOf i with
      | some r => if r.out then some (g, localOff (c.ptrs.getD 1 0) + 2048 * u, 4 * r.chunkWords u) else none
      | none => none

/-- Ticks from the issue of a scratchpad access of core `g` at an owner to its perform (R52): a load's, or a store's on its lane. -/
def loadTicks (g owner : Nat) : Nat := if owner = g then 2 else 3
def storeTicks (g owner lane : Nat) : Nat := if owner = g then 2 else 2 + hops (corePart g) (corePart owner) lane

/-- The tick in which the access of unit u is issued, of a command whose units follow one another tick by tick; of others it is `n` ticks before it is due. -/
def Cmd.unitIssue (c : Cmd) (due n u : Nat) (writes : Bool) : Nat :=
  match c.eng with
  | .load => c.start + u + boolNat writes
  | .dot => c.start + u
  | .tm => c.start
  | _ => due - n

/-- The scratchpad word that an LDW or ATOM writes when its result arrives (R193, R194). -/
def Cmd.resultSpan (c : Cmd) (g : Nat) : Option Waiting :=
  match c.instr with
  | .ldw .. | .atomAdd .. | .atomMin .. | .atomMax .. | .atomAnd .. | .atomOr .. | .atomXor .. | .atomSwap .. | .atomCas .. =>
    if c.started && !c.stopped && c.done == 0 then some ⟨g, c.ctx, c.start, scratchKey g (localOff (fld (c.st 1) 0 28)), wordBytes c.instr⟩ else none
  | _ => none

/-- The access that an entry of the agenda is to make, if R52 times it, or writes the result of a word access. -/
def Sys.accessOf (s : Sys) (e : Ev) : Option Waiting :=
  if (s.ctx e.core e.ctx).timed then none
  else if e.phase / 4 != 0 then
    match e.act with
    | .unitWrite id _ _ => (s.cmd e.core id).bind fun c => c.resultSpan e.core
    | _ => none
  else
    let at_ (n owner off len : Nat) : Option Waiting := some ⟨e.core, e.ctx, e.due - n, scratchKey owner off, len⟩
    let unit (c : Cmd) (n u : Nat) (writes : Bool) (p : Nat × Nat × Nat) : Waiting := ⟨e.core, e.ctx, c.unitIssue e.due n u writes, scratchKey p.1 p.2.1, p.2.2⟩
    match e.act with
    | .load o off _ _ _ _ => at_ (loadTicks e.core o) o off 8
    | .store o off r d => at_ (storeTicks e.core o (r - 32)) o off d.length
    | .ctiRead a _ _ => at_ 2 e.core (localOff a) 64
    | .unitRead id u => (s.cmd e.core id).bind fun c => (c.readSpan e.core u).map fun p => unit c (loadTicks e.core p.1) u false p
    | .unitWrite id u _ => (s.cmd e.core id).bind fun c => (c.writeSpan e.core u).map fun p => unit c (storeTicks e.core p.1 c.lane) u true p
    | _ => none

/-- The units of a command of the scale/angle load slot or of a DCFG, OSAVE or OREST. -/
def Cmd.spanUnits (c : Cmd) : Nat :=
  match c.instr with
  | .dcfg .. => ds4Blocks (c.st 4)
  | .osave .. | .orest .. => 320
  | i => match transferOf i with | some r => r.chunks | none => 0

/-- The accesses of the units that follow the one an entry of the agenda is to read or write; each is issued a tick after the one before. -/
def Sys.unitsToCome (s : Sys) (e : Ev) : List Waiting :=
  if (s.ctx e.core e.ctx).timed || e.phase / 4 != 0 then []
  else
    let span (id u n : Nat) : List Waiting :=
      match s.cmd e.core id with
      | none => []
      | some c => ((List.range c.spanUnits).drop (u + 1)).flatMap fun v =>
          ((c.readSpan e.core v).toList.map fun p => ⟨e.core, e.ctx, c.unitIssue (e.due + (v - u)) n v false, scratchKey p.1 p.2.1, p.2.2⟩) ++
          ((c.writeSpan e.core v).toList.map fun p => ⟨e.core, e.ctx, c.unitIssue (e.due + (v - u)) n v true, scratchKey p.1 p.2.1, p.2.2⟩)
    match e.act with
    | .unitRead id u => span id u 2
    | .unitWrite id u _ => if ((s.cmd e.core id).any fun c => c.eng == .orr) then span id u 2 else []
    | _ => []

/-- The access that a flit carries: it performs two ticks after its last hop (R53). -/
def Sys.flitAccess (s : Sys) (f : Flit) : Option Waiting := s.accessOf ⟨f.core, f.ctx, f.due + f.hops + 1, f.phase, f.ord, f.act⟩

/-- Beat `j` of a popped vector. -/
def beatWaiting (core : Nat) (w : InFlight) (j : Nat) (p : Option (List Nat)) : Option Waiting :=
  p.map fun a => ⟨core, w.ctx, w.issued, scratchKey core (a.getD j 0), 64⟩

/-- Block `i` of a DIGEST (R132). -/
def DigestRun.waiting (d : DigestRun) (core ctx i : Nat) : Waiting := ⟨core, ctx, d.start - 2, scratchKey core (localOff d.addr + 64 * i), 64⟩

/-- Every such access (R245). -/
def Sys.waiting (s : Sys) : List Waiting :=
  let shared (g x : Nat) : Bool := !(s.ctx g x).timed
  let beats (g : Nat) (w : InFlight) : List Waiting :=
    if shared g w.ctx then ((List.range 16).drop w.reads.length).flatMap fun j => [w.popA, w.popB].filterMap (beatWaiting g w j) else []
  let digests (g x : Nat) : List Waiting :=
    if shared g x then (s.ctx g x).digesting.flatMap fun d => ((List.range d.n).drop d.done).map (d.waiting g x) else []
  let results (g : Nat) (c : Cmd) : Option Waiting := if shared g c.ctx then c.resultSpan g else none
  s.agenda.filterMap s.accessOf ++ s.agenda.flatMap s.unitsToCome ++ s.flits.filterMap s.flitAccess ++
    s.cores.flatMap fun p => ((p.2.lane.toList.filterMap id).flatMap (beats p.1)) ++ (List.range 4).flatMap (digests p.1) ++ p.2.cmds.filterMap (results p.1)

/-- An access waits for one of an earlier issue of its context to a byte that they share; it performs in the cycle after that one at the earliest. -/
def Waiting.after (a : Waiting) (q : List Waiting) : Bool :=
  q.any fun b => b.core == a.core && b.ctx == a.ctx && decide (b.issue < a.issue) && decide (b.key < a.key + a.len) && decide (a.key < b.key + b.len)

/-- What is due in a phase of this cycle, and does not wait. -/
def Sys.dueNow (s : Sys) (q : List Waiting) (phase : Nat) (e : Ev) : Bool :=
  e.phase % 4 == phase && decide (e.due ≤ s.clockOf e) && s.clockRuns e && !(!q.isEmpty && (s.accessOf e).any fun a => a.after q)

/-- The reads of the cycle. -/
def Sys.readAll (s : Sys) (q : List Waiting) (m : Memory) : Sys × List Write :=
  let due := s.agenda.filter (s.dueNow q 1)
  let s : Sys := { s with agenda := s.agenda.filter fun e => !s.dueNow q 1 e }
  due.foldl (fun acc e =>
    let r := acc.1.readAct m e
    (if r.2.2 then { r.1 with agenda := r.1.agenda ++ [e] } else r.1, acc.2 ++ r.2.1)) (s, [])

/-! ## Lane groups (R159 to R161) -/

/-- Cycles from the read of the beat that completes a result to its landing (R160, R23). -/
def InFlight.wait (w : InFlight) (v : VWord) : Nat := (match v.cls with | .w => 22 - 15 | c => c.base) + w.extra

/-- Results of the word need every beat of their source. -/
def VSem.whole : VSem → Bool
  | .rows .. | .beats .. | .qpack .. => true
  | _ => false

/-- Beat j of a register that the word reads holds a poisoned word. The vector file has no address: FAR is 0 (R341, log 43). -/
def InFlight.meets (w : InFlight) (v : VWord) (s : Sys) (g lg j : Nat) : Bool :=
  let bad (group reg : Nat) : Bool := (s.poisoned (vecKey g group reg j 0) 64).isSome
  (v.a.isSome && w.popA.isNone && bad w.srcGroup w.va) || (v.b.isSome && w.popB.isNone && bad lg w.vb) || (v.readsD && bad lg w.vd)

/-- A word reads its next beat at a tick, and what that beat completes is on its way to land. A beat that meets a poisoned word lands nowhere (R341). -/
def InFlight.readNext (w : InFlight) (v : VWord) (s : Sys) (m : Memory) (g lg now : Nat) : InFlight × Sys :=
  let j := w.reads.length
  let bad (p : Option (List Nat)) : Option Nat := p.bind fun a => s.poisoned (scratchKey g (a.getD j 0)) 64
  let hurt := match bad w.popA with | some p => some p | none => bad w.popB
  let own := !s.poison.isEmpty && w.meets v s g lg j
  let s := match hurt with
    | some p => s.poisonRead g w.ctx w.slot g p w.grp (some lg)
    | none => if own then s.deferFault g w.ctx { cls := 11, code := 1, slot := w.slot, grp := w.grp, lg := some lg } else s
  let w := { w with reads := w.reads ++ [w.read v m g lg (vget (s.ctx g w.ctx).regs.lane lg) j], spoiled := if hurt.isSome || own then w.spoiled ++ [j] else w.spoiled }
  let lost := if v.sem.whole then !w.spoiled.isEmpty else w.spoiled.contains j || (v.wide && w.spoiled.contains (j - 1))
  (w, if lost then s else (w.landings v lg (v.beat w.rm w.honour w.reads)).foldl (fun s a => s.post g w.ctx (now + w.wait v) 0 w.ord a) s)

/-- A word in its lane group: it reads its next beat in its tick, and after beat 15 it is done. -/
def Sys.laneTick (s : Sys) (q : List Waiting) (m : Memory) (g lg : Nat) (w : InFlight) : Option InFlight × Sys :=
  let k := s.ctx g w.ctx
  let now := s.now g w.ctx
  let j := w.reads.length
  let late := [w.popA, w.popB].any fun p => (beatWaiting g w j p).any fun a => a.after q
  if s.windowOpen || (k.timed && s.stalled) || now < w.issued + j || late then (some w, s)
  else
    match vwordOf w.instr with
    | none => (none, s)
    | some v =>
      let r := w.readNext v s m g lg now
      (if j = 15 then none else some r.1, r.2)

/-- The beats that the lane groups of a core read in this cycle. -/
def Sys.lanesTick (s : Sys) (q : List Waiting) (m : Memory) (g : Nat) : Sys :=
  (List.range 8).foldl (fun s lg =>
    match vget (s.core g).lane lg with
    | none => s
    | some w => let r := s.laneTick q m g lg w; r.2.modCore g fun c => { c with lane := vset c.lane lg r.1 }) s

/-! ## Digests (R132, R267) -/

/-- The tick of the first group that a stop keeps from issuing: after a taken transfer one later (R121), after a fault that of the faulting group (R338). -/
def Ctx.resumeTick (k : Ctx) : Nat := if k.parked then k.asideAt else Nat.max k.readyAt (k.haltTick + boolNat (!k.mid))

/-- The DIGESTs of a context read their next block. Of a context that has stopped, the blocks whose loads were issued before the first group that the stop kept from issuing are still read: the digest stops at the boundary behind them (R267). -/
def Sys.digestTick (s : Sys) (q : List Waiting) (m : Memory) (g x : Nat) : Sys :=
  let k := s.ctx g x
  let runs (d : DigestRun) : Bool := k.engineRuns .tm || (!k.killed && decide (d.start + d.done ≤ k.resumeTick + 1))
  if k.digesting.isEmpty || s.windowOpen || (k.timed && s.stalled) then s
  else
    let now := s.now g x
    let s := s.modCtx g x fun k => { k with digesting := [] }
    k.digesting.foldl (fun s d =>
      let keep (s : Sys) (d : DigestRun) : Sys := if d.done < d.n then s.modCtx g x fun k => { k with digesting := k.digesting ++ [d] } else s
      if d.done < d.n ∧ d.start + d.done ≤ now ∧ runs d ∧ !(!q.isEmpty && (d.waiting g x d.done).after q) then
        let key := scratchKey g (localOff d.addr + 64 * d.done)
        match s.poisoned key 64 with
        | some w => s.poisonRead g x 0 g w d.grp
        | none => keep (s.modCtx g x fun k => { k with sponge := k.sponge.absorb (m.bytes key 64) }) { d with done := d.done + 1 }
      else keep s d) s

/-! ## Ring flits (R53) -/

/-- The hop that a flit seeks: pavilion, lane, link. -/
def Flit.hop (f : Flit) : Nat × Nat × Nat := (f.pav, f.lane, if f.lane < 8 then f.place else (f.place + 127) % 128)

/-- The flit seeks a hop in this cycle. -/
def Sys.seeks (s : Sys) (f : Flit) : Bool :=
  let k := s.ctx f.core f.ctx
  let mine := f.phase / 4 == 0
  let wall := f.phase / 4 == 2
  let now := if mine then s.now f.core f.ctx else if wall then s.wcyc else s.mer
  decide (f.due ≤ now) && !s.windowOpen && (wall || !((k.timed || !mine) && s.stalled))

/-- Of two flits that seek one hop, the first passes: earlier entry, then lower origin; between the two that R53 does not tell apart, the one issued earlier (log 21). -/
def Flit.upTo (a b : Flit) : Bool :=
  decide (a.entry < b.entry) || (a.entry == b.entry && (decide (a.origin < b.origin) || (a.origin == b.origin && decide (a.ord ≤ b.ord))))

/-- The hops of the cycle: one flit a hop; a flit that waits in timed mode is a timing fault, code 4 (R337). What a flit carries happens two cycles after its last hop. -/
def Sys.hopAll (s : Sys) : Sys :=
  let seek := sortBy Flit.upTo (s.flits.filter s.seeks)
  let s : Sys := { s with flits := s.flits.filter fun f => !s.seeks f }
  (seek.foldl (fun (acc : Sys × List (Nat × Nat × Nat)) f =>
    let s := acc.1
    let now := if f.phase / 4 = 0 then s.now f.core f.ctx else if f.phase / 4 = 2 then s.wcyc else s.mer
    if acc.2.contains f.hop then
      let s := if (s.ctx f.core f.ctx).timed then s.deferFault f.core f.ctx { cls := 5, code := 4, slot := f.slot, grp := f.grp } else s
      ({ s with flits := s.flits ++ [{ f with due := now + 1 }] }, acc.2)
    else
      (if f.hops ≤ 1 then s.post f.core f.ctx (now + 2) f.phase f.ord f.act
       else { s with flits := s.flits ++ [{ f with due := now + 1, hops := f.hops - 1, place := if f.lane < 8 then (f.place + 1) % 128 else (f.place + 127) % 128 }] },
       f.hop :: acc.2)) (s, [])).1

/-! ## Writes (R54) -/

/-- The place of a write among those of its cycle: the core's own slots, ring deliveries by lane, the copy engine (R54). -/
def Sys.rank (s : Sys) (e : Ev) : Nat :=
  match e.act with
  | .store _ _ r _ | .put _ r _ => r
  | .unitWrite id u _ =>
    match s.cmd e.core id with
    | some c =>
      match c.eng with
      | .orr => 6
      | .load => 8
      | .cp => if c.dloc && localOwner e.core (moveLocal c.dst (c.dstStep u)) != e.core then 32 + c.lane else 64
      | _ => 64
    | none => 64
  | .transitPerform key dest _ _ =>
    let o := (dest - spaceBase 0x10) / 2 ^ 21
    match (s.ctx e.core e.ctx).transit key with
    | some t => if dest / 2 ^ 60 = 0x10 ∧ o ≠ e.core ∧ pavOf o = pavOf e.core then 32 + t.transit.lane else 64
    | none => 64
  | _ => 0

/-- One write that is due in this cycle. The last part of the answer: it stays due. -/
def Sys.writeAct (s : Sys) (m : Memory) (e : Ev) : Sys × List Write × Bool :=
  match e.act with
  | .store o off _ d => let r := s.arrive o off d; (r.1, r.2, false)
  | .put key _ d => if key / 2 ^ 60 = 0x10 then let r := s.arrive ((key - spaceBase 0x10) / 2 ^ 21) ((key - spaceBase 0x10) % 2 ^ 21) d; (r.1, r.2, false) else (s, [.put key d], false)
  | .latch key d => (s, [.put key d], false)
  | .transitPerform key dest h d => let r := s.transitDone m e.core e.ctx key dest h d; (r.1, r.2, false)
  | .unitWrite id u d =>
    match s.cmd e.core id with
    | none => (s, [], false)
    | some c =>
      if !s.moves e.core c then (s, [], true)
      else
        let r := match c.eng with
          | .tm => s.writeTm e.core c d
          | .cp => s.writeCp e.core c u d
          | .orr => s.writeOrr e.core c u
          | .load => s.writeLoad e.core c u d
          | _ => (s, [])
        (r.1, r.2, false)
  | .flagRead all pos r =>
    let k := s.ctx e.core e.ctx
    let now (p : Nat) : Flags := s.raised.foldl (fun f q => if q.1 = e.core ∧ q.2.1 = e.ctx ∧ q.2.2.1 = p then f ||| q.2.2.2.1 else f) (vget k.regs.flags p)
    let v : Flags := if all then (List.range 18).foldl (fun f p => f ||| now p) 0 else now pos
    (s.post e.core e.ctx (s.clockOf e + 2) 0 e.ord (.scalar false r allOnes (v.setWidth 64)), [], false)
  | _ => (s, [], false)

/-- The block of a copy comes in its turn: every lower one has performed or performs in this cycle (R199). -/
def Sys.inOrder (s : Sys) (due : List Ev) (e : Ev) : Bool :=
  match e.act with
  | .unitWrite id u _ =>
    match s.cmd e.core id with
    | some c => c.eng != .cp || ((List.range u).drop c.done).all fun v =>
        due.any fun d => d.core == e.core && (match d.act with | .unitWrite i w _ => i == id && w == v | _ => false)
    | none => true
  | _ => true

/-- A write through the readback aperture, the last of its cycle (R351). -/
def Act.isAperture : Act → Bool
  | .put _ 255 _ => true
  | _ => false

/-- Writes in the order of R54, and FLRD's reading of the flags last; or those of the aperture. R54 leaves open the order of several writes of copy-engine rank to one byte: here it is that of their dispatch, and accesses by virtual address come after all others of the cycle (DESIGN CHOICE, log 63). -/
def Sys.writeAll (s : Sys) (m : Memory) (q : List Waiting) (aperture : Bool) : Sys × List Write :=
  let takes (e : Ev) : Bool := s.dueNow q 2 e && e.act.isAperture == aperture
  let ready := s.agenda.filter takes
  let due := ready.filter (s.inOrder ready)
  let s : Sys := { s with agenda := s.agenda.filter fun e => !(takes e && s.inOrder ready e) }
  let late (e : Ev) : Bool := match e.act with | .flagRead .. => true | _ => false
  let before (a b : Ev) : Bool := decide (s.rank a < s.rank b) || (s.rank a == s.rank b && decide (a.ord ≤ b.ord))
  (sortBy before (due.filter fun e => !late e) ++ due.filter late).foldl (fun acc e =>
    let r := acc.1.writeAct m e
    (if r.2.2 then { r.1 with agenda := r.1.agenda ++ [e] } else r.1, acc.2 ++ r.2.1)) (s, [])

/-! ## Accesses at their owners (R58, R246) -/

/-- An off-core access of a command. -/
def Act.isFar : Act → Bool
  | .farRead .. | .farWrite .. | .farAtom .. => true
  | _ => false

/-- Bytes of an off-core access. -/
def Act.bytes : Act → Nat
  | .farRead _ _ _ n => n
  | .farWrite _ _ _ d => d.length
  | .farAtom .. => 8
  | _ => 0

/-- An access of a command is held back: its command is parked or stopped, or waits for a release, for earlier accesses of its context, or for a commit. -/
def Sys.heldBack (s : Sys) (m : Memory) (c : Cmd) (e : Ev) : Bool :=
  c.parked || !s.moves e.core c || s.parkedBefore e.core c e.act.va e.act.bytes || (s.gatedBefore m e.core c && (match e.act with | .farWrite .. => true | _ => false)) ||
    !s.released m e.core c || (s.waitsCommit e.core c && s.translates m e.act.va)

/-- What a cycle makes of an access: it has performed, or will never; it is on its way; it waits. -/
inductive Course where
  | performed | coming | waits
  deriving DecidableEq, Repr, Inhabited

/-- One access that may have reached its owner: the state, its writes, its course. `kept` are the accesses before it that are still to perform, `coming` those of them on their way. -/
def Sys.farAct (s : Sys) (m : Memory) (kept coming : List Ev) (e : Ev) : Sys × List Write × Course :=
  match e.act.cmd.bind fun id => s.cmd e.core id with
  | none => (s, [], .performed)
  | some c =>
    let ahead := if s.waitsCommit e.core c then [] else s.ahead e.core c e.act.va kept
    if s.heldBack m c e then (s, [], .waits)
    else if !ahead.isEmpty then (s, [], if !s.heldUp e.core c && ahead.all fun id => coming.any fun o => o.core == e.core && o.act.cmd == some id then .coming else .waits)
    else if s.wcyc < e.due || s.follows e.core e.act.va coming then (s, [], .coming)
    else
      let done : Instr × Nat := match c.eng with | .tm => (.tileTransferComplete e.core c.id, c.units) | _ => (.copyComplete e.core c.id, c.copyTotal)
      match s.reach m e.core c e.act done.1 done.2 with
      | .ended s ws => (s, ws, .performed)
      | .stays s => (s, [], .waits)

/-- The accesses of the cycle, in the order in which they set out. -/
def Sys.farAll (s : Sys) (m : Memory) : Sys × Memory :=
  let far := s.agenda.filter fun e => e.act.isFar
  let s : Sys := { s with agenda := s.agenda.filter fun e => !e.act.isFar }
  let r := far.foldl (fun (acc : Sys × Memory × List Ev × List Ev) e =>
    let a := acc.1.farAct acc.2.1 acc.2.2.1 acc.2.2.2 e
    (a.1.mend a.2.1, acc.2.1.writeAll a.2.1, if a.2.2 = .performed then acc.2.2.1 else acc.2.2.1 ++ [e], if a.2.2 = .coming then acc.2.2.2 ++ [e] else acc.2.2.2)) (s, m, [], [])
  ({ r.1 with agenda := r.2.2.1 ++ r.1.agenda }, r.2.1)

/-! ## The performs of a cycle -/

/-- Each core's contexts in turn. -/
def Sys.eachCtx (s : Sys) (f : Sys → Nat → Nat → Sys × List Write) : Sys × List Write :=
  s.cores.foldl (fun acc p => (List.range 4).foldl (fun acc x => let r := f acc.1 p.1 x; (r.1, acc.2 ++ r.2)) acc) (s, [])

/-- The passes of a context act in this tick. -/
def Sys.passes (s : Sys) (m : Memory) (g x : Nat) : Sys × List Write :=
  if s.windowOpen || ((s.ctx g x).timed && s.stalled) then (s, [])
  else (List.range 2).foldl (fun acc n => let r := acc.1.passTick m g x n; (r.1, acc.2 ++ r.2)) (s, [])

/-- Reads, passes, writes, then accesses at their owners. Every read sees memory as the cycle found it (R36). Of the writes to one byte the pairs of a stream come after a load's (R92), those of the aperture last (R351). -/
def State.perform (s : State) : State :=
  let m := s.mem
  let q := s.sys.waiting
  let lanes := s.sys.cores.foldl (fun y p => y.lanesTick q m p.1) s.sys
  let digests := (lanes.eachCtx fun y g x => (y.digestTick q m g x, [])).1
  let reads := digests.hopAll.readAll q m
  let passes := reads.1.eachCtx fun y g x => y.passes m g x
  let writes := passes.1.writeAll m q false
  let last := writes.1.writeAll m q true
  let ws := reads.2 ++ writes.2 ++ passes.2 ++ last.2
  let far := (last.1.mend ws).farAll (m.writeAll ws)
  { mem := far.2, sys := far.1 }

end Sys2Proof.Machine
end

