-- ==== Sys2Proof/Machine/Stop.lean ====
section
/-! DEFINITION. What a stopped context sets aside, and how it goes on (R31, R32, R34, R303, R338). -/

namespace Sys2Proof.Machine

/-! ## Stopped contexts -/

/-- The tick of a mode ends with this cycle. -/
def Sys.tickEnds (s : Sys) (timed : Bool) : Bool := !s.windowOpen && !(timed && s.stalled)

/-- The stop of a context takes hold at the end of its tick: of a halt behind the cycle that a taken transfer loses (R121), so that the first resumed group is the first whose tick is set aside. -/
def Sys.parks (s : Sys) (k : Ctx) : Bool :=
  !k.parked && s.tickEnds k.timed && (match k.state with | .halted => !k.ended && decide (k.resumeTick ≤ s.tick k.timed + 1) | .faulted | .frozen => true | _ => false)

/-- The context stands parked, with the ticks from which what is set aside counts. -/
def Sys.park (s : Sys) (k : Ctx) : Ctx :=
  if s.parks k then { k with parked := true, asideAt := k.resumeTick, asideMer := s.mer + (if k.mid || s.stalled then 0 else 1) } else k

/-- The work stops with its context: what is timed of a halted one, but for what goes on; the parked engines' work of another (R31, R303, R312). A word access is never parked (R200). -/
def Ctx.setsAside (k : Ctx) (c : Option Cmd) (e : Ev) : Bool :=
  k.parked && decide (e.phase < 8) && !c.any Cmd.isWord &&
    (match k.state with
      | .halted => !e.act.goesOn
      | _ => match e.act, c with
        | .transit .., _ | .transitGo .., _ | .transitBegin .., _ | .ephClose .., _ | .readyLapse, _ => true
        | _, some c => !k.engineRuns c.eng
        | _, none => false)

/-- What the words of a halted context have still to give, from a tick on: each reads its beats in its ticks, and sees what lands and what is stored until then (R34). `made` holds the results so far, with their ticks. -/
def runOut (fuel : Nat) (s : Sys) (m : Memory) (g tick : Nat) (known made : List Ev) (words : List (Nat × InFlight)) : List Ev × Sys :=
  match fuel with
  | 0 => (made, s)
  | n + 1 =>
    let seen (e : Ev) : Bool := match e.act with | .beat .. | .pred .. | .cn .. => decide (e.due = tick) | _ => false
    let landed := (sortBy evBefore ((known ++ made).filter seen)).foldl (fun (acc : Sys × List Write) e => let r := acc.1.landAct e; (r.1, acc.2 ++ r.2)) (s, [])
    let stored := known.filterMap fun e => match e.act with | .store o off _ d => if e.due + 1 = tick then some (Write.put (scratchKey o off) d) else none | _ => none
    let m := m.writeAll (landed.2 ++ stored)
    let r := words.foldl (fun (acc : List (Nat × InFlight) × Sys) p =>
      match vwordOf p.2.instr with
      | none => acc
      | some v =>
        if tick < p.2.issued + p.2.reads.length then (acc.1 ++ [p], acc.2)
        else
          let q := p.2.readNext v acc.2 m g p.1 tick
          (if q.1.reads.length = 16 then acc.1 else acc.1 ++ [(p.1, q.1)], q.2)) ([], { landed.1 with agenda := [] })
    runOut n r.2 m g (tick + 1) known (made ++ r.2.agenda) r.1

/-- The words that a halted context has in the lane groups leave them: their results join what is set aside. -/
def Sys.wordsAside (s : Sys) (m : Memory) (g x : Nat) : Sys :=
  let words := (List.range 8).filterMap fun lg => match vget (s.core g).lane lg with | some w => if w.ctx = x then some (lg, w) else none | none => none
  if words.isEmpty then s
  else
    let next := (s.ctx g x).asideAt
    let known := ((s.ctx g x).suspended.map fun e => { e with due := e.due + next }) ++ s.agenda.filter fun e => e.core == g && e.ctx == x && decide (e.phase = 2)
    let r := runOut 64 s m g next known [] words
    let done := (r.2.ctx g x)
    (s.modCore g fun c => { c with lane := c.lane.map fun w => if w.any fun w => w.ctx == x then none else w }).modCtx g x fun k =>
      { k with suspended := k.suspended ++ r.1.map (fun e => { e with due := e.due - next }), deferred := done.deferred, fga := done.fga,
               laneUntil := words.foldl (fun v p => vset v p.1 (p.2.issued + 16)) k.laneUntil }

/-- The ticks from the first resumed group's to an entry's own. -/
def Sys.ticksAside (s : Sys) (e : Ev) : Nat := e.due - (if e.phase / 4 = 0 then (s.ctx e.core e.ctx).asideAt else (s.ctx e.core e.ctx).asideMer)

/-- What a stopped context has due is set aside with the ticks that remain from the first group that has not issued (R34). -/
def Sys.setAside (s : Sys) (m : Memory) : Sys :=
  let s : Sys := { s with cores := s.cores.map fun p => (p.1, { p.2 with ctxs := p.2.ctxs.map s.park }) }
  let takes (e : Ev) : Bool := (s.ctx e.core e.ctx).setsAside (e.act.cmd.bind fun c => s.cmd e.core c) e
  let taken := s.agenda.filter takes
  let kept := s.agenda.filter fun e => !takes e
  let s : Sys := taken.foldl (fun s e => s.modCtx e.core e.ctx fun k => { k with suspended := k.suspended ++ [{ e with due := s.ticksAside e }] }) { s with agenda := kept }
  s.cores.foldl (fun s p => (List.range 4).foldl (fun s x => let k := s.ctx p.1 x; if k.state == .halted && k.parked then s.wordsAside m p.1 x else s) s) s

/-- An ephemeris, a transit, a READY and a digest move with the ticks in which they count: `n` of the context, `m` of the meridian. -/
def Ctx.shifted (k : Ctx) (n m : Nat) : Ctx :=
  let eph (e : Ephemeris) : Ephemeris := { e with start := e.start + m, base := e.base + m }
  let moving (t : Moving) : Moving := { t with start := t.start + m }
  let digest (d : DigestRun) : DigestRun := { d with start := d.start + n }
  let queued (q : Queued) : Queued := { q with lapse := q.lapse.map fun t => t + m }
  { k with eph := k.eph.map eph, moving := k.moving.map moving, digesting := k.digesting.map digest, regs := { k.regs with tq := k.regs.tq.map fun q => q.map queued },
           laneUntil := k.laneUntil.map fun t => t + n }

/-- The first resumed group comes to issue in this tick: what was set aside counts from here (R32, R34), TTICK goes on from the tick of the stop, and a load that has all its rows completes (R200). -/
def Sys.bringBack (s : Sys) (g x : Nat) : Sys :=
  let k := s.ctx g x
  let gone := s.now g x - k.asideAt
  let s := s.modCtx g x fun k => { k.shifted gone (s.mer - k.asideMer) with
    suspended := [], parked := false, mid := false, tstm := if k.timed then k.tstm + BitVec.ofNat 64 gone else k.tstm }
  let again (e : Ev) : Ev := { e with due := e.due + s.clockOf e }
  let left (e : Ev) : Ev := if e.core = g ∧ e.ctx = x ∧ e.phase < 4 then { e with due := e.due + gone } else e
  let flit (f : Flit) : Flit := if f.core = g ∧ f.ctx = x ∧ f.phase / 4 = 0 then { f with due := f.due + gone } else f
  let cmd (c : Cmd) : Cmd := if c.ctx = x then { c with start := c.start + gone } else c
  let free (t : Nat) : Nat := if k.timed && decide (k.asideAt ≤ t) then t + gone else t
  let s := { s with agenda := s.agenda.map left ++ k.suspended.map again, flits := s.flits.map flit }
  let s := s.modCore g fun q => { q with cmds := q.cmds.map cmd, free := q.free.map free }
  ((s.core g).cmds.filter fun c => c.ctx == x && c.eng == .tm && !c.isWord && c.started && c.done == c.units).foldl (fun s c => s.later 1 (.tileTransferComplete g c.id)) s

/-- A released context comes to issue: its work goes on, and what is due at the start of this tick lands (R34, R95). -/
def State.comeBack (s : State) (core : Nat) (x : Fin 4) : State :=
  if (s.sys.ctx core x).parked then
    let r := (s.sys.bringBack core x).landing s.mem (fun g y => g == core && y == x.val) fun e => e.core == core && e.ctx == x.val
    { mem := s.mem.writeAll r.2, sys := r.1.mend r.2 }
  else s

end Sys2Proof.Machine
end

