-- ==== Sys2Proof/Machine/Issue.lean ====
section
/-! DEFINITION. Issue groups: fetching and checking bundles (R98 to R103, R315, R316), holds and faults of a group (R118, R302), restart regions at issue (R326), and the selector (R258). -/

namespace Sys2Proof.Machine

/-! ## Bundles (R98 to R100) -/

/-- A slot of a group: position, word, and the lane group that takes a lane-group word. -/
structure SlotWord where
  pos : Nat
  word : W32
  lanes : List Nat := []
  /-- A further lane group of a broadcast word (R100). -/
  twin : Bool := false
  deriving DecidableEq, Repr, Inhabited

/-- A bundle: its address, header, length in bytes, slots, and the positions it marks. -/
structure Bundle where
  addr : Nat
  header : W32
  len : Nat
  slots : List SlotWord
  marks : List Nat
  deriving DecidableEq, Repr, Inhabited

/-- The 32-bit word at a byte address of code. -/
def codeWord (code : List Byte) (a : Nat) : W32 := BitVec.ofNat 32 (leNat ((code.drop a).take 4))

/-- Bit `i` of a header. -/
def hbit (h : W32) (i : Nat) : Bool := h.toNat / 2 ^ i % 2 == 1

/-- The positions from `lo` to `lo + n − 1` that a header marks. -/
def marked (h : W32) (lo n : Nat) : List Nat := ((List.range n).map (· + lo)).filter (hbit h)

/-- The bundle at an address, if it lies in the code section (R98, R99, R100). -/
def bundleAt (code : List Byte) (a : Nat) : Option Bundle :=
  if a % 4 ≠ 0 ∨ code.length < a + 4 then none
  else
    let h := codeWord code a
    let own := marked h 0 10
    let lanes := marked h 10 8
    let word (i : Nat) : W32 := codeWord code (a + 4 + 4 * i)
    let n := own.length
    let ownSlots : List SlotWord := (List.range n).map fun i => { pos := own.getD i 0, word := word i }
    let laneSlots : List SlotWord :=
      (List.range lanes.length).map fun i =>
        { pos := lanes.getD i 0, word := word (if hbit h 22 then n else n + i), lanes := [lanes.getD i 0 - 10], twin := hbit h 22 && i != 0 }
    let words := n + (if hbit h 22 then Nat.min 1 lanes.length else lanes.length)
    some { addr := a, header := h, len := 4 + 4 * words, slots := ownSlots ++ laneSlots, marks := own ++ lanes }

/-- The bundles from an address through the first with `stop`, at most `n`; and the fault address when one is not wholly in the code section (R101, R315). -/
def bundlesFrom (code : List Byte) (a : Nat) (n : Nat) : List Bundle × Option Nat :=
  match n with
  | 0 => ([], none)
  | j + 1 =>
    match bundleAt code a with
    | none => ([], some a)
    | some b =>
      if code.length < a + b.len then ([b], some a)
      else if hbit b.header 23 then ([b], none)
      else
        let r := bundlesFrom code (a + b.len) j
        match r.1, r.2 with
        | [], some _ => ([b], some a)
        | bs, e => (b :: bs, e)

/-- An issue group: its slots in position order, where it falls through, its restart mark, and the class 1 faults of its bundles. -/
structure Group where
  slots : List SlotWord
  next : W32
  restart : Bool
  faults : List FaultRec
  deriving DecidableEq, Repr, Inhabited

/-- Positions that a bundle shares with the bundles before it. -/
def sharedMarks (before : List Bundle) (b : Bundle) : List Nat := b.marks.filter fun p => before.any fun o => o.marks.contains p

/-- The class 1 faults of a group's bundles (R315, R316). -/
def bundleFaults (grp : W32) (bs : List Bundle) (cut : Option Nat) : List FaultRec :=
  let f (code slot at_ : Nat) : FaultRec := { cls := 1, code := code, slot := slot, far := BitVec.ofNat 64 at_, grp := grp }
  let shared := (List.range bs.length).filterMap fun i =>
    let b := bs.getD i default
    match sharedMarks (bs.take i) b with
    | [] => none
    | l => some (b.addr, l)
  let lowest := (shared.flatMap (·.2)).foldl Nat.min 31
  (match shared.find? fun p => p.2.contains lowest with | some p => [f 5 lowest p.1] | none => []) ++
  ((bs.filter fun b => 2 ^ 25 ≤ b.header.toNat).map fun b => f 1 31 b.addr) ++
  ((bs.filter fun b => !(marked b.header 18 4).isEmpty).map fun b => f 2 31 b.addr) ++
  ((bs.filter fun b => hbit b.header 22 && (marked b.header 10 8).isEmpty).map fun b => f 3 31 b.addr) ++
  (match bs[8]? with | some b => [f 4 31 b.addr] | none => []) ++
  (((bs.drop 1).filter fun b => hbit b.header 24).map fun b => f 6 31 b.addr) ++
  (match cut with | some a => [f 7 31 a] | none => [])

/-- The group at an address (R101). -/
def groupAt (code : List Byte) (grp : W32) : Group :=
  let r := bundlesFrom code grp.toNat 9
  let bs := r.1
  let slots := sortBy (fun (a b : SlotWord) => decide (a.pos ≤ b.pos)) (bs.flatMap (·.slots))
  { slots := slots, next := BitVec.ofNat 32 (bs.foldl (fun a b => a + b.len) grp.toNat),
    restart := match bs with | b :: _ => hbit b.header 24 | [] => false, faults := bundleFaults grp bs r.2 }

/-! ## What a group holds -/

/-- The instruction of a slot, or its class 2 fault (R317). -/
def SlotWord.decode (w : SlotWord) : Except BadWord Instr :=
  match slotKind w.pos with
  | some k => decodeSlot k w.word
  | none => .error .unassigned

def Group.instrs (q : Group) : List Instr := q.slots.filterMap fun w => match w.decode with | .ok i => some i | .error _ => none

/-- A covered access (R127). -/
def covered : Instr → Bool
  | .ld .. | .st .. | .cti .. | .digest .. => true
  | i => match i.kind with
    | some .tileMem | some .copy => true
    | _ => false

/-- A control instruction that takes effect after the rest of its group (R101, R135). -/
def endsGroup : Instr → Bool
  | .bra .. | .bz .. | .bnz .. | .jr .. | .loop .. | .endl | .breakLoop | .yield | .trap .. | .eret | .halt => true
  | _ => false

/-- The order in which the slots of a group are executed: by position, a transfer of control last. -/
def Group.order (q : Group) : List SlotWord :=
  let last (w : SlotWord) : Bool := match w.decode with | .ok i => endsGroup i | .error _ => false
  (q.slots.filter fun w => !last w) ++ q.slots.filter last

/-! ## Fences (R127, R191) -/

/-- The hold of a group behind a fence or an acquire access: the full and release kinds hold every group, the full and acquire kinds the covered accesses. The flag says whether the wait varies with the world outside. -/
def Sys.fenceHold (s : Sys) (m : Memory) (g x : Nat) (q : Group) : Option Bool :=
  let fences := (s.ctx g x).fences.filter fun f => f.kind != 2 && s.fenceWaits m g x f
  if !fences.isEmpty then some (fences.any fun f => s.outsideBefore m g x f.scope f.id)
  else if q.instrs.any covered then s.accessHold m g x
  else none

/-! ## Restart regions at issue (R326, R328) -/

/-- The group's writes reach a ninth register of a lane group. -/
def Ctx.ninth (k : Ctx) (q : Group) : Bool := k.ninthOf (q.slots.filterMap fun w => match w.decode with | .ok i => some (w.lanes, i) | .error _ => none)

/-- The entries of the gated buffer that the group takes. -/
def Ctx.groupGate (k : Ctx) (q : Group) : Nat := (q.instrs.map k.gateOf).foldl (· + ·) 0

/-- The group does what ends a region: an instruction that closes one, more gated writes than the buffer has room for, a ninth register. -/
def Ctx.endsRegion (k : Ctx) (q : Group) : Bool := q.instrs.any closes || decide (64 < k.region.taken + k.groupGate q) || k.ninth q

/-- The group closes the open region. -/
def Ctx.closesRegion (k : Ctx) (q : Group) : Bool := k.region.open_ && (k.region.closing || q.restart || k.endsRegion q)

/-- The group opens a region: one that would end it in the same cycle leaves none open (DEDUCED, log 66). -/
def Ctx.opensRegion (k : Ctx) (q : Group) : Bool := q.restart && !{ k with region := {} }.endsRegion q

/-! ## Executing a group -/

/-- The state in which the slots of a group execute: the pc at the fall-through address, a new order, an opened region. -/
def Sys.prepare (s : Sys) (g x : Nat) (q : Group) : Sys :=
  let grp := (s.ctx g x).pc
  let s := { s with ord := s.ord + 1, cur := { s.cur with core := g, ctx := x, grp := grp, next := q.next, ord := 32 * (s.ord + 1), slot := 0, lanes := [], word := 0, verdict := .ran } }
  s.modCtx g x fun k =>
    let opens := k.opensRegion q
    let k := { k with
      pc := q.next, readyAt := s.tick k.timed + 1, boundary := false, held := false, stalling := false, yielded := false,
      state := if k.preq then .draining else .running }
    if opens then k.openRegion grp (32 * s.ord) else k

/-- What RDST and the pointer writes of a group see: RGST and the pointers as the cycle found them (R129, R153). -/
def Sys.found (s : Sys) (g x : Nat) : Sys :=
  let k := s.ctx g x
  { s with cur := { s.cur with rgst := k.region.word k.region.cow, addrs := k.regs.ptr.map (·.addr) } }

/-- The cursor at a slot. -/
def Sys.at (s : Sys) (w : SlotWord) : Sys :=
  { s with cur := { s.cur with slot := w.pos, lanes := w.lanes, word := w.word, ord := s.cur.ord / 32 * 32 + w.pos, verdict := .ran } }

/-- What executing the slots of a group came to. -/
structure Ran where
  state : State
  holds : List Bool := []
  faults : List FaultRec := []
  stop : Option (Host.Outcome State Fault Refusal) := none

/-- One slot: a slot that holds or faults leaves the state as it was. A broadcast word breaks a rule once. -/
def Ran.slot (ex : Instr → State → Host.Outcome State Fault Refusal) (r : Ran) (w : SlotWord) : Ran :=
  match w.decode with
  | .error b => if w.twin then r else { r with faults := r.faults ++ [{ cls := 2, code := b.code, slot := w.pos, grp := r.state.sys.cur.grp, more := b.several }] }
  | .ok i =>
    match ex i { r.state with sys := r.state.sys.at w } with
    | .next t =>
      match t.sys.cur.verdict with
      | .ran => { r with state := t }
      | .held v => { r with holds := r.holds ++ [v] }
      | .faulted f => if w.twin && r.faults.any fun e => e.cls == f.cls && e.code == f.code && decide (10 ≤ e.slot) then r else { r with faults := r.faults ++ [f] }
    | o => { r with stop := some o }

/-- The slots of a group, in order; a group without a slot is the empty bundle (R102). -/
def State.runGroup (ex : Instr → State → Host.Outcome State Fault Refusal) (s : State) (g x : Nat) (q : Group) : Ran :=
  let y := s.sys.prepare g x q
  let start : Ran := { state := { s with sys := y }, faults := q.faults }
  if q.slots.isEmpty ∧ q.faults.isEmpty then
    match ex (.nop (if q.restart then 1 else 0) 1) start.state with
    | .next t => { start with state := t }
    | o => { start with stop := some o }
  else q.order.foldl (Ran.slot ex) start

/-- What became of the group at a context's pc. -/
inductive Tried where
  | issued (s : State)
  | held (varying : Bool) (s : State)
  | faulted (s : State)
  | stopped (o : Host.Outcome State Fault Refusal)

/-- The context waits (R118). -/
def Sys.waitHere (s : Sys) (g x : Nat) (varying : Bool) : Sys :=
  s.modCtx g x fun k => { k with state := .waiting, held := true, stalling := varying && k.timed }

/-- A row of the module's own, in place. -/
def State.also (ex : Instr → State → Host.Outcome State Fault Refusal) (s : State) (i : Instr) (next : State → Tried) : Tried :=
  match ex i s with
  | .next t => next t
  | o => .stopped o

/-- A deferred fault waits that was detected in an earlier cycle (R302). -/
def Ctx.faultDue (k : Ctx) (now : Nat) : Bool := match k.deferred with | f :: _ => decide (f.seen < now) | [] => false

/-- The group at the pc issues, holds, or faults. Holds come first, then a deferred fault, then the group's own (R118, R302). -/
def State.settle (ex : Instr → State → Host.Outcome State Fault Refusal) (s : State) (core : Nat) (ctx : Fin 4) (q : Group) : Tried :=
  let r := s.runGroup ex core ctx q
  match r.stop with
  | some o => .stopped o
  | none =>
    if !r.holds.isEmpty then .held (r.holds.any id) { s with sys := s.sys.waitHere core ctx (r.holds.any id) }
    else if (s.sys.ctx core ctx).faultDue s.sys.wcyc then s.also ex (.deferredFaultRaise core ctx) .faulted
    else
      match firstFault r.faults with
      | some f => .faulted { s with sys := s.sys.takeFault core ctx f (f.more || decide (1 < r.faults.length)) (s.sys.ctx core ctx).pc }
      | none => .issued r.state

/-- The open region of a context closes: its next group holds until it has committed (R326). -/
def Sys.closing (s : Sys) (g x : Nat) : Sys := s.modCtx g x fun k => if k.region.open_ then { k with region := { k.region with closing := true } } else k

/-- A group that would hold closes the open region, which commits when it can (R326). -/
def State.holdClosed (ex : Instr → State → Host.Outcome State Fault Refusal) (s : State) (core : Nat) (ctx : Fin 4) (varying : Bool) : Tried :=
  let t : State := { s with sys := (s.sys.closing core ctx).waitHere core ctx varying }
  if (s.sys.ctx core ctx).region.open_ ∧ s.sys.regionReady s.mem core ctx then t.also ex (.regionCommit core ctx) (.held varying) else .held varying t

/-- A group behind no closing region: it waits for a fence, or for what its slots await, or it is settled. -/
def State.tryOpen (ex : Instr → State → Host.Outcome State Fault Refusal) (s : State) (core : Nat) (ctx : Fin 4) (q : Group) : Tried :=
  match s.sys.fenceHold s.mem core ctx q with
  | some v => s.holdClosed ex core ctx v
  | none =>
    match s.settle ex core ctx q with
    | .held v _ => s.holdClosed ex core ctx v
    | r => r

/-- The group at the pc of a context, its region closed first when the group closes it (R326). -/
def State.tryGroup (ex : Instr → State → Host.Outcome State Fault Refusal) (s : State) (core : Nat) (ctx : Fin 4) : Tried :=
  let s : State := { s with sys := s.sys.found core ctx }
  let k := s.sys.ctx core ctx
  let q := groupAt k.task.code k.pc
  if k.closesRegion q then
    if s.sys.regionReady s.mem core ctx then s.also ex (.regionCommit core ctx) fun t => t.tryOpen ex core ctx q
    else s.holdClosed ex core ctx (s.sys.commitVaries s.mem core ctx)
  else s.tryOpen ex core ctx q

/-- The contexts of a core. -/
def ctxNumbers : List (Fin 4) := [0, 1, 2, 3]

/-! ## The selector (R258) -/

/-- The context may issue a group. -/
def Ctx.live (k : Ctx) : Bool :=
  !k.ended && (match k.state with | .running | .ready | .waiting | .draining => true | _ => false)

/-- The other contexts of a core, upward and cyclically. -/
def othersOf (x : Nat) : List Nat := [(x + 1) % 4, (x + 2) % 4, (x + 3) % 4]

/-- The context may take the issue that another passes on. -/
def Ctx.takesTurn (k : Ctx) : Bool := k.live && (k.state == .ready || k.state == .draining)

/-- After a group has issued: the other contexts that ran are ready, a YIELD or a HALT passes the next cycle on, and a halt at a boundary follows (R31, R133, R258). -/
def Sys.afterIssue (s : Sys) (core : Nat) (ctx : Fin 4) : Sys :=
  let k := s.ctx core ctx
  let s := (othersOf ctx).foldl (fun s y => s.modCtx core y fun k => if k.state = .running then { k with state := .ready } else k) s
  let next := if k.yielded || k.ended then ((othersOf ctx).find? fun y => (s.ctx core y).takesTurn).getD ctx.val else ctx.val
  let s := s.modCore core fun c => { c with sel := next }
  let s := if next = ctx.val ∧ k.state = .ready then s.modCtx core ctx fun k => { k with state := .running } else s
  if k.boundary && k.preq && k.state == .draining then s.happens (.drainHalt core ctx) else s

/-- The waiting contexts whose condition holds are ready; a closing region commits when it can, whether its context is asked or not (R258, R326). -/
def State.wake (ex : Instr → State → Host.Outcome State Fault Refusal) (s : State) (core : Nat) (but : Nat) : State :=
  ctxNumbers.foldl (fun (s : State) (y : Fin 4) =>
    let k := s.sys.ctx core y
    if y.val ≠ but ∧ k.state = .waiting ∧ k.live ∧ !k.barWait ∧ !k.region.rback ∧ k.readyAt ≤ s.sys.tick k.timed then
      let s := if k.region.closing ∧ s.sys.regionReady s.mem core y then (match ex (.regionCommit core y) s with | .next t => t | _ => s) else s
      match s.tryGroup ex core y with
      | .held _ t => t
      | _ => { s with sys := s.sys.modCtx core y fun k => { k with state := .ready, held := false } }
    else s) s

/-- A context waits for its barrier (R126): its open region closes, as for any hold. The wait for an off-core access is a stall (R120). -/
def State.atBarrier (ex : Instr → State → Host.Outcome State Fault Refusal) (s : State) (core : Nat) (x : Fin 4) : State :=
  let k := s.sys.ctx core x
  let y := s.sys.modCtx core x fun k => { k with state := .waiting, stalling := k.timed && !k.barArrived && s.sys.tmOutside s.mem core x k.barOrd }
  if k.region.open_ then
    let t : State := { s with sys := y.closing core x }
    if t.sys.regionReady t.mem core x then (match ex (.regionCommit core x) t with | .next t => t | _ => t) else t
  else { s with sys := y }

/-- A core's turn: the contexts in the order given are asked, the first that can issue issues. The work of a released context goes on when it is asked (R34). -/
def State.turnFrom (ex : Instr → State → Host.Outcome State Fault Refusal) (s : State) (core : Nat) (order : List (Fin 4)) : Host.Outcome State Fault Refusal :=
  match order with
  | [] => .next s
  | x :: rest =>
    let k := s.sys.ctx core x
    if !k.live || k.region.rback || (k.parked && decide (s.sys.tick k.timed < k.readyAt)) then s.turnFrom ex core rest
    else
      let s := s.comeBack core x
      let k := s.sys.ctx core x
      if k.barWait then (s.atBarrier ex core x).turnFrom ex core rest
      else if s.sys.tick k.timed < k.readyAt then
        if x.val = (s.sys.core core).sel ∧ k.state ≠ .ready then .next (s.wake ex core x) else s.turnFrom ex core rest
      else
        match s.tryGroup ex core x with
        | .issued t =>
          let t := t.wake ex core x
          .next { t with sys := t.sys.afterIssue core x }
        | .held _ t => t.turnFrom ex core rest
        | .faulted t => t.turnFrom ex core rest
        | .stopped o => o

/-- The order in which the selector asks: the running context, then upward, cyclically. -/
def selectorOrder (sel : Nat) : List (Fin 4) := (List.range 4).map fun i => Fin.ofNat 4 (sel + i)

/-- A core's turn in a cycle. No group issues in a stall window (R270). -/
def State.turn (ex : Instr → State → Host.Outcome State Fault Refusal) (s : State) (core : Nat) : Host.Outcome State Fault Refusal :=
  if s.sys.windowOpen then .next s else s.turnFrom ex core (selectorOrder (s.sys.core core).sel)

/-! ## Faults raised between groups -/

/-- DEFERRED_FAULT_RAISE (R302, R303). -/
def execDeferredFaultRaise (core : Nat) (ctx : Fin 4) (s : State) : Host.Outcome State Fault Refusal :=
  s.eventOn (decide (core < 1024)) fun y =>
    match (y.ctx core ctx).deferred with
    | [] => (y, [])
    | f :: rest =>
      if y.wcyc ≤ f.seen then (y, []) else
      let y := y.modCtx core ctx fun k => { k with deferred := rest }
      (y.takeFault core ctx f f.more (y.ctx core ctx).pc, [])

/-- The budget that is exceeded: an entry's, from the outermost in, or the body's when no temporal entry is valid (R22). -/
def Ctx.overBudget (k : Ctx) : Option Nat :=
  let entry (j : Nat) : Bool := let e := vget k.regs.loops j; e.valid && e.kind == .temporal && decide (e.budget < e.elapsed)
  if (List.range 6).any entry then some 1
  else if k.inner.isNone && decide (k.task.bodyBudget < k.bodyElapsed) then some 2
  else none

/-- DEADLINE_FAULT: a precise fault of class 4 that names the group at the pc (R22, R305). -/
def execDeadlineFault (core : Nat) (ctx : Fin 4) (s : State) : Host.Outcome State Fault Refusal :=
  s.eventOn (decide (core < 1024)) fun y =>
    let k := y.ctx core ctx
    match k.overBudget with
    | some code => if k.live then (y.takeFault core ctx { cls := 4, code := code, slot := 0, grp := k.pc } false k.pc, []) else (y, [])
    | none => (y, [])

end Sys2Proof.Machine
end

