-- ==== Sys2Proof/Machine/Task.lean ====
section
/-! DEFINITION. The life of a task: barriers (R126, R319), the finish (R137, R266, R268), pre-emption (R31 to R33). -/

namespace Sys2Proof.Machine

/-! ## Spreads -/

def Pkg.modSpread (p : Pkg) (id : Nat) (f : Spread → Spread) : Pkg := { p with spreads := p.spreads.map fun q => if q.id = id then f q else q }

def Sys.modSpread (s : Sys) (id : Nat) (f : Spread → Spread) : Sys := { s with pkg := s.pkg.modSpread id f }

/-- A member of a spread changed. -/
def Spread.modMember (p : Spread) (g x : Nat) (f : Member → Member) : Spread :=
  { p with members := p.members.map fun m => if m.core = g ∧ m.ctx = x then f m else m }

/-- Cycles from the last arrival to the release: within one pavilion 8, one die 16, across dies 40; a spread of one task at once (R126). -/
def Spread.barrierDelay (p : Spread) : Nat :=
  match p.members with
  | [] | [_] => 0
  | m :: rest =>
    if rest.all fun o => pavOf o.core == pavOf m.core then 8
    else if rest.all fun o => dieOf o.core == dieOf m.core then 16
    else 40

/-- The context's earlier scratchpad stores and tile memory accesses have performed (R126). Of the engines' writes to a scratchpad those of CRD and DSTAT count as its stores; the spec does not say, and those of the scale/angle load slot, of an OSAVE and of copies do not (DESIGN CHOICE, log 72). -/
def Sys.mayArrive (s : Sys) (m : Memory) (g x : Nat) : Bool :=
  let k := s.ctx g x
  let isStore (a : Act) : Bool := match a with | .store .. => true | _ => false
  !(s.agenda.any fun e => e.core == g && e.ctx == x && isStore e.act && decide (e.ord < k.barOrd)) &&
    !(s.flits.any fun f => f.core == g && f.ctx == x && isStore f.act && decide (f.ord < k.barOrd)) &&
    !((s.core g).cmds.any fun c => c.ctx == x && c.eng == .tm && decide (c.id < k.barOrd) && s.unperformed m g 5 c)

/-- The fences of every context that have completed are dropped (R127). -/
def Sys.dropFences (s : Sys) (m : Memory) : Sys :=
  (s.eachCtx fun s g x => if (s.ctx g x).fences.isEmpty then (s, []) else (s.modCtx g x fun k => { k with fences := k.fences.filter (s.fenceWaits m g x) }, [])).1

/-- The tasks that wait at a barrier arrive (R126). A task that is stopped does not (R319). -/
def Sys.arrivals (s : Sys) (m : Memory) : Sys :=
  (s.eachCtx fun s g x =>
    let k := s.ctx g x
    if k.barWait && !k.barArrived && k.live && s.mayArrive m g x then
      ((s.modCtx g x fun k => { k with barArrived := true, stalling := false }).modSpread k.task.spread fun p => p.modMember g x fun m => { m with arrived := k.bars }, [])
    else (s, [])).1

/-- A barrier at which every task has arrived, or finished, has its release fixed (R126, R319). -/
def Sys.barriers (s : Sys) : Sys :=
  { s with pkg := { s.pkg with spreads := s.pkg.spreads.map fun p =>
    if p.releaseAt.isNone && (p.members.any fun m => decide (p.released < m.arrived)) && p.members.all fun m => m.finished || decide (p.released < m.arrived) then
      { p with releaseAt := some (s.tick p.timed + p.barrierDelay) }
    else p } }

/-- The barriers that release in this cycle. -/
def Sys.releases (s : Sys) : List Instr :=
  (s.pkg.spreads.filter fun p => p.releaseAt.any fun t => decide (t ≤ s.tick p.timed)).map fun p => .barrierRelease p.id

/-- The task goes on after a wait. -/
def Ctx.goOn (k : Ctx) : Ctx :=
  { k with state := if k.state = .waiting then (if k.preq then .draining else if k.timed then .running else .ready) else k.state }

/-- BARRIER_RELEASE: the tasks that wait at the barrier go on (R126). -/
def execBarrierRelease (id : Nat) (s : State) : Host.Outcome State Fault Refusal :=
  s.event fun y =>
    match y.spreadOf id with
    | none => (y, [])
    | some p =>
      if p.releaseAt.any fun t => decide (t ≤ y.tick p.timed) then
        let n := p.released + 1
        let y := y.modSpread id fun p => { p with released := n, releaseAt := none }
        (p.members.foldl (fun y m => y.modCtx m.core m.ctx fun k =>
          if k.task.spread = id ∧ k.barWait ∧ k.bars = n then { k.goOn with barWait := false, stalling := false } else k) y, [])
      else (y, [])

/-! ## The finish of a task (R137) -/

/-- Something of the context is still under way. -/
def Sys.outstanding (s : Sys) (g x : Nat) : Bool :=
  let k := s.ctx g x
  let c := s.core g
  (s.agenda.any fun e => e.core == g && e.ctx == x && (match e.act with | .readyLapse => false | _ => true)) ||
    (s.flits.any fun f => f.core == g && f.ctx == x) || (c.cmds.any fun m => m.ctx == x) ||
    (c.lane.toList.any fun w => w.any fun w => w.ctx == x) ||
    !k.digesting.isEmpty || !k.moving.isEmpty || k.eph.isSome || !k.suspended.isEmpty ||
    (k.sweep.toList.any fun w => w.pass.isSome) ||
    (s.pkg.recs.any fun r => r.source == .context g x && !r.discarded && r.record.w0.toNat % 256 == 5)

/-- Tasks that can finish in this cycle. -/
def Sys.finishes (s : Sys) : List Instr :=
  s.cores.flatMap fun p => ctxNumbers.filterMap fun (x : Fin 4) =>
    if (p.2.ctx x).ended && !s.outstanding p.1 x then some (.taskFinish p.1 x) else none

/-- A context without a task. Registers that a supervisor owns stay. -/
def Ctx.vacate (k : Ctx) : Ctx :=
  { k with state := .idle, preq := false, ended := false, task := { k.task with code := [] }, win := {}, deferred := [], fga := { k.fga with pend := false },
           regs := { k.regs with tq := Vector.replicate 32 none }, region := {}, barWait := false, fences := [], held := false, stalling := false, timed := false }

/-- TASK_FINISH: the digest is finished, the task reports finished, the context is idle; queued operations are discarded (R137, R266). -/
def execTaskFinish (core : Nat) (ctx : Fin 4) (s : State) : Host.Outcome State Fault Refusal :=
  s.eventOn (decide (core < 1024)) fun y =>
    let k := y.ctx core ctx
    if k.ended && !y.outstanding core ctx then
      let y := y.modSpread k.task.spread fun p => p.modMember core ctx fun m => { m with finished := true, digest := k.sponge.digest }
      let y := { y with agenda := y.agenda.filter fun e => !(e.core == core && e.ctx == ctx.val) }
      (y.modCtx core ctx Ctx.vacate, [])
    else (y, [])

/-! ## Pre-emption (R31, R32) -/

/-- The contexts that a request names: the whole spread in timed mode (R32). -/
def Sys.named (s : Sys) (g x : Nat) : List (Nat × Nat) :=
  let k := s.ctx g x
  if k.timed then
    match s.spreadOf k.task.spread with
    | some p => (p.members.filter fun m => !m.finished).map fun m => (m.core, m.ctx)
    | none => [(g, x)]
  else [(g, x)]

/-- PREEMPTION_REQUEST: refused while CSAB.`en` of a context named is 0, of any task of a timed spread (R34; DEDUCED, log 62); each context named enters draining (R31). -/
def execPreemptionRequest (core : Nat) (ctx : Fin 4) (s : State) : Host.Outcome State Fault Refusal :=
  s.eventOn (decide (core < 1024)) fun y =>
    if bit (y.ctx core ctx).csab 0 && (y.named core ctx).all fun p => bit (y.ctx p.1 p.2).csab 0 then ((y.named core ctx).foldl (fun y p => y.requestNow p.1 p.2) y, []) else (y, [])

/-- A task of a timed spread has halted: tasks that stop at different ticks are a schedule fault of the spread (R32). It is deferred to every one of them that stands halted, and delivered before its first group issues after the restore (R305; DEDUCED, log 69). -/
def Sys.stopTick (s : Sys) (g x : Nat) : Sys :=
  let k := s.ctx g x
  match k.timed, s.spreadOf k.task.spread with
  | true, some p =>
    match p.stopTick with
    | none => s.modSpread p.id fun p => { p with stopTick := some s.mer }
    | some t =>
      if t = s.mer then s
      else
        p.members.foldl (fun s m =>
          let o := s.ctx m.core m.ctx
          if !m.finished && o.state == .halted && !o.ended && !(o.deferred.any fun f => f.cls == 6 && f.code == 2) then
            s.deferFault m.core m.ctx { cls := 6, code := 2, grp := o.pc } else s) s
  | _, _ => s

/-- A save or a restore begins; its accesses are made after an off-core time. -/
def Sys.beginJob (s : Sys) (g x : Nat) (restore : Bool) : Sys :=
  let l := s.latency
  l.2.modCore g fun q => { q with ccmd := { q.ccmd with jobs := q.ccmd.jobs ++ [{ ctx := x, restore := restore, due := s.wcyc + l.1 }] } }

/-- The save that follows a pre-emption halt is made by the hardware (R34, R352). -/
def Sys.hardwareSave (s : Sys) (g x : Nat) : Sys := if bit (s.ctx g x).csab 0 then s.beginJob g x false else s

/-- DRAIN_HALT: at its iteration boundary the context stops; its passes freeze, and what is under way is set aside (R31). -/
def execDrainHalt (core : Nat) (ctx : Fin 4) (s : State) : Host.Outcome State Fault Refusal :=
  s.eventOn (decide (core < 1024)) fun y =>
    let k := y.ctx core ctx
    if k.state = .draining ∧ k.boundary then
      let t := y.tick k.timed
      (((y.modCtx core ctx fun k => { k with state := .halted, preq := false, held := false, stalling := false, haltTick := t, mid := false }).stopTick core ctx).hardwareSave core ctx, [])
    else (y, [])

end Sys2Proof.Machine
end

