-- ==== Sys2Proof/Machine/Camvel.lean ====
section
/-! DEFINITION. Camvel records: fields and operands (R218 to R220), checks (R323), decomposition (R236, R237), fault records (R308 to R311). -/

namespace Sys2Proof.Machine

/-! ## Fields (R218) -/

def Rec.topc (x : Rec) : Nat := fld x.record.w0 0 8
def Rec.axis (x : Rec) : Nat := fld x.record.w0 16 2
def Rec.lnk (x : Rec) : Bool := bit x.record.w0 14
def Rec.link (x : Rec) : Nat := fld x.record.w0 48 6
def Rec.seq (x : Rec) : Nat := fld x.record.w0 32 16
def Rec.pairs (x : Rec) : Bool := bit x.record.w0 13
def Rec.sat (x : Rec) : Bool := bit x.record.w0 12
def Rec.w7 (x : Rec) : Word := x.record.w7

/-- The rounding of a record: `rm` when `rmo` is 1, else RNE (R218, R240). -/
def Rec.rm (x : Rec) : Rm := if bit x.record.w0 8 then (Rm.ofNat? (fld x.record.w0 9 3)).getD .rne else .rne

/-! ## Operands (R219) -/

/-- A descriptor: its two words. -/
structure Operand where
  addr : Word
  b : Word
  deriving DecidableEq, Repr, Inhabited

def Operand.pitch (o : Operand) : Nat := fld o.b 40 24
def Operand.cols (o : Operand) : Nat := fld o.b 24 16
def Operand.rows (o : Operand) : Nat := fld o.b 8 16
def Operand.code (o : Operand) : Nat := fld o.b 2 5
def Operand.kind (o : Operand) : Nat := fld o.b 0 2
def Operand.fmt (o : Operand) : Fmt := (Fmt.ofCode? o.code).getD (.elem .f32)
def Operand.elem (o : Operand) : Elem := Elem.ofCode o.code

/-- Bytes from column 0 to column `c` of a row (R63, R219). -/
def Operand.colBytes (o : Operand) (c : Nat) : Nat :=
  match o.fmt with
  | .q n => (c + 15) / 16 * (1 + 2 * n)
  | f => c * f.width / 8

def Operand.rowLen (o : Operand) : Nat := o.colBytes o.cols

/-- Bytes from one row to the next. -/
def Operand.step (o : Operand) : Nat := if o.pitch = 0 then o.rowLen else o.pitch

def Operand.unused (o : Operand) : Bool := o.addr == 0 && o.b == 0

def Rec.dst (x : Rec) : Operand := ⟨x.record.w1, x.record.w2⟩
def Rec.a (x : Rec) : Operand := ⟨x.record.w3, x.record.w4⟩
def Rec.b (x : Rec) : Operand := ⟨x.record.w5, x.record.w6⟩

/-- Operand 0 is dst, 1 is A, 2 is B. -/
def Rec.operand (x : Rec) (n : Nat) : Operand := match n with | 0 => x.dst | 1 => x.a | _ => x.b

/-- The operands that an instruction uses (R224). -/
def Rec.used (x : Rec) : List Nat :=
  match x.topc with
  | 1 | 2 | 3 | 11 | 14 | 17 | 18 => [1, 0]
  | 4 | 19 => [0]
  | 5 => [1, 2]
  | 20 => []
  | _ => [1, 2, 0]

/-- The operand is a schedule, an image or a parameter block (R220). -/
def Rec.isPlan (x : Rec) (n : Nat) : Bool := (x.topc == 5) || (n == 2 && (x.topc == 6 || x.topc == 7)) || x.topc == 19

/-- Bytes from the operand's first to its last. -/
def Rec.span (x : Rec) (n : Nat) : Nat :=
  let o := x.operand n
  if n = 2 ∧ (x.topc = 6 ∨ x.topc = 7) then 2048 * o.rows + (if bit x.w7 4 then 512 else 0) else (o.rows - 1) * o.step + o.rowLen

/-! ## Decomposition (R224, R236, R237) -/

/-- How an instruction is split (R224). -/
inductive Split where
  | part | combine | replicate
  deriving DecidableEq, Repr, Inhabited

/-- TRED's reduced axis: word 7 [3]. -/
def Rec.reduced (x : Rec) : Nat := fld x.w7 3 1

def Rec.split (x : Rec) : Split :=
  match x.topc with
  | 5 | 8 | 9 | 19 | 20 => .replicate
  | 11 => if x.axis = x.reduced then .combine else .part
  | 12 => if x.axis = 0 then .combine else .part
  | 13 => .combine
  | _ => .part

/-- The operands split along `axis`; the others go whole to every child. -/
def Rec.splits (x : Rec) : List Nat :=
  match x.topc with
  | 4 | 18 => [0]
  | 10 => if x.axis = 0 then [1, 0] else [2, 0]
  | 11 => if x.axis = x.reduced then [1] else [1, 0]
  | 12 => if x.axis = 0 then [1, 2] else [1, 0]
  | 13 => [1]
  | 15 => [2, 0]
  | 16 => [1, 2]
  | 5 | 8 | 9 | 19 | 20 => []
  | _ => [1, 0]

/-- Factors at and below the accepting level: die, pavilion, core (R236). -/
def Rec.factors (x : Rec) : List Nat :=
  let d := fld x.record.w0 18 2 + 1
  let p := fld x.record.w0 20 1 + 1
  let c := fld x.record.w0 21 7 + 1
  match x.level with
  | .pkg => [d, p, c]
  | .die _ => [p, c]
  | .pav _ => [c]
  | .core _ => []

def Rec.factored (x : Rec) : Bool := x.factors.any fun f => f != 1

/-- The extent of the split operands along `axis` (R237). -/
def Rec.extent (x : Rec) : Nat :=
  match x.splits with
  | [] => 0
  | n :: _ => if x.axis = 0 then (x.operand n).rows else (x.operand n).cols

/-- A block for a core: the child numbers on its way, its first position, its length, how many of its positions are no padding. -/
structure Cut where
  path : List Nat
  start : Nat
  len : Nat
  valid : Nat
  deriving DecidableEq, Repr, Inhabited

/-- Positions of child j among a block's (R237). -/
def childLen (len f : Nat) : Nat := (len + f - 1) / f

/-- The blocks of a decomposition, in child order (R237). -/
def cutBlocks (fs : List Nat) (path : List Nat) (start len valid : Nat) : List Cut :=
  match fs with
  | [] => [⟨path, start, len, valid⟩]
  | f :: rest =>
    let b := childLen len f
    (List.range f).flatMap fun j => cutBlocks rest (path ++ [j]) (start + j * b) b (Nat.min b (valid - j * b))

def Rec.cuts (x : Rec) : List Cut := cutBlocks x.factors [] 0 x.extent x.extent

/-- The levels, by their path, whose decomposition hands out a block that begins where `ok` is false (R220). A block of padding alone names no memory. -/
def misaligned (ok : Nat → Bool) (fs : List Nat) (path : List Nat) (start len valid : Nat) : List (List Nat) :=
  match fs with
  | [] => []
  | f :: rest =>
    let b := childLen len f
    let kids := (List.range f).filter fun j => decide (j * b < valid)
    if kids.any fun j => !ok (start + j * b) then [path]
    else kids.flatMap fun j => misaligned ok rest (path ++ [j]) (start + j * b) b (Nat.min b (valid - j * b))

/-- A block may begin at position `n` of the split operands (R220, R230). -/
def Rec.beginsWell (x : Rec) (n : Nat) : Bool :=
  (x.topc != 10 || x.axis == 0 || n % 16 == 0) &&
    x.splits.all fun i =>
      let o := x.operand i
      if x.axis = 0 then o.kind == 2 || n * o.step % 64 == 0
      else (match o.fmt with | .q _ => n % 16 == 0 | _ => true) && (o.kind == 2 || o.colBytes n % 64 == 0)

/-- The part of an operand that a block names: first row, rows, first byte of a row, bytes of a row, columns. -/
structure Piece where
  r0 : Nat
  nr : Nat
  off : Nat
  len : Nat
  nc : Nat
  deriving DecidableEq, Repr, Inhabited

/-- The part of operand n that a block names; padding is left out (R237). -/
def Rec.piece (x : Rec) (n : Nat) (c : Cut) : Piece :=
  let o := x.operand n
  if !x.splits.contains n then ⟨0, o.rows, 0, o.rowLen, o.cols⟩
  else if x.axis = 0 then ⟨c.start, c.valid, 0, o.rowLen, o.cols⟩
  else ⟨0, o.rows, o.colBytes c.start, o.colBytes c.valid, c.valid⟩

/-! ## Places in the tree (R308, R309) -/

/-- Word 1 of a fault record (R308). -/
def Spot.word (p : Spot) (mst : Nat) : Word :=
  BitVec.ofNat 64 (mst * 2 ^ 27 + p.depth * 2 ^ 24 + (if 3 ≤ p.depth then p.ctx % 4 * 2 ^ 22 else 0) + (if 1 ≤ p.depth then p.die % 4 * 2 ^ 20 else 0) +
    (if 2 ≤ p.depth then p.pav % 8 * 2 ^ 17 else 0) + (if 3 ≤ p.depth then p.core % 128 * 2 ^ 10 else 0) + (if 4 ≤ p.depth then p.lg % 8 * 2 ^ 7 else 0))

/-- Its place in the order of paths (R309). -/
def Spot.key (p : Spot) : Nat := pathKey (p.word 0)

/-- The place of a level. -/
def LevelAt.spot (l : LevelAt) (ctx : Nat) : Spot :=
  match l with
  | .pkg => { depth := 0 }
  | .die d => { depth := 1, die := d }
  | .pav p => { depth := 2, die := p / 2, pav := p }
  | .core g => { depth := 3, ctx := ctx, die := dieOf g, pav := pavOf g, core := corePart g }

/-- The place of the level at a path below the accepting level (R236). -/
def Rec.spotAt (x : Rec) (path : List Nat) : Spot :=
  match x.level, path with
  | l, [] => l.spot x.ctx
  | .pkg, [d] => { depth := 1, die := d }
  | .pkg, d :: p :: _ => { depth := 2, die := d, pav := 2 * d + p }
  | .die d, p :: _ => { depth := 2, die := d, pav := 2 * d + p }
  | l, _ => l.spot x.ctx

/-- The pavilion whose arbour delivers a block. -/
def Rec.pavOf (x : Rec) (c : Cut) : Nat := (x.spotAt c.path).pav

/-- The place of a lane group of a core (R9, R236). -/
def Spot.lane (p : Spot) (lg : Nat) : Spot := { p with depth := 4, lg := lg }

/-- A fault of the record's tree as a fault record's words (R308). -/
def Rec.entry (x : Rec) (more : Bool) (f : TreeFault) : Word × Word × Word × Word :=
  (faultWord0 more f.cls f.code x.seq x.topc, f.spot.word f.mst, f.addr, f.info)

/-- The fault of the lowest path; the first of one path (R309). -/
def lowestFault : List TreeFault → Option TreeFault
  | [] => none
  | f :: rest =>
    match lowestFault rest with
    | none => some f
    | some g => if g.spot.key < f.spot.key then some g else some f

/-- Several faults were found: the breaches of R323 at one level count as one (R308, R323). -/
def several : List TreeFault → Bool
  | [] => false
  | f :: rest => rest.any fun g => !(decide (f.cls ≤ 3) && decide (g.cls ≤ 3) && f.spot == g.spot)

/-- The record that the accepting level reports: the lowest path's, `more` when several faults were found (R308, R309). -/
def Rec.report (x : Rec) (fs : List TreeFault) : Option (Word × Word × Word × Word) :=
  (lowestFault fs).map (x.entry (several fs))

/-! ## Checks of a record (R219, R220, R323) -/

/-- Class and code of a breach. -/
abbrev Breach := Nat × Nat

/-- The lowest class, and within it the lowest code. -/
def lowestBreach : List Breach → Option Breach
  | [] => none
  | f :: rest =>
    match lowestBreach rest with
    | none => some f
    | some g => if g.1 < f.1 ∨ (g.1 = f.1 ∧ g.2 < f.2) then some g else some f

def breach (ok : Bool) (cls code : Nat) : List Breach := if ok then [] else [(cls, code)]

/-- Bits of word 7 that an instruction gives a meaning (R224 to R235). -/
def Rec.w7Mask (x : Rec) : Word :=
  match x.topc with
  | 4 | 19 => allOnes
  | 6 | 7 => 0x18
  | 8 | 9 => 0xFF
  | 10 => 0x37
  | 11 => 0xF
  | 12 => 0xFFFF
  | 13 => 0x1FFFF
  | _ => 0

/-- Reserved values of word 7 (R323). -/
def Rec.w7Ok (x : Rec) : Bool :=
  x.w7 &&& ~~~x.w7Mask == 0 &&
    (match x.topc with
      | 10 => decide (fld x.w7 0 3 ≤ 6) && fld x.w7 4 2 != 3
      | 11 => decide (fld x.w7 0 3 ≤ 5)
      | _ => true)

/-- Breaches of class 2 (R218, R219, R323). -/
def Rec.illegal (x : Rec) : List Breach :=
  let w := x.record.w0
  let ds := [x.dst, x.a, x.b]
  breach (decide (1 ≤ x.topc) && decide (x.topc ≤ 20)) 2 1 ++
  breach (fld w 54 10 == 0 && fld w 28 4 == 0 && !bit w 15 && (bit w 8 || fld w 9 3 == 0) && ds.all fun o => !bit o.b 7) 2 2 ++
  breach (decide (x.axis ≤ 1) && (!bit w 8 || decide (fld w 9 3 ≤ 4)) && (ds.all fun o => o.kind != 3 && (Fmt.ofCode? o.code).isSome) && x.w7Ok) 2 3

/-- An operand keeps R220 at its accepting level. A TDOT's A may have 256 columns at the core (R230). -/
def Rec.placed (x : Rec) (n vwin : Nat) : Bool :=
  let o := x.operand n
  let pitched := o.pitch == 0 || (o.pitch % 64 == 0 && decide (o.rowLen ≤ o.pitch))
  let aligned := fld o.addr 0 6 == 0
  let atCore := match x.level with | .core _ => true | _ => false
  pitched && (!atCore || x.isPlan n || (x.topc == 10 && n == 1) || decide (o.cols ≤ 128)) &&
    (match o.kind with
      | 0 => aligned
      | 1 => aligned && decide (o.addr.toNat + x.span n ≤ 2 ^ 28) &&
          (match x.level with
            | .pav _ => true
            | .core g => ownScratch g o.addr.toNat && decide (localOff o.addr.toNat + x.span n ≤ 2 ^ 21)
            | _ => false)
      | _ => atCore && decide (o.rows ≤ tileRows o.fmt.width) && o.cols == 128 && decide (fld o.addr 0 4 < vwin / 4) &&
          (match o.fmt with | .q _ => false | f => decide (8 ≤ f.width)))

/-- Operands that must lie in memory (R224 to R227). -/
def Rec.inMemory (x : Rec) (n : Nat) : Bool :=
  match x.topc with
  | 1 => n == 1
  | 2 => n == 0
  | 3 | 4 | 5 => true
  | 6 | 7 | 8 | 9 => n == 2
  | 19 => true
  | _ => false

/-- A's data of a reduction (R231). -/
def reducible (code : Nat) : Bool := decide (code ≤ 4) || (decide (8 ≤ code) && decide (code ≤ 10)) || (decide (12 ≤ code) && decide (code ≤ 14))

/-- Data formats: neither A16 nor pairs (R71, R233). -/
def dataFmt (code : Nat) : Bool := decide (code ≤ 4) || (decide (8 ≤ code) && decide (code ≤ 22))

def Operand.sameShape (o p : Operand) : Bool := o.rows == p.rows && o.cols == p.cols

/-- Formats of equal width; a Qn only with its own kind (R225). -/
def Operand.sameWidth (o p : Operand) : Bool :=
  match o.fmt, p.fmt with
  | .q n, .q k => n == k
  | .q _, _ | _, .q _ => false
  | f, g => f.width == g.width

/-- dst of a reduction or of TDOT: pairs, or a format that takes the value. -/
def Rec.outOk (x : Rec) (ok : Bool) : Bool := if x.pairs then x.dst.code == 15 else ok

/-- Shapes and formats of the operands (R225 to R235). -/
def Rec.shaped (x : Rec) : Bool :=
  let d := x.dst
  let a := x.a
  let b := x.b
  let atCore := match x.level with | .core _ => true | _ => false
  match x.topc with
  | 1 | 2 | 3 => d.sameShape a && d.sameWidth a
  | 4 => match d.fmt with | .q _ => false | f => decide (8 ≤ f.width)
  | 5 => a.code == 12 && a.cols == 64 && b.code == 15 && b.rows == 1 && b.cols == 8
  | 6 | 7 => decide (a.code ≤ 4) && decide (d.code ≤ 4) && a.cols == 128 && a.sameShape d && b.code == 7 && decide (b.rows ≤ 8) && b.cols == 0 && b.pitch == 0
  | 8 | 9 => a.code == 0 && a.cols == 128 && d.code == 0 && d.rows == 8 && d.cols == 128 && b.code == 23 && b.cols == 1 && decide (8 * a.rows ≤ b.rows) && decide (fld x.w7 0 8 ≤ 120)
  | 10 =>
    decide (16 ≤ a.code) && decide (a.code ≤ 22) && decide (b.code ≤ 4) && b.rows == a.cols && d.rows == a.rows && d.cols == b.cols &&
      x.outOk (if fld x.w7 4 2 = 2 then d.code == 14 else decide (d.code ≤ 4))
  | 11 =>
    reducible a.code && (if x.reduced = 0 then d.rows == 1 && d.cols == a.cols else d.rows == a.rows && d.cols == 1) &&
      x.outOk (dataFmt d.code && (decide (fld x.w7 0 3 < 4) || d.fmt.width == 32))
  | 12 => reducible a.code && b.code == 14 && b.cols == 1 && b.rows == a.rows && decide (1 ≤ fld x.w7 0 16) && d.rows == fld x.w7 0 16 && d.cols == a.cols && x.outOk (dataFmt d.code)
  | 13 =>
    let k := fld x.w7 0 17
    (a.code == 0 || a.code == 10 || a.code == 14) && d.code == a.code && b.code == 14 && decide (1 ≤ k) && decide (k ≤ 65536) &&
      decide (Nat.min k 65535 ≤ d.cols) && decide (Nat.min k 65535 ≤ b.cols)
  | 14 => dataFmt a.code && dataFmt d.code && a.sameShape d
  | 15 => d.code == a.code && d.cols == a.cols && b.code == 14 && b.cols == 1 && b.rows == d.rows
  | 16 => d.code == a.code && d.cols == a.cols && b.code == 14 && b.cols == 1 && b.rows == a.rows
  | 17 => if atCore then d.sameShape a && d.sameWidth a else (a.code == 0 || a.code == 2) && (d.code == 0 || d.code == 2) && a.sameShape d
  | 18 =>
    d.sameWidth a &&
      (if x.axis = 0 then d.cols == a.cols && x.cuts.all fun c => c.len == a.rows else d.rows == a.rows && x.cuts.all fun c => c.len == a.cols)
  | 19 => d.kind == 0 && d.rows == 1 && d.cols == 0 && d.pitch == 0 && fld d.addr 0 21 == 0 && fld x.w7 0 21 == 0 && (ownerCode d.addr == 8 || decide (ownerCode d.addr ≤ 3))
  | _ => true

/-- dst and A name the same bytes in the same order: of a tile its number counts alone, of a single row no pitch (R224). -/
def Rec.coincide (x : Rec) : Bool :=
  let d := x.dst
  let a := x.a
  d.kind == a.kind && (if d.kind = 2 then fld d.addr 0 4 == fld a.addr 0 4 else d.addr == a.addr && (d.step == a.step || d.rows == 1)) &&
    d.rows == a.rows && d.rowLen == a.rowLen

/-- The runs of bytes of an operand: first address, bytes from one to the next, bytes of each, how many. -/
def Rec.runs (x : Rec) (n : Nat) : Nat × Nat × Nat × Nat :=
  let o := x.operand n
  if n = 2 ∧ (x.topc = 6 ∨ x.topc = 7) then (o.addr.toNat, 0, x.span 2, 1) else (o.addr.toNat, o.step, o.rowLen, o.rows)

/-- Bytes from `lo` to below `hi` share one with such runs. -/
def meetsRuns (lo hi : Nat) (r : Nat × Nat × Nat × Nat) : Bool :=
  let j := if lo < r.1 + r.2.2.1 then 0 else (lo - r.1 - r.2.2.1) / Nat.max 1 r.2.1 + 1
  decide (lo < hi) && decide (0 < r.2.2.1) && decide (j < r.2.2.2) && decide (r.1 + j * r.2.1 < hi)

/-- dst lies clear of source n: they share no byte (R224). -/
def Rec.clear (x : Rec) (n : Nat) : Bool :=
  let d := x.dst
  let o := x.operand n
  if d.kind ≠ o.kind then true
  else if d.kind = 2 then fld d.addr 0 4 != fld o.addr 0 4
  else
    decide (d.addr.toNat + x.span 0 ≤ o.addr.toNat) || decide (o.addr.toNat + x.span n ≤ d.addr.toNat) ||
      (List.range d.rows).all fun i => !meetsRuns (d.addr.toNat + i * d.step) (d.addr.toNat + i * d.step + d.rowLen) (x.runs n)

/-- The destination overlaps no source, or coincides with A (R224). -/
def Rec.apart (x : Rec) : Bool :=
  if !x.used.contains 0 || x.topc == 19 then true
  else
    (!x.used.contains 1 || x.coincide || x.clear 1) && (!x.used.contains 2 || x.topc == 8 || x.topc == 13 || x.clear 2)

/-- The sizes that a core's engines take (R230). -/
def Rec.coreSized (x : Rec) (m : Nat) : Bool :=
  x.topc != 10 || (decide (m ≤ 128) && x.a.cols % 32 == 0 && decide (x.a.cols ≤ 256) && decide (x.a.cols ≤ tileRows x.b.fmt.width))

/-- Breaches of class 3 at the accepting level, `tcount` and `vwin` the issuing context's (R219, R220, R223, R236). -/
def Rec.outOfRange (x : Rec) (tcount vwin : Nat) : List Breach :=
  let atCore := match x.level with | .core _ => true | _ => false
  let fromCtx := match x.source with | .context .. => true | .window _ => false
  breach ((List.range 3).all fun n =>
      if x.used.contains n then decide (1 ≤ (x.operand n).rows) && x.placed n vwin && (!x.inMemory n || (x.operand n).kind != 2) else (x.operand n).unused) 3 2 ++
    breach (x.shaped && x.apart && (!atCore || x.coreSized x.a.rows)) 3 2 ++
    breach (!fromCtx || decide (x.link < tcount)) 3 2 ++
    breach (!x.factored || (x.split != .replicate && (x.axis == 0 || !(x.topc == 6 || x.topc == 7 || x.topc == 15 || x.topc == 16)))) 3 3

/-- The first breach of a record at its accepting level (R323). -/
def Rec.check (x : Rec) (tcount vwin : Nat) : Option Breach :=
  match lowestBreach x.illegal with
  | some f => some f
  | none => lowestBreach (x.outOfRange tcount vwin)

/-! ## Fault records of sources (R310, R311) -/

/-- The fault record of a source. -/
def Sys.tfrOf (s : Sys) (src : Source) : Vector Word 4 :=
  match src with
  | .context g x => (s.ctx g x).tfr
  | .window n => (vget s.pkg.wins n).tfr

def Sys.setTfr (s : Sys) (src : Source) (v : Vector Word 4) : Sys :=
  match src with
  | .context g x => s.modCtx g x fun k => { k with tfr := v }
  | .window n => { s with pkg := { s.pkg with wins := vmod s.pkg.wins n fun w => { w with tfr := v } } }

/-- The source is in discard mode (R310). -/
def Sys.discards (s : Sys) (src : Source) : Bool := bit (vget (s.tfrOf src) 0) 63

/-- A record of the source has been discarded: `ndisc` counts it (R310). -/
def Sys.countDiscard (s : Sys) (src : Source) : Sys :=
  let t := s.tfrOf src
  let n := fld (vget t 1) 32 32
  s.setTfr src (vset t 1 (BitVec.ofNat 64 (Nat.min (n + 1) (2 ^ 32 - 1) * 2 ^ 32 + fld (vget t 1) 0 32)))

/-- A fault record is written, or the held one is marked `more` (R310). A record written to a window raises MSI-X vector 9 (R311). -/
def Sys.writeTfr (s : Sys) (src : Source) (f : Word × Word × Word × Word) : Sys :=
  let t := s.tfrOf src
  if bit (vget t 0) 63 then s.setTfr src (vset t 0 (vget t 0 ||| (1 <<< 62)))
  else
    let s := s.setTfr src #v[f.1, f.2.1, f.2.2.1, f.2.2.2]
    match src with
    | .window _ => { s with pkg := { s.pkg with msix := s.pkg.msix ||| 0x200 } }
    | .context .. => s

/-- A write of the inspection window is heard: the host's while SEALST.`state` is 0, the resident program's once it runs (R284, R290). -/
def Sys.heard (s : Sys) : Bool := s.pkg.sec.sealState == (if s.byProgram then 2 else 0)

/-- The device takes a write outside the device block: boot phase 5 is reached, and the writer is heard (R284, R285). -/
def Sys.answers (s : Sys) : Bool := s.pkg.sec.ready && s.heard

/-- The effect of a write that arrives through the inspection window or from the resident program; before boot is complete, and where the writer is not heard, it is discarded (R284, R285). -/
def State.inspected (s : State) (effect : Sys → Sys) : Host.Outcome State Fault Refusal := s.event fun y => (if y.answers then effect y else y, [])

/-- TILE_FAULT_RECORD_CLEAR: all four words are cleared; records that start afterwards are discarded no longer (R310, R311). A window's record is cleared by a write of the inspection window, which R284 and R285 limit; a context's by its own WRST too. -/
def execTileFaultRecordClear (h : FaultHolder) (s : State) : Host.Outcome State Fault Refusal :=
  match h with
  | .context core ctx => s.eventOn (decide (core < 1024)) fun y => (y.setTfr (.context core ctx) (Vector.replicate 4 0), [])
  | .window n => s.inspected fun y => y.setTfr (.window n.toNat) (Vector.replicate 4 0)

/-! ## Records by number -/

def Sys.rec? (s : Sys) (id : Nat) : Option Rec := s.pkg.recs.find? (·.id == id)

def Sys.modRec (s : Sys) (id : Nat) (f : Rec → Rec) : Sys := { s with pkg := { s.pkg with recs := s.pkg.recs.map fun r => if r.id = id then f r else r } }

/-- A record's effect is complete, with the faults of its tree, those found before and `fs`: its completion follows in this cycle (R223, R310). -/
def Sys.finishRec (s : Sys) (x : Rec) (fs : List TreeFault) : Sys :=
  s.modRec x.id fun r => { r with phase := .done, due := none, fault := x.report (r.faults ++ fs) }

end Sys2Proof.Machine
end

