-- ==== Sys2Proof/Machine/Tiles.lean ====
section
/-! DEFINITION. What a block of a Camvel record computes (R225 to R234), and how a level combines what its children return (R238, R265). -/

namespace Sys2Proof.Machine

/-! ## Data -/

/-- The codes of `n` elements of width w from a row's bytes. -/
def codesOf (w n : Nat) (bs : List Byte) : List Nat := (List.range n).map fun c => leNat ((bs.drop (c * (w / 8))).take (w / 8))

/-- Columns taken by lane groups: flags of column c go to slot 10 + c div 16 (R40, R241). -/
def laneSlot (c : Nat) : Nat := 10 + c / 16 % 8

/-- The values of the first `n` elements of a row of an operand, from its bytes (R59 to R64, R69). -/
def Operand.vals (o : Operand) (n : Nat) (bs : List Byte) : List Val :=
  match o.fmt with
  | .q k => (List.range n).map fun c =>
      let block := (bs.drop (c / 16 * (1 + 2 * k))).take (1 + 2 * k)
      qDecode k (leNat (block.take 1)) (qMantissa k (leNat (block.drop 1)) (c % 16))
  | .elem e => (codesOf e.width n bs).map (e.decode false)
  | _ => []

/-- The bytes of a row of values in an operand's format, with the flags by slot position of the lane group of each column (R65, R68, R71, R172). The positions of a last block beyond the row hold absent mantissas (R64). -/
def Operand.encodeRow (o : Operand) (rm : Rm) (sat : Bool) (vs : List Val) : List Byte × List (Nat × Flags) :=
  match o.fmt with
  | .q k =>
    let blocks := (List.range ((vs.length + 15) / 16)).map fun q =>
      let xs := (vs.drop (16 * q)).take 16
      qEncode k rm (xs ++ List.replicate (16 - xs.length) .absent)
    (blocks.flatMap fun b => BitVec.ofNat 8 b.1 :: leBytes (2 * k) (qField k b.2.1),
     (List.range blocks.length).map fun q => (laneSlot (16 * q), (blocks.getD q (0, [], .none)).2.2))
  | .elem e =>
    let cells := vs.map fun v => match e with | .flt f => (if sat && f != .f32 then f.deliverSat rm false v else f.deliver rm false v) | .int f => f.deliver rm v
    (cells.flatMap fun c => leBytes (e.width / 8) c.1, (List.range cells.length).map fun j => (laneSlot j, (cells.getD j (0, .none)).2))
  | _ => ([], [])

/-- A row converted by TCONV: encoded, and an absent element that is written absent consumes it, into a Qn format too (R72, R73, R233). -/
def Operand.convertRow (o : Operand) (rm : Rm) (sat : Bool) (vs : List Val) : List Byte × List (Nat × Flags) :=
  let r := o.encodeRow rm sat vs
  match o.fmt with
  | .q _ => (r.1, r.2 ++ (List.range vs.length).map fun j => (laneSlot j, Flags.when (vs.getD j .absent == .absent) .absentConsumed))
  | _ => r

/-! ## Rotation (R228) -/

/-- Runs a row through the stages of a schedule: the codes that leave, the flags, the factor of its renormalisation (R82 to R90). -/
def rotateRow (reverse scale renorm : Bool) (banks : List (List W32)) (z : List W32) (src dst : FloatFmt) (rm : Rm) (codes : List Nat) : List Nat × Flags × Option W32 :=
  let lanes : Row := codes.map (widenLane src false)
  let entry : Row × Flags :=
    if reverse && scale then
      let cells := (List.range 128).map fun l => scaleLane .f32 rm false (laneAt lanes l) (z.getD l absentLane)
      (cells.map fun c => BitVec.ofNat 32 c.1, cells.foldl (fun f c => f ||| c.2) .none)
    else (lanes, .none)
  let nin : W32 × Flags := if renorm then sumSquares false entry.1 else (0, .none)
  let rounds := if reverse then banks.reverse else banks
  let stages (bank : List W32) : List (List W32) :=
    (List.range 8).map fun k => let st := if reverse then 7 - k else k; (bank.drop (64 * st)).take 64
  let turned := (rounds.flatMap stages).foldl (fun acc ws => let r := stageRow reverse rm false ws acc.1; (r.1, acc.2 ||| r.2)) (entry.1, entry.2 ||| nin.2)
  let rn : Row × Option W32 × Flags := if renorm then renormRow rm false nin.1 turned.1 else (turned.1, none, .none)
  let cells := (List.range 128).map fun l =>
    if scale && !reverse then scaleLane dst rm false (laneAt rn.1 l) (z.getD l absentLane) else narrowLane dst rm false (laneAt rn.1 l)
  (cells.map (·.1), cells.foldl (fun f c => f ||| c.2) (turned.2 ||| rn.2.2), rn.2.1)

/-! ## Sweeps (R229) -/

/-- A sweep under way: residents, the stream still to apply or emitted so far, the reduced rows, flags. -/
structure Sweeping where
  residents : List Row := []
  stream : List Word := []
  rows : List Row := []
  flags : Flags := .none
  deriving Repr, Inhabited

/-- A row meets the residents of stages 0 to m − 1 in turn: the row, the residents, the pairs, flags (R92, R93). -/
def meetAll (derive : Bool) (q : Nat) (rm : Rm) (residents : List Row) (pairs : List Word) (row : Row) : Row × List Row × List Word × Flags :=
  (List.range residents.length).foldl (fun acc k =>
    let res := acc.2.1.getD k []
    if derive then
      let r := deriveStep rm false (q + k) res acc.1
      (r.2.1, acc.2.1.set k r.1, acc.2.2.1 ++ [r.2.2.1], acc.2.2.2 ||| r.2.2.2)
    else
      let r := applyStep rm false (pairs.getD k 0x3F800000) res acc.1
      (r.2.1, acc.2.1.set k r.1, acc.2.2.1, acc.2.2.2 ||| r.2.2)) (row, residents, [], .none)

/-- The next row of a sweep (R92, R93). -/
def sweepRow (derive : Bool) (q : Nat) (rm : Rm) (s : Sweeping) (row : Row) : Sweeping :=
  if row.all fun x => x == absentLane then { s with rows := s.rows ++ [row] }
  else
    let m := s.residents.length
    let r := meetAll derive q rm s.residents s.stream row
    let stream := if derive then s.stream ++ r.2.2.1 else s.stream.drop m
    if m < 8 then { residents := r.2.1 ++ [r.1], stream := stream, rows := s.rows ++ [List.replicate 128 absentLane], flags := s.flags ||| r.2.2.2 }
    else { residents := r.2.1, stream := stream, rows := s.rows ++ [r.1], flags := s.flags ||| r.2.2.2 }

/-- TQR or TAPPLY: the reduced rows to A, the residents to dst, and the emitted stream to B (R94, R229). -/
def Rec.sweep (x : Rec) (derive : Bool) (a b : List (List Byte)) : LeafOut :=
  let start : Sweeping := if derive then {} else { stream := b.map fun bs => BitVec.ofNat 64 (leNat bs) }
  let r := (a.map fun bs => (codesOf 32 128 bs).map (BitVec.ofNat 32)).foldl (sweepRow derive (fld x.w7 0 8) x.rm) start
  let put (n : Nat) (rows : List (List Byte)) : List Put := (List.range rows.length).map fun i => ⟨n, i, 0, rows.getD i []⟩
  let back := put 1 (r.rows.map bytes32)
  let residents := put 0 ((List.range 8).map fun k => bytes32 (r.residents.getD k (List.replicate 128 absentLane)))
  { puts := back ++ residents ++ (if derive then put 2 (r.stream.map fun w => leBytes 8 w.toNat) else []), flags := [(6, r.flags)] }

/-! ## Matrix product (R230) -/

/-- Fields of word 7 of TDOT. -/
def Rec.bq (x : Rec) : Nat := fld x.w7 0 3
def Rec.drain (x : Rec) : Nat := fld x.w7 4 2

/-- DS0 of the DOT that a block of TDOT expands to (R206, R241). -/
def Rec.ds0 (x : Rec) : Word := BitVec.ofNat 64 (x.a.cols / 32 * 2 ^ 32 + (x.a.code - 16) * 2 ^ 12 + x.bq * 2 ^ 9 + x.b.code * 2 ^ 4)

/-- An entry drained into dst (R208, R230). -/
def Rec.drained (x : Rec) (e : Partial) : Nat × Flags :=
  let word := e.value + e.count * 2 ^ 32
  let as_ (n code : Nat) : Nat × Flags := Machine.drained n (BitVec.ofNat 64 (code * 2 ^ 4)) x.rm false x.sat word
  if x.pairs then
    let v : Nat × Flags := if x.drain = 1 then as_ 1 0 else (e.value, .none)
    (v.1 + e.count * 2 ^ 32, v.2)
  else as_ x.drain x.dst.code

/-- A block of TDOT (R207, R230). -/
def Rec.product (x : Rec) (pd : Piece) (a b : List (List Byte)) : LeafOut :=
  let d := x.ds0
  let fmt := dsFmt d
  let rows := b.map fun bs => let cs := codesOf fmt.width pd.nc bs; cs ++ List.replicate (128 - cs.length) fmt.absent
  let av := a.map fun bs => (List.range (dsK d)).map fun k => qValue false (elemOfA d bs k)
  let groups := (List.range ((pd.nc + 15) / 16)).map fun q => quantise d x.rm false rows q
  let cell (ar : List Val) (c : Nat) : Partial :=
    let bq := groups.getD (c / 16) ([], .none)
    dotEntry d x.rm false ar (bq.1.map fun blk => qValue false (qDecode (dsB d) blk.1 (blk.2.getD (c % 16) 0))) (Elem.f32.input true 0)
  let entries := av.map fun ar => (List.range pd.nc).map (cell ar)
  let out := entries.map fun r => r.map fun e => (x.drained e, Elem.f32.reduceFlags e)
  let w := x.dst.fmt.width / 8
  { entries := entries, puts := (List.range out.length).map fun i => ⟨0, pd.r0 + i, pd.off, (out.getD i []).flatMap fun e => leBytes w e.1.1⟩,
    flags := (groups.map fun q => (7, q.2)) ++ out.flatMap fun r => r.map fun e => (7, e.1.2 ||| e.2) }

/-! ## Reductions (R231, R238) -/

/-- The operation of a reduction: a sum in TNORM. -/
def Rec.op (x : Rec) : RedOp :=
  if x.topc = 12 then .add
  else match fld x.w7 0 3 with | 0 => .add | 1 => .mul | 2 => .max | 3 => .min | 4 => .or | _ => .and

def Rec.rawOp (x : Rec) : Bool := x.topc == 11 && decide (4 ≤ fld x.w7 0 3)

/-- The format in which a reduction runs; of OR and AND it gives the absent code alone, which for a 32-bit source is A's own (R181, R231). -/
def Rec.inner (x : Rec) : Elem :=
  if x.a.code ≤ 4 then .f32 else if x.a.code ≤ 10 then .int ⟨true, 32⟩ else .n32

/-- An element of A as it enters (R231). -/
def Rec.enter (x : Rec) (v : Nat) : Partial :=
  let e := x.inner
  if x.a.elem.isAbsent v then e.input true 0
  else if x.rawOp then e.input false v
  else e.input false (convert x.a.elem e .rne false false v).1

def Rec.plus (x : Rec) (p q : Partial) : Partial := x.op.combine x.inner x.rm false p q

def Rec.nothing (x : Rec) : Partial := x.inner.input true 0

/-- The flags of steps whose results are not written: an infinity or a NaN among them produces nothing (R73). -/
def Partial.steps (p : Partial) : Flags := p.flags &&& ~~~Flags.nonFinite

/-- The trees over each 16 columns of a row from the block's first, a lane group's each (R75, R231). -/
def Rec.rowTrees (x : Rec) (row : List Nat) : List Partial :=
  (List.range ((row.length + 15) / 16)).map fun q =>
    treeReduce x.plus ((List.range 16).map fun l => match row[16 * q + l]? with | some v => x.enter v | none => x.nothing) x.nothing

/-- A row's columns: the groups of 16 combined in order (R231). The flags are those of that combining; the trees' own are charged to their lane groups. -/
def Rec.acrossRow (x : Rec) (row : List Nat) : Partial :=
  (x.rowTrees row).foldl (fun acc t => x.plus acc { t with flags := .none }) x.nothing

/-- The flags of a row's trees, by the slot position of the lane group that ran each (R241). -/
def Rec.treeFlags (x : Rec) (row : List Nat) : List (Nat × Flags) :=
  let ts := x.rowTrees row
  (List.range ts.length).map fun q => (laneSlot (16 * q), (ts.getD q x.nothing).steps)

/-- The sum of a column over rows in ascending order. -/
def Rec.downColumn (x : Rec) (rows : List (List Nat)) (c : Nat) : Partial :=
  rows.foldl (fun acc r => match r[c]? with | some v => x.plus acc (x.enter v) | none => acc) x.nothing

/-- The partial results of a block, by dst element in row order. -/
def Rec.partials (x : Rec) (nc : Nat) (rows : List (List Nat)) (ids : List Nat) : List Partial :=
  if x.topc = 12 then
    (List.range (fld x.w7 0 16)).flatMap fun s =>
      let mine := ((rows.zip ids).filter fun p => p.2 == s && !Elem.n32.isAbsent p.2).map (·.1)
      (List.range nc).map fun c => x.downColumn mine c
  else if x.reduced = 0 then (List.range nc).map fun c => x.downColumn rows c
  else rows.map fun r => x.acrossRow r

/-- v / n as a value (R76). -/
def Rec.mean (x : Rec) (p : Partial) : Val := (x.inner.decode false p.value).div (.fin false p.count 1 0)

/-- A finished result as an element of dst (R76, R231, R238). -/
def Rec.final (x : Rec) (p : Partial) : Nat × Flags :=
  let d := x.dst.elem
  let present := x.inner.there p
  let there := present && p.count != 0
  let mean (e : Elem) : Nat × Flags :=
    if !there then (e.absent, .none)
    else match e with
      | .flt f => if x.sat && f != .f32 then f.deliverSat .rne false (x.mean p) else f.deliver .rne false (x.mean p)
      | .int f => f.deliver .rne (x.mean p)
  let v : Nat × Flags :=
    if x.pairs then
      let v : Nat × Flags := if x.topc = 12 then mean .f32 else (if there then p.value else x.inner.absent, if there && !x.rawOp then x.inner.written p.value else .none)
      (v.1 + p.count * 2 ^ 32, v.2)
    else if x.topc = 12 then mean d
    else if !there then (d.absent, .none)
    else if x.rawOp then (p.value, .none)
    else convert x.inner d x.rm false x.sat p.value
  (v.1, p.steps ||| v.2)

/-- A finished result as a value, for a dst whose format codes a group of elements together (R65, R76). -/
def Rec.finalVal (x : Rec) (p : Partial) : Val :=
  if !x.inner.there p || p.count = 0 then .absent
  else if x.topc = 12 then x.mean p
  else x.inner.decode false p.value

/-- The rows of dst that results fill: `nc` elements a row from row `r0`, byte `off`. -/
def Rec.finalPuts (x : Rec) (r0 off nc : Nat) (ps : List Partial) : List Put × List (Nat × Flags) :=
  match x.dst.fmt with
  | .q _ =>
    let rows := (List.range (ps.length / nc)).map fun i => x.dst.encodeRow (if x.topc = 12 then .rne else x.rm) false (((ps.drop (i * nc)).take nc).map x.finalVal)
    ((List.range rows.length).map fun i => ⟨0, r0 + i, off, (rows.getD i ([], [])).1⟩,
     ((List.range ps.length).map fun i => (laneSlot (i % nc), (ps.getD i x.nothing).steps)) ++ rows.flatMap (·.2))
  | _ =>
    let w := x.dst.fmt.width / 8
    let out := ps.map x.final
    ((List.range (ps.length / nc)).map fun i => ⟨0, r0 + i, off, ((out.drop (i * nc)).take nc).flatMap fun e => leBytes w e.1⟩,
     (List.range out.length).map fun i => (laneSlot (i % nc), (out.getD i (0, .none)).2))

/-- Partial results of children combined in ascending order, level by level (R238). -/
def Rec.combineLevels (x : Rec) (fs : List Nat) (ps : List (List Partial)) : List Partial :=
  match fs with
  | [] => ps.headD []
  | f :: rest =>
    let n := ps.length / f
    let kids := (List.range f).map fun j => x.combineLevels rest ((ps.drop (j * n)).take n)
    let most := kids.foldl (fun n k => Nat.max n k.length) 0
    (List.range most).map fun i => kids.foldl (fun acc k => match k[i]? with | some p => x.plus acc p | none => acc) x.nothing

/-! ## Selection (R232) -/

/-- The keys of a block: order, index order, code, index in A as the root names it (R77, R232). -/
def Rec.keysOf (x : Rec) (p : Piece) (c0 : Nat) (rows : List (List Nat)) : List (Nat × Nat × Nat × Nat) :=
  let e := x.a.elem
  (List.range rows.length).flatMap fun i =>
    (List.range p.nc).filterMap fun j =>
      let v := (rows.getD i []).getD j 0
      let idx := (p.r0 + i) * x.a.cols + c0 + j
      if e.isAbsent v then none else some (e.orderKey v, idx, e.keyOut v, idx % 2 ^ 32)

/-- The k keys and their indices as bytes of dst row 0 and B row 0 (R232). -/
def Rec.selected (x : Rec) (keys : List (Nat × Nat × Nat × Nat)) : List Put :=
  let k := fld x.w7 0 17
  let top := (sortKeys keys).take k
  let at_ (i : Nat) : Nat × Nat := match top[i]? with | some q => (q.2.2.1, q.2.2.2) | none => (x.a.elem.absent, 2 ^ 32 - 1)
  [⟨0, 0, 0, (List.range k).flatMap fun i => leBytes 4 (at_ i).1⟩, ⟨2, 0, 0, (List.range k).flatMap fun i => leBytes 4 (at_ i).2⟩]

/-! ## The ring (R234, R265) -/

/-- An element of A as a rank's partial: F32, or absent. -/
def Rec.ringPartial (x : Rec) (v : Nat) : W32 :=
  if x.a.elem.isAbsent v then absentLane else if x.a.code = 2 then BitVec.ofNat 32 (convert (.flt .b16) .f32 .rne false false v).1 else BitVec.ofNat 32 v

/-- RNB16 of a value. -/
def toB16 (x : W32) : Nat := if x = absentLane then FloatFmt.b16.absent else (FloatFmt.b16.deliver .rne false (FloatFmt.f32.decode false x.toNat)).1

/-- A hop: RNB16(widen(m) + p), the sum exact; absent is the identity (R265). -/
def ringHop (m : Nat) (p : W32) : Nat :=
  if p = absentLane then m
  else if m = FloatFmt.b16.absent then toB16 p
  else (FloatFmt.b16.deliver .rne false ((FloatFmt.b16.decode false m).add .rne (FloatFmt.f32.decode false p.toNat))).1

/-- The final value of element e of L over the ranks' codes: its chunk starts one rank after its own (R265). -/
def Rec.ringValue (x : Rec) (ranks : List (List Nat)) (l e : Nat) : Nat :=
  let p := ranks.length
  let chunk := e / childLen l p
  let at_ (i : Nat) : W32 := match (ranks.getD ((chunk + 1 + i) % p) [])[e]? with | some v => x.ringPartial v | none => absentLane
  (List.range (p - 1)).foldl (fun m i => ringHop m (at_ (i + 1))) (toB16 (at_ 0))

/-- A final B16 value as an element of dst (R234). -/
def Rec.ringOut (x : Rec) (v : Nat) : Nat :=
  if x.dst.code = 2 then v else if v = FloatFmt.b16.absent then FloatFmt.f32.absent else v * 2 ^ 16

/-! ## A block (R225 to R234) -/

/-- `n` absent elements of a row; of a format that has no absent code the free code of that format (R66, R233, log 31). -/
def Operand.absentCols (o : Operand) (n : Nat) : List Byte :=
  match o.fmt with
  | .elem e => (List.range n).flatMap fun _ => leBytes (e.width / 8) e.absent
  | .q k => (List.range ((n + 15) / 16)).flatMap fun _ => 0xFF :: leBytes (2 * k) (qField k (List.replicate 16 (2 ^ (k - 1))))
  | f => (List.range n).flatMap fun _ => leBytes (f.width / 8) (Config.absentCode o.code).toNat

/-- An absent row. -/
def Operand.absentRow (o : Operand) : List Byte := o.absentCols o.cols

/-- A block of a rotation (R228). -/
def Rec.rotation (x : Rec) (pd : Piece) (a b : List (List Byte)) : LeafOut :=
  let raw := b.flatten
  let g := x.b.rows
  let banks := (List.range g).map fun i => words32 512 (raw.drop (2048 * i))
  let src := floatOf x.a.code
  let dst := floatOf x.dst.code
  let rho := 2048 / Nat.max src.width dst.width
  let out := a.map fun bs => rotateRow (x.topc == 7) (bit x.w7 4) (bit x.w7 3) banks (words32 128 (raw.drop (2048 * g))) src dst x.rm (codesOf src.width 128 bs)
  { puts := (List.range out.length).map fun i => ⟨0, pd.r0 + i, pd.off, (out.getD i ([], .none, none)).1.flatMap fun v => leBytes (dst.width / 8) v⟩,
    flags := out.map fun r => (6, r.2.1),
    factors := (List.range out.length).filterMap fun i => ((out.getD i ([], .none, none)).2.2).map fun f => (14 + i / rho % 2, f) }

/-- What the block of a cut gives, from the bytes of its rows of A and B; `pa`, `pb`, `pd` are its parts of A, B and dst. -/
def Rec.leaf (x : Rec) (c : Cut) (pa pd : Piece) (a b : List (List Byte)) : LeafOut :=
  let rows (f : Nat → List Byte) (n : Nat) : List Put := (List.range n).map fun i => ⟨0, pd.r0 + i, pd.off, f i⟩
  let w := x.dst.fmt.width / 8
  let aw := x.a.fmt.width
  let codes := a.map (codesOf aw pa.nc)
  let ids := b.map leNat
  match x.topc with
  | 4 => { puts := rows (fun _ => (List.range pd.nc).flatMap fun _ => leBytes w x.w7.toNat) pd.nr }
  | 6 | 7 => x.rotation pd a b
  | 8 => x.sweep true a b
  | 9 => x.sweep false a b
  | 10 => x.product pd a b
  | 11 | 12 =>
    let ps := x.partials pa.nc codes ids
    let across := x.topc = 11 ∧ x.reduced = 1
    let slots := if across then codes.flatMap x.treeFlags else []
    if x.split = .combine then { partials := ps, flags := slots }
    else
      let r := x.finalPuts pd.r0 pd.off (if across then 1 else pa.nc) ps
      { puts := r.1, flags := slots ++ r.2 }
  | 13 => { keys := x.keysOf pa (if x.axis = 1 then c.start else 0) codes }
  | 14 =>
    let out := a.map fun bs => x.dst.convertRow x.rm x.sat (x.a.vals pa.nc bs)
    { puts := rows (fun i => (out.getD i ([], [])).1) out.length, flags := out.flatMap (·.2) }
  | 15 => { puts := rows (fun i => let t := ids.getD i 0; if Elem.n32.isAbsent t then x.dst.absentRow else (a[t]?).getD (x.dst.absentRow)) ids.length }
  | 16 => { puts := (List.range ids.length).filterMap fun i => let t := ids.getD i 0; if Elem.n32.isAbsent t ∨ x.dst.rows ≤ t then none else some ⟨0, t, 0, a.getD i []⟩ }
  | 17 =>
    match x.level with
    | .core _ => { puts := rows (fun i => a.getD i []) a.length }
    | _ => { codes := (List.range (if x.axis = 0 then c.len else x.a.rows)).flatMap fun i =>
        (codes.getD i []) ++ List.replicate ((if x.axis = 0 then x.a.cols else c.len) - (codes.getD i []).length) x.a.elem.absent }
  | 18 => { puts := rows (fun i => (a.getD i []).take pd.len) (Nat.min a.length pd.nr) }
  | _ => { puts := rows (fun i => a.getD i []) a.length }

/-- What the accepting level adds once every block is done: the combine of C instructions, the ring of TALLRED (R238, R265). -/
def Rec.rootPuts (x : Rec) (cuts : List Cut) (outs : List LeafOut) : List Put :=
  match x.topc with
  | 11 | 12 =>
    if x.split = .combine then (x.finalPuts 0 0 x.dst.cols (x.combineLevels x.factors (outs.map (·.partials)))).1 else []
  | 13 => x.selected (outs.flatMap (·.keys))
  | 17 =>
    match x.level with
    | .core _ => []
    | _ =>
      let ranks := outs.map (·.codes)
      let l := (ranks.headD []).length
      let w := x.dst.fmt.width / 8
      cuts.flatMap fun c =>
        let pd := x.piece 0 c
        let width := if x.axis = 0 then x.dst.cols else c.len
        (List.range pd.nr).map fun i => ⟨0, pd.r0 + i, pd.off, (List.range pd.nc).flatMap fun j => leBytes w (x.ringOut (x.ringValue ranks l (i * width + j)))⟩
  | _ => []

/-- Flags of the final step of a C instruction that a core accepts (R241). -/
def Rec.rootFlags (x : Rec) (outs : List LeafOut) : List (Nat × Flags) :=
  match x.level, x.topc with
  | .core _, 11 | .core _, 12 => if x.split = .combine then (x.finalPuts 0 0 x.dst.cols (x.combineLevels x.factors (outs.map (·.partials)))).2 else []
  | _, _ => []

/-! ## Times at the core (R241) -/

/-- Blocks of 64 bytes that hold n elements of width w in a row of 128. -/
def blocksOf (bytes : Nat) : Nat := (bytes + 63) / 64

/-- The completion cycle of a block, from its acceptance (R241). -/
def Rec.cycles (x : Rec) (pa pd : Piece) : Nat :=
  let w := x.a.fmt.width
  let rho := 2048 / Nat.max w 8
  let tiles (r : Nat) : Nat := Nat.max 1 ((r + rho - 1) / rho)
  let lane (lam r q : Nat) : Nat := 520 * (tiles pa.nr - 1) + 519 + lam + q * r
  let q (len : Nat) : Nat := blocksOf len
  let len := blocksOf (pd.nr * pd.len)
  match x.topc with
  | 1 => if x.dst.kind = 2 then rowBlocks x.dst.fmt.width * pd.nr + 3 else len + 5
  | 2 => if x.a.kind = 2 then rowBlocks w * pa.nr + 2 else len + 5
  | 3 | 17 | 18 => len + 5
  | 4 => len + 1
  | 6 | 7 =>
    let rho := 2048 / Nat.max w x.dst.fmt.width
    let g := x.b.rows
    let p := if g = 1 then rho else Nat.max rho 21
    let pi := Nat.max 520 ((g - 1) * p + rho + 4)
    pi * (Nat.max 1 ((pa.nr + rho - 1) / rho) - 1) + 1050 + (g - 1) * p + rho
  | 8 | 9 => 520 * (tiles pa.nr - 1) + 1050 + 2 * 64
  | 10 =>
    let k := x.a.cols
    let e := dotStep x.ds0
    let s := Nat.max (blocksOf (pa.nr * pa.len) + 4) (rowBlocks x.b.fmt.width * k + 4)
    s + k + pa.nr * e + (rowBlocks x.dst.fmt.width + 1) * pa.nr + 13
  | 11 => lane 118 pd.nr (q pd.len)
  | 12 => lane (64 * fld x.w7 0 16 + 54) pd.nr (q pd.len)
  | 13 => lane (16 * rho + 38) 1 (q (4 * fld x.w7 0 17))
  | 14 => lane 86 pd.nr (q pd.len)
  | _ => lane (16 * rho + 22) pd.nr (q pd.len)

end Sys2Proof.Machine
end

