-- ==== Sys2Proof/Machine/Records.lean ====
section
/-! DEFINITION. The life of a Camvel record: start, staging and delivery of its blocks, their effects, combining and completion (R222 to R241, R309 to R312). -/

namespace Sys2Proof.Machine

/-! ## Accesses of a record -/

/-- What stops an access: class and code (0, 0: its page is being invalidated), address, and the lane group whose registers held a poisoned word. -/
structure Trouble where
  cls : Nat
  code : Nat
  va : Word
  lg : Option Nat := none
  deriving DecidableEq, Repr, Inhabited

/-- The access waits: its page is unmapped, or is being invalidated. -/
def Trouble.waits (t : Trouble) : Bool := t.cls == 0 || (t.cls == 7 && t.code == 1)

/-- Bytes from an address, cut at 64-byte boundaries: address, length. -/
def pieces (fuel a n : Nat) : List (Nat × Nat) :=
  match fuel with
  | 0 => []
  | f + 1 => if n = 0 then [] else let k := Nat.min n (64 - a % 64); (a, k) :: pieces f (a + k) (n - k)

def piecesOf (a n : Nat) : List (Nat × Nat) := pieces (n / 64 + 2) a n

/-- Where a record's access goes: translated (kind 0), or in a scratchpad of the pavilion of core `g` (kind 1). -/
def Sys.spanPlace (s : Sys) (m : Memory) (kind g : Nat) (va : Word) (a : Access) : Sys × Except Trouble Place :=
  if kind = 1 then (s, .ok (.scratch (localOwner g va.toNat) (localOff va.toNat)))
  else
    let r := s.translate m va a
    (r.2, match r.1 with | .ok p => .ok p | .fault c => .error ⟨7, c, va, none⟩ | .wait => .error ⟨0, 0, va, none⟩)

/-- The bytes of a span. -/
def Sys.readSpan (s : Sys) (m : Memory) (kind g : Nat) (va : Word) (n : Nat) : Sys × Except Trouble (List Byte) :=
  let r := (piecesOf va.toNat n).foldl (fun (acc : Sys × Except Trouble (List (List Byte))) p =>
    match acc.2 with
    | .error _ => acc
    | .ok parts =>
      let r := acc.1.spanPlace m kind g (BitVec.ofNat 64 p.1) .read
      match r.2 with
      | .error t => (r.1, .error t)
      | .ok pl =>
        match pl.key.bind fun k => (r.1.poisoned k p.2).map fun w => (k, w) with
        | some q => (r.1, .error ⟨11, memoryCode q.1, BitVec.ofNat 64 (p.1 + 8 * q.2 - q.1), none⟩)
        | none => let d := r.1.readPlace m pl p.2; (d.2, .ok (d.1 :: parts))) (s, .ok [])
  (r.1, match r.2 with | .ok parts => .ok parts.reverse.flatten | .error t => .error t)

/-- The bytes of several spans. -/
def Sys.readSpans (s : Sys) (m : Memory) (kind g : Nat) (at_ : List (Word × Nat)) : Sys × Except Trouble (List (List Byte)) :=
  let r := at_.foldl (fun (acc : Sys × Except Trouble (List (List Byte))) p =>
    match acc.2 with
    | .error _ => acc
    | .ok rows =>
      let r := acc.1.readSpan m kind g p.1 p.2
      (r.1, match r.2 with | .ok bs => .ok (bs :: rows) | .error t => .error t)) (s, .ok [])
  (r.1, match r.2 with | .ok rows => .ok rows.reverse | .error t => .error t)

/-- The rows of an operand's part: address and length of each. -/
def Operand.rowsAt (o : Operand) (p : Piece) : List (Word × Nat) :=
  (List.range p.nr).map fun i => (o.addr + BitVec.ofNat 64 ((p.r0 + i) * o.step + p.off), p.len)

/-- The lane groups that hold a poisoned word of rows `r0` up of a tile, n of them (R9, R341). -/
def Sys.tilePoison (s : Sys) (g x : Nat) (o : Operand) (r0 n : Nat) : List Nat :=
  let base := (s.ctx g x).tileBase (fld o.addr 0 4)
  (List.range 8).filter fun lg => (List.range n).any fun i => s.lanePoison g base (r0 + i) o.fmt.width lg

/-- Rows `r0` up of a tile of the running context, n of them. A poisoned word is a fault of its lane group (R9, R341). -/
def Sys.readTile (s : Sys) (m : Memory) (g x : Nat) (o : Operand) (r0 n : Nat) : Except Trouble (List (List Byte)) :=
  let base := (s.ctx g x).tileBase (fld o.addr 0 4)
  let w := o.fmt.width
  match (s.tilePoison g x o r0 n).head? with
  | some lg => .error ⟨11, 1, 0, some lg⟩
  | none => .ok ((List.range n).map fun i => rowBytes w (readRow m g base (r0 + i) w))

/-- The bytes of the rows of an operand's part. -/
def Sys.readPiece (s : Sys) (m : Memory) (g x : Nat) (o : Operand) (p : Piece) : Sys × Except Trouble (List (List Byte)) :=
  if o.kind = 2 then (s, s.readTile m g x o p.r0 p.nr) else s.readSpans m o.kind g (o.rowsAt p)

/-- Operand n is a whole schedule: one run of bytes (R228). -/
def Rec.isSchedule (x : Rec) (n : Nat) : Bool := n == 2 && (x.topc == 6 || x.topc == 7)

/-- Operand n is read by a block's work: TQR and TTOPK only write B. -/
def Rec.reads (x : Rec) (n : Nat) : Bool := x.used.contains n && n != 0 && !(n == 2 && (x.topc == 8 || x.topc == 13))

/-- Where the part of operand n lies that a block needs. -/
def Rec.site (x : Rec) (n : Nat) (c : Cut) : List (Word × Nat) :=
  let o := x.operand n
  if x.isSchedule n then [(o.addr, x.span 2)] else o.rowsAt (x.piece n c)

/-- The rows of operand n that a core's own record needs. -/
def Sys.readOperand (s : Sys) (m : Memory) (g x : Nat) (r : Rec) (n : Nat) (c : Cut) : Sys × Except Trouble (List (List Byte)) :=
  let o := r.operand n
  if !r.reads n then (s, .ok [])
  else if o.kind = 2 then (s, s.readTile m g x o (r.piece n c).r0 (r.piece n c).nr)
  else s.readSpans m o.kind g (r.site n c)

/-- What the lane groups and the engines of a core meet in reading operand n, from what its reading answered: every lane group that holds a poisoned word, or the first trouble of the access (R309). -/
def Sys.readTroubles (s : Sys) (g x : Nat) (r : Rec) (n : Nat) (c : Cut) (got : Except Trouble (List (List Byte))) : List Trouble :=
  match got with
  | .ok _ => []
  | .error t =>
    let p := r.piece n c
    if t.lg.isSome then (s.tilePoison g x (r.operand n) p.r0 p.nr).map fun lg => { t with lg := some lg } else [t]

/-- The writes of bytes put at an address. -/
def Sys.putSpan (s : Sys) (m : Memory) (kind g : Nat) (va : Word) (data : List Byte) : Sys × Except Trouble (List Write) :=
  let r := (piecesOf va.toNat data.length).foldl (fun (acc : Sys × List Byte × Except Trouble (List (List Write))) p =>
    match acc.2.2 with
    | .error _ => acc
    | .ok parts =>
      let r := acc.1.spanPlace m kind g (BitVec.ofNat 64 p.1) .write
      match r.2 with
      | .error t => (r.1, [], .error t)
      | .ok pl => let d := r.1.writePlace m pl (acc.2.1.take p.2); (d.1, acc.2.1.drop p.2, .ok (d.2 :: parts))) (s, data, .ok [])
  (r.1, match r.2.2 with | .ok parts => .ok parts.reverse.flatten | .error t => .error t)

/-- The writes of what a record puts. -/
def Sys.putAll (s : Sys) (m : Memory) (g x : Nat) (r : Rec) (ps : List Put) : Sys × Except Trouble (List Write) :=
  ps.foldl (fun acc p =>
    match acc.2 with
    | .error _ => acc
    | .ok ws =>
      let o := r.operand p.operand
      if o.kind = 2 then
        (acc.1, .ok (ws ++ writeRow g ((acc.1.ctx g x).tileBase (fld o.addr 0 4)) p.row o.fmt.width (bytesRow o.fmt.width p.data)))
      else
        let q := acc.1.putSpan m o.kind g (o.addr + BitVec.ofNat 64 (p.row * o.step + p.off)) p.data
        (q.1, match q.2 with | .ok w => .ok (ws ++ w) | .error t => .error t)) (s, .ok [])

/-! ## Staging (R239) -/

/-- Bytes of operand n in a block, and its address there. -/
def Rec.blockBytes (x : Rec) (n : Nat) (c : Cut) : Nat :=
  if x.isSchedule n then x.span 2 else let p := x.piece n c; p.nr * p.len

def Rec.blockAddr (x : Rec) (n : Nat) (c : Cut) : Word :=
  let p := x.piece n c
  (x.operand n).addr + BitVec.ofNat 64 (p.r0 * (x.operand n).step + p.off)

/-- The operands that a level stages: sources, then a destination that children write (R238, R239). TTOPK's root writes its B (R232). -/
def Rec.staged (x : Rec) : List Nat := x.used.filter fun n => (n != 0 || x.split != .combine) && !(n == 2 && x.topc == 13)

/-- The blocks of the dies below the accepting level: the die, its block. -/
def Rec.dieCuts (x : Rec) : List (Nat × Cut) :=
  match x.level with
  | .pkg => (cutBlocks (x.factors.take 1) [] 0 x.extent x.extent).map fun c => (c.path.headD 0, c)
  | .die d => [(d, ⟨[], 0, x.extent, x.extent⟩)]
  | _ => []

/-- The block of a die, none where no lodge takes part. -/
def Rec.dieCut (x : Rec) (d : Nat) : Option Cut := (x.dieCuts.find? (·.1 == d)).map (·.2)

/-- The levels that would hand on a block which does not begin at a multiple of 64 bytes: they deliver none (R220, R309). -/
def Rec.badCuts (x : Rec) : List (List Nat) := misaligned x.beginsWell x.factors [] 0 x.extent x.extent

/-- The faults of those levels (R220, R323). -/
def Rec.cutFaults (x : Rec) : List TreeFault := x.badCuts.map fun q => { spot := x.spotAt q, mst := 5, cls := 3, code := 2 }

/-- A block lies under such a level. -/
def Rec.cutOff (x : Rec) (c : Cut) : Bool := x.badCuts.any fun q => q.isPrefixOf c.path

/-- Copies stand in a staging window one after another, each from a multiple of 64 bytes; one that would pass the end stands at the window's beginning (log 14). Operand and bytes give operand and offset. -/
def stackUp (room at_ : Nat) : List (Nat × Nat) → List (Nat × Nat)
  | [] => []
  | (n, b) :: rest => let o := if at_ + b ≤ room then at_ else 0; (n, o) :: stackUp room ((o + b + 63) / 64 * 64) rest

/-- LSTG: bytes of the window, and its base. -/
def Lodge.room (l : Lodge) : Nat := fld l.lstg 0 16 * 2 ^ 21
def Lodge.base (l : Lodge) : Word := BitVec.ofNat 64 (fld l.lstg 21 43 * 2 ^ 21)

/-- The operands whose blocks a die's lodge copies into its window: those outside its slice. -/
def Rec.lodgeTakes (x : Rec) (d : Nat) : List Nat := x.staged.filter fun n => (x.operand n).kind == 0 && ownerCode (x.operand n).addr != d

/-- A lodge cannot stage a block (R239). -/
def Sys.lodgeFault (s : Sys) (x : Rec) (d : Nat) (c : Cut) : Option TreeFault :=
  let room := (vget s.pkg.lodges d).room
  ((x.lodgeTakes d).find? fun n => decide (room < x.blockBytes n c)).map fun n =>
    { spot := { depth := 1, die := d }, mst := 5, cls := 3, code := 4, addr := x.blockAddr n c, info := BitVec.ofNat 64 (x.blockBytes n c) }

/-- Where each of them stands: operand, offset in the window. -/
def Sys.lodgeOffsets (s : Sys) (x : Rec) (d : Nat) (c : Cut) : List (Nat × Nat) :=
  stackUp (vget s.pkg.lodges d).room 0 ((x.lodgeTakes d).map fun n => (n, x.blockBytes n c))

/-- Where part `c` of operand n lies in a packed copy of block `whole`: offset and length of each row. -/
def Rec.siteIn (x : Rec) (n : Nat) (whole c : Cut) : List (Nat × Nat) :=
  if x.isSchedule n then [(0, x.span 2)]
  else
    let d := x.piece n whole
    let p := x.piece n c
    (List.range p.nr).map fun i => ((p.r0 - d.r0 + i) * d.len + (p.off - d.off), p.len)

/-- What a die's lodge has copied of operand n, and the block it belongs to. -/
def Rec.lodgeHolds (x : Rec) (d n : Nat) : Option (Cut × List Byte) :=
  match x.dieCut d, x.held.find? fun h => h.1 == d && h.2.1 == n with
  | some whole, some h => some (whole, h.2.2)
  | _, _ => none

/-- A lodge copies the blocks of its sources into its window (R239): the bytes by operand, and the writes. -/
def Sys.lodgeCopies (s : Sys) (m : Memory) (x : Rec) (d : Nat) (c : Cut) : Sys × Except Trouble (List (Nat × Nat × List Byte) × List Write) :=
  (s.lodgeOffsets x d c).foldl (fun acc q =>
    match acc.2 with
    | .error _ => acc
    | .ok ws =>
      if !x.reads q.1 then acc
      else
        let r := acc.1.readSpans m 0 (256 * d) (x.site q.1 c)
        match r.2 with
        | .error t => (r.1, .error t)
        | .ok rows =>
          let p := r.1.putSpan m 0 (256 * d) ((vget s.pkg.lodges d).base + BitVec.ofNat 64 q.2) rows.flatten
          (p.1, match p.2 with | .ok w => .ok (ws.1 ++ [(d, q.1, rows.flatten)], ws.2 ++ w) | .error t => .error t)) (s, .ok ([], []))

/-- Rows that bring a block to a whole number of tiles (R239). -/
def Rec.padRows (x : Rec) (n : Nat) (c : Cut) : Nat :=
  let o := x.operand n
  match o.fmt with
  | .q _ => 0
  | _ =>
    if x.isPlan n then 0
    else
      let p := x.piece n c
      let rho := 2048 / Nat.max 8 o.fmt.width
      (p.nr + rho - 1) / rho * rho - p.nr

/-- Bytes of a block as an arbour stages it. -/
def Rec.paddedBytes (x : Rec) (n : Nat) (c : Cut) : Nat := x.blockBytes n c + x.padRows n c * (x.piece n c).len

/-- ASTG: bytes of the window, and its offset in every core's scratchpad. -/
def Sys.astgRoom (s : Sys) (p : Nat) : Nat := fld (vget s.pkg.astg p) 16 16 * 64
def Sys.astgOff (s : Sys) (p : Nat) : Nat := fld (vget s.pkg.astg p) 0 16 * 64

/-- The block of operand n lies wholly in the scratchpad of core `g`. -/
def Rec.liesIn (x : Rec) (n : Nat) (c : Cut) (g : Nat) : Bool :=
  let p := x.piece n c
  let a := (x.blockAddr n c).toNat
  let len := if x.isSchedule n then x.span 2 else (p.nr - 1) * (x.operand n).step + p.len
  (x.operand n).kind == 1 && ownScratch g a && decide (localOff a + len ≤ 2 ^ 21)

/-- The operands whose blocks an arbour copies into core `g`: those whose block does not lie in that core's own scratchpad. -/
def Rec.arbourTakes (x : Rec) (c : Cut) (g : Nat) : List Nat :=
  x.staged.filter fun n => decide (0 < x.blockBytes n c) && (x.operand n).kind != 2 && !x.liesIn n c g

/-- The arbour cannot stage a block in a core (R239). -/
def Sys.arbourFault (s : Sys) (x : Rec) (c : Cut) (g : Nat) : Option TreeFault :=
  ((x.arbourTakes c g).find? fun n => decide (s.astgRoom (pavOf g) < x.paddedBytes n c)).map fun n =>
    { spot := (LevelAt.pav (pavOf g)).spot 0, mst := 5, cls := 3, code := 4, addr := x.blockAddr n c, info := BitVec.ofNat 64 (x.paddedBytes n c) }

/-- Where each of them stands in the core's scratchpad: operand, offset. -/
def Sys.arbourOffsets (s : Sys) (x : Rec) (c : Cut) (g : Nat) : List (Nat × Nat) :=
  (stackUp (s.astgRoom (pavOf g)) 0 ((x.arbourTakes c g).map fun n => (n, x.paddedBytes n c))).map fun q => (q.1, s.astgOff (pavOf g) + q.2)

/-! ## Faults of the tree (R309, R310, R312, R314) -/

/-- What a fault of a record does where it is met: class 11 and a freeze enter the package fault queue, and a protection fault of a copy engine freezes it. -/
def Sys.heed (s : Sys) (x : Rec) (f : TreeFault) : Sys :=
  let freezes := f.cls == 7 && f.code == 2 && f.mst == 1
  let s := if freezes || f.cls == 11 then s.pfqAppend (x.entry false f) else s
  match x.level with
  | .core g => if freezes then s.modCore g fun q => { q with frozenCopy := true } else s
  | _ => s

/-- A block lies below the place of a fault, or beside it under the same arbour. -/
def Spot.over (p : Spot) (l : Leaf) : Bool := p.depth == 0 || (p.die == l.pav / 2 && (p.depth == 1 || p.pav == l.pav))

/-- A fault is found in a record's tree: the level that meets it, or whose child does, delivers no further block (R309, R310). -/
def Sys.treeFault (s : Sys) (x : Rec) (f : TreeFault) : Sys :=
  (s.heed x f).modRec x.id fun r => { r with faults := r.faults ++ [f], leaves := r.leaves.map fun l => if l.core.isNone && f.spot.over l then { l with gone := true } else l }

/-- FGA of a deferred fault in a core's expansion, by slot position: 5 the copy engine, 6 the orrery (R308). -/
def expansionFga (slot : Nat) : Word := (Fga.mk false false slot 0).word

/-- A record waits at an owner: for REPLAY, or for an invalidation to end (R276, R330). -/
def Sys.stickRec (s : Sys) (x : Rec) (t : Trouble) (who : Spot × Nat) : Sys :=
  if t.cls = 0 then s.modRec x.id fun r => { r with due := r.due.map fun _ => s.run + 1 }
  else
    let key := (t.va.toNat / 2 ^ 21, 5, who.1.key)
    let s := if s.pkg.reported.contains key then s
      else
        let s := s.pfqAppend (x.entry false { spot := who.1, mst := who.2, cls := 7, code := 1, addr := t.va })
        { s with pkg := { s.pkg with reported := s.pkg.reported ++ [key] } }
    let p : Parked := { owner := ownerCode t.va, va := t.va, core := 0, ctx := 0, cmd := 0, unit := 0, record := some x.id }
    let s : Sys := { s with pkg := { s.pkg with parked := s.pkg.parked ++ [p] } }
    s.modRec x.id fun r => { r with due := none, parked := true }

/-- An access of a level's staging is stopped: it waits, or it is a fault of that level (R312, R330, R341). -/
def Sys.troubled (s : Sys) (x : Rec) (t : Trouble) (who : Spot × Nat) : Sys :=
  if t.waits then s.stickRec x t who
  else s.treeFault x { spot := who.1, mst := who.2, cls := t.cls, code := t.code, addr := t.va, info := if who.1.depth = 3 then expansionFga 5 else 0 }

/-! ## Start (R222, R310, R323) -/

/-- Windows of the issuing context that a record's checks need. -/
def Sys.limitsOf (s : Sys) (x : Rec) : Nat × Nat :=
  match x.source with
  | .context g c => ((s.ctx g c).win.tcount, (s.ctx g c).win.vwin)
  | .window _ => (64, 64)

/-- A fault of the accepting level itself. -/
def Rec.ownFault (x : Rec) (b : Breach) (addr : Word := 0) : TreeFault := { spot := x.spotAt [], mst := 5, cls := b.1, code := b.2, addr := addr }

/-- A record's blocks are planned; a core runs its own at once, in the time of R241. -/
def Sys.plan (s : Sys) (x : Rec) : Sys :=
  if x.badCuts.contains [] then s.finishRec x x.cutFaults
  else
    match x.level with
    | .core _ =>
      let c : Cut := ⟨[], 0, x.extent, x.extent⟩
      let from_ := if s.run ≤ x.accepted + 1 then x.accepted else s.run
      s.modRec x.id fun r => { r with phase := .running, due := some (from_ + x.cycles (x.piece 1 c) (x.piece 0 c)) }
    | _ =>
      let leaves := x.cuts.map fun c => ({ pav := x.pavOf c, gone := x.cutOff c } : Leaf)
      s.modRec x.id fun r => { r with phase := .running, leaves := leaves, faults := x.cutFaults }

/-- A record starts: it is discarded, or it faults at its level, or its work begins. -/
def Sys.startRec (s : Sys) (x : Rec) : Sys :=
  if s.discards x.source then (s.countDiscard x.source).modRec x.id fun r => { r with phase := .done, discarded := true }
  else
    let l := s.limitsOf x
    match x.check l.1 l.2 with
    | some b => s.finishRec x [x.ownFault b]
    | none =>
      match x.topc with
      | 20 => s.modRec x.id fun r => { r with phase := .running, due := some s.run }
      | 5 | 19 => let t := s.latency; t.2.modRec x.id fun r => { r with phase := .running, due := some (s.run + t.1) }
      | _ => s.plan x

/-- A record may start: those before it from its source at its level have started, none of them is a TBAR; a TBAR is the first; a core runs one at a time (R222, R235). A TMAP holds up no other record (R227). -/
def mayStart (before : List Rec) (x : Rec) : Bool :=
  let mine := before.filter fun r => r.source == x.source && r.level == x.level
  x.phase == .queued && (mine.all fun r => r.phase != .queued && r.topc != 20) && (x.topc != 20 || mine.isEmpty) &&
    (match x.level with
      | .core _ => before.all fun r => r.level != x.level || (r.topc == 5 && r.phase != .queued)
      | _ => true)

/-- The place of a source in the turn of a level: contexts by number, windows, the parent, which hands down every record that the level has not accepted itself (R222, R256, log 14). -/
def Rec.turnKey (x : Rec) (own : Bool) : Nat :=
  match x.source with
  | .context g c => if own then 4 * g + c else 2 ^ 14
  | .window n => if own then 2 ^ 13 + n else 2 ^ 14

/-- Of the records in hand, the first of each source, in ascending source order (R256). -/
def oneEach (key : Rec → Nat) (l : List Rec) : List Rec :=
  let first := l.foldl (fun acc r => if acc.any fun q => key q == key r then acc else acc ++ [r]) ([] : List Rec)
  sortBy (fun a b => decide (key a ≤ key b)) first

/-- Those of a turn that goes on after the source served last: the sources above it first, then the others (R256). -/
def inTurnOrder (key : Rec → Nat) (last : Option Nat) (l : List Rec) : List Rec :=
  let later (r : Rec) : Bool := last.any fun k => decide (k < key r)
  (l.filter later) ++ (l.filter fun r => !later r)

/-- The level serves its sources in turn: a lodge or an arbour. -/
def LevelAt.inTurn (l : LevelAt) : Bool := match l with | .die _ | .pav _ => true | _ => false

/-- The records that start in this cycle: at the package and at cores in acceptance order, at a lodge or an arbour one of each source in ascending source order (R222, R256). -/
def Sys.startRecs (s : Sys) : Sys :=
  let s := (s.pkg.recs.foldl (fun (acc : Sys × List Rec) x =>
    let s := if !x.level.inTurn && mayStart acc.2 x then acc.1.startRec x else acc.1
    (s, acc.2 ++ (match s.rec? x.id with | some r => [r] | none => []))) (s, [])).1
  let levels := (s.pkg.recs.filter fun x => x.level.inTurn).foldl (fun l x => if l.contains x.level then l else l ++ [x.level]) ([] : List LevelAt)
  levels.foldl (fun s l =>
    let able := (s.pkg.recs.filter fun x => x.level == l && mayStart (s.pkg.recs.takeWhile fun r => r.id != x.id) x)
    (oneEach (·.turnKey true) able).foldl (fun s x => s.startRec x) s) s

/-! ## Blocks go to cores (R236, R239, R240) -/

/-- A block that a core holds. -/
def Leaf.heldBy (l : Leaf) (g : Nat) : Bool := l.core == some g && l.out.isNone

/-- A core holds neither a task nor a Camvel record. -/
def Sys.coreFree (s : Sys) (g : Nat) : Bool :=
  ((s.core g).ctxs.toList.all fun k => k.state == .idle) && s.pkg.recs.all fun r => r.level != .core g && r.leaves.all fun l => !l.heldBy g

/-- The free core of lowest number of a pavilion. -/
def Sys.freeCore (s : Sys) (p : Nat) : Option Nat := ((List.range 128).map fun c => 128 * p + c).find? s.coreFree

/-- The next block of a record for a pavilion. -/
def Rec.nextLeaf (x : Rec) (p : Nat) : Option Nat :=
  (List.range x.leaves.length).find? fun i => match x.leaves[i]? with | some l => l.pav == p && l.core.isNone && !l.gone | none => false

/-- A core's own check of its block (R220, R230, R323). -/
def Rec.coreFault (x : Rec) (c : Cut) (g : Nat) : Option TreeFault :=
  let wide (n : Nat) : Bool := !x.isPlan n && !(x.topc == 10 && n == 1) && decide (128 < (if x.splits.contains n && x.axis == 1 then c.len else (x.operand n).cols))
  if (x.staged.any wide) || !x.coreSized (if x.topc = 10 ∧ x.axis = 0 then c.len else x.a.rows) then
    some { spot := (LevelAt.core g).spot 0, mst := 5, cls := 3, code := 2 }
  else none

/-- The whole of a core's resources: the windows of a timed task, and of a block. -/
def wholeWindow : Window := { vwin := 64, lbanks := 4, tcount := 64, tqueue := 32, opmem := 131072, accmem := 16384 }

/-- The writes of an arbour's copies into a core's scratchpad, absent rows after each (R239). -/
def Sys.stageCore (s : Sys) (x : Rec) (c : Cut) (g : Nat) (rows : Nat → List (List Byte)) : Sys × List Write :=
  (s.arbourOffsets x c g).foldl (fun acc q =>
    if !x.reads q.1 then acc
    else
      let pad := (List.range (x.padRows q.1 c)).flatMap fun _ => (x.operand q.1).absentCols (x.piece q.1 c).nc
      let r := acc.1.arrive g q.2 ((rows q.1).flatten ++ pad)
      (r.1, acc.2 ++ r.2)) (s, [])

/-- The rows of operand n of a block, as its arbour, or its core for one that lies there, reads them; the reader is named (R312). -/
def Sys.readBlock (s : Sys) (m : Memory) (x : Rec) (c : Cut) (g n : Nat) : Sys × Except (Trouble × Spot × Nat) (List (List Byte)) :=
  if !x.reads n then (s, .ok [])
  else
    match x.lodgeHolds (dieOf g) n with
    | some h => (s, .ok ((x.siteIn n h.1 c).map fun p => (h.2.drop p.1).take p.2))
    | none =>
      let r := s.readSpans m (x.operand n).kind g (x.site n c)
      let who : Spot × Nat := if (x.arbourTakes c g).contains n then ((LevelAt.pav (pavOf g)).spot 0, 5) else ((LevelAt.core g).spot 0, 1)
      (r.1, match r.2 with | .ok rows => .ok rows | .error t => .error (t, who))

/-- The lodge of a block's die has its copies in place: at the first block of the die it makes them. The state, the writes, whether the block can be delivered. -/
def Sys.lodgeReady (s : Sys) (m : Memory) (x : Rec) (d : Nat) : Sys × List Write × Bool :=
  match x.dieCut d with
  | none => (s, [], true)
  | some c =>
    if x.lodged.contains d then (s, [], true)
    else
      match s.lodgeFault x d c with
      | some f => (s.treeFault x f, [], false)
      | none =>
        let r := s.lodgeCopies m x d c
        match r.2 with
        | .error t => (r.1.troubled x t ((LevelAt.die d).spot 0, 5), [], false)
        | .ok ws => (r.1.modRec x.id fun q => { q with lodged := q.lodged ++ [d], held := q.held ++ ws.1 }, ws.2, true)

/-- Block i of a record goes to core `g`: the lodge's copies, the arbour's, the core's check; then context 0 of the core runs it, its flags clear (R236, R239, R240, R241). -/
def Sys.deliver (s : Sys) (m : Memory) (x : Rec) (i g : Nat) : Sys × List Write :=
  let c := x.cuts.getD i ⟨[], 0, 0, 0⟩
  let l := s.lodgeReady m x (dieOf g)
  if !l.2.2 then (l.1, l.2.1)
  else
    let x := (l.1.rec? x.id).getD x
    match l.1.arbourFault x c g with
    | some f => (l.1.treeFault x f, l.2.1)
    | none =>
      let ra := l.1.readBlock m x c g 1
      let rb := ra.1.readBlock m x c g 2
      match ra.2, rb.2 with
      | .error t, _ => (ra.1.troubled x t.1 t.2, l.2.1)
      | .ok _, .error t => (rb.1.troubled x t.1 t.2, l.2.1)
      | .ok a, .ok b =>
        let q := rb.1.stageCore x c g fun n => if n = 1 then a else b
        let ws := l.2.1 ++ q.2
        match x.coreFault c g with
        | some f => (((q.1.treeFault x f).modRec x.id fun r => { r with leaves := r.leaves.modify i fun l => { l with gone := true } }), ws)
        | none =>
          let t := q.1.latency
          let y := t.2.modRec x.id fun r =>
            { r with leaves := r.leaves.modify i fun l => { l with core := some g, due := some (s.run + t.1 + x.cycles (x.piece 1 c) (x.piece 0 c)), a := a, b := b } }
          (y.modCtx g 0 fun k => { k with win := wholeWindow, regs := { k.regs with flags := Vector.replicate 18 0, rm := x.rm } }, ws)

/-- BLOCK_DELIVERY: the arbour delivers the next block of a record to the free core of lowest number (R236). -/
def execBlockDelivery (id : Nat) (pav : BitVec 3) (s : State) : Host.Outcome State Fault Refusal :=
  s.event fun y =>
    match y.rec? id with
    | none => (y, [])
    | some x =>
      match x.nextLeaf pav.toNat, y.freeCore pav.toNat with
      | some i, some g =>
        if x.phase == .running && !x.parked then
          let p := pav.toNat
          ({ y with pkg := { y.pkg with turns := vset y.pkg.turns p (some (x.turnKey (x.level == .pav p))) } } : Sys).deliver s.mem x i g
        else (y, [])
      | _, _ => (y, [])

/-- Deliveries that can happen in this cycle: at each arbour one of each source, the turn going on where the cycle before left it, in ascending source order (R236, R256). -/
def Sys.deliveries (s : Sys) : List Instr :=
  let running := s.pkg.recs.filter fun x => x.phase == .running && !x.parked
  ((List.range 8).map (BitVec.ofNat 3)).flatMap fun p =>
    let mine := running.filter fun x => (x.nextLeaf p.toNat).isSome
    if mine.isEmpty || (s.freeCore p.toNat).isNone then []
    else
      let key (x : Rec) : Nat := x.turnKey (x.level == .pav p.toNat)
      (inTurnOrder key (vget s.pkg.turns p.toNat) (oneEach key mine)).map fun x => .blockDelivery x.id p

/-- A block is done: its core has run it and its level has dealt with what it gave, or it is never delivered. -/
def Leaf.done (l : Leaf) : Bool := l.gone || (l.out.isSome && l.back)

/-- The blocks of a record are done: what its levels then do takes an off-core time more (R239). -/
def Sys.gather (s : Sys) : Sys :=
  s.pkg.recs.foldl (fun s x =>
    if x.phase == .running && x.due.isNone && !x.parked && !x.leaves.isEmpty && x.leaves.all Leaf.done then
      let t := s.latency
      t.2.modRec x.id fun r => { r with due := some (s.run + t.1) }
    else s) s

/-! ## What a block does in its core (R228, R240, R241) -/

/-- A renormalised row in an expansion tile: the drift register, and whether its limit is exceeded with `dfault` set (R89, R228). -/
def Sys.driftRow (s : Sys) (g x n : Nat) (factor : W32) : Sys × Bool :=
  let k := s.ctx g x
  let d := vget k.drift n
  let beyond := driftMore factor k.driftLimit
  (s.modCtx g x fun k => { k with drift := vset k.drift n ⟨if driftMore factor d.gmax then factor else d.gmax, d.exceeded || beyond⟩ }, beyond && k.dfault)

/-- The drift registers after a block, and the fault of the context that ran it. -/
def Sys.driftAll (s : Sys) (g x : Nat) (out : LeafOut) : Sys × List TreeFault :=
  let d := out.factors.foldl (fun (acc : Sys × Bool) f => let q := acc.1.driftRow g x f.1 f.2; (q.1, acc.2 || q.2)) (s, false)
  (d.1, if d.2 then [{ spot := (LevelAt.core g).spot x, mst := 0, cls := 9, code := 1, info := expansionFga 6 }] else [])

/-- Rows that pass through tile buffers T`first` and T`first + 1` in turn: what the buffers hold at the end (R241). -/
def bufferWrites (g vbase first w : Nat) (rows : List (List Byte)) : List Write :=
  let rho := tileRows w
  let n := (rows.length + rho - 1) / rho
  ((List.range n).drop (n - 4)).flatMap fun i =>
    let part := (rows.drop (i * rho)).take rho
    (List.range part.length).flatMap fun r => writeRow g (vbase + 4 * (first + i % 2)) r w (bytesRow w (part.getD r []))

/-- What the expansion leaves in the engine memories, the latch banks and T12 to T15 of the context that runs it, as far as its windows reach (R240, R241, log 14). -/
def Rec.residue (x : Rec) (g : Nat) (w : Window) (c : Cut) (a b : List (List Byte)) (out : LeafOut) : List Write :=
  let pad (o : Operand) (n : Nat) (rows : List (List Byte)) : List (List Byte) := rows.map fun r => r ++ o.absentCols (128 - n)
  let put (n : Nat) : List (List Byte) := (out.puts.filter (·.operand == n)).map (·.data)
  let tiles (first : Nat) (o : Operand) (n : Nat) (rows : List (List Byte)) : List Write :=
    match o.fmt with
    | .q _ => []
    | f => if w.vwin = 64 ∧ (f.width = 8 ∨ f.width = 16 ∨ f.width = 32 ∨ f.width = 64) then bufferWrites g w.vbase first f.width (pad o n rows) else []
  let nd := (x.piece 0 c).nc
  match x.topc with
  | 6 | 7 =>
    let raw := b.flatten
    let images := (raw.take (2048 * x.b.rows))
    [.put (angleKey g 0) images] ++ (if bit x.w7 4 then [.put (scaleKey g 0) (raw.drop (2048 * x.b.rows))] else []) ++
      ((List.range (Nat.min x.b.rows w.lbanks)).map fun k => .put (latchKey g (w.lbase + k) 0) ((images.drop (2048 * k)).take 2048)) ++
      tiles 12 x.a 128 a ++ tiles 14 x.dst 128 (put 0)
  | 8 | 9 =>
    let stream := if x.topc = 8 then (put 2).flatten else b.flatten
    let n := (a.length + 63) / 64
    [.put (angleKey g 0) (stream.take (2 ^ 18))] ++ tiles 12 x.a 128 a ++ tiles 14 x.a 128 (put 1) ++
      (if w.vwin = 64 then (List.range 8).flatMap fun r => writeRow g (w.vbase + 4 * (14 + n % 2)) r 32 (bytesRow 32 ((put 0).getD r [])) else [])
  | 10 =>
    let cells := (List.range out.entries.length).flatMap fun i => let r := out.entries.getD i []; (List.range r.length).map fun j => (128 * i + j, r.getD j default)
    [.put (operandKey g w.opbase) (a.flatten.take w.opmem)] ++ tiles 12 x.b (x.piece 2 c).nc b ++
      ((cells.filter fun e => decide (e.1 < w.accmem)).map fun e => .put (accKey g (w.accbase + e.1)) (entryBytes e.2)) ++ tiles 14 x.dst nd (put 0)
  | 11 | 12 | 13 | 14 | 15 | 16 => tiles 12 x.a (x.piece 1 c).nc a ++ tiles 14 x.dst nd (put 0)
  | _ => []

/-- The pointers that the commands of an expansion use (R240), by the codes of R106. -/
def Rec.scratchPointers (x : Rec) : List Nat :=
  match x.topc with
  | 6 | 7 => if bit x.w7 4 then [19, 20] else [19]
  | 8 | 9 => [19]
  | 10 => [24, 28]
  | _ => []

/-- Registers that an expansion uses and whose values after it the spec does not state: the addresses of AP3, ZP0, OP0 and CP0, and CN of the lane groups. Each becomes a free value, which equal records on equal data leave equal (R13, R240, log 14). -/
def Sys.scramble (s : Sys) (g x : Nat) (r : Rec) (rows : List (List Byte)) : Sys :=
  let q := r.record
  let left (n : Nat) (old : Word) : Word := Config.expansionLeaves [q.w0, q.w1, q.w2, q.w3, q.w4, q.w5, q.w6, q.w7] rows n old
  let s := s.modRegs g x fun k => { k with ptr := r.scratchPointers.foldl (fun v n => vmod v n fun p => { p with addr := (left n (p.addr.setWidth 64)).setWidth 28 }) k.ptr }
  if 11 ≤ r.topc ∧ r.topc ≤ 16 then
    s.modRegs g x fun k => { k with lane := Vector.ofFn fun lg : Fin 8 =>
      let l := vget k.lane lg
      { l with cn := Vector.ofFn fun b : Fin 16 => (left (32 + 16 * lg.val + b.val) ((vget l.cn b).setWidth 64)).setWidth 32 } }
  else s

/-! ## The effect of a record above the core (R238, R239, R309, R310) -/

/-- What a block gives waits for the other blocks: TSCATTER's rows, and a destination that coincides with an A that goes whole to every child (R224, R233). -/
def Rec.defers (x : Rec) : Bool := x.topc == 16 || (x.coincide && x.used.contains 1 && !x.splits.contains 1)

/-- Where the bytes of a put stand in a packed copy of a block. -/
def Rec.putOffset (x : Rec) (c : Cut) (p : Put) : Nat :=
  let q := x.piece p.operand c
  (p.row - q.r0) * q.len + (p.off - q.off)

/-- A core is done with block i: its flags, drift and resources stand in its context 0, and its results in the scratchpad where the arbour will find them (R228, R239 to R241). -/
def Sys.settleLeaf (s : Sys) (x : Rec) (i : Nat) (l : Leaf) : Sys × List Write :=
  let g := l.core.getD 0
  let c := x.cuts.getD i ⟨[], 0, 0, 0⟩
  let out := x.leaf c (x.piece 1 c) (x.piece 0 c) l.a l.b
  let s := s.modRegs g 0 fun q => { q with flags := out.flags.foldl (fun fs f => vmod fs f.1 fun p => p ||| f.2) q.flags }
  let d := s.driftAll g 0 out
  let s := d.2.foldl (fun s f => s.treeFault x f) (d.1.scramble g 0 x (l.a ++ l.b))
  let offs := s.arbourOffsets x c g
  let copy := out.puts.foldl (fun (acc : Sys × List Write) p =>
    match offs.find? (·.1 == p.operand) with
    | some q => let r := acc.1.arrive g (q.2 + x.putOffset c p) p.data; (r.1, acc.2 ++ r.2)
    | none => acc) (s, [])
  (copy.1.modRec x.id fun r => { r with leaves := r.leaves.modify i fun l => { l with out := some out, back := x.defers, a := [], b := [] } },
   x.residue g (s.ctx g 0).win c l.a l.b out ++ copy.2)

/-- The bytes that block i puts back: none once a fault is known below the level that copies them back (R309, R310). -/
def Rec.returns (x : Rec) (c : Cut) : Bool :=
  let p := x.spotAt c.path
  match x.level with
  | .core _ | .pav _ => x.faults.isEmpty
  | _ =>
    !(x.faults.any fun f => 2 ≤ f.spot.depth && f.spot.pav == p.pav) &&
      (ownerCode x.dst.addr == p.die || !(x.faults.any fun f => 1 ≤ f.spot.depth && f.spot.die == p.die))

/-- The level that copies a destination back: the arbour into its die's slice, the lodge beyond it (R239, R312). -/
def Rec.writer (x : Rec) (c : Cut) : Spot × Nat :=
  let p := x.spotAt c.path
  match x.level with
  | .core g => ((LevelAt.core g).spot x.ctx, 1)
  | .pav _ => (x.spotAt [], 5)
  | _ => if ownerCode x.dst.addr = p.die then ({ p with depth := 2, core := 0 }, 5) else ({ depth := 1, die := p.die }, 5)

/-- What block i gave is copied back: into the lodge's window where the lodge holds that block, then to its place (R239). -/
def Sys.copyBack (s : Sys) (m : Memory) (x : Rec) (i : Nat) (l : Leaf) (out : LeafOut) : Sys × List Write :=
  let c := x.cuts.getD i ⟨[], 0, 0, 0⟩
  let g := l.core.getD 0
  let end_ (s : Sys) : Sys := s.modRec x.id fun r => { r with leaves := r.leaves.modify i fun l => { l with back := true } }
  if !x.returns c then (end_ s, [])
  else
    let d := dieOf g
    let lodge := out.puts.foldl (fun (acc : Sys × Except Trouble (List Write)) p =>
      match acc.2, (x.dieCut d).bind fun whole => ((s.lodgeOffsets x d whole).find? (·.1 == p.operand)).map fun q => (whole, q.2) with
      | .ok ws, some w =>
        let r := acc.1.putSpan m 0 g ((vget s.pkg.lodges d).base + BitVec.ofNat 64 (w.2 + x.putOffset w.1 p)) p.data
        (r.1, match r.2 with | .ok v => .ok (ws ++ v) | .error t => .error t)
      | _, _ => acc) (s, .ok [])
    let r : Sys × Except Trouble (List Write) := match lodge.2 with
      | .error t => (lodge.1, .error t)
      | .ok ws => let q := lodge.1.putAll m g 0 x out.puts; (q.1, match q.2 with | .ok v => .ok (ws ++ v) | .error t => .error t)
    match r.2 with
    | .ok ws => (end_ r.1, ws)
    | .error t => if t.waits then (s.troubled x t (x.writer c), []) else (end_ (r.1.troubled x t (x.writer c)), [])

/-- Block i goes on: its core ends it, and its level copies it back. -/
def Sys.stepLeaf (s : Sys) (m : Memory) (id i : Nat) : Sys × List Write :=
  let ready (s : Sys) : Option (Rec × Leaf) := (s.rec? id).bind fun x => if x.parked then none else (x.leaves[i]?).map fun l => (x, l)
  let a : Sys × List Write := match ready s with
    | some (x, l) => if l.core.isSome && l.out.isNone && !l.gone && l.due.any fun t => decide (t ≤ s.run) then s.settleLeaf x i l else (s, [])
    | none => (s, [])
  match ready a.1 with
  | some (x, l) =>
    match l.out with
    | some out => if l.back then a else let r := a.1.copyBack m x i l out; (r.1, a.2 ++ r.2)
    | none => a
  | none => a

/-- The accepting level's own part, once every block is done: what waited, the combine of C instructions, the ring of TALLRED; none of it after a fault (R238, R265, R309). -/
def Sys.rootEffect (s : Sys) (m : Memory) (x : Rec) : Sys × List Write :=
  let outs := x.leaves.map fun l => l.out.getD {}
  let g := match x.level with | .pav p => 128 * p | _ => 0
  let puts := (if x.defers then outs.flatMap (·.puts) else []) ++ x.rootPuts x.cuts outs
  if !x.faults.isEmpty then (s.finishRec x [], [])
  else
    let r := s.putAll m g 0 x puts
    match r.2 with
    | .ok ws => (r.1.finishRec x [], ws)
    | .error t =>
      let who : Spot × Nat := match x.level with | .pav _ | .die _ => (x.spotAt [], 5) | _ => ({ depth := 0 }, 5)
      if t.waits then (s.stickRec x t who, [])
      else
        let f : TreeFault := { spot := who.1, mst := who.2, cls := t.cls, code := t.code, addr := t.va }
        ((r.1.heed x f).finishRec x [f], [])

/-- A record above the core goes on: blocks that are ready, then, when its time has come and all are done, its root. -/
def Sys.treeEffect (s : Sys) (m : Memory) (x : Rec) : Sys × List Write :=
  let r := (List.range x.leaves.length).foldl (fun (acc : Sys × List Write) i => let q := acc.1.stepLeaf m x.id i; (q.1, acc.2 ++ q.2)) (s, [])
  match r.1.rec? x.id with
  | none => r
  | some y =>
    if y.parked then r
    else if !y.leaves.all Leaf.done then (r.1.modRec x.id fun q => { q with due := none }, r.2)
    else if y.due.any fun t => decide (t ≤ s.run) then let q := r.1.rootEffect m y; (q.1, r.2 ++ q.2)
    else r

/-! ## The effect of a core's own record (R240, R241, R312) -/

/-- A core's record ends, with the faults that its lane groups and engines met, all of them collected (R309): operands are read, results written, flags, drift and resources settle; its copy engine makes the accesses, and none while it is frozen. -/
def Sys.coreEffect (s : Sys) (m : Memory) (x : Rec) (g : Nat) : Sys × List Write :=
  let c : Cut := ⟨[], 0, x.extent, x.extent⟩
  let who : Spot := (LevelAt.core g).spot x.ctx
  let stop (s : Sys) (found : List TreeFault) (ts : List Trouble) : Sys × List Write :=
    match ts.find? Trouble.waits with
    | some t => (s.stickRec x t (who, 1), [])
    | none =>
      let fs := ts.map fun t => ({ spot := match t.lg with | some n => who.lane n | none => who, mst := 1, cls := t.cls, code := t.code, addr := t.va, info := expansionFga 5 } : TreeFault)
      ((fs.foldl (fun s f => s.heed x f) s).finishRec x (found ++ fs), [])
  if (s.core g).frozenCopy then (s.modRec x.id fun r => { r with due := some (s.run + 1) }, [])
  else
    let a := s.readOperand m g x.ctx x 1 c
    let b := a.1.readOperand m g x.ctx x 2 c
    match a.2, b.2 with
    | .error _, _ | .ok _, .error _ => stop b.1 [] (s.readTroubles g x.ctx x 1 c a.2 ++ s.readTroubles g x.ctx x 2 c b.2)
    | .ok ra, .ok rb =>
      let out := x.leaf c (x.piece 1 c) (x.piece 0 c) ra rb
      let d := b.1.driftAll g x.ctx out
      let put := d.1.putAll m g x.ctx x (if d.2.isEmpty then out.puts ++ x.rootPuts [c] [out] else [])
      match put.2 with
      | .error t => stop (if t.waits then s else put.1) d.2 [t]
      | .ok ws =>
        let s := (out.flags ++ x.rootFlags [out]).foldl (fun s f => s.raise g x.ctx f.1 f.2 0) put.1
        let s := s.scramble g x.ctx x (ra ++ rb)
        (s.finishRec x d.2, x.residue g (s.ctx g x.ctx).win c ra rb out ++ ws)

/-- The effect of a record, or what of it is ready. -/
def Sys.effect (s : Sys) (m : Memory) (x : Rec) : Sys × List Write :=
  match x.level with
  | .core g => s.coreEffect m x g
  | _ => s.treeEffect m x

/-- A record has something to do in this cycle: its effect is due, or a block is. -/
def Rec.ready (x : Rec) (run : Nat) : Bool :=
  x.phase == .running && !x.parked &&
    ((x.due.any fun t => decide (t ≤ run)) ||
      x.leaves.any fun l => (l.out.isSome && !l.back) || (l.core.isSome && l.out.isNone && !l.gone && l.due.any fun t => decide (t ≤ run)))

/-- The record, if it has something to do. -/
def Sys.recDue (s : Sys) (id : Nat) : Option Rec := (s.rec? id).bind fun x => if x.ready s.run then some x else none

/-- A record whose effect is due has it, and its completion follows in this cycle. `r` is the record; another's number does nothing. -/
def State.record (s : State) (id : Nat) (r : CamvelRecord) (effect : Sys → Memory → Rec → Sys × List Write) : Host.Outcome State Fault Refusal :=
  s.event fun y =>
    match y.recDue id with
    | some x =>
      if x.record = r then
        let o := effect y s.mem x
        (if (o.1.rec? id).any fun q => q.phase == .done && (q.topc != 5) then o.1.happens (.camvelRecordComplete id) else o.1, o.2)
      else (y, [])
    | none => (y, [])

/-- TLOAD (R225). -/
def execTload (id : Nat) (r : CamvelRecord) (s : State) : Host.Outcome State Fault Refusal := s.record id r Sys.effect

/-- TSTORE (R225). -/
def execTstore (id : Nat) (r : CamvelRecord) (s : State) : Host.Outcome State Fault Refusal := s.record id r Sys.effect

/-- TCOPY (R225). -/
def execTcopy (id : Nat) (r : CamvelRecord) (s : State) : Host.Outcome State Fault Refusal := s.record id r Sys.effect

/-- TFILL (R226). -/
def execTfill (id : Nat) (r : CamvelRecord) (s : State) : Host.Outcome State Fault Refusal := s.record id r Sys.effect

/-- TROT (R228). -/
def execTrot (id : Nat) (r : CamvelRecord) (s : State) : Host.Outcome State Fault Refusal := s.record id r Sys.effect

/-- TROTR (R228). -/
def execTrotr (id : Nat) (r : CamvelRecord) (s : State) : Host.Outcome State Fault Refusal := s.record id r Sys.effect

/-- TQR (R229). -/
def execTqr (id : Nat) (r : CamvelRecord) (s : State) : Host.Outcome State Fault Refusal := s.record id r Sys.effect

/-- TAPPLY (R229). -/
def execTapply (id : Nat) (r : CamvelRecord) (s : State) : Host.Outcome State Fault Refusal := s.record id r Sys.effect

/-- TDOT (R230). -/
def execTdot (id : Nat) (r : CamvelRecord) (s : State) : Host.Outcome State Fault Refusal := s.record id r Sys.effect

/-- TRED (R231). -/
def execTred (id : Nat) (r : CamvelRecord) (s : State) : Host.Outcome State Fault Refusal := s.record id r Sys.effect

/-- TNORM (R231). -/
def execTnorm (id : Nat) (r : CamvelRecord) (s : State) : Host.Outcome State Fault Refusal := s.record id r Sys.effect

/-- TTOPK (R232). -/
def execTtopk (id : Nat) (r : CamvelRecord) (s : State) : Host.Outcome State Fault Refusal := s.record id r Sys.effect

/-- TCONV (R233). -/
def execTconv (id : Nat) (r : CamvelRecord) (s : State) : Host.Outcome State Fault Refusal := s.record id r Sys.effect

/-- TGATHER (R233). -/
def execTgather (id : Nat) (r : CamvelRecord) (s : State) : Host.Outcome State Fault Refusal := s.record id r Sys.effect

/-- TSCATTER (R233). -/
def execTscatter (id : Nat) (r : CamvelRecord) (s : State) : Host.Outcome State Fault Refusal := s.record id r Sys.effect

/-- TALLRED (R234). -/
def execTallred (id : Nat) (r : CamvelRecord) (s : State) : Host.Outcome State Fault Refusal := s.record id r Sys.effect

/-- TBCAST (R234). -/
def execTbcast (id : Nat) (r : CamvelRecord) (s : State) : Host.Outcome State Fault Refusal := s.record id r Sys.effect

/-! ## TFLIPV (R235, R277) -/

/-- The pages of a TFLIPV: the first, and how many. -/
def Rec.flipRange (x : Rec) : Nat × Nat := (pageOf x.dst.addr, x.w7.toNat / 2 ^ 21)

/-- The table entries of twin pages in a range of an owner: key, 1 GiB page, first page. -/
def Owner.twins (w : Owner) (m : Memory) (o first n : Nat) : List (Nat × Bool × Nat) :=
  (List.range (Nat.min n (2 ^ 27 - first))).filterMap fun i =>
    let page := first + i
    match leafKey m o w.ptb (BitVec.ofNat 64 (page * 2 ^ 21)) with
    | some (k, large) => if bit (m.word k) 5 && (!large || page % 512 == 0 || i == 0) then some (k, large, page) else none
    | none => none

/-- The entry's page lies wholly in the range. -/
def wholly (first n : Nat) (t : Nat × Bool × Nat) : Bool := !t.2.1 || (t.2.2 % 512 == 0 && decide (first ≤ t.2.2) && decide (t.2.2 + 512 ≤ first + n))

/-- TLB entries of a range are dropped. -/
def Owner.dropRange (w : Owner) (first n : Nat) : Owner :=
  { w with tlb := w.tlb.filter fun e =>
      let lo := if e.large then e.page / 512 * 512 else e.page
      let hi := if e.large then lo + 512 else lo + 1
      decide (hi ≤ first) || decide (first + n ≤ lo) }

/-- TFLIPV: the owner marks the range and drops its TLB entries; later the selectors of its twin entries flip and the mark clears (R277). -/
def Sys.flip (s : Sys) (m : Memory) (x : Rec) : Sys × List Write :=
  let o := ownerIndex (ownerCode x.dst.addr)
  let r := x.flipRange
  let w := vget s.pkg.owners o
  let twins := w.twins m o r.1 r.2
  let setOwner (s : Sys) (w : Owner) : Sys := { s with pkg := { s.pkg with owners := vset s.pkg.owners o w } }
  if !x.marked then
    if twins.any fun t => !wholly r.1 r.2 t then (s.finishRec x [x.ownFault (3, 2) x.dst.addr], [])
    else if w.flipping.isSome then (s.modRec x.id fun q => { q with due := some (s.run + 1) }, [])
    else
      let t := s.latency
      ((setOwner t.2 { w.dropRange r.1 r.2 with flipping := some (r.1, r.1 + r.2) }).modRec x.id fun q => { q with marked := true, due := some (s.run + t.1) }, [])
  else
    ((setOwner s { w.dropRange r.1 r.2 with flipping := none }).finishRec x [],
     twins.map fun t => .put t.1 (leBytes 1 (((m.word t.1).toNat % 256) ^^^ 64)))

/-- TFLIPV (R235, R277). -/
def execTflipv (id : Nat) (r : CamvelRecord) (s : State) : Host.Outcome State Fault Refusal := s.record id r Sys.flip

/-- TBAR: it is the first of its source, so every record before it has completed (R235). -/
def execTbar (id : Nat) (r : CamvelRecord) (s : State) : Host.Outcome State Fault Refusal := s.record id r fun y _ x => (y.finishRec x [], [])

/-! ## Completion (R223, R257, R268, R310) -/

/-- The digest of a TMAP that completed without a fault (R268). -/
def Sys.recDigest (s : Sys) (x : Rec) : Option (List Byte) :=
  if x.topc = 5 ∧ !x.discarded ∧ x.fault.isNone then
    (x.spread.bind s.spreadOf).map fun p => shake256 (p.members.flatMap (·.digest))
  else none

/-- A TMAP that advances a chain completes after every TMAP accepted before it from its source; one that faulted or is discarded advances nothing and does not wait (R268, R310). -/
def Sys.mayComplete (s : Sys) (x : Rec) : Bool :=
  x.phase == .done && (x.topc != 5 || x.discarded || x.fault.isSome || !(s.pkg.recs.any fun r => r.source == x.source && r.topc == 5 && decide (r.id < x.id)))

/-- The digest joins the window's chain, or the issuing task's state (R268). -/
def Sys.absorbDigest (s : Sys) (src : Source) (d : List Byte) : Sys :=
  match src with
  | .context g x => s.modCtx g x fun k => { k with sponge := k.sponge.absorb d }
  | .window n =>
    let w := vget s.pkg.wins n
    let h := words64 4 (shake256 (bytes64 w.h.toList ++ d))
    { s with pkg := { s.pkg with wins := vset s.pkg.wins n { w with h := Vector.ofFn fun i : Fin 4 => h.getD i 0 } } }

/-- The completion increment: of the issuing context under R214, or of the window in the next cycle (R223, R257). -/
def Sys.linkUp (s : Sys) (x : Rec) : Sys :=
  if !x.lnk then s
  else
    match x.source with
    | .context g c => s.post g c (s.wcyc + 1) 8 s.ord (.tcAdd x.link 1)
    | .window n => { s with pkg := { s.pkg with wins := vmod s.pkg.wins n fun w => { w with pend := w.pend ++ [x.link] } } }

/-- CAMVEL_RECORD_COMPLETE: the fault record is written, then the digest is absorbed, then the counter counts (R223, R268, R310). -/
def execCamvelRecordComplete (id : Nat) (s : State) : Host.Outcome State Fault Refusal :=
  s.event fun y =>
    match y.rec? id with
    | none => (y, [])
    | some x =>
      if y.mayComplete x then
        let d := y.recDigest x
        let y := match x.fault with | some f => y.writeTfr x.source f | none => y
        let y := match d with | some d => y.absorbDigest x.source d | none => y
        let y := y.linkUp x
        ({ y with pkg := { y.pkg with recs := y.pkg.recs.filter fun r => r.id != id, spreads := y.pkg.spreads.filter fun p => some p.id != x.spread } }, [])
      else (y, [])

/-- Records whose effect or completion is due in this cycle. -/
def Sys.recordEvents (s : Sys) : List Instr :=
  s.pkg.recs.filterMap fun x =>
    if (s.recDue x.id).isSome then decodeRecord x.id x.record
    else if s.mayComplete x then some (.camvelRecordComplete x.id) else none

end Sys2Proof.Machine
end

