-- ==== Sys2Proof/Machine/Launch.lean ====
section
/-! DEFINITION. Launching a kernel: the image's checks (R14 to R16, R324), placement of its tasks (R17, R19, R227), and the state at task start (R18). -/

namespace Sys2Proof.Machine

/-! ## The image (R14, R15) -/

/-- `n` little-endian bytes of an image at an offset. -/
def imageField (img : List Byte) (off n : Nat) : Nat := leNat ((img.drop off).take n)

/-- A loop-table entry as the image holds it: count word, budget word, flags, the seven bytes after them. -/
structure TableEntry where
  count : Nat
  budget : Nat
  flags : Nat
  rest : Nat
  deriving DecidableEq, Repr, Inhabited

def tableEntry (img : List Byte) (i : Nat) : TableEntry :=
  let o := 0x30 + 16 * i
  ⟨imageField img o 4, imageField img (o + 4) 4, imageField img (o + 8) 1, imageField img (o + 9) 7⟩

def TableEntry.kind (e : TableEntry) : LevelKind := match e.flags % 4 with | 0 => .temporal | 1 => .cores | _ => .dies

def TableEntry.cparam (e : TableEntry) : Bool := e.flags / 8 % 2 == 1

/-- The entry's level, its count drawn from the launch parameters where it says so (R15, R16). -/
def TableEntry.level (e : TableEntry) (params : List Word) : Level :=
  { kind := e.kind, interlocked := e.flags / 4 % 2 == 1, count := if e.cparam then fld (params.getD (e.count % 8) 0) 0 32 else e.count, budget := e.budget % 2 ^ 24 }

/-- Limits of an entry in use (R15, R16, R324). -/
def TableEntry.ok (e : TableEntry) (params : List Word) : Bool :=
  let l := e.level params
  decide (e.flags < 16) && e.flags % 4 != 3 && e.rest == 0 && decide (e.budget < 2 ^ 24) && (!e.cparam || decide (e.count < 8)) &&
    (match l.kind with
      | .temporal => decide (1 ≤ l.budget)
      | .cores => l.budget == 0 && !l.interlocked && decide (1 ≤ l.count) && decide (l.count ≤ 256)
      | .dies => l.budget == 0 && !l.interlocked && decide (1 ≤ l.count) && decide (l.count ≤ 4))

/-- The order of kinds: dies, then cores, then temporal levels, the spatial ones once at most (R16). -/
def kindsOk : List LevelKind → Bool
  | [] => true
  | .dies :: rest => rest.all (· != .dies) && kindsOk rest
  | .cores :: rest => (rest.all fun k => k == .temporal) && kindsOk rest
  | .temporal :: rest => (rest.all fun k => k == .temporal) && kindsOk rest

/-- The kernel of an image and its launch parameters; none when the header breaks a rule of R324. -/
def kernelOf (img : List Byte) (params : List Word) : Option Kernel :=
  let f := imageField img
  let n := f 7 1
  let entries := (List.range n).map (tableEntry img)
  let levels := entries.map fun e => e.level params
  let inside (off size : Nat) : Bool := decide (off + size ≤ img.length)
  let ok :=
    decide (144 ≤ img.length) && f 0 4 == 0x5A4B0003 && f 4 2 == 1 && decide (f 6 1 ≤ 1) && decide (n ≤ 6) &&
      decide (1 ≤ f 8 4) && decide (f 8 4 < 2 ^ 24) && f 0x28 8 == 0 &&
      (entries.all fun e => e.ok params) && (((List.range 6).drop n).all fun i => tableEntry img i == ⟨0, 0, 0, 0⟩) && kindsOk (levels.map (·.kind)) &&
      (f 0x1C 1 == 16 || f 0x1C 1 == 32 || f 0x1C 1 == 64) && decide (1 ≤ f 0x1D 1) && decide (f 0x1D 1 ≤ 4) && decide (f 0x1E 1 ≤ 64) && decide (f 0x1F 1 ≤ 32) &&
      f 0x20 4 % 4096 == 0 && decide (f 0x20 4 ≤ 131072) && f 0x24 4 % 512 == 0 && decide (f 0x24 4 ≤ 16384) &&
      f 0x0C 4 % 4 == 0 && inside (f 0x0C 4) (f 0x10 4) && f 0x14 4 % 64 == 0 && inside (f 0x14 4) (f 0x18 4)
  if ok then
    some { timed := f 6 1 == 1, levels := levels, bodyBudget := f 8 4, code := (img.drop (f 0x0C 4)).take (f 0x10 4), data := (img.drop (f 0x14 4)).take (f 0x18 4),
           vwin := f 0x1C 1, lbanks := f 0x1D 1, tcount := f 0x1E 1, tqueue := f 0x1F 1, opmem := f 0x20 4, accmem := f 0x24 4, params := params, raw := img }
  else none

/-- The count of a spatial level, 1 where there is none. -/
def Kernel.spatial (k : Kernel) (kind : LevelKind) : Nat := match k.levels.find? (·.kind == kind) with | some l => l.count | none => 1

def Kernel.hasDies (k : Kernel) : Bool := k.levels.any (·.kind == .dies)

/-- The level can never place the tasks (R227). -/
def Kernel.misplaced (k : Kernel) (l : LevelAt) : Bool :=
  (l != .pkg && decide (1 < k.spatial .dies)) ||
    (match l with | .core _ => decide (1 < k.spatial .cores) | .pav _ => decide (128 < k.spatial .cores) | _ => false)

/-! ## Windows (R19) -/

/-- The lowest place for `size` units beside those in use. DESIGN CHOICE (log 71): the spec leaves the base to the lodge. -/
def fitBase (used : List (Nat × Nat)) (total size : Nat) : Option Nat :=
  let free (b : Nat) : Bool := decide (b + size ≤ total) && used.all fun u => decide (u.1 + u.2 ≤ b) || decide (b + size ≤ u.1)
  (0 :: used.map fun u => u.1 + u.2).foldl (fun best b => if free b then some (match best with | some c => Nat.min b c | none => b) else best) none

/-- A Camvel record holds the core: a block that runs there, or a record of the core's own other than a launch (R236). -/
def Sys.runsRecord (s : Sys) (g : Nat) : Bool := s.pkg.recs.any fun r => (r.leaves.any fun l => l.heldBy g) || (r.level == .core g && r.topc != 5)

/-- The context and the windows that a core can give a task (R17, R19, R227). DESIGN CHOICE (log 71): the idle context of the lowest number, windows at the lowest bases. -/
def Sys.roomFor (s : Sys) (k : Kernel) (g : Nat) : Option (Nat × Window) :=
  let c := s.core g
  let busy := c.ctxs.toList.filter fun q => q.state != .idle
  if busy.isEmpty && s.runsRecord g then none
  else if k.timed then (if busy.isEmpty then some (0, wholeWindow) else none)
  else if busy.any (·.timed) then none
  else
    match (List.range 4).find? fun x => (c.ctx x).state == .idle with
    | none => none
    | some x =>
      let used (base size : Window → Nat) : List (Nat × Nat) := (busy.filter fun q => size q.win != 0).map fun q => (base q.win, size q.win)
      let total (size : Window → Nat) : Nat := busy.foldl (fun n q => n + size q.win) 0
      match fitBase (used (·.vbase) (·.vwin)) 64 k.vwin, fitBase (used (·.lbase) (·.lbanks)) 4 k.lbanks,
            fitBase (used (·.opbase) (·.opmem)) 131072 k.opmem, fitBase (used (·.accbase) (·.accmem)) 16384 k.accmem with
      | some v, some l, some o, some a =>
        if total (·.tcount) + k.tcount ≤ 64 ∧ total (·.tqueue) + k.tqueue ≤ 32 then
          some (x, { vwin := k.vwin, vbase := v, lbanks := k.lbanks, lbase := l, tcount := k.tcount, tqueue := k.tqueue, opmem := k.opmem, opbase := o, accmem := k.accmem, accbase := a })
        else none
      | _, _, _, _ => none

/-! ## Placement (R17, R227) -/

/-- A place for a task: core, context, windows. -/
abbrev Seat := Nat × Nat × Window

/-- The first `n` seats of a pavilion in ascending core number. DESIGN CHOICE (log 71): the lodge takes the lowest-numbered cores with room. -/
def Sys.seats (s : Sys) (k : Kernel) (p n : Nat) : List Seat :=
  (((List.range 128).map fun c => 128 * p + c).filterMap fun g => (s.roomFor k g).map fun r => (g, r.1, r.2)).take n

/-- Exactly `n` of them, or none. -/
def allOf (n : Nat) (l : List Seat) : Option (List Seat) := if l.length = n then some l else none

/-- The seats of a die's tasks. In timed mode up to 128 stand in one pavilion, more fill the first (R17). DESIGN CHOICE (log 71): PV(2k) before PV(2k+1). -/
def Sys.onDie (s : Sys) (k : Kernel) (d n : Nat) : Option (List Seat) :=
  if !k.timed then allOf n ((s.seats k (2 * d) n ++ s.seats k (2 * d + 1) n).take n)
  else if n ≤ 128 then (match allOf n (s.seats k (2 * d) n) with | some l => some l | none => allOf n (s.seats k (2 * d + 1) n))
  else match allOf 128 (s.seats k (2 * d) 128), allOf (n - 128) (s.seats k (2 * d + 1) (n - 128)) with | some a, some b => some (a ++ b) | _, _ => none

/-- The seats of all tasks of a launch, die by die; none while they do not all fit (R227). -/
def Sys.placement (s : Sys) (k : Kernel) (l : LevelAt) : Option (List (List Seat)) :=
  let n := k.spatial .cores
  match l with
  | .core g => (s.roomFor k g).map fun r => [[(g, r.1, r.2)]]
  | .pav p => (allOf n (s.seats k p n)).map fun l => [l]
  | .die d => (s.onDie k d n).map fun l => [l]
  | .pkg =>
    if k.hasDies then ((List.range (k.spatial .dies)).mapM fun d => s.onDie k d n)
    else ((List.range 4).findSome? fun d => s.onDie k d n).map fun l => [l]

/-! ## Task start (R18) -/

/-- The loop stack at task start: spatial entries valid with their indices (R18). -/
def Kernel.loops (k : Kernel) (die core : Nat) : Vector LoopEntry 6 :=
  Vector.ofFn fun i : Fin 6 =>
    match k.levels[i.val]? with
    | some l => if l.kind = .temporal then {} else { index := BitVec.ofNat 32 (if l.kind = .dies then die else core), count := BitVec.ofNat 32 l.count, kind := l.kind, valid := true }
    | none => {}

/-- The context at task start. What R18 does not list takes its reset value, but for the save area's address and the tile fault record, which only a supervisor changes (log 15). -/
def Kernel.context (k : Kernel) (old : Ctx) (win : Window) (die core spread index : Nat) (mer t : Nat) : Ctx :=
  { regs := { a := Vector.ofFn fun i : Fin 32 => if i.val < 8 then k.params.getD i.val 0 else 0, loops := k.loops die core },
    state := if k.timed then .running else .ready, timed := k.timed, csab := old.csab, tfr := old.tfr, tstm := BitVec.ofNat 64 mer, win := win, readyAt := t,
    task := { code := k.code, levels := k.levels, bodyBudget := k.bodyBudget, params := k.params, spread := spread, index := index } }

/-- The vector window cleared (R18). -/
def clearWindow (g : Nat) (w : Window) : List Write := (List.range 8).map fun lg => .put (vecKey g lg w.vbase 0 0) (List.replicate (1024 * w.vwin) 0)

/-- A task takes its seat; regions that its predecessor in the context configured have lost it (R339); its data is copied to its scratchpad, and it may issue in this cycle. -/
def Sys.seatTask (s : Sys) (k : Kernel) (seat : Seat) (die core spread index : Nat) : Sys × List Write :=
  let g := seat.1
  let idle := (s.core g).ctxs.toList.all fun q => q.state == .idle
  let s := s.modCore g fun c => { c with
    aow := c.aow.map fun r => if r.owner = seat.2.1 then { r with gone := true } else r
    ctxs := vmod c.ctxs seat.2.1 fun old => k.context old seat.2.2 die core spread index s.mer (s.tick k.timed),
    free := if idle then Vector.replicate 6 0 else c.free, sel := if idle then seat.2.1 else c.sel }
  let s : Sys := { s with turn := if s.turn.contains g then s.turn else insertBy (fun a b => decide (a ≤ b)) g s.turn }
  let r := s.arrive g 0 k.data
  (r.1, r.2 ++ clearWindow g seat.2.2)

/-- The lodge of a die stages the image in its window, if it lies outside the die's slice (R227, R239): the writes, or what stops it. -/
def Sys.stageImage (s : Sys) (m : Memory) (x : Rec) (k : Kernel) (d : Nat) : Sys × Except Trouble (List Write) :=
  let l := vget s.pkg.lodges d
  if ownerCode x.a.addr = d then (s, .ok [])
  else if l.room < k.raw.length then (s, .error ⟨3, 4, x.a.addr, none⟩)
  else s.putSpan m 0 (256 * d) l.base k.raw

/-- The lodges that take part in a launch: those of the dies of its tasks, at the package and at a die. -/
def Rec.launchDies (x : Rec) (tasks : List (Seat × Nat × Nat)) : List Nat :=
  match x.level with
  | .pkg | .die _ => (List.range 4).filter fun d => tasks.any fun t => dieOf t.1.1 == d
  | _ => []

/-- Every lodge stages the image, or the first that cannot says why. -/
def Sys.stageImages (s : Sys) (m : Memory) (x : Rec) (k : Kernel) (dies : List Nat) : Sys × Except (Nat × Trouble) (List Write) :=
  dies.foldl (fun acc d =>
    match acc.2 with
    | .error _ => acc
    | .ok ws =>
      let r := acc.1.stageImage m x k d
      (r.1, match r.2 with | .ok w => .ok (ws ++ w) | .error t => .error (d, t))) (s, .ok [])

/-- The tasks of a launch take their seats. -/
def Sys.seatAll (s : Sys) (k : Kernel) (x : Rec) (tasks : List (Seat × Nat × Nat)) : Sys × List Write :=
  let sp := s.pkg.nextSpread
  let r := (List.range tasks.length).foldl (fun (acc : Sys × List Write) n =>
    let t := tasks.getD n ((0, 0, {}), 0, 0)
    let q := acc.1.seatTask k t.1 t.2.1 t.2.2 sp n
    (q.1, acc.2 ++ q.2)) (s, [])
  let spread : Spread := { id := sp, timed := k.timed, record := x.id, members := tasks.map fun t => { core := t.1.1, ctx := t.1.2.1 } }
  let z : Sys := { r.1 with pkg := { r.1.pkg with spreads := r.1.pkg.spreads ++ [spread], nextSpread := sp + 1 } }
  (z.modRec x.id fun q => { q with spread := some sp }, r.2)

/-- TMAP_PLACE: the lodges stage the image, and every task of a waiting launch takes its seat at once (R17, R18, R227). -/
def execTmapPlace (id : Nat) (s : State) : Host.Outcome State Fault Refusal :=
  s.event fun y =>
    match y.rec? id with
    | none => (y, [])
    | some x =>
      match x.image, x.spread, (x.image.bind fun k => y.placement k x.level) with
      | some k, none, some seats =>
        if x.phase != .running || x.parked then (y, [])
        else
          let tasks := (List.range seats.length).flatMap fun i => let l := seats.getD i []; (List.range l.length).map fun j => (l.getD j (0, 0, {}), i, j)
          let r := y.stageImages s.mem x k (x.launchDies tasks)
          match r.2 with
          | .ok ws => let q := r.1.seatAll k x tasks; (q.1, ws ++ q.2)
          | .error t =>
            let who : Spot × Nat := ((LevelAt.die t.1).spot 0, 5)
            if t.2.waits then (y.stickRec x t.2 who, [])
            else
              (r.1.finishRec x [{ spot := who.1, mst := who.2, cls := t.2.cls, code := t.2.code, addr := t.2.va, info := if t.2.cls = 3 then BitVec.ofNat 64 k.raw.length else 0 }], [])
      | _, _, _ => (y, [])

/-- The launches that can be placed in this cycle. -/
def Sys.launches (s : Sys) : List Instr :=
  s.pkg.recs.filterMap fun x =>
    match x.image, x.spread with
    | some k, none => if x.phase == .running && !x.parked && (s.placement k x.level).isSome then some (.tmapPlace x.id) else none
    | _, _ => none

/-! ## TMAP (R227) -/

/-- TMAP: the image and the parameters are read and checked; its tasks wait for their places (R227, R324). -/
def Sys.readImage (s : Sys) (m : Memory) (x : Rec) : Sys × List Write :=
  let g := match x.level with | .core g => g | .pav p => 128 * p | _ => 0
  let who : Spot × Nat := (x.spotAt [], match x.level with | .core _ => 1 | _ => 5)
  let c : Cut := ⟨[], 0, 0, 0⟩
  let stop (s : Sys) (t : Trouble) : Sys × List Write :=
    if t.waits then (s.stickRec x t who, [])
    else
      let f : TreeFault := { spot := who.1, mst := who.2, cls := t.cls, code := t.code, addr := t.va, info := if who.2 = 1 then expansionFga 5 else 0 }
      ((s.heed x f).finishRec x [f], [])
  let held := match x.level with | .core g => (s.core g).frozenCopy | _ => false
  if x.image.isSome then (s.modRec x.id fun r => { r with due := none }, [])
  else if held then (s.modRec x.id fun r => { r with due := some (s.run + 1) }, [])
  else
    let a := s.readPiece m g x.ctx x.a (x.piece 1 c)
    match a.2 with
    | .error t => stop a.1 t
    | .ok img =>
      let b := a.1.readPiece m g x.ctx x.b (x.piece 2 c)
      match b.2 with
      | .error t => stop b.1 t
      | .ok ps =>
        match kernelOf img.flatten (words64 8 ps.flatten) with
        | none => (b.1.finishRec x [x.ownFault (3, 2) x.a.addr], [])
        | some k =>
          if k.misplaced x.level then (b.1.finishRec x [x.ownFault (3, 3)], [])
          else (b.1.modRec x.id fun r => { r with image := some k, due := none }, [])

/-- TMAP (R227). -/
def execTmap (id : Nat) (r : CamvelRecord) (s : State) : Host.Outcome State Fault Refusal := s.record id r Sys.readImage

/-- A launch whose tasks have all finished is done (R137, R227). -/
def Sys.launchesDone (s : Sys) : Sys :=
  s.pkg.recs.foldl (fun s x =>
    if x.phase == .running && (x.spread.bind s.spreadOf).any fun p => p.members.all (·.finished) then s.modRec x.id fun r => { r with phase := .done } else s) s

end Sys2Proof.Machine
end

