-- ==== Sys2Proof/Machine/Belvedere.lean ====
section
/-! DEFINITION. The belvedere: tile issue windows (R254 to R257), compare-manifest (R269), TLB invalidation (R276), the package fault queue (R314), REPLAY (R331), TTHAW (R313), AOW ready bits (R57). -/

namespace Sys2Proof.Machine

def Sys.modWin (s : Sys) (n : Nat) (f : TileWindow → TileWindow) : Sys := { s with pkg := { s.pkg with wins := vmod s.pkg.wins n f } }

/-! ## Ports (R254) -/

/-- An entry arrives at a window: a full one drops it whole and says so. -/
def TileWindow.push (w : TileWindow) (e : WinEntry) : TileWindow := if w.entries.length < 64 then { w with entries := w.entries ++ [e] } else { w with ovf := true }

/-- WINDOW_RECORD_PORT_WRITE (R254). -/
def execWindowRecordPortWrite (win : BitVec 3) (r : CamvelRecord) (s : State) : Host.Outcome State Fault Refusal :=
  s.inspected fun y => y.modWin win.toNat fun w => w.push (.record r)

/-- WINDOW_GATE_PORT_WRITE (R254). -/
def execWindowGatePortWrite (win : BitVec 3) (g : Word) (s : State) : Host.Outcome State Fault Refusal :=
  s.inspected fun y => y.modWin win.toNat fun w => w.push (.gate g)

/-! ## Gates and acceptance (R255, R256) -/

/-- The value of a window counter as a gate sees it: before the increments that landed at the start of this cycle (R257). -/
def TileWindow.before (w : TileWindow) (tc : Nat) : W32 := vget w.tc tc - BitVec.ofNat 32 (w.landed.count tc)

/-- The gate's counter has reached its threshold. -/
def Sys.gateOpen (s : Sys) (g : Word) : Bool := reached ((vget s.pkg.wins (fld g 6 3)).before (fld g 0 6)) (BitVec.ofNat 32 (fld g 32 32))

/-- The head of the window is a gate that can leave. -/
def Sys.gateLeaves (s : Sys) (n : Nat) : Bool :=
  let w := vget s.pkg.wins n
  w.en && (match w.entries with | .gate g :: _ => s.gateOpen g | _ => false)

/-- GATE_RELEASE (R255). -/
def execGateRelease (win : BitVec 3) (s : State) : Host.Outcome State Fault Refusal :=
  s.event fun y => (if y.gateLeaves win.toNat then y.modWin win.toNat fun w => { w with entries := w.entries.drop 1 } else y, [])

/-- The window's head record can be accepted (R256). -/
def Sys.headReady (s : Sys) (n : Nat) : Option CamvelRecord :=
  let w := vget s.pkg.wins n
  match w.entries with
  | .record r :: _ => if w.en && !s.deaf .pkg && decide (s.queued (.window n) .pkg < 16) then some r else none
  | _ => none

/-- The window of the highest priority among those that are ready, the lowest number first (R256). -/
def Sys.acceptPick (s : Sys) : Option Nat :=
  (List.range 8).foldl (fun best n =>
    if (s.headReady n).isSome then
      match best with
      | some b => if (vget s.pkg.wins b).prio < (vget s.pkg.wins n).prio then some n else best
      | none => some n
    else best) none

/-- WINDOW_ACCEPT: the head record enters the belvedere's acceptance queue (R222, R256). -/
def execWindowAccept (win : BitVec 3) (s : State) : Host.Outcome State Fault Refusal :=
  s.event fun y =>
    if y.acceptPick = some win.toNat then
      match y.headReady win.toNat with
      | some r => ((y.modWin win.toNat fun w => { w with entries := w.entries.drop 1 }).enqueue (.window win.toNat) .pkg 0 r, [])
      | none => (y, [])
    else (y, [])

/-! ## Counters (R257) -/

/-- Increments of completions of the cycle before land; each raises its window's MSI-X vector (R257, R282). -/
def Sys.landWindows (s : Sys) : Sys :=
  (List.range 8).foldl (fun s n =>
    let w := vget s.pkg.wins n
    let s := s.modWin n fun w => { w with tc := w.pend.foldl (fun v k => vmod v k fun c => c + 1) w.tc, landed := w.pend, pend := [] }
    if w.pend.isEmpty then s else { s with pkg := { s.pkg with msix := s.pkg.msix ||| (1 <<< n) } }) s

/-- A new cycle: the increments of the one before are seen by its gates (R257). -/
def Sys.seeWindows (s : Sys) : Sys := { s with pkg := { s.pkg with wins := s.pkg.wins.map fun w => { w with landed := [] } } }

/-- WINDOW_COUNTER_WRITE: the counter is set; increments of the same cycle are added after (R257). -/
def execWindowCounterWrite (win : BitVec 3) (tc : BitVec 6) (v : W32) (s : State) : Host.Outcome State Fault Refusal :=
  s.inspected fun y => y.modWin win.toNat fun w => { w with tc := vset w.tc tc.toNat (v + BitVec.ofNat 32 (w.landed.count tc.toNat)) }

/-! ## Compare-manifest (R269) -/

/-- Bytes 0 to 7 of the measurement of the firmware (R269, R287). -/
def firmwareMeasure : Nat := leNat ((leBytes 32 (Config.measurement (Config.firmwareBlock.val + 1)).toNat).take 8)

/-- The present configuration: sixteen fields of 64 bits. -/
def Sys.manifest (s : Sys) : List Nat :=
  [1, Config.partCode, Config.firmwareVersion.toNat, firmwareMeasure, 1024, 960, 0xF, 8192, Config.trainedLinks.toNat, s.pkg.pw.dmax, 0, 0, 0, 0, 0, 0]

/-- COMPARE_MANIFEST_START: WINnCM takes the address, WINnCMS is cleared, and the comparison begins (R269). A sealed device accepts this write too (R284). R269 speaks of a 64-byte-aligned address alone; that a write with other low bits drops them and starts the comparison is the model's choice (DESIGN CHOICE, log 48). -/
def execCompareManifestStart (win : BitVec 3) (addr : Word) (s : State) : Host.Outcome State Fault Refusal :=
  s.event fun y =>
    let t := y.latency
    (if y.pkg.sec.ready then t.2.modWin win.toNat fun w => { w with cm := addr &&& 0xFFFFFFFFFFFFFFC0, cms := 0, cmDue := some (y.wcyc + t.1) } else y, [])

/-- COMPARE_MANIFEST_DONE: the 128 bytes are compared field by field. A page under invalidation makes it wait (R276). A manifest that cannot be read matches nothing (log 16). -/
def execCompareManifestDone (win : BitVec 3) (s : State) : Host.Outcome State Fault Refusal :=
  s.event fun y =>
    let w := vget y.pkg.wins win.toNat
    if w.cmDue.any fun t => decide (t ≤ y.wcyc) then
      let r := y.readSpan s.mem 0 0 w.cm 128
      let waits := match r.2 with | .error t => t.cls == 0 | .ok _ => false
      if waits then (r.1, []) else
      let differs : Option Nat := match r.2 with
        | .error _ => some 0
        | .ok bs => let have_ := (words64 16 bs).map BitVec.toNat; (List.range 16).find? fun i => have_.getD i 0 != y.manifest.getD i 0
      let v : Word := match differs with | none => BitVec.ofNat 64 (2 ^ 63 + 2 ^ 62) | some i => BitVec.ofNat 64 (2 ^ 63 + i)
      (r.1.modWin win.toNat fun w => { w with cms := v, cmDue := none }, [])
    else (y, [])

/-! ## TLBINV (R276) -/

/-- The longest time an invalidation may hold `busy`. -/
def invTime (v : Word) : Nat := if bit v 62 then 32832 else 64 + 2 * fld v 48 14

/-- TLB_INVALIDATE: a write to TLBINV; one that meets `busy`, or names no page, is discarded (R276). -/
def execTlbInvalidate (owner : Fin 5) (v : Word) (s : State) : Host.Outcome State Fault Refusal :=
  s.inspected fun y =>
    let w := vget y.pkg.owners owner.val
    if w.invDue.isSome || (!bit v 62 && fld v 48 14 == 0) then y
    else
      let t := y.latency
      let w : Owner := { w with inv := v &&& 0x7FFFFFFFFFE00000, invDue := some (y.wcyc + Nat.min t.1 (invTime v)) }
      { t.2 with pkg := { t.2.pkg with owners := vset t.2.pkg.owners owner.val w } }

/-- TLB_INVALIDATE_DONE: the entries covered are gone and `busy` clears; what waited is translated (R276). -/
def execTlbInvalidateDone (owner : Fin 5) (s : State) : Host.Outcome State Fault Refusal :=
  s.event fun y =>
    let w := vget y.pkg.owners owner.val
    if w.invDue.any fun t => decide (t ≤ y.wcyc) then
      let w := if bit w.inv 62 then { w with tlb := [] } else w.dropRange (fld w.inv 21 27) (fld w.inv 48 14)
      ({ y with pkg := { y.pkg with owners := vset y.pkg.owners owner.val { w with invDue := none } } }, [])
    else (y, [])

/-! ## The package fault queue, and REPLAY (R314, R331) -/

/-- PFQPOP: the head entry is removed (R314). -/
def execPfqpop (s : State) : Host.Outcome State Fault Refusal :=
  s.inspected fun y =>
    if y.pkg.pfq.isEmpty then y else { y with pkg := { y.pkg with pfq := y.pkg.pfq.drop 1, pfqHead := (y.pkg.pfqHead + 1) % 64 } }

/-- REPLAY: every parked access is translated again, and contexts that rolled back are ready (R330, R331). -/
def execReplay (s : State) : Host.Outcome State Fault Refusal :=
  s.inspected fun y =>
    let freeCmd (c : Cmd) : Cmd := { c with parked := false }
    let freeCtx (k : Ctx) : Ctx :=
      let go (t : Moving) : Moving := { t with parked := false }
      let k : Ctx := { k with moving := k.moving.map go }
      if k.region.rback then { k with state := .ready, region := { k.region with rback := false } } else k
    let freeRec (r : Rec) : Rec := if r.parked then { r with parked := false, due := some y.run } else r
    let freeJob (j : Job) : Job := { j with parked := false }
    { y with cores := y.cores.map fun p => (p.1, { p.2 with cmds := p.2.cmds.map freeCmd, ctxs := p.2.ctxs.map freeCtx, ccmd := { p.2.ccmd with jobs := p.2.ccmd.jobs.map freeJob } }),
             pkg := { y.pkg with parked := [], reported := [], recs := y.pkg.recs.map freeRec } }

/-! ## TTHAW (R313) -/

/-- A frozen context passes to state 6. -/
def Sys.thawContext (s : Sys) (g x : Nat) : Sys := if (s.ctx g x).state = .frozen then s.modCtx g x fun k => { k with state := .faulted } else s

/-- A copy engine or unit thaws: the copy whose violation froze it is dropped, with what it had under way; the others resume (R313). -/
def Sys.dropCopies (s : Sys) (g : Nat) (p : Cmd → Bool) : Sys :=
  let dead := ((s.core g).cmds.filter p).map (·.id)
  let s := (s.core g).cmds.foldl (fun s c => if p c then c.writes.foldl (fun s t => s.tileWritten g c.id t) s else s) s
  let s := s.modCore g fun q => { q with cmds := q.cmds.filter fun c => !p c }
  { s with agenda := s.agenda.filter fun e => !(e.core == g && e.act.cmd.any fun id => dead.contains id),
           flits := s.flits.filter fun f => !(f.core == g && f.act.cmd.any fun id => dead.contains id) }

/-- TTHAW: a write at the owning level releases the master it names, if that is frozen and of that level (R313). -/
def execTthaw (blk : FreezeBlock) (v : Word) (s : State) : Host.Outcome State Fault Refusal :=
  s.inspected fun y =>
    let kind := fld v 24 8
    let core := fld v 16 7
    let unit := fld v 12 4
    match blk with
    | .arbour p =>
      let g := 128 * p.toNat + core
      if kind = 0 then y.thawContext g (fld v 8 2)
      else if kind = 1 ∧ (y.core g).frozenCopy then (y.dropCopies g fun c => c.froze == 1).modCore g fun q => { q with frozenCopy := false }
      else y
    | .lodge d =>
      let l := vget y.pkg.lodges d.toNat
      if kind = 2 ∧ unit < 2 ∧ l.frozen.getLsbD unit then
        let y := y.cores.foldl (fun y p => y.dropCopies p.1 fun c => c.froze == unit + 2 && ownerCode c.src == d.toNat) y
        { y with pkg := { y.pkg with lodges := vset y.pkg.lodges d.toNat { l with frozen := l.frozen &&& ~~~((1 : BitVec 2) <<< unit) } } }
      else y
    | .hub =>
      if kind = 3 then { y with pkg := { y.pkg with frozenLinks := y.pkg.frozenLinks &&& ~~~((1 : BitVec 17) <<< 16) } }
      else if kind = 4 then { y with pkg := { y.pkg with frozenLinks := y.pkg.frozenLinks &&& ~~~((1 : BitVec 17) <<< unit) } }
      else y

/-! ## Ready bits (R57) -/

/-- AOW_READY_CLEAR: a 1 written to a ready bit clears it and zeroes the tile's arrival counter (R57). -/
def execAowReadyClear (core : Nat) (n : Fin 8) (t : BitVec 5) (s : State) : Host.Outcome State Fault Refusal :=
  s.eventOn (decide (core < 1024)) fun y =>
    (y.modCore core fun q => { q with aow := vmod q.aow n.val fun w =>
      { w with ready := w.ready &&& ~~~((1 : W32) <<< t.toNat), counts := vset w.counts t.toNat 0, overrun := w.overrun &&& ~~~((1 : W32) <<< t.toNat) } }, [])

/-! ## Errors in controller state (R341) -/

/-- The path of a level, by its number (R308). -/
def levelPath (n : Nat) : Word :=
  let l : LevelAt := if n = 0 then .pkg else if n < 5 then .die (n - 1) else if n < 13 then .pav (n - 5) else .core (n - 13)
  (l.spot 0).word 5

/-- A level's controller reads its state in this cycle: it holds a record, or, the belvedere, an entry of a window waits for it. The spec does not say when a controller reads (log 43). -/
def Sys.controls (s : Sys) (n : Nat) : Bool :=
  (s.pkg.recs.any fun r => r.level.number == n) || (n == 0 && s.pkg.wins.toList.any fun w => !w.entries.isEmpty)

/-- A controller meets an uncorrectable word in its state: class 11, code 4, and the level accepts no further record. -/
def Sys.controllerReads (s : Sys) : Sys :=
  (s.pkg.struck.filter s.controls).foldl (fun s n =>
    let s := s.pfqAppend (faultWord0 false 11 4 0 0, levelPath n, 0, 0)
    { s with pkg := { s.pkg with struck := s.pkg.struck.filter (· != n), deafLevels := if s.pkg.deafLevels.contains n then s.pkg.deafLevels else s.pkg.deafLevels ++ [n] } }) s

/-- A lodge, or the belvedere, whose walk of a table met an uncorrectable word reports it in the same way (R341, log 43). -/
def Sys.walkersReport (s : Sys) : Sys :=
  let y := s.pkg.walked.foldl (fun (s : Sys) n =>
    let s := s.pfqAppend (faultWord0 false 11 4 0 0, levelPath n, 0, 0)
    { s with pkg := { s.pkg with deafLevels := if s.pkg.deafLevels.contains n then s.pkg.deafLevels else s.pkg.deafLevels ++ [n] } }) s
  { y with pkg := { y.pkg with walked := [] } }

/-! ## What the package does in a cycle -/

def allWins : List (BitVec 3) := (List.range 8).map (BitVec.ofNat 3)

/-- The record that is accepted, gates that leave, comparisons and invalidations that end in this cycle. They come before what arrives in it, so that each sees the windows as the cycle found them (R255 to R257). -/
def Sys.belvedereEvents (s : Sys) : List Instr :=
  (match s.acceptPick with | some n => [.windowAccept (BitVec.ofNat 3 n)] | none => []) ++
    (allWins.filter fun n => s.gateLeaves n.toNat).map .gateRelease ++
    (allWins.filter fun n => (vget s.pkg.wins n.toNat).cmDue.any fun t => decide (t ≤ s.wcyc)).map .compareManifestDone ++
    ((List.range 5).map (Fin.ofNat 5)).filterMap fun (o : Fin 5) => if (vget s.pkg.owners o.val).invDue.any fun t => decide (t ≤ s.wcyc) then some (.tlbInvalidateDone o) else none

end Sys2Proof.Machine
end

