-- ==== Sys2Proof/Machine/Supervisor.lean ====
section
/-! DEFINITION. What the supervisor does to a context: TKILL (R342, R343), the context save area (R34, R96, R200, R212, R267, R332), CCMD (R352 to R354). -/

namespace Sys2Proof.Machine

/-! ## Work discarded -/

/-- Everything of a context that is under way is discarded: results, commands, words, queued operations, transits, accesses parked (R342, R353). -/
def Sys.purge (s : Sys) (g x : Nat) : Sys :=
  let s := s.modCore g fun c => { c with
    lane := c.lane.map fun w => if w.any fun w => w.ctx == x then none else w
    cmds := c.cmds.filter fun m => m.ctx != x
    osltPending := c.osltPending }
  let s := s.modCtx g x fun k => { k with
    suspended := [], probe := Vector.replicate 4 none, eph := none, moving := [], digesting := [], fences := []
    regs := { k.regs with tq := Vector.replicate 32 none }
    sweep := k.sweep.map fun w => { w with pass := none } }
  { s with
    agenda := s.agenda.filter fun e => !(e.core == g && e.ctx == x)
    flits := s.flits.filter fun f => !(f.core == g && f.ctx == x)
    pkg := { s.pkg with parked := s.pkg.parked.filter fun p => p.record.isSome || !(p.core == g && p.ctx == x) } }

/-- The contexts killed in this cycle have acted in its tick: from now on nothing of them goes on (R342). -/
def Sys.buryKilled (s : Sys) : Sys :=
  s.cores.foldl (fun s p => (List.range 4).foldl (fun s x => if (p.2.ctx x).killed then s.purge p.1 x else s) s) s

/-! ## TKILL (R342, R343) -/

/-- A task is on the context and can be killed. -/
def Ctx.mortal (k : Ctx) : Bool := k.state != .idle && !k.killed

/-- A context is killed with a code of class 12. Its gated entries are discarded; a FENCE that waits is abandoned: its group is named and bit 0 of word 3 of the entry set (R343). -/
def Sys.kill (s : Sys) (m : Memory) (g x code : Nat) : Sys :=
  let k := s.ctx g x
  if !k.mortal then s
  else
    let fence := k.fences.find? (s.fenceWaits m g x)
    let grp := match fence with | some f => f.grp | none => k.pc
    let f : FaultRec := { cls := 12, code := code, grp := grp }
    let s := (s.dropRegion g x).modCtx g x fun k => { k.toSupervisor f false (s.now g x) with
      fga := ⟨false, false, 0, grp⟩, killed := true, region := {}, deferred := [], barWait := false, ended := false, relReq := false }
    let s := s.modCore g fun q => { q with ccmd := { q.ccmd with jobs := q.ccmd.jobs.filter fun j => j.ctx != x } }
    s.pfqAppend (faultWord0 false 12 code 0 0, faultPathCore 0 g x, 0, (Fga.mk false false 0 grp).word ||| (if fence.isSome then 1 else 0))

/-- The tasks of the context's spread that have not finished. -/
def Sys.mates (s : Sys) (g x : Nat) : List (Nat × Nat) :=
  match s.spreadOf (s.ctx g x).task.spread with
  | some p => (p.members.filter fun m => !m.finished).map fun m => (m.core, m.ctx)
  | none => [(g, x)]

/-- TKILL: bits [1:0] name the context; bit 2, or a task of a timed spread, kills the whole spread, the others with code 2; a context that is killed already has its spread killed by bit 2 (R342). -/
def execTkill (core : Nat) (v : Word) (s : State) : Host.Outcome State Fault Refusal :=
  s.eventOn (decide (core < 1024)) fun y =>
    let x := fld v 0 2
    let k := y.ctx core x
    if !y.answers || k.state == .idle then (y, [])
    else
      let all := if bit v 2 || k.timed then y.mates core x else [(core, x)]
      (all.foldl (fun y p => y.kill s.mem p.1 p.2 (if p = (core, x) then 1 else 2)) y, [])

/-! ## The bytes of the save area (R34) -/

/-- `n` bytes of which the spec does not give the layout: free values (log 8). -/
def openBytes (seed n : Nat) : List Byte := ((List.range ((n + 7) / 8)).flatMap fun i => leBytes 8 (Config.freeValue (seed + i)).toNat).take n

/-- State registers 0x000 to 0x1FF, 8 bytes each. -/
def Sys.stateBytes (s : Sys) (g x : Nat) : List Byte := (List.range 512).flatMap fun sn => leBytes 8 ((s.stateReg g x sn).getD 0).toNat

/-- The word of the pass that a slot holds. -/
def Ctx.passWord (k : Ctx) (n : Nat) : W32 := match (vget k.sweep n).pass with | some p => p.word | none => 0

/-- The sweep state records of both slots (R96). -/
def Ctx.sweepBytes (k : Ctx) : List Byte := k.sweepRecord 0 (k.passWord 0) ++ k.sweepRecord 1 (k.passWord 1)

/-- A pending result: the landings it stands for, and its entry of the save area (R34). -/
structure Pending where
  lands : List Ev
  bytes : List Byte
  deriving DecidableEq, Repr, Inhabited

/-- A header of a pending result: kind, lane group, destination, cycles to its first landing, beats still to land. -/
def pendingHeader (kind group dest offset beats : Nat) : List Byte :=
  leBytes 8 (1 + kind * 2 + group % 8 * 2 ^ 3 + dest % 2 ^ 14 * 2 ^ 6 + offset % 64 * 2 ^ 20 + beats % 2 ^ 16 * 2 ^ 26) ++ leBytes 8 0

/-- The landings of one word's beats in a register, as an entry: its destination, what each beat holds of its 64 bytes. -/
def beatsPending (group dest : Nat) (evs : List Ev) (beatOf : Act → Option (Nat × List Byte)) : Pending :=
  let at_ (b : Nat) : Option Ev := evs.find? fun e => (beatOf e.act).any fun p => p.1 == b
  let first := (List.range 16).findSome? fun b => (at_ b).map fun e => e.due - b
  let mask := (List.range 16).foldl (fun m b => if (at_ b).isSome then m + 2 ^ b else m) 0
  let data := (List.range 16).flatMap fun b => fillTo 64 ((((at_ b).bind fun e => beatOf e.act).map (·.2)).getD [])
  ⟨evs, pendingHeader 1 group dest (first.getD 0) mask ++ data⟩

/-- The lane-group result that a landing belongs to: lane group, destination as an entry names it. A predicate Kn stands as destination 4096 + n and CN as 8192, beyond every vector register (DESIGN CHOICE, log 62). -/
def Act.laneDest (a : Act) (vbase : Nat) : Option (Nat × Nat) :=
  match a with
  | .beat lg r _ _ => some (lg, r - vbase)
  | .pred lg n _ _ _ _ => some (lg, 4096 + n)
  | .cn lg _ _ => some (lg, 8192)
  | _ => none

/-- A beat and its bytes: the words, zero where none is written; of a predicate its bits, its absent bits and its enables, 16 each; of CN its word (log 62). -/
def Act.beatBytes (a : Act) : Option (Nat × List Byte) :=
  match a with
  | .beat _ _ b ws => some (b, bytes32 ((List.range 16).map fun l => (ws.getD l none).getD 0))
  | .pred _ _ b v ab en => some (b, leBytes 2 v.toNat ++ leBytes 2 ab.toNat ++ leBytes 2 en.toNat)
  | .cn _ b v => some (b, leBytes 4 v.toNat)
  | _ => none

/-- The pending results of a context: scalar results, lane-group results with their beats to come, word by word in issue order, accumulator entries. A result's place is relative to its window; its cycles count from the first resumed bundle. A scalar entry's group is 1 for file B, and the upper half of its data is the mask of the bits written (DESIGN CHOICE, log 62). -/
def Ctx.pendings (k : Ctx) (g : Nat) : List Pending :=
  let beats := sortBy (fun (a b : Ev) => decide (a.ord ≤ b.ord)) (k.suspended.filter fun e => (e.act.laneDest k.win.vbase).isSome)
  let words := beats.foldl (fun (acc : List (Nat × Nat × Nat)) e => match e.act.laneDest k.win.vbase with | some d => if acc.contains (e.ord, d) then acc else acc ++ [(e.ord, d)] | none => acc) []
  (k.suspended.filterMap fun e =>
    match e.act with
    | .scalar b r m v => some ⟨[e], pendingHeader 0 (boolNat b) r e.due 0 ++ leBytes 8 v.toNat ++ leBytes 8 m.toNat⟩
    | .put key _ d => if accKey g 0 ≤ key ∧ key < accKey (g + 1) 0 then some ⟨[e], pendingHeader 2 0 ((key - accKey g k.win.accbase) / 8) e.due 0 ++ fillTo 16 d⟩ else none
    | _ => none) ++ words.map fun d => beatsPending d.2.1 d.2.2 (beats.filter fun e => e.ord == d.1 && e.act.laneDest k.win.vbase == some d.2) Act.beatBytes

/-- The words of 64 bytes, every one written. -/
def wholeBeat (bs : List Byte) : List (Option W32) := (words32 16 bs).map some

/-- The landing of beat `b` of a lane-group entry from its 64 bytes. -/
def laneAct (group dest vbase b : Nat) (bs : List Byte) : Act :=
  let half (i : Nat) : BitVec 16 := BitVec.ofNat 16 (leNat ((bs.drop (2 * i)).take 2))
  if dest < 4096 then .beat group (dest + vbase) b (wholeBeat bs)
  else if dest < 8192 then .pred group (dest - 4096) b (half 0) (half 1) (half 2)
  else .cn group b (BitVec.ofNat 32 (leNat (bs.take 4)))

/-- The landings that a region of pending results names (R34): headers with their data, up to the first that is zero. -/
def pendingsIn (fuel : Nat) (bs : List Byte) (w : Window) (g x ord : Nat) : List Ev :=
  match fuel with
  | 0 => []
  | n + 1 =>
    let h := leNat (bs.take 8)
    if h = 0 then []
    else
      let kind := h / 2 % 4
      let size := if kind = 1 then 1040 else 32
      let data := (bs.drop 16).take (size - 16)
      let dest := h / 2 ^ 6 % 2 ^ 14
      let offset := h / 2 ^ 20 % 64
      let one : List Ev :=
        if h % 2 = 0 then []
        else if kind = 0 then [⟨g, x, offset, 0, ord, .scalar (h / 8 % 8 == 1) dest (BitVec.ofNat 64 (leNat (data.drop 8))) (BitVec.ofNat 64 (leNat (data.take 8)))⟩]
        else if kind = 1 then
          ((List.range 16).filter fun b => h / 2 ^ 26 / 2 ^ b % 2 == 1).map fun b => ⟨g, x, offset + b, 0, ord, laneAct (h / 8 % 8) dest w.vbase b ((data.drop (64 * b)).take 64)⟩
        else [⟨g, x, offset, 2, ord, .put (accKey g (w.accbase + dest)) 7 (data.take 8)⟩]
      one ++ pendingsIn n (bs.drop size) w g x ord

/-- A slot of the trigger queue (R212). -/
def Queued.bytes (q : Option Queued) : List Byte :=
  match q with
  | none => List.replicate 64 0
  | some q =>
    let w := 1 + boolNat q.isReady * 2 + q.tc % 64 * 4 + q.eng % 4 * 2 ^ 8 + boolNat q.clr * 2 ^ 10 + q.region % 8 * 2 ^ 11 + q.tile % 32 * 2 ^ 14 + q.thr.toNat * 2 ^ 32
    leBytes 8 w ++ leBytes 8 q.hdr.toNat ++ fillTo 48 (bytes64 (q.stg.take 5))

/-- A slot of the trigger queue read back, armed by an order. -/
def Queued.ofBytes (bs : List Byte) (grp : W32) (armer : Nat) : Option Queued :=
  let w := leNat (bs.take 8)
  if w % 2 = 0 then none
  else some { isReady := w / 2 % 2 == 1, tc := w / 4 % 64, eng := w / 2 ^ 8 % 4, clr := w / 2 ^ 10 % 2 == 1, region := w / 2 ^ 11 % 8, tile := w / 2 ^ 14 % 32, thr := BitVec.ofNat 32 (w / 2 ^ 32),
              hdr := BitVec.ofNat 32 (leNat ((bs.drop 8).take 4)), stg := words64 5 (bs.drop 16), grp := grp, armer := armer, armedAt := some 0 }

/-- Trigger counters, TCRW, queue slots (R212). -/
def Ctx.triggerBytes (k : Ctx) : List Byte :=
  fillTo 0x400 (fillTo 0x100 (bytes32 ((List.range 64).map fun n => if n < k.win.tcount then vget k.regs.tc n else 0)) ++ leBytes 8 k.regs.tcrw.toNat) ++
    k.regs.tq.toList.flatMap Queued.bytes

/-- The kind of a copy or transfer in its progress entry (R200). -/
def Cmd.progressKind (c : Cmd) : Option Nat :=
  match c.instr with
  | .cpy .. => some 0 | .cpys .. => some 1 | .cpyg .. => some 2 | .cpyr .. => some 3 | .cpyst .. => some 4 | .cpyf .. => some 5
  | .tld .. => some 6 | .tst .. => some 7
  | _ => none

/-- Copies, or tile transfers, of a context that leave an entry. -/
def Core.progressing (c : Core) (x : Nat) (e : Engine) : List Cmd := c.cmds.filter fun m => m.ctx == x && m.eng == e && m.progressKind.isSome

/-- A progress entry (R200): `done` counts blocks, or rows committed. -/
def Cmd.progress (c : Cmd) (now : Nat) : List Byte :=
  let kind := c.progressKind.getD 0
  let done := if kind = 6 then 0 else c.done
  leBytes 8 (1 + kind * 2 + boolNat c.fired * 2 ^ 4 + done % 2 ^ 32 * 2 ^ 8) ++ leBytes 8 c.word.toNat ++ fillTo 40 (bytes64 (c.stg.take 5)) ++
    leBytes 8 (if c.started then 0 else c.start - now)

/-- A copy or transfer from its progress entry: it goes on at block or row `done` (R200). What the entry does not hold is the context's own: the mode, the group it is charged to; the tag of a tile written is 0 in shared mode and a free value in timed mode (R108, log 62). -/
def cmdOfEntry (bs : List Byte) (k : Ctx) (id g x now : Nat) (tag : BitVec 16) : Option (Cmd × List Ev) :=
  let h := leNat (bs.take 8)
  let kind := h / 2 % 8
  let fired := h / 2 ^ 4 % 2 == 1
  let done := h / 2 ^ 8 % 2 ^ 32
  let word : W32 := BitVec.ofNat 32 (leNat ((bs.drop 8).take 4))
  if h % 2 = 0 then none
  else
    match decodeSlot (if kind < 6 then .copy else .tileMem) word with
    | .error _ => none
    | .ok i =>
      let stg := words64 5 (bs.drop 16) ++ [0, 0, 0]
      let y2 := stg.getD 2 0
      let q := rowBlocks (tsWidth y2)
      let e : Engine := if kind < 6 then .cp else .tm
      let under := fired || done != 0
      let pos := if kind = 3 then done * q else done
      let c : Cmd :=
        { id := id, ctx := x, eng := e, instr := i, word := word, stg := stg, rm := k.regs.rm, honour := false, ptrs := [], grp := k.pc, slot := e.slot, dispatched := now,
          start := now + leNat ((bs.drop 56).take 8), started := under, fired := fired, done := done, pos := pos, tag := if k.timed then tag else 0,
          reads := if kind = 4 || kind = 7 then [tsTile y2] else [], writes := if kind = 3 || kind = 6 then [tsTile y2] else [] }
      if c.progressKind ≠ some kind then none
      else
        let next : List Ev :=
          if !under || decide (kind = 6) then []
          else if kind = 7 then [⟨g, x, 0, 1, id, .unitRead id (done / q)⟩]
          else if c.varies then [⟨g, x, 0, 9, id, .unitRead id pos⟩]
          else [⟨g, x, c.loadWait g pos, 1, id, .unitRead id pos⟩]
        some (c, next)

def Sys.progressBytes (s : Sys) (g x : Nat) : List Byte :=
  let t := (s.ctx g x).resumeTick - 1
  fillTo 0x1000 ((((s.core g).progressing x .cp).take 64).flatMap fun c => c.progress t) ++
    fillTo 0x1000 ((((s.core g).progressing x .tm).take 16).flatMap fun c => c.progress t)

/-- The digest state (R267). -/
def Ctx.digestBytes (k : Ctx) : List Byte :=
  let run := (k.digesting.find? fun d => decide (d.done < d.n)).getD ⟨0, 0, 0, 0, 0, 0⟩
  fillTo 512 (bytes64 k.sponge.lanes.toList ++ leBytes 8 k.sponge.pos ++
    leBytes 8 (if run.done < run.n then 1 + run.done % 65536 * 2 + run.n % 65536 * 2 ^ 17 else 0) ++ leBytes 8 (if run.done < run.n then run.addr else 0))

/-- A gated entry: its header's layout is open, the 64 bytes of its data stand (R332). -/
def Gated.bytes (e : Gated) (seed : Nat) : List Byte :=
  openBytes seed 32 ++ fillTo 64 (match e with
    | .store _ _ d => d
    | .record _ _ r => bytes64 [r.w0, r.w1, r.w2, r.w3, r.w4, r.w5, r.w6, r.w7])

/-- The open restart region (R332). -/
def Ctx.regionBytes (k : Ctx) (seed : Nat) : List Byte :=
  let r := k.region
  let entries := (List.range r.gated.length).flatMap fun i => (r.gated.getD i default).bytes (seed + 4 * i)
  let shadow (lg : Nat) : List Byte := fillTo 8192 ((r.shadows.filter fun p => p.1 == lg).flatMap fun p => p.2.2)
  if r.open_ then
    fillTo 64 (leBytes 8 (r.word r.cow).toNat ++ openBytes (seed + 256) 56) ++ fillTo 0x1FC0 entries ++ openBytes (seed + 512) 0x2000 ++
      (List.range 8).flatMap shadow
  else fillTo 0x14000 (leBytes 8 (r.word r.cow).toNat)

/-- The memory regions of the area: offset, length, where the bytes stand in the core, how many the window has (R34, R39, R50, R80). -/
def Window.regions (w : Window) (g x : Nat) (timed : Bool) : List (Nat × Nat × Nat × Nat) :=
  [(0x4000, 0x2000, latchKey g w.lbase 0, 2048 * w.lbanks), (0x40000, 0x20000, operandKey g w.opbase, w.opmem), (0x60000, 0x20000, accKey g w.accbase, 8 * w.accmem)] ++
    (List.range 8).map (fun lg => (0x80000 + 65536 * lg, 65536, vecKey g lg w.vbase 0 0, 1024 * w.vwin)) ++
    (if timed && x == 0 then [(0x100000, 2 ^ 21, scratchKey g 0, 2 ^ 21), (0x300000, 2 ^ 18, angleKey g 0, 2 ^ 18), (0x340000, 2 ^ 15, scaleKey g 0, 2 ^ 15)] else [])

/-- The save area of a context, by offset, ascending (R34). -/
def Sys.saveBytes (s : Sys) (m : Memory) (g x : Nat) : List (Nat × List Byte) :=
  let k := s.ctx g x
  sortBy (fun a b => decide (a.1 ≤ b.1))
    ([(0, s.stateBytes g x ++ openBytes s.taken 0x3000), (0x6000, k.sweepBytes), (0x10000, fillTo 0x10000 ((k.pendings g).flatMap (·.bytes))),
      (0x20000, fillTo 0x2000 k.triggerBytes), (0x22000, s.progressBytes g x), (0x24000, k.regionBytes (s.taken + 0x600)), (0x38000, fillTo 0x8000 k.digestBytes)] ++
     (k.win.regions g x k.timed).map fun r => (r.1, fillTo r.2.1 (m.bytes r.2.2.1 r.2.2.2)))

/-- A poisoned word in what a save reads of the core's own memories, by its address; only the scratchpad has one (R341, log 43). -/
def Sys.areaPoison (s : Sys) (g x : Nat) : Option Word :=
  let k := s.ctx g x
  (k.win.regions g x k.timed).findSome? fun r =>
    if r.2.2.2 = 0 then none else (s.poisoned r.2.2.1 r.2.2.2).map fun w => if r.2.2.1 = scratchKey g 0 then scratchFar g w else 0

/-- Free values that a save takes. -/
def saveTakes : Nat := 0x2000

/-- The base of a context's save area. -/
def Ctx.areaBase (k : Ctx) : Word := k.csab &&& 0xFFFFFFFFFFF00000

/-! ## Saving (R352) -/

/-- A stopped context's state is settled: its words have been read, its loads, stores, probes, word accesses and passes have come to rest (R31, R34, R95, R157, R200, R334). -/
def Sys.settled (s : Sys) (g x : Nat) : Bool :=
  let k := s.ctx g x
  let c := s.core g
  let still (id : Option Nat) : Bool := (id.bind fun i => s.cmd g i).any (·.stopped)
  (k.parked || k.ended) && !(s.agenda.any fun e => e.core == g && e.ctx == x && decide (e.phase < 8) && !still e.act.cmd) &&
    !(s.flits.any fun f => f.core == g && f.ctx == x) && k.probe.toList.all Option.isNone &&
    !(c.lane.toList.any fun w => w.any fun w => w.ctx == x) && !(k.digesting.any fun d => decide (d.done < d.n) && decide (d.start + d.done ≤ k.resumeTick + 1)) &&
    !(c.cmds.any fun m => m.ctx == x && m.isWord && !m.gated && !m.stopped) &&
    k.sweep.toList.all fun w => match w.pass with | some p => p.frozen || p.atBoundary || p.finished p.rows p.rounds | none => true

/-- The access of a job is due and can be made. -/
def Sys.jobDue (s : Sys) (g : Nat) (j : Job) : Bool := !j.parked && decide (j.due ≤ s.wcyc) && (j.restore || s.settled g j.ctx)

/-- A job leaves. -/
def Sys.endJob (s : Sys) (g x : Nat) (err : Bool) : Sys :=
  s.modCore g fun q => { q with ccmd := { q.ccmd with jobs := q.ccmd.jobs.filter fun j => j.ctx != x, err := q.ccmd.err || err } }

/-- An access of a job meets trouble: an unmapped page parks it, anything else stops the job with `err` (R330, R352); so does a poisoned word, of memory or of the core, with a class 11 entry (R341; DESIGN CHOICE, log 43). -/
def Sys.jobTrouble (s : Sys) (g x : Nat) (t : Trouble) : Sys :=
  if t.cls = 0 then s
  else if t.cls = 7 ∧ t.code = 1 then
    let s := s.reportPage 0 g x t.va
    let s := s.modCore g fun q => { q with ccmd := { q.ccmd with jobs := q.ccmd.jobs.map fun j => if j.ctx = x then { j with parked := true } else j } }
    { s with pkg := { s.pkg with parked := s.pkg.parked ++ [{ owner := ownerCode t.va, va := t.va, core := g, ctx := x, cmd := 0, unit := 0 }] } }
  else
    (s.endJob g x true).pfqAppend (faultWord0 false t.cls t.code 0 0, faultPathCore 0 g x, t.va, (s.ctx g x).fga.word)

/-- What is kept of a context beside its bytes. -/
def Sys.keep (s : Sys) (g x : Nat) : Saved :=
  let k := s.ctx g x
  let mine := s.agenda.filter fun e => e.core == g && e.ctx == x
  let left (e : Ev) : Ev := { e with due := e.due - s.clockOf e }
  { base := k.areaBase.toNat, seed := s.taken, place := (g, x), ctx := { k with suspended := k.suspended ++ (mine.filter fun e => decide (e.phase < 8)).map left },
    cmds := (s.core g).cmds.filter fun c => c.ctx == x, flits := s.flits.filter fun f => f.core == g && f.ctx == x,
    landings := (mine.filter fun e => decide (8 ≤ e.phase)).map left, free := (s.core g).free, aow := (s.core g).aow }

/-- The accesses of a save, in ascending order; the writes before a stop have been made (R352). -/
def Sys.save (s : Sys) (m : Memory) (g x : Nat) : Sys × List Write :=
  let base := (s.ctx g x).areaBase
  let img := s.keep g x
  let bad := (s.areaPoison g x).map fun a => (⟨11, 1, a, none⟩ : Trouble)
  let r := (s.saveBytes m g x).foldl (fun (acc : Sys × List Write × Option Trouble) c =>
    match acc.2.2 with
    | some _ => acc
    | none =>
      let q := acc.1.putSpan m 0 g (base + BitVec.ofNat 64 c.1) c.2
      match q.2 with
      | .ok ws => (q.1, acc.2.1 ++ ws, none)
      | .error t => (q.1, acc.2.1, some t)) (s, [], bad)
  match r.2.2 with
  | some t => (r.1.jobTrouble g x t, r.2.1)
  | none =>
    let y := r.1.endJob g x false
    ({ y with taken := y.taken + saveTakes, pkg := { y.pkg with images := y.pkg.images.filter (fun i => i.base != img.base) ++ [img] } }, r.2.1)

/-! ## Restoring (R35, R336, R338, R352, R354) -/

/-- What the device kept of the context whose save wrote these bytes: the image whose free values stand in them, that of this base before another (R35, log 8). -/
def Pkg.imageOf (p : Pkg) (area : List Byte) (base : Nat) : Option Saved :=
  let mine := p.images.filter fun i => (area.drop 0x1000).take 0x3000 == openBytes i.seed 0x3000
  (mine.find? fun i => i.base == base).orElse fun _ => mine.getLast?

/-- The 64-bit word at an offset of an area. -/
def areaWord (area : List Byte) (off : Nat) : Word := BitVec.ofNat 64 (leNat ((area.drop off).take 8))

/-- The state register of a saved area. -/
def savedReg (area : List Byte) (sn : Nat) : Word := areaWord area (8 * sn)

/-- A loop-stack entry from its registers. -/
def LoopEntry.ofWords (a b c : Word) : LoopEntry :=
  { index := a.setWidth 32, count := BitVec.ofNat 32 (fld a 32 32), start := b.setWidth 32, exit := BitVec.ofNat 32 (fld b 32 32), budget := fld c 40 24,
    kind := match fld c 35 2 with | 0 => .temporal | 1 => .cores | _ => .dies, valid := bit c 34, interlocked := bit c 33, elapsed := fld c 0 24 }

/-- The flag sets of both registers. -/
def flagsOf (a b : Word) : Vector Flags 18 := Vector.ofFn fun i : Fin 18 => BitVec.ofNat 6 (if i.val < 10 then fld a (6 * i.val) 6 else fld b (6 * (i.val - 10)) 6)

/-- The registers that the area's bytes hold. -/
def Regs.loaded (r : Regs) (area : List Byte) (armer : Nat) : Regs :=
  let w := savedReg area
  let f := w 0x036
  { r with
    rotb := Rotb.ofWord (w 1), rm := (Rm.ofNat? (fld (w 4) 0 3)).getD r.rm, flags := flagsOf (w 0x034) (w 0x035)
    fer := ⟨bit f 63, BitVec.ofNat 6 (fld f 50 6), BitVec.ofNat 6 (fld f 37 6), fld f 32 5, f.setWidth 32⟩
    loops := Vector.ofFn fun i : Fin 6 => LoopEntry.ofWords (w (0x010 + 4 * i.val)) (w (0x011 + 4 * i.val)) (w (0x012 + 4 * i.val))
    ptr := Vector.ofFn fun i : Fin 32 =>
      let a := w (0x080 + 2 * i.val)
      let b := w (0x081 + 2 * i.val)
      ⟨BitVec.ofNat 28 (fld a 0 28), BitVec.ofNat 24 (fld a 28 24), BitVec.ofNat 28 (fld b 0 28), BitVec.ofNat 22 (fld b 28 22)⟩
    port := Vector.ofFn fun i : Fin 16 =>
      let n := 0x0C0 + 4 * i.val
      ⟨portField 0 (w n), portField 1 (w (n + 1)), portField 2 (w (n + 2)), fld (w (n + 3)) 0 48⟩
    xa := Vector.ofFn fun i : Fin 4 => w (0x1A0 + i.val) &&& 0xFF80000000000000
    tcrw := areaWord area 0x20100
    tc := Vector.ofFn fun i : Fin 64 => BitVec.ofNat 32 (leNat ((area.drop (0x20000 + 4 * i.val)).take 4))
    tq := Vector.ofFn fun i : Fin 32 =>
      match Queued.ofBytes ((area.drop (0x20400 + 64 * i.val)).take 64) ((w 0).setWidth 32) armer, vget r.tq i.val with
      | some _, some q => some q
      | q, none => q
      | none, _ => none }

/-- The DIGEST in progress that the area's bytes hold: its next block is read two ticks after the first resumed bundle (R267). -/
def Ctx.digestIn (k : Ctx) (area : List Byte) (id : Nat) : List DigestRun :=
  let run := areaWord area 0x380D0
  let old := (k.digesting.find? fun d => decide (d.done < d.n)).getD { id := id, addr := 0, n := 0, done := 0, start := 0, grp := k.pc }
  if bit run 0 then [{ old with addr := fld (areaWord area 0x380D8) 0 28, n := fld run 17 16, done := fld run 1 16, start := k.resumeTick + 2 - fld run 1 16 }] else []

/-- The region that the area's bytes hold (R332): RGST, the data of the gated entries, the images of the shadows. An entry of 96 zero bytes has been cleared (R354). -/
def Region.loaded (r : Region) (area : List Byte) : Region :=
  let w := areaWord area 0x24000
  let entry (n : Nat) : Option Gated :=
    let bs := (area.drop (0x24040 + 96 * n)).take 96
    if bs.all (· == 0) then none
    else (r.gated[n]?).map fun e => match e with
      | .store cmd va d => .store cmd va ((bs.drop 32).take d.length)
      | .record ord level _ => .record ord level (recordOf (bs.drop 32))
  let image (n : Nat) (p : Nat × Nat × List Byte) : Nat × Nat × List Byte :=
    let before := ((r.shadows.take n).filter fun q => q.1 == p.1 && !q.2.2.isEmpty).length
    if p.2.2.isEmpty then p else (p.1, p.2.1, (area.drop (0x28000 + 8192 * p.1 + 1024 * before)).take 1024)
  let gated := (List.range r.gated.length).filterMap entry
  if bit w 63 then
    { r with open_ := true, rback := bit w 62, mark := w.setWidth 32, gated := gated, taken := r.taken - (r.gated.length - gated.length),
             shadows := (List.range r.shadows.length).map fun n => image n (r.shadows.getD n default) }
  else { rback := bit w 62, mark := w.setWidth 32 }

/-- The accumulate-on-write regions that the area's bytes hold: AOWnA, AOWnB, the counters (R55). -/
def aowLoaded (old : Vector AowRegion 8) (area : List Byte) : Vector AowRegion 8 :=
  Vector.ofFn fun n : Fin 8 =>
    let b := savedReg area (0x101 + 2 * n.val)
    { vget old n.val with
      a := aowMask (savedReg area (0x100 + 2 * n.val)), expect := fld b 0 15, ready := BitVec.ofNat 32 (fld b 32 32)
      counts := Vector.ofFn fun t : Fin 32 => fld (savedReg area (0x140 + 8 * n.val + t.val / 4)) (16 * (t.val % 4)) 16 }

/-- The context that the area's bytes hold; a class 4 fault's budgets start again (R338). Reserved fields read zero (R5). -/
def Ctx.loaded (k : Ctx) (area : List Byte) (id : Nat) : Ctx :=
  let w := savedReg area
  let late := fld (w 7) 16 8 == 4
  let again (e : LoopEntry) : LoopEntry := if late && e.valid && e.kind == .temporal then { e with elapsed := 0 } else e
  let r := k.regs.loaded area id
  let lanes := words64 25 (area.drop 0x38000)
  { k with
    regs := { r with loops := r.loops.map again }, bodyElapsed := if late then 0 else k.bodyElapsed
    pc := (w 0).setWidth 32, csab := w 3 &&& 0xFFFFFFFFFFF00001, tvecEn := bit (w 5) 32, tvecAddr := (w 5).setWidth 32, epcInh := bit (w 6) 32, epcRet := (w 6).setWidth 32
    causeClass := BitVec.ofNat 8 (fld (w 7) 16 8), causeCode := BitVec.ofNat 16 (fld (w 7) 0 16), far := w 9
    fga := ⟨!k.deferred.isEmpty, bit (w 0xA) 62, fld (w 0xA) 32 5, (w 0xA).setWidth 32⟩, tstm := w 0x033
    sbTag := Vector.ofFn fun i : Fin 16 => BitVec.ofNat 16 (fld (w (0x040 + i.val)) 16 16)
    tfr := #v[w 0x050 &&& 0xC0FFFFFFFFFFFF00, w 0x051 &&& 0xFFFFFFFFFFFFFF80, w 0x052, w 0x053]
    drift := Vector.ofFn fun i : Fin 16 => ⟨(w (0x180 + i.val)).setWidth 32, bit (w (0x180 + i.val)) 32⟩
    dfault := bit (w 0x190) 33, driftLimit := (w 0x190).setWidth 32
    sponge := Sponge.ofLanes lanes (fld (areaWord area 0x380C8) 0 8)
    digesting := k.digestIn area id, region := k.region.loaded area }

/-- The registers that an edit of the area may have left beyond their ranges: those that WRST checks, the stream ports (R45, R155), the core's accumulate-on-write regions (R55). -/
def Ctx.editOk (k : Ctx) (area : List Byte) (q : Core) : Bool :=
  (([0x001, 0x004, 0x190] ++ (List.range 64).map fun i => 0x080 + i).all fun sn => k.wrstOk sn (savedReg area sn)) &&
    ((List.range 64).all fun i => i % 4 == 3 || portFieldOk (i % 4) (savedReg area (0x0C0 + i))) &&
    ((List.range 8).all fun n => q.aowOk 1 n (vget q.aow n).a 0 && decide ((vget q.aow n).expect ≤ 16384))

/-- A register that an edit left beyond its range: the fault its rules give waits for the first resumed group (R354). -/
def Ctx.checkEdit (k : Ctx) (area : List Byte) (q : Core) : Ctx :=
  if !k.editOk area q then { k with deferred := addDeferred k.deferred { cls := 3, code := 1, grp := k.pc }, fga := { k.fga with pend := true } } else k

/-- An orrery command from the word of a sweep record, for a pass that comes with no command of its own. -/
def passCmd (id x : Nat) (p : Pass) (now : Nat) : Option Cmd :=
  match decodeSlot .orrery p.word with
  | .ok i => some { id := id, ctx := x, eng := .orr, instr := i, word := p.word, stg := p.os, rm := p.rm, honour := p.honour, ptrs := [], grp := 0, slot := 6,
                    dispatched := now, start := now, started := true, tag := p.tag, writes := [osDst (p.os.getD 0 0)] }
  | .error _ => none

/-- The slot n takes a record that R96 allows: the context and its commands then, or none. What the record does not hold, its rounding mode, its subnormal mode and the scale pointer's address, is that of the pass which stood there, else the context's own rounding mode and no honouring (DESIGN CHOICE, log 64). DRn stay: 0x0008 of a record goes there by OREST only (R96). -/
def Ctx.takeSweep (k : Ctx) (cmds : List Cmd) (bs : List Byte) (n x id now : Nat) : Option (Ctx × List Cmd) :=
  let old := (vget k.sweep n).pass
  let cmd := match old with | some p => p.cmd | none => id
  let gone := cmds.filter fun c => !(old.any fun p => p.cmd == c.id)
  match k.readRecord bs cmd (BitVec.ofNat 16 (leNat ((bs.drop 0x58).take 2))) (match old with | some p => p.rm | none => k.regs.rm) (match old with | some p => p.honour | none => false) with
  | none => none
  | some (w, _) =>
    let k := { k with sweep := vset k.sweep n w }
    match old, w.pass with
    | some o, some p =>
      let p : Pass := { p with zp := o.zp }
      let reading := p.round = 0 ∧ p.next < p.rows
      let again (c : Cmd) : Cmd :=
        if c.id = p.cmd then { c with tag := p.tag, word := p.word, stg := p.os, writes := [osDst (p.os.getD 0 0)], reads := if reading then [osSrc (p.os.getD 0 0)] else [] } else c
      some ({ k with sweep := vset k.sweep n { w with pass := some p } }, cmds.map again)
    | _, none => some (k, gone)
    | none, some p => some (k, match passCmd id x p now with | some c => gone ++ [c] | none => gone)

/-- The slot n is empty, for its record breaks R96: class 9, code 2 waits for the first resumed group (R336). -/
def Ctx.refuseSweep (k : Ctx) (n : Nat) (far : Word) : Ctx :=
  { k with sweep := vset k.sweep n {}, deferred := addDeferred k.deferred { cls := 9, code := 2, slot := 6, far := far, grp := k.pc }, fga := { k.fga with pend := true } }

/-- The sweep slot n as its record in a restored area has it. A record that stands as the device wrote it keeps what the device knows of it; one that breaks R96 leaves the slot empty (R336). -/
def Ctx.loadSweep (k : Ctx) (cmds : List Cmd) (area : List Byte) (base : Word) (n x id now : Nat) : Ctx × List Cmd :=
  let bs := (area.drop (0x6000 + 0x5000 * n)).take 0x5000
  if (vget k.sweep n).raw.isNone ∧ bs = k.sweepRecord n (k.passWord n) then (k, cmds)
  else
    match k.takeSweep cmds bs n x id now with
    | some r => r
    | none => (k.refuseSweep n (base + BitVec.ofNat 64 (0x6000 + 0x5000 * n)), cmds.filter fun c => !((vget k.sweep n).pass.any fun p => p.cmd == c.id))

/-- A supervisor writes the bytes of slot n through the aperture. While they are no record the slot holds neither pass nor residents (R96, R351, log 18). -/
def Ctx.editSweep (k : Ctx) (cmds : List Cmd) (bs : List Byte) (n x id now : Nat) : Ctx × List Cmd :=
  if bs = k.sweepRecord n (k.passWord n) then (k, cmds)
  else
    match k.takeSweep cmds bs n x id now with
    | some r => r
    | none => ({ k with sweep := vset k.sweep n { raw := some bs } }, cmds.filter fun c => !((vget k.sweep n).pass.any fun p => p.cmd == c.id))

/-- A context that goes on judges its slots: one whose bytes are still no record is empty, with the fault of R336 (R354, log 18). It has no address in memory: FAR is 0. -/
def Ctx.judgeSweeps (k : Ctx) : Ctx := (List.range 2).foldl (fun k n => if (vget k.sweep n).raw.isSome then k.refuseSweep n 0 else k) k

/-- Distances between two windows. -/
def Act.moved (a : Act) (from_ onto : Window) (g g' : Nat) : Act :=
  match a with
  | .beat lg r b ws => .beat lg (r + onto.vbase - from_.vbase) b ws
  | .row r n w vs => .row (r + onto.vbase - from_.vbase) n w vs
  | .latch key d => .latch (key + latchKey g' onto.lbase 0 - latchKey g from_.lbase 0) d
  | .put key rank d =>
    if accKey g 0 ≤ key ∧ key < accKey (g + 1) 0 then .put (key + accKey g' onto.accbase - accKey g from_.accbase) rank d
    else if operandKey g 0 ≤ key ∧ key < operandKey (g + 1) 0 then .put (key + operandKey g' onto.opbase - operandKey g from_.opbase) rank d
    else .put key rank d
  | a => a

/-- An entry of the agenda in its new place. -/
def Ev.moved (e : Ev) (from_ onto : Window) (g g' x : Nat) : Ev := { e with core := g', ctx := x, act := e.act.moved from_ onto g g' }

/-- Entries that the supervisor has cleared are gone: pending results, copies and transfers (R354). -/
def Saved.edited (i : Saved) (area : List Byte) : Saved :=
  let dead := (i.ctx.pendings i.place.1).foldl (fun (acc : List Ev × Nat) p =>
    (if bit (areaWord area acc.2) 0 then acc.1 else acc.1 ++ p.lands, acc.2 + p.bytes.length)) ([], 0x10000)
  let cleared (e : Engine) (off : Nat) : List Nat :=
    let cs := i.cmds.filter fun m => m.eng == e && m.progressKind.isSome
    (List.range cs.length).filterMap fun n => if bit (areaWord area (off + 64 * n)) 0 then none else (cs[n]?).map (·.id)
  let gone := cleared .cp 0x22000 ++ cleared .tm 0x23000
  let live (e : Ev) : Bool := !dead.1.contains e && !(e.act.cmd.any fun c => gone.contains c)
  { i with ctx := { i.ctx with suspended := i.ctx.suspended.filter live }, cmds := i.cmds.filter fun c => !gone.contains c.id, landings := i.landings.filter live }

/-- Registers of which the bytes are open: free values, their reserved bits zero (R5, log 8). -/
def Regs.open_ (r : Regs) (seed : Nat) : Regs :=
  let free (i : Nat) : Word := Config.freeValue (seed + i)
  let lane (l : Nat) : LaneRegs :=
    let wide (i : Nat) : BitVec 256 := BitVec.ofNat 256 (leNat (openBytes (seed + 0x200 + 128 * l + 4 * i) 32))
    { k := Vector.ofFn fun i : Fin 8 => wide i.val, ka := Vector.ofFn fun i : Fin 8 => wide (8 + i.val), cn := Vector.ofFn fun i : Fin 16 => (free (0x240 + 128 * l + i.val)).setWidth 32 }
  { r with a := Vector.ofFn fun i : Fin 32 => free i.val, b := Vector.ofFn fun i : Fin 32 => free (32 + i.val),
           staging := Vector.ofFn fun i : Fin 40 => free (64 + i.val) &&& stagingMask i.val, lane := Vector.ofFn fun i : Fin 8 => lane i.val }

/-- What a restore knows of an area that no save of the device wrote: the registers whose place in it is open are free values, and so is the checkpoint of an open region; of its gated entries and shadows, whose headers are open, it knows none (log 8). -/
def Sys.strange (s : Sys) (g x ord : Nat) : Saved :=
  let k := s.ctx g x
  { base := k.areaBase.toNat, seed := s.taken, place := (g, x), cmds := [], flits := [], landings := [], free := (s.core g).free, aow := Vector.replicate 8 {}
    ctx := { k with suspended := [], digesting := [], sweep := Vector.replicate 2 {}, haltTick := s.now g x, mid := false, ended := false, parked := true, asideAt := s.now g x + 1, asideMer := s.mer + 1
                    regs := k.regs.open_ s.taken, region := { since := ord, checkpoint := if k.timed then none else some (k.regs.open_ (s.taken + 0x800)) } } }

/-- A context whose area no save of the device wrote: what its entries name is set going from their bytes (R34, R200). -/
def Saved.rebuilt (i : Saved) (area : List Byte) (g x ord now taken : Nat) : Saved :=
  let entry (n : Nat) : Option (Cmd × List Ev) :=
    cmdOfEntry ((area.drop (0x22000 + 64 * n)).take 64) i.ctx (ord + 2 + n) g x now ((Config.freeValue (taken + n)).setWidth 16)
  let cs := (List.range 80).filterMap entry
  { i with ctx := { i.ctx with suspended := pendingsIn 2048 ((area.drop 0x10000).take 0x10000) i.ctx.win g x ord ++ cs.flatMap (·.2) }, cmds := cs.map (·.1) }

/-- The window that a restored context takes: its own, or, for an idle one, one that the core has free. -/
def Sys.windowFor (s : Sys) (g x : Nat) (i : Saved) : Option Window :=
  let k := s.ctx g x
  let w := i.ctx.win
  let same (v : Window) : Bool := v.vwin == w.vwin && v.lbanks == w.lbanks && v.tcount == w.tcount && v.tqueue == w.tqueue && v.opmem == w.opmem && v.accmem == w.accmem
  if k.state = .idle then
    (s.roomFor { timed := i.ctx.timed, levels := [], bodyBudget := 0, code := [], data := [], vwin := w.vwin, lbanks := w.lbanks, tcount := w.tcount, tqueue := w.tqueue,
                 opmem := w.opmem, accmem := w.accmem, params := [] } g).map (·.2)
  else if same k.win then some k.win else none

/-- The memories of a window as the area has them. -/
def areaWrites (area : List Byte) (g x : Nat) (w : Window) (timed : Bool) : List Write :=
  (w.regions g x timed).map fun r => .put r.2.2.1 ((area.drop r.1).take r.2.2.2)

/-- The context takes the place of what stood there: it is halted, its work set aside (R352). An access that waited at its owner is made again when the context goes on (R332). -/
def Sys.install (s : Sys) (g x : Nat) (i : Saved) (k : Ctx) (cmds : List Cmd) (onto : Window) : Sys :=
  let old := i.place
  let mv (e : Ev) : Ev := e.moved k.win onto old.1 g x
  let again (t : Moving) : Moving := { t with parked := false }
  let shadow (p : Nat × Nat × List Byte) : Nat × Nat × List Byte := (p.1, p.2.1 + onto.vbase - k.win.vbase, p.2.2)
  let k' : Ctx := { k with
    win := onto, state := .halted, preq := false, killed := false, parked := !k.ended, relReq := false, held := false, stalling := false,
    suspended := k.suspended.map mv, probe := Vector.replicate 4 none, moving := k.moving.map again, region := { k.region with shadows := k.region.shadows.map shadow } }
  let own (c : Cmd) : Cmd := { c with ctx := x, parked := false }
  let flit (f : Flit) : Flit := { f with core := g, ctx := x }
  let land (e : Ev) : Ev := let e := mv e; { e with due := e.due + s.clockOf e }
  let s := (s.purge g x).setCtx g x k'
  let s := s.modCore g fun q => { q with cmds := q.cmds ++ cmds.map own, free := if k.timed then i.free else q.free, aow := if k.timed && x == 0 then i.aow else q.aow }
  let s : Sys := { s with agenda := s.agenda ++ i.landings.map land, flits := s.flits ++ i.flits.map flit }
  s.modSpread k.task.spread fun p => p.modMember old.1 old.2 fun m => { m with core := g, ctx := x }

/-- The accesses of a restore; one that stops leaves the context as it was (R352). -/
def Sys.restoreArea (s : Sys) (m : Memory) (g x : Nat) : Sys × List Write :=
  let k := s.ctx g x
  let base := k.areaBase
  let ord := 32 * (s.ord + 1)
  let first := s.readSpan m 0 g base 0x100000
  match first.2 with
  | .error t => (first.1.jobTrouble g x t, [])
  | .ok a =>
    let known := s.pkg.imageOf a base.toNat
    let img := known.getD (s.strange g x ord)
    let more := if img.ctx.timed && x == 0 then first.1.readSpan m 0 g (base + 0x100000) 0x248000 else (first.1, .ok [])
    match more.2 with
    | .error t => (more.1.jobTrouble g x t, [])
    | .ok b =>
      let area := a ++ b
      let y := more.1.endJob g x false
      match y.windowFor g x img with
      | none => (y, [])
      | some w =>
        let i := if known.isSome then img.edited area else img.rebuilt area g x ord (y.now g x) (y.taken + 0x1000)
        let i : Saved := { i with aow := aowLoaded i.aow area }
        let y : Sys := { y with taken := y.taken + saveTakes, ord := y.ord + 4 }
        let k := (i.ctx.loaded area ord).checkEdit area (if i.ctx.timed && x == 0 then { y.core g with aow := i.aow } else y.core g)
        let one := k.loadSweep i.cmds area base 0 x (32 * y.ord) (y.now g x)
        let two := one.1.loadSweep one.2 area base 1 x (32 * y.ord + 1) (y.now g x)
        (y.install g x i two.1 two.2 w, areaWrites area g x w k.timed)

/-! ## CCMD (R352) -/

/-- A command that a core takes: `err` clears, the fields hold the command. -/
def Sys.ccmd (s : Sys) (g x op : Nat) : Sys := s.modCore g fun q => { q with ccmd := { q.ccmd with op := op, ctx := x, err := false } }

/-- A command is taken while no save or restore is in progress on the core. -/
def Sys.takesCcmd (s : Sys) (g : Nat) : Bool := s.answers && (s.core g).ccmd.jobs.isEmpty

/-- The context stands still: states 5, 6 and 7, the first after a HALT too (R137, R352). -/
def Ctx.stopped (k : Ctx) : Bool := match k.state with | .halted | .faulted | .frozen => true | _ => false

/-- The supervisor may write the context's registers: states 0, 5, 6 and 7 (R30, R351). -/
def Ctx.still (k : Ctx) : Bool := match k.state with | .idle | .halted | .faulted | .frozen => true | _ => false

/-- CCMD_SAVE (R352). -/
def execCcmdSave (core : Nat) (ctx : Fin 4) (s : State) : Host.Outcome State Fault Refusal :=
  s.eventOn (decide (core < 1024)) fun y =>
    if !y.takesCcmd core then (y, [])
    else
      let y := y.ccmd core ctx 4
      (if (y.ctx core ctx).stopped then y.beginJob core ctx false else y, [])

/-- CCMD_RESTORE: refused for a killed context and while CSAB.`en` is 0 (R352). -/
def execCcmdRestore (core : Nat) (ctx : Fin 4) (s : State) : Host.Outcome State Fault Refusal :=
  s.eventOn (decide (core < 1024)) fun y =>
    if !y.takesCcmd core then (y, [])
    else
      let y := y.ccmd core ctx 1
      let k := y.ctx core ctx
      (if (k.state == .idle || (k.stopped && k.state != .frozen)) && !k.killed && bit k.csab 0 then y.beginJob core ctx true else y, [])

/-- A context goes on: it is ready; its first group comes to issue in the next tick at the earliest, or a tick later where a taken transfer had lost that one (R121), and its work goes on with it (R32, R34, R200, R334, R352). -/
def Sys.letGo (s : Sys) (g x : Nat) : Sys :=
  let free (c : Cmd) : Cmd := if c.ctx = x then { c with stopped := false } else c
  let s := s.modCore g fun q => { q with cmds := q.cmds.map free }
  s.modCtx g x fun k => { k.judgeSweeps with state := .ready, relReq := false, readyAt := s.now g x + 1 + (k.asideAt - (k.haltTick + boolNat (!k.mid))) }

/-- The tasks of a timed spread restart together once every one of them has been released; another context goes on at once (R32, R352). -/
def Sys.release (s : Sys) (g x : Nat) : Sys :=
  let k := s.ctx g x
  if !k.timed then s.letGo g x
  else
    let s := s.modCtx g x fun k => { k with relReq := true }
    let all := s.mates g x
    if all.all fun p => (s.ctx p.1 p.2).relReq then
      (all.foldl (fun s p => s.letGo p.1 p.2) s).modSpread k.task.spread fun p => { p with stopTick := none }
    else s

/-- CCMD_RELEASE: a halted context, or one that a restore has left halted (R352). -/
def execCcmdRelease (core : Nat) (ctx : Fin 4) (s : State) : Host.Outcome State Fault Refusal :=
  s.eventOn (decide (core < 1024)) fun y =>
    if !y.takesCcmd core then (y, [])
    else
      let y := y.ccmd core ctx 2
      let k := y.ctx core ctx
      (if k.state == .halted && !k.ended && k.parked then y.release core ctx else y, [])

/-- A context after its reset (R353): the registers of R18's list, and those the rule names, are clear. -/
def Ctx.cleared (k : Ctx) : Ctx :=
  { regs := { rm := k.regs.rm, xa := k.regs.xa, tcrw := k.regs.tcrw }, drift := k.drift, dfault := k.dfault, driftLimit := k.driftLimit, tstm := k.tstm,
    sweep := k.sweep.map fun w => { w with pass := none, raw := none } }

/-- CCMD_CONTEXT_RESET: the context's work is discarded, its registers and its vector window are clear, its windows are free (R353). -/
def execCcmdContextReset (core : Nat) (ctx : Fin 4) (s : State) : Host.Outcome State Fault Refusal :=
  s.eventOn (decide (core < 1024)) fun y =>
    if !y.takesCcmd core then (y, [])
    else
      let y := y.ccmd core ctx 3
      let k := y.ctx core ctx
      if k.stopped then ((y.purge core ctx).modCtx core ctx Ctx.cleared, clearWindow core k.win) else (y, [])

/-- CONTEXT_SAVE_AREA_DONE: a save or a restore makes its accesses and ends, or parks, or stops on a fault (R352). -/
def execContextSaveAreaDone (core : Nat) (ctx : Fin 4) (s : State) : Host.Outcome State Fault Refusal :=
  s.eventOn (decide (core < 1024)) fun y =>
    match (y.core core).ccmd.jobs.find? fun j => j.ctx == ctx.val with
    | none => (y, [])
    | some j => if !y.jobDue core j then (y, []) else if j.restore then y.restoreArea s.mem core ctx else y.save s.mem core ctx

/-- Saves and restores that end in this cycle. -/
def Sys.jobsDone (s : Sys) : List Instr :=
  s.cores.flatMap fun p => ctxNumbers.filterMap fun (x : Fin 4) =>
    if p.2.ccmd.jobs.any fun j => j.ctx == x.val && s.jobDue p.1 j then some (.contextSaveAreaDone p.1 x) else none

end Sys2Proof.Machine
end

