-- ==== Sys2Proof/Machine/Inspect.lean ====
section
/-! DEFINITION. The inspection window (R283, R313, R314, R350, R351, R357), the power registers (R355), the shared windows (R291) and incoming peer requests (R281). A read of the host changes nothing and is no event (log 17). -/

namespace Sys2Proof.Machine

/-! ## Blocks of the window (R283) -/

/-- Where an offset of BAR0 lies. -/
inductive Block where
  | device (off : Nat)
  | belvedere (off : Nat)
  | window (n off : Nat)
  | lodge (d off : Nat)
  | hub (off : Nat)
  | arbour (p off : Nat)
  /-- State register n of context c of core g. -/
  | stateReg (g c n : Nat)
  | aperture (g off : Nat)
  | core (g off : Nat)
  | nothing
  deriving DecidableEq, Repr, Inhabited

/-- The block that holds a BAR0 offset. -/
def blockOf (o : Nat) : Block :=
  if o < 0x10000 then .device o
  else if 0x1000000 ≤ o ∧ o < 0x2000000 then
    let b := o - 0x1000000
    if 0x100000 ≤ b ∧ b < 0x180000 then .window ((b - 0x100000) / 0x10000) (b % 0x10000) else .belvedere b
  else if 0x2000000 ≤ o ∧ o < 0x2400000 then .lodge ((o - 0x2000000) / 0x100000) (o % 0x100000)
  else if 0x2800000 ≤ o ∧ o < 0x2900000 then .hub (o - 0x2800000)
  else if 0x3000000 ≤ o ∧ o < 0x3080000 then .arbour ((o - 0x3000000) / 0x10000) (o % 0x10000)
  else if 0x4000000 ≤ o ∧ o < 0x4000000 + 1024 * 0x40000 then
    let g := (o - 0x4000000) / 0x40000
    let b := (o - 0x4000000) % 0x40000
    if b < 0x4000 then .stateReg g (b / 0x1000) (b % 0x1000 / 8)
    else if 0x20000 ≤ b ∧ b < 0x30000 then .aperture g (b - 0x20000)
    else .core g b
  else .nothing

/-! ## The data aperture (R350) -/

/-- The key of a byte that RBSEL's page shows, for memories 0 to 6. -/
def Core.shown (c : Core) (g off : Nat) : Option Nat :=
  let w := c.rbsel
  let page := fld w 16 16
  let at_ := 0x10000 * page + off
  match fld w 0 4 with
  | 0 => if page < 32 then some (scratchKey g at_) else none
  | 1 => if page < 8 then some (vecKey g page 0 0 0 + off) else none
  | 2 => if page < 4 then some (angleKey g at_) else none
  | 3 => if at_ < 0x8000 then some (scaleKey g at_) else none
  | 4 => if page < 2 then some (operandKey g at_) else none
  | 5 => if page < 2 then some (accKey g 0 + at_) else none
  | 6 =>
    let k := c.ctx (fld w 8 2)
    if at_ < 0x800 * k.win.lbanks then some (latchKey g k.win.lbase 0 + at_) else none
  | _ => none

/-- The bytes of memory 7: both sweep slots of the context that RBSEL names. -/
def Core.shownSweep (c : Core) : Option (List Byte) :=
  if fld c.rbsel 0 4 = 7 ∧ fld c.rbsel 16 16 = 0 then some (c.ctx (fld c.rbsel 8 2)).sweepBytes else none

/-- A byte read through the aperture. -/
def Sys.shownByte (s : Sys) (m : Memory) (g off : Nat) : Byte :=
  let c := s.core g
  match c.shown g off, c.shownSweep with
  | some k, _ => m.get k
  | none, some bs => bs.getD off 0
  | none, none => 0

/-! ## Reading (R351) -/

/-- SERRC, PWRST, PWRCTL, THST as registers (R341, R355). -/
def Pkg.serrc (p : Pkg) : Word := BitVec.ofNat 64 (Nat.min p.serrUe (2 ^ 32 - 1) * 2 ^ 32 + Nat.min p.serrCe (2 ^ 32 - 1))
def Power.pwrst (p : Power) : Word := BitVec.ofNat 64 (p.nstall.toNat * 2 ^ 32 + p.pwr % 65536 * 2 ^ 16 + boolNat p.stall * 8 + p.d)
def Power.pwrctl (p : Power) : Word := BitVec.ofNat 64 (p.plim * 2 ^ 16 + p.dmax)
def Power.thst (p : Power) : Word :=
  BitVec.ofNat 64 (boolNat p.trip * 2 ^ 33 + boolNat p.alarm * 2 ^ 32 + p.tout % 256 * 2 ^ 24 + p.tin % 256 * 2 ^ 16 + p.tj % 65536)

/-- DEVST and SEALST (R285, R288). DEVST reads 0 until phase 5 is reached, or a phase has failed (R285, R349; DEDUCED, log 70). -/
def Security.devst (d : Security) : Word := if !d.ready && !d.fail then 0 else BitVec.ofNat 64 (d.err.toNat * 2 ^ 32 + d.phase % 16 * 16 + boolNat d.fail * 2 + boolNat d.ready)
def Security.sealst (d : Security) : Word := BitVec.ofNat 64 (d.gen.toNat * 2 ^ 32 + d.sealState % 4)

/-- WINnCTL and WINnST (R254). -/
def TileWindow.ctl (w : TileWindow) : Word := BitVec.ofNat 64 (boolNat w.en * 256 + w.prio % 8)
def Sys.winst (s : Sys) (n : Nat) : Word :=
  let w := vget s.pkg.wins n
  let gated := match w.entries with | .gate g :: _ => !s.gateOpen g | _ => false
  BitVec.ofNat 64 (s.queued (.window n) .pkg * 2 ^ 32 + (64 - w.entries.length) * 2 ^ 16 + boolNat w.ovf * 2 + boolNat gated)

/-- An entry of the package fault queue, by its place in the ring. -/
def Pkg.pfqWord (p : Pkg) (i q : Nat) : Word :=
  match p.pfq[(i + 64 - p.pfqHead) % 64]? with
  | some e => (match q with | 0 => e.1 | 1 => e.2.1 | 2 => e.2.2.1 | _ => e.2.2.2)
  | none => 0

def Pkg.pfqst (p : Pkg) : Word := BitVec.ofNat 64 (boolNat p.pfqOvf * 2 ^ 63 + p.pfq.length * 256 + p.pfqHead)

/-- TLBINV as read: `busy` with the last write's fields (R276). -/
def Owner.tlbinv (w : Owner) : Word := w.inv ||| (if w.invDue.isSome then 0x8000000000000000 else 0)

/-- Core FRZST (R313). -/
def Core.frzst (c : Core) : Word :=
  BitVec.ofNat 64 (boolNat c.frozenCopy * 16 + (List.range 4).foldl (fun n x => n + boolNat ((c.ctx x).state == .frozen) * 2 ^ x) 0)

/-- CCMD as read (R352). -/
def Ccmd.word (c : Ccmd) : Word := BitVec.ofNat 64 (boolNat (!c.jobs.isEmpty) * 2 ^ 63 + boolNat c.err * 2 ^ 62 + c.op % 16 * 16 + c.ctx % 4)

/-- The 64-bit register, or the aligned part of a memory, at a BAR0 offset (R350, R351). Ports and write-only registers read 0. -/
def Sys.registerAt (s : Sys) (m : Memory) (o : Nat) : Word :=
  let p := s.pkg
  match blockOf o with
  | .device b => (match b with
    | 0x00 => Config.devid | 0x08 => p.sec.devst | 0x10 => p.sec.sealst | 0x18 => p.serrc | 0x20 => p.pw.pwrst | 0x28 => p.pw.pwrctl | 0x30 => BitVec.ofNat 64 (p.rstKey.toNat * 2 ^ 32) | 0x38 => p.pw.thst
    | _ => 0)
  | .belvedere b =>
    if b = 0x0800 then p.pfqst
    else if b = 0x0810 then BitVec.ofNat 64 (Nat.min p.parked.length 65535 * 2 ^ 32)
    else if 0x1000 ≤ b ∧ b < 0x1800 then p.pfqWord ((b - 0x1000) / 32) (b % 32 / 8)
    else 0
  | .window n b =>
    let w := vget p.wins n
    if b = 0x100 then w.ctl
    else if b = 0x108 then s.winst n
    else if 0x110 ≤ b ∧ b < 0x130 then vget w.h ((b - 0x110) / 8)
    else if b = 0x130 then w.cm
    else if b = 0x138 then w.cms
    else if 0x140 ≤ b ∧ b < 0x160 then vget w.tfr ((b - 0x140) / 8)
    else if 0x200 ≤ b ∧ b < 0x400 then (vget w.tc ((b - 0x200) / 8)).setWidth 64
    else 0
  | .lodge d b =>
    let l := vget p.lodges d
    if b = 0 then (vget p.owners d).ptb
    else if b = 8 then (vget p.owners d).tlbinv
    else if b = 0x10 then l.lstg
    else if b = 0x100 then l.frozen.setWidth 64
    else if 0x1000 ≤ b ∧ b < 0x1800 then vget (vget l.patterns ((b - 0x1000) / 32)) (b % 32 / 8)
    else 0
  | .hub b =>
    if b = 0 then (vget p.owners 4).ptb
    else if b = 8 then (vget p.owners 4).tlbinv
    else if 0x100 ≤ b ∧ b < 0x200 then vget p.hwin ((b - 0x100) / 8)
    else if 0x200 ≤ b ∧ b < 0x280 then vget p.shw ((b - 0x200) / 8)
    else if b = 0x300 then p.frozenLinks.setWidth 64
    else if 0x1000 ≤ b ∧ b < 0x1800 then vget p.prt ((b - 0x1000) / 8)
    else if 0x2000 ≤ b ∧ b < 0x2100 then vget p.pwin ((b - 0x2000) / 8)
    else 0
  | .arbour q b => if b = 0 then vget p.astg q else 0
  | .stateReg g c n => (s.stateReg g c n).getD 0
  | .aperture g b => BitVec.ofNat 64 (leNat ((List.range 8).map fun i => s.shownByte m g (b + i)))
  | .core g b =>
    let c := s.core g
    if b = 0x10000 then c.rbsel else if b = 0x3F000 then c.frzst else if b = 0x3F010 then c.ccmd.word else 0
  | .nothing => 0

/-- What stays readable on a sealed device: the device block, WINnST, WINnH0 to WINnH3, WINnTC and WINnCMS (R284). -/
def readableSealed (o : Nat) : Bool :=
  match blockOf o with
  | .device _ => true
  | .window _ b => b == 0x108 || b == 0x138 || (decide (0x110 ≤ b) && decide (b < 0x130)) || (decide (0x200 ≤ b) && decide (b < 0x400))
  | _ => false

/-- What a read of the host returns at a BAR0 offset: before boot is complete, only the device block's registers; on a sealed device, only what R284 leaves (R284, R285). -/
def Sys.bar0 (s : Sys) (m : Memory) (o : Nat) : Word :=
  let device := match blockOf o with | .device _ => true | _ => false
  if device || (s.pkg.sec.ready && (s.pkg.opened || readableSealed o)) then s.registerAt m o else 0

/-- The eight bytes of the register that holds an offset, as a read of the host meets them. -/
def Sys.registerBytes (s : Sys) (m : Memory) (o : Nat) : List Byte := leBytes 8 (s.bar0 m (o - o % 8)).toNat

/-- What a read of `n` bytes at a BAR0 offset returns (R357): aligned parts of eight bytes in ascending order; of four bytes, those of the enclosing register; in the aperture exactly the bytes named; and zeros for any other access. -/
def Sys.hostRead (s : Sys) (m : Memory) (o n : Nat) : List Byte :=
  let aperture (o : Nat) : Bool := match blockOf o with | .aperture .. => true | _ => false
  if aperture o || (o % 8 == 0 && n % 8 == 0) || (o % 4 == 0 && n == 4) then
    (List.range n).map fun i => if aperture o && !aperture (o + i) then 0 else (s.registerBytes m (o + i)).getD ((o + i) % 8) 0
  else List.replicate n 0

/-! ## Writing (R351, R357) -/

/-- The bits that the byte enables of an access name. -/
def byteMask (be : BitVec 8) : Word := BitVec.ofNat 64 ((List.range 8).foldl (fun n i => n + (if be.getLsbD i then 255 * 2 ^ (8 * i) else 0)) 0)

/-- A single aligned access of 8 bytes, or of 4 (R357). -/
def wholeAccess (be : BitVec 8) : Bool := be == 0xFF || be == 0x0F || be == 0xF0

/-- The W1C bits of a state register. -/
def w1cOf (sn : Nat) : Word :=
  if sn = 0x034 then 0x0FFFFFFFFFFFFFFF
  else if sn = 0x035 then 0x0000FFFFFFFFFFFF
  else if sn = 0x036 ∨ sn = 0x050 then 0x8000000000000000
  else if 0x100 ≤ sn ∧ sn < 0x110 ∧ sn % 2 = 1 then 0xFFFFFFFF00000000
  else if 0x180 ≤ sn ∧ sn < 0x190 then 0x0000000100000000
  else if sn = 0x1B0 then allOnes
  else 0

/-- A register of RW fields after a write that names some of its bytes; reserved bits stay zero. -/
def written (old v : Word) (be : BitVec 8) (rw : Word) : Word :=
  let m := byteMask be
  ((old &&& ~~~m) ||| (v &&& m)) &&& rw

/-- A write of a state register by the supervisor: only while the context is in state 0, 5, 6 or 7 (R30, R351). OSLT is the core's, and so are the regions; all follow the context whose block names them. -/
def Sys.inspectState (s : Sys) (g x sn : Nat) (v : Word) (be : BitVec 8) : Sys :=
  let k := s.ctx g x
  if !k.still then s
  else
    let w1c := w1cOf sn
    let full := written ((s.stateReg g x sn).getD 0 &&& ~~~w1c) v be allOnes
    if sn = 0 then s.modCtx g x fun k => { k with pc := full.setWidth 32 }
    else if sn = 0x192 then s.modCore g fun c => { c with oslt := full &&& 0x3333333333333333 }
    else s.setStateReg g x sn full

/-- The record and gate ports: an entry enters its window when its last byte arrives (R254). -/
def TileWindow.arrive (w : TileWindow) (isGate : Bool) (bs : List Byte) : TileWindow :=
  if isGate then
    let g := w.gpart ++ bs
    if g.length < 8 then { w with gpart := g } else ({ w with gpart := g.drop 8 }).push (.gate (BitVec.ofNat 64 (leNat (g.take 8))))
  else
    let r := w.part ++ bs
    if r.length < 64 then { w with part := r } else ({ w with part := r.drop 64 }).push (.record (recordOf (r.take 64)))

/-- The bytes of a word that an access carries. -/
def carried (v : Word) (be : BitVec 8) : List Byte := ((List.range 8).filter fun i => be.getLsbD i).map fun i => BitVec.ofNat 8 (v.toNat / 2 ^ (8 * i))

/-- Window registers. -/
def Sys.inspectWindow (s : Sys) (n b : Nat) (v : Word) (be : BitVec 8) : Sys :=
  let m := byteMask be
  let one (w : TileWindow) : TileWindow :=
    if b < 0x40 then w.arrive false (carried v be)
    else if b < 0x48 then w.arrive true (carried v be)
    else if b = 0x100 then let c := written w.ctl v be 0x107; { w with en := bit c 8, prio := fld c 0 3 }
    else if b = 0x108 then { w with ovf := w.ovf && !bit (v &&& m) 1 }
    else if 0x110 ≤ b ∧ b < 0x130 then { w with h := vmod w.h ((b - 0x110) / 8) fun o => written o v be allOnes }
    else if b = 0x140 then (if bit (v &&& m) 63 then { w with tfr := Vector.replicate 4 0 } else w)
    else w
  s.modWin n one

/-- Lodge registers, and the patterns of the die's units (R239, R274, R278). -/
def Sys.inspectLodge (s : Sys) (d b : Nat) (v : Word) (be : BitVec 8) : Sys :=
  let p := s.pkg
  if b = 0 then { s with pkg := { p with owners := vmod p.owners d fun w => { w with ptb := written w.ptb v be 0x000007FFFFC00001 } } }
  else
    { s with pkg := { p with lodges := vmod p.lodges d fun l =>
        if b = 0x10 then { l with lstg := written l.lstg v be 0xFFFFFFFFFFE0FFFF }
        else if 0x1000 ≤ b ∧ b < 0x1800 then
          { l with patterns := vset l.patterns ((b - 0x1000) / 32) (vmod (vget l.patterns ((b - 0x1000) / 32)) (b % 32 / 8) fun o => written o v be allOnes) }
        else l } }

/-- Hub registers (R280, R281, R291, R292). -/
def Sys.inspectHub (s : Sys) (b : Nat) (v : Word) (be : BitVec 8) : Sys :=
  let p := s.pkg
  let page : Word := 0xFFFFFFFFFFE00000
  { s with pkg :=
    if b = 0 then { p with owners := vmod p.owners 4 fun w => { w with ptb := written w.ptb v be 0x000007FFFFC00001 } }
    else if 0x100 ≤ b ∧ b < 0x200 then { p with hwin := vmod p.hwin ((b - 0x100) / 8) fun o => written o v be page }
    else if 0x200 ≤ b ∧ b < 0x280 then { p with shw := vmod p.shw ((b - 0x200) / 8) fun o => written o v be (if b % 16 = 0 then 0xFFFF000FFFE00000 else page) }
    else if 0x1000 ≤ b ∧ b < 0x1800 then { p with prt := vmod p.prt ((b - 0x1000) / 8) fun o => written o v be 0x1FFFF }
    else if 0x2000 ≤ b ∧ b < 0x2100 then { p with pwin := vmod p.pwin ((b - 0x2000) / 8) fun o => written o v be page }
    else p }

/-- Both fields of PWRCTL as they can be: a value out of range leaves its field (R355). -/
def Power.limits (p : Power) (v : Word) : Power :=
  let plim := fld v 16 16
  let dmax := fld v 0 3
  let p := if 100 ≤ plim ∧ plim ≤ 420 then { p with plim := plim } else p
  if 1 ≤ dmax ∧ dmax ≤ 4 then { p with dmax := dmax } else p

/-- At a tick boundary a divisor above `dmax` falls to it, and has reached it (R355, R356). -/
def Power.settle (p : Power) : Power := if p.dmax < p.d then { p with d := p.dmax, alarm := true } else p

/-- A change of the power state: a new `d`, an `alarm` or a `trip` raises MSI-X vector 10 (R356). -/
def Sys.setPower (s : Sys) (f : Power → Power) : Sys :=
  let old := s.pkg.pw
  let new := f old
  let tells := new.d != old.d || (new.alarm && !old.alarm) || (new.trip && !old.trip)
  { s with pkg := { s.pkg with pw := new, msix := if tells then s.pkg.msix ||| 0x400 else s.pkg.msix } }

/-- PWRCTL_WRITE (R355). -/
def execPwrctlWrite (v : Word) (s : State) : Host.Outcome State Fault Refusal := s.event fun y => (if y.pkg.pw.powered && y.heard then y.setPower fun p => p.limits v else y, [])

/-- Device registers but RSTCTL: PWRCTL, and THST's `alarm` (R355). They answer before boot is complete (R285). -/
def Sys.inspectDevice (s : Sys) (b : Nat) (v : Word) (be : BitVec 8) : Sys :=
  if b = 0x28 then s.setPower fun p => p.limits (written p.pwrctl v be allOnes)
  else if b = 0x38 then s.setPower fun p => { p with alarm := p.alarm && !bit (v &&& byteMask be) 32 }
  else s

/-- Core registers: RBSEL (R350). -/
def Sys.inspectCore (s : Sys) (g b : Nat) (v : Word) (be : BitVec 8) : Sys :=
  if b = 0x10000 then s.modCore g fun c => { c with rbsel := written c.rbsel v be 0x00000000FFFF030F } else s

/-- CCMD written as a register: the command its fields name (R352). -/
def ccmdWritten (g : Nat) (v : Word) (s : State) : Host.Outcome State Fault Refusal :=
  let x : Fin 4 := Fin.ofNat 4 (fld v 0 2)
  match fld v 4 4 with
  | 1 => execCcmdRestore g x s
  | 2 => execCcmdRelease g x s
  | 3 => execCcmdContextReset g x s
  | 4 => execCcmdSave g x s
  | _ => s.event fun y => (if y.takesCcmd g then y.ccmd g x (fld v 4 4) else y, [])

/-- Bytes by key, as runs of bytes that follow one another: an access arrives whole, so that its elements do (R56). -/
def runsOf (cells : List (Nat × Byte)) : List (Nat × List Byte) :=
  cells.foldr (fun c acc => match acc with | r :: rest => if r.1 = c.1 + 1 then (c.1, c.2 :: r.2) :: rest else (c.1, [c.2]) :: acc | [] => [(c.1, [c.2])]) []

/-- Bytes written through the aperture. Memories 0 to 5 take them at their write port, last among the writes of the cycle; the latch banks and sweep slots only while the context stands still (R350, R351, log 18). -/
def Sys.writeAperture (s : Sys) (g off : Nat) (bs : List (Option Byte)) : Sys :=
  let c := s.core g
  let x := fld c.rbsel 8 2
  let k := c.ctx x
  let quiet := k.still
  match c.shownSweep with
  | some rec =>
    let new := (List.range rec.length).map fun i => if off ≤ i then ((bs.getD (i - off) none).getD (rec.getD i 0)) else rec.getD i 0
    if !quiet then s
    else
      let one := k.editSweep c.cmds (new.take 0x5000) 0 x (32 * (s.ord + 1)) (s.now g x)
      let two := one.1.editSweep one.2 (new.drop 0x5000) 1 x (32 * (s.ord + 1) + 1) (s.now g x)
      ({ s with ord := s.ord + 1 } : Sys).setCore g { c with cmds := two.2, ctxs := vset c.ctxs x two.1 }
  | none =>
    if fld c.rbsel 0 4 = 6 ∧ !quiet then s
    else
      let cells := (List.range bs.length).filterMap fun i => match bs.getD i none, c.shown g (off + i) with | some b, some key => some (key, b) | _, _ => none
      (runsOf cells).foldl (fun s p => s.post g x s.wcyc 10 (32 * s.ord + 31) (.put p.1 255 p.2)) s

/-- READBACK_APERTURE_WRITE (R351). -/
def execReadbackApertureWrite (core : Nat) (off : BitVec 16) (bytes : List Byte) (s : State) : Host.Outcome State Fault Refusal :=
  if core < 1024 then s.inspected fun y => y.writeAperture core off.toNat ((bytes.take (0x10000 - off.toNat)).map some) else .fault .absentUnit

/-! ## The shared windows and the span links (R281, R291) -/

/-- What became of a request from outside that is translated: it performed, with the bytes it read; it meets a fault; or it waits for an invalidation, after so many bytes. -/
inductive Arrived where
  | done (data : List Byte)
  | trouble (code : Nat)
  | waits (n : Nat)
  deriving DecidableEq, Repr, Inhabited

/-- Bytes of an ATOM's operand (R194). -/
def atomBytes (wide : Bool) : Nat := if wide then 8 else 4

/-- The bytes that a request reads or writes. -/
def requestLength : PeerRequest → Nat
  | .read n => n
  | .write d => d.length
  | .atom _ wide _ _ _ => atomBytes wide

/-- A request that writes, and one that is posted: it has no answer. -/
def requestWrites : PeerRequest → Bool
  | .read _ => false
  | _ => true
def requestPosted : PeerRequest → Bool
  | .write _ => true
  | _ => false

/-- The request as its owner translates it. -/
def requestAccess (q : PeerRequest) (host : Bool) : Access :=
  match q with
  | .read _ => { reads := true, host := host }
  | .write _ => { writes := true, host := host }
  | .atom .. => { reads := true, writes := true, atom := true, host := host }

/-- What is left of a request of which n bytes have performed: a read starts anew. -/
def requestRest (q : PeerRequest) (n : Nat) : Nat × PeerRequest :=
  match q with
  | .write d => (n, .write (d.drop n))
  | q => (0, q)

/-- A read from outside that meets a poisoned word gets no data (R341). -/
def Sys.readOutside (s : Sys) (m : Memory) (p : Place) (n : Nat) : Option (List Byte) × Sys :=
  if p.key.any fun k => (s.poisoned k n).isSome then (none, s) else let r := s.readPlace m p n; (some r.1, r.2)

/-- One piece of a request performs at its place: the bytes read, or none for poison. -/
def Sys.serveAt (s : Sys) (m : Memory) (p : Place) (q : PeerRequest) (from_ n : Nat) : Sys × List Write × Option (List Byte) :=
  match q with
  | .read _ => let r := s.readOutside m p n; (r.2, [], r.1)
  | .write d => let r := s.writePlace m p ((d.drop from_).take n); (r.1, r.2, some [])
  | .atom op wide uns v cmp =>
    let k := atomBytes wide
    match s.readOutside m p k with
    | (none, s) => (s, [], none)
    | (some old, s) =>
      let r := s.writePlace m p (leBytes k (atomResult op.toNat k uns (leNat old) (v.toNat % 2 ^ (8 * k)) (cmp.toNat % 2 ^ (8 * k))))
      (r.1, r.2, some old)

/-- A request that arrives at a virtual address, cut at 64-byte boundaries, until one piece meets trouble or waits (R275, R276). -/
def Sys.arriveAt (s : Sys) (m : Memory) (va : Word) (q : PeerRequest) (host : Bool) : Sys × List Write × Arrived :=
  (piecesOf va.toNat (requestLength q)).foldl (fun (acc : Sys × List Write × Arrived) p =>
    match acc.2.2 with
    | .done got =>
      let r := acc.1.translate m (BitVec.ofNat 64 p.1) (requestAccess q host)
      match r.1 with
      | .ok pl =>
        let x := r.2.serveAt m pl q (p.1 - va.toNat) p.2
        (x.1, acc.2.1 ++ x.2.1, match x.2.2 with | some bs => .done (got ++ bs) | none => .trouble 0)
      | .fault code => (r.2, acc.2.1, .trouble code)
      | .wait => (r.2, acc.2.1, .waits (p.1 - va.toNat))
    | _ => acc) (s, [], .done [])

/-- A request of a link meets a fault: an unmapped page is reported, a violation freezes the link; the request ends with an error (R312, R330). The spec gives no place in the module for the path of a link; here it has depth 0 and no die (DESIGN CHOICE, log 61). -/
def Sys.linkFault (s : Sys) (mst bitNo : Nat) (va : Word) (code : Nat) : Sys :=
  let path : Word := BitVec.ofNat 64 (mst * 2 ^ 27)
  match code with
  | 1 =>
    let key := (va.toNat / 2 ^ 21, mst, bitNo)
    if s.pkg.reported.contains key then s
    else { (s.pfqAppend (faultWord0 false 7 1 0 0, path, va, 0)) with pkg := { (s.pfqAppend (faultWord0 false 7 1 0 0, path, va, 0)).pkg with reported := s.pkg.reported ++ [key] } }
  | 2 =>
    let s := s.pfqAppend (faultWord0 false 7 2 0 0, path, va, 0)
    { s with pkg := { s.pkg with frozenLinks := s.pkg.frozenLinks ||| ((1 : BitVec 17) <<< bitNo) } }
  | _ => s

/-- A request with an answer completes: with its data, or with an error. -/
def Sys.reply (s : Sys) (link : Nat) (q : PeerRequest) (data : Option (List Byte)) : Sys :=
  if requestPosted q then s else { s with pkg := { s.pkg with completion := some { link := link, data := data } } }

/-- A request of link `link` through the window of word 0 `w` and target `va` (R281, R291): it ends, or waits with what is left of it. -/
def Sys.request (s : Sys) (m : Memory) (mst link off : Nat) (va : Word) (q : PeerRequest) : Sys × List Write :=
  let r := s.arriveAt m va q (link == 16)
  (match r.2.2 with
   | .done bs => r.1.reply link q (some bs)
   | .trouble code => (r.1.linkFault mst link va code).reply link q none
   | .waits n => { r.1 with retried := r.1.retried ++ [(link, off + (requestRest q n).1, (requestRest q n).2)] }, r.2.1)

/-- A host access at a BAR2 offset. Before boot is complete a read returns zeros and a write is discarded (R285). Through a frozen link a read completes with an error and a write is dropped. A read that no window covers gives all ones; a write that none covers, or that its window does not let be written, is discarded (R291, R312). -/
def Sys.hostAccess (s : Sys) (m : Memory) (off : Nat) (q : PeerRequest) : Sys × List Write :=
  if !s.pkg.pw.powered then (s, [])
  else if !s.pkg.sec.ready then (s.reply 16 q (some (List.replicate (requestLength q) 0)), [])
  else if s.pkg.frozenLinks.getLsbD 16 then (s.reply 16 q none, [])
  else
    match shwOf s.pkg.shw off 8 with
    | none => (s.reply 16 q (some (List.replicate (requestLength q) 0xFF)), [])
    | some w =>
      if requestWrites q && !bit w.1 62 then (s, [])
      else s.request m 3 16 off (w.2 + BitVec.ofNat 64 (off - fld w.1 21 15 * 2 ^ 21)) q

/-- An incoming request of a span link. A link without an agreed key carries none. Through a frozen link it completes with an error. What no peer window covers, or a window does not let be written, is a violation that freezes the link (R281, R312). -/
def Sys.peerAccess (s : Sys) (m : Memory) (k off : Nat) (q : PeerRequest) : Sys × List Write :=
  let violates : Sys := (s.linkFault 4 k (BitVec.ofNat 64 off) 2).reply k q none
  if !s.pkg.sec.ready || !s.pkg.sec.linkKeys.getLsbD k then (s, [])
  else if s.pkg.frozenLinks.getLsbD k then (s.reply k q none, [])
  else
    match pwinOf s.pkg.pwin off 16 with
    | none => (violates, [])
    | some w =>
      if requestWrites q && !bit w.1 62 then (violates, [])
      else s.request m 4 k off (w.2 + BitVec.ofNat 64 (off - fld w.1 21 27 * 2 ^ 21)) q

/-- The request that a host access makes. -/
def hostRequest (len : Nat) (data : Option (List Byte)) : PeerRequest := match data with | some d => .write d | none => .read len

/-- SHARED_WINDOW_ACCESS (R291). -/
def execSharedWindowAccess (off : BitVec 36) (len : Nat) (data : Option (List Byte)) (s : State) : Host.Outcome State Fault Refusal :=
  s.event fun y => y.hostAccess s.mem off.toNat (hostRequest len data)

/-- The request that an operation over a length of bytes is (R194). -/
def peerRequestOf (len : Nat) : PeerOp → PeerRequest
  | .read => .read len
  | .write data => .write (data.take len)
  | .atom op uns v cmp => .atom op (len == 8) uns v cmp

/-- PEER_REQUEST (R281). -/
def execPeerRequest (link : BitVec 4) (off : BitVec 48) (len : Nat) (op : PeerOp) (s : State) : Host.Outcome State Fault Refusal :=
  s.event fun y => y.peerAccess s.mem link.toNat off.toNat (peerRequestOf len op)

/-- The requests that waited for an invalidation are tried again, in the order in which they came (R276). -/
def State.retry (s : State) : State :=
  s.sys.retried.foldl (fun s q =>
    let r := if q.1 = 16 then s.sys.hostAccess s.mem q.2.1 q.2.2 else s.sys.peerAccess s.mem q.1 q.2.1 q.2.2
    { mem := s.mem.writeAll r.2, sys := r.1.mend r.2 }) { s with sys := { s.sys with retried := [] } }

end Sys2Proof.Machine
end

