-- ==== Sys2Proof/Machine/Power.lean ====
section
/-! DEFINITION. Clock divisor, stall windows, temperature (R270, R355, R356) and soft errors (R341). -/

namespace Sys2Proof.Machine

/-! ## What the sensors measure (R355)

Power and temperatures come from outside the module: they read what `Sys.sensors` gives from its cycle on. An event that comes from outside with readings that do not say so brings free readings of its own, within what the event says (log 68). -/

/-- The junction temperatures of R356, in units of 1/16 °C: the throttling point 95 °C, the point to recover 90 °C, the trip 105 °C. -/
def hotPoint : Nat := 95 * 16
def coolPoint : Nat := 90 * 16
def tripPoint : Nat := 105 * 16

/-- `pwr` exceeds `plim`, or `tj` exceeds 95 °C (R356). -/
def Power.over (p : Power) : Bool := decide (p.plim < p.pwr) || decide (hotPoint < p.tj)

/-- `pwr` is below 0.9 × `plim`, and `tj` below 90 °C (R356). -/
def Power.under (p : Power) : Bool := decide (10 * p.pwr < 9 * p.plim) && decide (p.tj < coolPoint)

/-- New readings. -/
def Power.read (p : Power) (w : Word) (pwr tj : Nat) : Power := { p with pwr := pwr, tj := tj, tin := fld w 32 8, tout := fld w 40 8 }

/-- Readings over a limit: those that stand, if they are, else free ones of the power, or else the temperature. A trip's temperature stays. -/
def Power.readOver (p : Power) (w : Word) : Power :=
  let pwr := fld w 0 16
  if p.over then p else p.read w pwr (if p.trip then p.tj else if p.plim < pwr then fld w 16 16 % tripPoint else hotPoint + 1 + fld w 16 16 % (tripPoint - hotPoint - 1))

/-- Readings under the limits: those that stand, if they are, else free ones. -/
def Power.readUnder (p : Power) (w : Word) : Power := if p.under then p else p.read w (fld w 0 16 % ((9 * p.plim + 9) / 10)) (fld w 16 16 % coolPoint)

/-- 100 µs and 1 ms in half nanoseconds (R4, R356). -/
def hotTime : Nat := 200000
def coolTime : Nat := 2000000

/-- A cycle of `d` half nanoseconds passes: the time for which a limit has been exceeded, and that for which both readings have been under the points of recovery (R4, R356). -/
def Power.time (p : Power) : Power := { p with hot := if p.over then p.hot + p.d else 0, cool := if p.under then p.cool + p.d else 0 }

/-- The readings that the sensors give from this cycle on (R355). -/
def Sys.readSensors (s : Sys) : Sys :=
  (s.sensors.filter fun q => decide (q.1 ≤ s.wcyc)).foldl (fun s q => { s with pkg := { s.pkg with pw := s.pkg.pw.read q.2 (fld q.2 0 16) (fld q.2 16 16) } })
    { s with sensors := s.sensors.filter fun q => decide (s.wcyc < q.1) }

/-- The sensors are read for an event. -/
def Sys.sense (s : Sys) (f : Power → Word → Power) : Sys :=
  let v := s.freeValue
  { v.2 with pkg := { v.2.pkg with pw := f v.2.pkg.pw v.1 } }

/-! ## Stall windows (R31, R270) -/

/-- A context of the package drains, also while its group holds. -/
def Sys.draining (s : Sys) : Bool := s.cores.any fun p => p.2.ctxs.toList.any fun k => k.live && (k.preq || k.state == .draining)

/-- The window of `n` cycles, or of no set length for `n` = 0, joins what is open. -/
def Power.openFor (p : Power) (n : Nat) : Power :=
  if p.stall then { p with left := if n = 0 then none else p.left.map fun l => Nat.max l n }
  else { p with stall := true, nstall := if p.nstall = 0xFFFFFFFF then p.nstall else p.nstall + 1, left := if n = 0 then none else some n }

/-- A stall window falls due: it opens package-wide, or waits until no context drains (R31). -/
def Sys.dueWindow (s : Sys) (n : Nat) : Sys :=
  if s.draining then
    s.setPower fun p => { p with pendingStall := some (match p.pendingStall with | some m => if m = 0 ∨ n = 0 then 0 else Nat.max m n | none => n) }
  else s.setPower fun p => p.openFor n

/-- STALL_WINDOW_OPEN: a power or thermal limit is exceeded, and the device opens a window (R12, R270, R356). A window has a whole number of cycles, at least one (R270); those that throttling itself opens are `Sys.throttle`, and another that arrives is a choice of the device beyond R356 (log 68). -/
def execStallWindowOpen (cycles : Nat) (s : State) : Host.Outcome State Fault Refusal :=
  s.event fun y => (if y.pkg.pw.powered ∧ cycles ≠ 0 then (y.sense Power.readOver).dueWindow cycles else y, [])

/-- A window that waited opens once no context drains. -/
def Sys.openPending (s : Sys) : Sys :=
  match s.pkg.pw.pendingStall with
  | some n => if s.draining then s else (s.setPower fun p => { p with pendingStall := none }).dueWindow n
  | none => s

/-- A cycle of the open window passes. -/
def Power.pass (p : Power) : Power := if p.stall then { p with left := p.left.map fun l => l - 1 } else p

/-- STALL_WINDOW_CLOSE: the window's cycles are over (R270, R356). -/
def execStallWindowClose (s : State) : Host.Outcome State Fault Refusal :=
  s.event fun y => (if y.pkg.pw.stall ∧ y.pkg.pw.left = some 0 then y.setPower fun p => { p with stall := false, left := none } else y, [])

/-- The window ends in this cycle. -/
def Sys.windowOver (s : Sys) : List Instr := if s.pkg.pw.stall && s.pkg.pw.left == some 0 then [.stallWindowClose] else []

/-! ## The divisor (R356) -/

/-- DIVISOR_RAISE: for 100 µs `pwr` has exceeded `plim`, or `tj` 95 °C; `d` rises by 1, up to `dmax`; reaching it sets `alarm`. -/
def execDivisorRaise (s : State) : Host.Outcome State Fault Refusal :=
  s.event fun y => (if y.pkg.pw.powered then (y.sense Power.readOver).setPower fun p => if p.d < p.dmax then { p with hot := 0, d := p.d + 1, alarm := p.alarm || p.d + 1 == p.dmax } else p else y, [])

/-- DIVISOR_LOWER: for 1 ms `pwr` has been below 0.9 × `plim` and `tj` below 90 °C; throttling windows close, and `d` falls by 1. This cannot be while `trip` is set. -/
def execDivisorLower (s : State) : Host.Outcome State Fault Refusal :=
  s.event fun y => (if y.pkg.pw.powered && !y.pkg.pw.trip then (y.sense Power.readUnder).setPower fun p =>
    let p : Power := if p.left.isSome then { p with stall := false, left := none } else p
    { p with cool := 0, d := if 1 < p.d then p.d - 1 else p.d, pendingStall := p.pendingStall.filter fun n => n == 0 } else y, [])

/-! ## Temperature (R355, R356) -/

/-- The point at which the window of a trip closes, 100 °C, and that at which the module removes its power, 115 °C (R356). -/
def reopenPoint : Nat := 100 * 16
def offPoint : Nat := 115 * 16

/-- THERMAL_TRIP: `trip` and `alarm` are set, and a window opens that stays until `tj` falls below 100 °C. `tj` is at least 105 °C (log 5). -/
def execThermalTrip (s : State) : Host.Outcome State Fault Refusal :=
  s.event fun y => (if y.pkg.pw.powered then (y.setPower fun p => { p with trip := true, alarm := true, tj := Nat.max p.tj tripPoint }).dueWindow 0 else y, [])

/-- The window of a trip is open, or waits to open. -/
def Power.tripWindow (p : Power) : Bool := (p.stall && p.left.isNone) || p.pendingStall == some 0

/-- TRIP_CLEAR: below 105 °C `trip` is clear, and below 100 °C its window closes. With a reading that is still at 105 °C or above, `tj` falls to a free value below 100 °C (log 5). -/
def execTripClear (s : State) : Host.Outcome State Fault Refusal :=
  s.event fun y =>
    let p := y.pkg.pw
    if !p.trip && !p.tripWindow then (y, [])
    else if reopenPoint ≤ p.tj ∧ p.tj < tripPoint then (y.setPower fun p => { p with trip := false }, [])
    else
      let v := y.freeValue
      (v.2.setPower fun p => { p with
        trip := false, tj := if p.tj < reopenPoint then p.tj else v.1.toNat % reopenPoint, stall := p.stall && p.left.isSome, pendingStall := p.pendingStall.filter fun n => n != 0 }, [])

/-! ## The device steers its power (R356) -/

/-- Throttling opens a window: at `dmax`, while a limit is exceeded, one of 64 cycles in every two, four or eight such spans. The window is what a STALL_WINDOW_OPEN of 64 cycles opens. -/
def Sys.throttle (s : Sys) : Sys :=
  let p := s.pkg.pw
  if p.powered ∧ p.d = p.dmax ∧ p.over ∧ s.wcyc % 64 = 0 ∧ s.wcyc / 64 % 2 ^ ((Config.throttle (s.wcyc / 512)).val + 1) = 0 then s.dueWindow 64 else s

/-- What the readings bring about at the start of a cycle, a boundary of ticks (R270, R356). -/
def Sys.powerEvents (s : Sys) : List Instr :=
  let p := s.pkg.pw
  if !p.powered then []
  else if offPoint ≤ p.tj then [.thermalPowerOff]
  else
    (if tripPoint ≤ p.tj ∧ !p.trip then [.thermalTrip] else []) ++
      (if (p.trip ∧ p.tj < tripPoint) ∨ (p.tripWindow ∧ p.tj < reopenPoint) then [.tripClear] else []) ++
      (if hotTime ≤ p.hot ∧ p.d < p.dmax then [.divisorRaise] else []) ++
      (if coolTime ≤ p.cool ∧ !p.trip ∧ (1 < p.d ∨ p.left.isSome ∨ p.pendingStall.isSome) then [.divisorLower] else [])

/-! ## Soft errors (R341) -/

/-- SOFT_ERROR: a corrected error is counted. An uncorrectable one poisons its word; a word of a controller's state waits for the controller to read it. -/
def execSoftError (site : ErrorSite) (correctable : Bool) (s : State) : Host.Outcome State Fault Refusal :=
  s.event fun y =>
    if correctable then ({ y with pkg := { y.pkg with serrCe := y.pkg.serrCe + 1 } }, [])
    else
      let y : Sys := { y with pkg := { y.pkg with serrUe := y.pkg.serrUe + 1 } }
      match site with
      | .memory key => ({ y with poison := if y.poison.contains (key / 8) then y.poison else y.poison ++ [key / 8] }, [])
      | .controller n => ({ y with pkg := { y.pkg with struck := if y.pkg.struck.contains n then y.pkg.struck else y.pkg.struck ++ [n] } }, [])

end Sys2Proof.Machine
end

