-- ==== Sys2Proof/Machine/Twidom.lean ====
section
/-! DEFINITION. Resets (R348, R349), boot (R285), Twidom's responder (R286, R287), sealing (R288 to R290), the IDE stream (R282). -/

namespace Sys2Proof.Machine

/-! ## Device-level resets (R348, R349) -/

/-- The rows that are writes of the host (R283, R291). -/
def hostWrites : Instr → Bool
  | .windowRecordPortWrite .. | .windowGatePortWrite .. | .windowCounterWrite .. | .compareManifestStart .. | .tlbInvalidate .. | .replay | .tthaw .. | .tkill ..
  | .ccmdSave .. | .ccmdRestore .. | .ccmdRelease .. | .ccmdContextReset .. | .pfqpop | .readbackApertureWrite .. | .pwrctlWrite .. | .registerWrite .. => true
  | .tileFaultRecordClear (.window _) => true
  | .sharedWindowAccess _ _ data => data.isSome
  | _ => false

/-- The device after a reset: everything at its reset value, at a boot phase. The counters that are the model's own, and the outside events still to come, stay, but for the writes on their way on the host link, which are dropped (R349, log 70). -/
def Sys.afterReset (s : Sys) (phase : Nat) (powered : Bool) : Sys :=
  let later {α : Type} (l : List (Nat × α)) : List (Nat × α) := l.map fun p => (p.1 - s.wcyc, p.2)
  { taken := s.taken, ord := s.ord, inbox := (later s.inbox).filter fun p => !(hostWrites p.2 && decide (p.1 < Config.hostFlight)), channels := s.channels,
    sensors := later s.sensors, control := later s.control, pkg := { sec := { phase := phase }, pw := { powered := powered } } }

/-- A reset that overrides every event of its cycle. What HBM and the tier hold is no program's: such a byte reads as one that nothing has written (log 1). -/
def State.resetTo (s : State) (phase : Nat) (powered : Bool) : State := { mem := [], sys := s.sys.afterReset phase powered }

/-- COLD_RESET: power-on or PERST#; the boot runs from phase 0 (R348). -/
def execColdReset (s : State) : Host.Outcome State Fault Refusal := .next (s.resetTo 0 true)

/-- WARM_RESET: RSTCTL, a hot reset or link disable; the boot runs from phase 1 (R348). -/
def execWarmReset (s : State) : Host.Outcome State Fault Refusal := .next (if s.sys.pkg.pw.powered then s.resetTo 1 true else s)

/-- FUNCTION_LEVEL_RESET: as a warm reset (R348). -/
def execFunctionLevelReset (s : State) : Host.Outcome State Fault Refusal := .next (if s.sys.pkg.pw.powered then s.resetTo 1 true else s)

/-- THERMAL_POWER_OFF: the module removes its own power; the next power-on is a cold reset (R356). -/
def execThermalPowerOff (s : State) : Host.Outcome State Fault Refusal := .next (s.resetTo 0 false)

/-! ## Boot (R285) -/

/-- Every owner's keys are drawn anew (R289). -/
def Pkg.newKeys (p : Pkg) : Pkg := { p with owners := p.owners.map fun w => { w with keyGen := w.keyGen + 1 } }

/-- BOOT_PHASE_COMPLETE: the next phase is reached, or fails, and the device stops there (R285). Phase 4 draws the memory keys; the SRAM and the controllers stand zeroed since the reset. -/
def execBootPhaseComplete (ok : Bool) (err : BitVec 8) (s : State) : Host.Outcome State Fault Refusal :=
  s.event fun y =>
    let d := y.pkg.sec
    if !y.pkg.pw.powered || d.fail || decide (5 ≤ d.phase) then (y, [])
    else
      let n := d.phase + 1
      let d : Security := if ok then { d with phase := n, ready := n == 5 } else { d with phase := n, fail := true, err := err }
      let p : Pkg := if ok && n == 4 then y.pkg.newKeys else y.pkg
      ({ y with pkg := { p with sec := d } }, [])

/-! ## Twidom answers (R286) -/

/-- Twidom runs: its firmware has been checked, or the device stands failed and can still be attested (R285). -/
def Sys.attests (s : Sys) : Bool := s.pkg.pw.powered && (decide (1 ≤ s.pkg.sec.phase) || s.pkg.sec.fail)

/-- The number of a channel's session: a span link's own, or 16 for the mailbox. -/
def sessionOf : Channel → Nat
  | .doe => 16
  | .span k => k.toNat

/-- The exchange on a channel. -/
def Security.session (d : Security) (ch : Channel) : Session := vget d.sessions (sessionOf ch)

def Security.modSession (d : Security) (ch : Channel) (f : Session → Session) : Security := { d with sessions := vmod d.sessions (sessionOf ch) f }

def Sys.modSec (s : Sys) (f : Security → Security) : Sys := { s with pkg := { s.pkg with sec := f s.pkg.sec } }

/-- The session's answer to a vendor-defined request, or an ERROR. -/
def Security.answer (d : Security) (n code : Nat) : Security := { d with sessions := vmod d.sessions n fun x => { x with response := some { code := code } } }

/-- The channel of the message at hand (R286). -/
def Sys.channel (s : Sys) : Channel := s.channels.headD .doe

/-- A message is taken from its channel. -/
def State.message (s : State) (f : Channel → State → Host.Outcome State Fault Refusal) : Host.Outcome State Fault Refusal :=
  f s.sys.channel { s with sys := { s.sys with channels := s.sys.channels.tail } }

/-- An SPDM message on a channel: answered as `f` says when the exchange there has come far enough, else with ERROR. The codes and the order are SPDM's own (log 19). -/
def State.spdm (s : State) (ch : Channel) (allowed : Session → Bool) (f : Session → Session) (code : Nat) (data : Sys → List Byte) (algs : List Algorithm) (signs : Bool) :
    Host.Outcome State Fault Refusal :=
  s.event fun y =>
    if !y.attests then (y, [])
    else if !allowed (y.pkg.sec.session ch) then (y.modSec fun d => d.answer (sessionOf ch) 0x7F, [])
    else
      let v := y.freeValue
      let z : Sys := if signs then v.2 else y
      let a : Response := { code := code, data := data y, algorithms := algs, signature := if signs then some v.1 else none }
      (z.modSec fun d => d.modSession ch fun x => { f x with response := some a }, [])

/-- Bytes of a digest. -/
def digestBytes (d : BitVec 256) : List Byte := leBytes 32 d.toNat

/-- GET_VERSION: SPDM 1.3 (R286). -/
def execGetVersion (s : State) : Host.Outcome State Fault Refusal :=
  s.message fun ch s => s.spdm ch (fun _ => true) (fun d => { d with version := true }) 0x04 (fun _ => [0x13]) [] false

/-- The flags of CAPABILITIES, as the standard codes them: certificates, challenge, signed measurements, encryption, authentication of messages, mutual authentication, key exchange, heartbeat, key update (R286, log 19). -/
def capabilityFlags : List Byte := leBytes 4 0x63D6

/-- GET_CAPABILITIES (R286). -/
def execGetCapabilities (s : State) : Host.Outcome State Fault Refusal :=
  s.message fun ch s => s.spdm ch (·.version) (fun d => { d with capabilities := true }) 0x61 (fun _ => capabilityFlags) [] false

/-- NEGOTIATE_ALGORITHMS: ML-DSA-65, SHAKE256, ML-KEM-768, AES-256-GCM (R286). -/
def execNegotiateAlgorithms (s : State) : Host.Outcome State Fault Refusal :=
  s.message fun ch s => s.spdm ch (·.capabilities) (fun d => { d with algorithms := true }) 0x63 (fun _ => []) [.mlDsa65, .shake256, .mlKem768, .aes256Gcm] false

/-- GET_DIGESTS: slot 0 holds the identity chain (R286). -/
def execGetDigests (s : State) : Host.Outcome State Fault Refusal :=
  s.message fun ch s => s.spdm ch (·.algorithms) (fun d => d) 0x01 (fun _ => digestBytes Config.identityDigest) [] false

/-- GET_CERTIFICATE: slots 1 to 7 are empty (R286). -/
def execGetCertificate (slot : BitVec 3) (s : State) : Host.Outcome State Fault Refusal :=
  s.message fun ch s => s.spdm ch (fun d => d.algorithms && slot == 0) (fun d => d) 0x02 (fun y => openBytes y.taken 64) [] false

/-- CHALLENGE: signed with the identity key of slot 0 (R286). -/
def execChallenge (slot : BitVec 3) (s : State) : Host.Outcome State Fault Refusal :=
  s.message fun ch s => s.spdm ch (fun d => d.algorithms && slot == 0) (fun d => d) 0x03 (fun _ => []) [] true

/-- The manifest of the present configuration, 128 bytes (R269). -/
def Sys.manifestBytes (s : Sys) : List Byte := s.manifest.flatMap (leBytes 8)

/-- Measurement block i (R287). -/
def Sys.measurementBlock (s : Sys) (i : Nat) : List Byte :=
  if i ≤ 3 then digestBytes (Config.measurement i)
  else if i = 4 then shake256 s.manifestBytes
  else if i = 5 then leBytes 8 s.pkg.sec.sealst.toNat
  else fillTo 32 s.pkg.sec.measured

/-- GET_MEASUREMENTS: one block by its index, all of them by 0xFF, their number by 0; signed (R287). -/
def execGetMeasurements (index : BitVec 8) (s : State) : Host.Outcome State Fault Refusal :=
  s.message fun ch s => s.spdm ch (fun d => d.algorithms && (decide (index.toNat ≤ 6) || index == 0xFF)) (fun d => d) 0x60
    (fun y => if index = 0 then [6] else if index = 0xFF then [1, 2, 3, 4, 5, 6].flatMap y.measurementBlock else y.measurementBlock index.toNat) [] true

/-- KEY_EXCHANGE by ML-KEM-768 (R286). -/
def execKeyExchange (s : State) : Host.Outcome State Fault Refusal :=
  s.message fun ch s => s.spdm ch (·.algorithms) (fun d => { d with keyed := true }) 0x64 (fun _ => []) [] true

/-- A session that has come to stand on a span link's channel has agreed the link's key (R281). -/
def Sys.agreed (s : Sys) (ch : Channel) : Sys :=
  match ch with
  | .doe => s
  | .span k => s.modSec fun d => { d with linkKeys := d.linkKeys ||| ((1 : BitVec 16) <<< k.toNat) }

/-- FINISH: the session stands; a requester that authenticates itself does so here (R281, R286, log 19). -/
def execFinish (s : State) : Host.Outcome State Fault Refusal := s.message fun ch s =>
  match s.spdm ch (·.keyed) (fun d => { d with keyed := false, session := true }) 0x65 (fun _ => []) [] false with
  | .next t => .next (if s.sys.attests && (s.sys.pkg.sec.session ch).keyed then { t with sys := t.sys.agreed ch } else t)
  | o => o

/-- KEY_UPDATE within a session (R286). -/
def execKeyUpdate (s : State) : Host.Outcome State Fault Refusal := s.message fun ch s => s.spdm ch (·.session) (fun d => d) 0x69 (fun _ => []) [] false

/-- HEARTBEAT within a session (R286). -/
def execHeartbeat (s : State) : Host.Outcome State Fault Refusal := s.message fun ch s => s.spdm ch (·.session) (fun d => d) 0x68 (fun _ => []) [] false

/-! ## Sealing (R288 to R290) -/

/-- What is left of memory when every key is replaced and the SRAM is zeroed: what is stored in plaintext. Any other byte of HBM or the tier is one that no program wrote (R289, log 1). -/
def Sys.rekeyed (s : Sys) (m : Memory) : Memory := m.filter fun c => s.plainUnits.contains (c.1 / 64)

/-- No task runs, and every window is shut: tile issue windows, host, shared and peer windows. -/
def Sys.quiet (s : Sys) : Bool :=
  let shut (w : Word) : Bool := !bit w 63
  (s.cores.all fun p => p.2.ctxs.toList.all fun k => k.state == .idle) && (s.pkg.wins.toList.all fun w => !w.en) &&
    (List.range 16).all fun n => shut (vget s.pkg.hwin (2 * n)) && shut (vget s.pkg.pwin (2 * n)) && (decide (8 ≤ n) || shut (vget s.pkg.shw (2 * n)))

/-- The device block, the keys' generations, the queue of reports and the model's own counters outlive a seal; all other controller state is zeroed. -/
def Pkg.zeroed (p : Pkg) : Pkg :=
  { sec := p.sec, pw := p.pw, serrUe := p.serrUe, serrCe := p.serrCe, rstKey := p.rstKey, msix := p.msix, nextRec := p.nextRec, nextSpread := p.nextSpread,
    owners := p.owners.map fun w => { keyGen := w.keyGen + 1 } }

/-- The contexts, the engines and what is under way are gone. What a resident program will do, once one runs, is still to come (R290, log 51). -/
def Sys.emptied (s : Sys) (p : Pkg) : Sys :=
  { s with cores := [], agenda := [], flits := [], turn := [], raised := [], clears := [], restore := [], poison := [], programmed := [], retried := [], pkg := p }

/-- SEAL: refused unless SEALST.`state` is 0, every window is shut and no task runs. `state` becomes 1, the SRAM and the controllers are zeroed, every key is replaced, and the image is read from the memory that is left, at the address that the tables, read before their keys go, gave it until now; how long this takes is open (R290, logs 3 and 20). -/
def execSeal (va : Word) (digest : BitVec 256) (size : Nat) (s : State) : Host.Outcome State Fault Refusal := s.message fun ch s =>
  let y := s.sys
  if !y.attests then .next s
  else if !((y.pkg.sec.session ch).session && y.pkg.opened && y.quiet) then .next { s with sys := y.modSec fun d => d.answer (sessionOf ch) 0x7F }
  else
    let m := y.rekeyed s.mem
    let img := (y.readSpan s.mem 0 0 va size).1.readSpan m 0 0 va size
    let t := y.latency
    let job : Sealing := { due := y.wcyc + t.1, image := match img.2 with | .ok bs => some bs | .error _ => none, digest := digestBytes digest }
    .next { mem := m, sys := (t.2.emptied y.pkg.zeroed).modSec fun d => { d with sealState := 1, sealer := (sessionOf ch), sealing := some job } }

/-- A seal ends. The image whose digest is the one given runs on the control cores, is the device's measurement, and the device is sealed; another leaves the device open (R287, R290, log 20). -/
def Security.sealEnds (d : Security) (job : Sealing) : Security :=
  match job.image with
  | some bs =>
    if shake256 bs == job.digest then
      { d.answer d.sealer 0x7E with sealState := 2, gen := d.gen + 1, measured := job.digest, program := bs, sealing := none }
    else { d.answer d.sealer 0x7F with sealState := 0, sealing := none }
  | none => { d.answer d.sealer 0x7F with sealState := 0, sealing := none }

/-- A seal, or an unseal, that is due ends at the start of a cycle (R290). -/
def Sys.settleSeal (s : Sys) : Sys :=
  match s.pkg.sec.sealing, s.pkg.sec.unsealing with
  | some job, _ => if job.due ≤ s.wcyc then s.modSec fun d => d.sealEnds job else s
  | none, some due => if due ≤ s.wcyc then s.modSec fun d => { d with sealState := 0, unsealing := none } else s
  | none, none => s

/-- The unseal starts: `state` is 3, every task is stopped, the keys are replaced and the SRAM is zeroed; the device is open once this is done (R290). -/
def State.opened (s : State) : State :=
  let y := s.sys
  let t := y.latency
  let p : Pkg := { y.pkg.newKeys with owners := y.pkg.newKeys.owners.map fun w => { w with flipping := none } }
  { mem := y.rekeyed s.mem,
    sys := (t.2.emptied { p with recs := [], spreads := [], parked := [], images := [] }).modSec fun d =>
      { d with sealState := 3, program := [], sealing := none, unsealing := some (y.wcyc + t.1) } }

/-- The channel's session sealed the device, which is being sealed or is sealed. -/
def Security.holdsSeal (d : Security) (ch : Channel) : Bool := (d.sealState == 1 || d.sealState == 2) && d.sealer == (sessionOf ch)

/-- UNSEAL within the session that sealed the device (R290). -/
def execUnseal (s : State) : Host.Outcome State Fault Refusal := s.message fun ch s =>
  let y := s.sys
  if !y.attests then .next s
  else if (y.pkg.sec.session ch).session && y.pkg.sec.holdsSeal ch then
    .next { s.opened with sys := s.opened.sys.modSec fun d => d.answer (sessionOf ch) 0x7E }
  else .next { s with sys := y.modSec fun d => d.answer (sessionOf ch) 0x7F }

/-- The session is over; if it sealed the device, the unseal starts. -/
def State.endSession (s : State) (ch : Channel) : State :=
  let t : State := if s.sys.pkg.sec.holdsSeal ch then s.opened else s
  { t with sys := t.sys.modSec fun d => d.modSession ch fun x => { x with session := false, keyed := false } }

/-- HEARTBEAT_LOSS: three HEARTBEATs in a row were missed; the session is over (R290). -/
def execHeartbeatLoss (s : State) : Host.Outcome State Fault Refusal := s.message fun ch s =>
  if s.sys.attests && (s.sys.pkg.sec.session ch).session then .next (s.endSession ch) else .next s

/-- END_SESSION (R290). -/
def execEndSession (s : State) : Host.Outcome State Fault Refusal := s.message fun ch s =>
  let y := s.sys
  if !y.attests then .next s
  else if (y.pkg.sec.session ch).session then .next { s.endSession ch with sys := (s.endSession ch).sys.modSec fun d => d.answer (sessionOf ch) 0x6C }
  else .next { s with sys := y.modSec fun d => d.answer (sessionOf ch) 0x7F }

/-! ## IDE (R282) -/

/-- IDE_KEY_MANAGEMENT: keys are programmed for the one selective stream and it is active, or it is inactive (R282). -/
def execIdeKeyManagement (activate : Bool) (s : State) : Host.Outcome State Fault Refusal :=
  s.event fun y => (if y.attests then y.modSec fun d => { d with ide := activate } else y, [])

/-! ## Register writes (R349, R351, R357) -/

/-- RSTCTL: `key` must be right and `warm` 1, in one write (R348). -/
def resetsWarm (v : Word) (be : BitVec 8) : Bool := be == 0xFF && fld v 32 32 == 0x5A4A5253 && bit v 0

/-- A write of RSTCTL that resets nothing leaves its `key` (R5, R348). -/
def Sys.keepKey (s : Sys) (v : Word) (be : BitVec 8) : Sys :=
  { s with pkg := { s.pkg with rstKey := (written (BitVec.ofNat 64 (s.pkg.rstKey.toNat * 2 ^ 32)) v be 0xFFFFFFFF00000000 >>> 32).setWidth 32 } }

/-- A write to one register of the inspection window. Where a row of its own names the register, the write is that row. -/
def State.writeRegister (s : State) (off : Nat) (v : Word) (be : BitVec 8) : Host.Outcome State Fault Refusal :=
  let whole := be == 0xFF
  match blockOf off with
  | .device b =>
    if b = 0x30 then (if resetsWarm v be then execWarmReset s else s.event fun y => (if y.pkg.pw.powered then y.keepKey v be else y, []))
    else s.event fun y => (if y.pkg.pw.powered && y.heard then y.inspectDevice b v be else y, [])
  | .belvedere b =>
    if b = 0x0808 then execPfqpop s
    else if b = 0x0810 then (if bit (v &&& byteMask be) 0 then execReplay s else .next s)
    else if b = 0x0800 then s.inspected fun y => { y with pkg := { y.pkg with pfqOvf := y.pkg.pfqOvf && !bit (v &&& byteMask be) 63 } }
    else .next s
  | .window n b =>
    if b = 0x130 then execCompareManifestStart (BitVec.ofNat 3 n) (written (vget s.sys.pkg.wins n).cm v be 0xFFFFFFFFFFFFFFC0) s
    else if 0x200 ≤ b ∧ b < 0x400 then
      (if (byteMask be).toNat % 2 ^ 32 = 0 then .next s
       else execWindowCounterWrite (BitVec.ofNat 3 n) (BitVec.ofNat 6 ((b - 0x200) / 8)) (v.setWidth 32) s)
    else s.inspected fun y => y.inspectWindow n b v be
  | .lodge d b =>
    if b = 8 then (if h : d < 5 then execTlbInvalidate ⟨d, h⟩ (written (vget s.sys.pkg.owners d).inv v be allOnes) s else .next s)
    else if b = 0x108 then (if whole || be == 0x0F then execTthaw (.lodge (BitVec.ofNat 2 d)) v s else .next s)
    else s.inspected fun y => y.inspectLodge d b v be
  | .hub b =>
    if b = 8 then execTlbInvalidate 4 (written (vget s.sys.pkg.owners 4).inv v be allOnes) s
    else if b = 0x308 then (if whole || be == 0x0F then execTthaw .hub v s else .next s)
    else s.inspected fun y => y.inspectHub b v be
  | .arbour p b =>
    if b = 0x100 then (if whole || be == 0x0F then execTthaw (.arbour (BitVec.ofNat 3 p)) v s else .next s)
    else if b = 0 then s.inspected fun y => { y with pkg := { y.pkg with astg := vmod y.pkg.astg p fun o => written o v be 0x00000000FFFFFFFF } }
    else .next s
  | .stateReg g c n => s.inspected fun y => y.inspectState g c n v be
  | .aperture g b => s.inspected fun y => y.writeAperture g b ((List.range 8).map fun i => if be.getLsbD i then some (BitVec.ofNat 8 (v.toNat / 2 ^ (8 * i))) else none)
  | .core g b =>
    if b = 0x3F008 then (if whole || be == 0x0F then execTkill g v s else .next s)
    else if b = 0x3F010 then (if whole || be == 0x0F then ccmdWritten g v s else .next s)
    else s.inspected fun y => y.inspectCore g b v be
  | .nothing => .next s

/-- REGISTER_WRITE: a single aligned access of 8 or 4 bytes; the aperture takes any byte enables; another access is discarded (R351, R357). -/
def execRegisterWrite (off : BitVec 29) (v : Word) (be : BitVec 8) (s : State) : Host.Outcome State Fault Refusal :=
  let o := off.toNat
  let open_ : Bool := match blockOf o with | .aperture .. => true | _ => false
  if o % 8 == 0 && (wholeAccess be || open_) then s.writeRegister o v be else .next s

end Sys2Proof.Machine
end

