-- ==== Sys2Proof/Machine/Cycle.lean ====
section
/-! DEFINITION. The stages of a cycle: issue, firings, starts, performs, completions, and the start of the next cycle (R26, R27, R214, R270). -/

namespace Sys2Proof.Machine

/-! ## Late in the cycle -/

/-- What fires after the bundles of a cycle: triggered operations and READYs in slot order, then refills (R198, R214, R217). -/
def Sys.fireEvents (s : Sys) : List Instr :=
  s.cores.flatMap fun p =>
    (ctxNumbers.flatMap fun (x : Fin 4) =>
      let k := p.2.ctx x
      let now := s.tick k.timed
      if k.state = .idle then []
      else ((List.range 32).map (Fin.ofNat 32)).filterMap fun (q : Fin 32) =>
        match vget k.regs.tq q with
        | none => none
        | some e =>
          if e.isReady then
            (if e.armed now && (vget p.2.aow e.region).ready.toNat / 2 ^ e.tile % 2 == 1 then some (.readySlotFire p.1 x q) else none)
          else if e.fired.any fun t => decide (t < now) then some (.triggeredFire p.1 x q) else none) ++
    (p.2.cmds.filterMap fun c => match c.instr with
      | .cpyr .. => if c.started && !c.fired && p.2.refillFree c && s.moves p.1 c then some (.cpyrFire p.1 c.id) else none
      | _ => none)

/-- The commands that may start in this cycle: in dispatch order, those of the orrery by context (R187, R259). -/
def Sys.startEvents (s : Sys) : List Instr :=
  s.cores.flatMap fun p =>
    let ready := p.2.cmds.filter fun c => !c.started && decide (c.start ≤ s.now p.1 c.ctx) && s.moves p.1 c
    let orr := ready.filter fun c => c.eng == .orr
    ((ready.filter fun c => c.eng != .orr) ++ (List.range 4).flatMap fun x => orr.filter fun c => c.ctx == x).map fun c => .engineCommandStart p.1 c.id

/-- A context of a timed spread stalls the meridian (R26, R27, R120): a hold, a command that waits at its start tick for a transfer, a fired operation that cannot be dispatched. -/
def Sys.stalls (s : Sys) (g x : Nat) : Bool :=
  let k := s.ctx g x
  k.timed && k.state != .idle &&
    ((k.live && k.stalling) ||
      ((s.core g).cmds.any fun c => c.ctx == x && !c.started && decide (c.start ≤ s.mer) && s.moves g c && s.firstRead g c == .wait) ||
      (k.engineRuns .col && k.regs.tq.toList.any fun q => q.any fun q => q.fired.isSome && q.blocked))

/-- A timed spread is stalled; a parked transit block stalls every one (R330). -/
def Sys.spreadsStall (s : Sys) : Bool :=
  let timed (k : Ctx) : Bool := k.timed && k.state != .idle
  (s.cores.any fun p => (List.range 4).any fun x => s.stalls p.1 x) ||
    ((s.cores.any fun p => p.2.ctxs.toList.any timed) && s.cores.any fun p => p.2.ctxs.toList.any fun k => k.moving.any (·.parked))

/-! ## The end of a cycle -/

/-- The flags that a slot position set in this cycle. -/
def raisedBy (raised : List (Nat × Nat × Nat × Flags × W32)) (g x slot : Nat) : Flags :=
  raised.foldl (fun f q => if q.1 = g ∧ q.2.1 = x ∧ q.2.2.1 = slot then f ||| q.2.2.2.1 else f) 0

/-- The first-event record at the end of a cycle (R307). -/
def Fer.capture (f : Fer) (raised : List (Nat × Nat × Nat × Flags × W32)) (g x : Nat) : Fer :=
  let hits (slot : Nat) : Bool := (raisedBy raised g x slot &&& f.mask) != 0
  if f.valid then f
  else
    match (List.range 18).find? hits with
    | none => f
    | some slot =>
      let grp := match raised.find? fun q => q.1 == g && q.2.1 == x && q.2.2.1 == slot && (q.2.2.2.1 &&& f.mask) != 0 with | some q => q.2.2.2.2 | none => 0
      { f with valid := true, flags := raisedBy raised g x slot, slot := slot, addr := grp }

/-- Clears, then the flags of the cycle, then the first-event records (R131, R306, R307). -/
def Sys.closeFlags (s : Sys) : Sys :=
  let cleared := s.clears.foldl (fun s c => s.modRegs c.1 c.2.1 fun r =>
    { r with flags := (List.range 18).foldl (fun v p => if c.2.2.1.getLsbD p then vset v p 0 else v) r.flags,
             fer := if c.2.2.2 then { r.fer with valid := false } else r.fer }) s
  let set := s.raised.foldl (fun s q => s.modRegs q.1 q.2.1 fun r => { r with flags := vmod r.flags q.2.2.1 fun f => f ||| q.2.2.2.1 }) cleared
  let fer := s.raised.foldl (fun s q => s.modRegs q.1 q.2.1 fun r => { r with fer := r.fer.capture s.raised q.1 q.2.1 }) set
  { fer with raised := [], clears := [] }

/-- The slot table takes its pending entries in a cycle whose WCYC is a multiple of 64 (R205). -/
def Core.settleSlots (c : Core) : Core :=
  { c with oslt := c.osltPending.foldl (fun w p => (w &&& ~~~((3 : Word) <<< (4 * p.1))) ||| (BitVec.ofNat 64 p.2 <<< (4 * p.1))) c.oslt, osltPending := [] }

/-- The elapsed counts of a context that may issue advance by one (R22). -/
def Ctx.elapse (k : Ctx) : Ctx :=
  if k.live then
    let step (e : LoopEntry) : LoopEntry := if e.valid && e.kind == .temporal then { e with elapsed := e.elapsed + 1 } else e
    { k with regs := { k.regs with loops := k.regs.loops.map step }, bodyElapsed := if k.inner.isNone then k.bodyElapsed + 1 else k.bodyElapsed }
  else k

/-- Every context changed. -/
def Sys.mapCtx (s : Sys) (f : Ctx → Ctx) : Sys := { s with cores := s.cores.map fun p => (p.1, { p.2 with ctxs := p.2.ctxs.map f }) }

/-- The clocks advance: WCYC always, the others outside a stall window, the meridian also when no timed spread is stalled (R27, R270). -/
def Sys.advanceClocks (s : Sys) : Sys :=
  let open_ := s.windowOpen
  { s with wcyc := s.wcyc + 1, run := if open_ then s.run else s.run + 1, mer := if open_ || s.stalled then s.mer else s.mer + 1, pkg := { s.pkg with pfqNew := 0 } }

/-- Deadlines exceeded at the start of this cycle (R22). -/
def Sys.deadlines (s : Sys) : List Instr :=
  s.cores.flatMap fun p => ctxNumbers.filterMap fun (x : Fin 4) => if (p.2.ctx x).live && (p.2.ctx x).overBudget.isSome then some (.deadlineFault p.1 x) else none

/-- Outside events that arrive in this cycle, and what the resident program does in it. -/
def Sys.arrived (s : Sys) : List Instr × Sys :=
  ((s.inbox.filter fun p => decide (p.1 ≤ s.wcyc)).map (·.2),
   { s with inbox := s.inbox.filter fun p => decide (s.wcyc < p.1),
            programmed := (s.control.filter fun p => decide (p.1 ≤ s.wcyc)).map (·.2), control := s.control.filter fun p => decide (s.wcyc < p.1) })

/-- The cores whose turn comes in a cycle: those with a context that may issue. -/
def Sys.turns (s : Sys) : List Nat := (s.cores.filter fun p => p.2.ctxs.toList.any Ctx.live).map (·.1)

/-- The power of the cycle that ends: a cycle of the open window passes, its time counts, the divisor settles, and a window that waited opens; then the sensors give their new readings, and throttling opens its windows (R270, R355, R356). -/
def Sys.passPower (s : Sys) : Sys :=
  (({ s with pkg := { s.pkg with pw := s.pkg.pw.pass.time } } : Sys).setPower Power.settle).openPending.readSensors.throttle

/-- What the package does at the start of a cycle: records start, blocks that are done gather, launches end, counters of windows count (R222, R227, R236, R257). Gates are tested by the counters before the increments of the cycle; a place that a start leaves in a queue is free for the acceptance of the cycle (R222, R256). -/
def Sys.packageTick (s : Sys) : List Instr × List Instr × Sys :=
  let s := s.seeWindows
  let y := s.landWindows.controllerReads.walkersReport.settleSeal.startRecs.gather.launchesDone
  (y.belvedereEvents, y.deliveries ++ y.launches ++ y.recordEvents, y)

/-- The next cycle begins: what is due at its start lands, and the events of the cycle are lined up. -/
def State.advance (s : State) : State :=
  let y := s.sys.closeFlags
  let undo := y.restore
  let y := (({ y with restore := [] } : Sys).setAside s.mem).buryKilled
  let open_ := y.windowOpen
  let stalled := y.stalled
  let moved (timed : Bool) : Bool := !open_ && !(timed && stalled)
  let y := y.advanceClocks
  let y : Sys := if y.wcyc % 64 = 0 then { y with cores := y.cores.map fun p => (p.1, p.2.settleSlots) } else y
  let y := y.mapCtx fun k => let k : Ctx := { k with boundary := false }; if open_ then k else k.elapse
  let y := y.passPower
  let m := s.mem.writeAll undo
  let landed := y.land0 m moved
  let m := m.writeAll landed.2
  let y := ((landed.1.dropFences m).arrivals m).barriers
  let inbox := y.arrived
  let pkg := inbox.2.packageTick
  let y := pkg.2.2.lookSlots
  State.retry { mem := m, sys := { ((y.mend undo).mend landed.2) with
      events := y.events ++ pkg.1 ++ y.deadlines ++ y.powerEvents ++ inbox.1 ++ y.windowOver ++ y.releases ++ y.finishes ++ pkg.2.1 ++ y.jobsDone, turn := y.turns, stage := 0, stalled := false, cur := {} } }

/-- The next stage of the cycle. -/
def State.nextStage (s : State) : State :=
  match s.sys.stage with
  | 0 => { s with sys := { s.sys with stage := 1, events := if s.sys.windowOpen then [] else s.sys.fireEvents } }
  | 1 => { s with sys := { s.sys with stage := 2, events := if s.sys.windowOpen then [] else s.sys.startEvents } }
  | 2 => State.perform { s with sys := { s.sys with stage := 3, stalled := s.sys.spreadsStall } }
  | _ => s.advance

/-- One step: the next event, the resident program's next write, the next core's turn, or the next stage. -/
def State.microStep (ex : Instr → State → Host.Outcome State Fault Refusal) (s : State) : Host.Outcome State Fault Refusal :=
  match s.sys.events with
  | i :: rest => ex i { s with sys := { s.sys with events := rest, byProgram := false } }
  | [] =>
    match s.sys.programmed, s.sys.stage, s.sys.turn with
    | i :: rest, _, _ => ex i { s with sys := { s.sys with programmed := rest, byProgram := true } }
    | [], 0, g :: rest => State.turn ex { s with sys := { s.sys with turn := rest } } g
    | [], _, _ => .next s.nextStage

end Sys2Proof.Machine
end

