-- ==== Sys2Proof/Machine/Waits.lean ====
section
/-! DEFINITION. WAITS and WAITC: what a group awaits, and whether the wait varies with the world outside (R120, R124, R125). -/

namespace Sys2Proof.Machine

/-- What keeps a tile from a WAITS varies with the world outside: a writer, or with `idle` a copy that reads it; a TST reads its rows at ticks of the schedule (R120, R124, R192). -/
def Sys.tileVaries (s : Sys) (m : Memory) (g x : Nat) (idle : Bool) (n : Nat) : Bool :=
  (s.core g).cmds.any fun c => c.ctx == x && (c.writes.contains n || (idle && c.eng == .cp && c.reads.contains n)) && s.outside m g c

/-- WAITS: the mask names tiles of the window (R124); the hold is a stall while what holds a tile varies (R120). -/
def execWaits (i : BitVec 1) (m : BitVec 16) (s : State) : Host.Outcome State Fault Refusal :=
  let tiles := maskTiles m
  let c := s.sys.hereCore
  let x := s.sys.cur.ctx
  let ok := m != 0 && tiles.all fun n => decide (n < s.sys.here.win.vwin / 4)
  let hold :=
    if ok && !tiles.all (c.tileFree x (i == 1)) then
      some (tiles.any (s.sys.tileVaries s.mem s.sys.cur.core x (i == 1)))
    else none
  s.issue hold (s.sys.range ok) id

/-- WAITC (R125); its hold is classified cycle by cycle (R120). A command that still waits for a tick of the schedule is none of varying timing yet (DEDUCED, log 72). -/
def execWaitc (a : BitVec 5) (n : BitVec 6) (s : State) : Host.Outcome State Fault Refusal :=
  let k := s.sys.here
  let ok := decide (n.toNat < k.win.tcount)
  let hold :=
    if ok && !reached (vget k.regs.tc n.toNat) ((s.sys.regA a).setWidth 32) then
      some ((s.sys.hereCore.cmds.any fun q => q.ctx == s.sys.cur.ctx && q.incs n.toNat && s.sys.outside s.mem s.sys.cur.core q) ||
        s.ctiIncs s.sys.cur.core s.sys.cur.ctx n.toNat)
    else none
  s.issue (orHold (if ok then s.sys.interlock false [a] else none) hold) (s.sys.range ok) id

end Sys2Proof.Machine
end

