-- ==== Sys2Proof/Machine/Dispatch.lean ====
section
/-! DEFINITION. The meaning of each instruction: one arm for each constructor. -/

namespace Sys2Proof.Machine

def exec (i : Instr) (s : State) : Host.Outcome State Fault Refusal :=
  match i with
  | .bra d => Sys2Proof.Machine.execBra d s
  | .bz a d => Sys2Proof.Machine.execBz a d s
  | .bnz a d => Sys2Proof.Machine.execBnz a d s
  | .jr a d => Sys2Proof.Machine.execJr a d s
  | .loop l d => Sys2Proof.Machine.execLoop l d s
  | .endl => Sys2Proof.Machine.execEndl s
  | .breakLoop => Sys2Proof.Machine.execBreakLoop s
  | .waits x0 m => Sys2Proof.Machine.execWaits x0 m s
  | .waitc a n => Sys2Proof.Machine.execWaitc a n s
  | .bar => Sys2Proof.Machine.execBar s
  | .fence k x1 => Sys2Proof.Machine.execFence k x1 s
  | .cti a l => Sys2Proof.Machine.execCti a l s
  | .rdst a x1 => Sys2Proof.Machine.execRdst a x1 s
  | .wrst a x1 => Sys2Proof.Machine.execWrst a x1 s
  | .tick a => Sys2Proof.Machine.execTick a s
  | .flrd a l p => Sys2Proof.Machine.execFlrd a l p s
  | .flclr f p => Sys2Proof.Machine.execFlclr f p s
  | .digest a n => Sys2Proof.Machine.execDigest a n s
  | .yield => Sys2Proof.Machine.execYield s
  | .trap c => Sys2Proof.Machine.execTrap c s
  | .eret => Sys2Proof.Machine.execEret s
  | .halt => Sys2Proof.Machine.execHalt s
  | .nop r x1 => Sys2Proof.Machine.execNop r x1 s
  | .add d a b => Sys2Proof.Machine.execAdd d a b s
  | .addImm d a x2 => Sys2Proof.Machine.execAddImm d a x2 s
  | .sub d a b => Sys2Proof.Machine.execSub d a b s
  | .and d a b => Sys2Proof.Machine.execAnd d a b s
  | .andImm d a x2 => Sys2Proof.Machine.execAndImm d a x2 s
  | .or d a b => Sys2Proof.Machine.execOr d a b s
  | .xor d a b => Sys2Proof.Machine.execXor d a b s
  | .shl d a b => Sys2Proof.Machine.execShl d a b s
  | .shlImm d a x2 => Sys2Proof.Machine.execShlImm d a x2 s
  | .shr d a b => Sys2Proof.Machine.execShr d a b s
  | .shrImm d a x2 => Sys2Proof.Machine.execShrImm d a x2 s
  | .sar d a b => Sys2Proof.Machine.execSar d a b s
  | .min d a u b => Sys2Proof.Machine.execMin d a u b s
  | .max d a u b => Sys2Proof.Machine.execMax d a u b s
  | .cmpeq d a b => Sys2Proof.Machine.execCmpeq d a b s
  | .cmplt d a b => Sys2Proof.Machine.execCmplt d a b s
  | .cmpltu d a b => Sys2Proof.Machine.execCmpltu d a b s
  | .mul d a b => Sys2Proof.Machine.execMul d a b s
  | .mulh d a u b => Sys2Proof.Machine.execMulh d a u b s
  | .clmul d a b => Sys2Proof.Machine.execClmul d a b s
  | .clmulh d a b => Sys2Proof.Machine.execClmulh d a b s
  | .brev d a w => Sys2Proof.Machine.execBrev d a w s
  | .popc d a => Sys2Proof.Machine.execPopc d a s
  | .mov d a => Sys2Proof.Machine.execMov d a s
  | .movx d a => Sys2Proof.Machine.execMovx d a s
  | .limm d q x2 => Sys2Proof.Machine.execLimm d q x2 s
  | .movStaging a x1 => Sys2Proof.Machine.execMovStaging a x1 s
  | .ld d a x2 => Sys2Proof.Machine.execLd d a x2 s
  | .st d a x2 => Sys2Proof.Machine.execSt d a x2 s
  | .fadd d a o m b => Sys2Proof.Machine.execFadd d a o m b s
  | .fmul d a o m b => Sys2Proof.Machine.execFmul d a o m b s
  | .fma d a o m b => Sys2Proof.Machine.execFma d a o m b s
  | .fcmp d a x2 b => Sys2Proof.Machine.execFcmp d a x2 b s
  | .fcvt d a o m x4 => Sys2Proof.Machine.execFcvt d a o m x4 s
  | .pset p a => Sys2Proof.Machine.execPset p a s
  | .pstep p a => Sys2Proof.Machine.execPstep p a s
  | .pwin p a => Sys2Proof.Machine.execPwin p a s
  | .padv p n => Sys2Proof.Machine.execPadv p n s
  | .spcfg p a r => Sys2Proof.Machine.execSpcfg p a r s
  | .sprst p => Sys2Proof.Machine.execSprst p s
  | .xlat x a => Sys2Proof.Machine.execXlat x a s
  | .xclr x => Sys2Proof.Machine.execXclr x s
  | .xlatResult core ctx x => Sys2Proof.Machine.execXlatResult core ctx x s
  | .vaddF k d a b p q f => Sys2Proof.Machine.execVaddF k d a b p q f s
  | .vsubF k d a b p q f => Sys2Proof.Machine.execVsubF k d a b p q f s
  | .vmulF k d a b p q f => Sys2Proof.Machine.execVmulF k d a b p q f s
  | .vfmaF k d a b p q f => Sys2Proof.Machine.execVfmaF k d a b p q f s
  | .vfmsF k d a b p q f => Sys2Proof.Machine.execVfmsF k d a b p q f s
  | .vfnmaF k d a b p q f => Sys2Proof.Machine.execVfnmaF k d a b p q f s
  | .vdivF k d a b p q f => Sys2Proof.Machine.execVdivF k d a b p q f s
  | .vsqrtF k d a p f => Sys2Proof.Machine.execVsqrtF k d a p f s
  | .vmaxF k d a b p q f => Sys2Proof.Machine.execVmaxF k d a b p q f s
  | .vminF k d a b p q f => Sys2Proof.Machine.execVminF k d a b p q f s
  | .vabsF k d a p f => Sys2Proof.Machine.execVabsF k d a p f s
  | .vnegF k d a p f => Sys2Proof.Machine.execVnegF k d a p f s
  | .vexp2F k d a p f => Sys2Proof.Machine.execVexp2F k d a p f s
  | .vlog2F k d a p f => Sys2Proof.Machine.execVlog2F k d a p f s
  | .vrcpF k d a p f => Sys2Proof.Machine.execVrcpF k d a p f s
  | .vrsqF k d a p f => Sys2Proof.Machine.execVrsqF k d a p f s
  | .vsinF k d a p f => Sys2Proof.Machine.execVsinF k d a p f s
  | .vcosF k d a p f => Sys2Proof.Machine.execVcosF k d a p f s
  | .vtanhF k d a p f => Sys2Proof.Machine.execVtanhF k d a p f s
  | .vcmpeqF k d a b p q f => Sys2Proof.Machine.execVcmpeqF k d a b p q f s
  | .vcmpneF k d a b p q f => Sys2Proof.Machine.execVcmpneF k d a b p q f s
  | .vcmpltF k d a b p q f => Sys2Proof.Machine.execVcmpltF k d a b p q f s
  | .vcmpleF k d a b p q f => Sys2Proof.Machine.execVcmpleF k d a b p q f s
  | .vclassF k d a p f => Sys2Proof.Machine.execVclassF k d a p f s
  | .vaddS k d a b p q f => Sys2Proof.Machine.execVaddS k d a b p q f s
  | .vsubS k d a b p q f => Sys2Proof.Machine.execVsubS k d a b p q f s
  | .vmulS k d a b p q f => Sys2Proof.Machine.execVmulS k d a b p q f s
  | .vmaxS k d a b p q f => Sys2Proof.Machine.execVmaxS k d a b p q f s
  | .vminS k d a b p q f => Sys2Proof.Machine.execVminS k d a b p q f s
  | .vcmpeqS k d a b p q f => Sys2Proof.Machine.execVcmpeqS k d a b p q f s
  | .vcmpltS k d a b p q f => Sys2Proof.Machine.execVcmpltS k d a b p q f s
  | .vcmpleS k d a b p q f => Sys2Proof.Machine.execVcmpleS k d a b p q f s
  | .vaddN k d a b p q f => Sys2Proof.Machine.execVaddN k d a b p q f s
  | .vsubN k d a b p q f => Sys2Proof.Machine.execVsubN k d a b p q f s
  | .vmulN k d a b p q f => Sys2Proof.Machine.execVmulN k d a b p q f s
  | .vmaxN k d a b p q f => Sys2Proof.Machine.execVmaxN k d a b p q f s
  | .vminN k d a b p q f => Sys2Proof.Machine.execVminN k d a b p q f s
  | .vcmpeqN k d a b p q f => Sys2Proof.Machine.execVcmpeqN k d a b p q f s
  | .vcmpltN k d a b p q f => Sys2Proof.Machine.execVcmpltN k d a b p q f s
  | .vcmpleN k d a b p q f => Sys2Proof.Machine.execVcmpleN k d a b p q f s
  | .vand k d a b p q f => Sys2Proof.Machine.execVand k d a b p q f s
  | .vor k d a b p q f => Sys2Proof.Machine.execVor k d a b p q f s
  | .vxor k d a b p q f => Sys2Proof.Machine.execVxor k d a b p q f s
  | .vnot k d a p f => Sys2Proof.Machine.execVnot k d a p f s
  | .vshl k d a b p q f => Sys2Proof.Machine.execVshl k d a b p q f s
  | .vshr k d a b p q f => Sys2Proof.Machine.execVshr k d a b p q f s
  | .vsar k d a b p q f => Sys2Proof.Machine.execVsar k d a b p q f s
  | .vrot k d a b p q f => Sys2Proof.Machine.execVrot k d a b p q f s
  | .vcvt k d a x3 r x w n => Sys2Proof.Machine.execVcvt k d a x3 r x w n s
  | .vcvtw k d a w x p g n => Sys2Proof.Machine.execVcvtw k d a w x p g n s
  | .srnd k d a r p f => Sys2Proof.Machine.execSrnd k d a r p f s
  | .filla k d a x p => Sys2Proof.Machine.execFilla k d a x p s
  | .mkabs k d x => Sys2Proof.Machine.execMkabs k d x s
  | .vsel k d a b p q => Sys2Proof.Machine.execVsel k d a b p q s
  | .vmov k d a p f => Sys2Proof.Machine.execVmov k d a p f s
  | .vmovFromCn k d => Sys2Proof.Machine.execVmovFromCn k d s
  | .vmovToCn k a p => Sys2Proof.Machine.execVmovToCn k a p s
  | .kand k d a b => Sys2Proof.Machine.execKand k d a b s
  | .kor k d a b => Sys2Proof.Machine.execKor k d a b s
  | .kxor k d a b => Sys2Proof.Machine.execKxor k d a b s
  | .knot k d a => Sys2Proof.Machine.execKnot k d a s
  | .kmov k d a => Sys2Proof.Machine.execKmov k d a s
  | .kmovVk k d a p => Sys2Proof.Machine.execKmovVk k d a p s
  | .kmovKv k d a => Sys2Proof.Machine.execKmovKv k d a s
  | .kmovAv k d a => Sys2Proof.Machine.execKmovAv k d a s
  | .cntp k d a x p => Sys2Proof.Machine.execCntp k d a x p s
  | .cntpK k d a => Sys2Proof.Machine.execCntpK k d a s
  | .vperm k d a b p q => Sys2Proof.Machine.execVperm k d a b p q s
  | .vpermB k d a b p q => Sys2Proof.Machine.execVpermB k d a b p q s
  | .vbcast k d a x3 p => Sys2Proof.Machine.execVbcast k d a x3 p s
  | .vbcastB k d a x3 p => Sys2Proof.Machine.execVbcastB k d a x3 p s
  | .vrotl k d a n p => Sys2Proof.Machine.execVrotl k d a n p s
  | .vrotlSh k d a n p => Sys2Proof.Machine.execVrotlSh k d a n p s
  | .xg k d a g => Sys2Proof.Machine.execXg k d a g s
  | .xgRel k d a n => Sys2Proof.Machine.execXgRel k d a n s
  | .redadd k d a c x p => Sys2Proof.Machine.execRedadd k d a c x p s
  | .redmul k d a c x p => Sys2Proof.Machine.execRedmul k d a c x p s
  | .redmax k d a c x p => Sys2Proof.Machine.execRedmax k d a c x p s
  | .redmin k d a c x p => Sys2Proof.Machine.execRedmin k d a c x p s
  | .redor k d a c x p => Sys2Proof.Machine.execRedor k d a c x p s
  | .redand k d a c x p => Sys2Proof.Machine.execRedand k d a c x p s
  | .topk k d a b p q f => Sys2Proof.Machine.execTopk k d a b p q f s
  | .qpack k d a n p => Sys2Proof.Machine.execQpack k d a n p s
  | .qunpk k d a n => Sys2Proof.Machine.execQunpk k d a n s
  | .angof k d a b p q => Sys2Proof.Machine.execAngof k d a b p q s
  | .vclmul k d a b p q f => Sys2Proof.Machine.execVclmul k d a b p q f s
  | .vclmulh k d a b p q f => Sys2Proof.Machine.execVclmulh k d a b p q f s
  | .tld t => Sys2Proof.Machine.execTld t s
  | .tst c e t => Sys2Proof.Machine.execTst c e t s
  | .ldw w t => Sys2Proof.Machine.execLdw w t s
  | .stw w t => Sys2Proof.Machine.execStw w t s
  | .atomAdd w t => Sys2Proof.Machine.execAtomAdd w t s
  | .atomMin w t => Sys2Proof.Machine.execAtomMin w t s
  | .atomMax w t => Sys2Proof.Machine.execAtomMax w t s
  | .atomAnd w t => Sys2Proof.Machine.execAtomAnd w t s
  | .atomOr w t => Sys2Proof.Machine.execAtomOr w t s
  | .atomXor w t => Sys2Proof.Machine.execAtomXor w t s
  | .atomSwap w t => Sys2Proof.Machine.execAtomSwap w t s
  | .atomCas w t => Sys2Proof.Machine.execAtomCas w t s
  | .tileTransferComplete core id => Sys2Proof.Machine.execTileTransferComplete core id s
  | .cpy t => Sys2Proof.Machine.execCpy t s
  | .cpys t => Sys2Proof.Machine.execCpys t s
  | .cpyg t => Sys2Proof.Machine.execCpyg t s
  | .cpyr t => Sys2Proof.Machine.execCpyr t s
  | .cpyst c e t => Sys2Proof.Machine.execCpyst c e t s
  | .cpyf t => Sys2Proof.Machine.execCpyf t s
  | .cpyrFire core id => Sys2Proof.Machine.execCpyrFire core id s
  | .copyComplete core id => Sys2Proof.Machine.execCopyComplete core id s
  | .olatch b v k t => Sys2Proof.Machine.execOlatch b v k t s
  | .opass c e t => Sys2Proof.Machine.execOpass c e t s
  | .opassr c e t => Sys2Proof.Machine.execOpassr c e t s
  | .oderive c e t => Sys2Proof.Machine.execOderive c e t s
  | .oapply c e t => Sys2Proof.Machine.execOapply c e t s
  | .ofree t => Sys2Proof.Machine.execOfree t s
  | .osave x0 p t => Sys2Proof.Machine.execOsave x0 p t s
  | .orest x0 p t => Sys2Proof.Machine.execOrest x0 p t s
  | .odrift x0 n t => Sys2Proof.Machine.execOdrift x0 n t s
  | .oscfg c e t => Sys2Proof.Machine.execOscfg c e t s
  | .passFinish core ctx slot => Sys2Proof.Machine.execPassFinish core ctx slot s
  | .dot c e t => Sys2Proof.Machine.execDot c e t s
  | .dota c e t => Sys2Proof.Machine.execDota c e t s
  | .dcfg x0 t => Sys2Proof.Machine.execDcfg x0 t s
  | .ddrain x0 t => Sys2Proof.Machine.execDdrain x0 t s
  | .dclr t => Sys2Proof.Machine.execDclr t s
  | .dstat t => Sys2Proof.Machine.execDstat t s
  | .ald d x1 a b l => Sys2Proof.Machine.execAld d x1 a b l s
  | .sld d x1 a b l => Sys2Proof.Machine.execSld d x1 a b l s
  | .ptld d x1 a b l => Sys2Proof.Machine.execPtld d x1 a b l s
  | .ast d x1 a b l => Sys2Proof.Machine.execAst d x1 a b l s
  | .sst d x1 a b l => Sys2Proof.Machine.execSst d x1 a b l s
  | .trig x0 n t => Sys2Proof.Machine.execTrig x0 n t s
  | .cinc x0 n t => Sys2Proof.Machine.execCinc x0 n t s
  | .cset n t => Sys2Proof.Machine.execCset n t s
  | .crd n t => Sys2Proof.Machine.execCrd n t s
  | .eph t => Sys2Proof.Machine.execEph t s
  | .aowcfg x0 n t => Sys2Proof.Machine.execAowcfg x0 n t s
  | .ready x n t => Sys2Proof.Machine.execReady x n t s
  | .ephend t => Sys2Proof.Machine.execEphend t s
  | .engineCommandStart core id => Sys2Proof.Machine.execEngineCommandStart core id s
  | .triggeredFire core ctx q => Sys2Proof.Machine.execTriggeredFire core ctx q s
  | .readySlotFire core ctx q => Sys2Proof.Machine.execReadySlotFire core ctx q s
  | .transitStart core ctx k => Sys2Proof.Machine.execTransitStart core ctx k s
  | .transitComplete core ctx k => Sys2Proof.Machine.execTransitComplete core ctx k s
  | .readyTimeout core ctx => Sys2Proof.Machine.execReadyTimeout core ctx s
  | .barrierRelease spread => Sys2Proof.Machine.execBarrierRelease spread s
  | .regionCommit core ctx => Sys2Proof.Machine.execRegionCommit core ctx s
  | .deadlineFault core ctx => Sys2Proof.Machine.execDeadlineFault core ctx s
  | .deferredFaultRaise core ctx => Sys2Proof.Machine.execDeferredFaultRaise core ctx s
  | .taskFinish core ctx => Sys2Proof.Machine.execTaskFinish core ctx s
  | .drainHalt core ctx => Sys2Proof.Machine.execDrainHalt core ctx s
  | .tload id r => Sys2Proof.Machine.execTload id r s
  | .tstore id r => Sys2Proof.Machine.execTstore id r s
  | .tcopy id r => Sys2Proof.Machine.execTcopy id r s
  | .tfill id r => Sys2Proof.Machine.execTfill id r s
  | .tmap id r => Sys2Proof.Machine.execTmap id r s
  | .trot id r => Sys2Proof.Machine.execTrot id r s
  | .trotr id r => Sys2Proof.Machine.execTrotr id r s
  | .tqr id r => Sys2Proof.Machine.execTqr id r s
  | .tapply id r => Sys2Proof.Machine.execTapply id r s
  | .tdot id r => Sys2Proof.Machine.execTdot id r s
  | .tred id r => Sys2Proof.Machine.execTred id r s
  | .tnorm id r => Sys2Proof.Machine.execTnorm id r s
  | .ttopk id r => Sys2Proof.Machine.execTtopk id r s
  | .tconv id r => Sys2Proof.Machine.execTconv id r s
  | .tgather id r => Sys2Proof.Machine.execTgather id r s
  | .tscatter id r => Sys2Proof.Machine.execTscatter id r s
  | .tallred id r => Sys2Proof.Machine.execTallred id r s
  | .tbcast id r => Sys2Proof.Machine.execTbcast id r s
  | .tflipv id r => Sys2Proof.Machine.execTflipv id r s
  | .tbar id r => Sys2Proof.Machine.execTbar id r s
  | .tmapPlace id => Sys2Proof.Machine.execTmapPlace id s
  | .blockDelivery id pav => Sys2Proof.Machine.execBlockDelivery id pav s
  | .camvelRecordComplete id => Sys2Proof.Machine.execCamvelRecordComplete id s
  | .gateRelease win => Sys2Proof.Machine.execGateRelease win s
  | .windowAccept win => Sys2Proof.Machine.execWindowAccept win s
  | .compareManifestDone win => Sys2Proof.Machine.execCompareManifestDone win s
  | .tlbInvalidateDone owner => Sys2Proof.Machine.execTlbInvalidateDone owner s
  | .contextSaveAreaDone core ctx => Sys2Proof.Machine.execContextSaveAreaDone core ctx s
  | .preemptionRequest core ctx => Sys2Proof.Machine.execPreemptionRequest core ctx s
  | .windowRecordPortWrite win r => Sys2Proof.Machine.execWindowRecordPortWrite win r s
  | .windowGatePortWrite win g => Sys2Proof.Machine.execWindowGatePortWrite win g s
  | .windowCounterWrite win tc v => Sys2Proof.Machine.execWindowCounterWrite win tc v s
  | .compareManifestStart win addr => Sys2Proof.Machine.execCompareManifestStart win addr s
  | .tlbInvalidate owner v => Sys2Proof.Machine.execTlbInvalidate owner v s
  | .replay => Sys2Proof.Machine.execReplay s
  | .tthaw blk v => Sys2Proof.Machine.execTthaw blk v s
  | .tkill core v => Sys2Proof.Machine.execTkill core v s
  | .ccmdSave core ctx => Sys2Proof.Machine.execCcmdSave core ctx s
  | .ccmdRestore core ctx => Sys2Proof.Machine.execCcmdRestore core ctx s
  | .ccmdRelease core ctx => Sys2Proof.Machine.execCcmdRelease core ctx s
  | .ccmdContextReset core ctx => Sys2Proof.Machine.execCcmdContextReset core ctx s
  | .pfqpop => Sys2Proof.Machine.execPfqpop s
  | .tileFaultRecordClear h => Sys2Proof.Machine.execTileFaultRecordClear h s
  | .aowReadyClear core n t => Sys2Proof.Machine.execAowReadyClear core n t s
  | .readbackApertureWrite core off bytes => Sys2Proof.Machine.execReadbackApertureWrite core off bytes s
  | .pwrctlWrite v => Sys2Proof.Machine.execPwrctlWrite v s
  | .registerWrite off v be => Sys2Proof.Machine.execRegisterWrite off v be s
  | .sharedWindowAccess off len data => Sys2Proof.Machine.execSharedWindowAccess off len data s
  | .peerRequest link off len op => Sys2Proof.Machine.execPeerRequest link off len op s
  | .coldReset => Sys2Proof.Machine.execColdReset s
  | .warmReset => Sys2Proof.Machine.execWarmReset s
  | .functionLevelReset => Sys2Proof.Machine.execFunctionLevelReset s
  | .bootPhaseComplete ok err => Sys2Proof.Machine.execBootPhaseComplete ok err s
  | .getVersion => Sys2Proof.Machine.execGetVersion s
  | .getCapabilities => Sys2Proof.Machine.execGetCapabilities s
  | .negotiateAlgorithms => Sys2Proof.Machine.execNegotiateAlgorithms s
  | .getDigests => Sys2Proof.Machine.execGetDigests s
  | .getCertificate slot => Sys2Proof.Machine.execGetCertificate slot s
  | .challenge slot => Sys2Proof.Machine.execChallenge slot s
  | .getMeasurements index => Sys2Proof.Machine.execGetMeasurements index s
  | .keyExchange => Sys2Proof.Machine.execKeyExchange s
  | .finish => Sys2Proof.Machine.execFinish s
  | .keyUpdate => Sys2Proof.Machine.execKeyUpdate s
  | .heartbeat => Sys2Proof.Machine.execHeartbeat s
  | .heartbeatLoss => Sys2Proof.Machine.execHeartbeatLoss s
  | .endSession => Sys2Proof.Machine.execEndSession s
  | .seal va digest size => Sys2Proof.Machine.execSeal va digest size s
  | .unseal => Sys2Proof.Machine.execUnseal s
  | .divisorRaise => Sys2Proof.Machine.execDivisorRaise s
  | .stallWindowOpen cycles => Sys2Proof.Machine.execStallWindowOpen cycles s
  | .divisorLower => Sys2Proof.Machine.execDivisorLower s
  | .thermalTrip => Sys2Proof.Machine.execThermalTrip s
  | .thermalPowerOff => Sys2Proof.Machine.execThermalPowerOff s
  | .softError site correctable => Sys2Proof.Machine.execSoftError site correctable s
  | .stallWindowClose => Sys2Proof.Machine.execStallWindowClose s
  | .tripClear => Sys2Proof.Machine.execTripClear s
  | .ideKeyManagement activate => Sys2Proof.Machine.execIdeKeyManagement activate s

end Sys2Proof.Machine
end

