-- ==== Sys2Proof/Machine/Step.lean ====
section
/-! DEFINITION. One step of the machine, and how an instruction is placed where the next step runs it. -/

namespace Sys2Proof.Machine

/-- One step: the next event of the cycle, the next core's turn to issue, or the next stage of the cycle. -/
def step (s : State) : Host.Outcome State Fault Refusal := s.microStep exec

/-- The bundle that carries a word of a slot kind alone, or an empty bundle's own header. -/
def loneBundle (w : W32) : List Byte :=
  match decodeNop w with
  | some _ => leBytes 4 w.toNat
  | none =>
    match decodeFirst tableKinds w with
    | some (k, _) => leBytes 4 (2 ^ 23 + 2 ^ k.position) ++ leBytes 4 w.toNat
    | none => leBytes 4 (2 ^ 23 + 1) ++ leBytes 4 w.toNat

/-- The word of an instruction becomes the one bundle of a task of context 0 of core 0, which runs, and the core's turn is next: what a launch leaves (R18, R227), its code section this bundle. -/
def State.withFetchWord (s : State) (_nbits w : Nat) : State :=
  let task : Task := { code := loneBundle (BitVec.ofNat 32 w), bodyBudget := 2 ^ 24 - 1 }
  let k : Ctx := { s.sys.ctx 0 0 with
    task := task, win := wholeWindow, pc := 0, state := .running, ended := false, preq := false, deferred := [], barWait := false, fences := [], readyAt := 0, region := { (s.sys.ctx 0 0).region with rback := false } }
  let c : Core := { (s.sys.core 0).setCtx 0 k with sel := 0 }
  let p : Power := { s.sys.pkg.pw with stall := false }
  { s with sys := { (s.sys.setCore 0 c) with pkg := { s.sys.pkg with pw := p }, events := [], programmed := [], stage := 0, turn := [0] } }

end Sys2Proof.Machine
end

