-- ==== Sys2Proof/Safety.lean ====
section
/-! DEFINITION. What counts as a safe state: byte memory in its canonical form, and a next state to every step. -/

namespace Sys2Proof

/-- Byte memory keeps its canonical form. -/
def Safe.memory (s : Machine.State) : Prop := s.mem.wf = true

/-- The machine goes on from a state. -/
def Safe.goesOn (s : Machine.State) : Prop := ∃ t, Machine.step s = .next t

end Sys2Proof
end

