-- ==== Sys2Proof/Certificates/Slice0/Obligations.lean ====
section
/-! DEFINITION. The statements for the provers, and the few words they are written in. Each statement's docstring names the rules it rests on. -/

namespace Sys2Proof.Machine

/-! ## The words of the statements -/

/-- What the slot being executed makes due `n` ticks after its issue, in a phase of that tick: 0 it lands, 1 it reads, 2 it writes. -/
def Due (s : State) (n phase : Nat) (a : Act) : Ev :=
  { core := s.sys.cur.core, ctx := s.sys.cur.ctx, due := s.sys.t + n, phase := phase, ord := s.sys.cur.ord, act := a }

/-- The slot ran: nothing of the state changes but what `f` says, and the verdict of the slot. -/
def Runs (i : Instr) (s : State) (f : Sys → Sys) : Prop := exec i s = .next { s with sys := (f s.sys).ran }

/-- The address that pointer `code` had at the start of the cycle lands one tick later, before all else that the group writes there: an advance of the pointer in the cycle is replaced (R44, R153). -/
def AddressStays (s : State) (code : Nat) : Ev :=
  { Due s 1 0 (.ptrAddr code (vget s.sys.cur.addrs code)) with ord := s.sys.cur.ord / 32 * 32 - 1 }

/-- The instruction runs and makes `es` due. In its own cycle it changes no register, no flag, no special register and no byte of memory. -/
def Makes (i : Instr) (s : State) (es : List Ev) : Prop := Runs i s fun y => { y with agenda := y.agenda ++ es }

/-- The instruction runs, and nothing else changes. -/
def Passes (i : Instr) (s : State) : Prop := Runs i s id

/-- The instruction runs and changes its own context as `f` says. Every other context, the agenda, the package and all memory stay. -/
def Changes (i : Instr) (s : State) (f : Ctx → Ctx) : Prop := Runs i s fun y => y.modCtx y.cur.core y.cur.ctx f

/-- The instruction runs, and `v` lands in register `d` of a file `n` ticks after its issue. -/
def LandsIn (fileB : Bool) (i : Instr) (s : State) (n : Nat) (d : BitVec 5) (v : Word) : Prop :=
  Makes i s [Due s n 0 (.scalar fileB (s.sys.here.phys fileB d.toNat) allOnes v)]

/-- The same, in the slot's own file (R37). -/
def Lands (i : Instr) (s : State) (n : Nat) (d : BitVec 5) (v : Word) : Prop := LandsIn s.sys.fileB i s n d v

/-- The group of the slot holds, for an event of varying timing or not: its context waits, and nothing else changes (R118, R120). -/
def Holds (i : Instr) (s : State) (varying : Bool) : Prop :=
  exec i s = .next { s with sys :=
    { (s.sys.modCtx s.sys.cur.core s.sys.cur.ctx fun k => { k with state := .waiting, held := true, stalling := varying && k.timed }) with
      cur := { s.sys.cur with verdict := .held varying } } }

/-- The slot breaks a limit: the fault is taken for its group's own address, and nothing of its effect happens (R119, R302). -/
def BreaksLimit (i : Instr) (s : State) (cls code : Nat) (far : Word) : Prop :=
  ∃ f : FaultRec, f.cls = cls ∧ f.code = code ∧ f.far = far ∧ f.slot = s.sys.cur.slot ∧ f.grp = s.sys.cur.grp ∧
    exec i s = .next { s with sys :=
      { (s.sys.takeFault s.sys.cur.core s.sys.cur.ctx f f.more s.sys.cur.grp) with cur := { (s.sys.takeFault s.sys.cur.core s.sys.cur.ctx f f.more s.sys.cur.grp).cur with verdict := .faulted f } } }

/-- Outside an interlocked level a group reads its registers as they stand; inside one, it issues once the results for them have landed (R23). -/
def Readable (s : State) (fileB : Bool) (names : List (BitVec 5)) : Prop :=
  s.sys.here.interlocked = false ∨ ∀ n ∈ names, s.sys.pendingScalar fileB (s.sys.here.phys fileB n.toNat) = false

/-- The row has this effect: nothing changes but what `f` says, and memory stays. -/
def Becomes (i : Instr) (s : State) (f : Sys → Sys) : Prop := exec i s = .next { s with sys := f s.sys }

/-- The row has no effect. -/
def Idles (i : Instr) (s : State) : Prop := exec i s = .next s

end Sys2Proof.Machine

open Sys2Proof Sys2Proof.Machine

/-! ## Decoding and encoding -/

/-- Every well-formed instruction of the control, scalar and address slots has a word that decodes to it, every operand at every value (R104, R105, R106). -/
def Obligations.EncodeDecodeControlScalarAddress : Prop :=
  ∀ (i : Instr) (k : SlotKind), i.kind = some k → (k = .control ∨ k = .scalar ∨ k = .address) → i.wf = true →
    ∃ w, encode i = some w ∧ decodeSlot k w = .ok i

/-- Every well-formed instruction of the engine slots has a word that decodes to it, every operand at every value (R108, R110, R111). -/
def Obligations.EncodeDecodeEngines : Prop :=
  ∀ (i : Instr) (k : SlotKind), i.kind = some k →
    (k = .tileMem ∨ k = .copy ∨ k = .orrery ∨ k = .dot ∨ k = .load ∨ k = .collective) → i.wf = true →
    ∃ w, encode i = some w ∧ decodeSlot k w = .ok i

/-- Every well-formed instruction of the lane-group slots has a word that decodes to it, every operand at every value (R107). -/
def Obligations.EncodeDecodeLaneGroups : Prop :=
  ∀ i : Instr, i.kind = some .vector → i.wf = true → ∃ w, encode i = some w ∧ decodeSlot .vector w = .ok i

/-- Words that the spec prints decode to what it says they stand for, and words with a reserved value are refused by name (R102, R122 to R132, R141 to R157, R170, R186, R317). -/
def Obligations.SpecWordsDecode : Prop :=
  (decodeSlot .control 0x07FFFFFC = .ok (.bra 0x3FFFFFC) ∧ decodeSlot .control 0x11200000 = .ok (.jr 9 0) ∧
    decodeSlot .control 0x2100000C = .ok (.loop 2 12) ∧ decodeSlot .control 0x40010001 = .ok (.waits 1 1) ∧
    decodeSlot .control 0x61000013 = .ok (.rdst 8 0x13) ∧ decodeSlot .control 0x6C600200 = .ok (.flrd 3 1 0)) ∧
  (decodeSlot .scalar 0x01088003 = .ok (.add 1 2 3) ∧ decodeSlot .scalar 0x21384022 = .ok (.mulh 7 1 1 2) ∧
    decodeSlot .scalar 0x3930FFF8 = .ok (.st 6 3 0x3FF8) ∧ decodeSlot .scalar 0x43284042 = .ok (.fcmp 5 1 2 2)) ∧
  (decodeSlot .address 0x12000004 = .ok (.padv 16 4) ∧ decodeSlot .address 0x200A0001 = .ok (.spcfg 0 10 1) ∧
    decodeSlot .address 0x40450000 = .ok (.xlat 2 5)) ∧
  (decodeSlot .vector 0x7AC40422 = .ok (.vsel 3 4 1 2 0 0) ∧ decodeSlot .vector 0x94030410 = .ok (.vrotl 0 3 1 1 0) ∧
    decodeSlot .vector 0xB4070420 = .ok (.angof 0 7 1 2 0 0) ∧ decodeSlot .vector 0xB8030423 = .ok (.vclmulh 0 3 1 2 0 0 3)) ∧
  (decodeSlot .tileMem 0x79000000 = .ok (.atomCas 1 0) ∧ decodeSlot .copy 0x2C030000 = .ok (.cpyst 1 3 0) ∧
    decodeSlot .orrery 0x20000000 = .ok (.oderive 0 0 0) ∧ decodeSlot .dot 0x08000000 = .ok (.dot 0 0 0) ∧
    decodeSlot .load 0x24540038 = .ok (.ast 17 5 0 0 56)) ∧
  decodeNop 0x00800000 = some (.nop 0 1) ∧
  (decodeSlot .control 0 = .error .unassigned ∧ decodeSlot .scalar 0x01088023 = .error .reservedField ∧
    decodeSlot .scalar 0x33038028 = .error .reservedValue)

/-! ## The machine -/

/-- A step of a core's turn runs the instruction that the bundle at the pc holds: when the context the selector names may issue, its group is one slot whose word decodes to `i`, and `i` runs there, the step is that run, followed by what ends an issue: the other contexts' waits, and then the selector's change (R258). The run starts with the pc at the fall-through address and the next group one tick later (R101, R121); the slot's own effect may change both. What a stop of the context had set aside goes on before its first group (R34). -/
def Obligations.StepRunsDecodedInstruction : Prop :=
  ∀ (s : State) (g : Nat) (rest : List Nat) (x : Fin 4) (w : SlotWord) (i : Instr) (t : State),
    let u : State := { s with sys := { s.sys with turn := rest } }
    let own := u.sys.ctx g x
    let y := u.comeBack g x
    let k := y.sys.ctx g x
    let q := groupAt k.task.code k.pc
    s.sys.events = [] → s.sys.programmed = [] → s.sys.stage = 0 → s.sys.turn = g :: rest → u.sys.windowOpen = false →
    (u.sys.core g).sel = x.val → own.live = true → own.region.rback = false → own.readyAt ≤ u.sys.tick own.timed →
    k.barWait = false → k.readyAt ≤ y.sys.tick k.timed →
    y.sys.fenceHold y.mem g x q = none → k.closesRegion q = false → k.deferred = [] →
    q.slots = [w] → q.faults = [] → w.decode = .ok i →
    exec i { y with sys := ((y.sys.found g x).prepare g x q).at w } = .next t → t.sys.cur.verdict = .ran →
    step s = .next (let u := State.wake exec t g x; { u with sys := u.sys.afterIssue g x })

/-- One slot of a group: a slot that runs changes the state, one that holds or faults leaves it as it was and is remembered, and a bad word is an illegal instruction fault of class 2 with the code of its kind (R101, R118, R302, R317). The further copies of a broadcast word add no fault that its first copy has added. -/
def Obligations.SlotsRunInTurn : Prop :=
  ∀ (r : Ran) (w : SlotWord),
    (∀ b, w.decode = .error b → r.slot exec w =
      if w.twin then r else { r with faults := r.faults ++ [{ cls := 2, code := b.code, slot := w.pos, grp := r.state.sys.cur.grp, more := b.several }] }) ∧
    (∀ i t, w.decode = .ok i → exec i { r.state with sys := r.state.sys.at w } = .next t →
      (t.sys.cur.verdict = .ran → r.slot exec w = { r with state := t }) ∧
      (∀ v, t.sys.cur.verdict = .held v → r.slot exec w = { r with holds := r.holds ++ [v] }) ∧
      (∀ f, t.sys.cur.verdict = .faulted f →
        let told : Prop := w.twin = true ∧ ∃ e ∈ r.faults, e.cls = f.cls ∧ e.code = f.code ∧ 10 ≤ e.slot
        (told → r.slot exec w = r) ∧ (¬ told → r.slot exec w = { r with faults := r.faults ++ [f] })))

/-- A step that has an event pending runs that event's row, and nothing else; without one, a write of the program on the control cores that is due is run as its row; without either, in a stall window, a core's turn passes and nothing changes: no group issues (R270, R284). -/
def Obligations.StepRunsEventsFirst : Prop :=
  (∀ (s : State) (i : Instr) (rest : List Instr), s.sys.events = i :: rest →
     step s = exec i { s with sys := { s.sys with events := rest, byProgram := false } }) ∧
  (∀ (s : State) (i : Instr) (rest : List Instr), s.sys.events = [] → s.sys.programmed = i :: rest →
     step s = exec i { s with sys := { s.sys with programmed := rest, byProgram := true } }) ∧
  (∀ (s : State) (g : Nat) (rest : List Nat), s.sys.events = [] → s.sys.programmed = [] → s.sys.stage = 0 → s.sys.turn = g :: rest →
     s.sys.pkg.pw.stall = true → step s = .next { s with sys := { s.sys with turn := rest } })

/-- The machine never refuses a step: every instruction, record and event has its meaning. -/
def Obligations.StepNeverRefuses : Prop := ∀ (s : State) (r : Refusal), step s ≠ .refused r

/-- Byte memory keeps its canonical form over every step. -/
def Obligations.StepKeepsMemoryForm : Prop := ∀ s t : State, Safe.memory s → step s = .next t → Safe.memory t

/-- The form holds after reset. -/
def Obligations.ResetMemoryForm : Prop := Safe.memory State.reset

/-- Reset leaves what R348 and the register tables give: every context idle with pc 0, rounding to nearest even, no flag and no fault recorded, FER empty, the scalar registers, trigger counters and pointers 0, the clocks 0, boot phase 0, and every byte of memory 0. That memory reads 0 is the model's choice for HBM and the tier (log 1), the spec's for the core's memories. -/
def Obligations.ResetState : Prop :=
  (State.reset.sys.mer = 0 ∧ State.reset.sys.wcyc = 0 ∧ State.reset.sys.pkg.sec.phase = 0 ∧ State.reset.sys.pkg.sec.ready = false) ∧
  (∀ (g : Nat) (x : Fin 4), let k := State.reset.sys.ctx g x
    k.state = .idle ∧ k.pc = 0 ∧ k.regs.rm = .rne ∧ k.tvecEn = false ∧ k.epcInh = false ∧ k.far = 0 ∧ k.region.open_ = false ∧ k.driftLimit = 0x7F800000 ∧
    (∀ p, vget k.regs.flags p = 0) ∧ k.regs.fer.valid = false ∧ (∀ (b : Bool) (n : Nat), k.regs.scalar b n = 0) ∧ (∀ n, vget k.regs.tc n = 0) ∧
    (∀ n, vget k.regs.staging n = 0) ∧ (∀ n, let p := vget k.regs.ptr n; p.addr = 0 ∧ p.step = 0 ∧ p.wbase = 0 ∧ p.wrap = 0)) ∧
  ∀ a, State.reset.mem.get a = 0

/-! ## Memory -/

/-- A byte that a write puts reads back, and every other byte reads as before; two memories in the canonical form that read alike everywhere are equal, so writing what stands there changes nothing; the little-endian 64-bit word at a key is what an 8-byte write there put (R3). -/
def Obligations.MemoryReadAfterWrite : Prop :=
  (∀ (m : Memory) (k : Nat) (data : List Byte), m.wf = true →
     (∀ i (h : i < data.length), (m.write (.put k data)).get (k + i) = data[i]) ∧
     ∀ a, a < k ∨ k + data.length ≤ a → (m.write (.put k data)).get a = m.get a) ∧
  (∀ m n : Memory, m.wf = true → n.wf = true → (∀ a, m.get a = n.get a) → m = n) ∧
  (∀ (m : Memory) (k : Nat) (v : Word), m.wf = true → (m.write (.put k (leBytes 8 v.toNat))).word k = v)

/-- An element that arrives in an accumulate-on-write region: absent leaves the word, an absent word takes the element, a subnormal flushed to a zero of its sign, `op` 3 ORs, and the signed sum saturates at the present range (R56). -/
def Obligations.AccumulateOnWrite : Prop :=
  ∀ (m : Memory) (k : Nat) (op : Nat) (v : W32), m.wf = true →
    let w := m.word32 k
    ((op = 0 ∨ op = 1) → (v = 0xFFC00001 → m.write (.accumulate op k v) = m) ∧
      (v ≠ 0xFFC00001 → w = 0xFFC00001 → m.write (.accumulate op k v) =
        m.put k (leBytes 4 (if v &&& 0x7F800000 = 0 then v &&& 0x80000000 else v).toNat))) ∧
    (op = 2 → (v = 0x80000000 → m.write (.accumulate op k v) = m) ∧
      (v ≠ 0x80000000 → w = 0x80000000 → m.write (.accumulate op k v) = m.put k (leBytes 4 v.toNat)) ∧
      (v ≠ 0x80000000 → w ≠ 0x80000000 → ∀ r : Int, r = w.toInt + v.toInt →
        (2147483647 < r → (m.write (.accumulate op k v)).word32 k = 0x7FFFFFFF) ∧
        (r < -2147483647 → (m.write (.accumulate op k v)).word32 k = 0x80000001) ∧
        (-2147483647 ≤ r → r ≤ 2147483647 → (m.write (.accumulate op k v)).word32 k = BitVec.ofInt 32 r))) ∧
    (op = 3 → (m.write (.accumulate op k v)).word32 k = w ||| v)

/-- The instructions of the slots store nothing when they issue: what they write lands or performs later, or an event writes it. -/
def Obligations.SlotsStoreNothingAtIssue : Prop :=
  ∀ (i : Instr) (s t : State), i.kind ≠ none → exec i s = .next t → t.mem = s.mem

/-! ## The control slot -/

/-- BRA, BZ, BNZ and JR: the target is the group's address, or ra[31:0], plus four times the signed displacement; a taken transfer issues the next group at issue + 2, an untaken one changes nothing (R121, R122). The test is on all 64 bits. -/
def Obligations.Branches : Prop :=
  ∀ (s : State) (a : BitVec 5) (d : BitVec 21) (d' : BitVec 26),
    let sets (target : W32) (k : Ctx) : Ctx := { k with pc := target, readyAt := s.sys.t + 2 }
    Changes (.bra d') s (sets (s.sys.cur.grp + BitVec.ofInt 32 (4 * d'.toInt))) ∧
    (Readable s false [a] →
      (s.sys.regA a = 0 → Changes (.bz a d) s (sets (s.sys.cur.grp + BitVec.ofInt 32 (4 * d.toInt))) ∧ Passes (.bnz a d) s) ∧
      (s.sys.regA a ≠ 0 → Changes (.bnz a d) s (sets (s.sys.cur.grp + BitVec.ofInt 32 (4 * d.toInt))) ∧ Passes (.bz a d) s) ∧
      Changes (.jr a d) s (sets ((s.sys.regA a).setWidth 32 + BitVec.ofInt 32 (4 * d.toInt))))

/-- LOOP on a temporal level with valid outer entries and an invalid one of its own: the entry takes the level's count, budget and interlock and is valid unless the count is 0; then the exit is a taken transfer (R21, R121, R123). Otherwise it is an operand range fault. ENDL and BREAK act on the innermost valid temporal entry: ENDL rotates ROTB in every case, advances the index and loops back or closes the entry and falls through; BREAK closes it without rotating and takes its exit. When no temporal entry is left, the body's stretch starts at 0 (R21, R22, R24, R121). With no temporal entry valid both are operand range faults (R123). -/
def Obligations.LoopsOpenTurnAndClose : Prop :=
  (∀ (s : State) (j : BitVec 3) (d : BitVec 23),
     let k := s.sys.here
     let exit : W32 := s.sys.cur.grp + BitVec.ofInt 32 (4 * d.toInt)
     let legal (l : Level) : Prop := k.task.levels[j.toNat]? = some l ∧ l.kind = .temporal ∧
       (∀ i, i < j.toNat → (vget k.regs.loops i).valid = true) ∧ (vget k.regs.loops j.toNat).valid = false
     let entry (l : Level) : LoopEntry :=
       { index := 0, count := BitVec.ofNat 32 l.count, start := s.sys.cur.next, exit := exit, budget := l.budget, kind := .temporal,
         valid := l.count != 0, interlocked := l.interlocked, elapsed := 0 }
     (∀ l, legal l →
       (l.count ≠ 0 → Changes (.loop j d) s fun k =>
         { k with regs := { k.regs with loops := vset k.regs.loops j.toNat (entry l) }, boundary := true, pc := s.sys.cur.next }) ∧
       (l.count = 0 → Changes (.loop j d) s fun k =>
         { k with regs := { k.regs with loops := vset k.regs.loops j.toNat (entry l) }, boundary := true, pc := exit, readyAt := s.sys.t + 2 })) ∧
     ((∀ l, ¬ legal l) → BreaksLimit (.loop j d) s 3 1 0)) ∧
  (∀ s : State,
     let k := s.sys.here
     let active (i : Nat) : Bool := (vget k.regs.loops i).valid && (vget k.regs.loops i).kind == .temporal
     let back (size base : Nat) : Nat := if size = 0 then base else (base + size - 1) % size
     let rot : Rotb := { k.regs.rotb with vbase := back k.regs.rotb.vsize k.regs.rotb.vbase, bbase := back k.regs.rotb.bsize k.regs.rotb.bbase,
                                          abase := back k.regs.rotb.asize k.regs.rotb.abase }
     let body (j : Nat) : Nat := if (List.range 6).any fun i => i != j && active i then k.bodyElapsed else 0
     (∀ j, j < 6 → active j = true → (∀ i, j < i → i < 6 → active i = false) →
       let e := vget k.regs.loops j
       (e.index + 1 < e.count → Changes .endl s fun k =>
         { k with boundary := true, pc := e.start, regs := { k.regs with rotb := rot, loops := vset k.regs.loops j { e with index := e.index + 1, elapsed := 0 } } }) ∧
       (¬ e.index + 1 < e.count → Changes .endl s fun k =>
         { k with boundary := true, pc := s.sys.cur.next, bodyElapsed := body j, regs := { k.regs with rotb := rot, loops := vset k.regs.loops j { e with index := e.index + 1, valid := false } } }) ∧
       Changes .breakLoop s fun k =>
         { k with boundary := true, pc := e.exit, readyAt := s.sys.t + 2, bodyElapsed := body j, regs := { k.regs with loops := vset k.regs.loops j { e with valid := false } } }) ∧
     ((∀ i, i < 6 → active i = false) → BreaksLimit .endl s 3 1 0 ∧ BreaksLimit .breakLoop s 3 1 0))

/-- WAITS, WAITC and TICK: each issues with no other effect once its condition is true, holds its group until then, and breaks its limit at once when its own operand does (R118, R124, R125, R130). -/
def Obligations.WaitsHoldUntilTheirCondition : Prop :=
  ∀ (s : State) (idle : BitVec 1) (m : BitVec 16) (a : BitVec 5) (n : BitVec 6),
    let k := s.sys.here
    let c := s.sys.hereCore
    let x := s.sys.cur.ctx
    let named (t : Nat) : Prop := t < 16 ∧ m.getLsbD t = true
    let free (t : Nat) : Prop := c.wpend x t = false ∧ (idle = 1 → c.readers x t = 0)
    let window : Prop := m ≠ 0 ∧ ∀ t, named t → t < k.win.vwin / 4
    let reaches : Prop := (vget k.regs.tc n.toNat - (s.sys.regA a).setWidth 32).toNat < 2 ^ 31
    let now : Nat := if k.timed then (BitVec.ofNat 64 s.sys.mer - k.tstm : Word).toNat else (BitVec.ofNat 64 s.sys.wcyc : Word).toNat
    (window → (∀ t, named t → free t) → Passes (.waits idle m) s) ∧
    (window → (¬ ∀ t, named t → free t) → ∃ v, Holds (.waits idle m) s v) ∧
    (¬ window → BreaksLimit (.waits idle m) s 3 1 0) ∧
    (¬ n.toNat < k.win.tcount → BreaksLimit (.waitc a n) s 3 1 0) ∧
    (n.toNat < k.win.tcount → Readable s false [a] → reaches → Passes (.waitc a n) s) ∧
    (n.toNat < k.win.tcount → ¬ reaches → ∃ v, Holds (.waitc a n) s v) ∧
    (Readable s false [a] → (s.sys.regA a).toNat ≤ now → Passes (.tick a) s) ∧
    (now < (s.sys.regA a).toNat → Holds (.tick a) s false)

/-- BAR, FENCE, YIELD, HALT and the empty bundle change their context and nothing else: BAR waits at the task's next barrier; FENCE waits, with its kind and its scope, for the accesses issued so far; YIELD makes a shared context ready, or leaves a draining one draining, passes the issue on, and does nothing in timed mode; HALT ends issue at an iteration boundary; `nop` has no effect, and with the restart mark it opens a region whose checkpoint, in shared mode, is the registers as they stand (R102, R126, R127, R133, R137, R326, R328). What the fields of the model's context stand for is log 4. -/
def Obligations.ContextControls : Prop :=
  ∀ (s : State) (kind : BitVec 2) (scope : BitVec 3) (stop : BitVec 1),
    let y := s.sys
    Changes .bar s (fun k => { k with barWait := true, barOrd := y.cur.ord, barArrived := false, bars := k.bars + 1 }) ∧
    Changes (.fence kind scope) s (fun k => { k with fences := k.fences ++ [⟨y.cur.ord, kind.toNat, scope.toNat, y.cur.grp⟩] }) ∧
    Changes .yield s (fun k => if k.timed then k else { k with state := if k.preq then k.state else .ready, yielded := true }) ∧
    Changes .halt s (fun k => { k with state := .halted, ended := true, preq := false, boundary := true }) ∧
    Passes (.nop 0 stop) s ∧
    Changes (.nop 1 stop) s (fun k => { k with region :=
      { open_ := true, mark := y.cur.grp, since := y.cur.ord / 32 * 32, checkpoint := if k.timed then none else some k.regs } })

/-- RDST lands the register as it stands at the start of the issue cycle, the group's own address for the PC, at issue + 2; WRST writes at issue + 1 what it reads at issue, and a write of a pointer's wrap fields leaves the pointer's address as the cycle found it (R44, R153). An unassigned number is an operand range fault, and so is a value outside the register's range (R129, R318). FLRD reads at the end of its issue cycle, and FLCLR clears then; both leave the flags as they are until then. A position of 18 or above is an operand range fault (R131). -/
def Obligations.StateRegisterAndFlagAccess : Prop :=
  (∀ (s : State) (a : BitVec 5) (n : BitVec 9),
     let y := s.sys
     let reg := y.stateReg y.cur.core y.cur.ctx n.toNat
     let probing : Prop := 0x1A0 ≤ n.toNat ∧ n.toNat < 0x1A4 ∧ (vget y.here.probe (n.toNat - 0x1A0)).isSome
     (∀ v, reg = some v → ¬ probing → LandsIn false (.rdst a n) s 2 a (if n = 0 then y.cur.grp.setWidth 64 else if n = 0x00B then y.cur.rgst else v)) ∧
     (probing → Holds (.rdst a n) s true) ∧
     (reg = none → BreaksLimit (.rdst a n) s 3 1 0) ∧
     (Readable s false [a] → reg ≠ none → y.here.wrstOk n.toNat (y.regA a) = true → Makes (.wrst a n) s
       ((if 0x080 ≤ n.toNat ∧ n.toNat < 0x0C0 ∧ n.toNat % 2 = 1 then [AddressStays s ((n.toNat - 0x080) / 2)] else []) ++
         [Due s 1 0 (.wrst n.toNat (y.regA a))])) ∧
     (Readable s false [a] → (reg = none ∨ y.here.wrstOk n.toNat (y.regA a) = false) → BreaksLimit (.wrst a n) s 3 1 0)) ∧
  (∀ (s : State) (a p : BitVec 5) (all fer : BitVec 1) (m : BitVec 18),
     (all = 1 ∨ p.toNat < 18 → Makes (.flrd a all p) s [Due s 0 2 (.flagRead (all == 1) p.toNat (s.sys.here.phys false a.toNat))]) ∧
     (all = 0 → 18 ≤ p.toNat → BreaksLimit (.flrd a all p) s 3 1 0) ∧
     Runs (.flclr fer m) s fun y => { y with clears := y.clears ++ [(y.cur.core, y.cur.ctx, m, fer == 1)] })

/-- CTI reads its record at issue + 2 when the level's queue has room, and holds while it is full; DIGEST joins the context's digests, block i read at issue + 2 + i, holds in shared mode and is a timing fault in timed mode before the last read of the one before (R128, R132, R222). An address off the core's own scratchpad, or off its alignment, breaks the limit. -/
def Obligations.RecordAndDigestIssue : Prop :=
  ∀ (s : State) (a : BitVec 5) (l : BitVec 3) (n : BitVec 16),
    let y := s.sys
    let addr := (y.regA a).toNat % 2 ^ 28
    let aligned : Prop := addr % 64 = 0 ∧ addr / 2 ^ 21 % 128 = y.cur.core % 128
    let room : Prop := y.deaf (ctiLevel y.cur.core l.toNat) = false ∧
      y.queued (.context y.cur.core y.cur.ctx) (ctiLevel y.cur.core l.toNat) + y.ctiReads y.cur.core y.cur.ctx l.toNat < 16
    let whole : Prop := aligned ∧ 1 ≤ n.toNat ∧ n.toNat ≤ 32768 ∧ addr % 2 ^ 21 + 64 * n.toNat ≤ 2 ^ 21
    let idle : Prop := ∀ d ∈ y.here.digesting, d.start + d.n - 1 ≤ y.t
    (Readable s false [a] → aligned → room → Runs (.cti a l) s fun y =>
      { y with agenda := y.agenda ++ [Due s 2 1 (.ctiRead addr l.toNat y.cur.grp)] }.modHere fun k =>
        if k.region.open_ then { k with region := { k.region with taken := k.region.taken + 1 } } else k) ∧
    (Readable s false [a] → ¬ room → Holds (.cti a l) s true) ∧
    (Readable s false [a] → ¬ aligned → room → BreaksLimit (.cti a l) s 3 1 (BitVec.ofNat 64 addr)) ∧
    (Readable s false [a] → whole → idle → Changes (.digest a n) s fun k =>
      { k with digesting := k.digesting ++ [⟨y.cur.ord, addr, n.toNat, 0, y.t + 2, y.cur.grp⟩] }) ∧
    (Readable s false [a] → ¬ idle → y.here.timed = false → Holds (.digest a n) s false) ∧
    (Readable s false [a] → whole → ¬ idle → y.here.timed = true → BreaksLimit (.digest a n) s 5 1 0) ∧
    (Readable s false [a] → ¬ whole → idle → BreaksLimit (.digest a n) s 3 1 (BitVec.ofNat 64 addr))

/-- TRAP with a handler enabled and none running: ECAUSE, EPC and the pc as the rule gives them, FAR 0, FGA naming the slot and the group; the handler's first group issues at issue + 2. Otherwise the context stops faulted with the same cause, and the package fault queue takes the record, behind all others when it is the first of its cycle (R121, R135, R302, R303, R308, R314). -/
def Obligations.TrapEntry : Prop :=
  ∀ (s : State) (c : BitVec 16),
    let y := s.sys
    let k := y.here
    let grp := y.cur.grp
    (k.tvecEn = true → k.epcInh = false → Changes (.trap c) s fun k =>
      { k with causeClass := 0, causeCode := c, far := 0, fga := ⟨!k.deferred.isEmpty, false, y.cur.slot, grp⟩,
               epcInh := true, epcRet := y.cur.next, pc := k.tvecAddr, readyAt := y.t + 2, held := false, stalling := false,
               state := if k.state = .waiting then .running else k.state }) ∧
    (y.cur.ctx < 4 → (k.tvecEn = false ∨ k.epcInh = true) → k.timed = false → k.region.open_ = false → ∃ t, exec (.trap c) s = .next t ∧ t.sys.cur.verdict = .ran ∧ t.mem = s.mem ∧
      t.sys.here = { k with causeClass := 0, causeCode := c, far := 0, fga := ⟨!k.deferred.isEmpty, false, y.cur.slot, grp⟩,
                            state := .faulted, preq := false, held := false, stalling := false, haltTick := y.run, mid := true } ∧
      let e : Word × Word × Word × Word :=
        (faultWord0 false 0 c.toNat 0 0, faultPathCore 0 y.cur.core y.cur.ctx, 0, (Fga.mk (!k.deferred.isEmpty) false y.cur.slot grp).word)
      t.sys.pkg = y.pkg.pfqAppend e ∧
      (y.pkg.pfq.length < 64 → y.pkg.pfqNew = 0 → t.sys.pkg.pfq = y.pkg.pfq ++ [e] ∧ t.sys.pkg.msix = y.pkg.msix ||| 0x100))

/-- ERET (R136): its word, its effect inside a handler, and the illegal instruction fault outside one. -/
def Obligations.HandlerReturn : Prop :=
  decodeSlot .control 0x88000000 = .ok .eret ∧ encode .eret = some 0x88000000 ∧
  ∀ s : State,
    (s.sys.here.epcInh = true → Changes .eret s fun k => { k with pc := k.epcRet, epcInh := false, readyAt := s.sys.t + 2 }) ∧
    (s.sys.here.epcInh = false → BreaksLimit .eret s 2 4 0)

/-! ## The scalar slots -/

/-- The integer instructions of latency 1: each lands its result in rd at issue + 1 and changes nothing else; the immediate of ADD and AND is sign-extended (R139, R140, R141). The shifts: the distance is rb[5:0], or an immediate of 0 to 63; a larger immediate is an operand range fault (R140, R141). -/
def Obligations.IntegerAndShiftResults : Prop :=
  (∀ (s : State) (d a b : BitVec 5) (u : BitVec 1) (imm : BitVec 14),
     let x := s.sys.own a
     let y := s.sys.own b
     let k : Word := BitVec.ofInt 64 imm.toInt
     let bool (p : Prop) [Decidable p] : Word := if p then 1 else 0
     let less (p q : Word) : Bool := if u = 1 then decide (p.toNat < q.toNat) else decide (p.toInt < q.toInt)
     (Readable s s.sys.fileB [a] →
       Lands (.addImm d a imm) s 1 d (x + k) ∧ Lands (.andImm d a imm) s 1 d (x &&& k)) ∧
     (Readable s s.sys.fileB [a, b] →
       Lands (.add d a b) s 1 d (x + y) ∧ Lands (.sub d a b) s 1 d (x - y) ∧
       Lands (.and d a b) s 1 d (x &&& y) ∧ Lands (.or d a b) s 1 d (x ||| y) ∧ Lands (.xor d a b) s 1 d (x ^^^ y) ∧
       Lands (.cmpeq d a b) s 1 d (bool (x = y)) ∧ Lands (.cmplt d a b) s 1 d (bool (x.toInt < y.toInt)) ∧ Lands (.cmpltu d a b) s 1 d (bool (x.toNat < y.toNat)) ∧
       Lands (.min d a u b) s 1 d (if less y x then y else x) ∧ Lands (.max d a u b) s 1 d (if less x y then y else x))) ∧
  (∀ (s : State) (d a b : BitVec 5) (imm : BitVec 14),
     let x := s.sys.own a
     let n := (s.sys.own b).toNat % 64
     (Readable s s.sys.fileB [a, b] →
       Lands (.shl d a b) s 1 d (BitVec.ofNat 64 (x.toNat * 2 ^ n)) ∧ Lands (.shr d a b) s 1 d (BitVec.ofNat 64 (x.toNat / 2 ^ n)) ∧
       Lands (.sar d a b) s 1 d (BitVec.ofInt 64 (x.toInt / 2 ^ n))) ∧
     (Readable s s.sys.fileB [a] → imm.toNat < 64 →
       Lands (.shlImm d a imm) s 1 d (BitVec.ofNat 64 (x.toNat * 2 ^ imm.toNat)) ∧
       Lands (.shrImm d a imm) s 1 d (BitVec.ofNat 64 (x.toNat / 2 ^ imm.toNat))) ∧
     (Readable s s.sys.fileB [a] → 64 ≤ imm.toNat → BreaksLimit (.shlImm d a imm) s 3 1 0 ∧ BreaksLimit (.shrImm d a imm) s 3 1 0))

/-- MUL and MULH (R142): the low 64 bits of the product, and the floor of the exact product over 2^64, signed or unsigned, landing at issue + 3. Their opcodes, `fn` and the example word decode as the rule gives. -/
def Obligations.MultiplyResults : Prop :=
  (decodeSlot .scalar 0x21384022 = .ok (.mulh 7 1 1 2) ∧
    ∀ d a b : BitVec 5, ∀ fn : BitVec 9,
      decodeSlot .scalar (0x20#8 ++ d ++ a ++ fn ++ b) = (if fn = 0 then .ok (.mul d a b) else .error .reservedField) ∧
      decodeSlot .scalar (0x21#8 ++ d ++ a ++ fn ++ b) = (if fn < 2 then .ok (.mulh d a (fn.setWidth 1) b) else .error .reservedField)) ∧
  ∀ (s : State) (d a b : BitVec 5), Readable s s.sys.fileB [a, b] →
    let x := s.sys.own a
    let y := s.sys.own b
    Lands (.mul d a b) s 3 d (BitVec.ofNat 64 (x.toNat * y.toNat % 2 ^ 64)) ∧
    Lands (.mulh d a 0 b) s 3 d (BitVec.ofInt 64 (x.toInt * y.toInt / 2 ^ 64)) ∧
    Lands (.mulh d a 1 b) s 3 d (BitVec.ofNat 64 (x.toNat * y.toNat / 2 ^ 64))

/-- The product of the rule's loop: one XOR of the shifted operand for each 1 bit (R143). BREV and POPC: each bit of the result is the bit the rule names, and the count is that of the 1 bits (R144). -/
def Obligations.CarryLessAndBitResults : Prop :=
  (∀ (s : State) (d a b : BitVec 5), Readable s s.sys.fileB [a, b] →
     let p : BitVec 128 := (List.range 64).foldl (fun p i => if (s.sys.own b).getLsbD i then p ^^^ ((s.sys.own a).setWidth 128 <<< i) else p) 0
     Lands (.clmul d a b) s 3 d (p.setWidth 64) ∧ Lands (.clmulh d a b) s 3 d ((p >>> 64).setWidth 64)) ∧
  (∀ (s : State) (d a : BitVec 5), Readable s s.sys.fileB [a] →
     let x := s.sys.own a
     (∃ v, Lands (.brev d a 0) s 1 d v ∧ ∀ i, i < 64 → v.getLsbD i = x.getLsbD (63 - i)) ∧
     (∃ v, Lands (.brev d a 1) s 1 d v ∧ ∀ i, i < 64 → v.getLsbD i = (decide (i < 32) && x.getLsbD (31 - i))) ∧
     (∃ v, Lands (.brev d a 2) s 1 d v ∧ ∀ j i, j < 8 → i < 8 → v.getLsbD (8 * j + i) = x.getLsbD (8 * j + 7 - i)) ∧
     (∃ v, Lands (.popc d a) s 1 d v ∧ v.toNat = ((List.range 64).filter fun i => x.getLsbD i).length))

/-- MOV and MOVX (R145): MOV copies within the slot's file at issue + 1; MOVX copies from the other file at issue + 2, its source read at issue (R38). Their words, with `rb` and `fn` reserved, decode as the rule gives. -/
def Obligations.MoveResults : Prop :=
  (decodeSlot .scalar 0x30104000 = .ok (.mov 2 1) ∧ decodeSlot .scalar 0x3129C000 = .ok (.movx 5 7) ∧
    ∀ (d a : BitVec 5) (rest : BitVec 14),
      decodeSlot .scalar (0x30#8 ++ d ++ a ++ rest) = (if rest = 0 then .ok (.mov d a) else .error .reservedField) ∧
      decodeSlot .scalar (0x31#8 ++ d ++ a ++ rest) = (if rest = 0 then .ok (.movx d a) else .error .reservedField)) ∧
  ∀ (s : State) (d a : BitVec 5),
    (Readable s s.sys.fileB [a] → Lands (.mov d a) s 1 d (s.sys.here.reg s.sys.fileB a.toNat)) ∧
    (Readable s (!s.sys.fileB) [a] → Lands (.movx d a) s 2 d (s.sys.here.reg (!s.sys.fileB) a.toNat))

/-- LIMM writes one quarter at issue + 1 and no other bit, and the move to a staging register copies ra of the slot's own file there at issue + 1, but for the reserved bits, which stay zero (R5, R109, R146, R147). -/
def Obligations.ImmediateAndStagingMoves : Prop :=
  ∀ (s : State) (d a : BitVec 5) (q : BitVec 2) (imm : BitVec 16) (n : BitVec 6),
    let given : Word := match n.toNat with
      | 0x00 => 0xFFFFFFFF01FF0FF0 | 0x01 => 0xFF33 | 0x08 => 0x0000FFFF00FF7FFF | 0x0A => 0x037F03FF | 0x0B => 0x37F | 0x0C => 0x00007FFF0FFFFFFF
      | 0x14 => 0x3F7F | 0x1C => 0x1FFF | 0x20 => 0xFFFFFFFF | 0x21 => 0xFFFFFFFF | _ => allOnes
    (∃ mask v : Word, Makes (.limm d q imm) s [Due s 1 0 (.scalar s.sys.fileB (s.sys.here.phys s.sys.fileB d.toNat) mask v)] ∧
      ∀ i, i < 64 → mask.getLsbD i = decide (i / 16 = q.toNat) ∧ (i / 16 = q.toNat → v.getLsbD i = imm.getLsbD (i % 16))) ∧
    (Readable s s.sys.fileB [a] → Makes (.movStaging a n) s [Due s 1 0 (.staging n.toNat (s.sys.own a &&& given))]) ∧
    (n.toNat < 0x28 → decodeSlot .scalar (0x33#8 ++ 0#5 ++ a ++ 0#8 ++ n) = .ok (.movStaging a n)) ∧
    (0x28 ≤ n.toNat → decodeSlot .scalar (0x33#8 ++ 0#5 ++ a ++ 0#8 ++ n) = .error .reservedValue)

/-- What a scalar result changes when it lands: the masked bits of its physical register and nothing else, whatever ROTB holds by then (R25, R36). -/
def Obligations.ScalarResultLands : Prop :=
  ∀ (s : Sys) (e : Ev) (b : Bool) (n : Nat) (m v : Word), e.act = .scalar b n m v → e.ctx < 4 → n < 32 →
    let t := (s.landAct e).1
    (s.landAct e).2 = [] ∧ (t.ctx e.core e.ctx).regs.scalar b n = ((s.ctx e.core e.ctx).regs.scalar b n &&& ~~~m) ||| (v &&& m) ∧
    (∀ b' n', b' ≠ b ∨ n' ≠ n → (t.ctx e.core e.ctx).regs.scalar b' n' = (s.ctx e.core e.ctx).regs.scalar b' n') ∧
    (∀ g x, g ≠ e.core ∨ x ≠ e.ctx → t.ctx g x = s.ctx g x) ∧ t.pkg = s.pkg ∧ t.agenda = s.agenda ∧
    { (t.ctx e.core e.ctx) with regs := (s.ctx e.core e.ctx).regs } = s.ctx e.core e.ctx ∧
    (t.ctx e.core e.ctx).regs.flags = (s.ctx e.core e.ctx).regs.flags ∧ (t.ctx e.core e.ctx).regs.ptr = (s.ctx e.core e.ctx).regs.ptr

/-- LD and ST: the address is ra[27:0] plus the signed immediate, modulo 2^28; a local load reads at issue + 2 for its landing at issue + 4, a remote one reads at its owner at issue + 3 and travels back on its lane; a local store performs at issue + 2, a remote one sets out at issue + 1 over its hops. A misaligned address, or a remote one beyond 64 hops, breaks the limit and stores nothing (R51, R52, R53, R148). -/
def Obligations.ScratchpadAccess : Prop :=
  ∀ (s : State) (d a : BitVec 5) (imm : BitVec 14),
    let y := s.sys
    let g := y.cur.core
    let ea : Nat := ((y.own a).setWidth 28 + BitVec.ofInt 28 imm.toInt : BitVec 28).toNat
    let lane : Nat := (y.own a).toNat / 2 ^ 28 % 16
    let part : Nat := ea / 2 ^ 21 % 128
    let owner : Nat := 128 * (g / 128) + part
    let off : Nat := ea % 2 ^ 21
    let far : Nat := if lane < 8 then (part + 128 - g % 128) % 128 else (g % 128 + 128 - part) % 128
    let legal : Prop := ea % 8 = 0 ∧ (part = g % 128 ∨ far ≤ 64)
    let r := y.here.phys y.fileB d.toNat
    (Readable s y.fileB [a] → legal → owner = g → Makes (.ld d a imm) s [Due s 2 1 (.load g off y.fileB r 2 y.cur.grp)]) ∧
    (Readable s y.fileB [a] → legal → owner ≠ g → Makes (.ld d a imm) s [Due s 3 1 (.load owner off y.fileB r (lane + 100) y.cur.grp)]) ∧
    (Readable s y.fileB [d, a] → legal → owner = g → Makes (.st d a imm) s [Due s 2 2 (.store g off y.cur.slot (leBytes 8 (y.own d).toNat))]) ∧
    (Readable s y.fileB [d, a] → legal → owner ≠ g → Runs (.st d a imm) s fun y => { y with flits := y.flits ++
      [{ pav := g / 128, lane := lane, place := g % 128, hops := far, due := y.t + 1, entry := y.wcyc + 1, origin := g % 128, core := g, ctx := y.cur.ctx,
         ord := y.cur.ord, grp := y.cur.grp, slot := y.cur.slot, phase := 2, act := .store owner off (32 + lane) (leBytes 8 (y.own d).toNat) }] }) ∧
    (Readable s y.fileB [a] → ¬ legal → BreaksLimit (.ld d a imm) s 3 1 (BitVec.ofNat 64 ea)) ∧
    (Readable s y.fileB [d, a] → ¬ legal → BreaksLimit (.st d a imm) s 3 1 (BitVec.ofNat 64 ea))

/-- FADD, FMUL, FMA, FCMP and FCVT: the value and the flags of the slot land together, 4 cycles after the issue or 6 inside an interlocked level. The rounding mode is the instruction's own or FPCR's, a mode of 5 to 7 is an operand range fault. The exact value is rounded once, FMA's product and sum together (R23, R36, R139, R149 to R152). The arithmetic on what the operands denote is the model's `Val` (R60, R61, R68, R69, R71, R72). -/
def Obligations.FloatingPointResults : Prop :=
  ∀ (s : State) (d a b : BitVec 5) (o : BitVec 1) (m : BitVec 3) (n : BitVec 5),
    let y := s.sys
    let h := y.here.interlocked
    let latency : Nat := if h then 6 else 4
    let mode : Option Rm := if o = 1 then Rm.ofNat? m.toNat else some y.here.regs.rm
    let v (r : BitVec 5) : Val := FloatFmt.f32.decode h ((y.own r).toNat % 2 ^ 32)
    let lands (i : Instr) (r : Nat × Flags) : Prop := Makes i s
      [Due s latency 0 (.scalar y.fileB (y.here.phys y.fileB d.toNat) allOnes (BitVec.ofNat 64 r.1)), Due s latency 0 (.flags y.cur.slot r.2 y.cur.grp)]
    let rn (rm : Rm) (x : Val) : Nat × Flags := FloatFmt.f32.deliver rm h x
    (∀ rm, mode = some rm →
      (Readable s y.fileB [a, b] → lands (.fadd d a o m b) (rn rm ((v a).add rm (v b))) ∧ lands (.fmul d a o m b) (rn rm ((v a).mul (v b)))) ∧
      (Readable s y.fileB [a, b, d] → lands (.fma d a o m b) (rn rm (Val.fma rm (v a) (v b) (v d)))) ∧
      (Readable s y.fileB [a] → lands (.fcvt d a o m n)
        (convert (fcvtFmts n.toNat).1 (fcvtFmts n.toNat).2 rm h false ((y.own a).toNat % 2 ^ (fcvtFmts n.toNat).1.width)))) ∧
    (Readable s y.fileB [a, b] →
      let r := Elem.f32.compare (relOf n.toNat) h ((y.own a).toNat % 2 ^ 32) ((y.own b).toNat % 2 ^ 32)
      lands (.fcmp d a n b) ((if r.1 then 1 else 0) + 2 * (if r.2 then 1 else 0), if r.2 then Flags.absentConsumed else Flags.none)) ∧
    (mode = none →
      (Readable s y.fileB [a, b] → BreaksLimit (.fadd d a o m b) s 3 1 0 ∧ BreaksLimit (.fmul d a o m b) s 3 1 0) ∧
      (Readable s y.fileB [a, b, d] → BreaksLimit (.fma d a o m b) s 3 1 0) ∧ (Readable s y.fileB [a] → BreaksLimit (.fcvt d a o m n) s 3 1 0))

/-- Absent first, then NaN: any absent operand of FADD, FMUL and FMA gives the F32 absent code with absent-consumed, and without one any NaN gives the canonical NaN with non-finite-produced and, unless the product is an invalid one, no invalid (R60, R72, R73, R150). That a product of an infinity and a zero is invalid even where the addend is a NaN is the model's reading (log 22). The one rounding of an exact quotient to an integer: never a whole unit off, inexact just when it changed the value, and in each mode the neighbour the rule names: the nearer one, ties to even or away, or the one on the side of the direction (R68). -/
def Obligations.AbsentNanAndRounding : Prop :=
  (∀ (rm : Rm) (h : Bool) (x y z : Val),
     let out (v : Val) : Nat × Flags := FloatFmt.f32.deliver rm h v
     (x = .absent ∨ y = .absent → out (x.add rm y) = (0xFFC00001, .absentConsumed) ∧ out (x.mul y) = (0xFFC00001, .absentConsumed)) ∧
     (x = .absent ∨ y = .absent ∨ z = .absent → out (Val.fma rm x y z) = (0xFFC00001, .absentConsumed)) ∧
     (x ≠ .absent → y ≠ .absent → x = .nan ∨ y = .nan → x ≠ .invalid → y ≠ .invalid →
       out (x.add rm y) = (0x7FC00000, .nonFinite) ∧ out (x.mul y) = (0x7FC00000, .nonFinite)) ∧
     (x ≠ .absent → y ≠ .absent → z ≠ .absent → x = .nan ∨ y = .nan ∨ z = .nan → x ≠ .invalid → y ≠ .invalid → z ≠ .invalid → x.mul y ≠ .invalid →
       out (Val.fma rm x y z) = (0x7FC00000, .nonFinite)) ∧
     (∀ neg num den e, num = 0 → (Val.inf neg).mul (.fin false num den e) = .invalid ∧ (Val.fin false num den e).mul (.inf neg) = .invalid) ∧
     (z ≠ .absent → x.mul y = .invalid → out (Val.fma rm x y z) = (0x7FC00000, .invalid ||| .nonFinite))) ∧
  (∀ (rm : Rm) (neg : Bool) (num den : Nat), 0 < den →
     let q := (roundNat rm neg num den).1
     let down := num / den
     (num % den = 0 → roundNat rm neg num den = (down, false)) ∧
     (num % den ≠ 0 → (roundNat rm neg num den).2 = true ∧ (q = down ∨ q = down + 1) ∧
       (rm = .rtz → q = down) ∧ (rm = .rup → q = if neg then down else down + 1) ∧ (rm = .rdn → q = if neg then down + 1 else down) ∧
       (rm = .rne ∨ rm = .rna → (2 * (num % den) < den → q = down) ∧ (den < 2 * (num % den) → q = down + 1)) ∧
       (rm = .rne → 2 * (num % den) = den → q % 2 = 0) ∧ (rm = .rna → 2 * (num % den) = den → q = down + 1)))

/-- Inside an interlocked level a group that reads a register whose result has not landed holds; every scalar, address and control instruction named here that reads a scalar register holds so (R23, R118). -/
def Obligations.InterlockHolds : Prop :=
  ∀ (s : State) (a b d : BitVec 5) (imm : BitVec 14) (n : BitVec 6) (p : BitVec 5) (disp : BitVec 21),
    s.sys.here.interlocked = true → 
    (s.sys.pendingScalar s.sys.fileB (s.sys.here.phys s.sys.fileB a.toNat) = true →
      Holds (.add d a b) s false ∧ Holds (.mul d a b) s false ∧ Holds (.mov d a) s false ∧ Holds (.ld d a imm) s false ∧ Holds (.st d a imm) s false ∧
      Holds (.fadd d a 0 0 b) s false ∧ Holds (.movStaging a n) s false) ∧
    (s.sys.pendingScalar false (s.sys.here.phys false a.toNat) = true →
      Holds (.bz a disp) s false ∧ Holds (.jr a disp) s false ∧ Holds (.pset p a) s false)

/-! ## The address slot, pointers and ports -/

/-- PADV (R154): its word, the advance of n steps at once, within the wrap window when there is one, and the operand range fault of an n of 0. With a wrap window the address must lie in it, and a P pointer's window in one core's 2 MiB (R44). -/
def Obligations.PointerAdvance : Prop :=
  (decodeSlot .address 0x12000004 = .ok (.padv 16 4) ∧
    ∀ (p : BitVec 5) (a : BitVec 5) (n : BitVec 16),
      decodeSlot .address (0x04#6 ++ p ++ a ++ n) = (if a = 0 then .ok (.padv p n) else .error .reservedField)) ∧
  ∀ (s : State) (p : BitVec 5) (n : BitVec 16),
    let x := s.sys.here.pointer p.toNat
    let m : Nat := if p.toNat < 16 then 2 ^ 28 else s.sys.here.pointerSpan p.toNat
    let inWindow : Prop := x.wbase.toNat ≤ x.addr.toNat ∧ x.addr.toNat < x.wbase.toNat + x.wrap.toNat ∧
      (16 ≤ p.toNat ∨ x.wbase.toNat / 2 ^ 21 = (x.wbase.toNat + x.wrap.toNat - 1) / 2 ^ 21)
    let sets (addr : Int) (k : Ctx) : Ctx := { k with regs := { k.regs with ptr := vset k.regs.ptr p.toNat { x with addr := BitVec.ofInt 28 addr } } }
    (n ≠ 0 → x.wrap = 0 → Changes (.padv p n) s (sets (((x.addr.toNat : Int) + n.toNat * x.step.toInt) % m))) ∧
    (n ≠ 0 → x.wrap ≠ 0 → inWindow → Changes (.padv p n) s
      (sets (x.wbase.toNat + ((x.addr.toNat : Int) - x.wbase.toNat + n.toNat * x.step.toInt) % x.wrap.toNat))) ∧
    (n = 0 → BreaksLimit (.padv p n) s 3 1 0) ∧
    (x.wrap ≠ 0 → ¬ inWindow → BreaksLimit (.padv p n) s 3 1 0)

/-- PSET, PSTEP and PWIN land their field of the pointer at issue + 1, from the bits the rule names, and change nothing else; PSTEP and PWIN leave the pointer's address as the cycle found it (R44); a value outside its limit is an operand range fault: `step` in 24 signed bits, `mod` at most 2 MiB, and for an engine pointer (codes 16 up) `addr`, `wbase` and the wrap window within the context's window (R43, R153). SPCFG and SPRST write their port at issue + 1; a base or stride that is not a multiple of 64 is an operand range fault. When the write lands, reserved bits are dropped and `pos` goes to 0 (R45, R155). -/
def Obligations.PointerAndPortWrites : Prop :=
  (∀ (s : State) (p a : BitVec 5),
     let k := s.sys.here
     let v := s.sys.regA a
     let span := k.pointerSpan p.toNat
     let inside (n : Nat) : Prop := p.toNat < 16 ∨ n < span
     let addr := v.toNat % 2 ^ 28
     let mod := v.toNat / 2 ^ 28 % 2 ^ 22
     let stands : Prop := inside (k.pointer p.toNat).addr.toNat
     let stepOk : Prop := -8388608 ≤ v.toInt ∧ v.toInt ≤ 8388607 ∧ stands
     let winOk : Prop := mod ≤ 2 ^ 21 ∧ (p.toNat < 16 ∨ (addr < span ∧ addr + mod ≤ span)) ∧ stands
     Readable s false [a] →
       (inside addr → Makes (.pset p a) s [Due s 1 0 (.ptrAddr p.toNat (BitVec.ofNat 28 addr))]) ∧
       (¬ inside addr → BreaksLimit (.pset p a) s 3 1 0) ∧
       (stepOk → Makes (.pstep p a) s [AddressStays s p.toNat, Due s 1 0 (.ptrStep p.toNat (BitVec.ofInt 24 v.toInt))]) ∧
       (¬ stepOk → BreaksLimit (.pstep p a) s 3 1 0) ∧
       (winOk → Makes (.pwin p a) s [AddressStays s p.toNat, Due s 1 0 (.ptrWrap p.toNat (BitVec.ofNat 28 addr) (BitVec.ofNat 22 mod))]) ∧
       (¬ winOk → BreaksLimit (.pwin p a) s 3 1 0)) ∧
  (∀ (s : State) (p : BitVec 4) (a : BitVec 5) (r : BitVec 2),
     let v := s.sys.regA a
     let aligned : Prop := v.toNat % 64 = 0 ∧ (r = 1 → v.toNat / 2 ^ 24 % 64 = 0)
     (Readable s false [a] → aligned → Makes (.spcfg p a r) s [Due s 1 0 (.port p.toNat r.toNat v)]) ∧
     (Readable s false [a] → ¬ aligned → BreaksLimit (.spcfg p a r) s 3 1 0) ∧
     Makes (.sprst p) s [Due s 1 0 (.port p.toNat 3 0)] ∧
     ∀ (y : Sys) (e : Ev) (q : Nat), e.act = .port p.toNat q v → e.ctx < 4 →
       let old := vget (y.ctx e.core e.ctx).regs.port p.toNat
       vget ((y.landAct e).1.ctx e.core e.ctx).regs.port p.toNat =
         match q with
         | 0 => { old with a := v &&& 0xFFFFFFFF001FFFFF, pos := 0 }
         | 1 => { old with b := v, pos := 0 }
         | 2 => { old with c := v &&& 0xFFFFFF, pos := 0 }
         | _ => { old with pos := 0 })

/-- The walk of a stream port and a pop (R46): the address of walk position p, the sixteen positions of a pop each modulo L, the limits of the addresses it reaches, and the position after it. -/
def Obligations.PortWalk : Prop :=
  ∀ (s : Sys) (n : Nat), n < 16 → s.cur.ctx < 4 →
    let q := vget s.here.regs.port n
    let field (w : Word) (lo len : Nat) : Nat := w.toNat / 2 ^ lo % 2 ^ len
    let signed (x : Nat) : Int := if x < 2 ^ 23 then x else (x : Int) - 2 ^ 24
    let count0 := field q.a 32 16
    let count1 := field q.a 48 16
    let count2 := field q.b 48 16
    let l := count0 * count1 * count2
    let addr (p : Nat) : Int :=
      (field q.a 0 21 : Int) + (p % count0 : Nat) * signed (field q.b 0 24) + (p / count0 % count1 : Nat) * signed (field q.b 24 24) +
        (p / (count0 * count1) : Nat) * signed (field q.c 0 24)
    (∀ p, q.walk p = addr p) ∧
    (∀ j, j < 16 → q.popAddrs[j]? = some (addr ((q.pos + j) % l))) ∧
    (q.popOk = true ↔ (count0 ≠ 0 ∧ count1 ≠ 0 ∧ count2 ≠ 0) ∧ ∀ j, j < 16 → 0 ≤ addr ((q.pos + j) % l) ∧ addr ((q.pos + j) % l) ≤ 2 ^ 21 - 64) ∧
    vget (s.pop n).here.regs.port n = { q with pos := (q.pos + 16) % l } ∧
    (∀ m, m ≠ n → vget (s.pop n).here.regs.port m = vget s.here.regs.port m)

/-- XLAT clears XAn at issue + 1 and sends its probe, whose result is due within 640 cycles of the issue; a later probe of the same register replaces the earlier. XCLR clears XAn at issue + 1 and forgets the probe. When a result is due it lands in XAn with `done` set and bits [54:0] zero, raises no fault and changes nothing else but the owner's translations; where the context's ticks have stood still and XAn has yet to be cleared, it waits a cycle (R156, R157). The time of the probe within that bound is a free value (log 3). That it is two cycles at the least, and that a result waits a cycle there, are the model's choice (log 35). -/
def Obligations.TranslationProbe : Prop :=
  ∀ (s : State) (x : BitVec 2) (a : BitVec 5),
    let y := s.sys
    (Readable s false [a] → ∃ due, y.wcyc + 2 ≤ due ∧ due ≤ y.wcyc + 640 ∧ Runs (.xlat x a) s fun y =>
      { { y with taken := y.taken + 1, agenda := y.agenda ++ [Due s 1 0 (.xaClear x.toNat)] }.modHere fun k =>
          { k with probe := vset k.probe x.toNat (some y.cur.ord), probeVa := vset k.probeVa x.toNat (y.regA a), probeDue := vset k.probeDue x.toNat due } with
        inbox := y.inbox ++ [(due, .xlatResult y.cur.core (Fin.ofNat 4 y.cur.ctx) x)] }) ∧
    Runs (.xclr x) s (fun y => { y with agenda := y.agenda ++ [Due s 1 0 (.xaClear x.toNat)] }.modHere fun k => { k with probe := vset k.probe x.toNat none }) ∧
    ∀ (g : Nat) (c : Fin 4), g < 1024 →
      let k := y.ctx g c
      let clears : Prop := ∃ e ∈ y.agenda, e.core = g ∧ e.ctx = c.val ∧ e.act = .xaClear x.toNat
      ((vget k.probe x.toNat).isSome → vget k.probeDue x.toNat ≤ y.wcyc → clears →
        Becomes (.xlatResult g c x) s fun y => { y with inbox := y.inbox ++ [(y.wcyc + 1, .xlatResult g c x)] }) ∧
      ((vget k.probe x.toNat).isSome → vget k.probeDue x.toNat ≤ y.wcyc → ¬ clears → ∃ (v : Word) (owners : Vector Owner 5),
        v.getLsbD 63 = true ∧ v.toNat % 2 ^ 55 = 0 ∧
        exec (.xlatResult g c x) s = .next { s with sys := { y with pkg := { y.pkg with owners := owners } }.modCtx g c fun k =>
          { k with probe := vset k.probe x.toNat none, regs := { k.regs with xa := vset k.regs.xa x.toNat v } } }) ∧
      ((vget k.probe x.toNat = none ∨ y.wcyc < vget k.probeDue x.toNat) → exec (.xlatResult g c x) s = .next s)

/-! ## The lane groups -/

/-- Every lane-group word (each of the instructions of the lane-group table) starts in each lane group the bundle gives it when they are free, its operands are ready and its limits are met. Each group holds the word from then on, with the issue tick, the group's address, the rounding mode of the issue cycle and the physical registers its names resolve to then (R25, R99, R100, R159, R299). A port it names is popped once by each lane group, in slot order (R46, R47), and an open restart region may take a shadow of a register the word writes (R328). Nothing else changes: no other lane group, register, flag or context, nothing lands yet, and no memory is written. A lane group that is busy: in shared mode the issue group holds until it is free, in timed mode it is a timing fault (R159). -/
def Obligations.LaneGroupWordsStart : Prop :=
  (∀ (i : Instr) (s : State), i.kind = some .vector →
     ∃ v, vwordOf i = some v ∧
       let y := s.sys
       let k := y.here
       let lgs := y.cur.lanes
       let c := y.hereCore
       let popped (l : List Nat) (n : Nat) : Port := l.foldl (fun p _ => { p with pos := (p.pos + 16) % p.length }) (vget k.regs.port n)
       let pops (lg : Nat) (n : Option (BitVec 6)) (port : Bool) : Option (List Nat) := match n with
         | some n => if port then some ((popped (lgs.takeWhile fun l => l != lg) (n.toNat % 16)).popAddrs.map Int.toNat) else none
         | none => none
       (y.cur.ctx < 4 → lgs.Nodup → (∀ lg ∈ lgs, lg < 8 ∧ y.laneBusy lg = false ∧ y.vectorInterlock v lg = false) → vectorFaults v y lgs = [] →
         ∃ t, exec i s = .next t ∧ t.mem = s.mem ∧ t.sys.cur = { y.cur with verdict := .ran } ∧ { t.sys with cores := y.cores, cur := y.cur } = y ∧
           (∀ lg ∈ lgs, ∃ w, vget t.sys.hereCore.lane lg = some w ∧ w.instr = i ∧ w.ctx = y.cur.ctx ∧ w.issued = y.t ∧ w.grp = y.cur.grp ∧
             w.slot = 10 + lg ∧ w.rm = k.regs.rm ∧ w.honour = k.interlocked ∧ w.extra = (if k.interlocked then 2 else 0) ∧ w.reads = [] ∧ w.spoiled = [] ∧
             (∀ n, v.dst = some n → w.vd = k.physVec n.toNat ∧ w.vd1 = k.physVec (n.toNat + 1)) ∧ (∀ n, v.a = some n → w.va = k.physVec n.toNat) ∧
             (∀ n, v.b = some n → w.vb = k.physVec n.toNat) ∧ w.srcGroup = v.sourceGroup lg ∧ w.popA = pops lg v.a v.portA ∧ w.popB = pops lg v.b v.portB) ∧
           (∀ lg, lg ∉ lgs → vget t.sys.hereCore.lane lg = vget c.lane lg) ∧ { t.sys.hereCore with ctxs := c.ctxs, lane := c.lane } = c ∧
           (∀ g x, g ≠ y.cur.core ∨ x ≠ y.cur.ctx → t.sys.ctx g x = y.ctx g x) ∧ (∀ g, g ≠ y.cur.core → t.sys.core g = y.core g) ∧
           { t.sys.here with regs := { t.sys.here.regs with port := k.regs.port }, region := k.region } = k ∧
           (k.region.open_ = false → t.sys.here.region = k.region) ∧
           (∀ n, vget t.sys.here.regs.port n = if n ∈ v.ports then popped lgs n else vget k.regs.port n)) ∧
       (v.ok = true → v.named k.win.vwin = true → v.ports = [] → (∀ lg ∈ lgs, y.laneBusy lg = false) → vectorFaults v y lgs = [])) ∧
  (∀ (i : Instr) (s : State) (v : VWord) (lg : Nat), i.kind = some .vector → vwordOf i = some v → s.sys.cur.lanes = [lg] →
     s.sys.laneBusy lg = true → s.sys.here.interlocked = false →
     (s.sys.here.timed = false → Holds i s false) ∧
     (s.sys.here.timed = true → v.ok = true → v.named s.sys.here.win.vwin = true → v.ports = [] → ∃ t f, exec i s = .next t ∧
       t.sys.cur.verdict = .faulted f ∧ f.cls = 5 ∧ f.code = 1 ∧ f.slot = 10 + lg ∧ f.grp = s.sys.cur.grp ∧ t.mem = s.mem))

/-- A word in flight reads its beat j at issue + j, and what that beat completes lands when its class says: class O at issue + 6 + j, S at issue + 14 + j, X at issue + 8 + j, and W at issue + 22; two cycles later inside an interlocked level. After beat 15 the lane group is free (R23, R159, R160, R161). A beat that reads a poisoned word of the vector file lands nothing: the context is told of class 11, code 1, with the lane group's slot and number (R9, R341). That FAR is then 0, for the vector file has no address, is the model's reading (log 43). -/
def Obligations.BeatsReadAndLand : Prop :=
  ∀ (s : Sys) (q : List Waiting) (m : Memory) (g lg : Nat) (w : InFlight) (v : VWord),
    let j := w.reads.length
    let now := s.now g w.ctx
    let base : Nat := match v.cls with | .o => 6 | .s => 14 | .x => 8 | .w => 7
    vwordOf w.instr = some v → w.popA = none → w.popB = none → w.spoiled = [] → s.pkg.pw.stall = false →
    ((s.ctx g w.ctx).timed = true → s.stalled = false) → now = w.issued + j → j < 16 →
    let w' : InFlight := { w with reads := w.reads ++ [w.read v m g lg (vget (s.ctx g w.ctx).regs.lane lg) j] }
    (s.poison = [] ∨ w.meets v s g lg j = false → s.laneTick q m g lg w = (if j = 15 then none else some w',
      { s with agenda := s.agenda ++ (w'.landings v lg (v.beat w.rm w.honour w'.reads)).map fun a =>
        { core := g, ctx := w.ctx, due := w.issued + j + base + w.extra, phase := 0, ord := w.ord, act := a } })) ∧
    (s.poison ≠ [] → w.meets v s g lg j = true →
      let told := s.deferFault g w.ctx { cls := 11, code := 1, slot := w.slot, grp := w.grp, lg := some lg }
      let read := w.read v m g lg (vget (told.ctx g w.ctx).regs.lane lg) j
      s.laneTick q m g lg w = (if j = 15 then none else some { w with reads := w.reads ++ [read], spoiled := [j] }, told))

/-- One beat of 32-bit arithmetic. VADD, VSUB, VMUL, VMAX and VMIN on S32 and N32 are exact and then clamped to the present range with overflow, absent in gives absent out with absent-consumed (R62, R168); VADD, VMUL and VFMA on F32 round their exact result once (R164). -/
def Obligations.ArithmeticBeats : Prop :=
  ∀ (k : BitVec 3) (d a b : BitVec 6) (p q : BitVec 1) (rm : Rm) (h : Bool) (r : BeatRead) (l : Nat), l < 16 → r.k = BitVec.allOnes 16 →
    let x := r.a.getD l 0
    let y := r.b.getD l 0
    let z := r.d.getD l 0
    let out (i : Instr) : Option W32 := match vwordOf i with
      | some v => ((v.beat rm h [r]).words.headD (0, [])).2.getD l none
      | none => none
    let clamp (lo hi v : Int) : W32 := BitVec.ofInt 32 (if v < lo then lo else if hi < v then hi else v)
    let s32 (v : Int) : Option W32 := some (if x = 0x80000000 ∨ y = 0x80000000 then 0x80000000 else clamp (-2147483647) 2147483647 v)
    let n32 (v : Int) : Option W32 := some (if x = 0xFFFFFFFF ∨ y = 0xFFFFFFFF then 0xFFFFFFFF else clamp 0 4294967294 v)
    let f32 (v : Val) : Option W32 := some (BitVec.ofNat 32 (FloatFmt.f32.deliver rm h v).1)
    let val (v : W32) : Val := FloatFmt.f32.decode h v.toNat
    (out (.vaddS k d a b p q 2) = s32 (x.toInt + y.toInt) ∧ out (.vsubS k d a b p q 2) = s32 (x.toInt - y.toInt) ∧
      out (.vmulS k d a b p q 2) = s32 (x.toInt * y.toInt) ∧ out (.vmaxS k d a b p q 2) = s32 (max x.toInt y.toInt) ∧
      out (.vminS k d a b p q 2) = s32 (min x.toInt y.toInt)) ∧
    (out (.vaddN k d a b p q 2) = n32 (x.toNat + y.toNat) ∧ out (.vsubN k d a b p q 2) = n32 (x.toNat - y.toNat) ∧
      out (.vmulN k d a b p q 2) = n32 (x.toNat * y.toNat) ∧ out (.vmaxN k d a b p q 2) = n32 (max x.toNat y.toNat) ∧
      out (.vminN k d a b p q 2) = n32 (min x.toNat y.toNat)) ∧
    (out (.vaddF k d a b p q 0) = f32 ((val x).add rm (val y)) ∧ out (.vmulF k d a b p q 0) = f32 ((val x).mul (val y)) ∧
      out (.vfmaF k d a b p q 0) = f32 (Val.fma rm (val x) (val y) (val z)))

/-- What one beat of the raw words writes: every written lane gets the bits the rule names, and a lane whose governing bit is 0 is not written; VSEL writes every lane (R161, R169, R177, R179). The predicate instructions: a position whose absent mask is set never reads as true, and the absent masks join (R166, R178). K0 reads as all ones and KA0 as all zeros, and a write of either is discarded (R42). -/
def Obligations.RawAndPredicateBeats : Prop :=
  (∀ (k : BitVec 3) (d a b : BitVec 6) (p q : BitVec 1) (f : BitVec 2) (n : BitVec 4) (rm : Rm) (h : Bool) (r : BeatRead) (l : Nat), l < 16 → f ≠ 3 →
     let x := r.a.getD l 0
     let y := r.b.getD l 0
     let on := r.k.getLsbD l
     let out (i : Instr) : Option W32 := match vwordOf i with
       | some v => ((v.beat rm h [r]).words.headD (0, [])).2.getD l none
       | none => none
     let put (v : W32) : Option W32 := if on then some v else none
     out (.vand k d a b p q f) = put (x &&& y) ∧ out (.vor k d a b p q f) = put (x ||| y) ∧ out (.vxor k d a b p q f) = put (x ^^^ y) ∧
     out (.vnot k d a p f) = put (~~~x) ∧ out (.vmov k d a p f) = put x ∧ out (.vsel k d a b p q) = some (if on then x else y) ∧
     out (.vperm k d a b p q) = put (r.a.getD (y.toNat % 16) 0) ∧ out (.vbcast k d a n p) = put (r.a.getD n.toNat 0) ∧
     out (.vrotl k d a n p) = put (r.a.getD ((l + n.toNat) % 16) 0) ∧
     out (.vrotlSh k d a n p) = put (if l + n.toNat ≤ 15 then r.a.getD (l + n.toNat) 0 else 0) ∧
     out (.vmovFromCn k d) = put r.cn) ∧
  (∀ (k d a b : BitVec 3) (rm : Rm) (h : Bool) (r : BeatRead),
     let out (i : Instr) : List (Nat × BitVec 16 × BitVec 16 × BitVec 16) := match vwordOf i with
       | some v => (v.beat rm h [r]).preds
       | none => []
     let m := r.kaa ||| r.kab
     out (.kand k d a b) = [(0, (r.ka &&& r.kb) &&& ~~~m, m, r.k)] ∧ out (.kor k d a b) = [(0, (r.ka ||| r.kb) &&& ~~~m, m, r.k)] ∧
     out (.kxor k d a b) = [(0, (r.ka ^^^ r.kb) &&& ~~~m, m, r.k)] ∧ out (.knot k d a) = [(0, ~~~r.ka &&& ~~~r.kaa, r.kaa, r.k)] ∧
     out (.kmov k d a) = [(0, r.ka, r.kaa, r.k)] ∧
     ∀ (s : Sys) (e : Ev) (g n beat : Nat) (v ab en : BitVec 16), e.act = .pred g n beat v ab en → e.ctx < 4 → g < 8 → n < 8 → beat < 16 →
       let before := vget (s.ctx e.core e.ctx).regs.lane g
       let after := vget ((s.landAct e).1.ctx e.core e.ctx).regs.lane g
       (∀ j, before.kBeat 0 j = BitVec.allOnes 16 ∧ before.kaBeat 0 j = 0) ∧ (n = 0 → (s.landAct e).1 = s) ∧
       (n ≠ 0 → after.kBeat n beat = (before.kBeat n beat &&& ~~~en) ||| (v &&& en) ∧ after.kaBeat n beat = (before.kaBeat n beat &&& ~~~en) ||| (ab &&& en) ∧
         (∀ j, j < 16 → j ≠ beat → after.kBeat n j = before.kBeat n j ∧ after.kaBeat n j = before.kaBeat n j) ∧
         (∀ n', n' ≠ n → ∀ j, after.kBeat n' j = before.kBeat n' j ∧ after.kaBeat n' j = before.kaBeat n' j)))

/-! ## The engine slots -/

namespace Sys2Proof.Machine

/-- The engine's queue has room for a command of the context (R187). -/
def Room (s : State) (e : Engine) : Prop :=
  let c := s.sys.hereCore
  match e with
  | .tm => (c.cmds.filter fun m => m.eng == .tm).length < 16
  | .cp => (c.cmds.filter fun m => m.eng == .cp).length < 64 ∧ c.frozenCopy = false
  | .load => True
  | e => (c.cmds.filter fun m => m.eng == e && m.ctx == s.sys.cur.ctx && !m.started).length < 8

/-- In timed mode, the engine is free at the command's start (R187). -/
def FreeAt (s : State) (e : Engine) (delay : Nat) : Prop :=
  s.sys.here.timed = true → vget s.sys.hereCore.free e.index ≤ s.sys.t + delay

/-- From `s` to `t` the slot has dispatched its command: one command joins the core's, with what R108, R109, R187 and R188 read at dispatch, its start, the tiles it reads and the tiles it writes; the context's registers become `f` of what they were, and `es` becomes due. Nothing else of the context changes but what an open region counts and shadows; the other contexts, the lane groups, the package and all memory stay. -/
def Dispatched (i : Instr) (s t : State) (e : Engine) (delay : Nat) (ptrs reads writes : List Nat) (f : Regs → Regs) (es : List Ev) : Prop :=
  let y := s.sys
  let k := y.here
  t.sys.cur.verdict = .ran ∧ t.mem = s.mem ∧ t.sys.pkg = y.pkg ∧ t.sys.agenda = y.agenda ++ es ∧
  (∃ c q, t.sys.hereCore.cmds = q ++ [c] ∧ (q.filter fun m => m.id != c.id) = (y.hereCore.cmds.filter fun m => m.id != c.id) ∧
    c.id = y.cur.ord ∧ c.ctx = y.cur.ctx ∧ c.eng = e ∧ c.instr = i ∧ c.word = y.cur.word ∧ c.start = y.t + delay ∧ c.started = (e == .load) ∧
    c.stg = (List.range e.staging.2).map (fun j => vget k.regs.staging (e.staging.1 + j)) ∧ c.ptrs = ptrs ∧ c.reads = reads ∧ c.writes = writes ∧
    c.rm = k.regs.rm ∧ c.honour = k.interlocked ∧ c.grp = y.cur.grp) ∧
  t.sys.here.regs = f k.regs ∧ { t.sys.here with regs := k.regs, region := k.region } = k ∧ (k.region.open_ = false → t.sys.here.region = k.region) ∧
  t.sys.hereCore.lane = y.hereCore.lane ∧ t.sys.hereCore.aow = y.hereCore.aow ∧
  ∀ g x, g ≠ y.cur.core ∨ x ≠ y.cur.ctx → t.sys.ctx g x = y.ctx g x

/-- The pointers of the list advance once each, in order (R44). -/
def advanced (k : Ctx) (codes : List Nat) (r : Regs) : Regs :=
  codes.foldl (fun r p => { r with ptr := vset r.ptr p { (vget r.ptr p) with addr := (vget r.ptr p).advance (k.pointerSpan p) 1 } }) r

end Sys2Proof.Machine

/-- Tile memory: each of its twelve forms, TLD, TST, LDW, STW and the atomics ADD, MIN, MAX, AND, OR, XOR, SWAP and CAS, completes, its command dispatched to start `delay` ticks later, when its queue and engine have room and its TS registers are in range. TLD writes its tile, TST reads it; the word accesses name no tile. A breach is an operand range fault; its address is the first that breaks its own limit, else 0 (R187 to R190, R192 to R194, R322). The copy engine: each of its six forms completes, its command dispatched, when its queue has room and its YS registers are in range; CPYR writes its tile and CPYST reads it. A breach is an operand range fault with the address concerned (R187, R189, R196, R197, R322). That `tc` is judged whatever `cinc` says is the model's reading (log 36). -/
def Obligations.TileMemoryAndCopyDispatch : Prop :=
  (∀ (s : State) (c w : BitVec 1) (e : BitVec 8) (t : BitVec 16),
     let y := s.sys
     let k := y.here
     let st (j : Nat) : Word := vget k.regs.staging (16 + j)
     let tile := fld (st 2) 0 4
     let rows := fld (st 2) 32 9
     let pad := fld (st 1) 0 28
     let order : Prop := fld (st 4) 11 3 < 6 ∧ fld (st 4) 0 6 < k.win.tcount
     let vaOk : Prop := (st 0).toNat % (if w = 1 then 8 else 4) = 0
     let padOk : Prop := pad % 8 = 0 ∧ pad / 2 ^ 21 % 128 = y.cur.core % 128
     let rowsOk : Prop := fld (st 0) 0 6 = 0 ∧ fld (st 1) 0 6 = 0 ∧ 1 ≤ rows ∧ rows ≤ 256 ∧ fld (st 2) 24 8 + rows ≤ 2048 / (8 * 2 ^ fld (st 2) 20 2) ∧
       tile < k.win.vwin / 4 ∧ order
     let words : List Instr := [.ldw w t, .stw w t, .atomAdd w t, .atomMin w t, .atomMax w t, .atomAnd w t, .atomOr w t, .atomXor w t, .atomSwap w t, .atomCas w t]
     y.cur.ctx < 4 → Room s .tm → FreeAt s .tm t.toNat →
       (rowsOk → (∃ u, exec (.tld t) s = .next u ∧ Dispatched (.tld t) s u .tm t.toNat [] [] [tile] id []) ∧
         ∃ u, exec (.tst c e t) s = .next u ∧ Dispatched (.tst c e t) s u .tm t.toNat [] [tile] [] id []) ∧
       (vaOk → padOk → order → ∀ i ∈ words, ∃ u, exec i s = .next u ∧ Dispatched i s u .tm t.toNat [] [] [] id []) ∧
       (¬ rowsOk → let far := if fld (st 0) 0 6 = 0 then 0 else st 0; BreaksLimit (.tld t) s 3 1 far ∧ BreaksLimit (.tst c e t) s 3 1 far) ∧
       (∀ i ∈ words, (¬ vaOk → BreaksLimit i s 3 1 (st 0)) ∧ (vaOk → ¬ padOk → BreaksLimit i s 3 1 (BitVec.ofNat 64 pad)) ∧
         (vaOk → padOk → ¬ order → BreaksLimit i s 3 1 0))) ∧
  (∀ (s : State) (c : BitVec 1) (e : BitVec 8) (t : BitVec 16),
     let y := s.sys
     let k := y.here
     let st (j : Nat) : Word := vget k.regs.staging (24 + j)
     let n := fld (st 2) 0 32
     let count := fld (st 2) 32 32
     let tile := fld (st 2) 0 4
     let rows := fld (st 2) 32 9
     let src : Prop := fld (st 0) 0 6 = 0
     let dst : Prop := fld (st 1) 0 6 = 0
     let stack : Prop := fld (st 0) 60 4 ≤ 3
     let len : Prop := n % 64 = 0 ∧ 64 ≤ n ∧ n ≤ 2 ^ 30
     let cnt : Prop := 1 ≤ count ∧ count ≤ 65535
     let rowsOk : Prop := 1 ≤ rows ∧ rows ≤ 256 ∧ fld (st 2) 24 8 + rows ≤ 2048 / (8 * 2 ^ fld (st 2) 20 2) ∧ tile < k.win.vwin / 4
     let tc : Prop := fld (st 4) 0 6 < k.win.tcount
     let cpyOk : Prop := tc ∧ src ∧ dst ∧ len
     let cpysOk : Prop := tc ∧ src ∧ dst ∧ len ∧ cnt ∧ fld (st 3) 0 6 = 0 ∧ fld (st 3) 32 6 = 0
     let cpygOk : Prop := tc ∧ src ∧ dst ∧ len ∧ cnt ∧ stack ∧ bit (st 4) 7 = false
     let cpyrOk : Prop := tc ∧ src ∧ rowsOk ∧ fld (st 3) 0 6 = 0
     let cpystOk : Prop := tc ∧ dst ∧ rowsOk ∧ fld (st 3) 0 6 = 0
     let cpyfOk : Prop := tc ∧ dst ∧ len
     let atDst : Word := if fld (st 1) 0 6 = 0 then 0 else st 1
     let atSrc (other : Word) : Word := if fld (st 0) 0 6 = 0 then other else st 0
     y.cur.ctx < 4 → Room s .cp →
       (cpyOk → ∃ u, exec (.cpy t) s = .next u ∧ Dispatched (.cpy t) s u .cp t.toNat [] [] [] id []) ∧
       (cpysOk → ∃ u, exec (.cpys t) s = .next u ∧ Dispatched (.cpys t) s u .cp t.toNat [] [] [] id []) ∧
       (cpygOk → ∃ u, exec (.cpyg t) s = .next u ∧ Dispatched (.cpyg t) s u .cp t.toNat [] [] [] id []) ∧
       (cpyrOk → ∃ u, exec (.cpyr t) s = .next u ∧ Dispatched (.cpyr t) s u .cp t.toNat [] [] [tile] id []) ∧
       (cpystOk → ∃ u, exec (.cpyst c e t) s = .next u ∧ Dispatched (.cpyst c e t) s u .cp t.toNat [] [tile] [] id []) ∧
       (cpyfOk → ∃ u, exec (.cpyf t) s = .next u ∧ Dispatched (.cpyf t) s u .cp t.toNat [] [] [] id []) ∧
       (¬ cpyOk → BreaksLimit (.cpy t) s 3 1 (atSrc atDst)) ∧ (¬ cpysOk → BreaksLimit (.cpys t) s 3 1 (atSrc atDst)) ∧
       (¬ cpygOk → (src → stack → BreaksLimit (.cpyg t) s 3 1 atDst) ∧ (¬ (src ∧ stack) → BreaksLimit (.cpyg t) s 3 1 (st 0))) ∧
       (¬ cpyrOk → BreaksLimit (.cpyr t) s 3 1 (atSrc 0)) ∧ (¬ cpystOk → BreaksLimit (.cpyst c e t) s 3 1 atDst) ∧ (¬ cpyfOk → BreaksLimit (.cpyf t) s 3 1 atDst))

/-- The orrery: each of its ten forms, OPASS, OPASSR, ODERIVE, OAPPLY, OFREE, OLATCH, OSAVE, OREST, ODRIFT and OSCFG, completes, its command dispatched, when it has a free queue place, OS2 to OS7 are zero and its own limits are met. The four passes read `src` and write `dst`, keep the address of the scale pointer that OS1 names (R84, R109), and keep R81's limits; OLATCH keeps the address of its pointer, which advances once when its bit says so; OREST asks for a slot without a pass and a delay of at least 324, and reads block 0 two ticks after its issue (R81, R86, R187, R201 to R205). -/
def Obligations.OrreryDispatch : Prop :=
  ∀ (s : State) (c v n : BitVec 1) (e : BitVec 8) (t : BitVec 16) (b a : BitVec 2) (p m : BitVec 4),
    let y := s.sys
    let k := y.here
    let os (j : Nat) : Word := vget k.regs.staging j
    let o := os 0
    let tiles := k.win.vwin / 4
    let fmt (code : Nat) : Prop := code ≤ 4
    let widest := Nat.max (floatOf (fld o 32 5)).width (floatOf (fld o 37 5)).width
    let rows := fld o 16 9
    let rounds := fld o 45 3 + 1
    let clear : Prop := ∀ j, 2 ≤ j → j < 8 → os j = 0
    let slot := fld o 42 1
    let free : Prop := k.timed = true → y.hereCore.slotBusy y.cur.ctx slot = false
    let common : Prop := clear ∧ fmt (fld o 32 5) ∧ fmt (fld o 37 5) ∧ fld o 4 4 < tiles ∧ fld o 8 4 < tiles ∧ 1 ≤ rows ∧ rows ≤ 2048 / widest ∧ free
    let turnsOk : Prop := common ∧ (rounds = 1 ∨ fld o 37 5 = 0) ∧ ∀ j, j < rounds → fld o (48 + 2 * j) 2 < k.win.lbanks
    let sweepsOk : Prop := common ∧ rounds = 1 ∧ bit o 44 = false ∧ bit o 43 = false ∧ fld (os 1) 8 8 ≤ 120
    let scales := (k.pointer (20 + fld (os 1) 0 2)).addr.toNat
    let pass (i : Instr) (u : State) : Prop := Dispatched i s u .orr t.toNat [scales] [fld o 4 4] [fld o 8 4] id []
    let code := 16 + b.toNat
    let at_ := (k.pointer code).addr.toNat
    let pad := (k.pointer p.toNat).addr.toNat
    let padOk : Prop := pad % 64 = 0 ∧ pad / 2 ^ 21 % 128 = y.cur.core % 128 ∧ pad % 2 ^ 21 + 20480 ≤ 2 ^ 21
    y.cur.ctx < 4 → Room s .orr →
      (FreeAt s .orr t.toNat → turnsOk → (∃ u, exec (.opass c e t) s = .next u ∧ pass (.opass c e t) u) ∧ ∃ u, exec (.opassr c e t) s = .next u ∧ pass (.opassr c e t) u) ∧
      (FreeAt s .orr t.toNat → sweepsOk → (∃ u, exec (.oderive c e t) s = .next u ∧ pass (.oderive c e t) u) ∧ ∃ u, exec (.oapply c e t) s = .next u ∧ pass (.oapply c e t) u) ∧
      (FreeAt s .orr t.toNat → rows = 0 → free → BreaksLimit (.opass c e t) s 3 1 0 ∧ BreaksLimit (.opassr c e t) s 3 1 0) ∧
      (FreeAt s .orr t.toNat → clear → fmt (fld o 37 5) → fld o 8 4 < tiles → ∃ u, exec (.ofree t) s = .next u ∧ Dispatched (.ofree t) s u .orr t.toNat [] [] [fld o 8 4] id []) ∧
      (clear → a.toNat < k.win.lbanks → at_ % 64 = 0 → at_ + 2048 ≤ 2 ^ 18 → (v = 1 → (k.pointer code).usable code = true) →
        ∃ u, exec (.olatch a v b t) s = .next u ∧ Dispatched (.olatch a v b t) s u .orr t.toNat [at_] [] [] (advanced k (if v = 1 then [code] else [])) []) ∧
      (clear → padOk → ∃ u, exec (.osave n p t) s = .next u ∧ Dispatched (.osave n p t) s u .orr t.toNat [pad] [] [] id []) ∧
      (clear → padOk → 324 ≤ t.toNat → y.hereCore.slotBusy y.cur.ctx n.toNat = false →
        ∃ u, exec (.orest n p t) s = .next u ∧ Dispatched (.orest n p t) s u .orr t.toNat [pad] [] [] id [Due s 2 1 (.unitRead y.cur.ord 0)]) ∧
      (t.toNat < 324 → (padOk → BreaksLimit (.orest n p t) s 3 1 0) ∧ (¬ padOk → BreaksLimit (.orest n p t) s 3 1 (BitVec.ofNat 64 pad))) ∧
      (clear → (∃ u, exec (.odrift b m t) s = .next u ∧ Dispatched (.odrift b m t) s u .orr t.toNat [] [] [] id []) ∧
        ∃ u, exec (.oscfg b m t) s = .next u ∧ Dispatched (.oscfg b m t) s u .orr t.toNat [] [] [] id [])

/-- The dot engine: each of its forms, DOT, DOTA, DCFG, DSTAT, DDRAIN and DCLR, completes, its command dispatched, when it has a free queue place and its DS registers are in range. DOT and DOTA read their tile and keep the pointers' addresses, DDRAIN writes its tile, and DCFG and DSTAT advance their pointer once when DS4 says so (R187, R206 to R209, R322). -/
def Obligations.DotDispatch : Prop :=
  ∀ (s : State) (c : BitVec 1) (e : BitVec 8) (t : BitVec 16) (n : BitVec 2),
    let y := s.sys
    let k := y.here
    let ds (j : Nat) : Word := vget k.regs.staging (8 + j)
    let addr (code : Nat) : Nat := (k.pointer code).addr.toNat
    let d := ds 0
    let op := 24 + fld d 36 2
    let cp := 28 + fld d 38 2
    let kk := 32 * fld d 32 4
    let m := fld d 16 8 + 1
    let rowA := kk / 16 * (1 + 2 * (fld d 12 3 + 2))
    let rowsIn : Prop := addr op + m * rowA ≤ k.win.opmem
    let entriesIn : Prop := ∀ g < 8, bit d (40 + g) = true → addr cp + 128 * (m - 1) + 16 * (g + 1) ≤ k.win.accmem
    let dotOk : Prop := fld d 40 8 ≠ 0 ∧ fld d 12 3 ≤ 6 ∧ fld d 9 3 ≤ 6 ∧ 1 ≤ fld d 32 4 ∧ fld d 32 4 ≤ 8 ∧ fld d 4 5 ≤ 4 ∧
      kk ≤ 2048 / (floatOf (fld d 4 5)).width ∧ fld d 0 4 < k.win.vwin / 4 ∧ m ≤ 128 ∧ rowsIn ∧ entriesIn
    let stops (far : Word) : Prop := BreaksLimit (.dot c e t) s 3 1 far ∧ BreaksLimit (.dota c e t) s 3 1 far
    let x := ds 4
    let blocks := fld x 32 12
    let pad := fld x 0 28
    let padOk : Prop := 1 ≤ blocks ∧ blocks ≤ 2048 ∧ pad % 64 = 0 ∧ pad / 2 ^ 21 % 128 = y.cur.core % 128 ∧ pad % 2 ^ 21 + 64 * blocks ≤ 2 ^ 21
    let code4 (into : Nat) : Nat := into + fld x 44 2
    let moves (into : Nat) : List Nat := if bit x 46 then [code4 into] else []
    let usable (into : Nat) : Prop := bit x 46 = true → (k.pointer (code4 into)).usable (code4 into) = true
    let z := ds 2
    let width := if fld z 4 5 = 14 then 32 else (floatOf (fld z 4 5)).width
    let dr := 28 + fld z 24 2
    let drows := fld z 16 7 + 1
    let drainIn : Prop := addr dr + 128 * drows ≤ k.win.accmem
    let drainOk : Prop := (if n = 2 then fld z 4 5 = 14 else fld z 4 5 ≤ 4) ∧ drows ≤ (if width = 32 then 64 else 128) ∧ fld z 0 4 < k.win.vwin / 4 ∧ drainIn
    let q := 28 + fld (ds 3) 8 2
    let clrOk : Prop := addr q + 128 * (fld (ds 3) 0 7 + 1) ≤ k.win.accmem
    let far : Word := BitVec.ofNat 64 pad
    y.cur.ctx < 4 → Room s .dot → FreeAt s .dot t.toNat →
      (dotOk → (∃ u, exec (.dot c e t) s = .next u ∧ Dispatched (.dot c e t) s u .dot t.toNat [addr op, addr cp] [fld d 0 4] [] id []) ∧
        ∃ u, exec (.dota c e t) s = .next u ∧ Dispatched (.dota c e t) s u .dot t.toNat [addr op, addr cp] [fld d 0 4] [] id []) ∧
      (¬ dotOk → (¬ rowsIn → stops (BitVec.ofNat 64 (addr op))) ∧ (rowsIn → ¬ entriesIn → stops (BitVec.ofNat 64 (addr cp))) ∧ (rowsIn → entriesIn → stops 0)) ∧
      (padOk → usable 24 → addr (code4 24) + 64 * blocks ≤ k.win.opmem →
        ∃ u, exec (.dcfg 0 t) s = .next u ∧ Dispatched (.dcfg 0 t) s u .dot t.toNat [addr (code4 24)] [] [] (advanced k (moves 24)) []) ∧
      (padOk → usable 28 → addr (code4 28) + 8 * blocks ≤ k.win.accmem →
        (∃ u, exec (.dcfg 1 t) s = .next u ∧ Dispatched (.dcfg 1 t) s u .dot t.toNat [addr (code4 28)] [] [] (advanced k (moves 28)) []) ∧
        ∃ u, exec (.dstat t) s = .next u ∧ Dispatched (.dstat t) s u .dot t.toNat [addr (code4 28)] [] [] (advanced k (moves 28)) []) ∧
      (¬ padOk → BreaksLimit (.dcfg n t) s 3 1 far ∧ BreaksLimit (.dstat t) s 3 1 far) ∧
      (drainOk → ∃ u, exec (.ddrain n t) s = .next u ∧ Dispatched (.ddrain n t) s u .dot t.toNat [addr dr] [] [fld z 0 4] id []) ∧
      (drainIn → ¬ drainOk → BreaksLimit (.ddrain n t) s 3 1 0) ∧ (¬ drainIn → BreaksLimit (.ddrain n t) s 3 1 (BitVec.ofNat 64 (addr dr))) ∧
      (clrOk → ∃ u, exec (.dclr t) s = .next u ∧ Dispatched (.dclr t) s u .dot t.toNat [addr q] [] [] id []) ∧ (¬ clrOk → BreaksLimit (.dclr t) s 3 1 (BitVec.ofNat 64 (addr q)))

/-- The load slot: each of its five forms, ALD, AST, PTLD, SLD and SST, completes: a transfer starts when it issues, with the addresses of its two pointers as the pair streams of the cycle leave them (R44), which advance once each when their bits say so; its first chunk is read at issue + 2. The scratchpad side lies in the core's own scratchpad on a multiple of 4, the engine side within the window, and a breach names the side concerned; a busy slot holds the group in shared mode and is a timing fault in timed mode (R210, R211, R322). The collective slot: each of its eight forms, CINC, CSET, CRD, EPH, AOWCFG, EPHEND, TRIG and READY, completes, dispatched with ES0 to ES7 as they stand, when its limits are met. TRIG and READY take the lowest free slot of the context's trigger queue and hold the group while there is none (R55, R212, R215 to R217, R322). -/
def Obligations.TransferAndCollectiveDispatch : Prop :=
  (∀ (s : State) (d : BitVec 5) (p : BitVec 4) (a b : BitVec 1) (l : BitVec 16),
     let z : State := { s with sys := s.sys.served s.sys.cur.core s.sys.cur.ctx }
     let y := z.sys
     let k := y.here
     let addr (code : Nat) : Nat := (k.pointer code).addr.toNat
     let pad := addr p.toNat
     let eng := addr d.toNat
     let idle : Prop := vget y.hereCore.free 4 ≤ y.t
     let padOk (bytes : Nat) : Prop := pad % 4 = 0 ∧ pad / 2 ^ 21 % 128 = y.cur.core % 128 ∧ pad % 2 ^ 21 + bytes ≤ 2 ^ 21
     let engOk : Prop := eng + 4 * l.toNat ≤ k.pointerSpan d.toNat
     let legal (low bytes : Nat) : Prop := low ≤ d.toNat ∧ d.toNat < low + 4 ∧ padOk bytes ∧ engOk ∧
       (a = 1 → (k.pointer p.toNat).usable p.toNat = true) ∧ (b = 1 → (k.pointer d.toNat).usable d.toNat = true)
     let starts (i : Instr) (u : State) : Prop := Dispatched i z u .load 0 [eng, pad] [] []
       (advanced k ((if a = 1 then [p.toNat] else []) ++ (if b = 1 then [d.toNat] else []))) [Due z 2 1 (.unitRead y.cur.ord 0)]
     y.cur.ctx < 4 →
       (idle → legal 16 (4 * l.toNat) → (∃ u, exec (.ald d p a b l) s = .next u ∧ starts (.ald d p a b l) u) ∧
         ∃ u, exec (.ast d p a b l) s = .next u ∧ starts (.ast d p a b l) u) ∧
       (idle → legal 16 (2 * l.toNat) → ∃ u, exec (.ptld d p a b l) s = .next u ∧ starts (.ptld d p a b l) u) ∧
       (idle → legal 20 (4 * l.toNat) → (∃ u, exec (.sld d p a b l) s = .next u ∧ starts (.sld d p a b l) u) ∧
         ∃ u, exec (.sst d p a b l) s = .next u ∧ starts (.sst d p a b l) u) ∧
       (idle → ¬ legal 16 (4 * l.toNat) →
         (¬ padOk (4 * l.toNat) → BreaksLimit (.ald d p a b l) s 3 1 (BitVec.ofNat 64 pad) ∧ BreaksLimit (.ast d p a b l) s 3 1 (BitVec.ofNat 64 pad)) ∧
         (padOk (4 * l.toNat) → ¬ engOk → BreaksLimit (.ald d p a b l) s 3 1 (BitVec.ofNat 64 eng) ∧ BreaksLimit (.ast d p a b l) s 3 1 (BitVec.ofNat 64 eng)) ∧
         (padOk (4 * l.toNat) → engOk → BreaksLimit (.ald d p a b l) s 3 1 0 ∧ BreaksLimit (.ast d p a b l) s 3 1 0)) ∧
       (¬ idle → k.timed = false → Holds (.ald d p a b l) s false ∧ Holds (.sst d p a b l) s false) ∧
       (¬ idle → k.timed = true → legal 16 (4 * l.toNat) → BreaksLimit (.ald d p a b l) s 5 1 0)) ∧
  (∀ (s : State) (v e l : BitVec 2) (n : BitVec 6) (t : BitVec 16) (x : BitVec 5) (r : BitVec 3),
     let y := s.sys
     let k := y.here
     let es (j : Nat) : Word := vget k.regs.staging (32 + j)
     let sends (i : Instr) (u : State) : Prop := Dispatched i s u .col t.toNat [] [] [] id []
     let pad := fld (es 2) 0 28
     let own : Prop := pad / 2 ^ 21 % 128 = y.cur.core % 128
     let count := fld (es 3) 0 16
     let hdr : W32 := (es 1).setWidth 32
     let free (q : Nat) : Prop := q < k.win.tqueue ∧ vget k.regs.tq q = none ∧ ∀ p, p < q → (vget k.regs.tq p).isSome = true
     let takes (i : Instr) (q : Nat) (entry : Queued) (u : State) : Prop :=
       Dispatched i s u .col t.toNat [] [] [] (fun r => { r with tq := vset r.tq q (some { entry with armer := y.cur.ord, grp := y.cur.grp }) }) []
     let eng : Engine := trigEngine e.toNat
     y.cur.ctx < 4 → Room s .col → FreeAt s .col t.toNat →
       (n.toNat < k.win.tcount → (∃ u, exec (.cinc v n t) s = .next u ∧ sends (.cinc v n t) u) ∧ ∃ u, exec (.cset n t) s = .next u ∧ sends (.cset n t) u) ∧
       (¬ n.toNat < k.win.tcount → BreaksLimit (.cinc v n t) s 3 1 0 ∧ BreaksLimit (.cset n t) s 3 1 0) ∧
       (n.toNat < k.win.tcount → pad % 8 = 0 → own → ∃ u, exec (.crd n t) s = .next u ∧ sends (.crd n t) u) ∧
       (pad % 64 = 0 → own → 1 ≤ count → count ≤ 4096 → pad % 2 ^ 21 + 32 * count ≤ 2 ^ 21 → k.eph = none →
         ∃ u, exec (.eph t) s = .next u ∧ sends (.eph t) u) ∧
       (y.hereCore.aowOk l.toNat r.toNat (es 2) (es 3) = true → ∃ u, exec (.aowcfg l r t) s = .next u ∧ sends (.aowcfg l r t) u) ∧
       (∃ u, exec (.ephend t) s = .next u ∧ sends (.ephend t) u) ∧
       (e.toNat < 3 → n.toNat < k.win.tcount → hdrOk eng hdr = true → ∀ q, free q → ∃ u, exec (.trig e n t) s = .next u ∧ takes (.trig e n t) q
         { tc := n.toNat, eng := e.toNat, thr := (es 0).setWidth 32, hdr := hdr, stg := k.snapshot eng } u) ∧
       (fld (es 2) 0 6 < k.win.tcount → ∀ q, free q → ∃ u, exec (.ready x r t) s = .next u ∧ takes (.ready x r t) q
         { isReady := true, tc := fld (es 2) 0 6, region := r.toNat, tile := x.toNat, clr := bit (es 2) 6 } u) ∧
       ((∀ q, q < k.win.tqueue → (vget k.regs.tq q).isSome = true) →
         (∃ u, Holds (.trig e n t) s u) ∧ ∃ u, Holds (.ready x r t) s u))

/-! ## The events of the engines -/

namespace Sys2Proof.Machine

/-- What a completed command makes due (R188, R189): its counter's increment, if it asks for one, its destinations, its leaving. -/
def completion (y : Sys) (g : Nat) (c : Cmd) : List Ev :=
  let at_ (a : Act) : Ev := { core := g, ctx := c.ctx, due := (if c.varies then y.wcyc else y.now g c.ctx) + 1, phase := if c.varies then 8 else 0, ord := c.id, act := a }
  let counted : Bool := (c.eng == .tm || c.eng == .cp) && bit (c.stg.getD 4 0) 6
  (if counted then [at_ (.tcAdd (fld (c.stg.getD 4 0) 0 6) 1)] else []) ++ c.writes.map (fun t => at_ (.wrote c.id t)) ++ [at_ (.finish c.id)]

end Sys2Proof.Machine

/-- A full queue: the tile memory and copy engines hold the group, as a stall while what stands in the queue varies with the world outside; the orrery, dot and collective engines hold it in shared mode, and in timed mode the dispatch faults (R120, R187; when the first two stall, logs 55 and 72). The start of an engine command. One that is not eligible stays as it is. An eligible one whose source tiles have no outstanding earlier writer, and whose tag is right, takes its start tick, its tag (TTICK[15:0] in timed mode, else 0) and, in shared mode, its engine, and its first action follows. An outstanding earlier writer makes it wait in shared mode, and in timed mode when every such writer is a TLD or a copy of varying timing; another is a timing fault, and a tag that differs is a schedule fault; both drop the command (R108, R187, R188, R302, R337). -/
def Obligations.EngineQueuesAndStarts : Prop :=
  (∀ (s : State) (t : BitVec 16) (n : BitVec 6),
     (¬ Room s .tm → Holds (.tld t) s (s.sys.queueVaries s.mem .tm)) ∧ (¬ Room s .cp → Holds (.cpy t) s (s.sys.queueVaries s.mem .cp)) ∧
     (¬ Room s .orr → s.sys.here.timed = false → Holds (.opass 0 0 t) s false) ∧
     (¬ Room s .dot → s.sys.here.timed = false → Holds (.dot 0 0 t) s false) ∧
     (¬ Room s .col → s.sys.here.timed = false → Holds (.cset n t) s false) ∧
     (¬ Room s .col → s.sys.here.timed = true → n.toNat < s.sys.here.win.tcount → BreaksLimit (.cset n t) s 5 2 0)) ∧
  (∀ (s : State) (core id : Nat), core < 1024 →
     let y := s.sys
     let start : Instr := .engineCommandStart core id
     (y.cmd core id = none → Idles start s) ∧
     ∀ c, y.cmd core id = some c →
       let k := y.ctx core c.ctx
       let now := y.now core c.ctx
       let writers := c.checked.flatMap fun t => (y.core core).cmds.filter fun m => m.ctx == c.ctx && m.writes.contains t && decide (m.id < c.id)
       let slow (m : Cmd) : Bool := (match m.instr with | .tld .. => true | _ => m.eng == .cp && m.varies)
       let wrong : Prop := (chkOf c.instr).1 = true ∧ ∃ t ∈ c.checked, (vget k.sbTag t).toNat % 256 ≠ (chkOf c.instr).2
       let drops (cls code : Nat) : Prop := Becomes start s fun y =>
         (y.deferFault core c.ctx { cls := cls, code := code, slot := c.slot, grp := c.grp }).modCore core fun q => { q with cmds := q.cmds.filter fun m => m.id != id }
       (y.eligible core c = false → Idles start s) ∧
       (y.eligible core c = true →
         (writers ≠ [] → k.timed = false ∨ (∀ m ∈ writers, slow m = true) → Idles start s) ∧
         (writers ≠ [] → k.timed = true → (∃ m ∈ writers, slow m = false) → drops 5 3) ∧
         (writers = [] → k.timed = true → wrong → drops 6 1) ∧
         (writers = [] → k.timed = false ∨ ¬ wrong →
           let c' : Cmd := { c with started := true, start := now, tag := if k.timed then (BitVec.ofNat 64 y.mer - k.tstm).setWidth 16 else 0 }
           let y' : Sys := y.modCmd core id fun _ => c'
           let y'' : Sys := match c.occupies with
             | some n => if k.timed then y' else y'.modCore core fun q => { q with free := vset q.free c.eng.index (now + n) }
             | none => y'
           exec start s = .next { mem := s.mem.writeAll (y''.startAction s.mem core c').2, sys := (y''.startAction s.mem core c').1.mend (y''.startAction s.mem core c').2 })))

/-- The completions of transfers, copies and passes. A TLD whose last segment has arrived commits all its rows in this tick; a TST, a word access, or a copy whose last block has performed has nothing left to write; each then makes its completion due in the next tick, and nothing happens before. A refill starts once no earlier command of its context still reads its tile. A finished pass leaves its slot (R87, R188, R189, R192, R193, R198, R199). -/
def Obligations.TransfersAndPassesComplete : Prop :=
  ∀ (s : State) (core id : Nat) (x : Fin 4) (slot : Fin 2), core < 1024 →
    let y := s.sys
    let tile : Instr := .tileTransferComplete core id
    let copy : Instr := .copyComplete core id
    let fire : Instr := .cpyrFire core id
    (y.cmd core id = none → Idles tile s ∧ Idles copy s ∧ Idles fire s) ∧
    (∀ c, y.cmd core id = some c →
      let ends (y : Sys) : Sys := { y with agenda := y.agenda ++ completion y core c }
      let readers := (y.core core).cmds.any fun b => b.ctx == c.ctx && decide (b.id < c.id) && b.reads.any fun t => c.writes.contains t
      (∀ t, c.instr = .tld t → c.eng = .tm → y.moves core c = true → c.done = c.units →
        let rows := c.commitRows ((y.ctx core c.ctx).tileBase (fld (c.st 2) 0 4)) core
        exec tile s = .next { mem := s.mem.writeAll rows, sys := (ends y).mend rows }) ∧
      (∀ a e t, c.instr = .tst a e t → c.eng = .tm → y.moves core c = true → c.done = c.units → Becomes tile s ends) ∧
      ((∃ w t, c.instr = .ldw w t ∨ c.instr = .stw w t) → c.eng = .tm → y.moves core c = true → 0 < c.done → Becomes tile s ends) ∧
      (c.eng ≠ .tm ∨ y.moves core c = false → Idles tile s) ∧
      (c.eng = .cp → c.done = c.copyTotal → Becomes copy s ends) ∧ (c.eng ≠ .cp ∨ c.done ≠ c.copyTotal → Idles copy s) ∧
      (∀ t, c.instr = .cpyr t → c.started = true → c.fired = false → readers = false → y.moves core c = true →
        Becomes fire s fun y => (y.modCmd core id fun c => { c with fired := true }).runCopy core c) ∧
      (∀ t, c.instr = .cpyr t → c.started = false ∨ c.fired = true ∨ readers = true ∨ y.moves core c = false → Idles fire s)) ∧
    (∀ p, (vget (y.ctx core x).sweep slot).pass = some p →
      (p.flight = [] → p.next = p.rows → p.round + 1 = p.rounds → Becomes (.passFinish core x slot) s fun y => y.passEnd s.mem core x slot) ∧
      (p.flight ≠ [] → Idles (.passFinish core x slot) s)) ∧
    ((vget (y.ctx core x).sweep slot).pass = none → Idles (.passFinish core x slot) s)

namespace Sys2Proof.Machine

/-- The start delay of a command that a trigger may fire (R108). -/
def fireDelay : Instr → Nat
  | .tld t | .tst _ _ t | .ldw _ t | .stw _ t | .atomAdd _ t | .atomMin _ t | .atomMax _ t | .atomAnd _ t | .atomOr _ t | .atomXor _ t | .atomSwap _ t | .atomCas _ t
  | .cpy t | .cpys t | .cpyg t | .cpyr t | .cpyst _ _ t | .cpyf t | .cinc _ _ t | .cset _ t | .crd _ t | .eph t | .aowcfg _ _ t | .ephend t => t.toNat
  | _ => 0

/-- The limits of a command that a trigger may fire, on the five words of its snapshot (R190, R192 to R194, R196, R197, R215). TRIG and READY are none (R216). -/
def FireLimits (i : Instr) (core : Nat) (k : Ctx) (c : Core) (w : Nat → Word) : Prop :=
  let tc : Prop := fld (w 4) 0 6 < k.win.tcount
  let order : Prop := fld (w 4) 11 3 < 6 ∧ tc
  let rows : Prop := 1 ≤ fld (w 2) 32 9 ∧ fld (w 2) 32 9 ≤ 256 ∧ fld (w 2) 24 8 + fld (w 2) 32 9 ≤ 2048 / (8 * 2 ^ fld (w 2) 20 2) ∧ fld (w 2) 0 4 < k.win.vwin / 4
  let src : Prop := fld (w 0) 0 6 = 0
  let dst : Prop := fld (w 1) 0 6 = 0
  let len : Prop := fld (w 2) 0 32 % 64 = 0 ∧ 64 ≤ fld (w 2) 0 32 ∧ fld (w 2) 0 32 ≤ 2 ^ 30
  let count : Prop := 1 ≤ fld (w 2) 32 32 ∧ fld (w 2) 32 32 ≤ 65535
  let pitch : Prop := fld (w 3) 0 6 = 0
  let pad (v : Word) : Nat := fld v 0 28
  let own (v : Word) : Prop := pad v / 2 ^ 21 % 128 = core % 128
  let word (n : BitVec 1) : Prop := (w 0).toNat % (if n = 1 then 8 else 4) = 0 ∧ pad (w 1) % 8 = 0 ∧ own (w 1) ∧ order
  match i with
  | .tld _ | .tst .. => src ∧ dst ∧ rows ∧ order
  | .ldw n _ | .stw n _ | .atomAdd n _ | .atomMin n _ | .atomMax n _ | .atomAnd n _ | .atomOr n _ | .atomXor n _ | .atomSwap n _ | .atomCas n _ => word n
  | .cpy _ => tc ∧ src ∧ dst ∧ len
  | .cpys _ => tc ∧ src ∧ dst ∧ len ∧ count ∧ pitch ∧ fld (w 3) 32 6 = 0
  | .cpyg _ => tc ∧ src ∧ dst ∧ len ∧ count ∧ fld (w 0) 60 4 ≤ 3 ∧ bit (w 4) 7 = false
  | .cpyr _ => tc ∧ src ∧ rows ∧ pitch
  | .cpyst .. => tc ∧ dst ∧ rows ∧ pitch
  | .cpyf _ => tc ∧ dst ∧ len
  | .cinc _ n _ | .cset n _ => n.toNat < k.win.tcount
  | .crd n _ => n.toNat < k.win.tcount ∧ pad (w 0) % 8 = 0 ∧ own (w 0)
  | .eph _ => pad (w 0) % 64 = 0 ∧ own (w 0) ∧ 1 ≤ fld (w 1) 0 16 ∧ fld (w 1) 0 16 ≤ 4096 ∧ pad (w 0) % 2 ^ 21 + 32 * fld (w 1) 0 16 ≤ 2 ^ 21 ∧ k.eph = none
  | .aowcfg l n _ => c.aowOk l.toNat n.toNat (w 0) (w 1) = true
  | .ephend _ => True
  | _ => False

end Sys2Proof.Machine

/-- The trigger queue: a fired TRIG's command is executed as a bundle would execute it, with its own order, group and staging registers, in the tick after it fired; it leaves its slot when it ran, waits there where a bundle would hold or an acquire, a fence or a barrier of its context is outstanding (R126, R127, R191), and defers its fault where a bundle would fault. A READY that sees its bit counts, releases its slot and, if it is to, clears the bit, all in the next tick. A fired command that breaks no limit completes: it is dispatched from its snapshot. READYs that lapse leave together, and one of them raises class 10, code 2 (R109, R214 to R217, R340). That a fired command is executed as a bundle of its one slot, and what holds it for an acquire, a fence or a barrier, are the model's reading (logs 23 and 56). Transits: a transit of the open ephemeris starts and reads its first block two ticks later; the end of one counts for it in the next tick when it asks for a count, and the last of an ephemeris closes it in the next tick of the meridian (R262, R263). -/
def Obligations.TriggersAndTransits : Prop :=
  (∀ (s : State) (core : Nat) (x : Fin 4) (q : Fin 32), core < 1024 →
     let y := s.sys
     let k := y.ctx core x
     (vget k.regs.tq q = none → Idles (.triggeredFire core x q) s ∧ Idles (.readySlotFire core x q) s) ∧
     (∀ e f i, vget k.regs.tq q = some e → e.isReady = false → e.fired = some f → f < y.tick k.timed → k.engineRuns .col = true → k.region.open_ = false →
       decodeSlot (trigEngine e.eng).kind e.hdr = .ok i → (∀ a b c, i ≠ .trig a b c) → (∀ a b c, i ≠ .ready a b c) →
       let eng := trigEngine e.eng
       let first := eng.staging.1 + (match eng with | .col => 2 | _ => 0)
       let start : Sys :=
         { y with ord := y.ord + 1,
                  cur := { core := core, ctx := x, slot := eng.slot, lanes := [], grp := e.grp, next := e.grp, word := e.hdr, ord := 32 * (y.ord + 1) + eng.slot } }
       let posed := start.modRegs core x fun r => { r with staging := (List.range 5).foldl (fun v j => vset v (first + j) (e.stg.getD j 0)) r.staging }
       (∀ v, y.firedHold s.mem core x eng = some v → Becomes (.triggeredFire core x q) s fun y => y.setQueue core x q (some { e with blocked := v })) ∧
       ∀ t, y.firedHold s.mem core x eng = none → exec i { s with sys := posed } = .next t →
         (t.sys.cur.verdict = .ran → exec (.triggeredFire core x q) s = .next { s with sys := (t.sys.modRegs core x fun r => { r with staging := k.regs.staging }).setQueue core x q none }) ∧
         (∀ v, t.sys.cur.verdict = .held v → Becomes (.triggeredFire core x q) s fun y => y.setQueue core x q (some { e with blocked := v })) ∧
         (∀ d, t.sys.cur.verdict = .faulted d → Becomes (.triggeredFire core x q) s fun y =>
           (y.setQueue core x q none).deferFault core x { d with grp := e.grp, slot := eng.slot })) ∧
     (∀ e f i, vget k.regs.tq q = some e → e.isReady = false → e.fired = some f → f < y.tick k.timed → k.engineRuns .col = true → k.region.open_ = false →
       decodeSlot (trigEngine e.eng).kind e.hdr = .ok i →
       let eng := trigEngine e.eng
       let z : State := { s with sys := { y with cur := { y.cur with core := core, ctx := x } } }
       let low : Nat := match eng with | .col => 2 | _ => 0
       i.kind = some eng.kind → y.firedHold s.mem core x eng = none → Room z eng → (eng ≠ .cp → FreeAt z eng (fireDelay i)) →
       FireLimits i core k (y.core core) (fun j => e.stg.getD j 0) →
       ∃ t c, exec (.triggeredFire core x q) s = .next t ∧ t.mem = s.mem ∧ c ∈ (t.sys.core core).cmds ∧ c.ctx = x.val ∧ c.eng = eng ∧ c.instr = i ∧ c.word = e.hdr ∧
         c.grp = e.grp ∧ c.start = y.tick k.timed + fireDelay i ∧ (∀ j, j < 5 → c.stg.getD (low + j) 0 = e.stg.getD j 0) ∧
         vget (t.sys.ctx core x).regs.tq q = none ∧ (∀ p, p < 32 → p ≠ q.val → vget (t.sys.ctx core x).regs.tq p = vget k.regs.tq p) ∧
         (t.sys.ctx core x).regs.staging = k.regs.staging) ∧
     (∀ e a, vget k.regs.tq q = some e → e.isReady = true → e.armedAt = some a → a ≤ y.tick k.timed → e.fired = none → k.engineRuns .col = true →
       let seen := (vget (y.core core).aow e.region).ready.toNat / 2 ^ e.tile % 2
       let soon (a : Act) : Ev := { core := core, ctx := x, due := y.tick k.timed + 1, phase := 0, ord := e.armer, act := a }
       (seen = 1 → Becomes (.readySlotFire core x q) s fun y =>
         { (y.setQueue core x q (some { e with fired := some (y.tick k.timed) })) with
           agenda := y.agenda ++ [soon (.tcAdd e.tc 1), soon (.queueFree q)] ++ (if e.clr then [soon (.readyClear e.region e.tile)] else []) }) ∧
       (seen = 0 → Idles (.readySlotFire core x q) s)) ∧
     (let late (q : Option Queued) : Bool := match q with
        | some e => e.isReady && e.fired.isNone && (match e.lapse with | some t => decide (t ≤ y.mer) | none => false)
        | none => false
      (∀ q, q < 32 → late (vget k.regs.tq q) = false) ∧ Idles (.readyTimeout core x) s ∨
      ∃ q e, q < 32 ∧ vget k.regs.tq q = some e ∧ late (some e) = true ∧ Becomes (.readyTimeout core x) s fun y =>
        (y.modRegs core x fun r => { r with tq := r.tq.map fun q => if late q then none else q }).deferFault core x
          { cls := 10, code := 2, slot := 9, far := BitVec.ofNat 64 (8 * e.tile + e.region), grp := e.grp })) ∧
  (∀ (s : State) (core : Nat) (x : Fin 4) (n : Nat), core < 1024 →
     let y := s.sys
     let k := y.ctx core x
     (∀ e t, k.eph = some e → n / 4096 = e.id → e.entries[n % 4096]? = some t →
       Becomes (.transitStart core x n) s fun y =>
         { (y.modCtx core x fun k => { k with moving := k.moving ++ [{ key := n, transit := t, start := y.mer, grp := e.grp, left := t.len }] }) with
           agenda := y.agenda ++ [{ core := core, ctx := x, due := y.mer + 2, phase := 5, ord := e.id, act := .transit n 0 }] }) ∧
     (k.eph = none → Idles (.transitStart core x n) s) ∧
     (∀ t, (k.moving.find? fun q => q.key == n) = some t →
       let counts : List Ev := if t.transit.cinc then
         [{ core := core, ctx := x, due := y.tick k.timed + 1, phase := 0, ord := n / 4096, act := .tcAdd t.transit.tc 1 }] else []
       let gone (k : Ctx) : Ctx := { k with moving := k.moving.filter fun q => q.key != n }
       (t.left ≠ 0 → Idles (.transitComplete core x n) s) ∧
       (t.left = 0 → k.eph = none → Becomes (.transitComplete core x n) s fun y => { (y.modCtx core x gone) with agenda := y.agenda ++ counts }) ∧
       (∀ e, t.left = 0 → k.eph = some e → e.id = n / 4096 → ∃ z, exec (.transitComplete core x n) s = .next z ∧ z.mem = s.mem ∧
         z.sys.ctx core x = { gone k with eph := some { e with finished := e.finished + 1 } } ∧
         z.sys.agenda = y.agenda ++ counts ++
           (if e.finished + 1 = e.count then [{ core := core, ctx := x, due := y.mer + 1, phase := 4, ord := e.id, act := .ephClose e.id }] else []))) ∧
     ((k.moving.find? fun q => q.key == n) = none → Idles (.transitComplete core x n) s))

/-! ## Faults and tasks -/

/-- A fault taken by its row: a deferred fault when the next group would issue, and a budget exceeded, which names the group at the pc with class 4, code 1 (an entry's budget) or 2 (the body's). A class 1 to 3 fault goes to the context's handler when it has one and runs none: cause, FAR and FGA are recorded, EPC keeps the pc and the pc goes to the handler. Any other stops the context in state 6 and joins the package fault queue, which raises MSI-X vector 8; a deferred fault of the present cycle is not yet taken. The queue keeps what it held, and the entries of one cycle stand in ascending order of their paths (R22, R302, R303, R305, R308, R309, R314). That the handler's first group issues two ticks on, and that a deadline fault names slot 0, are the model's readings (log 9, log 7). -/
def Obligations.FaultsAreTaken : Prop :=
  ∀ (s : State) (core : Nat) (x : Fin 4), core < 1024 →
    let y := s.sys
    let k := y.ctx core x
    let raise : Instr := .deferredFaultRaise core x
    let stops (i : Instr) (k : Ctx) (f : FaultRec) (pend : Bool) : Prop := k.timed = false → k.region.open_ = false → ∃ t, exec i s = .next t ∧ t.mem = s.mem ∧
      t.sys.ctx core x = { k with causeClass := BitVec.ofNat 8 f.cls, causeCode := BitVec.ofNat 16 f.code, far := f.far, fga := ⟨pend, f.more, f.slot, f.grp⟩,
                                  state := .faulted, preq := false, held := false, stalling := false, haltTick := y.run, mid := true } ∧
      let e : Word × Word × Word × Word := (faultWord0 f.more f.cls f.code 0 0, f.path core x, f.far, (Fga.mk pend f.more f.slot f.grp).word)
      t.sys.pkg = y.pkg.pfqAppend e ∧
      (y.pkg.pfq.length < 64 → y.pkg.pfqNew = 0 → t.sys.pkg.pfq = y.pkg.pfq ++ [e] ∧ t.sys.pkg.msix = y.pkg.msix ||| 0x100) ∧
      (y.pkg.pfq.length = 64 → y.pkg.pfqNew = 0 → t.sys.pkg.pfq = y.pkg.pfq ∧ t.sys.pkg.pfqOvf = true)
    (∀ (p : Pkg) (e : Word × Word × Word × Word), p.pfq.length < 64 →
      let old := p.pfq.length - p.pfqNew
      let asc (l : List (Word × Word × Word × Word)) : Prop := l.Pairwise fun a b => pathKey a.2.1 ≤ pathKey b.2.1
      (p.pfqAppend e).pfq.take old = p.pfq.take old ∧ ((p.pfqAppend e).pfq).Perm (p.pfq ++ [e]) ∧
        (asc (p.pfq.drop old) → asc ((p.pfqAppend e).pfq.drop old))) ∧
    (k.deferred = [] → Idles raise s) ∧
    (∀ f rest, k.deferred = f :: rest → y.wcyc ≤ f.seen → Idles raise s) ∧
    (∀ f rest, k.deferred = f :: rest → f.seen < y.wcyc →
      (f.cls ≤ 3 → k.tvecEn = true → k.epcInh = false → Becomes raise s fun y => y.modCtx core x fun k =>
        { k with deferred := rest, causeClass := BitVec.ofNat 8 f.cls, causeCode := BitVec.ofNat 16 f.code, far := f.far,
                 fga := ⟨!rest.isEmpty, f.more, f.slot, f.grp⟩, epcInh := true, epcRet := k.pc, pc := k.tvecAddr, readyAt := y.tick k.timed + 2, held := false, stalling := false,
                 state := if k.state = .waiting then .running else k.state }) ∧
      (3 < f.cls ∨ k.tvecEn = false ∨ k.epcInh = true → stops raise { k with deferred := rest } f (!rest.isEmpty))) ∧
    (let entry (j : Nat) : Prop := (vget k.regs.loops j).valid = true ∧ (vget k.regs.loops j).kind = .temporal
     let late (j : Nat) : Prop := entry j ∧ (vget k.regs.loops j).budget < (vget k.regs.loops j).elapsed
     let fault (code : Nat) : FaultRec := { cls := 4, code := code, slot := 0, grp := k.pc }
     (k.live = true → (∃ j, j < 6 ∧ late j) → stops (.deadlineFault core x) k (fault 1) (!k.deferred.isEmpty)) ∧
     (k.live = true → (∀ j, j < 6 → ¬ entry j) → k.task.bodyBudget < k.bodyElapsed → stops (.deadlineFault core x) k (fault 2) (!k.deferred.isEmpty)) ∧
     (k.live = false ∨ ((∀ j, j < 6 → ¬ late j) ∧ ((∃ j, j < 6 ∧ entry j) ∨ k.bodyElapsed ≤ k.task.bodyBudget)) → Idles (.deadlineFault core x) s))

/-- The life of a task: the release of a barrier lets exactly the tasks that wait at it go on; a region commits when its accesses are all translated, its gated entries leaving in order; a task that has ended and has nothing outstanding finishes, and its context is idle with pc, registers a supervisor owns and other contexts kept; a draining context at its boundary is halted; a pre-emption request is refused while CSAB.`en` is 0 and else makes the context drain (R31, R126, R137, R266, R326, R327). -/
def Obligations.TaskEvents : Prop :=
  ∀ (s : State) (core id : Nat) (x : Fin 4),
    let y := s.sys
    let k := y.ctx core x
    (y.pkg.spreads.find? (·.id == id) = none → Idles (.barrierRelease id) s) ∧
    (∀ p, y.pkg.spreads.find? (·.id == id) = some p →
      (∀ r, p.releaseAt = some r → r ≤ y.tick p.timed → (p.members.map fun m => (m.core, m.ctx)).Nodup → ∃ t, exec (.barrierRelease id) s = .next t ∧ t.mem = s.mem ∧ t.sys.agenda = y.agenda ∧
        ∀ m ∈ p.members, m.ctx < 4 →
          let q := y.ctx m.core m.ctx
          (q.task.spread = id → q.barWait = true → q.bars = p.released + 1 → t.sys.ctx m.core m.ctx =
            { q with barWait := false, stalling := false, state := if q.state = .waiting then (if q.preq then .draining else if q.timed then .running else .ready) else q.state }) ∧
          (q.task.spread ≠ id ∨ q.barWait = false ∨ q.bars ≠ p.released + 1 → t.sys.ctx m.core m.ctx = q)) ∧
      (p.releaseAt = none → Idles (.barrierRelease id) s)) ∧
    (core < 1024 →
      (k.region.open_ = true → y.regionReady s.mem core x = true → ∃ t, exec (.regionCommit core x) s = .next t ∧ t.mem = s.mem ∧ t.sys.ctx core x = { k with region := {} } ∧
        t.sys.agenda = y.agenda ++ k.region.gated.filterMap (fun e => match e with
          | .store cmd va data => some { core := core, ctx := x, due := y.wcyc, phase := 11, ord := cmd, act := .farWrite cmd 0 va data }
          | .record .. => none) ∧
        ∀ c ∈ (t.sys.core core).cmds, c.ctx = x → c.gated = false) ∧
      (k.region.open_ = false ∨ y.regionReady s.mem core x = false → Idles (.regionCommit core x) s) ∧
      (k.ended = true → y.outstanding core x = false → ∃ t, exec (.taskFinish core x) s = .next t ∧ t.mem = s.mem ∧
        (t.sys.ctx core x).state = .idle ∧ (t.sys.ctx core x).ended = false ∧ (t.sys.ctx core x).pc = k.pc ∧ (t.sys.ctx core x).csab = k.csab ∧
        (t.sys.ctx core x).regs.a = k.regs.a ∧ (t.sys.ctx core x).regs.flags = k.regs.flags ∧ (∀ q, q < 32 → vget (t.sys.ctx core x).regs.tq q = none) ∧
        (∀ g c, g ≠ core ∨ c ≠ x.val → t.sys.ctx g c = y.ctx g c) ∧
        t.sys.pkg.spreads = y.pkg.spreads.map fun p => if p.id = k.task.spread then
          { p with members := p.members.map fun m => if m.core = core ∧ m.ctx = x.val then { m with finished := true, digest := k.sponge.digest } else m } else p) ∧
      (k.ended = false ∨ y.outstanding core x = true → Idles (.taskFinish core x) s) ∧
      (k.state = .draining → k.boundary = true → k.timed = false → bit k.csab 0 = false → Becomes (.drainHalt core x) s fun y => y.modCtx core x fun k =>
        { k with state := .halted, preq := false, held := false, stalling := false, haltTick := y.run, mid := false }) ∧
      (k.state ≠ .draining ∨ k.boundary = false → Idles (.drainHalt core x) s) ∧
      (bit k.csab 0 = false → Idles (.preemptionRequest core x) s) ∧
      (bit k.csab 0 = true → k.timed = false → k.ended = false →
        (k.state = .running ∨ k.state = .ready → k.boundary = false → Becomes (.preemptionRequest core x) s fun y => y.modCtx core x fun k => { k with state := .draining, preq := true }) ∧
        (k.state = .waiting → Becomes (.preemptionRequest core x) s fun y => y.modCtx core x fun k => { k with preq := true })))

/-- The supervisor's commands. TKILL stops the named context in state 6 with class 12, code 1, and nothing of it goes on; it does nothing to an idle or killed one. A CCMD that meets a job in progress is discarded; one that is taken clears `err` and shows in CCMD. SAVE of a stopped context and RESTORE begin their job; RELEASE of a halted, parked context of shared mode lets it go on from the next tick; the context reset clears the registers R353 names and the vector window. A job that is due makes its accesses (R342, R343, R352, R353). That the rounding mode, TSTM and the drift limit stay at a context reset is the model's reading (log 50), and the time of a save or restore is a free value (log 3). -/
def Obligations.SupervisorCommands : Prop :=
  ∀ (s : State) (core : Nat) (x : Fin 4) (v : Word), core < 1024 →
    let y := s.sys
    let k := y.ctx core x
    let ready : Prop := y.answers = true
    let idle : Prop := (y.core core).ccmd.jobs = []
    let stopped : Prop := k.state = .halted ∨ k.state = .faulted ∨ k.state = .frozen
    let takes (i : Instr) (op : Nat) (f : Sys → Sys) : Prop := Becomes i s fun y => f (y.modCore core fun q => { q with ccmd := { q.ccmd with op := op, ctx := x, err := false } })
    let begins (restore : Bool) (y : Sys) : Sys :=
      ({ y with taken := y.taken + 1 } : Sys).modCore core fun q =>
        { q with ccmd := { q.ccmd with jobs := q.ccmd.jobs ++ [{ ctx := x, restore := restore, due := y.wcyc + (1 + Config.latency y.taken) }] } }
    (ready → fld v 0 2 = x.val → bit v 2 = false → k.timed = false → k.state ≠ .idle → k.killed = false → ∃ t, exec (.tkill core v) s = .next t ∧ t.mem = s.mem ∧
      (t.sys.ctx core x).state = .faulted ∧ (t.sys.ctx core x).killed = true ∧ (t.sys.ctx core x).causeClass = 12 ∧ (t.sys.ctx core x).causeCode = 1 ∧
      (t.sys.ctx core x).region.open_ = false ∧ (t.sys.ctx core x).deferred = [] ∧ ∀ g c, g ≠ core ∨ c ≠ x.val → t.sys.ctx g c = y.ctx g c) ∧
    (fld v 0 2 = x.val → ¬ ready ∨ k.state = .idle ∨ (k.killed = true ∧ bit v 2 = false ∧ k.timed = false) → Idles (.tkill core v) s) ∧
    (¬ ready ∨ ¬ idle → Idles (.ccmdSave core x) s ∧ Idles (.ccmdRestore core x) s ∧ Idles (.ccmdRelease core x) s ∧ Idles (.ccmdContextReset core x) s) ∧
    (ready → idle →
      (stopped → takes (.ccmdSave core x) 4 (begins false)) ∧ (¬ stopped → takes (.ccmdSave core x) 4 id) ∧
      (k.killed = false → bit k.csab 0 = true → (k.state = .idle ∨ (stopped ∧ k.state ≠ .frozen)) → takes (.ccmdRestore core x) 1 (begins true)) ∧
      (k.killed = true ∨ bit k.csab 0 = false → takes (.ccmdRestore core x) 1 id) ∧
      (k.state = .halted → k.ended = false → k.parked = true → k.timed = false → takes (.ccmdRelease core x) 2 fun y => y.letGo core x) ∧
      (k.state ≠ .halted → takes (.ccmdRelease core x) 2 id) ∧
      (stopped → ∃ t, exec (.ccmdContextReset core x) s = .next t ∧
        t.mem = s.mem.writeAll ((List.range 8).map fun lg => .put (vecKey core lg k.win.vbase 0 0) (List.replicate (1024 * k.win.vwin) 0)) ∧
        (t.sys.ctx core x).state = .idle ∧ (t.sys.ctx core x).pc = 0 ∧ (∀ b n, (t.sys.ctx core x).regs.scalar b n = 0) ∧ (t.sys.ctx core x).regs.rm = k.regs.rm ∧
        (t.sys.ctx core x).tstm = k.tstm ∧ (t.sys.ctx core x).driftLimit = k.driftLimit ∧ ∀ e ∈ t.sys.agenda, ¬ (e.core = core ∧ e.ctx = x.val)) ∧
      (¬ stopped → takes (.ccmdContextReset core x) 3 id)) ∧
    ((∀ j ∈ (y.core core).ccmd.jobs, j.ctx ≠ x.val) → Idles (.contextSaveAreaDone core x) s) ∧
    (∀ j, ((y.core core).ccmd.jobs.find? fun j => j.ctx == x.val) = some j →
      (y.jobDue core j = false → Idles (.contextSaveAreaDone core x) s) ∧
      (y.jobDue core j = true → ∃ t, exec (.contextSaveAreaDone core x) s = .next t ∧
        (j.restore = false → t.mem = s.mem.writeAll (y.save s.mem core x).2 ∧ t.sys = (y.save s.mem core x).1.mend (y.save s.mem core x).2) ∧
        (j.restore = true → t.mem = s.mem.writeAll (y.restoreArea s.mem core x).2 ∧ t.sys = (y.restoreArea s.mem core x).1.mend (y.restoreArea s.mem core x).2)))

/-! ## Camvel records and the belvedere -/

/-- Every Camvel record (TLOAD, TSTORE, TCOPY, TFILL, TMAP, TROT, TROTR, TQR, TAPPLY, TDOT, TRED, TNORM, TTOPK, TCONV, TGATHER, TSCATTER, TALLRED, TBCAST, TFLIPV and TBAR) has its effect when it is due: it runs, nothing parks it, and the time of its effect, or of a block of it, has come; then its writes are made, and a record that is done has its completion follow in this cycle (TMAP's completion waits for its tasks). TBAR has no effect but its own end. That a block's effect is made at once is the model's choice (log 14). A record not due, or another's number, does nothing (R222, R223, R225 to R236). -/
def Obligations.CamvelRecordsAct : Prop :=
  ∀ (s : State) (id : Nat) (r : CamvelRecord),
    let y := s.sys
    let due (x : Rec) : Prop := (y.pkg.recs.find? fun q => q.id == id) = some x ∧ x.phase = .running ∧ x.parked = false ∧
      ((∃ t, x.due = some t ∧ t ≤ y.run) ∨ ∃ l ∈ x.leaves, (l.out.isSome = true ∧ l.back = false) ∨
        (l.core.isSome = true ∧ l.out = none ∧ l.gone = false ∧ ∃ t, l.due = some t ∧ t ≤ y.run))
    let plain (i : Instr) : Prop := i = .tload id r ∨ i = .tstore id r ∨ i = .tcopy id r ∨ i = .tfill id r ∨ i = .trot id r ∨ i = .trotr id r ∨ i = .tqr id r ∨
      i = .tapply id r ∨ i = .tdot id r ∨ i = .tred id r ∨ i = .tnorm id r ∨ i = .ttopk id r ∨ i = .tconv id r ∨ i = .tgather id r ∨ i = .tscatter id r ∨
      i = .tallred id r ∨ i = .tbcast id r
    let any (i : Instr) : Prop := plain i ∨ i = .tmap id r ∨ i = .tflipv id r ∨ i = .tbar id r
    let acts (i : Instr) (o : Sys × List Write) : Prop := ∃ t, exec i s = .next t ∧ t.mem = s.mem.writeAll o.2 ∧
      (t.sys = o.1.mend o.2 ∨ t.sys = { (o.1.mend o.2) with events := o.1.events ++ [.camvelRecordComplete id] }) ∧
      (t.sys = o.1.mend o.2 ↔ ∀ q, (o.1.pkg.recs.find? fun q => q.id == id) = some q → ¬ (q.phase = .done ∧ q.topc ≠ 5))
    (∀ i, any i → (∀ x, ¬ due x) → Idles i s) ∧
    (∀ i x, any i → due x → x.record ≠ r → Idles i s) ∧
    (∀ x, due x → x.record = r →
      (∀ i, plain i → acts i (y.effect s.mem x)) ∧ acts (.tmap id r) (y.readImage s.mem x) ∧ acts (.tflipv id r) (y.flip s.mem x) ∧
      (x.topc = 20 → Becomes (.tbar id r) s fun y =>
        { (y.modRec id fun q => { q with phase := .done, due := none, fault := x.report q.faults }) with events := y.events ++ [.camvelRecordComplete id] }))

/-- What a block of a record puts into its destination, from its rows of A and B: TLOAD, TSTORE and TCOPY the rows of A as they stand, TBCAST those of them that lie within its part of the destination (R237); TFILL the element of word 7 in every column; TCONV each row's values in the destination's format, each element converted where both formats have elements, with the sources' absent code becoming the destination's; TGATHER the row of A that each index names, an absent row for an absent or missing index; TSCATTER its row of A at the row each index names, nothing for an absent or missing one (R225, R226, R233, R234). What an absent row holds in a format without an absent code is a free value (log 31). That TCONV flushes subnormals to zero is the model's reading (log 33). -/
def Obligations.CamvelBlocks : Prop :=
  ∀ (x : Rec) (c : Cut) (pa pd : Piece) (a b : List (List Byte)),
    let row (i : Nat) (bytes : List Byte) : Put := ⟨0, pd.r0 + i, pd.off, bytes⟩
    let out := x.leaf c pa pd a b
    let w := x.dst.fmt.width / 8
    let index (i : Nat) : Nat := leNat (b.getD i [])
    let absent (i : Nat) : Prop := Elem.n32.isAbsent (index i) = true
    ((x.topc = 1 ∨ x.topc = 2 ∨ x.topc = 3) → out.puts.length = a.length ∧ ∀ i, i < a.length → out.puts[i]? = some (row i (a.getD i []))) ∧
    (x.topc = 18 → out.puts.length = Nat.min a.length pd.nr ∧ ∀ i, i < a.length → i < pd.nr → out.puts[i]? = some (row i ((a.getD i []).take pd.len))) ∧
    (x.topc = 4 → out.puts.length = pd.nr ∧ ∀ i, i < pd.nr → out.puts[i]? = some (row i ((List.range pd.nc).flatMap fun _ => leBytes w x.w7.toNat))) ∧
    (x.topc = 14 → out.puts.length = a.length ∧ ∀ i, i < a.length →
      out.puts[i]? = some (row i (x.dst.encodeRow x.rm x.sat (x.a.vals pa.nc (a.getD i []))).1) ∧
      ∀ e f, x.a.fmt = .elem e → x.dst.fmt = .elem f → out.puts[i]? = some (row i
        ((codesOf e.width pa.nc (a.getD i [])).flatMap fun v => leBytes (f.width / 8) (convert e f x.rm false x.sat v).1))) ∧
    (x.topc = 15 → out.puts.length = b.length ∧ ∀ i, i < b.length →
      (absent i ∨ a.length ≤ index i → out.puts[i]? = some (row i x.dst.absentRow)) ∧
      (¬ absent i → index i < a.length → out.puts[i]? = some (row i (a.getD (index i) [])))) ∧
    (x.topc = 16 → (∀ i, i < b.length → ¬ absent i → index i < x.dst.rows → ⟨0, index i, 0, a.getD i []⟩ ∈ out.puts) ∧
      ∀ p ∈ out.puts, ∃ i, i < b.length ∧ ¬ absent i ∧ index i < x.dst.rows ∧ p = ⟨0, index i, 0, a.getD i []⟩)

/-- The events of records: a launch whose tasks all have a seat has its image staged by every lodge that takes part and places every task at once, and waits otherwise; a block goes to the free core of lowest number of its pavilion, once its lodge's and its arbour's copies are in place and the core has room for it, and context 0 of that core gets the whole of its resources, the record's rounding mode and clear flags; a record that may complete writes its fault record, absorbs its digest, counts, and leaves the queue, in this order. That the lodges and arbours make their copies at the first block, and a block is delivered and copied back at once, is the model's choice (log 14); so are the time at which a block is due (logs 3 and 25), the seats that a launch takes (log 71) and that a launch that meets an unmapped page parks whole (log 42) (R17, R18, R223, R227, R236, R239, R240, R241, R257, R268, R310). -/
def Obligations.CamvelSchedule : Prop :=
  ∀ (s : State) (id : Nat) (pav : BitVec 3),
    let y := s.sys
    let rec_ : Option Rec := y.pkg.recs.find? fun q => q.id == id
    (rec_ = none → Idles (.tmapPlace id) s ∧ Idles (.blockDelivery id pav) s ∧ Idles (.camvelRecordComplete id) s) ∧
    ∀ x, rec_ = some x →
      let goes : Prop := x.phase = .running ∧ x.parked = false
      (∀ k, x.image = some k → x.spread = none → y.placement k x.level = none → Idles (.tmapPlace id) s) ∧
      (¬ goes → Idles (.tmapPlace id) s ∧ Idles (.blockDelivery id pav) s) ∧
      (∀ k seats, goes → x.image = some k → x.spread = none → y.placement k x.level = some seats →
        let tasks := (List.range seats.length).flatMap fun i => let l := seats.getD i []; (List.range l.length).map fun j => (l.getD j (0, 0, {}), i, j)
        let r := y.stageImages s.mem x k (x.launchDies tasks)
        (∀ ws, r.2 = .ok ws → ∃ t p, exec (.tmapPlace id) s = .next t ∧
          t.sys.pkg.nextSpread = r.1.pkg.nextSpread + 1 ∧ t.sys.pkg.spreads = r.1.pkg.spreads ++ [p] ∧ p.id = r.1.pkg.nextSpread ∧ p.timed = k.timed ∧ p.record = id ∧
          (p.members.map fun m => (m.core, m.ctx)) = (seats.flatMap fun l => l.map fun seat => (seat.1, seat.2.1)) ∧
          t.sys.pkg.recs = r.1.pkg.recs.map fun q => if q.id = id then { q with spread := some r.1.pkg.nextSpread } else q) ∧
        (∀ d tr, r.2 = .error (d, tr) →
          let who : Spot := (LevelAt.die d).spot 0
          (tr.waits = true → Becomes (.tmapPlace id) s fun y => y.stickRec x tr (who, 5)) ∧
          (tr.waits = false → Becomes (.tmapPlace id) s fun _ => r.1.finishRec x
            [{ spot := who, mst := 5, cls := tr.cls, code := tr.code, addr := tr.va, info := if tr.cls = 3 then BitVec.ofNat 64 k.raw.length else 0 }]))) ∧
      (∀ i g, goes → x.nextLeaf pav.toNat = some i → y.freeCore pav.toNat = some g →
        let c := x.cuts.getD i ⟨[], 0, 0, 0⟩
        let took : Sys := { y with pkg := { y.pkg with turns := vset y.pkg.turns pav.toNat (some (x.turnKey (x.level == .pav pav.toNat))) } }
        let l := took.lodgeReady s.mem x (dieOf g)
        let x' := (l.1.pkg.recs.find? fun q => q.id == id).getD x
        let ra := l.1.readBlock s.mem x' c g 1
        let rb := ra.1.readBlock s.mem x' c g 2
        let gives (z : Sys) (ws : List Write) : Prop := exec (.blockDelivery id pav) s = .next { mem := s.mem.writeAll ws, sys := z.mend ws }
        (l.2.2 = false → gives l.1 l.2.1) ∧
        (l.2.2 = true →
          (∀ f, l.1.arbourFault x' c g = some f → gives (l.1.treeFault x' f) l.2.1) ∧
          (l.1.arbourFault x' c g = none → ∀ a b, ra.2 = .ok a → rb.2 = .ok b →
            let q := rb.1.stageCore x' c g fun n => if n = 1 then a else b
            let ws := l.2.1 ++ q.2
            (∀ f, x'.coreFault c g = some f → gives
              ((q.1.treeFault x' f).modRec x'.id fun r => { r with leaves := r.leaves.modify i fun l => { l with gone := true } }) ws) ∧
            (x'.coreFault c g = none → ∃ due, y.run + x'.cycles (x'.piece 1 c) (x'.piece 0 c) < due ∧ gives
              ((({ q.1 with taken := q.1.taken + 1 } : Sys).modRec x'.id fun r =>
                { r with leaves := r.leaves.modify i fun l => { l with core := some g, due := some due, a := a, b := b } }).modCtx g 0 fun k =>
                  { k with win := wholeWindow, regs := { k.regs with flags := Vector.replicate 18 0, rm := x'.rm } }) ws)))) ∧
      (x.nextLeaf pav.toNat = none ∨ y.freeCore pav.toNat = none → Idles (.blockDelivery id pav) s) ∧
      (y.mayComplete x = true →
        let d := y.recDigest x
        let y1 := match x.fault with | some f => y.writeTfr x.source f | none => y
        let y2 := match d with | some d => y1.absorbDigest x.source d | none => y1
        Becomes (.camvelRecordComplete id) s fun _ =>
          { y2.linkUp x with pkg := { (y2.linkUp x).pkg with recs := (y2.linkUp x).pkg.recs.filter fun q => q.id != id,
                                                             spreads := (y2.linkUp x).pkg.spreads.filter fun p => some p.id != x.spread } }) ∧
      (y.mayComplete x = false → Idles (.camvelRecordComplete id) s)

/-- The tile issue windows. A write to a port joins the window's entries, or is dropped with `ovf` set while 64 stand there; a gate at the head leaves when its counter has reached its threshold; the window of highest priority with a record ready gives it to the package's acceptance queue; a counter write sets the counter, and the increments that landed in the same cycle are added after. Before boot is complete, and for the host while the device is sealed, the ports and counters take nothing (R222, R254 to R257, R284, R285). -/
def Obligations.WindowsQueueAndAccept : Prop :=
  ∀ (s : State) (win : BitVec 3) (r : CamvelRecord) (g : Word) (tc : BitVec 6) (v : W32),
    let y := s.sys
    let n := win.toNat
    let w := vget y.pkg.wins n
    let sets (w : TileWindow) (y : Sys) : Sys := { y with pkg := { y.pkg with wins := vset y.pkg.wins n w } }
    let pushed (e : WinEntry) : TileWindow := if w.entries.length < 64 then { w with entries := w.entries ++ [e] } else { w with ovf := true }
    (y.answers = true →
      Becomes (.windowRecordPortWrite win r) s (sets (pushed (.record r))) ∧ Becomes (.windowGatePortWrite win g) s (sets (pushed (.gate g))) ∧
      Becomes (.windowCounterWrite win tc v) s (sets { w with tc := vset w.tc tc.toNat (v + BitVec.ofNat 32 (w.landed.count tc.toNat)) })) ∧
    (y.answers = false → Idles (.windowRecordPortWrite win r) s ∧ Idles (.windowGatePortWrite win g) s ∧ Idles (.windowCounterWrite win tc v) s) ∧
    (∀ rest, w.entries = .gate g :: rest → w.en = true →
      let c := vget y.pkg.wins (fld g 6 3)
      let before : W32 := vget c.tc (fld g 0 6) - BitVec.ofNat 32 (c.landed.count (fld g 0 6))
      let open_ : Prop := (before - BitVec.ofNat 32 (fld g 32 32)).toNat < 2 ^ 31
      (open_ → Becomes (.gateRelease win) s (sets { w with entries := rest })) ∧ (¬ open_ → Idles (.gateRelease win) s)) ∧
    (w.en = false → Idles (.gateRelease win) s) ∧
    (∀ rest, w.entries = .record r :: rest → w.en = true → y.deaf .pkg = false → y.queued (.window n) .pkg < 16 →
      (∀ m, m < 8 → m ≠ n → y.headReady m = none ∨ (vget y.pkg.wins m).prio < w.prio) → Becomes (.windowAccept win) s fun y =>
        { y with pkg := { y.pkg with wins := vset y.pkg.wins n { w with entries := rest }, nextRec := y.pkg.nextRec + 1,
                                     recs := y.pkg.recs ++ [{ id := y.pkg.nextRec, source := .window n, level := .pkg, record := r, ctx := 0, accepted := y.run }] } }) ∧
    (w.entries = [] → Idles (.windowAccept win) s ∧ Idles (.gateRelease win) s)

/-- The belvedere's other registers: a comparison of the manifest starts with its address and a clear result, also on a sealed device, and ends with bit 63 set and either bit 62 or the number of the first field that differs, or waits while an invalidation covers a page it reads (R276, R284); an invalidation drops the translations it covers within its time and one that meets `busy` is discarded; PFQPOP drops the head of the fault queue; REPLAY frees what was parked; TTHAW releases the master it names; a fault record is cleared whole, a window's only by a writer that is heard, and a ready bit with its counter. The time of a comparison, and that of an invalidation within its bound, is a free value (log 3) (R57, R269, R276, R310, R311, R313, R314, R331). -/
def Obligations.BelvedereEvents : Prop :=
  ∀ (s : State) (win : BitVec 3) (addr v : Word) (owner : Fin 5) (core : Nat) (x : Fin 4) (n : Fin 8) (t : BitVec 5) (p : BitVec 3) (d : BitVec 2),
    let y := s.sys
    let w := vget y.pkg.wins win.toNat
    let o := vget y.pkg.owners owner
    let window (w : TileWindow) (y : Sys) : Sys := { y with pkg := { y.pkg with wins := vset y.pkg.wins win.toNat w } }
    let own (o : Owner) (y : Sys) : Sys := { y with pkg := { y.pkg with owners := vset y.pkg.owners owner o } }
    let ready : Prop := y.answers = true
    let tick (y : Sys) : Sys := { y with taken := y.taken + 1 }
    let time := 1 + Config.latency y.taken
    let page : Prop := bit v 62 = true ∨ fld v 48 14 ≠ 0
    let bound := if bit v 62 then 32832 else 64 + 2 * fld v 48 14
    (y.pkg.sec.ready = true →
      Becomes (.compareManifestStart win addr) s (fun y => window { w with cm := addr &&& 0xFFFFFFFFFFFFFFC0, cms := 0, cmDue := some (y.wcyc + time) } (tick y))) ∧
    (y.pkg.sec.ready = false → Idles (.compareManifestStart win addr) s) ∧
    (ready →
      (o.invDue = none → page → Becomes (.tlbInvalidate owner v) s fun y =>
        own { o with inv := v &&& 0x7FFFFFFFFFE00000, invDue := some (y.wcyc + Nat.min time bound) } (tick y)) ∧
      (o.invDue.isSome = true ∨ ¬ page → Idles (.tlbInvalidate owner v) s) ∧
      (y.pkg.pfq = [] → Idles .pfqpop s) ∧
      (∀ e rest, y.pkg.pfq = e :: rest → Becomes .pfqpop s fun y => { y with pkg := { y.pkg with pfq := rest, pfqHead := (y.pkg.pfqHead + 1) % 64 } }) ∧
      (∃ z, exec .replay s = .next z ∧ z.mem = s.mem ∧ z.sys.pkg.parked = [] ∧ z.sys.pkg.reported = [] ∧
        (∀ r ∈ z.sys.pkg.recs, r.parked = false) ∧ z.sys.pkg.recs.map (·.id) = y.pkg.recs.map (·.id) ∧ z.sys.agenda = y.agenda) ∧
      (fld v 24 8 = 2 → fld v 12 4 < 2 → (vget y.pkg.lodges d.toNat).frozen.getLsbD (fld v 12 4) = true → ∃ z, exec (.tthaw (.lodge d) v) s = .next z ∧ z.mem = s.mem ∧
        (vget z.sys.pkg.lodges d.toNat).frozen.getLsbD (fld v 12 4) = false) ∧
      (fld v 24 8 = 3 → Becomes (.tthaw .hub v) s fun y => { y with pkg := { y.pkg with frozenLinks := y.pkg.frozenLinks &&& 0xFFFF } }) ∧
      (fld v 24 8 = 4 → Becomes (.tthaw .hub v) s fun y =>
        { y with pkg := { y.pkg with frozenLinks := y.pkg.frozenLinks &&& ~~~((1 : BitVec 17) <<< fld v 12 4) } }) ∧
      (fld v 24 8 = 1 → (y.core (128 * p.toNat + fld v 16 7)).frozenCopy = true → ∃ z, exec (.tthaw (.arbour p) v) s = .next z ∧ z.mem = s.mem ∧
        (z.sys.core (128 * p.toNat + fld v 16 7)).frozenCopy = false) ∧
      (1 < fld v 24 8 → Idles (.tthaw (.arbour p) v) s)) ∧
    (¬ ready → Idles (.tlbInvalidate owner v) s ∧ Idles .pfqpop s ∧ Idles .replay s ∧ Idles (.tthaw .hub v) s) ∧
    (let r := y.readSpan s.mem 0 0 w.cm 128
     let waits : Prop := ∃ tr, r.2 = .error tr ∧ tr.cls = 0
     ∀ due, w.cmDue = some due → due ≤ y.wcyc → (waits → Becomes (.compareManifestDone win) s fun _ => r.1) ∧
      (¬ waits → ∃ z c, exec (.compareManifestDone win) s = .next z ∧ z.mem = s.mem ∧ (c = 0xC000000000000000 ∨ ∃ i, i < 16 ∧ c = BitVec.ofNat 64 (2 ^ 63 + i)) ∧ (vget z.sys.pkg.wins win.toNat) = { w with cms := c, cmDue := none })) ∧
    (w.cmDue = none → Idles (.compareManifestDone win) s) ∧
    (∀ due, o.invDue = some due → due ≤ y.wcyc → ∃ q, Becomes (.tlbInvalidateDone owner) s (own q) ∧ q.invDue = none ∧ q.ptb = o.ptb ∧
      (bit o.inv 62 = true → q.tlb = []) ∧ (∀ e ∈ q.tlb, e ∈ o.tlb)) ∧
    (o.invDue = none → Idles (.tlbInvalidateDone owner) s) ∧
    (core < 1024 → Becomes (.tileFaultRecordClear (.context core x)) s fun y => y.modCtx core x fun k => { k with tfr := Vector.replicate 4 0 }) ∧
    (ready → Becomes (.tileFaultRecordClear (.window win)) s (window { w with tfr := Vector.replicate 4 0 })) ∧
    (¬ ready → Idles (.tileFaultRecordClear (.window win)) s) ∧
    (core < 1024 → Becomes (.aowReadyClear core n t) s fun y => y.modCore core fun q =>
      let r := vget q.aow n
      { q with aow := vset q.aow n { r with ready := r.ready &&& ~~~((1 : W32) <<< t.toNat), counts := vset r.counts t.toNat 0, overrun := r.overrun &&& ~~~((1 : W32) <<< t.toNat) } })

/-! ## The host, power, and security -/

/-- A write through the inspection window: an access that is not a single aligned one of 8 or 4 bytes has no effect (outside the aperture); a write of RSTCTL, PWRCTL, PFQPOP, REPLAY, TLBINV, TTHAW, TKILL or CCMD has the effect of the row that names it, and a write of a window's control register sets its enable and priority; RSTCTL resets warm only with its key and `warm`, and otherwise keeps the key written; the record port of window 0 gathers the bytes an access carries, and the 64th makes a record (log 6). The pc of context 0 of core 0 takes a write while the context is idle, halted, faulted or frozen; before boot is complete only the device block answers, and a sealed device takes no write of the host but a window's comparison. A byte written through the aperture to a scratchpad is put at its write port last in its cycle (R5, R30, R254, R283, R284, R285, R348, R350, R351, R357). Accesses from outside by virtual address. Before boot is complete a read of the host's shared windows gives zeros, and neither they nor the span links let anything through, and a span link without an agreed key carries nothing (when a key is agreed is log 67); through a frozen link what has an answer is answered with an error (what a frozen host link stops is log 61). A host read that no shared window covers gives all ones, and a write that none covers, or that its window forbids, has no effect; a request of a span link that no peer window covers, or that writes where its window forbids it, is a violation of class 7, code 2, which freezes the link, is reported (word 1 of its entry is log 61) and ends with an error. What a window covers arrives at the virtual address that the window gives it, and is answered with its data, or waits for an invalidation with what is left of it (R276, R281, R285, R291, R312, R330). -/
def Obligations.HostAccesses : Prop :=
  (∀ (s : State) (off : BitVec 29) (v : Word) (be : BitVec 8) (core : Nat) (page : BitVec 16) (bytes : List Byte) (b : Byte),
     let y := s.sys
     let o := off.toNat
     let write : Instr := .registerWrite off v be
     let aperture : Prop := 0x4000000 ≤ o ∧ o < 0x14000000 ∧ 0x20000 ≤ (o - 0x4000000) % 0x40000 ∧ (o - 0x4000000) % 0x40000 < 0x30000
     let comparison : Prop := 0x1100000 ≤ o ∧ o < 0x1180000 ∧ o % 0x10000 = 0x130
     let warm : Prop := fld v 32 32 = 0x5A4A5253 ∧ bit v 0 = true
     let open_ : Prop := y.answers = true
     (o % 8 ≠ 0 → Idles write s) ∧ (be ≠ 0xFF → be ≠ 0x0F → be ≠ 0xF0 → ¬ aperture → Idles write s) ∧
     (o = 0x30 → be = 0xFF → warm → exec write s = exec .warmReset s) ∧
     (o = 0x30 → be = 0xFF → ¬ warm → y.pkg.pw.powered = true → Becomes write s fun y => { y with pkg := { y.pkg with rstKey := (v >>> 32).setWidth 32 } }) ∧
     (o = 0x30 → be = 0xFF → ¬ warm → y.pkg.pw.powered = false → Idles write s) ∧
     (o = 0x28 → be = 0xFF → exec write s = exec (.pwrctlWrite v) s) ∧
     (o = 0x1000808 → be = 0xFF → exec write s = exec .pfqpop s) ∧ (o = 0x1000810 → be = 0xFF → bit v 0 = true → exec write s = exec .replay s) ∧
     (o = 0x2000008 → be = 0xFF → exec write s = exec (.tlbInvalidate 0 v) s) ∧ (o = 0x2800308 → be = 0xFF → exec write s = exec (.tthaw .hub v) s) ∧
     (o = 0x403F008 → be = 0xFF → exec write s = exec (.tkill 0 v) s) ∧ (o = 0x403F010 → be = 0xFF → fld v 4 4 = 4 → exec write s = exec (.ccmdSave 0 (Fin.ofNat 4 (fld v 0 2))) s) ∧
     (o = 0x1100100 → be = 0xFF → open_ → Becomes write s fun y =>
       { y with pkg := { y.pkg with wins := vset y.pkg.wins 0 { (vget y.pkg.wins 0) with en := bit v 8, prio := fld v 0 3 } } }) ∧
     (0x1100000 ≤ o → o < 0x1100040 → o % 8 = 0 → be = 0xFF → open_ →
       let w := vget y.pkg.wins 0
       let bytes := w.part ++ leBytes 8 v.toNat
       let sets (w : TileWindow) (y : Sys) : Sys := { y with pkg := { y.pkg with wins := vset y.pkg.wins 0 w } }
       (w.part.length < 56 → Becomes write s (sets { w with part := bytes })) ∧
       (w.part.length = 56 → Becomes write s (sets
         { w with part := [], entries := if w.entries.length < 64 then w.entries ++ [.record (recordOf bytes)] else w.entries, ovf := w.ovf || decide (64 ≤ w.entries.length) }))) ∧
     (o = 0x4000000 → be = 0xFF → open_ →
       let k := y.ctx 0 0
       let still : Prop := k.state = .idle ∨ k.state = .halted ∨ k.state = .faulted ∨ k.state = .frozen
       (still → Becomes write s fun y => y.modCtx 0 0 fun k => { k with pc := v.setWidth 32 }) ∧ (¬ still → Idles write s)) ∧
     (0x10000 ≤ o → y.pkg.sec.ready = false → Idles write s) ∧ (0x10000 ≤ o → ¬ open_ → ¬ comparison → Idles write s) ∧
     (core < 1024 → ¬ open_ → Idles (.readbackApertureWrite core page bytes) s) ∧
     (core < 1024 → open_ → fld (y.core core).rbsel 0 4 = 0 → fld (y.core core).rbsel 16 16 < 32 → Becomes (.readbackApertureWrite core page [b]) s fun y =>
       { y with agenda := y.agenda ++ [{ core := core, ctx := fld (y.core core).rbsel 8 2, due := y.wcyc, phase := 10, ord := 32 * y.ord + 31,
                                         act := .put (scratchKey core (0x10000 * fld (y.core core).rbsel 16 16 + page.toNat)) 255 [b] }] })) ∧
  (∀ (s : State) (off : BitVec 36) (o : BitVec 48) (link : BitVec 4) (len : Nat) (data : Option (List Byte)) (op : PeerOp),
     let y := s.sys
     let host : PeerRequest := match data with | some d => .write d | none => .read len
     let shw : Instr := .sharedWindowAccess off len data
     let q : PeerRequest := match op with | .read => .read len | .write d => .write (d.take len) | .atom n uns v cmp => .atom n (len == 8) uns v cmp
     let peer : Instr := .peerRequest link o len op
     let posted (q : PeerRequest) : Prop := ∃ d, q = .write d
     let writes (q : PeerRequest) : Prop := ∀ n, q ≠ .read n
     let frozen (n : Nat) : Prop := y.pkg.frozenLinks.getLsbD n = true
     let on : Prop := y.pkg.pw.powered = true
     let ready : Prop := y.pkg.sec.ready = true
     let keyed : Prop := y.pkg.sec.linkKeys.getLsbD link.toNat = true
     let answers (n : Nat) (data : Option (List Byte)) (y : Sys) : Sys := { y with pkg := { y.pkg with completion := some { link := n, data := data } } }
     let ends (i : Instr) (n at_ : Nat) (q : PeerRequest) (va : Word) (fromHost : Bool) : Prop :=
       let r := y.arriveAt s.mem va q fromHost
       let becomes (z : Sys) : Prop := exec i s = .next { mem := s.mem.writeAll r.2.1, sys := z.mend r.2.1 }
       (∃ t, exec i s = .next t ∧ t.mem = s.mem.writeAll r.2.1) ∧
       (∀ bs, r.2.2 = .done bs → (posted q → becomes r.1) ∧ (¬ posted q → becomes (answers n (some bs) r.1))) ∧
       (∀ m, r.2.2 = .waits m → becomes { r.1 with retried := r.1.retried ++ [match q with | .write d => (n, at_ + m, .write (d.drop m)) | q => (n, at_, q)] })
     (y.pkg.pw.powered = false → Idles shw s) ∧
     (on → ¬ ready → (data = none → Becomes shw s (answers 16 (some (List.replicate len 0)))) ∧ (data.isSome = true → Idles shw s)) ∧
     (¬ ready ∨ ¬ keyed → Idles peer s) ∧
     (on → ready → frozen 16 → (data = none → Becomes shw s (answers 16 none)) ∧ (data.isSome = true → Idles shw s)) ∧
     (ready → keyed → frozen link.toNat → (¬ posted q → Becomes peer s (answers link.toNat none)) ∧ (posted q → Idles peer s)) ∧
     (on → ready → ¬ frozen 16 → shwOf y.pkg.shw off.toNat 8 = none →
       (data = none → Becomes shw s (answers 16 (some (List.replicate len 0xFF)))) ∧ (data.isSome = true → Idles shw s)) ∧
     (∀ w, on → ready → ¬ frozen 16 → shwOf y.pkg.shw off.toNat 8 = some w → data.isSome = true → bit w.1 62 = false → Idles shw s) ∧
     (ready → keyed → ¬ frozen link.toNat → (pwinOf y.pkg.pwin o.toNat 16 = none ∨ ∃ w, pwinOf y.pkg.pwin o.toNat 16 = some w ∧ writes q ∧ bit w.1 62 = false) →
       ∃ t, exec peer s = .next t ∧ t.mem = s.mem ∧ t.sys.pkg.frozenLinks.getLsbD link.toNat = true ∧
         (¬ posted q → t.sys.pkg.completion = some { link := link.toNat, data := none }) ∧
         (y.pkg.pfq.length < 64 → y.pkg.pfqNew = 0 → t.sys.pkg.pfq = y.pkg.pfq ++ [(faultWord0 false 7 2 0 0, BitVec.ofNat 64 (4 * 2 ^ 27), o.setWidth 64, 0)])) ∧
     (∀ w, on → ready → ¬ frozen 16 → shwOf y.pkg.shw off.toNat 8 = some w → data = none ∨ bit w.1 62 = true →
       ends shw 16 off.toNat host (w.2 + BitVec.ofNat 64 (off.toNat - fld w.1 21 15 * 2 ^ 21)) true) ∧
     (∀ w, ready → keyed → ¬ frozen link.toNat → pwinOf y.pkg.pwin o.toNat 16 = some w → ¬ writes q ∨ bit w.1 62 = true →
       ends peer link.toNat o.toNat q (w.2 + BitVec.ofNat 64 (o.toNat - fld w.1 21 27 * 2 ^ 21)) false))

/-- Power. A write of PWRCTL sets the limit and the divisor bound that are in range, and at the next tick boundary a divisor above the bound falls to it and sets `alarm`; with readings over a limit the divisor rises by one up to its bound, and reaching it sets `alarm`; with readings under both, while no trip is set, it falls by one, not below 1, and a throttling window closes; with readings over a limit a stall window of at least one cycle opens when no context drains, counts itself, and closes when its cycles are over; a trip sets `trip` and `alarm` and a window that stays; below 105 °C it is clear, and below 100 °C its window closes. Each change of the divisor, the alarm or the trip raises MSI-X vector 10. Where the readings do not say what an event says, at least 105 °C on a trip, a value below 100 °C on a clear (log 5) and free values within what the rule says of the others (log 68) are the model's (R12, R31, R270, R355, R356). -/
def Obligations.PowerEvents : Prop :=
  ∀ (s : State) (v : Word) (n : Nat),
    let y := s.sys
    let p := y.pkg.pw
    let tells (q : Power) : Bool := q.d != p.d || (q.alarm && !p.alarm) || (q.trip && !p.trip)
    let sets (q : Power) (y : Sys) : Sys := { y with pkg := { y.pkg with pw := q, msix := if tells q then y.pkg.msix ||| 0x400 else y.pkg.msix } }
    let quiet : Prop := ∀ g ∈ y.cores, ∀ k ∈ g.2.ctxs.toList, k.live = true → k.preq = false ∧ k.state ≠ .draining
    let limit := fld v 16 16
    let bound := fld v 0 3
    let count : BitVec 32 := if p.nstall = 0xFFFFFFFF then p.nstall else p.nstall + 1
    let took (q : Power) (y : Sys) : Sys := sets q { y with taken := y.taken + 1 }
    let measured (q : Power) : Prop := q = { p with pwr := q.pwr, tj := q.tj, tin := q.tin, tout := q.tout }
    let above (q : Power) : Prop := measured q ∧ (p.trip = false ∨ 1520 < p.tj → q.plim < q.pwr ∨ 1520 < q.tj)
    let all : List Instr := [.pwrctlWrite v, .divisorRaise, .divisorLower, .stallWindowOpen n, .thermalTrip]
    (p.powered = false → ∀ i ∈ all, Idles i s) ∧
    (p.powered = true →
      (y.heard = false → Idles (.pwrctlWrite v) s) ∧
      (y.heard = true → ∃ q, Becomes (.pwrctlWrite v) s (sets q) ∧ q.plim = (if 100 ≤ limit ∧ limit ≤ 420 then limit else p.plim) ∧ q.dmax = (if 1 ≤ bound ∧ bound ≤ 4 then bound else p.dmax) ∧
        q.d = p.d ∧ q.alarm = p.alarm ∧ q.trip = p.trip ∧ q.settle.d = Nat.min p.d q.dmax ∧ q.settle.alarm = (p.alarm || decide (q.dmax < p.d))) ∧
      (∃ q, above q ∧ Becomes .divisorRaise s (took (if p.d < p.dmax then { q with hot := 0, d := p.d + 1, alarm := p.alarm || p.d + 1 == p.dmax } else q))) ∧
      (p.trip = true → Idles .divisorLower s) ∧
      (p.trip = false → ∃ q, Becomes .divisorLower s (took q) ∧ (1 ≤ p.plim → 10 * q.pwr < 9 * p.plim ∧ q.tj < 1440) ∧
        q.d = (if 1 < p.d then p.d - 1 else p.d) ∧ q.stall = (p.stall && p.left.isNone) ∧ q.trip = false ∧ q.alarm = p.alarm) ∧
      (n ≠ 0 → quiet → p.stall = false → ∃ q, above q ∧ Becomes (.stallWindowOpen n) s (took { q with stall := true, nstall := count, left := some n })) ∧
      (n ≠ 0 → quiet → p.stall = true → ∃ q, above q ∧ Becomes (.stallWindowOpen n) s (took { q with left := p.left.map fun l => Nat.max l n })) ∧
      (n ≠ 0 → ¬ quiet → ∃ q w, above q ∧ Becomes (.stallWindowOpen n) s (took { q with pendingStall := some w }) ∧ (p.pendingStall = none → w = n)) ∧
      (n = 0 → Idles (.stallWindowOpen n) s) ∧
      (quiet → p.stall = false → ∃ t, exec .thermalTrip s = .next t ∧ t.mem = s.mem ∧
        t.sys.pkg.pw = { p with trip := true, alarm := true, tj := Nat.max p.tj 1680, stall := true, nstall := count, left := none } ∧
        (p.trip = false ∨ p.alarm = false → t.sys.pkg.msix = y.pkg.msix ||| 0x400))) ∧
    (p.stall = true → p.left = some 0 → Becomes .stallWindowClose s (sets { p with stall := false, left := none })) ∧
    (p.stall = false ∨ p.left ≠ some 0 → Idles .stallWindowClose s) ∧
    (let cleared : Prop := p.trip = true ∨ (p.stall = true ∧ p.left = none) ∨ p.pendingStall = some 0
     (cleared → 1600 ≤ p.tj → p.tj < 1680 → Becomes .tripClear s (sets { p with trip := false })) ∧
     (cleared → p.tj < 1600 ∨ 1680 ≤ p.tj → ∃ q, Becomes .tripClear s (took q) ∧ q.trip = false ∧ q.tj < 1600 ∧ (p.tj < 1600 → q.tj = p.tj) ∧ q.stall = (p.stall && p.left.isSome) ∧ q.d = p.d) ∧
     (¬ cleared → Idles .tripClear s))

/-- Resets. A cold reset, and a warm or function-level one of a powered device, leave every register of cores, contexts and package at its reset value, nothing under way and no byte listed in memory; the boot runs from phase 0, or from phase 1. The module that removes its own power is at reset and unpowered, and only a cold reset powers it again. A boot phase that completes is the next one, and the fifth makes the device ready; one that fails stops it with its error. A corrected error is counted; an uncorrectable one is counted and poisons its word, or strikes a controller's state: when that controller next reads it, class 11, code 4 is reported and its level accepts nothing further. When a controller reads is the model's reading (log 43). That memory reads as reset after a reset is the model's choice for HBM and the tier (log 1); that a warm or function-level reset begins at phase 1 is its reading (log 70) (R285, R289, R341, R348, R356). -/
def Obligations.ResetsAndBoot : Prop :=
  ∀ (s : State) (ok : Bool) (err : BitVec 8) (key n : Nat),
    let y := s.sys
    let anew (phase : Nat) (powered : Bool) (i : Instr) : Prop := ∃ t, exec i s = .next t ∧ t.mem = [] ∧ t.sys.cores = [] ∧ t.sys.mer = 0 ∧ t.sys.wcyc = 0 ∧ t.sys.run = 0 ∧
      t.sys.agenda = [] ∧ t.sys.flits = [] ∧ t.sys.events = [] ∧ t.sys.turn = [] ∧ t.sys.poison = [] ∧ t.sys.pkg = { sec := { phase := phase }, pw := { powered := powered } }
    let d := y.pkg.sec
    let boots : Prop := y.pkg.pw.powered = true ∧ d.fail = false ∧ d.phase < 5
    let counted (y : Sys) : Sys := { y with pkg := { y.pkg with serrUe := y.pkg.serrUe + 1 } }
    anew 0 true .coldReset ∧ anew 0 false .thermalPowerOff ∧
    (y.pkg.pw.powered = true → anew 1 true .warmReset ∧ anew 1 true .functionLevelReset) ∧
    (y.pkg.pw.powered = false → Idles .warmReset s ∧ Idles .functionLevelReset s) ∧
    (¬ boots → Idles (.bootPhaseComplete ok err) s) ∧
    (boots →
      (d.phase + 1 ≠ 4 → Becomes (.bootPhaseComplete true err) s fun y => { y with pkg := { y.pkg with sec := { d with phase := d.phase + 1, ready := d.phase + 1 == 5 } } }) ∧
      (d.phase + 1 = 4 → ∃ os, Becomes (.bootPhaseComplete true err) s (fun y => { y with pkg := { y.pkg with owners := os, sec := { d with phase := 4, ready := false } } }) ∧
        ∀ o, o < 5 → (vget os o).keyGen = (vget y.pkg.owners o).keyGen + 1 ∧ (vget os o).ptb = (vget y.pkg.owners o).ptb) ∧
      Becomes (.bootPhaseComplete false err) s fun y => { y with pkg := { y.pkg with sec := { d with phase := d.phase + 1, fail := true, err := err } } }) ∧
    (∀ site, Becomes (.softError site true) s fun y => { y with pkg := { y.pkg with serrCe := y.pkg.serrCe + 1 } }) ∧
    Becomes (.softError (.memory key) false) s (fun y => { counted y with poison := if y.poison.contains (key / 8) then y.poison else y.poison ++ [key / 8] }) ∧
    Becomes (.softError (.controller n) false) s (fun y =>
      { y with pkg := { y.pkg with serrUe := y.pkg.serrUe + 1, struck := if n ∈ y.pkg.struck then y.pkg.struck else y.pkg.struck ++ [n] } }) ∧
    (n ∈ y.pkg.struck → y.controls n = true → n ∈ y.controllerReads.pkg.deafLevels) ∧
    (y.pkg.struck = [n] → y.controls n = true → y.pkg.pfqNew = 0 → y.pkg.pfq.length < 64 → y.controllerReads.pkg.struck = [] ∧
      y.controllerReads.pkg.pfq = y.pkg.pfq ++ [(faultWord0 false 11 4 0 0, levelPath n, 0, 0)])

/-- Twidom's answers, on the mailbox and on each span link's channel, the one on which the message at hand arrives: each SPDM request that the exchange there so far allows moves it on and is answered, with a signature where the request asks for one; NEGOTIATE_ALGORITHMS names the four algorithms of the module, and FINISH on a span link agrees that link's key. Another request is answered with ERROR and changes nothing else; before its firmware has been checked Twidom answers nothing. The codes and the order of the exchange are SPDM's own (log 19); that FINISH on a span link is what agrees its key is the model's reading (log 67); signatures are free values (log 3) (R281, R285, R286, R287). -/
def Obligations.AttestationMessages : Prop :=
  ∀ (s : State) (slot : BitVec 3) (index : BitVec 8),
    let ch := s.sys.channels.headD .doe
    let y : Sys := { s.sys with channels := s.sys.channels.tail }
    let d := y.pkg.sec
    let n : Nat := match ch with | .span k => k.toNat | .doe => 16
    let x := vget d.sessions n
    let attests : Prop := y.pkg.pw.powered = true ∧ (1 ≤ d.phase ∨ d.fail = true)
    let tells (x : Session) (keys : BitVec 16) (y : Sys) : Sys := { y with pkg := { y.pkg with sec := { d with sessions := vset d.sessions n x, linkKeys := keys } } }
    let message (i : Instr) (allowed : Prop) (x' : Session) (keys : BitVec 16) (code : Nat) (signed : Bool) (algs : List Algorithm) : Prop :=
      (¬ attests → Becomes i s fun _ => y) ∧
      (attests → ¬ allowed → Becomes i s fun _ => tells { x with response := some { code := 0x7F } } d.linkKeys y) ∧
      (attests → allowed → ∃ a : Response, a.code = code ∧ a.signature.isSome = signed ∧ a.algorithms = algs ∧ Becomes i s fun _ =>
        tells { x' with response := some a } keys { y with taken := if signed then y.taken + 1 else y.taken })
    let agreed : BitVec 16 := match ch with | .span k => d.linkKeys ||| ((1 : BitVec 16) <<< k.toNat) | .doe => d.linkKeys
    message .getVersion True { x with version := true } d.linkKeys 0x04 false [] ∧
    message .getCapabilities (x.version = true) { x with capabilities := true } d.linkKeys 0x61 false [] ∧
    message .negotiateAlgorithms (x.capabilities = true) { x with algorithms := true } d.linkKeys 0x63 false [.mlDsa65, .shake256, .mlKem768, .aes256Gcm] ∧
    message .getDigests (x.algorithms = true) x d.linkKeys 0x01 false [] ∧
    message (.getCertificate slot) (x.algorithms = true ∧ slot = 0) x d.linkKeys 0x02 false [] ∧
    message (.challenge slot) (x.algorithms = true ∧ slot = 0) x d.linkKeys 0x03 true [] ∧
    message (.getMeasurements index) (x.algorithms = true ∧ (index.toNat ≤ 6 ∨ index = 0xFF)) x d.linkKeys 0x60 true [] ∧
    message .keyExchange (x.algorithms = true) { x with keyed := true } d.linkKeys 0x64 true [] ∧
    message .finish (x.keyed = true) { x with keyed := false, session := true } agreed 0x65 false [] ∧
    message .keyUpdate (x.session = true) x d.linkKeys 0x69 false [] ∧ message .heartbeat (x.session = true) x d.linkKeys 0x68 false []

/-- Sealing. A SEAL within a session, of an open device on which no task runs and every window is shut, starts the seal: SEALST.`state` is 1, the controllers are zeroed, every key is replaced, and the image is read from the memory that is left, at the address that the tables gave it until now. When the time of the seal is over, the image whose digest is the one given runs on the control cores and is the measurement, the device is sealed and its generation rises by one; otherwise it is open again. An UNSEAL within the session that sealed the device, that session's end and the loss of its heartbeat start the unseal: `state` is 3, every context is gone, the keys are new and the program is gone; when its time is over the device is open. The end of another session ends that session alone. IDE is as the key management leaves it. What answers a request is SPDM's form (log 19), and what the spec leaves open of a seal's steps is log 20 (R282, R288, R289, R290). -/
def Obligations.SealAndUnseal : Prop :=
  ∀ (s : State) (va : Word) (digest : BitVec 256) (size : Nat) (active : Bool),
    let ch := s.sys.channels.headD .doe
    let y : Sys := { s.sys with channels := s.sys.channels.tail }
    let d := y.pkg.sec
    let n : Nat := match ch with | .span k => k.toNat | .doe => 16
    let x := vget d.sessions n
    let attests : Prop := y.pkg.pw.powered = true ∧ (1 ≤ d.phase ∨ d.fail = true)
    let sealing : Instr := .seal va digest size
    let shut (w : Word) : Prop := bit w 63 = false
    let idle : Prop := (∀ g ∈ y.cores, ∀ k ∈ g.2.ctxs.toList, k.state = .idle) ∧ (∀ w ∈ y.pkg.wins.toList, w.en = false) ∧
      (∀ j, j < 16 → shut (vget y.pkg.hwin (2 * j)) ∧ shut (vget y.pkg.pwin (2 * j))) ∧ ∀ j, j < 8 → shut (vget y.pkg.shw (2 * j))
    let may : Prop := x.session = true ∧ y.pkg.opened = true ∧ idle
    let holds : Prop := (d.sealState = 1 ∨ d.sealState = 2) ∧ d.sealer = n
    let answered (i : Instr) (code : Nat) : Prop := Becomes i s fun _ =>
      { y with pkg := { y.pkg with sec := { d with sessions := vset d.sessions n { x with response := some { code := code } } } } }
    let emptied (t : State) : Prop := t.sys.cores = [] ∧ t.sys.agenda = [] ∧ t.sys.flits = [] ∧ t.sys.pkg.recs = [] ∧ t.sys.pkg.spreads = [] ∧
      (∀ o, o < 5 → (vget t.sys.pkg.owners o).keyGen = (vget y.pkg.owners o).keyGen + 1) ∧ ∀ c ∈ t.mem, c ∈ s.mem
    let opens (i : Instr) : Prop := ∃ t due, exec i s = .next t ∧ emptied t ∧ t.sys.pkg.sec.sealState = 3 ∧ t.sys.pkg.sec.gen = d.gen ∧ t.sys.pkg.sec.program = [] ∧
      t.sys.pkg.sec.sealing = none ∧ t.sys.pkg.sec.unsealing = some due ∧ y.wcyc < due
    let closes (i : Instr) : Prop := ∃ t, exec i s = .next t ∧ t.mem = s.mem ∧ t.sys.cores = y.cores ∧ t.sys.pkg.sec.sealState = d.sealState ∧
      (vget t.sys.pkg.sec.sessions n).session = false ∧ (vget t.sys.pkg.sec.sessions n).keyed = false
    (¬ attests → (∀ i ∈ [sealing, .unseal, .endSession, .heartbeatLoss], Becomes i s fun _ => y) ∧ Idles (.ideKeyManagement active) s) ∧
    (attests →
      (¬ may → answered sealing 0x7F) ∧
      (may → ∃ t job, exec sealing s = .next t ∧ emptied t ∧ t.sys.pkg.sec.sealState = 1 ∧ t.sys.pkg.sec.gen = d.gen ∧ t.sys.pkg.sec.sealer = n ∧
        t.sys.pkg.sec.sealing = some job ∧ y.wcyc < job.due ∧ job.digest = leBytes 32 digest.toNat ∧
        job.image = (match ((y.readSpan s.mem 0 0 va size).1.readSpan t.mem 0 0 va size).2 with | .ok bs => some bs | .error _ => none)) ∧
      (x.session = true → holds → opens .unseal ∧ opens .endSession ∧ opens .heartbeatLoss) ∧
      (x.session = false ∨ ¬ holds → answered .unseal 0x7F) ∧
      (x.session = false → answered .endSession 0x7F ∧ Becomes .heartbeatLoss s fun _ => y) ∧
      (x.session = true → ¬ holds → closes .endSession ∧ closes .heartbeatLoss) ∧
      Becomes (.ideKeyManagement active) s fun y => { y with pkg := { y.pkg with sec := { d with ide := active } } }) ∧
    (let z := y.settleSeal.pkg.sec
     (∀ job, d.sealing = some job →
       let good : Prop := ∃ bs, job.image = some bs ∧ shake256 bs = job.digest
       (y.wcyc < job.due → y.settleSeal = y) ∧
       (job.due ≤ y.wcyc → z.sealing = none ∧
         (good → z.sealState = 2 ∧ z.gen = d.gen + 1 ∧ z.measured = job.digest ∧ job.image = some z.program) ∧ (¬ good → z.sealState = 0 ∧ z.gen = d.gen))) ∧
     (∀ due, d.sealing = none → d.unsealing = some due →
       (y.wcyc < due → y.settleSeal = y) ∧ (due ≤ y.wcyc → z.sealState = 0 ∧ z.unsealing = none ∧ z.gen = d.gen)) ∧
     (d.sealing = none → d.unsealing = none → y.settleSeal = y))
end

