-- ==== Sys2Proof/Laws/Memory.lean ====
section
/-! SUPPORT. The laws of byte memory: its canonical form is kept, a read after a write, and what a write leaves. -/

namespace Sys2Proof.Machine

/-! ## The canonical form -/

theorem Memory.wfFrom_mono {lo lo' : Nat} {m : Memory} (h : Memory.wfFrom lo m = true) (le : lo' ≤ lo) : Memory.wfFrom lo' m = true := by
  cases m with
  | nil => rfl
  | cons c rest =>
    simp only [Memory.wfFrom, Bool.and_eq_true, decide_eq_true_eq] at h ⊢
    exact ⟨⟨by omega, h.1.2⟩, h.2⟩

theorem Memory.wfFrom_append {a b : Memory} {lo mid : Nat} (ha : Memory.wfFrom lo a = true) (hk : ∀ c ∈ a, c.1 < mid) (le : lo ≤ mid)
    (hb : Memory.wfFrom mid b = true) : Memory.wfFrom lo (a ++ b) = true := by
  induction a generalizing lo with
  | nil => exact Memory.wfFrom_mono hb le
  | cons c rest ih =>
    simp only [List.cons_append, Memory.wfFrom, Bool.and_eq_true, decide_eq_true_eq] at ha ⊢
    exact ⟨ha.1, ih ha.2 (fun d hd => hk d (List.mem_cons_of_mem _ hd)) (by have := hk c List.mem_cons_self; omega)⟩

theorem Memory.wfFrom_takeWhile {p : Host.Cell → Bool} {lo : Nat} {m : Memory} (h : Memory.wfFrom lo m = true) : Memory.wfFrom lo (m.takeWhile p) = true := by
  induction m generalizing lo with
  | nil => rfl
  | cons c rest ih =>
    simp only [Memory.wfFrom, Bool.and_eq_true, decide_eq_true_eq] at h
    rw [List.takeWhile_cons]
    split
    · simp only [Memory.wfFrom, Bool.and_eq_true, decide_eq_true_eq]
      exact ⟨h.1, ih h.2⟩
    · rfl

theorem Memory.wfFrom_dropBelow {n lo : Nat} {m : Memory} (h : Memory.wfFrom lo m = true) : Memory.wfFrom n (m.dropWhile fun c => c.1 < n) = true := by
  induction m generalizing lo with
  | nil => rfl
  | cons c rest ih =>
    simp only [Memory.wfFrom, Bool.and_eq_true, decide_eq_true_eq] at h
    rw [List.dropWhile_cons]
    split
    · exact ih h.2
    · rename_i hc
      simp only [decide_eq_true_eq, Nat.not_lt] at hc
      simp only [Memory.wfFrom, Bool.and_eq_true, decide_eq_true_eq]
      exact ⟨⟨hc, h.1.2⟩, h.2⟩

theorem Memory.wfFrom_cells (k : Nat) (bs : List Byte) : Memory.wfFrom k (Memory.cells k bs) = true := by
  induction bs generalizing k with
  | nil => rfl
  | cons b rest ih =>
    unfold Memory.cells
    split
    · exact Memory.wfFrom_mono (ih (k + 1)) (Nat.le_succ k)
    · rename_i hb
      simp only [Memory.wfFrom, Bool.and_eq_true, decide_eq_true_eq, bne_iff_ne, ne_eq]
      exact ⟨⟨Nat.le_refl k, hb⟩, ih (k + 1)⟩

theorem Memory.cells_keys (k : Nat) (bs : List Byte) : ∀ c ∈ Memory.cells k bs, k ≤ c.1 ∧ c.1 < k + bs.length := by
  induction bs generalizing k with
  | nil => intro c h; cases h
  | cons b rest ih =>
    intro c h
    unfold Memory.cells at h
    split at h
    · have := ih (k + 1) c h; simp only [List.length_cons]; omega
    · rcases List.mem_cons.mp h with e | h
      · subst e; simp
      · have := ih (k + 1) c h; simp only [List.length_cons]; omega

theorem Memory.takeBelow_keys {n : Nat} {m : Memory} : ∀ c ∈ m.takeWhile (fun c => c.1 < n), c.1 < n := by
  induction m with
  | nil => intro c h; cases h
  | cons d rest ih =>
    intro c h
    rw [List.takeWhile_cons] at h
    split at h
    · rename_i hd
      rcases List.mem_cons.mp h with e | h
      · subst e; simpa using hd
      · exact ih c h
    · cases h

/-- A write of bytes keeps the canonical form. -/
theorem Memory.put_wf {m : Memory} (h : m.wf = true) (k : Nat) (data : List Byte) : (m.put k data).wf = true := by
  unfold Memory.put Memory.wf
  rw [List.append_assoc]
  refine Memory.wfFrom_append (mid := k) (Memory.wfFrom_takeWhile h) Memory.takeBelow_keys (Nat.zero_le k) ?_
  exact Memory.wfFrom_append (mid := k + data.length) (Memory.wfFrom_cells k data) (fun c hc => (Memory.cells_keys k data c hc).2)
    (Nat.le_add_right _ _) (Memory.wfFrom_dropBelow h)

theorem Memory.write_wf {m : Memory} (h : m.wf = true) (w : Write) : (m.write w).wf = true := by
  cases w <;> exact Memory.put_wf h _ _

/-- The writes of a cycle keep the canonical form. -/
theorem Memory.writeAll_wf {m : Memory} (h : m.wf = true) (ws : List Write) : (m.writeAll ws).wf = true := by
  unfold Memory.writeAll
  induction ws generalizing m with
  | nil => exact h
  | cons w rest ih => exact ih (Memory.write_wf h w)

/-- Memory that keeps only some of its cells keeps the canonical form. -/
theorem Memory.filter_wf {m : Memory} (h : m.wf = true) (p : Host.Cell → Bool) : Memory.wf (m.filter p) = true := by
  unfold Memory.wf at h ⊢
  generalize 0 = lo at h ⊢
  induction m generalizing lo with
  | nil => rfl
  | cons c rest ih =>
    simp only [Memory.wfFrom, Bool.and_eq_true, decide_eq_true_eq] at h
    rw [List.filter_cons]
    split
    · simp only [Memory.wfFrom, Bool.and_eq_true, decide_eq_true_eq]
      exact ⟨h.1, ih _ h.2⟩
    · exact Memory.wfFrom_mono (ih _ h.2) (by omega)

/-! ## Reading -/

theorem Memory.get_of_absent {m : Memory} {a : Nat} (h : ∀ c ∈ m, c.1 ≠ a) : m.get a = 0 := by
  induction m with
  | nil => rfl
  | cons c rest ih =>
    unfold Memory.get
    rw [if_neg (h c List.mem_cons_self)]
    exact ih fun d hd => h d (List.mem_cons_of_mem _ hd)

theorem Memory.get_append_left {m n : Memory} {a : Nat} (h : ∀ c ∈ n, c.1 ≠ a) : Memory.get (m ++ n) a = m.get a := by
  induction m with
  | nil => simpa [Memory.get] using Memory.get_of_absent h
  | cons c rest ih => simp only [List.cons_append, Memory.get, ih]

theorem Memory.get_append_right {m n : Memory} {a : Nat} (h : ∀ c ∈ m, c.1 ≠ a) : Memory.get (m ++ n) a = n.get a := by
  induction m with
  | nil => rfl
  | cons c rest ih =>
    simp only [List.cons_append, Memory.get]
    rw [if_neg (h c List.mem_cons_self)]
    exact ih fun d hd => h d (List.mem_cons_of_mem _ hd)

theorem Memory.keys_from {lo : Nat} {m : Memory} (h : Memory.wfFrom lo m = true) : ∀ c ∈ m, lo ≤ c.1 := by
  induction m generalizing lo with
  | nil => intro c hc; cases hc
  | cons d rest ih =>
    intro c hc
    simp only [Memory.wfFrom, Bool.and_eq_true, decide_eq_true_eq] at h
    rcases List.mem_cons.mp hc with e | hc
    · subst e; exact h.1.1
    · have := ih h.2 c hc; omega

theorem Memory.get_takeBelow {m : Memory} {n a : Nat} {lo : Nat} (h : Memory.wfFrom lo m = true) (lt : a < n) :
    Memory.get (m.takeWhile fun c => c.1 < n) a = m.get a := by
  induction m generalizing lo with
  | nil => rfl
  | cons c rest ih =>
    simp only [Memory.wfFrom, Bool.and_eq_true, decide_eq_true_eq] at h
    rw [List.takeWhile_cons]
    split
    · simp only [Memory.get, ih h.2]
    · rename_i hc
      simp only [decide_eq_true_eq, Nat.not_lt] at hc
      have : Memory.get (c :: rest) a = 0 := by
        refine Memory.get_of_absent fun d hd => ?_
        rcases List.mem_cons.mp hd with e | hd
        · subst e; omega
        · have := Memory.keys_from h.2 d hd; omega
      rw [this]; rfl

theorem Memory.get_dropBelow {m : Memory} {n a : Nat} (le : n ≤ a) : Memory.get (m.dropWhile fun c => c.1 < n) a = m.get a := by
  induction m with
  | nil => rfl
  | cons c rest ih =>
    rw [List.dropWhile_cons]
    split
    · rename_i hc
      simp only [decide_eq_true_eq] at hc
      rw [ih]
      conv => rhs; unfold Memory.get
      rw [if_neg (by omega)]
    · rfl

theorem Memory.get_cells (k : Nat) (bs : List Byte) (i : Nat) (h : i < bs.length) : Memory.get (Memory.cells k bs) (k + i) = bs[i] := by
  induction bs generalizing k i with
  | nil => cases h
  | cons b rest ih =>
    have beyond : ∀ c ∈ Memory.cells (k + 1) rest, c.1 ≠ k := fun c hc => by have := (Memory.cells_keys (k + 1) rest c hc).1; omega
    cases i with
    | zero =>
      unfold Memory.cells
      split
      · rename_i hb; simpa [hb] using Memory.get_of_absent beyond
      · simp [Memory.get]
    | succ j =>
      have e : k + (j + 1) = k + 1 + j := by omega
      have := ih (k + 1) j (by simpa using h)
      unfold Memory.cells
      split
      · rw [e, this]; rfl
      · rw [e]; unfold Memory.get; rw [if_neg (by simp; omega), this]; rfl

/-- A byte that a write covers reads as written. -/
theorem Memory.get_put_inside {m : Memory} (w : m.wf = true) (k : Nat) (data : List Byte) (i : Nat) (h : i < data.length) :
    (m.put k data).get (k + i) = data[i] := by
  unfold Memory.put
  rw [List.append_assoc, Memory.get_append_right fun c hc => by have := Memory.takeBelow_keys c hc; omega,
    Memory.get_append_left fun c hc => by have := Memory.keys_from (Memory.wfFrom_dropBelow w) c hc; omega, Memory.get_cells k data i h]

/-- A byte outside a write reads as before. -/
theorem Memory.get_put_outside {m : Memory} (w : m.wf = true) (k : Nat) (data : List Byte) (a : Nat) (h : a < k ∨ k + data.length ≤ a) :
    (m.put k data).get a = m.get a := by
  unfold Memory.put
  rw [List.append_assoc]
  rcases h with lt | ge
  · rw [Memory.get_append_left fun c hc => ?_, Memory.get_takeBelow w lt]
    rcases List.mem_append.mp hc with hc | hc
    · have := (Memory.cells_keys k data c hc).1; omega
    · have := Memory.keys_from (Memory.wfFrom_dropBelow w) c hc; omega
  · rw [Memory.get_append_right fun c hc => by have := Memory.takeBelow_keys c hc; omega,
      Memory.get_append_right fun c hc => by have := (Memory.cells_keys k data c hc).2; omega, Memory.get_dropBelow ge]

/-- Two memories in canonical form that read alike are the same list. -/
theorem Memory.ext_of_get {m n : Memory} {lo : Nat} (hm : Memory.wfFrom lo m = true) (hn : Memory.wfFrom lo n = true) (h : ∀ a, m.get a = n.get a) : m = n := by
  induction m generalizing n lo with
  | nil =>
    cases n with
    | nil => rfl
    | cons d rest =>
      simp only [Memory.wfFrom, Bool.and_eq_true, bne_iff_ne, ne_eq] at hn
      have := h d.1
      simp only [Memory.get, if_true] at this
      exact absurd this.symm hn.1.2
  | cons c rest ih =>
    have hm' := hm
    simp only [Memory.wfFrom, Bool.and_eq_true, decide_eq_true_eq, bne_iff_ne, ne_eq] at hm
    cases n with
    | nil =>
      have := h c.1
      simp only [Memory.get, if_true] at this
      exact absurd this hm.1.2
    | cons d rest' =>
      have hn' := hn
      simp only [Memory.wfFrom, Bool.and_eq_true, decide_eq_true_eq, bne_iff_ne, ne_eq] at hn
      have zero {l : Memory} {k a : Nat} (w : Memory.wfFrom k l = true) (lt : a < k) : Memory.get l a = 0 :=
        Memory.get_of_absent fun e he => by have := Memory.keys_from w e he; omega
      have first : c.1 = d.1 := by
        rcases Nat.lt_trichotomy c.1 d.1 with lt | e | gt
        · have := h c.1
          simp only [Memory.get, if_true] at this
          rw [if_neg (by omega), zero hn.2 (by omega)] at this
          exact absurd this hm.1.2
        · exact e
        · have := h d.1
          simp only [Memory.get, if_true] at this
          rw [if_neg (by omega), zero hm.2 (by omega)] at this
          exact absurd this.symm hn.1.2
      have val : c.2 = d.2 := by have := h c.1; simpa [Memory.get, first] using this
      have : rest = rest' := ih hm.2 (first ▸ hn.2) fun a => by
        by_cases e : a = c.1
        · rw [e, zero hm.2 (Nat.lt_succ_self _), zero (first ▸ hn.2) (Nat.lt_succ_self _)]
        · have := h a
          simp only [Memory.get] at this
          rwa [if_neg (fun x => e x.symm), if_neg (fun x => e (x.symm.trans first.symm))] at this
      rw [this, Prod.ext first val]

end Sys2Proof.Machine
end

