-- ==== Sys2Proof/Laws/State.lean ====
section
/-! SUPPORT. What each update of the state leaves in each field, by definition. -/

namespace Sys2Proof.Machine

/-! ## A core replaced -/

@[simp] theorem Sys.setCore_mer (s : Sys) (g : Nat) (c : Core) : (s.setCore g c).mer = s.mer := rfl
@[simp] theorem Sys.setCore_wcyc (s : Sys) (g : Nat) (c : Core) : (s.setCore g c).wcyc = s.wcyc := rfl
@[simp] theorem Sys.setCore_run (s : Sys) (g : Nat) (c : Core) : (s.setCore g c).run = s.run := rfl
@[simp] theorem Sys.setCore_taken (s : Sys) (g : Nat) (c : Core) : (s.setCore g c).taken = s.taken := rfl
@[simp] theorem Sys.setCore_ord (s : Sys) (g : Nat) (c : Core) : (s.setCore g c).ord = s.ord := rfl
@[simp] theorem Sys.setCore_cores (s : Sys) (g : Nat) (c : Core) : (s.setCore g c).cores = insertCore g c s.cores := rfl
@[simp] theorem Sys.setCore_pkg (s : Sys) (g : Nat) (c : Core) : (s.setCore g c).pkg = s.pkg := rfl
@[simp] theorem Sys.setCore_agenda (s : Sys) (g : Nat) (c : Core) : (s.setCore g c).agenda = s.agenda := rfl
@[simp] theorem Sys.setCore_flits (s : Sys) (g : Nat) (c : Core) : (s.setCore g c).flits = s.flits := rfl
@[simp] theorem Sys.setCore_events (s : Sys) (g : Nat) (c : Core) : (s.setCore g c).events = s.events := rfl
@[simp] theorem Sys.setCore_turn (s : Sys) (g : Nat) (c : Core) : (s.setCore g c).turn = s.turn := rfl
@[simp] theorem Sys.setCore_inbox (s : Sys) (g : Nat) (c : Core) : (s.setCore g c).inbox = s.inbox := rfl
@[simp] theorem Sys.setCore_channels (s : Sys) (g : Nat) (c : Core) : (s.setCore g c).channels = s.channels := rfl
@[simp] theorem Sys.setCore_sensors (s : Sys) (g : Nat) (c : Core) : (s.setCore g c).sensors = s.sensors := rfl
@[simp] theorem Sys.setCore_control (s : Sys) (g : Nat) (c : Core) : (s.setCore g c).control = s.control := rfl
@[simp] theorem Sys.setCore_programmed (s : Sys) (g : Nat) (c : Core) : (s.setCore g c).programmed = s.programmed := rfl
@[simp] theorem Sys.setCore_byProgram (s : Sys) (g : Nat) (c : Core) : (s.setCore g c).byProgram = s.byProgram := rfl
@[simp] theorem Sys.setCore_retried (s : Sys) (g : Nat) (c : Core) : (s.setCore g c).retried = s.retried := rfl
@[simp] theorem Sys.setCore_cur (s : Sys) (g : Nat) (c : Core) : (s.setCore g c).cur = s.cur := rfl
@[simp] theorem Sys.setCore_stage (s : Sys) (g : Nat) (c : Core) : (s.setCore g c).stage = s.stage := rfl
@[simp] theorem Sys.setCore_stalled (s : Sys) (g : Nat) (c : Core) : (s.setCore g c).stalled = s.stalled := rfl
@[simp] theorem Sys.setCore_raised (s : Sys) (g : Nat) (c : Core) : (s.setCore g c).raised = s.raised := rfl
@[simp] theorem Sys.setCore_clears (s : Sys) (g : Nat) (c : Core) : (s.setCore g c).clears = s.clears := rfl
@[simp] theorem Sys.setCore_restore (s : Sys) (g : Nat) (c : Core) : (s.setCore g c).restore = s.restore := rfl
@[simp] theorem Sys.setCore_poison (s : Sys) (g : Nat) (c : Core) : (s.setCore g c).poison = s.poison := rfl
@[simp] theorem Sys.setCore_plainUnits (s : Sys) (g : Nat) (c : Core) : (s.setCore g c).plainUnits = s.plainUnits := rfl

/-! ## Something due -/

@[simp] theorem Sys.post_mer (s : Sys) (g x due phase ord : Nat) (a : Act) : (s.post g x due phase ord a).mer = s.mer := rfl
@[simp] theorem Sys.post_wcyc (s : Sys) (g x due phase ord : Nat) (a : Act) : (s.post g x due phase ord a).wcyc = s.wcyc := rfl
@[simp] theorem Sys.post_run (s : Sys) (g x due phase ord : Nat) (a : Act) : (s.post g x due phase ord a).run = s.run := rfl
@[simp] theorem Sys.post_taken (s : Sys) (g x due phase ord : Nat) (a : Act) : (s.post g x due phase ord a).taken = s.taken := rfl
@[simp] theorem Sys.post_ord (s : Sys) (g x due phase ord : Nat) (a : Act) : (s.post g x due phase ord a).ord = s.ord := rfl
@[simp] theorem Sys.post_cores (s : Sys) (g x due phase ord : Nat) (a : Act) : (s.post g x due phase ord a).cores = s.cores := rfl
@[simp] theorem Sys.post_pkg (s : Sys) (g x due phase ord : Nat) (a : Act) : (s.post g x due phase ord a).pkg = s.pkg := rfl
@[simp] theorem Sys.post_agenda (s : Sys) (g x due phase ord : Nat) (a : Act) : (s.post g x due phase ord a).agenda = s.agenda ++ [⟨g, x, due, phase, ord, a⟩] := rfl
@[simp] theorem Sys.post_flits (s : Sys) (g x due phase ord : Nat) (a : Act) : (s.post g x due phase ord a).flits = s.flits := rfl
@[simp] theorem Sys.post_events (s : Sys) (g x due phase ord : Nat) (a : Act) : (s.post g x due phase ord a).events = s.events := rfl
@[simp] theorem Sys.post_turn (s : Sys) (g x due phase ord : Nat) (a : Act) : (s.post g x due phase ord a).turn = s.turn := rfl
@[simp] theorem Sys.post_inbox (s : Sys) (g x due phase ord : Nat) (a : Act) : (s.post g x due phase ord a).inbox = s.inbox := rfl
@[simp] theorem Sys.post_channels (s : Sys) (g x due phase ord : Nat) (a : Act) : (s.post g x due phase ord a).channels = s.channels := rfl
@[simp] theorem Sys.post_sensors (s : Sys) (g x due phase ord : Nat) (a : Act) : (s.post g x due phase ord a).sensors = s.sensors := rfl
@[simp] theorem Sys.post_control (s : Sys) (g x due phase ord : Nat) (a : Act) : (s.post g x due phase ord a).control = s.control := rfl
@[simp] theorem Sys.post_programmed (s : Sys) (g x due phase ord : Nat) (a : Act) : (s.post g x due phase ord a).programmed = s.programmed := rfl
@[simp] theorem Sys.post_byProgram (s : Sys) (g x due phase ord : Nat) (a : Act) : (s.post g x due phase ord a).byProgram = s.byProgram := rfl
@[simp] theorem Sys.post_retried (s : Sys) (g x due phase ord : Nat) (a : Act) : (s.post g x due phase ord a).retried = s.retried := rfl
@[simp] theorem Sys.post_cur (s : Sys) (g x due phase ord : Nat) (a : Act) : (s.post g x due phase ord a).cur = s.cur := rfl
@[simp] theorem Sys.post_stage (s : Sys) (g x due phase ord : Nat) (a : Act) : (s.post g x due phase ord a).stage = s.stage := rfl
@[simp] theorem Sys.post_stalled (s : Sys) (g x due phase ord : Nat) (a : Act) : (s.post g x due phase ord a).stalled = s.stalled := rfl
@[simp] theorem Sys.post_raised (s : Sys) (g x due phase ord : Nat) (a : Act) : (s.post g x due phase ord a).raised = s.raised := rfl
@[simp] theorem Sys.post_clears (s : Sys) (g x due phase ord : Nat) (a : Act) : (s.post g x due phase ord a).clears = s.clears := rfl
@[simp] theorem Sys.post_restore (s : Sys) (g x due phase ord : Nat) (a : Act) : (s.post g x due phase ord a).restore = s.restore := rfl
@[simp] theorem Sys.post_poison (s : Sys) (g x due phase ord : Nat) (a : Act) : (s.post g x due phase ord a).poison = s.poison := rfl
@[simp] theorem Sys.post_plainUnits (s : Sys) (g x due phase ord : Nat) (a : Act) : (s.post g x due phase ord a).plainUnits = s.plainUnits := rfl

/-! ## A result that lands -/

@[simp] theorem Sys.land_mer (s : Sys) (n : Nat) (a : Act) : (s.land n a).mer = s.mer := rfl
@[simp] theorem Sys.land_wcyc (s : Sys) (n : Nat) (a : Act) : (s.land n a).wcyc = s.wcyc := rfl
@[simp] theorem Sys.land_run (s : Sys) (n : Nat) (a : Act) : (s.land n a).run = s.run := rfl
@[simp] theorem Sys.land_taken (s : Sys) (n : Nat) (a : Act) : (s.land n a).taken = s.taken := rfl
@[simp] theorem Sys.land_ord (s : Sys) (n : Nat) (a : Act) : (s.land n a).ord = s.ord := rfl
@[simp] theorem Sys.land_cores (s : Sys) (n : Nat) (a : Act) : (s.land n a).cores = s.cores := rfl
@[simp] theorem Sys.land_pkg (s : Sys) (n : Nat) (a : Act) : (s.land n a).pkg = s.pkg := rfl
@[simp] theorem Sys.land_agenda (s : Sys) (n : Nat) (a : Act) : (s.land n a).agenda = s.agenda ++ [⟨s.cur.core, s.cur.ctx, s.t + n, 0, s.cur.ord, a⟩] := rfl
@[simp] theorem Sys.land_flits (s : Sys) (n : Nat) (a : Act) : (s.land n a).flits = s.flits := rfl
@[simp] theorem Sys.land_events (s : Sys) (n : Nat) (a : Act) : (s.land n a).events = s.events := rfl
@[simp] theorem Sys.land_turn (s : Sys) (n : Nat) (a : Act) : (s.land n a).turn = s.turn := rfl
@[simp] theorem Sys.land_inbox (s : Sys) (n : Nat) (a : Act) : (s.land n a).inbox = s.inbox := rfl
@[simp] theorem Sys.land_channels (s : Sys) (n : Nat) (a : Act) : (s.land n a).channels = s.channels := rfl
@[simp] theorem Sys.land_sensors (s : Sys) (n : Nat) (a : Act) : (s.land n a).sensors = s.sensors := rfl
@[simp] theorem Sys.land_control (s : Sys) (n : Nat) (a : Act) : (s.land n a).control = s.control := rfl
@[simp] theorem Sys.land_programmed (s : Sys) (n : Nat) (a : Act) : (s.land n a).programmed = s.programmed := rfl
@[simp] theorem Sys.land_byProgram (s : Sys) (n : Nat) (a : Act) : (s.land n a).byProgram = s.byProgram := rfl
@[simp] theorem Sys.land_retried (s : Sys) (n : Nat) (a : Act) : (s.land n a).retried = s.retried := rfl
@[simp] theorem Sys.land_cur (s : Sys) (n : Nat) (a : Act) : (s.land n a).cur = s.cur := rfl
@[simp] theorem Sys.land_stage (s : Sys) (n : Nat) (a : Act) : (s.land n a).stage = s.stage := rfl
@[simp] theorem Sys.land_stalled (s : Sys) (n : Nat) (a : Act) : (s.land n a).stalled = s.stalled := rfl
@[simp] theorem Sys.land_raised (s : Sys) (n : Nat) (a : Act) : (s.land n a).raised = s.raised := rfl
@[simp] theorem Sys.land_clears (s : Sys) (n : Nat) (a : Act) : (s.land n a).clears = s.clears := rfl
@[simp] theorem Sys.land_restore (s : Sys) (n : Nat) (a : Act) : (s.land n a).restore = s.restore := rfl
@[simp] theorem Sys.land_poison (s : Sys) (n : Nat) (a : Act) : (s.land n a).poison = s.poison := rfl
@[simp] theorem Sys.land_plainUnits (s : Sys) (n : Nat) (a : Act) : (s.land n a).plainUnits = s.plainUnits := rfl

/-! ## An access that performs -/

@[simp] theorem Sys.perform_mer (s : Sys) (n phase : Nat) (a : Act) : (s.perform n phase a).mer = s.mer := rfl
@[simp] theorem Sys.perform_wcyc (s : Sys) (n phase : Nat) (a : Act) : (s.perform n phase a).wcyc = s.wcyc := rfl
@[simp] theorem Sys.perform_run (s : Sys) (n phase : Nat) (a : Act) : (s.perform n phase a).run = s.run := rfl
@[simp] theorem Sys.perform_taken (s : Sys) (n phase : Nat) (a : Act) : (s.perform n phase a).taken = s.taken := rfl
@[simp] theorem Sys.perform_ord (s : Sys) (n phase : Nat) (a : Act) : (s.perform n phase a).ord = s.ord := rfl
@[simp] theorem Sys.perform_cores (s : Sys) (n phase : Nat) (a : Act) : (s.perform n phase a).cores = s.cores := rfl
@[simp] theorem Sys.perform_pkg (s : Sys) (n phase : Nat) (a : Act) : (s.perform n phase a).pkg = s.pkg := rfl
@[simp] theorem Sys.perform_agenda (s : Sys) (n phase : Nat) (a : Act) : (s.perform n phase a).agenda = s.agenda ++ [⟨s.cur.core, s.cur.ctx, s.t + n, phase, s.cur.ord, a⟩] := rfl
@[simp] theorem Sys.perform_flits (s : Sys) (n phase : Nat) (a : Act) : (s.perform n phase a).flits = s.flits := rfl
@[simp] theorem Sys.perform_events (s : Sys) (n phase : Nat) (a : Act) : (s.perform n phase a).events = s.events := rfl
@[simp] theorem Sys.perform_turn (s : Sys) (n phase : Nat) (a : Act) : (s.perform n phase a).turn = s.turn := rfl
@[simp] theorem Sys.perform_inbox (s : Sys) (n phase : Nat) (a : Act) : (s.perform n phase a).inbox = s.inbox := rfl
@[simp] theorem Sys.perform_channels (s : Sys) (n phase : Nat) (a : Act) : (s.perform n phase a).channels = s.channels := rfl
@[simp] theorem Sys.perform_sensors (s : Sys) (n phase : Nat) (a : Act) : (s.perform n phase a).sensors = s.sensors := rfl
@[simp] theorem Sys.perform_control (s : Sys) (n phase : Nat) (a : Act) : (s.perform n phase a).control = s.control := rfl
@[simp] theorem Sys.perform_programmed (s : Sys) (n phase : Nat) (a : Act) : (s.perform n phase a).programmed = s.programmed := rfl
@[simp] theorem Sys.perform_byProgram (s : Sys) (n phase : Nat) (a : Act) : (s.perform n phase a).byProgram = s.byProgram := rfl
@[simp] theorem Sys.perform_retried (s : Sys) (n phase : Nat) (a : Act) : (s.perform n phase a).retried = s.retried := rfl
@[simp] theorem Sys.perform_cur (s : Sys) (n phase : Nat) (a : Act) : (s.perform n phase a).cur = s.cur := rfl
@[simp] theorem Sys.perform_stage (s : Sys) (n phase : Nat) (a : Act) : (s.perform n phase a).stage = s.stage := rfl
@[simp] theorem Sys.perform_stalled (s : Sys) (n phase : Nat) (a : Act) : (s.perform n phase a).stalled = s.stalled := rfl
@[simp] theorem Sys.perform_raised (s : Sys) (n phase : Nat) (a : Act) : (s.perform n phase a).raised = s.raised := rfl
@[simp] theorem Sys.perform_clears (s : Sys) (n phase : Nat) (a : Act) : (s.perform n phase a).clears = s.clears := rfl
@[simp] theorem Sys.perform_restore (s : Sys) (n phase : Nat) (a : Act) : (s.perform n phase a).restore = s.restore := rfl
@[simp] theorem Sys.perform_poison (s : Sys) (n phase : Nat) (a : Act) : (s.perform n phase a).poison = s.poison := rfl
@[simp] theorem Sys.perform_plainUnits (s : Sys) (n phase : Nat) (a : Act) : (s.perform n phase a).plainUnits = s.plainUnits := rfl

/-! ## An entry of the package fault queue -/

@[simp] theorem Sys.pfqAppend_mer (s : Sys) (e : Word × Word × Word × Word) : (s.pfqAppend e).mer = s.mer := rfl
@[simp] theorem Sys.pfqAppend_wcyc (s : Sys) (e : Word × Word × Word × Word) : (s.pfqAppend e).wcyc = s.wcyc := rfl
@[simp] theorem Sys.pfqAppend_run (s : Sys) (e : Word × Word × Word × Word) : (s.pfqAppend e).run = s.run := rfl
@[simp] theorem Sys.pfqAppend_taken (s : Sys) (e : Word × Word × Word × Word) : (s.pfqAppend e).taken = s.taken := rfl
@[simp] theorem Sys.pfqAppend_ord (s : Sys) (e : Word × Word × Word × Word) : (s.pfqAppend e).ord = s.ord := rfl
@[simp] theorem Sys.pfqAppend_cores (s : Sys) (e : Word × Word × Word × Word) : (s.pfqAppend e).cores = s.cores := rfl
@[simp] theorem Sys.pfqAppend_pkg (s : Sys) (e : Word × Word × Word × Word) : (s.pfqAppend e).pkg = s.pkg.pfqAppend e := rfl
@[simp] theorem Sys.pfqAppend_agenda (s : Sys) (e : Word × Word × Word × Word) : (s.pfqAppend e).agenda = s.agenda := rfl
@[simp] theorem Sys.pfqAppend_flits (s : Sys) (e : Word × Word × Word × Word) : (s.pfqAppend e).flits = s.flits := rfl
@[simp] theorem Sys.pfqAppend_events (s : Sys) (e : Word × Word × Word × Word) : (s.pfqAppend e).events = s.events := rfl
@[simp] theorem Sys.pfqAppend_turn (s : Sys) (e : Word × Word × Word × Word) : (s.pfqAppend e).turn = s.turn := rfl
@[simp] theorem Sys.pfqAppend_inbox (s : Sys) (e : Word × Word × Word × Word) : (s.pfqAppend e).inbox = s.inbox := rfl
@[simp] theorem Sys.pfqAppend_channels (s : Sys) (e : Word × Word × Word × Word) : (s.pfqAppend e).channels = s.channels := rfl
@[simp] theorem Sys.pfqAppend_sensors (s : Sys) (e : Word × Word × Word × Word) : (s.pfqAppend e).sensors = s.sensors := rfl
@[simp] theorem Sys.pfqAppend_control (s : Sys) (e : Word × Word × Word × Word) : (s.pfqAppend e).control = s.control := rfl
@[simp] theorem Sys.pfqAppend_programmed (s : Sys) (e : Word × Word × Word × Word) : (s.pfqAppend e).programmed = s.programmed := rfl
@[simp] theorem Sys.pfqAppend_byProgram (s : Sys) (e : Word × Word × Word × Word) : (s.pfqAppend e).byProgram = s.byProgram := rfl
@[simp] theorem Sys.pfqAppend_retried (s : Sys) (e : Word × Word × Word × Word) : (s.pfqAppend e).retried = s.retried := rfl
@[simp] theorem Sys.pfqAppend_cur (s : Sys) (e : Word × Word × Word × Word) : (s.pfqAppend e).cur = s.cur := rfl
@[simp] theorem Sys.pfqAppend_stage (s : Sys) (e : Word × Word × Word × Word) : (s.pfqAppend e).stage = s.stage := rfl
@[simp] theorem Sys.pfqAppend_stalled (s : Sys) (e : Word × Word × Word × Word) : (s.pfqAppend e).stalled = s.stalled := rfl
@[simp] theorem Sys.pfqAppend_raised (s : Sys) (e : Word × Word × Word × Word) : (s.pfqAppend e).raised = s.raised := rfl
@[simp] theorem Sys.pfqAppend_clears (s : Sys) (e : Word × Word × Word × Word) : (s.pfqAppend e).clears = s.clears := rfl
@[simp] theorem Sys.pfqAppend_restore (s : Sys) (e : Word × Word × Word × Word) : (s.pfqAppend e).restore = s.restore := rfl
@[simp] theorem Sys.pfqAppend_poison (s : Sys) (e : Word × Word × Word × Word) : (s.pfqAppend e).poison = s.poison := rfl
@[simp] theorem Sys.pfqAppend_plainUnits (s : Sys) (e : Word × Word × Word × Word) : (s.pfqAppend e).plainUnits = s.plainUnits := rfl

/-! ## A row due in this cycle -/

@[simp] theorem Sys.happens_mer (s : Sys) (i : Instr) : (s.happens i).mer = s.mer := rfl
@[simp] theorem Sys.happens_wcyc (s : Sys) (i : Instr) : (s.happens i).wcyc = s.wcyc := rfl
@[simp] theorem Sys.happens_run (s : Sys) (i : Instr) : (s.happens i).run = s.run := rfl
@[simp] theorem Sys.happens_taken (s : Sys) (i : Instr) : (s.happens i).taken = s.taken := rfl
@[simp] theorem Sys.happens_ord (s : Sys) (i : Instr) : (s.happens i).ord = s.ord := rfl
@[simp] theorem Sys.happens_cores (s : Sys) (i : Instr) : (s.happens i).cores = s.cores := rfl
@[simp] theorem Sys.happens_pkg (s : Sys) (i : Instr) : (s.happens i).pkg = s.pkg := rfl
@[simp] theorem Sys.happens_agenda (s : Sys) (i : Instr) : (s.happens i).agenda = s.agenda := rfl
@[simp] theorem Sys.happens_flits (s : Sys) (i : Instr) : (s.happens i).flits = s.flits := rfl
@[simp] theorem Sys.happens_events (s : Sys) (i : Instr) : (s.happens i).events = s.events ++ [i] := rfl
@[simp] theorem Sys.happens_turn (s : Sys) (i : Instr) : (s.happens i).turn = s.turn := rfl
@[simp] theorem Sys.happens_inbox (s : Sys) (i : Instr) : (s.happens i).inbox = s.inbox := rfl
@[simp] theorem Sys.happens_channels (s : Sys) (i : Instr) : (s.happens i).channels = s.channels := rfl
@[simp] theorem Sys.happens_sensors (s : Sys) (i : Instr) : (s.happens i).sensors = s.sensors := rfl
@[simp] theorem Sys.happens_control (s : Sys) (i : Instr) : (s.happens i).control = s.control := rfl
@[simp] theorem Sys.happens_programmed (s : Sys) (i : Instr) : (s.happens i).programmed = s.programmed := rfl
@[simp] theorem Sys.happens_byProgram (s : Sys) (i : Instr) : (s.happens i).byProgram = s.byProgram := rfl
@[simp] theorem Sys.happens_retried (s : Sys) (i : Instr) : (s.happens i).retried = s.retried := rfl
@[simp] theorem Sys.happens_cur (s : Sys) (i : Instr) : (s.happens i).cur = s.cur := rfl
@[simp] theorem Sys.happens_stage (s : Sys) (i : Instr) : (s.happens i).stage = s.stage := rfl
@[simp] theorem Sys.happens_stalled (s : Sys) (i : Instr) : (s.happens i).stalled = s.stalled := rfl
@[simp] theorem Sys.happens_raised (s : Sys) (i : Instr) : (s.happens i).raised = s.raised := rfl
@[simp] theorem Sys.happens_clears (s : Sys) (i : Instr) : (s.happens i).clears = s.clears := rfl
@[simp] theorem Sys.happens_restore (s : Sys) (i : Instr) : (s.happens i).restore = s.restore := rfl
@[simp] theorem Sys.happens_poison (s : Sys) (i : Instr) : (s.happens i).poison = s.poison := rfl
@[simp] theorem Sys.happens_plainUnits (s : Sys) (i : Instr) : (s.happens i).plainUnits = s.plainUnits := rfl

/-! ## A slot that ran -/

@[simp] theorem Sys.ran_mer (s : Sys) : (s.ran).mer = s.mer := rfl
@[simp] theorem Sys.ran_wcyc (s : Sys) : (s.ran).wcyc = s.wcyc := rfl
@[simp] theorem Sys.ran_run (s : Sys) : (s.ran).run = s.run := rfl
@[simp] theorem Sys.ran_taken (s : Sys) : (s.ran).taken = s.taken := rfl
@[simp] theorem Sys.ran_ord (s : Sys) : (s.ran).ord = s.ord := rfl
@[simp] theorem Sys.ran_cores (s : Sys) : (s.ran).cores = s.cores := rfl
@[simp] theorem Sys.ran_pkg (s : Sys) : (s.ran).pkg = s.pkg := rfl
@[simp] theorem Sys.ran_agenda (s : Sys) : (s.ran).agenda = s.agenda := rfl
@[simp] theorem Sys.ran_flits (s : Sys) : (s.ran).flits = s.flits := rfl
@[simp] theorem Sys.ran_events (s : Sys) : (s.ran).events = s.events := rfl
@[simp] theorem Sys.ran_turn (s : Sys) : (s.ran).turn = s.turn := rfl
@[simp] theorem Sys.ran_inbox (s : Sys) : (s.ran).inbox = s.inbox := rfl
@[simp] theorem Sys.ran_channels (s : Sys) : (s.ran).channels = s.channels := rfl
@[simp] theorem Sys.ran_sensors (s : Sys) : (s.ran).sensors = s.sensors := rfl
@[simp] theorem Sys.ran_control (s : Sys) : (s.ran).control = s.control := rfl
@[simp] theorem Sys.ran_programmed (s : Sys) : (s.ran).programmed = s.programmed := rfl
@[simp] theorem Sys.ran_byProgram (s : Sys) : (s.ran).byProgram = s.byProgram := rfl
@[simp] theorem Sys.ran_retried (s : Sys) : (s.ran).retried = s.retried := rfl
@[simp] theorem Sys.ran_cur (s : Sys) : (s.ran).cur = { s.cur with verdict := .ran } := rfl
@[simp] theorem Sys.ran_stage (s : Sys) : (s.ran).stage = s.stage := rfl
@[simp] theorem Sys.ran_stalled (s : Sys) : (s.ran).stalled = s.stalled := rfl
@[simp] theorem Sys.ran_raised (s : Sys) : (s.ran).raised = s.raised := rfl
@[simp] theorem Sys.ran_clears (s : Sys) : (s.ran).clears = s.clears := rfl
@[simp] theorem Sys.ran_restore (s : Sys) : (s.ran).restore = s.restore := rfl
@[simp] theorem Sys.ran_poison (s : Sys) : (s.ran).poison = s.poison := rfl
@[simp] theorem Sys.ran_plainUnits (s : Sys) : (s.ran).plainUnits = s.plainUnits := rfl

/-! ## A free value taken -/

@[simp] theorem Sys.freeValue_mer (s : Sys) : (s.freeValue.2).mer = s.mer := rfl
@[simp] theorem Sys.freeValue_wcyc (s : Sys) : (s.freeValue.2).wcyc = s.wcyc := rfl
@[simp] theorem Sys.freeValue_run (s : Sys) : (s.freeValue.2).run = s.run := rfl
@[simp] theorem Sys.freeValue_taken (s : Sys) : (s.freeValue.2).taken = s.taken + 1 := rfl
@[simp] theorem Sys.freeValue_ord (s : Sys) : (s.freeValue.2).ord = s.ord := rfl
@[simp] theorem Sys.freeValue_cores (s : Sys) : (s.freeValue.2).cores = s.cores := rfl
@[simp] theorem Sys.freeValue_pkg (s : Sys) : (s.freeValue.2).pkg = s.pkg := rfl
@[simp] theorem Sys.freeValue_agenda (s : Sys) : (s.freeValue.2).agenda = s.agenda := rfl
@[simp] theorem Sys.freeValue_flits (s : Sys) : (s.freeValue.2).flits = s.flits := rfl
@[simp] theorem Sys.freeValue_events (s : Sys) : (s.freeValue.2).events = s.events := rfl
@[simp] theorem Sys.freeValue_turn (s : Sys) : (s.freeValue.2).turn = s.turn := rfl
@[simp] theorem Sys.freeValue_inbox (s : Sys) : (s.freeValue.2).inbox = s.inbox := rfl
@[simp] theorem Sys.freeValue_channels (s : Sys) : (s.freeValue.2).channels = s.channels := rfl
@[simp] theorem Sys.freeValue_sensors (s : Sys) : (s.freeValue.2).sensors = s.sensors := rfl
@[simp] theorem Sys.freeValue_control (s : Sys) : (s.freeValue.2).control = s.control := rfl
@[simp] theorem Sys.freeValue_programmed (s : Sys) : (s.freeValue.2).programmed = s.programmed := rfl
@[simp] theorem Sys.freeValue_byProgram (s : Sys) : (s.freeValue.2).byProgram = s.byProgram := rfl
@[simp] theorem Sys.freeValue_retried (s : Sys) : (s.freeValue.2).retried = s.retried := rfl
@[simp] theorem Sys.freeValue_cur (s : Sys) : (s.freeValue.2).cur = s.cur := rfl
@[simp] theorem Sys.freeValue_stage (s : Sys) : (s.freeValue.2).stage = s.stage := rfl
@[simp] theorem Sys.freeValue_stalled (s : Sys) : (s.freeValue.2).stalled = s.stalled := rfl
@[simp] theorem Sys.freeValue_raised (s : Sys) : (s.freeValue.2).raised = s.raised := rfl
@[simp] theorem Sys.freeValue_clears (s : Sys) : (s.freeValue.2).clears = s.clears := rfl
@[simp] theorem Sys.freeValue_restore (s : Sys) : (s.freeValue.2).restore = s.restore := rfl
@[simp] theorem Sys.freeValue_poison (s : Sys) : (s.freeValue.2).poison = s.poison := rfl
@[simp] theorem Sys.freeValue_plainUnits (s : Sys) : (s.freeValue.2).plainUnits = s.plainUnits := rfl

/-! ## An off-core time taken -/

@[simp] theorem Sys.latency_mer (s : Sys) : (s.latency.2).mer = s.mer := rfl
@[simp] theorem Sys.latency_wcyc (s : Sys) : (s.latency.2).wcyc = s.wcyc := rfl
@[simp] theorem Sys.latency_run (s : Sys) : (s.latency.2).run = s.run := rfl
@[simp] theorem Sys.latency_taken (s : Sys) : (s.latency.2).taken = s.taken + 1 := rfl
@[simp] theorem Sys.latency_ord (s : Sys) : (s.latency.2).ord = s.ord := rfl
@[simp] theorem Sys.latency_cores (s : Sys) : (s.latency.2).cores = s.cores := rfl
@[simp] theorem Sys.latency_pkg (s : Sys) : (s.latency.2).pkg = s.pkg := rfl
@[simp] theorem Sys.latency_agenda (s : Sys) : (s.latency.2).agenda = s.agenda := rfl
@[simp] theorem Sys.latency_flits (s : Sys) : (s.latency.2).flits = s.flits := rfl
@[simp] theorem Sys.latency_events (s : Sys) : (s.latency.2).events = s.events := rfl
@[simp] theorem Sys.latency_turn (s : Sys) : (s.latency.2).turn = s.turn := rfl
@[simp] theorem Sys.latency_inbox (s : Sys) : (s.latency.2).inbox = s.inbox := rfl
@[simp] theorem Sys.latency_channels (s : Sys) : (s.latency.2).channels = s.channels := rfl
@[simp] theorem Sys.latency_sensors (s : Sys) : (s.latency.2).sensors = s.sensors := rfl
@[simp] theorem Sys.latency_control (s : Sys) : (s.latency.2).control = s.control := rfl
@[simp] theorem Sys.latency_programmed (s : Sys) : (s.latency.2).programmed = s.programmed := rfl
@[simp] theorem Sys.latency_byProgram (s : Sys) : (s.latency.2).byProgram = s.byProgram := rfl
@[simp] theorem Sys.latency_retried (s : Sys) : (s.latency.2).retried = s.retried := rfl
@[simp] theorem Sys.latency_cur (s : Sys) : (s.latency.2).cur = s.cur := rfl
@[simp] theorem Sys.latency_stage (s : Sys) : (s.latency.2).stage = s.stage := rfl
@[simp] theorem Sys.latency_stalled (s : Sys) : (s.latency.2).stalled = s.stalled := rfl
@[simp] theorem Sys.latency_raised (s : Sys) : (s.latency.2).raised = s.raised := rfl
@[simp] theorem Sys.latency_clears (s : Sys) : (s.latency.2).clears = s.clears := rfl
@[simp] theorem Sys.latency_restore (s : Sys) : (s.latency.2).restore = s.restore := rfl
@[simp] theorem Sys.latency_poison (s : Sys) : (s.latency.2).poison = s.poison := rfl
@[simp] theorem Sys.latency_plainUnits (s : Sys) : (s.latency.2).plainUnits = s.plainUnits := rfl

/-! ## A context replaced -/

@[simp] theorem Core.setCtx_ctxs (c : Core) (x : Nat) (k : Ctx) : (c.setCtx x k).ctxs = vset c.ctxs x k := rfl
@[simp] theorem Core.setCtx_sel (c : Core) (x : Nat) (k : Ctx) : (c.setCtx x k).sel = c.sel := rfl
@[simp] theorem Core.setCtx_lane (c : Core) (x : Nat) (k : Ctx) : (c.setCtx x k).lane = c.lane := rfl
@[simp] theorem Core.setCtx_cmds (c : Core) (x : Nat) (k : Ctx) : (c.setCtx x k).cmds = c.cmds := rfl
@[simp] theorem Core.setCtx_free (c : Core) (x : Nat) (k : Ctx) : (c.setCtx x k).free = c.free := rfl
@[simp] theorem Core.setCtx_oslt (c : Core) (x : Nat) (k : Ctx) : (c.setCtx x k).oslt = c.oslt := rfl
@[simp] theorem Core.setCtx_osltPending (c : Core) (x : Nat) (k : Ctx) : (c.setCtx x k).osltPending = c.osltPending := rfl
@[simp] theorem Core.setCtx_aow (c : Core) (x : Nat) (k : Ctx) : (c.setCtx x k).aow = c.aow := rfl
@[simp] theorem Core.setCtx_rbsel (c : Core) (x : Nat) (k : Ctx) : (c.setCtx x k).rbsel = c.rbsel := rfl
@[simp] theorem Core.setCtx_ccmd (c : Core) (x : Nat) (k : Ctx) : (c.setCtx x k).ccmd = c.ccmd := rfl
@[simp] theorem Core.setCtx_frozenCopy (c : Core) (x : Nat) (k : Ctx) : (c.setCtx x k).frozenCopy = c.frozenCopy := rfl
@[simp] theorem Core.setCtx_orrHeld (c : Core) (x : Nat) (k : Ctx) : (c.setCtx x k).orrHeld = c.orrHeld := rfl

/-! ## A taken transfer -/

@[simp] theorem Ctx.jump_regs (k : Ctx) (a : W32) (t : Nat) : (k.jump a t).regs = k.regs := rfl
@[simp] theorem Ctx.jump_pc (k : Ctx) (a : W32) (t : Nat) : (k.jump a t).pc = a := rfl
@[simp] theorem Ctx.jump_state (k : Ctx) (a : W32) (t : Nat) : (k.jump a t).state = k.state := rfl
@[simp] theorem Ctx.jump_preq (k : Ctx) (a : W32) (t : Nat) : (k.jump a t).preq = k.preq := rfl
@[simp] theorem Ctx.jump_timed (k : Ctx) (a : W32) (t : Nat) : (k.jump a t).timed = k.timed := rfl
@[simp] theorem Ctx.jump_csab (k : Ctx) (a : W32) (t : Nat) : (k.jump a t).csab = k.csab := rfl
@[simp] theorem Ctx.jump_tvecEn (k : Ctx) (a : W32) (t : Nat) : (k.jump a t).tvecEn = k.tvecEn := rfl
@[simp] theorem Ctx.jump_tvecAddr (k : Ctx) (a : W32) (t : Nat) : (k.jump a t).tvecAddr = k.tvecAddr := rfl
@[simp] theorem Ctx.jump_epcInh (k : Ctx) (a : W32) (t : Nat) : (k.jump a t).epcInh = k.epcInh := rfl
@[simp] theorem Ctx.jump_epcRet (k : Ctx) (a : W32) (t : Nat) : (k.jump a t).epcRet = k.epcRet := rfl
@[simp] theorem Ctx.jump_causeClass (k : Ctx) (a : W32) (t : Nat) : (k.jump a t).causeClass = k.causeClass := rfl
@[simp] theorem Ctx.jump_causeCode (k : Ctx) (a : W32) (t : Nat) : (k.jump a t).causeCode = k.causeCode := rfl
@[simp] theorem Ctx.jump_far (k : Ctx) (a : W32) (t : Nat) : (k.jump a t).far = k.far := rfl
@[simp] theorem Ctx.jump_fga (k : Ctx) (a : W32) (t : Nat) : (k.jump a t).fga = k.fga := rfl
@[simp] theorem Ctx.jump_region (k : Ctx) (a : W32) (t : Nat) : (k.jump a t).region = k.region := rfl
@[simp] theorem Ctx.jump_bodyElapsed (k : Ctx) (a : W32) (t : Nat) : (k.jump a t).bodyElapsed = k.bodyElapsed := rfl
@[simp] theorem Ctx.jump_tstm (k : Ctx) (a : W32) (t : Nat) : (k.jump a t).tstm = k.tstm := rfl
@[simp] theorem Ctx.jump_sbTag (k : Ctx) (a : W32) (t : Nat) : (k.jump a t).sbTag = k.sbTag := rfl
@[simp] theorem Ctx.jump_sbBy (k : Ctx) (a : W32) (t : Nat) : (k.jump a t).sbBy = k.sbBy := rfl
@[simp] theorem Ctx.jump_tfr (k : Ctx) (a : W32) (t : Nat) : (k.jump a t).tfr = k.tfr := rfl
@[simp] theorem Ctx.jump_drift (k : Ctx) (a : W32) (t : Nat) : (k.jump a t).drift = k.drift := rfl
@[simp] theorem Ctx.jump_dfault (k : Ctx) (a : W32) (t : Nat) : (k.jump a t).dfault = k.dfault := rfl
@[simp] theorem Ctx.jump_driftLimit (k : Ctx) (a : W32) (t : Nat) : (k.jump a t).driftLimit = k.driftLimit := rfl
@[simp] theorem Ctx.jump_sweep (k : Ctx) (a : W32) (t : Nat) : (k.jump a t).sweep = k.sweep := rfl
@[simp] theorem Ctx.jump_probe (k : Ctx) (a : W32) (t : Nat) : (k.jump a t).probe = k.probe := rfl
@[simp] theorem Ctx.jump_probeVa (k : Ctx) (a : W32) (t : Nat) : (k.jump a t).probeVa = k.probeVa := rfl
@[simp] theorem Ctx.jump_probeDue (k : Ctx) (a : W32) (t : Nat) : (k.jump a t).probeDue = k.probeDue := rfl
@[simp] theorem Ctx.jump_eph (k : Ctx) (a : W32) (t : Nat) : (k.jump a t).eph = k.eph := rfl
@[simp] theorem Ctx.jump_moving (k : Ctx) (a : W32) (t : Nat) : (k.jump a t).moving = k.moving := rfl
@[simp] theorem Ctx.jump_sponge (k : Ctx) (a : W32) (t : Nat) : (k.jump a t).sponge = k.sponge := rfl
@[simp] theorem Ctx.jump_digesting (k : Ctx) (a : W32) (t : Nat) : (k.jump a t).digesting = k.digesting := rfl
@[simp] theorem Ctx.jump_task (k : Ctx) (a : W32) (t : Nat) : (k.jump a t).task = k.task := rfl
@[simp] theorem Ctx.jump_win (k : Ctx) (a : W32) (t : Nat) : (k.jump a t).win = k.win := rfl
@[simp] theorem Ctx.jump_deferred (k : Ctx) (a : W32) (t : Nat) : (k.jump a t).deferred = k.deferred := rfl
@[simp] theorem Ctx.jump_killed (k : Ctx) (a : W32) (t : Nat) : (k.jump a t).killed = k.killed := rfl
@[simp] theorem Ctx.jump_readyAt (k : Ctx) (a : W32) (t : Nat) : (k.jump a t).readyAt = t + 2 := rfl
@[simp] theorem Ctx.jump_bars (k : Ctx) (a : W32) (t : Nat) : (k.jump a t).bars = k.bars := rfl
@[simp] theorem Ctx.jump_barWait (k : Ctx) (a : W32) (t : Nat) : (k.jump a t).barWait = k.barWait := rfl
@[simp] theorem Ctx.jump_barOrd (k : Ctx) (a : W32) (t : Nat) : (k.jump a t).barOrd = k.barOrd := rfl
@[simp] theorem Ctx.jump_barArrived (k : Ctx) (a : W32) (t : Nat) : (k.jump a t).barArrived = k.barArrived := rfl
@[simp] theorem Ctx.jump_fences (k : Ctx) (a : W32) (t : Nat) : (k.jump a t).fences = k.fences := rfl
@[simp] theorem Ctx.jump_boundary (k : Ctx) (a : W32) (t : Nat) : (k.jump a t).boundary = k.boundary := rfl
@[simp] theorem Ctx.jump_held (k : Ctx) (a : W32) (t : Nat) : (k.jump a t).held = k.held := rfl
@[simp] theorem Ctx.jump_stalling (k : Ctx) (a : W32) (t : Nat) : (k.jump a t).stalling = k.stalling := rfl
@[simp] theorem Ctx.jump_ended (k : Ctx) (a : W32) (t : Nat) : (k.jump a t).ended = k.ended := rfl
@[simp] theorem Ctx.jump_haltTick (k : Ctx) (a : W32) (t : Nat) : (k.jump a t).haltTick = k.haltTick := rfl
@[simp] theorem Ctx.jump_parked (k : Ctx) (a : W32) (t : Nat) : (k.jump a t).parked = k.parked := rfl
@[simp] theorem Ctx.jump_suspended (k : Ctx) (a : W32) (t : Nat) : (k.jump a t).suspended = k.suspended := rfl
@[simp] theorem Ctx.jump_asideAt (k : Ctx) (a : W32) (t : Nat) : (k.jump a t).asideAt = k.asideAt := rfl
@[simp] theorem Ctx.jump_asideMer (k : Ctx) (a : W32) (t : Nat) : (k.jump a t).asideMer = k.asideMer := rfl
@[simp] theorem Ctx.jump_laneUntil (k : Ctx) (a : W32) (t : Nat) : (k.jump a t).laneUntil = k.laneUntil := rfl
@[simp] theorem Ctx.jump_mid (k : Ctx) (a : W32) (t : Nat) : (k.jump a t).mid = k.mid := rfl
@[simp] theorem Ctx.jump_yielded (k : Ctx) (a : W32) (t : Nat) : (k.jump a t).yielded = k.yielded := rfl
@[simp] theorem Ctx.jump_relReq (k : Ctx) (a : W32) (t : Nat) : (k.jump a t).relReq = k.relReq := rfl

/-! ## A cause -/

@[simp] theorem Ctx.setCause_regs (k : Ctx) (cls code : Nat) : (k.setCause cls code).regs = k.regs := rfl
@[simp] theorem Ctx.setCause_pc (k : Ctx) (cls code : Nat) : (k.setCause cls code).pc = k.pc := rfl
@[simp] theorem Ctx.setCause_state (k : Ctx) (cls code : Nat) : (k.setCause cls code).state = k.state := rfl
@[simp] theorem Ctx.setCause_preq (k : Ctx) (cls code : Nat) : (k.setCause cls code).preq = k.preq := rfl
@[simp] theorem Ctx.setCause_timed (k : Ctx) (cls code : Nat) : (k.setCause cls code).timed = k.timed := rfl
@[simp] theorem Ctx.setCause_csab (k : Ctx) (cls code : Nat) : (k.setCause cls code).csab = k.csab := rfl
@[simp] theorem Ctx.setCause_tvecEn (k : Ctx) (cls code : Nat) : (k.setCause cls code).tvecEn = k.tvecEn := rfl
@[simp] theorem Ctx.setCause_tvecAddr (k : Ctx) (cls code : Nat) : (k.setCause cls code).tvecAddr = k.tvecAddr := rfl
@[simp] theorem Ctx.setCause_epcInh (k : Ctx) (cls code : Nat) : (k.setCause cls code).epcInh = k.epcInh := rfl
@[simp] theorem Ctx.setCause_epcRet (k : Ctx) (cls code : Nat) : (k.setCause cls code).epcRet = k.epcRet := rfl
@[simp] theorem Ctx.setCause_causeClass (k : Ctx) (cls code : Nat) : (k.setCause cls code).causeClass = BitVec.ofNat 8 cls := rfl
@[simp] theorem Ctx.setCause_causeCode (k : Ctx) (cls code : Nat) : (k.setCause cls code).causeCode = BitVec.ofNat 16 code := rfl
@[simp] theorem Ctx.setCause_far (k : Ctx) (cls code : Nat) : (k.setCause cls code).far = k.far := rfl
@[simp] theorem Ctx.setCause_fga (k : Ctx) (cls code : Nat) : (k.setCause cls code).fga = k.fga := rfl
@[simp] theorem Ctx.setCause_region (k : Ctx) (cls code : Nat) : (k.setCause cls code).region = k.region := rfl
@[simp] theorem Ctx.setCause_bodyElapsed (k : Ctx) (cls code : Nat) : (k.setCause cls code).bodyElapsed = k.bodyElapsed := rfl
@[simp] theorem Ctx.setCause_tstm (k : Ctx) (cls code : Nat) : (k.setCause cls code).tstm = k.tstm := rfl
@[simp] theorem Ctx.setCause_sbTag (k : Ctx) (cls code : Nat) : (k.setCause cls code).sbTag = k.sbTag := rfl
@[simp] theorem Ctx.setCause_sbBy (k : Ctx) (cls code : Nat) : (k.setCause cls code).sbBy = k.sbBy := rfl
@[simp] theorem Ctx.setCause_tfr (k : Ctx) (cls code : Nat) : (k.setCause cls code).tfr = k.tfr := rfl
@[simp] theorem Ctx.setCause_drift (k : Ctx) (cls code : Nat) : (k.setCause cls code).drift = k.drift := rfl
@[simp] theorem Ctx.setCause_dfault (k : Ctx) (cls code : Nat) : (k.setCause cls code).dfault = k.dfault := rfl
@[simp] theorem Ctx.setCause_driftLimit (k : Ctx) (cls code : Nat) : (k.setCause cls code).driftLimit = k.driftLimit := rfl
@[simp] theorem Ctx.setCause_sweep (k : Ctx) (cls code : Nat) : (k.setCause cls code).sweep = k.sweep := rfl
@[simp] theorem Ctx.setCause_probe (k : Ctx) (cls code : Nat) : (k.setCause cls code).probe = k.probe := rfl
@[simp] theorem Ctx.setCause_probeVa (k : Ctx) (cls code : Nat) : (k.setCause cls code).probeVa = k.probeVa := rfl
@[simp] theorem Ctx.setCause_probeDue (k : Ctx) (cls code : Nat) : (k.setCause cls code).probeDue = k.probeDue := rfl
@[simp] theorem Ctx.setCause_eph (k : Ctx) (cls code : Nat) : (k.setCause cls code).eph = k.eph := rfl
@[simp] theorem Ctx.setCause_moving (k : Ctx) (cls code : Nat) : (k.setCause cls code).moving = k.moving := rfl
@[simp] theorem Ctx.setCause_sponge (k : Ctx) (cls code : Nat) : (k.setCause cls code).sponge = k.sponge := rfl
@[simp] theorem Ctx.setCause_digesting (k : Ctx) (cls code : Nat) : (k.setCause cls code).digesting = k.digesting := rfl
@[simp] theorem Ctx.setCause_task (k : Ctx) (cls code : Nat) : (k.setCause cls code).task = k.task := rfl
@[simp] theorem Ctx.setCause_win (k : Ctx) (cls code : Nat) : (k.setCause cls code).win = k.win := rfl
@[simp] theorem Ctx.setCause_deferred (k : Ctx) (cls code : Nat) : (k.setCause cls code).deferred = k.deferred := rfl
@[simp] theorem Ctx.setCause_killed (k : Ctx) (cls code : Nat) : (k.setCause cls code).killed = k.killed := rfl
@[simp] theorem Ctx.setCause_readyAt (k : Ctx) (cls code : Nat) : (k.setCause cls code).readyAt = k.readyAt := rfl
@[simp] theorem Ctx.setCause_bars (k : Ctx) (cls code : Nat) : (k.setCause cls code).bars = k.bars := rfl
@[simp] theorem Ctx.setCause_barWait (k : Ctx) (cls code : Nat) : (k.setCause cls code).barWait = k.barWait := rfl
@[simp] theorem Ctx.setCause_barOrd (k : Ctx) (cls code : Nat) : (k.setCause cls code).barOrd = k.barOrd := rfl
@[simp] theorem Ctx.setCause_barArrived (k : Ctx) (cls code : Nat) : (k.setCause cls code).barArrived = k.barArrived := rfl
@[simp] theorem Ctx.setCause_fences (k : Ctx) (cls code : Nat) : (k.setCause cls code).fences = k.fences := rfl
@[simp] theorem Ctx.setCause_boundary (k : Ctx) (cls code : Nat) : (k.setCause cls code).boundary = k.boundary := rfl
@[simp] theorem Ctx.setCause_held (k : Ctx) (cls code : Nat) : (k.setCause cls code).held = k.held := rfl
@[simp] theorem Ctx.setCause_stalling (k : Ctx) (cls code : Nat) : (k.setCause cls code).stalling = k.stalling := rfl
@[simp] theorem Ctx.setCause_ended (k : Ctx) (cls code : Nat) : (k.setCause cls code).ended = k.ended := rfl
@[simp] theorem Ctx.setCause_haltTick (k : Ctx) (cls code : Nat) : (k.setCause cls code).haltTick = k.haltTick := rfl
@[simp] theorem Ctx.setCause_parked (k : Ctx) (cls code : Nat) : (k.setCause cls code).parked = k.parked := rfl
@[simp] theorem Ctx.setCause_suspended (k : Ctx) (cls code : Nat) : (k.setCause cls code).suspended = k.suspended := rfl
@[simp] theorem Ctx.setCause_asideAt (k : Ctx) (cls code : Nat) : (k.setCause cls code).asideAt = k.asideAt := rfl
@[simp] theorem Ctx.setCause_asideMer (k : Ctx) (cls code : Nat) : (k.setCause cls code).asideMer = k.asideMer := rfl
@[simp] theorem Ctx.setCause_laneUntil (k : Ctx) (cls code : Nat) : (k.setCause cls code).laneUntil = k.laneUntil := rfl
@[simp] theorem Ctx.setCause_mid (k : Ctx) (cls code : Nat) : (k.setCause cls code).mid = k.mid := rfl
@[simp] theorem Ctx.setCause_yielded (k : Ctx) (cls code : Nat) : (k.setCause cls code).yielded = k.yielded := rfl
@[simp] theorem Ctx.setCause_relReq (k : Ctx) (cls code : Nat) : (k.setCause cls code).relReq = k.relReq := rfl

/-! ## The return from a handler -/

@[simp] theorem Ctx.returnFromHandler_regs (k : Ctx) (t : Nat) : (k.returnFromHandler t).regs = k.regs := rfl
@[simp] theorem Ctx.returnFromHandler_pc (k : Ctx) (t : Nat) : (k.returnFromHandler t).pc = k.epcRet := rfl
@[simp] theorem Ctx.returnFromHandler_state (k : Ctx) (t : Nat) : (k.returnFromHandler t).state = k.state := rfl
@[simp] theorem Ctx.returnFromHandler_preq (k : Ctx) (t : Nat) : (k.returnFromHandler t).preq = k.preq := rfl
@[simp] theorem Ctx.returnFromHandler_timed (k : Ctx) (t : Nat) : (k.returnFromHandler t).timed = k.timed := rfl
@[simp] theorem Ctx.returnFromHandler_csab (k : Ctx) (t : Nat) : (k.returnFromHandler t).csab = k.csab := rfl
@[simp] theorem Ctx.returnFromHandler_tvecEn (k : Ctx) (t : Nat) : (k.returnFromHandler t).tvecEn = k.tvecEn := rfl
@[simp] theorem Ctx.returnFromHandler_tvecAddr (k : Ctx) (t : Nat) : (k.returnFromHandler t).tvecAddr = k.tvecAddr := rfl
@[simp] theorem Ctx.returnFromHandler_epcInh (k : Ctx) (t : Nat) : (k.returnFromHandler t).epcInh = false := rfl
@[simp] theorem Ctx.returnFromHandler_epcRet (k : Ctx) (t : Nat) : (k.returnFromHandler t).epcRet = k.epcRet := rfl
@[simp] theorem Ctx.returnFromHandler_causeClass (k : Ctx) (t : Nat) : (k.returnFromHandler t).causeClass = k.causeClass := rfl
@[simp] theorem Ctx.returnFromHandler_causeCode (k : Ctx) (t : Nat) : (k.returnFromHandler t).causeCode = k.causeCode := rfl
@[simp] theorem Ctx.returnFromHandler_far (k : Ctx) (t : Nat) : (k.returnFromHandler t).far = k.far := rfl
@[simp] theorem Ctx.returnFromHandler_fga (k : Ctx) (t : Nat) : (k.returnFromHandler t).fga = k.fga := rfl
@[simp] theorem Ctx.returnFromHandler_region (k : Ctx) (t : Nat) : (k.returnFromHandler t).region = k.region := rfl
@[simp] theorem Ctx.returnFromHandler_bodyElapsed (k : Ctx) (t : Nat) : (k.returnFromHandler t).bodyElapsed = k.bodyElapsed := rfl
@[simp] theorem Ctx.returnFromHandler_tstm (k : Ctx) (t : Nat) : (k.returnFromHandler t).tstm = k.tstm := rfl
@[simp] theorem Ctx.returnFromHandler_sbTag (k : Ctx) (t : Nat) : (k.returnFromHandler t).sbTag = k.sbTag := rfl
@[simp] theorem Ctx.returnFromHandler_sbBy (k : Ctx) (t : Nat) : (k.returnFromHandler t).sbBy = k.sbBy := rfl
@[simp] theorem Ctx.returnFromHandler_tfr (k : Ctx) (t : Nat) : (k.returnFromHandler t).tfr = k.tfr := rfl
@[simp] theorem Ctx.returnFromHandler_drift (k : Ctx) (t : Nat) : (k.returnFromHandler t).drift = k.drift := rfl
@[simp] theorem Ctx.returnFromHandler_dfault (k : Ctx) (t : Nat) : (k.returnFromHandler t).dfault = k.dfault := rfl
@[simp] theorem Ctx.returnFromHandler_driftLimit (k : Ctx) (t : Nat) : (k.returnFromHandler t).driftLimit = k.driftLimit := rfl
@[simp] theorem Ctx.returnFromHandler_sweep (k : Ctx) (t : Nat) : (k.returnFromHandler t).sweep = k.sweep := rfl
@[simp] theorem Ctx.returnFromHandler_probe (k : Ctx) (t : Nat) : (k.returnFromHandler t).probe = k.probe := rfl
@[simp] theorem Ctx.returnFromHandler_probeVa (k : Ctx) (t : Nat) : (k.returnFromHandler t).probeVa = k.probeVa := rfl
@[simp] theorem Ctx.returnFromHandler_probeDue (k : Ctx) (t : Nat) : (k.returnFromHandler t).probeDue = k.probeDue := rfl
@[simp] theorem Ctx.returnFromHandler_eph (k : Ctx) (t : Nat) : (k.returnFromHandler t).eph = k.eph := rfl
@[simp] theorem Ctx.returnFromHandler_moving (k : Ctx) (t : Nat) : (k.returnFromHandler t).moving = k.moving := rfl
@[simp] theorem Ctx.returnFromHandler_sponge (k : Ctx) (t : Nat) : (k.returnFromHandler t).sponge = k.sponge := rfl
@[simp] theorem Ctx.returnFromHandler_digesting (k : Ctx) (t : Nat) : (k.returnFromHandler t).digesting = k.digesting := rfl
@[simp] theorem Ctx.returnFromHandler_task (k : Ctx) (t : Nat) : (k.returnFromHandler t).task = k.task := rfl
@[simp] theorem Ctx.returnFromHandler_win (k : Ctx) (t : Nat) : (k.returnFromHandler t).win = k.win := rfl
@[simp] theorem Ctx.returnFromHandler_deferred (k : Ctx) (t : Nat) : (k.returnFromHandler t).deferred = k.deferred := rfl
@[simp] theorem Ctx.returnFromHandler_killed (k : Ctx) (t : Nat) : (k.returnFromHandler t).killed = k.killed := rfl
@[simp] theorem Ctx.returnFromHandler_readyAt (k : Ctx) (t : Nat) : (k.returnFromHandler t).readyAt = t + 2 := rfl
@[simp] theorem Ctx.returnFromHandler_bars (k : Ctx) (t : Nat) : (k.returnFromHandler t).bars = k.bars := rfl
@[simp] theorem Ctx.returnFromHandler_barWait (k : Ctx) (t : Nat) : (k.returnFromHandler t).barWait = k.barWait := rfl
@[simp] theorem Ctx.returnFromHandler_barOrd (k : Ctx) (t : Nat) : (k.returnFromHandler t).barOrd = k.barOrd := rfl
@[simp] theorem Ctx.returnFromHandler_barArrived (k : Ctx) (t : Nat) : (k.returnFromHandler t).barArrived = k.barArrived := rfl
@[simp] theorem Ctx.returnFromHandler_fences (k : Ctx) (t : Nat) : (k.returnFromHandler t).fences = k.fences := rfl
@[simp] theorem Ctx.returnFromHandler_boundary (k : Ctx) (t : Nat) : (k.returnFromHandler t).boundary = k.boundary := rfl
@[simp] theorem Ctx.returnFromHandler_held (k : Ctx) (t : Nat) : (k.returnFromHandler t).held = k.held := rfl
@[simp] theorem Ctx.returnFromHandler_stalling (k : Ctx) (t : Nat) : (k.returnFromHandler t).stalling = k.stalling := rfl
@[simp] theorem Ctx.returnFromHandler_ended (k : Ctx) (t : Nat) : (k.returnFromHandler t).ended = k.ended := rfl
@[simp] theorem Ctx.returnFromHandler_haltTick (k : Ctx) (t : Nat) : (k.returnFromHandler t).haltTick = k.haltTick := rfl
@[simp] theorem Ctx.returnFromHandler_parked (k : Ctx) (t : Nat) : (k.returnFromHandler t).parked = k.parked := rfl
@[simp] theorem Ctx.returnFromHandler_suspended (k : Ctx) (t : Nat) : (k.returnFromHandler t).suspended = k.suspended := rfl
@[simp] theorem Ctx.returnFromHandler_asideAt (k : Ctx) (t : Nat) : (k.returnFromHandler t).asideAt = k.asideAt := rfl
@[simp] theorem Ctx.returnFromHandler_asideMer (k : Ctx) (t : Nat) : (k.returnFromHandler t).asideMer = k.asideMer := rfl
@[simp] theorem Ctx.returnFromHandler_laneUntil (k : Ctx) (t : Nat) : (k.returnFromHandler t).laneUntil = k.laneUntil := rfl
@[simp] theorem Ctx.returnFromHandler_mid (k : Ctx) (t : Nat) : (k.returnFromHandler t).mid = k.mid := rfl
@[simp] theorem Ctx.returnFromHandler_yielded (k : Ctx) (t : Nat) : (k.returnFromHandler t).yielded = k.yielded := rfl
@[simp] theorem Ctx.returnFromHandler_relReq (k : Ctx) (t : Nat) : (k.returnFromHandler t).relReq = k.relReq := rfl

/-! ## Entry into a handler -/

@[simp] theorem Ctx.toHandler_regs (k : Ctx) (f : FaultRec) (more : Bool) (ret : W32) (t : Nat) : (k.toHandler f more ret t).regs = k.regs := rfl
@[simp] theorem Ctx.toHandler_pc (k : Ctx) (f : FaultRec) (more : Bool) (ret : W32) (t : Nat) : (k.toHandler f more ret t).pc = k.tvecAddr := rfl
@[simp] theorem Ctx.toHandler_state (k : Ctx) (f : FaultRec) (more : Bool) (ret : W32) (t : Nat) : (k.toHandler f more ret t).state = if k.state = .waiting then .running else k.state := rfl
@[simp] theorem Ctx.toHandler_preq (k : Ctx) (f : FaultRec) (more : Bool) (ret : W32) (t : Nat) : (k.toHandler f more ret t).preq = k.preq := rfl
@[simp] theorem Ctx.toHandler_timed (k : Ctx) (f : FaultRec) (more : Bool) (ret : W32) (t : Nat) : (k.toHandler f more ret t).timed = k.timed := rfl
@[simp] theorem Ctx.toHandler_csab (k : Ctx) (f : FaultRec) (more : Bool) (ret : W32) (t : Nat) : (k.toHandler f more ret t).csab = k.csab := rfl
@[simp] theorem Ctx.toHandler_tvecEn (k : Ctx) (f : FaultRec) (more : Bool) (ret : W32) (t : Nat) : (k.toHandler f more ret t).tvecEn = k.tvecEn := rfl
@[simp] theorem Ctx.toHandler_tvecAddr (k : Ctx) (f : FaultRec) (more : Bool) (ret : W32) (t : Nat) : (k.toHandler f more ret t).tvecAddr = k.tvecAddr := rfl
@[simp] theorem Ctx.toHandler_epcInh (k : Ctx) (f : FaultRec) (more : Bool) (ret : W32) (t : Nat) : (k.toHandler f more ret t).epcInh = true := rfl
@[simp] theorem Ctx.toHandler_epcRet (k : Ctx) (f : FaultRec) (more : Bool) (ret : W32) (t : Nat) : (k.toHandler f more ret t).epcRet = ret := rfl
@[simp] theorem Ctx.toHandler_causeClass (k : Ctx) (f : FaultRec) (more : Bool) (ret : W32) (t : Nat) : (k.toHandler f more ret t).causeClass = BitVec.ofNat 8 f.cls := rfl
@[simp] theorem Ctx.toHandler_causeCode (k : Ctx) (f : FaultRec) (more : Bool) (ret : W32) (t : Nat) : (k.toHandler f more ret t).causeCode = BitVec.ofNat 16 f.code := rfl
@[simp] theorem Ctx.toHandler_far (k : Ctx) (f : FaultRec) (more : Bool) (ret : W32) (t : Nat) : (k.toHandler f more ret t).far = f.far := rfl
@[simp] theorem Ctx.toHandler_fga (k : Ctx) (f : FaultRec) (more : Bool) (ret : W32) (t : Nat) : (k.toHandler f more ret t).fga = ⟨!k.deferred.isEmpty, more, f.slot, f.grp⟩ := rfl
@[simp] theorem Ctx.toHandler_region (k : Ctx) (f : FaultRec) (more : Bool) (ret : W32) (t : Nat) : (k.toHandler f more ret t).region = k.region := rfl
@[simp] theorem Ctx.toHandler_bodyElapsed (k : Ctx) (f : FaultRec) (more : Bool) (ret : W32) (t : Nat) : (k.toHandler f more ret t).bodyElapsed = k.bodyElapsed := rfl
@[simp] theorem Ctx.toHandler_tstm (k : Ctx) (f : FaultRec) (more : Bool) (ret : W32) (t : Nat) : (k.toHandler f more ret t).tstm = k.tstm := rfl
@[simp] theorem Ctx.toHandler_sbTag (k : Ctx) (f : FaultRec) (more : Bool) (ret : W32) (t : Nat) : (k.toHandler f more ret t).sbTag = k.sbTag := rfl
@[simp] theorem Ctx.toHandler_sbBy (k : Ctx) (f : FaultRec) (more : Bool) (ret : W32) (t : Nat) : (k.toHandler f more ret t).sbBy = k.sbBy := rfl
@[simp] theorem Ctx.toHandler_tfr (k : Ctx) (f : FaultRec) (more : Bool) (ret : W32) (t : Nat) : (k.toHandler f more ret t).tfr = k.tfr := rfl
@[simp] theorem Ctx.toHandler_drift (k : Ctx) (f : FaultRec) (more : Bool) (ret : W32) (t : Nat) : (k.toHandler f more ret t).drift = k.drift := rfl
@[simp] theorem Ctx.toHandler_dfault (k : Ctx) (f : FaultRec) (more : Bool) (ret : W32) (t : Nat) : (k.toHandler f more ret t).dfault = k.dfault := rfl
@[simp] theorem Ctx.toHandler_driftLimit (k : Ctx) (f : FaultRec) (more : Bool) (ret : W32) (t : Nat) : (k.toHandler f more ret t).driftLimit = k.driftLimit := rfl
@[simp] theorem Ctx.toHandler_sweep (k : Ctx) (f : FaultRec) (more : Bool) (ret : W32) (t : Nat) : (k.toHandler f more ret t).sweep = k.sweep := rfl
@[simp] theorem Ctx.toHandler_probe (k : Ctx) (f : FaultRec) (more : Bool) (ret : W32) (t : Nat) : (k.toHandler f more ret t).probe = k.probe := rfl
@[simp] theorem Ctx.toHandler_probeVa (k : Ctx) (f : FaultRec) (more : Bool) (ret : W32) (t : Nat) : (k.toHandler f more ret t).probeVa = k.probeVa := rfl
@[simp] theorem Ctx.toHandler_probeDue (k : Ctx) (f : FaultRec) (more : Bool) (ret : W32) (t : Nat) : (k.toHandler f more ret t).probeDue = k.probeDue := rfl
@[simp] theorem Ctx.toHandler_eph (k : Ctx) (f : FaultRec) (more : Bool) (ret : W32) (t : Nat) : (k.toHandler f more ret t).eph = k.eph := rfl
@[simp] theorem Ctx.toHandler_moving (k : Ctx) (f : FaultRec) (more : Bool) (ret : W32) (t : Nat) : (k.toHandler f more ret t).moving = k.moving := rfl
@[simp] theorem Ctx.toHandler_sponge (k : Ctx) (f : FaultRec) (more : Bool) (ret : W32) (t : Nat) : (k.toHandler f more ret t).sponge = k.sponge := rfl
@[simp] theorem Ctx.toHandler_digesting (k : Ctx) (f : FaultRec) (more : Bool) (ret : W32) (t : Nat) : (k.toHandler f more ret t).digesting = k.digesting := rfl
@[simp] theorem Ctx.toHandler_task (k : Ctx) (f : FaultRec) (more : Bool) (ret : W32) (t : Nat) : (k.toHandler f more ret t).task = k.task := rfl
@[simp] theorem Ctx.toHandler_win (k : Ctx) (f : FaultRec) (more : Bool) (ret : W32) (t : Nat) : (k.toHandler f more ret t).win = k.win := rfl
@[simp] theorem Ctx.toHandler_deferred (k : Ctx) (f : FaultRec) (more : Bool) (ret : W32) (t : Nat) : (k.toHandler f more ret t).deferred = k.deferred := rfl
@[simp] theorem Ctx.toHandler_killed (k : Ctx) (f : FaultRec) (more : Bool) (ret : W32) (t : Nat) : (k.toHandler f more ret t).killed = k.killed := rfl
@[simp] theorem Ctx.toHandler_readyAt (k : Ctx) (f : FaultRec) (more : Bool) (ret : W32) (t : Nat) : (k.toHandler f more ret t).readyAt = t + 2 := rfl
@[simp] theorem Ctx.toHandler_bars (k : Ctx) (f : FaultRec) (more : Bool) (ret : W32) (t : Nat) : (k.toHandler f more ret t).bars = k.bars := rfl
@[simp] theorem Ctx.toHandler_barWait (k : Ctx) (f : FaultRec) (more : Bool) (ret : W32) (t : Nat) : (k.toHandler f more ret t).barWait = k.barWait := rfl
@[simp] theorem Ctx.toHandler_barOrd (k : Ctx) (f : FaultRec) (more : Bool) (ret : W32) (t : Nat) : (k.toHandler f more ret t).barOrd = k.barOrd := rfl
@[simp] theorem Ctx.toHandler_barArrived (k : Ctx) (f : FaultRec) (more : Bool) (ret : W32) (t : Nat) : (k.toHandler f more ret t).barArrived = k.barArrived := rfl
@[simp] theorem Ctx.toHandler_fences (k : Ctx) (f : FaultRec) (more : Bool) (ret : W32) (t : Nat) : (k.toHandler f more ret t).fences = k.fences := rfl
@[simp] theorem Ctx.toHandler_boundary (k : Ctx) (f : FaultRec) (more : Bool) (ret : W32) (t : Nat) : (k.toHandler f more ret t).boundary = k.boundary := rfl
@[simp] theorem Ctx.toHandler_held (k : Ctx) (f : FaultRec) (more : Bool) (ret : W32) (t : Nat) : (k.toHandler f more ret t).held = false := rfl
@[simp] theorem Ctx.toHandler_stalling (k : Ctx) (f : FaultRec) (more : Bool) (ret : W32) (t : Nat) : (k.toHandler f more ret t).stalling = false := rfl
@[simp] theorem Ctx.toHandler_ended (k : Ctx) (f : FaultRec) (more : Bool) (ret : W32) (t : Nat) : (k.toHandler f more ret t).ended = k.ended := rfl
@[simp] theorem Ctx.toHandler_haltTick (k : Ctx) (f : FaultRec) (more : Bool) (ret : W32) (t : Nat) : (k.toHandler f more ret t).haltTick = k.haltTick := rfl
@[simp] theorem Ctx.toHandler_parked (k : Ctx) (f : FaultRec) (more : Bool) (ret : W32) (t : Nat) : (k.toHandler f more ret t).parked = k.parked := rfl
@[simp] theorem Ctx.toHandler_suspended (k : Ctx) (f : FaultRec) (more : Bool) (ret : W32) (t : Nat) : (k.toHandler f more ret t).suspended = k.suspended := rfl
@[simp] theorem Ctx.toHandler_asideAt (k : Ctx) (f : FaultRec) (more : Bool) (ret : W32) (t : Nat) : (k.toHandler f more ret t).asideAt = k.asideAt := rfl
@[simp] theorem Ctx.toHandler_asideMer (k : Ctx) (f : FaultRec) (more : Bool) (ret : W32) (t : Nat) : (k.toHandler f more ret t).asideMer = k.asideMer := rfl
@[simp] theorem Ctx.toHandler_laneUntil (k : Ctx) (f : FaultRec) (more : Bool) (ret : W32) (t : Nat) : (k.toHandler f more ret t).laneUntil = k.laneUntil := rfl
@[simp] theorem Ctx.toHandler_mid (k : Ctx) (f : FaultRec) (more : Bool) (ret : W32) (t : Nat) : (k.toHandler f more ret t).mid = k.mid := rfl
@[simp] theorem Ctx.toHandler_yielded (k : Ctx) (f : FaultRec) (more : Bool) (ret : W32) (t : Nat) : (k.toHandler f more ret t).yielded = k.yielded := rfl
@[simp] theorem Ctx.toHandler_relReq (k : Ctx) (f : FaultRec) (more : Bool) (ret : W32) (t : Nat) : (k.toHandler f more ret t).relReq = k.relReq := rfl

/-! ## A stop for the supervisor -/

@[simp] theorem Ctx.toSupervisor_regs (k : Ctx) (f : FaultRec) (more : Bool) (t : Nat) : (k.toSupervisor f more t).regs = k.regs := rfl
@[simp] theorem Ctx.toSupervisor_pc (k : Ctx) (f : FaultRec) (more : Bool) (t : Nat) : (k.toSupervisor f more t).pc = k.pc := rfl
@[simp] theorem Ctx.toSupervisor_state (k : Ctx) (f : FaultRec) (more : Bool) (t : Nat) : (k.toSupervisor f more t).state = .faulted := rfl
@[simp] theorem Ctx.toSupervisor_preq (k : Ctx) (f : FaultRec) (more : Bool) (t : Nat) : (k.toSupervisor f more t).preq = false := rfl
@[simp] theorem Ctx.toSupervisor_timed (k : Ctx) (f : FaultRec) (more : Bool) (t : Nat) : (k.toSupervisor f more t).timed = k.timed := rfl
@[simp] theorem Ctx.toSupervisor_csab (k : Ctx) (f : FaultRec) (more : Bool) (t : Nat) : (k.toSupervisor f more t).csab = k.csab := rfl
@[simp] theorem Ctx.toSupervisor_tvecEn (k : Ctx) (f : FaultRec) (more : Bool) (t : Nat) : (k.toSupervisor f more t).tvecEn = k.tvecEn := rfl
@[simp] theorem Ctx.toSupervisor_tvecAddr (k : Ctx) (f : FaultRec) (more : Bool) (t : Nat) : (k.toSupervisor f more t).tvecAddr = k.tvecAddr := rfl
@[simp] theorem Ctx.toSupervisor_epcInh (k : Ctx) (f : FaultRec) (more : Bool) (t : Nat) : (k.toSupervisor f more t).epcInh = k.epcInh := rfl
@[simp] theorem Ctx.toSupervisor_epcRet (k : Ctx) (f : FaultRec) (more : Bool) (t : Nat) : (k.toSupervisor f more t).epcRet = k.epcRet := rfl
@[simp] theorem Ctx.toSupervisor_causeClass (k : Ctx) (f : FaultRec) (more : Bool) (t : Nat) : (k.toSupervisor f more t).causeClass = BitVec.ofNat 8 f.cls := rfl
@[simp] theorem Ctx.toSupervisor_causeCode (k : Ctx) (f : FaultRec) (more : Bool) (t : Nat) : (k.toSupervisor f more t).causeCode = BitVec.ofNat 16 f.code := rfl
@[simp] theorem Ctx.toSupervisor_far (k : Ctx) (f : FaultRec) (more : Bool) (t : Nat) : (k.toSupervisor f more t).far = f.far := rfl
@[simp] theorem Ctx.toSupervisor_fga (k : Ctx) (f : FaultRec) (more : Bool) (t : Nat) : (k.toSupervisor f more t).fga = ⟨!k.deferred.isEmpty, more, f.slot, f.grp⟩ := rfl
@[simp] theorem Ctx.toSupervisor_region (k : Ctx) (f : FaultRec) (more : Bool) (t : Nat) : (k.toSupervisor f more t).region = k.region := rfl
@[simp] theorem Ctx.toSupervisor_bodyElapsed (k : Ctx) (f : FaultRec) (more : Bool) (t : Nat) : (k.toSupervisor f more t).bodyElapsed = k.bodyElapsed := rfl
@[simp] theorem Ctx.toSupervisor_tstm (k : Ctx) (f : FaultRec) (more : Bool) (t : Nat) : (k.toSupervisor f more t).tstm = k.tstm := rfl
@[simp] theorem Ctx.toSupervisor_sbTag (k : Ctx) (f : FaultRec) (more : Bool) (t : Nat) : (k.toSupervisor f more t).sbTag = k.sbTag := rfl
@[simp] theorem Ctx.toSupervisor_sbBy (k : Ctx) (f : FaultRec) (more : Bool) (t : Nat) : (k.toSupervisor f more t).sbBy = k.sbBy := rfl
@[simp] theorem Ctx.toSupervisor_tfr (k : Ctx) (f : FaultRec) (more : Bool) (t : Nat) : (k.toSupervisor f more t).tfr = k.tfr := rfl
@[simp] theorem Ctx.toSupervisor_drift (k : Ctx) (f : FaultRec) (more : Bool) (t : Nat) : (k.toSupervisor f more t).drift = k.drift := rfl
@[simp] theorem Ctx.toSupervisor_dfault (k : Ctx) (f : FaultRec) (more : Bool) (t : Nat) : (k.toSupervisor f more t).dfault = k.dfault := rfl
@[simp] theorem Ctx.toSupervisor_driftLimit (k : Ctx) (f : FaultRec) (more : Bool) (t : Nat) : (k.toSupervisor f more t).driftLimit = k.driftLimit := rfl
@[simp] theorem Ctx.toSupervisor_sweep (k : Ctx) (f : FaultRec) (more : Bool) (t : Nat) : (k.toSupervisor f more t).sweep = k.sweep := rfl
@[simp] theorem Ctx.toSupervisor_probe (k : Ctx) (f : FaultRec) (more : Bool) (t : Nat) : (k.toSupervisor f more t).probe = k.probe := rfl
@[simp] theorem Ctx.toSupervisor_probeVa (k : Ctx) (f : FaultRec) (more : Bool) (t : Nat) : (k.toSupervisor f more t).probeVa = k.probeVa := rfl
@[simp] theorem Ctx.toSupervisor_probeDue (k : Ctx) (f : FaultRec) (more : Bool) (t : Nat) : (k.toSupervisor f more t).probeDue = k.probeDue := rfl
@[simp] theorem Ctx.toSupervisor_eph (k : Ctx) (f : FaultRec) (more : Bool) (t : Nat) : (k.toSupervisor f more t).eph = k.eph := rfl
@[simp] theorem Ctx.toSupervisor_moving (k : Ctx) (f : FaultRec) (more : Bool) (t : Nat) : (k.toSupervisor f more t).moving = k.moving := rfl
@[simp] theorem Ctx.toSupervisor_sponge (k : Ctx) (f : FaultRec) (more : Bool) (t : Nat) : (k.toSupervisor f more t).sponge = k.sponge := rfl
@[simp] theorem Ctx.toSupervisor_digesting (k : Ctx) (f : FaultRec) (more : Bool) (t : Nat) : (k.toSupervisor f more t).digesting = k.digesting := rfl
@[simp] theorem Ctx.toSupervisor_task (k : Ctx) (f : FaultRec) (more : Bool) (t : Nat) : (k.toSupervisor f more t).task = k.task := rfl
@[simp] theorem Ctx.toSupervisor_win (k : Ctx) (f : FaultRec) (more : Bool) (t : Nat) : (k.toSupervisor f more t).win = k.win := rfl
@[simp] theorem Ctx.toSupervisor_deferred (k : Ctx) (f : FaultRec) (more : Bool) (t : Nat) : (k.toSupervisor f more t).deferred = k.deferred := rfl
@[simp] theorem Ctx.toSupervisor_killed (k : Ctx) (f : FaultRec) (more : Bool) (t : Nat) : (k.toSupervisor f more t).killed = k.killed := rfl
@[simp] theorem Ctx.toSupervisor_readyAt (k : Ctx) (f : FaultRec) (more : Bool) (t : Nat) : (k.toSupervisor f more t).readyAt = k.readyAt := rfl
@[simp] theorem Ctx.toSupervisor_bars (k : Ctx) (f : FaultRec) (more : Bool) (t : Nat) : (k.toSupervisor f more t).bars = k.bars := rfl
@[simp] theorem Ctx.toSupervisor_barWait (k : Ctx) (f : FaultRec) (more : Bool) (t : Nat) : (k.toSupervisor f more t).barWait = k.barWait := rfl
@[simp] theorem Ctx.toSupervisor_barOrd (k : Ctx) (f : FaultRec) (more : Bool) (t : Nat) : (k.toSupervisor f more t).barOrd = k.barOrd := rfl
@[simp] theorem Ctx.toSupervisor_barArrived (k : Ctx) (f : FaultRec) (more : Bool) (t : Nat) : (k.toSupervisor f more t).barArrived = k.barArrived := rfl
@[simp] theorem Ctx.toSupervisor_fences (k : Ctx) (f : FaultRec) (more : Bool) (t : Nat) : (k.toSupervisor f more t).fences = k.fences := rfl
@[simp] theorem Ctx.toSupervisor_boundary (k : Ctx) (f : FaultRec) (more : Bool) (t : Nat) : (k.toSupervisor f more t).boundary = k.boundary := rfl
@[simp] theorem Ctx.toSupervisor_held (k : Ctx) (f : FaultRec) (more : Bool) (t : Nat) : (k.toSupervisor f more t).held = false := rfl
@[simp] theorem Ctx.toSupervisor_stalling (k : Ctx) (f : FaultRec) (more : Bool) (t : Nat) : (k.toSupervisor f more t).stalling = false := rfl
@[simp] theorem Ctx.toSupervisor_ended (k : Ctx) (f : FaultRec) (more : Bool) (t : Nat) : (k.toSupervisor f more t).ended = k.ended := rfl
@[simp] theorem Ctx.toSupervisor_haltTick (k : Ctx) (f : FaultRec) (more : Bool) (t : Nat) : (k.toSupervisor f more t).haltTick = t := rfl
@[simp] theorem Ctx.toSupervisor_parked (k : Ctx) (f : FaultRec) (more : Bool) (t : Nat) : (k.toSupervisor f more t).parked = k.parked := rfl
@[simp] theorem Ctx.toSupervisor_suspended (k : Ctx) (f : FaultRec) (more : Bool) (t : Nat) : (k.toSupervisor f more t).suspended = k.suspended := rfl
@[simp] theorem Ctx.toSupervisor_asideAt (k : Ctx) (f : FaultRec) (more : Bool) (t : Nat) : (k.toSupervisor f more t).asideAt = k.asideAt := rfl
@[simp] theorem Ctx.toSupervisor_asideMer (k : Ctx) (f : FaultRec) (more : Bool) (t : Nat) : (k.toSupervisor f more t).asideMer = k.asideMer := rfl
@[simp] theorem Ctx.toSupervisor_laneUntil (k : Ctx) (f : FaultRec) (more : Bool) (t : Nat) : (k.toSupervisor f more t).laneUntil = k.laneUntil := rfl
@[simp] theorem Ctx.toSupervisor_mid (k : Ctx) (f : FaultRec) (more : Bool) (t : Nat) : (k.toSupervisor f more t).mid = true := rfl
@[simp] theorem Ctx.toSupervisor_yielded (k : Ctx) (f : FaultRec) (more : Bool) (t : Nat) : (k.toSupervisor f more t).yielded = k.yielded := rfl
@[simp] theorem Ctx.toSupervisor_relReq (k : Ctx) (f : FaultRec) (more : Bool) (t : Nat) : (k.toSupervisor f more t).relReq = k.relReq := rfl

/-! ## A loop entry replaced -/

@[simp] theorem Ctx.setLoop_regs (k : Ctx) (j : Nat) (e : LoopEntry) : (k.setLoop j e).regs = { k.regs with loops := vset k.regs.loops j e } := rfl
@[simp] theorem Ctx.setLoop_pc (k : Ctx) (j : Nat) (e : LoopEntry) : (k.setLoop j e).pc = k.pc := rfl
@[simp] theorem Ctx.setLoop_state (k : Ctx) (j : Nat) (e : LoopEntry) : (k.setLoop j e).state = k.state := rfl
@[simp] theorem Ctx.setLoop_preq (k : Ctx) (j : Nat) (e : LoopEntry) : (k.setLoop j e).preq = k.preq := rfl
@[simp] theorem Ctx.setLoop_timed (k : Ctx) (j : Nat) (e : LoopEntry) : (k.setLoop j e).timed = k.timed := rfl
@[simp] theorem Ctx.setLoop_csab (k : Ctx) (j : Nat) (e : LoopEntry) : (k.setLoop j e).csab = k.csab := rfl
@[simp] theorem Ctx.setLoop_tvecEn (k : Ctx) (j : Nat) (e : LoopEntry) : (k.setLoop j e).tvecEn = k.tvecEn := rfl
@[simp] theorem Ctx.setLoop_tvecAddr (k : Ctx) (j : Nat) (e : LoopEntry) : (k.setLoop j e).tvecAddr = k.tvecAddr := rfl
@[simp] theorem Ctx.setLoop_epcInh (k : Ctx) (j : Nat) (e : LoopEntry) : (k.setLoop j e).epcInh = k.epcInh := rfl
@[simp] theorem Ctx.setLoop_epcRet (k : Ctx) (j : Nat) (e : LoopEntry) : (k.setLoop j e).epcRet = k.epcRet := rfl
@[simp] theorem Ctx.setLoop_causeClass (k : Ctx) (j : Nat) (e : LoopEntry) : (k.setLoop j e).causeClass = k.causeClass := rfl
@[simp] theorem Ctx.setLoop_causeCode (k : Ctx) (j : Nat) (e : LoopEntry) : (k.setLoop j e).causeCode = k.causeCode := rfl
@[simp] theorem Ctx.setLoop_far (k : Ctx) (j : Nat) (e : LoopEntry) : (k.setLoop j e).far = k.far := rfl
@[simp] theorem Ctx.setLoop_fga (k : Ctx) (j : Nat) (e : LoopEntry) : (k.setLoop j e).fga = k.fga := rfl
@[simp] theorem Ctx.setLoop_region (k : Ctx) (j : Nat) (e : LoopEntry) : (k.setLoop j e).region = k.region := rfl
@[simp] theorem Ctx.setLoop_bodyElapsed (k : Ctx) (j : Nat) (e : LoopEntry) : (k.setLoop j e).bodyElapsed = k.bodyElapsed := rfl
@[simp] theorem Ctx.setLoop_tstm (k : Ctx) (j : Nat) (e : LoopEntry) : (k.setLoop j e).tstm = k.tstm := rfl
@[simp] theorem Ctx.setLoop_sbTag (k : Ctx) (j : Nat) (e : LoopEntry) : (k.setLoop j e).sbTag = k.sbTag := rfl
@[simp] theorem Ctx.setLoop_sbBy (k : Ctx) (j : Nat) (e : LoopEntry) : (k.setLoop j e).sbBy = k.sbBy := rfl
@[simp] theorem Ctx.setLoop_tfr (k : Ctx) (j : Nat) (e : LoopEntry) : (k.setLoop j e).tfr = k.tfr := rfl
@[simp] theorem Ctx.setLoop_drift (k : Ctx) (j : Nat) (e : LoopEntry) : (k.setLoop j e).drift = k.drift := rfl
@[simp] theorem Ctx.setLoop_dfault (k : Ctx) (j : Nat) (e : LoopEntry) : (k.setLoop j e).dfault = k.dfault := rfl
@[simp] theorem Ctx.setLoop_driftLimit (k : Ctx) (j : Nat) (e : LoopEntry) : (k.setLoop j e).driftLimit = k.driftLimit := rfl
@[simp] theorem Ctx.setLoop_sweep (k : Ctx) (j : Nat) (e : LoopEntry) : (k.setLoop j e).sweep = k.sweep := rfl
@[simp] theorem Ctx.setLoop_probe (k : Ctx) (j : Nat) (e : LoopEntry) : (k.setLoop j e).probe = k.probe := rfl
@[simp] theorem Ctx.setLoop_probeVa (k : Ctx) (j : Nat) (e : LoopEntry) : (k.setLoop j e).probeVa = k.probeVa := rfl
@[simp] theorem Ctx.setLoop_probeDue (k : Ctx) (j : Nat) (e : LoopEntry) : (k.setLoop j e).probeDue = k.probeDue := rfl
@[simp] theorem Ctx.setLoop_eph (k : Ctx) (j : Nat) (e : LoopEntry) : (k.setLoop j e).eph = k.eph := rfl
@[simp] theorem Ctx.setLoop_moving (k : Ctx) (j : Nat) (e : LoopEntry) : (k.setLoop j e).moving = k.moving := rfl
@[simp] theorem Ctx.setLoop_sponge (k : Ctx) (j : Nat) (e : LoopEntry) : (k.setLoop j e).sponge = k.sponge := rfl
@[simp] theorem Ctx.setLoop_digesting (k : Ctx) (j : Nat) (e : LoopEntry) : (k.setLoop j e).digesting = k.digesting := rfl
@[simp] theorem Ctx.setLoop_task (k : Ctx) (j : Nat) (e : LoopEntry) : (k.setLoop j e).task = k.task := rfl
@[simp] theorem Ctx.setLoop_win (k : Ctx) (j : Nat) (e : LoopEntry) : (k.setLoop j e).win = k.win := rfl
@[simp] theorem Ctx.setLoop_deferred (k : Ctx) (j : Nat) (e : LoopEntry) : (k.setLoop j e).deferred = k.deferred := rfl
@[simp] theorem Ctx.setLoop_killed (k : Ctx) (j : Nat) (e : LoopEntry) : (k.setLoop j e).killed = k.killed := rfl
@[simp] theorem Ctx.setLoop_readyAt (k : Ctx) (j : Nat) (e : LoopEntry) : (k.setLoop j e).readyAt = k.readyAt := rfl
@[simp] theorem Ctx.setLoop_bars (k : Ctx) (j : Nat) (e : LoopEntry) : (k.setLoop j e).bars = k.bars := rfl
@[simp] theorem Ctx.setLoop_barWait (k : Ctx) (j : Nat) (e : LoopEntry) : (k.setLoop j e).barWait = k.barWait := rfl
@[simp] theorem Ctx.setLoop_barOrd (k : Ctx) (j : Nat) (e : LoopEntry) : (k.setLoop j e).barOrd = k.barOrd := rfl
@[simp] theorem Ctx.setLoop_barArrived (k : Ctx) (j : Nat) (e : LoopEntry) : (k.setLoop j e).barArrived = k.barArrived := rfl
@[simp] theorem Ctx.setLoop_fences (k : Ctx) (j : Nat) (e : LoopEntry) : (k.setLoop j e).fences = k.fences := rfl
@[simp] theorem Ctx.setLoop_boundary (k : Ctx) (j : Nat) (e : LoopEntry) : (k.setLoop j e).boundary = k.boundary := rfl
@[simp] theorem Ctx.setLoop_held (k : Ctx) (j : Nat) (e : LoopEntry) : (k.setLoop j e).held = k.held := rfl
@[simp] theorem Ctx.setLoop_stalling (k : Ctx) (j : Nat) (e : LoopEntry) : (k.setLoop j e).stalling = k.stalling := rfl
@[simp] theorem Ctx.setLoop_ended (k : Ctx) (j : Nat) (e : LoopEntry) : (k.setLoop j e).ended = k.ended := rfl
@[simp] theorem Ctx.setLoop_haltTick (k : Ctx) (j : Nat) (e : LoopEntry) : (k.setLoop j e).haltTick = k.haltTick := rfl
@[simp] theorem Ctx.setLoop_parked (k : Ctx) (j : Nat) (e : LoopEntry) : (k.setLoop j e).parked = k.parked := rfl
@[simp] theorem Ctx.setLoop_suspended (k : Ctx) (j : Nat) (e : LoopEntry) : (k.setLoop j e).suspended = k.suspended := rfl
@[simp] theorem Ctx.setLoop_asideAt (k : Ctx) (j : Nat) (e : LoopEntry) : (k.setLoop j e).asideAt = k.asideAt := rfl
@[simp] theorem Ctx.setLoop_asideMer (k : Ctx) (j : Nat) (e : LoopEntry) : (k.setLoop j e).asideMer = k.asideMer := rfl
@[simp] theorem Ctx.setLoop_laneUntil (k : Ctx) (j : Nat) (e : LoopEntry) : (k.setLoop j e).laneUntil = k.laneUntil := rfl
@[simp] theorem Ctx.setLoop_mid (k : Ctx) (j : Nat) (e : LoopEntry) : (k.setLoop j e).mid = k.mid := rfl
@[simp] theorem Ctx.setLoop_yielded (k : Ctx) (j : Nat) (e : LoopEntry) : (k.setLoop j e).yielded = k.yielded := rfl
@[simp] theorem Ctx.setLoop_relReq (k : Ctx) (j : Nat) (e : LoopEntry) : (k.setLoop j e).relReq = k.relReq := rfl

/-! ## Vectors by number -/

theorem vget_vset_same {α : Type} [Inhabited α] {n : Nat} (v : Vector α n) (i : Nat) (x : α) (h : i < n) : vget (vset v i x) i = x := by
  simp [vget, vset, h]

theorem vget_vset_other {α : Type} [Inhabited α] {n : Nat} (v : Vector α n) (i j : Nat) (x : α) (h : i ≠ j) : vget (vset v i x) j = vget v j := by
  unfold vget vset
  rw [Vector.getElem?_setIfInBounds_ne h]

/-! ## Cores and contexts by number -/

theorem lookupCore_insertCore_same (g : Nat) (c : Core) (l : List (Nat × Core)) : lookupCore g (insertCore g c l) = c := by
  induction l with
  | nil => simp [insertCore, lookupCore]
  | cons p rest ih =>
    unfold insertCore
    split
    · simp only [lookupCore]; rw [if_neg (by omega), ih]
    · split <;> simp [lookupCore]

theorem lookupCore_insertCore_other (g h : Nat) (c : Core) (l : List (Nat × Core)) (ne : g ≠ h) : lookupCore h (insertCore g c l) = lookupCore h l := by
  induction l with
  | nil => simp [insertCore, lookupCore, ne]
  | cons p rest ih =>
    unfold insertCore
    split
    · simp only [lookupCore]; split <;> simp [ih]
    · split
      · rename_i e; simp only [lookupCore]; rw [if_neg ne, if_neg (by omega)]
      · simp only [lookupCore]; rw [if_neg ne]

@[simp] theorem Sys.core_setCore_same (s : Sys) (g : Nat) (c : Core) : (s.setCore g c).core g = c := lookupCore_insertCore_same g c s.cores

theorem Sys.core_setCore_other (s : Sys) (g h : Nat) (c : Core) (ne : g ≠ h) : (s.setCore g c).core h = s.core h :=
  lookupCore_insertCore_other g h c s.cores ne

theorem Sys.ctx_setCtx_same (s : Sys) (g x : Nat) (k : Ctx) (h : x < 4) : (s.setCtx g x k).ctx g x = k := by
  simp [Sys.setCtx, Sys.ctx, Core.ctx, Core.setCtx, vget_vset_same, h]

theorem Sys.ctx_setCtx_other (s : Sys) (g x h y : Nat) (k : Ctx) (ne : g ≠ h ∨ x ≠ y) : (s.setCtx g x k).ctx h y = s.ctx h y := by
  by_cases e : g = h
  · subst e
    have : x ≠ y := ne.resolve_left fun n => n rfl
    simp [Sys.setCtx, Sys.ctx, Core.ctx, Core.setCtx, vget_vset_other, this]
  · simp [Sys.setCtx, Sys.ctx, Sys.core_setCore_other, e]

theorem Sys.ctx_modCtx_same (s : Sys) (g x : Nat) (f : Ctx → Ctx) (h : x < 4) : (s.modCtx g x f).ctx g x = f (s.ctx g x) :=
  Sys.ctx_setCtx_same s g x _ h

theorem Sys.ctx_modCtx_other (s : Sys) (g x h y : Nat) (f : Ctx → Ctx) (ne : g ≠ h ∨ x ≠ y) : (s.modCtx g x f).ctx h y = s.ctx h y :=
  Sys.ctx_setCtx_other s g x h y _ ne

end Sys2Proof.Machine
end

