-- ==== Sys2Proof/Laws/Ops.lean ====
section
/-! SUPPORT. What each shared operation of the meanings can do, said once: a slot's instruction, an event of the module, the shapes of the scalar, lane-group and engine instructions. -/

namespace Sys2Proof.Machine

/-! ## A slot's instruction -/

/-- A slot's instruction goes on, whatever becomes of it. -/
theorem State.issue_goes_on (s : State) (h : Option Bool) (c : List FaultRec) (e : Sys → Sys) : ∃ t, s.issue h c e = .next t := by
  unfold State.issue
  split
  · exact ⟨_, rfl⟩
  · split <;> exact ⟨_, rfl⟩

/-- A slot's instruction stores nothing in the cycle of its issue. -/
theorem State.issue_mem {s t : State} {h : Option Bool} {c : List FaultRec} {e : Sys → Sys} (r : s.issue h c e = .next t) : t.mem = s.mem := by
  unfold State.issue at r
  split at r
  · cases r; rfl
  · split at r <;> cases r <;> rfl

/-- A slot that neither holds nor breaks a limit has its effect. -/
@[simp] theorem State.issue_runs (s : State) (e : Sys → Sys) : s.issue none [] e = .next { s with sys := (e s.sys).ran } := rfl

/-- A slot that holds. -/
@[simp] theorem State.issue_holds (s : State) (v : Bool) (c : List FaultRec) (e : Sys → Sys) : s.issue (some v) c e = .next { s with sys := s.sys.hold v } := rfl

/-- What a slot's instruction can do: hold, fault, or run. -/
theorem State.issue_cases {s t : State} {h : Option Bool} {c : List FaultRec} {e : Sys → Sys} (r : s.issue h c e = .next t) :
    (∃ v, h = some v ∧ t = { s with sys := s.sys.hold v }) ∨
      (h = none ∧ ∃ f, slotFault c = some f ∧ t = { s with sys := s.sys.faulted f }) ∨
      (h = none ∧ slotFault c = none ∧ t = { s with sys := (e s.sys).ran }) := by
  unfold State.issue at r
  split at r
  · cases r; exact .inl ⟨_, rfl, rfl⟩
  · split at r
    · rename_i f hf; cases r; exact .inr (.inl ⟨rfl, f, hf, rfl⟩)
    · rename_i hf; cases r; exact .inr (.inr ⟨rfl, hf, rfl⟩)

/-! ## Limits and holds -/

@[simp] theorem Sys.limit_met (s : Sys) (cls code : Nat) (far : Word) : s.limit true cls code far = [] := rfl

@[simp] theorem Sys.range_met (s : Sys) (far : Word) : s.range true far = [] := rfl

@[simp] theorem Sys.range_broken (s : Sys) (far : Word) : s.range false far = [s.faultHere 3 1 far] := rfl

@[simp] theorem orHold_none_none : orHold none none = none := rfl

@[simp] theorem orHold_none (h : Option Bool) : orHold none h = h := by cases h <;> rfl

@[simp] theorem holdUnless_met : holdUnless true = none := rfl

/-- Outside an interlocked level no register holds a group (R23). -/
theorem Sys.interlock_free {s : Sys} (h : s.here.interlocked = false) (b : Bool) (l : List (BitVec 5)) : s.interlock b l = none := by
  unfold Sys.interlock; rw [h]; rfl

/-! ## An event of the module -/

@[simp] theorem State.event_next (s : State) (e : Sys → Sys × List Write) :
    s.event e = .next { mem := s.mem.writeAll (e s.sys).2, sys := (e s.sys).1.mend (e s.sys).2 } := rfl

@[simp] theorem Sys.mend_nil (s : Sys) : s.mend [] = s := rfl

@[simp] theorem State.eventOn_present (s : State) (e : Sys → Sys × List Write) : s.eventOn true e = s.event e := rfl

@[simp] theorem State.eventOn_absent (s : State) (e : Sys → Sys × List Write) : s.eventOn false e = .fault .absentUnit := rfl

/-- What an event writes, it writes in order. -/
theorem State.eventOn_writes {s t : State} {p : Bool} {e : Sys → Sys × List Write} (r : s.eventOn p e = .next t) : ∃ ws, t.mem = s.mem.writeAll ws := by
  unfold State.eventOn at r
  split at r
  · cases r; exact ⟨_, rfl⟩
  · cases r

/-! ## The shapes of instructions -/

theorem State.scalarOp_mem {s t : State} {l : List (BitVec 5)} {c : List FaultRec} {n : Nat} {d : BitVec 5} {v : Sys → Word}
    (r : s.scalarOp l c n d v = .next t) : t.mem = s.mem := State.issue_mem r

theorem State.int2_mem {s t : State} {n : Nat} {d a b : BitVec 5} {f : Word → Word → Word} (r : s.int2 n d a b f = .next t) : t.mem = s.mem :=
  State.scalarOp_mem r

theorem State.f32Op_mem {s t : State} {l : List (BitVec 5)} {o : BitVec 1} {m : BitVec 3} {d : BitVec 5} {f : Sys → Rm → Bool → Nat × Flags}
    (r : s.f32Op l o m d f = .next t) : t.mem = s.mem := State.issue_mem r

theorem State.vector_mem {s t : State} {i : Instr} (r : s.vector i = .next t) : t.mem = s.mem := by
  unfold State.vector at r
  split at r
  · cases r; rfl
  · exact State.issue_mem r

theorem State.dispatch_mem {s t : State} {d : Dispatch} (r : s.dispatch d = .next t) : t.mem = s.mem := State.issue_mem r

theorem State.wordAccess_mem {s t : State} {i : Instr} {n : Nat} (r : s.wordAccess i n = .next t) : t.mem = s.mem := State.issue_mem r

theorem State.copy_mem {s t : State} {i : Instr} {n : Nat} {a b : List Nat} (r : s.copy i n a b = .next t) : t.mem = s.mem := State.issue_mem r

theorem State.dotCommand_mem {s t : State} {i : Instr} {n : Nat} (r : s.dotCommand i n = .next t) : t.mem = s.mem := State.issue_mem r

theorem State.transfer_mem {s t : State} {i : Instr} {q : Transfer} {a b : BitVec 1} (r : s.transfer i q a b = .next t) : t.mem = s.mem := by
  unfold State.transfer at r
  simp only at r
  exact State.issue_mem r

theorem State.orreryPass_mem {s t : State} {i : Instr} {k n : Nat} (r : s.orreryPass i k n = .next t) : t.mem = s.mem := State.issue_mem r

theorem State.queue_mem {s t : State} {d : Dispatch} {e : Queued} (r : s.queue d e = .next t) : t.mem = s.mem := by
  unfold State.queue at r
  simp only at r
  split at r
  · exact State.dispatch_mem r
  · exact State.issue_mem r

/-! ## The shapes of events -/

/-- The writes of an event keep the canonical form. -/
theorem State.event_wf {s t : State} {e : Sys → Sys × List Write} (w : s.mem.wf = true) (r : s.event e = .next t) : t.mem.wf = true := by
  cases r; exact Memory.writeAll_wf w _

theorem State.eventOn_wf {s t : State} {p : Bool} {e : Sys → Sys × List Write} (w : s.mem.wf = true) (r : s.eventOn p e = .next t) : t.mem.wf = true := by
  obtain ⟨ws, h⟩ := State.eventOn_writes r
  rw [h]; exact Memory.writeAll_wf w ws

/-- An inspection changes no memory. -/
theorem State.inspected_mem {s t : State} {e : Sys → Sys} (r : s.inspected e = .next t) : t.mem = s.mem := by cases r; rfl

theorem State.record_wf {s t : State} {id : Nat} {q : CamvelRecord} {e : Sys → Memory → Rec → Sys × List Write} (w : s.mem.wf = true)
    (r : s.record id q e = .next t) : t.mem.wf = true := State.event_wf w r

theorem State.spdm_wf {s t : State} {ch : Channel} {a : Session → Bool} {f : Session → Session} {c : Nat} {d : Sys → List Byte} {l : List Algorithm} {b : Bool}
    (w : s.mem.wf = true) (r : s.spdm ch a f c d l b = .next t) : t.mem.wf = true := State.event_wf w r

/-- What a message does leaves the canonical form if it does so on every channel. -/
theorem State.message_wf {s t : State} {f : Channel → State → Host.Outcome State Fault Refusal} (w : s.mem.wf = true)
    (k : ∀ ch u, u.mem.wf = true → f ch u = .next t → t.mem.wf = true) (r : s.message f = .next t) : t.mem.wf = true := k s.sys.channel { s with sys := { s.sys with channels := s.sys.channels.tail } } w r

/-- The keys that are replaced leave the canonical form. -/
theorem Sys.rekeyed_wf (s : Sys) {m : Memory} (w : m.wf = true) : (s.rekeyed m).wf = true := Memory.filter_wf w _

theorem State.opened_wf {s : State} (w : s.mem.wf = true) : s.opened.mem.wf = true := Sys.rekeyed_wf s.sys w

theorem State.endSession_wf {s : State} (w : s.mem.wf = true) (ch : Channel) : (s.endSession ch).mem.wf = true := by
  unfold State.endSession
  simp only
  split
  · exact State.opened_wf w
  · exact w

end Sys2Proof.Machine
end

