-- ==== Sys2Proof/Laws/Step.lean ====
section
/-! SUPPORT. What one step can do to memory, said once: if every meaning keeps a form of memory that writes keep, every step keeps it. -/

namespace Sys2Proof.Machine

/-- A form of memory that every meaning keeps. -/
def Keeps (P : Memory → Prop) (ex : Instr → State → Host.Outcome State Fault Refusal) : Prop :=
  ∀ i s t, P s.mem → ex i s = .next t → P t.mem

/-- Whatever became of a group, the state it left has the form. -/
def Tried.Has (P : Memory → Prop) : Tried → Prop
  | .issued s | .held _ s | .faulted s => P s.mem
  | .stopped o => ∀ t, o = .next t → P t.mem

section
variable {P : Memory → Prop} {ex : Instr → State → Host.Outcome State Fault Refusal}

theorem Ran.slot_keeps (h : Keeps P ex) {r : Ran} (hr : P r.state.mem) (ho : ∀ o t, r.stop = some o → o = .next t → P t.mem) (w : SlotWord) :
    P (r.slot ex w).state.mem ∧ ∀ o t, (r.slot ex w).stop = some o → o = .next t → P t.mem := by
  unfold Ran.slot
  split
  · split <;> exact ⟨hr, ho⟩
  · split
    · rename_i e
      have ht := h _ _ _ (by exact hr) e
      split
      · exact ⟨ht, ho⟩
      · exact ⟨hr, ho⟩
      · split <;> exact ⟨hr, ho⟩
    · rename_i ne
      exact ⟨hr, fun o t e n => by simp only [Option.some.injEq] at e; exact absurd (e.trans n) (ne t)⟩

theorem State.runGroup_keeps (h : Keeps P ex) {s : State} (hs : P s.mem) (g x : Nat) (q : Group) :
    P (s.runGroup ex g x q).state.mem ∧ ∀ o t, (s.runGroup ex g x q).stop = some o → o = .next t → P t.mem := by
  unfold State.runGroup
  simp only
  split
  · split
    · rename_i e; exact ⟨h _ _ _ (by exact hs) e, fun o t n => by cases n⟩
    · rename_i ne; exact ⟨hs, fun o t e n => by simp only [Option.some.injEq] at e; exact absurd (e.trans n) (ne t)⟩
  · generalize q.order = l
    have start : P ({ s with sys := s.sys.prepare g x q } : State).mem := hs
    generalize ({ s with sys := s.sys.prepare g x q } : State) = st at start ⊢
    suffices ∀ (r : Ran), P r.state.mem → (∀ o t, r.stop = some o → o = .next t → P t.mem) →
        P (l.foldl (Ran.slot ex) r).state.mem ∧ ∀ o t, (l.foldl (Ran.slot ex) r).stop = some o → o = .next t → P t.mem from
      this _ start (fun o t n => by cases n)
    induction l with
    | nil => exact fun r a b => ⟨a, b⟩
    | cons w rest ih => exact fun r a b => ih _ (Ran.slot_keeps h a b w).1 (Ran.slot_keeps h a b w).2

theorem State.also_keeps (h : Keeps P ex) {s : State} (hs : P s.mem) (i : Instr) {next : State → Tried} (hn : ∀ t, P t.mem → (next t).Has P) :
    (s.also ex i next).Has P := by
  unfold State.also
  split
  · rename_i e; exact hn _ (h _ _ _ hs e)
  · rename_i ne; exact fun t e => absurd e (ne t)

theorem State.settle_keeps (h : Keeps P ex) {s : State} (hs : P s.mem) (g : Nat) (x : Fin 4) (q : Group) : (s.settle ex g x q).Has P := by
  have k := State.runGroup_keeps h hs g x q
  unfold State.settle
  simp only
  split
  · rename_i e; exact fun t n => k.2 _ t e n
  · split
    · exact hs
    · split
      · exact State.also_keeps h hs _ fun t ht => ht
      · split
        · exact hs
        · exact k.1

theorem State.holdClosed_keeps (h : Keeps P ex) {s : State} (hs : P s.mem) (g : Nat) (x : Fin 4) (v : Bool) : (s.holdClosed ex g x v).Has P := by
  unfold State.holdClosed
  simp only
  split
  · exact State.also_keeps h (by exact hs) _ fun t ht => (ht : P t.mem)
  · exact hs

theorem State.tryOpen_keeps (h : Keeps P ex) {s : State} (hs : P s.mem) (g : Nat) (x : Fin 4) (q : Group) : (s.tryOpen ex g x q).Has P := by
  unfold State.tryOpen
  split
  · exact State.holdClosed_keeps h hs g x _
  · split
    · exact State.holdClosed_keeps h hs g x _
    · exact State.settle_keeps h hs g x q

theorem State.tryGroup_keeps (h : Keeps P ex) {s : State} (hs : P s.mem) (g : Nat) (x : Fin 4) : (s.tryGroup ex g x).Has P := by
  unfold State.tryGroup
  have hu : P ({ s with sys := s.sys.found g x } : State).mem := hs
  generalize ({ s with sys := s.sys.found g x } : State) = u at hu ⊢
  simp only
  split
  · split
    · exact State.also_keeps h hu _ fun t ht => State.tryOpen_keeps h ht _ _ _
    · exact State.holdClosed_keeps h hu _ _ _
  · exact State.tryOpen_keeps h hu _ _ _

/-- A row run in passing keeps the form, whether it goes on or not. -/
theorem keeps_passing (h : Keeps P ex) {s : State} (hs : P s.mem) (i : Instr) : P (match ex i s with | .next t => t | _ => s).mem := by
  split
  · rename_i e; exact h _ _ _ hs e
  · exact hs

theorem State.wake_keeps (h : Keeps P ex) {s : State} (hs : P s.mem) (g but : Nat) : P (s.wake ex g but).mem := by
  unfold State.wake
  generalize ctxNumbers = l
  induction l generalizing s with
  | nil => exact hs
  | cons y rest ih =>
    rw [List.foldl_cons]
    refine ih ?_
    simp only
    split
    · have k : ∀ u : State, P u.mem → P (match u.tryGroup ex g y with
          | .held _ t => t
          | _ => { u with sys := u.sys.modCtx g y fun k => { k with state := .ready, held := false } }).mem := fun u hu => by
        have k := State.tryGroup_keeps h hu g y
        split
        · rename_i e; rw [e] at k; exact k
        · exact hu
      refine k _ ?_
      split
      · exact keeps_passing h hs _
      · exact hs
    · exact hs

theorem State.atBarrier_keeps (h : Keeps P ex) {s : State} (hs : P s.mem) (g : Nat) (x : Fin 4) : P (s.atBarrier ex g x).mem := by
  unfold State.atBarrier
  simp only
  split
  · split
    · exact keeps_passing h (by exact hs) _
    · exact hs
  · exact hs

/-- What the work of a released context writes as it goes on. -/
theorem State.comeBack_writes (s : State) (g : Nat) (x : Fin 4) : ∃ ws, (s.comeBack g x).mem = s.mem.writeAll ws := by
  unfold State.comeBack
  split
  · exact ⟨_, rfl⟩
  · exact ⟨[], rfl⟩

theorem State.turnFrom_keeps (h : Keeps P ex) (hw : ∀ m ws, P m → P (m.writeAll ws)) {s : State} (hs : P s.mem) (g : Nat) (l : List (Fin 4)) : ∀ t, s.turnFrom ex g l = .next t → P t.mem := by
  induction l generalizing s with
  | nil => intro t e; unfold State.turnFrom at e; cases e; exact hs
  | cons x rest ih =>
    intro t e
    unfold State.turnFrom at e
    simp only at e
    split at e
    · exact ih hs t e
    · have hs : P (s.comeBack g x).mem := by obtain ⟨ws, k⟩ := s.comeBack_writes g x; rw [k]; exact hw _ _ hs
      split at e
      · exact ih (State.atBarrier_keeps h hs g x) t e
      · split at e
        · split at e
          · cases e; exact State.wake_keeps h hs g x
          · exact ih hs t e
        · have k := State.tryGroup_keeps h hs g x
          split at e
          · rename_i t' e'; rw [e'] at k; cases e; exact State.wake_keeps h k g x
          · rename_i t' e'; rw [e'] at k; exact ih k t e
          · rename_i t' e'; rw [e'] at k; exact ih k t e
          · rename_i o e'; rw [e'] at k; exact k t e

theorem State.turn_keeps (h : Keeps P ex) (hw : ∀ m ws, P m → P (m.writeAll ws)) {s : State} (hs : P s.mem) (g : Nat) : ∀ t, s.turn ex g = .next t → P t.mem := by
  intro t e
  unfold State.turn at e
  split at e
  · cases e; exact hs
  · exact State.turnFrom_keeps h hw hs g _ t e

end

/-! ## The stages of a cycle write in order -/

theorem Memory.writeAll_append (m : Memory) (a b : List Write) : m.writeAll (a ++ b) = (m.writeAll a).writeAll b := by
  unfold Memory.writeAll; rw [List.foldl_append]

theorem Sys.farAll_writes (s : Sys) (m : Memory) : ∃ ws, (s.farAll m).2 = m.writeAll ws := by
  unfold Sys.farAll
  simp only
  generalize s.agenda.filter (fun e => e.act.isFar) = l
  suffices ∀ (acc : Sys × Memory × List Ev × List Ev), (∃ ws, acc.2.1 = m.writeAll ws) → ∃ ws, (l.foldl (fun (acc : Sys × Memory × List Ev × List Ev) e =>
      let a := acc.1.farAct acc.2.1 acc.2.2.1 acc.2.2.2 e
      (a.1.mend a.2.1, acc.2.1.writeAll a.2.1, if a.2.2 = .performed then acc.2.2.1 else acc.2.2.1 ++ [e], if a.2.2 = .coming then acc.2.2.2 ++ [e] else acc.2.2.2)) acc).2.1 = m.writeAll ws from
    this _ ⟨[], rfl⟩
  induction l with
  | nil => exact fun acc h => h
  | cons e rest ih =>
    intro acc ⟨ws, h⟩
    rw [List.foldl_cons]
    exact ih _ ⟨ws ++ (acc.1.farAct acc.2.1 acc.2.2.1 acc.2.2.2 e).2.1, by simp only [Memory.writeAll_append]; rw [h]⟩

/-- What the performs of a cycle write. -/
theorem State.perform_writes (s : State) : ∃ ws, s.perform.mem = s.mem.writeAll ws := by
  unfold State.perform
  simp only
  obtain ⟨ws, h⟩ := Sys.farAll_writes _ _
  rw [h, ← Memory.writeAll_append]
  exact ⟨_, rfl⟩

/-- What the requests that are tried again write. -/
theorem State.retry_writes (s : State) : ∃ ws, s.retry.mem = s.mem.writeAll ws := by
  unfold State.retry
  suffices ∀ (l : List (Nat × Nat × PeerRequest)) (u : State), (∃ ws, u.mem = s.mem.writeAll ws) →
      ∃ ws, (l.foldl (fun (s : State) q =>
        let r := if q.1 = 16 then s.sys.hostAccess s.mem q.2.1 q.2.2 else s.sys.peerAccess s.mem q.1 q.2.1 q.2.2
        { mem := s.mem.writeAll r.2, sys := r.1.mend r.2 }) u).mem = s.mem.writeAll ws from
    this _ _ ⟨[], rfl⟩
  intro l
  induction l with
  | nil => exact fun u h => h
  | cons q rest ih =>
    intro u ⟨ws, h⟩
    rw [List.foldl_cons]
    exact ih _ ⟨ws ++ _, by rw [Memory.writeAll_append, ← h]⟩

/-- What the start of the next cycle writes. -/
theorem State.advance_writes (s : State) : ∃ ws, s.advance.mem = s.mem.writeAll ws := by
  unfold State.advance
  simp only
  obtain ⟨ws, h⟩ := State.retry_writes _
  rw [h, ← Memory.writeAll_append, ← Memory.writeAll_append]
  exact ⟨_, rfl⟩

theorem State.nextStage_writes (s : State) : ∃ ws, s.nextStage.mem = s.mem.writeAll ws := by
  unfold State.nextStage
  split
  · exact ⟨[], rfl⟩
  · exact ⟨[], rfl⟩
  · exact State.perform_writes _
  · exact State.advance_writes s

/-- If every meaning keeps a form of memory, and writes keep it, a step keeps it. -/
theorem State.microStep_keeps {P : Memory → Prop} {ex : Instr → State → Host.Outcome State Fault Refusal} (h : Keeps P ex)
    (hw : ∀ m ws, P m → P (m.writeAll ws)) {s t : State} (hs : P s.mem) (e : s.microStep ex = .next t) : P t.mem := by
  unfold State.microStep at e
  split at e
  · exact h _ _ _ (by exact hs) e
  · split at e
    · exact h _ _ _ (by exact hs) e
    · exact State.turn_keeps h hw (by exact hs) _ t e
    · cases e
      obtain ⟨ws, k⟩ := State.nextStage_writes s
      rw [k]; exact hw _ _ hs

end Sys2Proof.Machine
end

