-- ==== Sys2Proof/Laws/Meanings.lean ====
section
/-! SUPPORT. What each meaning leaves of memory: a slot's instruction stores nothing at its issue, an event keeps the canonical form. -/

namespace Sys2Proof.Machine

theorem execBra_mem {d : BitVec 26} {σ τ : State} (hτ : execBra d σ = .next τ) : τ.mem = σ.mem := by
  unfold execBra at hτ
  exact State.issue_mem hτ

theorem execBz_mem {a : BitVec 5} {d : BitVec 21} {σ τ : State} (hτ : execBz a d σ = .next τ) : τ.mem = σ.mem := by
  unfold execBz at hτ
  exact State.issue_mem hτ

theorem execBnz_mem {a : BitVec 5} {d : BitVec 21} {σ τ : State} (hτ : execBnz a d σ = .next τ) : τ.mem = σ.mem := by
  unfold execBnz at hτ
  exact State.issue_mem hτ

theorem execJr_mem {a : BitVec 5} {d : BitVec 21} {σ τ : State} (hτ : execJr a d σ = .next τ) : τ.mem = σ.mem := by
  unfold execJr at hτ
  exact State.issue_mem hτ

theorem execLoop_mem {l : BitVec 3} {d : BitVec 23} {σ τ : State} (hτ : execLoop l d σ = .next τ) : τ.mem = σ.mem := by
  unfold execLoop at hτ
  exact State.issue_mem hτ

theorem execEndl_mem {σ τ : State} (hτ : execEndl σ = .next τ) : τ.mem = σ.mem := by
  unfold execEndl at hτ
  exact State.issue_mem hτ

theorem execBreakLoop_mem {σ τ : State} (hτ : execBreakLoop σ = .next τ) : τ.mem = σ.mem := by
  unfold execBreakLoop at hτ
  exact State.issue_mem hτ

theorem execWaits_mem {i : BitVec 1} {m : BitVec 16} {σ τ : State} (hτ : execWaits i m σ = .next τ) : τ.mem = σ.mem := by
  unfold execWaits at hτ
  exact State.issue_mem hτ

theorem execWaitc_mem {a : BitVec 5} {n : BitVec 6} {σ τ : State} (hτ : execWaitc a n σ = .next τ) : τ.mem = σ.mem := by
  unfold execWaitc at hτ
  exact State.issue_mem hτ

theorem execBar_mem {σ τ : State} (hτ : execBar σ = .next τ) : τ.mem = σ.mem := by
  unfold execBar at hτ
  exact State.issue_mem hτ

theorem execFence_mem {k : BitVec 2} {p : BitVec 3} {σ τ : State} (hτ : execFence k p σ = .next τ) : τ.mem = σ.mem := by
  unfold execFence at hτ
  exact State.issue_mem hτ

theorem execCti_mem {a : BitVec 5} {l : BitVec 3} {σ τ : State} (hτ : execCti a l σ = .next τ) : τ.mem = σ.mem := by
  unfold execCti at hτ
  exact State.issue_mem hτ

theorem execRdst_mem {a : BitVec 5} {n : BitVec 9} {σ τ : State} (hτ : execRdst a n σ = .next τ) : τ.mem = σ.mem := by
  unfold execRdst at hτ
  exact State.issue_mem hτ

theorem execWrst_mem {a : BitVec 5} {n : BitVec 9} {σ τ : State} (hτ : execWrst a n σ = .next τ) : τ.mem = σ.mem := by
  unfold execWrst at hτ
  exact State.issue_mem hτ

theorem execTick_mem {a : BitVec 5} {σ τ : State} (hτ : execTick a σ = .next τ) : τ.mem = σ.mem := by
  unfold execTick at hτ
  exact State.issue_mem hτ

theorem execFlrd_mem {a : BitVec 5} {l : BitVec 1} {p : BitVec 5} {σ τ : State} (hτ : execFlrd a l p σ = .next τ) : τ.mem = σ.mem := by
  unfold execFlrd at hτ
  exact State.issue_mem hτ

theorem execFlclr_mem {f : BitVec 1} {p : BitVec 18} {σ τ : State} (hτ : execFlclr f p σ = .next τ) : τ.mem = σ.mem := by
  unfold execFlclr at hτ
  exact State.issue_mem hτ

theorem execDigest_mem {a : BitVec 5} {n : BitVec 16} {σ τ : State} (hτ : execDigest a n σ = .next τ) : τ.mem = σ.mem := by
  unfold execDigest at hτ
  exact State.issue_mem hτ

theorem execYield_mem {σ τ : State} (hτ : execYield σ = .next τ) : τ.mem = σ.mem := by
  unfold execYield at hτ
  exact State.issue_mem hτ

theorem execTrap_mem {c : BitVec 16} {σ τ : State} (hτ : execTrap c σ = .next τ) : τ.mem = σ.mem := by
  unfold execTrap at hτ
  exact State.issue_mem hτ

theorem execEret_mem {σ τ : State} (hτ : execEret σ = .next τ) : τ.mem = σ.mem := by
  unfold execEret at hτ
  exact State.issue_mem hτ

theorem execHalt_mem {σ τ : State} (hτ : execHalt σ = .next τ) : τ.mem = σ.mem := by
  unfold execHalt at hτ
  exact State.issue_mem hτ

theorem execNop_mem {r _stop : BitVec 1} {σ τ : State} (hτ : execNop r _stop σ = .next τ) : τ.mem = σ.mem := by
  unfold execNop at hτ
  exact State.issue_mem hτ

theorem execAdd_mem {d a b : BitVec 5} {σ τ : State} (hτ : execAdd d a b σ = .next τ) : τ.mem = σ.mem := by
  unfold execAdd at hτ
  exact State.int2_mem hτ

theorem execAddImm_mem {d a : BitVec 5} {i : BitVec 14} {σ τ : State} (hτ : execAddImm d a i σ = .next τ) : τ.mem = σ.mem := by
  unfold execAddImm at hτ
  exact State.scalarOp_mem hτ

theorem execSub_mem {d a b : BitVec 5} {σ τ : State} (hτ : execSub d a b σ = .next τ) : τ.mem = σ.mem := by
  unfold execSub at hτ
  exact State.int2_mem hτ

theorem execAnd_mem {d a b : BitVec 5} {σ τ : State} (hτ : execAnd d a b σ = .next τ) : τ.mem = σ.mem := by
  unfold execAnd at hτ
  exact State.int2_mem hτ

theorem execAndImm_mem {d a : BitVec 5} {i : BitVec 14} {σ τ : State} (hτ : execAndImm d a i σ = .next τ) : τ.mem = σ.mem := by
  unfold execAndImm at hτ
  exact State.scalarOp_mem hτ

theorem execOr_mem {d a b : BitVec 5} {σ τ : State} (hτ : execOr d a b σ = .next τ) : τ.mem = σ.mem := by
  unfold execOr at hτ
  exact State.int2_mem hτ

theorem execXor_mem {d a b : BitVec 5} {σ τ : State} (hτ : execXor d a b σ = .next τ) : τ.mem = σ.mem := by
  unfold execXor at hτ
  exact State.int2_mem hτ

theorem execShl_mem {d a b : BitVec 5} {σ τ : State} (hτ : execShl d a b σ = .next τ) : τ.mem = σ.mem := by
  unfold execShl at hτ
  exact State.int2_mem hτ

theorem execShlImm_mem {d a : BitVec 5} {i : BitVec 14} {σ τ : State} (hτ : execShlImm d a i σ = .next τ) : τ.mem = σ.mem := by
  unfold execShlImm at hτ
  exact State.scalarOp_mem hτ

theorem execShr_mem {d a b : BitVec 5} {σ τ : State} (hτ : execShr d a b σ = .next τ) : τ.mem = σ.mem := by
  unfold execShr at hτ
  exact State.int2_mem hτ

theorem execShrImm_mem {d a : BitVec 5} {i : BitVec 14} {σ τ : State} (hτ : execShrImm d a i σ = .next τ) : τ.mem = σ.mem := by
  unfold execShrImm at hτ
  exact State.scalarOp_mem hτ

theorem execSar_mem {d a b : BitVec 5} {σ τ : State} (hτ : execSar d a b σ = .next τ) : τ.mem = σ.mem := by
  unfold execSar at hτ
  exact State.int2_mem hτ

theorem execMin_mem {d a : BitVec 5} {u : BitVec 1} {b : BitVec 5} {σ τ : State} (hτ : execMin d a u b σ = .next τ) : τ.mem = σ.mem := by
  unfold execMin at hτ
  exact State.int2_mem hτ

theorem execMax_mem {d a : BitVec 5} {u : BitVec 1} {b : BitVec 5} {σ τ : State} (hτ : execMax d a u b σ = .next τ) : τ.mem = σ.mem := by
  unfold execMax at hτ
  exact State.int2_mem hτ

theorem execCmpeq_mem {d a b : BitVec 5} {σ τ : State} (hτ : execCmpeq d a b σ = .next τ) : τ.mem = σ.mem := by
  unfold execCmpeq at hτ
  exact State.int2_mem hτ

theorem execCmplt_mem {d a b : BitVec 5} {σ τ : State} (hτ : execCmplt d a b σ = .next τ) : τ.mem = σ.mem := by
  unfold execCmplt at hτ
  exact State.int2_mem hτ

theorem execCmpltu_mem {d a b : BitVec 5} {σ τ : State} (hτ : execCmpltu d a b σ = .next τ) : τ.mem = σ.mem := by
  unfold execCmpltu at hτ
  exact State.int2_mem hτ

theorem execMul_mem {d a b : BitVec 5} {σ τ : State} (hτ : execMul d a b σ = .next τ) : τ.mem = σ.mem := by
  unfold execMul at hτ
  exact State.int2_mem hτ

theorem execMulh_mem {d a : BitVec 5} {u : BitVec 1} {b : BitVec 5} {σ τ : State} (hτ : execMulh d a u b σ = .next τ) : τ.mem = σ.mem := by
  unfold execMulh at hτ
  exact State.int2_mem hτ

theorem execClmul_mem {d a b : BitVec 5} {σ τ : State} (hτ : execClmul d a b σ = .next τ) : τ.mem = σ.mem := by
  unfold execClmul at hτ
  exact State.int2_mem hτ

theorem execClmulh_mem {d a b : BitVec 5} {σ τ : State} (hτ : execClmulh d a b σ = .next τ) : τ.mem = σ.mem := by
  unfold execClmulh at hτ
  exact State.int2_mem hτ

theorem execBrev_mem {d a : BitVec 5} {w : BitVec 2} {σ τ : State} (hτ : execBrev d a w σ = .next τ) : τ.mem = σ.mem := by
  unfold execBrev at hτ
  exact State.scalarOp_mem hτ

theorem execPopc_mem {d a : BitVec 5} {σ τ : State} (hτ : execPopc d a σ = .next τ) : τ.mem = σ.mem := by
  unfold execPopc at hτ
  exact State.scalarOp_mem hτ

theorem execMov_mem {d a : BitVec 5} {σ τ : State} (hτ : execMov d a σ = .next τ) : τ.mem = σ.mem := by
  unfold execMov at hτ
  exact State.scalarOp_mem hτ

theorem execMovx_mem {d a : BitVec 5} {σ τ : State} (hτ : execMovx d a σ = .next τ) : τ.mem = σ.mem := by
  unfold execMovx at hτ
  exact State.issue_mem hτ

theorem execLimm_mem {d : BitVec 5} {q : BitVec 2} {i : BitVec 16} {σ τ : State} (hτ : execLimm d q i σ = .next τ) : τ.mem = σ.mem := by
  unfold execLimm at hτ
  exact State.issue_mem hτ

theorem execMovStaging_mem {a : BitVec 5} {n : BitVec 6} {σ τ : State} (hτ : execMovStaging a n σ = .next τ) : τ.mem = σ.mem := by
  unfold execMovStaging at hτ
  exact State.issue_mem hτ

theorem execLd_mem {d a : BitVec 5} {i : BitVec 14} {σ τ : State} (hτ : execLd d a i σ = .next τ) : τ.mem = σ.mem := by
  unfold execLd at hτ
  exact State.issue_mem hτ

theorem execSt_mem {d a : BitVec 5} {i : BitVec 14} {σ τ : State} (hτ : execSt d a i σ = .next τ) : τ.mem = σ.mem := by
  unfold execSt at hτ
  exact State.issue_mem hτ

theorem execFadd_mem {d a : BitVec 5} {o : BitVec 1} {m : BitVec 3} {b : BitVec 5} {σ τ : State} (hτ : execFadd d a o m b σ = .next τ) : τ.mem = σ.mem := by
  unfold execFadd at hτ
  exact State.f32Op_mem hτ

theorem execFmul_mem {d a : BitVec 5} {o : BitVec 1} {m : BitVec 3} {b : BitVec 5} {σ τ : State} (hτ : execFmul d a o m b σ = .next τ) : τ.mem = σ.mem := by
  unfold execFmul at hτ
  exact State.f32Op_mem hτ

theorem execFma_mem {d a : BitVec 5} {o : BitVec 1} {m : BitVec 3} {b : BitVec 5} {σ τ : State} (hτ : execFma d a o m b σ = .next τ) : τ.mem = σ.mem := by
  unfold execFma at hτ
  exact State.f32Op_mem hτ

theorem execFcmp_mem {d a : BitVec 5} {n : BitVec 5} {b : BitVec 5} {σ τ : State} (hτ : execFcmp d a n b σ = .next τ) : τ.mem = σ.mem := by
  unfold execFcmp at hτ
  exact State.f32Op_mem hτ

theorem execFcvt_mem {d a : BitVec 5} {o : BitVec 1} {m : BitVec 3} {n : BitVec 5} {σ τ : State} (hτ : execFcvt d a o m n σ = .next τ) : τ.mem = σ.mem := by
  unfold execFcvt at hτ
  exact State.f32Op_mem hτ

theorem execPset_mem {p a : BitVec 5} {σ τ : State} (hτ : execPset p a σ = .next τ) : τ.mem = σ.mem := by
  unfold execPset at hτ
  exact State.issue_mem hτ

theorem execPstep_mem {p a : BitVec 5} {σ τ : State} (hτ : execPstep p a σ = .next τ) : τ.mem = σ.mem := by
  unfold execPstep at hτ
  exact State.issue_mem hτ

theorem execPwin_mem {p a : BitVec 5} {σ τ : State} (hτ : execPwin p a σ = .next τ) : τ.mem = σ.mem := by
  unfold execPwin at hτ
  exact State.issue_mem hτ

theorem execPadv_mem {p : BitVec 5} {n : BitVec 16} {σ τ : State} (hτ : execPadv p n σ = .next τ) : τ.mem = σ.mem := by
  unfold execPadv at hτ
  exact State.issue_mem hτ

theorem execSpcfg_mem {p : BitVec 4} {a : BitVec 5} {r : BitVec 2} {σ τ : State} (hτ : execSpcfg p a r σ = .next τ) : τ.mem = σ.mem := by
  unfold execSpcfg at hτ
  exact State.issue_mem hτ

theorem execSprst_mem {p : BitVec 4} {σ τ : State} (hτ : execSprst p σ = .next τ) : τ.mem = σ.mem := by
  unfold execSprst at hτ
  exact State.issue_mem hτ

theorem execXlat_mem {x : BitVec 2} {a : BitVec 5} {σ τ : State} (hτ : execXlat x a σ = .next τ) : τ.mem = σ.mem := by
  unfold execXlat at hτ
  exact State.issue_mem hτ

theorem execXclr_mem {x : BitVec 2} {σ τ : State} (hτ : execXclr x σ = .next τ) : τ.mem = σ.mem := by
  unfold execXclr at hτ
  exact State.issue_mem hτ

theorem execXlatResult_wf {core : Nat} {ctx : Fin 4} {x : BitVec 2} {σ τ : State} (hw : σ.mem.wf = true) (hτ : execXlatResult core ctx x σ = .next τ) : τ.mem.wf = true := by
  unfold execXlatResult at hτ
  exact State.eventOn_wf hw hτ

theorem execVaddF_mem {k : BitVec 3} {d a b : BitVec 6} {p q : BitVec 1} {f : BitVec 2} {σ τ : State} (hτ : execVaddF k d a b p q f σ = .next τ) : τ.mem = σ.mem := by
  unfold execVaddF at hτ
  exact State.vector_mem hτ

theorem execVsubF_mem {k : BitVec 3} {d a b : BitVec 6} {p q : BitVec 1} {f : BitVec 2} {σ τ : State} (hτ : execVsubF k d a b p q f σ = .next τ) : τ.mem = σ.mem := by
  unfold execVsubF at hτ
  exact State.vector_mem hτ

theorem execVmulF_mem {k : BitVec 3} {d a b : BitVec 6} {p q : BitVec 1} {f : BitVec 2} {σ τ : State} (hτ : execVmulF k d a b p q f σ = .next τ) : τ.mem = σ.mem := by
  unfold execVmulF at hτ
  exact State.vector_mem hτ

theorem execVfmaF_mem {k : BitVec 3} {d a b : BitVec 6} {p q : BitVec 1} {f : BitVec 2} {σ τ : State} (hτ : execVfmaF k d a b p q f σ = .next τ) : τ.mem = σ.mem := by
  unfold execVfmaF at hτ
  exact State.vector_mem hτ

theorem execVfmsF_mem {k : BitVec 3} {d a b : BitVec 6} {p q : BitVec 1} {f : BitVec 2} {σ τ : State} (hτ : execVfmsF k d a b p q f σ = .next τ) : τ.mem = σ.mem := by
  unfold execVfmsF at hτ
  exact State.vector_mem hτ

theorem execVfnmaF_mem {k : BitVec 3} {d a b : BitVec 6} {p q : BitVec 1} {f : BitVec 2} {σ τ : State} (hτ : execVfnmaF k d a b p q f σ = .next τ) : τ.mem = σ.mem := by
  unfold execVfnmaF at hτ
  exact State.vector_mem hτ

theorem execVdivF_mem {k : BitVec 3} {d a b : BitVec 6} {p q : BitVec 1} {f : BitVec 2} {σ τ : State} (hτ : execVdivF k d a b p q f σ = .next τ) : τ.mem = σ.mem := by
  unfold execVdivF at hτ
  exact State.vector_mem hτ

theorem execVsqrtF_mem {k : BitVec 3} {d a : BitVec 6} {p : BitVec 1} {f : BitVec 2} {σ τ : State} (hτ : execVsqrtF k d a p f σ = .next τ) : τ.mem = σ.mem := by
  unfold execVsqrtF at hτ
  exact State.vector_mem hτ

theorem execVmaxF_mem {k : BitVec 3} {d a b : BitVec 6} {p q : BitVec 1} {f : BitVec 2} {σ τ : State} (hτ : execVmaxF k d a b p q f σ = .next τ) : τ.mem = σ.mem := by
  unfold execVmaxF at hτ
  exact State.vector_mem hτ

theorem execVminF_mem {k : BitVec 3} {d a b : BitVec 6} {p q : BitVec 1} {f : BitVec 2} {σ τ : State} (hτ : execVminF k d a b p q f σ = .next τ) : τ.mem = σ.mem := by
  unfold execVminF at hτ
  exact State.vector_mem hτ

theorem execVabsF_mem {k : BitVec 3} {d a : BitVec 6} {p : BitVec 1} {f : BitVec 2} {σ τ : State} (hτ : execVabsF k d a p f σ = .next τ) : τ.mem = σ.mem := by
  unfold execVabsF at hτ
  exact State.vector_mem hτ

theorem execVnegF_mem {k : BitVec 3} {d a : BitVec 6} {p : BitVec 1} {f : BitVec 2} {σ τ : State} (hτ : execVnegF k d a p f σ = .next τ) : τ.mem = σ.mem := by
  unfold execVnegF at hτ
  exact State.vector_mem hτ

theorem execVexp2F_mem {k : BitVec 3} {d a : BitVec 6} {p : BitVec 1} {f : BitVec 2} {σ τ : State} (hτ : execVexp2F k d a p f σ = .next τ) : τ.mem = σ.mem := by
  unfold execVexp2F at hτ
  exact State.vector_mem hτ

theorem execVlog2F_mem {k : BitVec 3} {d a : BitVec 6} {p : BitVec 1} {f : BitVec 2} {σ τ : State} (hτ : execVlog2F k d a p f σ = .next τ) : τ.mem = σ.mem := by
  unfold execVlog2F at hτ
  exact State.vector_mem hτ

theorem execVrcpF_mem {k : BitVec 3} {d a : BitVec 6} {p : BitVec 1} {f : BitVec 2} {σ τ : State} (hτ : execVrcpF k d a p f σ = .next τ) : τ.mem = σ.mem := by
  unfold execVrcpF at hτ
  exact State.vector_mem hτ

theorem execVrsqF_mem {k : BitVec 3} {d a : BitVec 6} {p : BitVec 1} {f : BitVec 2} {σ τ : State} (hτ : execVrsqF k d a p f σ = .next τ) : τ.mem = σ.mem := by
  unfold execVrsqF at hτ
  exact State.vector_mem hτ

theorem execVsinF_mem {k : BitVec 3} {d a : BitVec 6} {p : BitVec 1} {f : BitVec 2} {σ τ : State} (hτ : execVsinF k d a p f σ = .next τ) : τ.mem = σ.mem := by
  unfold execVsinF at hτ
  exact State.vector_mem hτ

theorem execVcosF_mem {k : BitVec 3} {d a : BitVec 6} {p : BitVec 1} {f : BitVec 2} {σ τ : State} (hτ : execVcosF k d a p f σ = .next τ) : τ.mem = σ.mem := by
  unfold execVcosF at hτ
  exact State.vector_mem hτ

theorem execVtanhF_mem {k : BitVec 3} {d a : BitVec 6} {p : BitVec 1} {f : BitVec 2} {σ τ : State} (hτ : execVtanhF k d a p f σ = .next τ) : τ.mem = σ.mem := by
  unfold execVtanhF at hτ
  exact State.vector_mem hτ

theorem execVcmpeqF_mem {k d : BitVec 3} {a b : BitVec 6} {p q : BitVec 1} {f : BitVec 2} {σ τ : State} (hτ : execVcmpeqF k d a b p q f σ = .next τ) : τ.mem = σ.mem := by
  unfold execVcmpeqF at hτ
  exact State.vector_mem hτ

theorem execVcmpneF_mem {k d : BitVec 3} {a b : BitVec 6} {p q : BitVec 1} {f : BitVec 2} {σ τ : State} (hτ : execVcmpneF k d a b p q f σ = .next τ) : τ.mem = σ.mem := by
  unfold execVcmpneF at hτ
  exact State.vector_mem hτ

theorem execVcmpltF_mem {k d : BitVec 3} {a b : BitVec 6} {p q : BitVec 1} {f : BitVec 2} {σ τ : State} (hτ : execVcmpltF k d a b p q f σ = .next τ) : τ.mem = σ.mem := by
  unfold execVcmpltF at hτ
  exact State.vector_mem hτ

theorem execVcmpleF_mem {k d : BitVec 3} {a b : BitVec 6} {p q : BitVec 1} {f : BitVec 2} {σ τ : State} (hτ : execVcmpleF k d a b p q f σ = .next τ) : τ.mem = σ.mem := by
  unfold execVcmpleF at hτ
  exact State.vector_mem hτ

theorem execVclassF_mem {k : BitVec 3} {d a : BitVec 6} {p : BitVec 1} {f : BitVec 2} {σ τ : State} (hτ : execVclassF k d a p f σ = .next τ) : τ.mem = σ.mem := by
  unfold execVclassF at hτ
  exact State.vector_mem hτ

theorem execVaddS_mem {k : BitVec 3} {d a b : BitVec 6} {p q : BitVec 1} {f : BitVec 2} {σ τ : State} (hτ : execVaddS k d a b p q f σ = .next τ) : τ.mem = σ.mem := by
  unfold execVaddS at hτ
  exact State.vector_mem hτ

theorem execVsubS_mem {k : BitVec 3} {d a b : BitVec 6} {p q : BitVec 1} {f : BitVec 2} {σ τ : State} (hτ : execVsubS k d a b p q f σ = .next τ) : τ.mem = σ.mem := by
  unfold execVsubS at hτ
  exact State.vector_mem hτ

theorem execVmulS_mem {k : BitVec 3} {d a b : BitVec 6} {p q : BitVec 1} {f : BitVec 2} {σ τ : State} (hτ : execVmulS k d a b p q f σ = .next τ) : τ.mem = σ.mem := by
  unfold execVmulS at hτ
  exact State.vector_mem hτ

theorem execVmaxS_mem {k : BitVec 3} {d a b : BitVec 6} {p q : BitVec 1} {f : BitVec 2} {σ τ : State} (hτ : execVmaxS k d a b p q f σ = .next τ) : τ.mem = σ.mem := by
  unfold execVmaxS at hτ
  exact State.vector_mem hτ

theorem execVminS_mem {k : BitVec 3} {d a b : BitVec 6} {p q : BitVec 1} {f : BitVec 2} {σ τ : State} (hτ : execVminS k d a b p q f σ = .next τ) : τ.mem = σ.mem := by
  unfold execVminS at hτ
  exact State.vector_mem hτ

theorem execVcmpeqS_mem {k d : BitVec 3} {a b : BitVec 6} {p q : BitVec 1} {f : BitVec 2} {σ τ : State} (hτ : execVcmpeqS k d a b p q f σ = .next τ) : τ.mem = σ.mem := by
  unfold execVcmpeqS at hτ
  exact State.vector_mem hτ

theorem execVcmpltS_mem {k d : BitVec 3} {a b : BitVec 6} {p q : BitVec 1} {f : BitVec 2} {σ τ : State} (hτ : execVcmpltS k d a b p q f σ = .next τ) : τ.mem = σ.mem := by
  unfold execVcmpltS at hτ
  exact State.vector_mem hτ

theorem execVcmpleS_mem {k d : BitVec 3} {a b : BitVec 6} {p q : BitVec 1} {f : BitVec 2} {σ τ : State} (hτ : execVcmpleS k d a b p q f σ = .next τ) : τ.mem = σ.mem := by
  unfold execVcmpleS at hτ
  exact State.vector_mem hτ

theorem execVaddN_mem {k : BitVec 3} {d a b : BitVec 6} {p q : BitVec 1} {f : BitVec 2} {σ τ : State} (hτ : execVaddN k d a b p q f σ = .next τ) : τ.mem = σ.mem := by
  unfold execVaddN at hτ
  exact State.vector_mem hτ

theorem execVsubN_mem {k : BitVec 3} {d a b : BitVec 6} {p q : BitVec 1} {f : BitVec 2} {σ τ : State} (hτ : execVsubN k d a b p q f σ = .next τ) : τ.mem = σ.mem := by
  unfold execVsubN at hτ
  exact State.vector_mem hτ

theorem execVmulN_mem {k : BitVec 3} {d a b : BitVec 6} {p q : BitVec 1} {f : BitVec 2} {σ τ : State} (hτ : execVmulN k d a b p q f σ = .next τ) : τ.mem = σ.mem := by
  unfold execVmulN at hτ
  exact State.vector_mem hτ

theorem execVmaxN_mem {k : BitVec 3} {d a b : BitVec 6} {p q : BitVec 1} {f : BitVec 2} {σ τ : State} (hτ : execVmaxN k d a b p q f σ = .next τ) : τ.mem = σ.mem := by
  unfold execVmaxN at hτ
  exact State.vector_mem hτ

theorem execVminN_mem {k : BitVec 3} {d a b : BitVec 6} {p q : BitVec 1} {f : BitVec 2} {σ τ : State} (hτ : execVminN k d a b p q f σ = .next τ) : τ.mem = σ.mem := by
  unfold execVminN at hτ
  exact State.vector_mem hτ

theorem execVcmpeqN_mem {k d : BitVec 3} {a b : BitVec 6} {p q : BitVec 1} {f : BitVec 2} {σ τ : State} (hτ : execVcmpeqN k d a b p q f σ = .next τ) : τ.mem = σ.mem := by
  unfold execVcmpeqN at hτ
  exact State.vector_mem hτ

theorem execVcmpltN_mem {k d : BitVec 3} {a b : BitVec 6} {p q : BitVec 1} {f : BitVec 2} {σ τ : State} (hτ : execVcmpltN k d a b p q f σ = .next τ) : τ.mem = σ.mem := by
  unfold execVcmpltN at hτ
  exact State.vector_mem hτ

theorem execVcmpleN_mem {k d : BitVec 3} {a b : BitVec 6} {p q : BitVec 1} {f : BitVec 2} {σ τ : State} (hτ : execVcmpleN k d a b p q f σ = .next τ) : τ.mem = σ.mem := by
  unfold execVcmpleN at hτ
  exact State.vector_mem hτ

theorem execVand_mem {k : BitVec 3} {d a b : BitVec 6} {p q : BitVec 1} {f : BitVec 2} {σ τ : State} (hτ : execVand k d a b p q f σ = .next τ) : τ.mem = σ.mem := by
  unfold execVand at hτ
  exact State.vector_mem hτ

theorem execVor_mem {k : BitVec 3} {d a b : BitVec 6} {p q : BitVec 1} {f : BitVec 2} {σ τ : State} (hτ : execVor k d a b p q f σ = .next τ) : τ.mem = σ.mem := by
  unfold execVor at hτ
  exact State.vector_mem hτ

theorem execVxor_mem {k : BitVec 3} {d a b : BitVec 6} {p q : BitVec 1} {f : BitVec 2} {σ τ : State} (hτ : execVxor k d a b p q f σ = .next τ) : τ.mem = σ.mem := by
  unfold execVxor at hτ
  exact State.vector_mem hτ

theorem execVnot_mem {k : BitVec 3} {d a : BitVec 6} {p : BitVec 1} {f : BitVec 2} {σ τ : State} (hτ : execVnot k d a p f σ = .next τ) : τ.mem = σ.mem := by
  unfold execVnot at hτ
  exact State.vector_mem hτ

theorem execVshl_mem {k : BitVec 3} {d a b : BitVec 6} {p q : BitVec 1} {f : BitVec 2} {σ τ : State} (hτ : execVshl k d a b p q f σ = .next τ) : τ.mem = σ.mem := by
  unfold execVshl at hτ
  exact State.vector_mem hτ

theorem execVshr_mem {k : BitVec 3} {d a b : BitVec 6} {p q : BitVec 1} {f : BitVec 2} {σ τ : State} (hτ : execVshr k d a b p q f σ = .next τ) : τ.mem = σ.mem := by
  unfold execVshr at hτ
  exact State.vector_mem hτ

theorem execVsar_mem {k : BitVec 3} {d a b : BitVec 6} {p q : BitVec 1} {f : BitVec 2} {σ τ : State} (hτ : execVsar k d a b p q f σ = .next τ) : τ.mem = σ.mem := by
  unfold execVsar at hτ
  exact State.vector_mem hτ

theorem execVrot_mem {k : BitVec 3} {d a b : BitVec 6} {p q : BitVec 1} {f : BitVec 2} {σ τ : State} (hτ : execVrot k d a b p q f σ = .next τ) : τ.mem = σ.mem := by
  unfold execVrot at hτ
  exact State.vector_mem hτ

theorem execVcvt_mem {k : BitVec 3} {d a : BitVec 6} {s_ r : BitVec 1} {x : BitVec 4} {w : BitVec 1} {n : BitVec 2} {σ τ : State} (hτ : execVcvt k d a s_ r x w n σ = .next τ) : τ.mem = σ.mem := by
  unfold execVcvt at hτ
  exact State.vector_mem hτ

theorem execVcvtw_mem {k : BitVec 3} {d a : BitVec 6} {w : BitVec 2} {x : BitVec 4} {p g : BitVec 1} {n : BitVec 2} {σ τ : State} (hτ : execVcvtw k d a w x p g n σ = .next τ) : τ.mem = σ.mem := by
  unfold execVcvtw at hτ
  exact State.vector_mem hτ

theorem execSrnd_mem {k : BitVec 3} {d a : BitVec 6} {r : BitVec 5} {p : BitVec 1} {f : BitVec 2} {σ τ : State} (hτ : execSrnd k d a r p f σ = .next τ) : τ.mem = σ.mem := by
  unfold execSrnd at hτ
  exact State.vector_mem hτ

theorem execFilla_mem {k : BitVec 3} {d a : BitVec 6} {x : BitVec 4} {p : BitVec 1} {σ τ : State} (hτ : execFilla k d a x p σ = .next τ) : τ.mem = σ.mem := by
  unfold execFilla at hτ
  exact State.vector_mem hτ

theorem execMkabs_mem {k : BitVec 3} {d : BitVec 6} {x : BitVec 4} {σ τ : State} (hτ : execMkabs k d x σ = .next τ) : τ.mem = σ.mem := by
  unfold execMkabs at hτ
  exact State.vector_mem hτ

theorem execVsel_mem {k : BitVec 3} {d a b : BitVec 6} {p q : BitVec 1} {σ τ : State} (hτ : execVsel k d a b p q σ = .next τ) : τ.mem = σ.mem := by
  unfold execVsel at hτ
  exact State.vector_mem hτ

theorem execVmov_mem {k : BitVec 3} {d a : BitVec 6} {p : BitVec 1} {f : BitVec 2} {σ τ : State} (hτ : execVmov k d a p f σ = .next τ) : τ.mem = σ.mem := by
  unfold execVmov at hτ
  exact State.vector_mem hτ

theorem execVmovFromCn_mem {k : BitVec 3} {d : BitVec 6} {σ τ : State} (hτ : execVmovFromCn k d σ = .next τ) : τ.mem = σ.mem := by
  unfold execVmovFromCn at hτ
  exact State.vector_mem hτ

theorem execVmovToCn_mem {k : BitVec 3} {a : BitVec 6} {p : BitVec 1} {σ τ : State} (hτ : execVmovToCn k a p σ = .next τ) : τ.mem = σ.mem := by
  unfold execVmovToCn at hτ
  exact State.vector_mem hτ

theorem execKand_mem {k d a b : BitVec 3} {σ τ : State} (hτ : execKand k d a b σ = .next τ) : τ.mem = σ.mem := by
  unfold execKand at hτ
  exact State.vector_mem hτ

theorem execKor_mem {k d a b : BitVec 3} {σ τ : State} (hτ : execKor k d a b σ = .next τ) : τ.mem = σ.mem := by
  unfold execKor at hτ
  exact State.vector_mem hτ

theorem execKxor_mem {k d a b : BitVec 3} {σ τ : State} (hτ : execKxor k d a b σ = .next τ) : τ.mem = σ.mem := by
  unfold execKxor at hτ
  exact State.vector_mem hτ

theorem execKnot_mem {k d a : BitVec 3} {σ τ : State} (hτ : execKnot k d a σ = .next τ) : τ.mem = σ.mem := by
  unfold execKnot at hτ
  exact State.vector_mem hτ

theorem execKmov_mem {k d a : BitVec 3} {σ τ : State} (hτ : execKmov k d a σ = .next τ) : τ.mem = σ.mem := by
  unfold execKmov at hτ
  exact State.vector_mem hτ

theorem execKmovVk_mem {k d : BitVec 3} {a : BitVec 6} {p : BitVec 1} {σ τ : State} (hτ : execKmovVk k d a p σ = .next τ) : τ.mem = σ.mem := by
  unfold execKmovVk at hτ
  exact State.vector_mem hτ

theorem execKmovKv_mem {k : BitVec 3} {d : BitVec 6} {a : BitVec 3} {σ τ : State} (hτ : execKmovKv k d a σ = .next τ) : τ.mem = σ.mem := by
  unfold execKmovKv at hτ
  exact State.vector_mem hτ

theorem execKmovAv_mem {k : BitVec 3} {d : BitVec 6} {a : BitVec 3} {σ τ : State} (hτ : execKmovAv k d a σ = .next τ) : τ.mem = σ.mem := by
  unfold execKmovAv at hτ
  exact State.vector_mem hτ

theorem execCntp_mem {k : BitVec 3} {d a : BitVec 6} {x : BitVec 4} {p : BitVec 1} {σ τ : State} (hτ : execCntp k d a x p σ = .next τ) : τ.mem = σ.mem := by
  unfold execCntp at hτ
  exact State.vector_mem hτ

theorem execCntpK_mem {k : BitVec 3} {d : BitVec 6} {a : BitVec 3} {σ τ : State} (hτ : execCntpK k d a σ = .next τ) : τ.mem = σ.mem := by
  unfold execCntpK at hτ
  exact State.vector_mem hτ

theorem execVperm_mem {k : BitVec 3} {d a b : BitVec 6} {p q : BitVec 1} {σ τ : State} (hτ : execVperm k d a b p q σ = .next τ) : τ.mem = σ.mem := by
  unfold execVperm at hτ
  exact State.vector_mem hτ

theorem execVpermB_mem {k : BitVec 3} {d a b : BitVec 6} {p q : BitVec 1} {σ τ : State} (hτ : execVpermB k d a b p q σ = .next τ) : τ.mem = σ.mem := by
  unfold execVpermB at hτ
  exact State.vector_mem hτ

theorem execVbcast_mem {k : BitVec 3} {d a : BitVec 6} {i : BitVec 4} {p : BitVec 1} {σ τ : State} (hτ : execVbcast k d a i p σ = .next τ) : τ.mem = σ.mem := by
  unfold execVbcast at hτ
  exact State.vector_mem hτ

theorem execVbcastB_mem {k : BitVec 3} {d a : BitVec 6} {i : BitVec 4} {p : BitVec 1} {σ τ : State} (hτ : execVbcastB k d a i p σ = .next τ) : τ.mem = σ.mem := by
  unfold execVbcastB at hτ
  exact State.vector_mem hτ

theorem execVrotl_mem {k : BitVec 3} {d a : BitVec 6} {n : BitVec 4} {p : BitVec 1} {σ τ : State} (hτ : execVrotl k d a n p σ = .next τ) : τ.mem = σ.mem := by
  unfold execVrotl at hτ
  exact State.vector_mem hτ

theorem execVrotlSh_mem {k : BitVec 3} {d a : BitVec 6} {n : BitVec 4} {p : BitVec 1} {σ τ : State} (hτ : execVrotlSh k d a n p σ = .next τ) : τ.mem = σ.mem := by
  unfold execVrotlSh at hτ
  exact State.vector_mem hτ

theorem execXg_mem {k : BitVec 3} {d a : BitVec 6} {g : BitVec 3} {σ τ : State} (hτ : execXg k d a g σ = .next τ) : τ.mem = σ.mem := by
  unfold execXg at hτ
  exact State.vector_mem hτ

theorem execXgRel_mem {k : BitVec 3} {d a : BitVec 6} {n : BitVec 3} {σ τ : State} (hτ : execXgRel k d a n σ = .next τ) : τ.mem = σ.mem := by
  unfold execXgRel at hτ
  exact State.vector_mem hτ

theorem execRedadd_mem {k : BitVec 3} {d a : BitVec 6} {c : BitVec 1} {x : BitVec 4} {p : BitVec 1} {σ τ : State} (hτ : execRedadd k d a c x p σ = .next τ) : τ.mem = σ.mem := by
  unfold execRedadd at hτ
  exact State.vector_mem hτ

theorem execRedmul_mem {k : BitVec 3} {d a : BitVec 6} {c : BitVec 1} {x : BitVec 4} {p : BitVec 1} {σ τ : State} (hτ : execRedmul k d a c x p σ = .next τ) : τ.mem = σ.mem := by
  unfold execRedmul at hτ
  exact State.vector_mem hτ

theorem execRedmax_mem {k : BitVec 3} {d a : BitVec 6} {c : BitVec 1} {x : BitVec 4} {p : BitVec 1} {σ τ : State} (hτ : execRedmax k d a c x p σ = .next τ) : τ.mem = σ.mem := by
  unfold execRedmax at hτ
  exact State.vector_mem hτ

theorem execRedmin_mem {k : BitVec 3} {d a : BitVec 6} {c : BitVec 1} {x : BitVec 4} {p : BitVec 1} {σ τ : State} (hτ : execRedmin k d a c x p σ = .next τ) : τ.mem = σ.mem := by
  unfold execRedmin at hτ
  exact State.vector_mem hτ

theorem execRedor_mem {k : BitVec 3} {d a : BitVec 6} {c : BitVec 1} {x : BitVec 4} {p : BitVec 1} {σ τ : State} (hτ : execRedor k d a c x p σ = .next τ) : τ.mem = σ.mem := by
  unfold execRedor at hτ
  exact State.vector_mem hτ

theorem execRedand_mem {k : BitVec 3} {d a : BitVec 6} {c : BitVec 1} {x : BitVec 4} {p : BitVec 1} {σ τ : State} (hτ : execRedand k d a c x p σ = .next τ) : τ.mem = σ.mem := by
  unfold execRedand at hτ
  exact State.vector_mem hτ

theorem execTopk_mem {k : BitVec 3} {d a b : BitVec 6} {p q : BitVec 1} {f : BitVec 2} {σ τ : State} (hτ : execTopk k d a b p q f σ = .next τ) : τ.mem = σ.mem := by
  unfold execTopk at hτ
  exact State.vector_mem hτ

theorem execQpack_mem {k : BitVec 3} {d a : BitVec 6} {n : BitVec 3} {p : BitVec 1} {σ τ : State} (hτ : execQpack k d a n p σ = .next τ) : τ.mem = σ.mem := by
  unfold execQpack at hτ
  exact State.vector_mem hτ

theorem execQunpk_mem {k : BitVec 3} {d a : BitVec 6} {n : BitVec 3} {σ τ : State} (hτ : execQunpk k d a n σ = .next τ) : τ.mem = σ.mem := by
  unfold execQunpk at hτ
  exact State.vector_mem hτ

theorem execAngof_mem {k : BitVec 3} {d a b : BitVec 6} {p q : BitVec 1} {σ τ : State} (hτ : execAngof k d a b p q σ = .next τ) : τ.mem = σ.mem := by
  unfold execAngof at hτ
  exact State.vector_mem hτ

theorem execVclmul_mem {k : BitVec 3} {d a b : BitVec 6} {p q : BitVec 1} {f : BitVec 2} {σ τ : State} (hτ : execVclmul k d a b p q f σ = .next τ) : τ.mem = σ.mem := by
  unfold execVclmul at hτ
  exact State.vector_mem hτ

theorem execVclmulh_mem {k : BitVec 3} {d a b : BitVec 6} {p q : BitVec 1} {f : BitVec 2} {σ τ : State} (hτ : execVclmulh k d a b p q f σ = .next τ) : τ.mem = σ.mem := by
  unfold execVclmulh at hτ
  exact State.vector_mem hτ

theorem execTld_mem {t : BitVec 16} {σ τ : State} (hτ : execTld t σ = .next τ) : τ.mem = σ.mem := by
  unfold execTld at hτ
  exact State.dispatch_mem hτ

theorem execTst_mem {c : BitVec 1} {e : BitVec 8} {t : BitVec 16} {σ τ : State} (hτ : execTst c e t σ = .next τ) : τ.mem = σ.mem := by
  unfold execTst at hτ
  exact State.dispatch_mem hτ

theorem execLdw_mem {w : BitVec 1} {t : BitVec 16} {σ τ : State} (hτ : execLdw w t σ = .next τ) : τ.mem = σ.mem := by
  unfold execLdw at hτ
  exact State.wordAccess_mem hτ

theorem execStw_mem {w : BitVec 1} {t : BitVec 16} {σ τ : State} (hτ : execStw w t σ = .next τ) : τ.mem = σ.mem := by
  unfold execStw at hτ
  exact State.wordAccess_mem hτ

theorem execAtomAdd_mem {w : BitVec 1} {t : BitVec 16} {σ τ : State} (hτ : execAtomAdd w t σ = .next τ) : τ.mem = σ.mem := by
  unfold execAtomAdd at hτ
  exact State.wordAccess_mem hτ

theorem execAtomMin_mem {w : BitVec 1} {t : BitVec 16} {σ τ : State} (hτ : execAtomMin w t σ = .next τ) : τ.mem = σ.mem := by
  unfold execAtomMin at hτ
  exact State.wordAccess_mem hτ

theorem execAtomMax_mem {w : BitVec 1} {t : BitVec 16} {σ τ : State} (hτ : execAtomMax w t σ = .next τ) : τ.mem = σ.mem := by
  unfold execAtomMax at hτ
  exact State.wordAccess_mem hτ

theorem execAtomAnd_mem {w : BitVec 1} {t : BitVec 16} {σ τ : State} (hτ : execAtomAnd w t σ = .next τ) : τ.mem = σ.mem := by
  unfold execAtomAnd at hτ
  exact State.wordAccess_mem hτ

theorem execAtomOr_mem {w : BitVec 1} {t : BitVec 16} {σ τ : State} (hτ : execAtomOr w t σ = .next τ) : τ.mem = σ.mem := by
  unfold execAtomOr at hτ
  exact State.wordAccess_mem hτ

theorem execAtomXor_mem {w : BitVec 1} {t : BitVec 16} {σ τ : State} (hτ : execAtomXor w t σ = .next τ) : τ.mem = σ.mem := by
  unfold execAtomXor at hτ
  exact State.wordAccess_mem hτ

theorem execAtomSwap_mem {w : BitVec 1} {t : BitVec 16} {σ τ : State} (hτ : execAtomSwap w t σ = .next τ) : τ.mem = σ.mem := by
  unfold execAtomSwap at hτ
  exact State.wordAccess_mem hτ

theorem execAtomCas_mem {w : BitVec 1} {t : BitVec 16} {σ τ : State} (hτ : execAtomCas w t σ = .next τ) : τ.mem = σ.mem := by
  unfold execAtomCas at hτ
  exact State.wordAccess_mem hτ

theorem execTileTransferComplete_wf {core id : Nat} {σ τ : State} (hw : σ.mem.wf = true) (hτ : execTileTransferComplete core id σ = .next τ) : τ.mem.wf = true := by
  unfold execTileTransferComplete at hτ
  exact State.eventOn_wf hw hτ

theorem execCpy_mem {t : BitVec 16} {σ τ : State} (hτ : execCpy t σ = .next τ) : τ.mem = σ.mem := by
  unfold execCpy at hτ
  exact State.copy_mem hτ

theorem execCpys_mem {t : BitVec 16} {σ τ : State} (hτ : execCpys t σ = .next τ) : τ.mem = σ.mem := by
  unfold execCpys at hτ
  exact State.copy_mem hτ

theorem execCpyg_mem {t : BitVec 16} {σ τ : State} (hτ : execCpyg t σ = .next τ) : τ.mem = σ.mem := by
  unfold execCpyg at hτ
  exact State.copy_mem hτ

theorem execCpyr_mem {t : BitVec 16} {σ τ : State} (hτ : execCpyr t σ = .next τ) : τ.mem = σ.mem := by
  unfold execCpyr at hτ
  exact State.copy_mem hτ

theorem execCpyst_mem {c : BitVec 1} {e : BitVec 8} {t : BitVec 16} {σ τ : State} (hτ : execCpyst c e t σ = .next τ) : τ.mem = σ.mem := by
  unfold execCpyst at hτ
  exact State.copy_mem hτ

theorem execCpyf_mem {t : BitVec 16} {σ τ : State} (hτ : execCpyf t σ = .next τ) : τ.mem = σ.mem := by
  unfold execCpyf at hτ
  exact State.copy_mem hτ

theorem execCpyrFire_wf {core id : Nat} {σ τ : State} (hw : σ.mem.wf = true) (hτ : execCpyrFire core id σ = .next τ) : τ.mem.wf = true := by
  unfold execCpyrFire at hτ
  exact State.eventOn_wf hw hτ

theorem execCopyComplete_wf {core id : Nat} {σ τ : State} (hw : σ.mem.wf = true) (hτ : execCopyComplete core id σ = .next τ) : τ.mem.wf = true := by
  unfold execCopyComplete at hτ
  exact State.eventOn_wf hw hτ

theorem execOlatch_mem {b : BitVec 2} {v : BitVec 1} {k : BitVec 2} {t : BitVec 16} {σ τ : State} (hτ : execOlatch b v k t σ = .next τ) : τ.mem = σ.mem := by
  unfold execOlatch at hτ
  exact State.dispatch_mem hτ

theorem execOpass_mem {c : BitVec 1} {e : BitVec 8} {t : BitVec 16} {σ τ : State} (hτ : execOpass c e t σ = .next τ) : τ.mem = σ.mem := by
  unfold execOpass at hτ
  exact State.orreryPass_mem hτ

theorem execOpassr_mem {c : BitVec 1} {e : BitVec 8} {t : BitVec 16} {σ τ : State} (hτ : execOpassr c e t σ = .next τ) : τ.mem = σ.mem := by
  unfold execOpassr at hτ
  exact State.orreryPass_mem hτ

theorem execOderive_mem {c : BitVec 1} {e : BitVec 8} {t : BitVec 16} {σ τ : State} (hτ : execOderive c e t σ = .next τ) : τ.mem = σ.mem := by
  unfold execOderive at hτ
  exact State.orreryPass_mem hτ

theorem execOapply_mem {c : BitVec 1} {e : BitVec 8} {t : BitVec 16} {σ τ : State} (hτ : execOapply c e t σ = .next τ) : τ.mem = σ.mem := by
  unfold execOapply at hτ
  exact State.orreryPass_mem hτ

theorem execOfree_mem {t : BitVec 16} {σ τ : State} (hτ : execOfree t σ = .next τ) : τ.mem = σ.mem := by
  unfold execOfree at hτ
  exact State.dispatch_mem hτ

theorem execOsave_mem {n : BitVec 1} {p : BitVec 4} {t : BitVec 16} {σ τ : State} (hτ : execOsave n p t σ = .next τ) : τ.mem = σ.mem := by
  unfold execOsave at hτ
  exact State.dispatch_mem hτ

theorem execOrest_mem {n : BitVec 1} {p : BitVec 4} {t : BitVec 16} {σ τ : State} (hτ : execOrest n p t σ = .next τ) : τ.mem = σ.mem := by
  unfold execOrest at hτ
  exact State.issue_mem hτ

theorem execOdrift_mem {a : BitVec 2} {n : BitVec 4} {t : BitVec 16} {σ τ : State} (hτ : execOdrift a n t σ = .next τ) : τ.mem = σ.mem := by
  unfold execOdrift at hτ
  exact State.dispatch_mem hτ

theorem execOscfg_mem {c : BitVec 2} {e : BitVec 4} {t : BitVec 16} {σ τ : State} (hτ : execOscfg c e t σ = .next τ) : τ.mem = σ.mem := by
  unfold execOscfg at hτ
  exact State.dispatch_mem hτ

theorem execPassFinish_wf {core : Nat} {ctx : Fin 4} {slot : Fin 2} {σ τ : State} (hw : σ.mem.wf = true) (hτ : execPassFinish core ctx slot σ = .next τ) : τ.mem.wf = true := by
  unfold execPassFinish at hτ
  exact State.eventOn_wf hw hτ

theorem execDot_mem {c : BitVec 1} {e : BitVec 8} {t : BitVec 16} {σ τ : State} (hτ : execDot c e t σ = .next τ) : τ.mem = σ.mem := by
  unfold execDot at hτ
  exact State.dotCommand_mem hτ

theorem execDota_mem {c : BitVec 1} {e : BitVec 8} {t : BitVec 16} {σ τ : State} (hτ : execDota c e t σ = .next τ) : τ.mem = σ.mem := by
  unfold execDota at hτ
  exact State.dotCommand_mem hτ

theorem execDcfg_mem {n : BitVec 2} {t : BitVec 16} {σ τ : State} (hτ : execDcfg n t σ = .next τ) : τ.mem = σ.mem := by
  unfold execDcfg at hτ
  exact State.dispatch_mem hτ

theorem execDdrain_mem {n : BitVec 2} {t : BitVec 16} {σ τ : State} (hτ : execDdrain n t σ = .next τ) : τ.mem = σ.mem := by
  unfold execDdrain at hτ
  exact State.dispatch_mem hτ

theorem execDclr_mem {t : BitVec 16} {σ τ : State} (hτ : execDclr t σ = .next τ) : τ.mem = σ.mem := by
  unfold execDclr at hτ
  exact State.dispatch_mem hτ

theorem execDstat_mem {t : BitVec 16} {σ τ : State} (hτ : execDstat t σ = .next τ) : τ.mem = σ.mem := by
  unfold execDstat at hτ
  exact State.dispatch_mem hτ

theorem execAld_mem {d : BitVec 5} {p : BitVec 4} {a b : BitVec 1} {l : BitVec 16} {σ τ : State} (hτ : execAld d p a b l σ = .next τ) : τ.mem = σ.mem := by
  unfold execAld at hτ
  exact State.transfer_mem hτ

theorem execSld_mem {d : BitVec 5} {p : BitVec 4} {a b : BitVec 1} {l : BitVec 16} {σ τ : State} (hτ : execSld d p a b l σ = .next τ) : τ.mem = σ.mem := by
  unfold execSld at hτ
  exact State.transfer_mem hτ

theorem execPtld_mem {d : BitVec 5} {p : BitVec 4} {a b : BitVec 1} {l : BitVec 16} {σ τ : State} (hτ : execPtld d p a b l σ = .next τ) : τ.mem = σ.mem := by
  unfold execPtld at hτ
  exact State.transfer_mem hτ

theorem execAst_mem {d : BitVec 5} {p : BitVec 4} {a b : BitVec 1} {l : BitVec 16} {σ τ : State} (hτ : execAst d p a b l σ = .next τ) : τ.mem = σ.mem := by
  unfold execAst at hτ
  exact State.transfer_mem hτ

theorem execSst_mem {d : BitVec 5} {p : BitVec 4} {a b : BitVec 1} {l : BitVec 16} {σ τ : State} (hτ : execSst d p a b l σ = .next τ) : τ.mem = σ.mem := by
  unfold execSst at hτ
  exact State.transfer_mem hτ

theorem execTrig_mem {e : BitVec 2} {n : BitVec 6} {t : BitVec 16} {σ τ : State} (hτ : execTrig e n t σ = .next τ) : τ.mem = σ.mem := by
  unfold execTrig at hτ
  exact State.queue_mem hτ

theorem execCinc_mem {v : BitVec 2} {n : BitVec 6} {t : BitVec 16} {σ τ : State} (hτ : execCinc v n t σ = .next τ) : τ.mem = σ.mem := by
  unfold execCinc at hτ
  exact State.dispatch_mem hτ

theorem execCset_mem {n : BitVec 6} {t : BitVec 16} {σ τ : State} (hτ : execCset n t σ = .next τ) : τ.mem = σ.mem := by
  unfold execCset at hτ
  exact State.dispatch_mem hτ

theorem execCrd_mem {n : BitVec 6} {t : BitVec 16} {σ τ : State} (hτ : execCrd n t σ = .next τ) : τ.mem = σ.mem := by
  unfold execCrd at hτ
  exact State.dispatch_mem hτ

theorem execEph_mem {t : BitVec 16} {σ τ : State} (hτ : execEph t σ = .next τ) : τ.mem = σ.mem := by
  unfold execEph at hτ
  exact State.dispatch_mem hτ

theorem execAowcfg_mem {l : BitVec 2} {n : BitVec 3} {t : BitVec 16} {σ τ : State} (hτ : execAowcfg l n t σ = .next τ) : τ.mem = σ.mem := by
  unfold execAowcfg at hτ
  exact State.dispatch_mem hτ

theorem execReady_mem {x : BitVec 5} {n : BitVec 3} {t : BitVec 16} {σ τ : State} (hτ : execReady x n t σ = .next τ) : τ.mem = σ.mem := by
  unfold execReady at hτ
  exact State.queue_mem hτ

theorem execEphend_mem {t : BitVec 16} {σ τ : State} (hτ : execEphend t σ = .next τ) : τ.mem = σ.mem := by
  unfold execEphend at hτ
  exact State.dispatch_mem hτ

theorem execEngineCommandStart_wf {core id : Nat} {σ τ : State} (hw : σ.mem.wf = true) (hτ : execEngineCommandStart core id σ = .next τ) : τ.mem.wf = true := by
  unfold execEngineCommandStart at hτ
  exact State.eventOn_wf hw hτ

theorem execReadySlotFire_wf {core : Nat} {ctx : Fin 4} {q : Fin 32} {σ τ : State} (hw : σ.mem.wf = true) (hτ : execReadySlotFire core ctx q σ = .next τ) : τ.mem.wf = true := by
  unfold execReadySlotFire at hτ
  exact State.eventOn_wf hw hτ

theorem execTransitStart_wf {core : Nat} {ctx : Fin 4} {k : Nat} {σ τ : State} (hw : σ.mem.wf = true) (hτ : execTransitStart core ctx k σ = .next τ) : τ.mem.wf = true := by
  unfold execTransitStart at hτ
  exact State.eventOn_wf hw hτ

theorem execTransitComplete_wf {core : Nat} {ctx : Fin 4} {k : Nat} {σ τ : State} (hw : σ.mem.wf = true) (hτ : execTransitComplete core ctx k σ = .next τ) : τ.mem.wf = true := by
  unfold execTransitComplete at hτ
  exact State.eventOn_wf hw hτ

theorem execReadyTimeout_wf {core : Nat} {ctx : Fin 4} {σ τ : State} (hw : σ.mem.wf = true) (hτ : execReadyTimeout core ctx σ = .next τ) : τ.mem.wf = true := by
  unfold execReadyTimeout at hτ
  exact State.eventOn_wf hw hτ

theorem execBarrierRelease_wf {id : Nat} {σ τ : State} (hw : σ.mem.wf = true) (hτ : execBarrierRelease id σ = .next τ) : τ.mem.wf = true := by
  unfold execBarrierRelease at hτ
  exact State.event_wf hw hτ

theorem execRegionCommit_wf {core : Nat} {ctx : Fin 4} {σ τ : State} (hw : σ.mem.wf = true) (hτ : execRegionCommit core ctx σ = .next τ) : τ.mem.wf = true := by
  unfold execRegionCommit at hτ
  exact State.eventOn_wf hw hτ

theorem execDeadlineFault_wf {core : Nat} {ctx : Fin 4} {σ τ : State} (hw : σ.mem.wf = true) (hτ : execDeadlineFault core ctx σ = .next τ) : τ.mem.wf = true := by
  unfold execDeadlineFault at hτ
  exact State.eventOn_wf hw hτ

theorem execDeferredFaultRaise_wf {core : Nat} {ctx : Fin 4} {σ τ : State} (hw : σ.mem.wf = true) (hτ : execDeferredFaultRaise core ctx σ = .next τ) : τ.mem.wf = true := by
  unfold execDeferredFaultRaise at hτ
  exact State.eventOn_wf hw hτ

theorem execTaskFinish_wf {core : Nat} {ctx : Fin 4} {σ τ : State} (hw : σ.mem.wf = true) (hτ : execTaskFinish core ctx σ = .next τ) : τ.mem.wf = true := by
  unfold execTaskFinish at hτ
  exact State.eventOn_wf hw hτ

theorem execDrainHalt_wf {core : Nat} {ctx : Fin 4} {σ τ : State} (hw : σ.mem.wf = true) (hτ : execDrainHalt core ctx σ = .next τ) : τ.mem.wf = true := by
  unfold execDrainHalt at hτ
  exact State.eventOn_wf hw hτ

theorem execTload_wf {id : Nat} {r : CamvelRecord} {σ τ : State} (hw : σ.mem.wf = true) (hτ : execTload id r σ = .next τ) : τ.mem.wf = true := by
  unfold execTload at hτ
  exact State.record_wf hw hτ

theorem execTstore_wf {id : Nat} {r : CamvelRecord} {σ τ : State} (hw : σ.mem.wf = true) (hτ : execTstore id r σ = .next τ) : τ.mem.wf = true := by
  unfold execTstore at hτ
  exact State.record_wf hw hτ

theorem execTcopy_wf {id : Nat} {r : CamvelRecord} {σ τ : State} (hw : σ.mem.wf = true) (hτ : execTcopy id r σ = .next τ) : τ.mem.wf = true := by
  unfold execTcopy at hτ
  exact State.record_wf hw hτ

theorem execTfill_wf {id : Nat} {r : CamvelRecord} {σ τ : State} (hw : σ.mem.wf = true) (hτ : execTfill id r σ = .next τ) : τ.mem.wf = true := by
  unfold execTfill at hτ
  exact State.record_wf hw hτ

theorem execTmap_wf {id : Nat} {r : CamvelRecord} {σ τ : State} (hw : σ.mem.wf = true) (hτ : execTmap id r σ = .next τ) : τ.mem.wf = true := by
  unfold execTmap at hτ
  exact State.record_wf hw hτ

theorem execTrot_wf {id : Nat} {r : CamvelRecord} {σ τ : State} (hw : σ.mem.wf = true) (hτ : execTrot id r σ = .next τ) : τ.mem.wf = true := by
  unfold execTrot at hτ
  exact State.record_wf hw hτ

theorem execTrotr_wf {id : Nat} {r : CamvelRecord} {σ τ : State} (hw : σ.mem.wf = true) (hτ : execTrotr id r σ = .next τ) : τ.mem.wf = true := by
  unfold execTrotr at hτ
  exact State.record_wf hw hτ

theorem execTqr_wf {id : Nat} {r : CamvelRecord} {σ τ : State} (hw : σ.mem.wf = true) (hτ : execTqr id r σ = .next τ) : τ.mem.wf = true := by
  unfold execTqr at hτ
  exact State.record_wf hw hτ

theorem execTapply_wf {id : Nat} {r : CamvelRecord} {σ τ : State} (hw : σ.mem.wf = true) (hτ : execTapply id r σ = .next τ) : τ.mem.wf = true := by
  unfold execTapply at hτ
  exact State.record_wf hw hτ

theorem execTdot_wf {id : Nat} {r : CamvelRecord} {σ τ : State} (hw : σ.mem.wf = true) (hτ : execTdot id r σ = .next τ) : τ.mem.wf = true := by
  unfold execTdot at hτ
  exact State.record_wf hw hτ

theorem execTred_wf {id : Nat} {r : CamvelRecord} {σ τ : State} (hw : σ.mem.wf = true) (hτ : execTred id r σ = .next τ) : τ.mem.wf = true := by
  unfold execTred at hτ
  exact State.record_wf hw hτ

theorem execTnorm_wf {id : Nat} {r : CamvelRecord} {σ τ : State} (hw : σ.mem.wf = true) (hτ : execTnorm id r σ = .next τ) : τ.mem.wf = true := by
  unfold execTnorm at hτ
  exact State.record_wf hw hτ

theorem execTtopk_wf {id : Nat} {r : CamvelRecord} {σ τ : State} (hw : σ.mem.wf = true) (hτ : execTtopk id r σ = .next τ) : τ.mem.wf = true := by
  unfold execTtopk at hτ
  exact State.record_wf hw hτ

theorem execTconv_wf {id : Nat} {r : CamvelRecord} {σ τ : State} (hw : σ.mem.wf = true) (hτ : execTconv id r σ = .next τ) : τ.mem.wf = true := by
  unfold execTconv at hτ
  exact State.record_wf hw hτ

theorem execTgather_wf {id : Nat} {r : CamvelRecord} {σ τ : State} (hw : σ.mem.wf = true) (hτ : execTgather id r σ = .next τ) : τ.mem.wf = true := by
  unfold execTgather at hτ
  exact State.record_wf hw hτ

theorem execTscatter_wf {id : Nat} {r : CamvelRecord} {σ τ : State} (hw : σ.mem.wf = true) (hτ : execTscatter id r σ = .next τ) : τ.mem.wf = true := by
  unfold execTscatter at hτ
  exact State.record_wf hw hτ

theorem execTallred_wf {id : Nat} {r : CamvelRecord} {σ τ : State} (hw : σ.mem.wf = true) (hτ : execTallred id r σ = .next τ) : τ.mem.wf = true := by
  unfold execTallred at hτ
  exact State.record_wf hw hτ

theorem execTbcast_wf {id : Nat} {r : CamvelRecord} {σ τ : State} (hw : σ.mem.wf = true) (hτ : execTbcast id r σ = .next τ) : τ.mem.wf = true := by
  unfold execTbcast at hτ
  exact State.record_wf hw hτ

theorem execTflipv_wf {id : Nat} {r : CamvelRecord} {σ τ : State} (hw : σ.mem.wf = true) (hτ : execTflipv id r σ = .next τ) : τ.mem.wf = true := by
  unfold execTflipv at hτ
  exact State.record_wf hw hτ

theorem execTbar_wf {id : Nat} {r : CamvelRecord} {σ τ : State} (hw : σ.mem.wf = true) (hτ : execTbar id r σ = .next τ) : τ.mem.wf = true := by
  unfold execTbar at hτ
  exact State.record_wf hw hτ

theorem execTmapPlace_wf {id : Nat} {σ τ : State} (hw : σ.mem.wf = true) (hτ : execTmapPlace id σ = .next τ) : τ.mem.wf = true := by
  unfold execTmapPlace at hτ
  exact State.event_wf hw hτ

theorem execBlockDelivery_wf {id : Nat} {pav : BitVec 3} {σ τ : State} (hw : σ.mem.wf = true) (hτ : execBlockDelivery id pav σ = .next τ) : τ.mem.wf = true := by
  unfold execBlockDelivery at hτ
  exact State.event_wf hw hτ

theorem execCamvelRecordComplete_wf {id : Nat} {σ τ : State} (hw : σ.mem.wf = true) (hτ : execCamvelRecordComplete id σ = .next τ) : τ.mem.wf = true := by
  unfold execCamvelRecordComplete at hτ
  exact State.event_wf hw hτ

theorem execGateRelease_wf {win : BitVec 3} {σ τ : State} (hw : σ.mem.wf = true) (hτ : execGateRelease win σ = .next τ) : τ.mem.wf = true := by
  unfold execGateRelease at hτ
  exact State.event_wf hw hτ

theorem execWindowAccept_wf {win : BitVec 3} {σ τ : State} (hw : σ.mem.wf = true) (hτ : execWindowAccept win σ = .next τ) : τ.mem.wf = true := by
  unfold execWindowAccept at hτ
  exact State.event_wf hw hτ

theorem execCompareManifestDone_wf {win : BitVec 3} {σ τ : State} (hw : σ.mem.wf = true) (hτ : execCompareManifestDone win σ = .next τ) : τ.mem.wf = true := by
  unfold execCompareManifestDone at hτ
  exact State.event_wf hw hτ

theorem execTlbInvalidateDone_wf {owner : Fin 5} {σ τ : State} (hw : σ.mem.wf = true) (hτ : execTlbInvalidateDone owner σ = .next τ) : τ.mem.wf = true := by
  unfold execTlbInvalidateDone at hτ
  exact State.event_wf hw hτ

theorem execContextSaveAreaDone_wf {core : Nat} {ctx : Fin 4} {σ τ : State} (hw : σ.mem.wf = true) (hτ : execContextSaveAreaDone core ctx σ = .next τ) : τ.mem.wf = true := by
  unfold execContextSaveAreaDone at hτ
  exact State.eventOn_wf hw hτ

theorem execPreemptionRequest_wf {core : Nat} {ctx : Fin 4} {σ τ : State} (hw : σ.mem.wf = true) (hτ : execPreemptionRequest core ctx σ = .next τ) : τ.mem.wf = true := by
  unfold execPreemptionRequest at hτ
  exact State.eventOn_wf hw hτ

theorem execWindowRecordPortWrite_wf {win : BitVec 3} {r : CamvelRecord} {σ τ : State} (hw : σ.mem.wf = true) (hτ : execWindowRecordPortWrite win r σ = .next τ) : τ.mem.wf = true := by
  unfold execWindowRecordPortWrite at hτ
  rw [State.inspected_mem hτ]; exact hw

theorem execWindowGatePortWrite_wf {win : BitVec 3} {g : Word} {σ τ : State} (hw : σ.mem.wf = true) (hτ : execWindowGatePortWrite win g σ = .next τ) : τ.mem.wf = true := by
  unfold execWindowGatePortWrite at hτ
  rw [State.inspected_mem hτ]; exact hw

theorem execWindowCounterWrite_wf {win : BitVec 3} {tc : BitVec 6} {v : W32} {σ τ : State} (hw : σ.mem.wf = true) (hτ : execWindowCounterWrite win tc v σ = .next τ) : τ.mem.wf = true := by
  unfold execWindowCounterWrite at hτ
  rw [State.inspected_mem hτ]; exact hw

theorem execCompareManifestStart_wf {win : BitVec 3} {addr : Word} {σ τ : State} (hw : σ.mem.wf = true) (hτ : execCompareManifestStart win addr σ = .next τ) : τ.mem.wf = true := by
  unfold execCompareManifestStart at hτ
  exact State.event_wf hw hτ

theorem execTlbInvalidate_wf {owner : Fin 5} {v : Word} {σ τ : State} (hw : σ.mem.wf = true) (hτ : execTlbInvalidate owner v σ = .next τ) : τ.mem.wf = true := by
  unfold execTlbInvalidate at hτ
  rw [State.inspected_mem hτ]; exact hw

theorem execReplay_wf {σ τ : State} (hw : σ.mem.wf = true) (hτ : execReplay σ = .next τ) : τ.mem.wf = true := by
  unfold execReplay at hτ
  rw [State.inspected_mem hτ]; exact hw

theorem execTthaw_wf {blk : FreezeBlock} {v : Word} {σ τ : State} (hw : σ.mem.wf = true) (hτ : execTthaw blk v σ = .next τ) : τ.mem.wf = true := by
  unfold execTthaw at hτ
  rw [State.inspected_mem hτ]; exact hw

theorem execTkill_wf {core : Nat} {v : Word} {σ τ : State} (hw : σ.mem.wf = true) (hτ : execTkill core v σ = .next τ) : τ.mem.wf = true := by
  unfold execTkill at hτ
  exact State.eventOn_wf hw hτ

theorem execCcmdSave_wf {core : Nat} {ctx : Fin 4} {σ τ : State} (hw : σ.mem.wf = true) (hτ : execCcmdSave core ctx σ = .next τ) : τ.mem.wf = true := by
  unfold execCcmdSave at hτ
  exact State.eventOn_wf hw hτ

theorem execCcmdRestore_wf {core : Nat} {ctx : Fin 4} {σ τ : State} (hw : σ.mem.wf = true) (hτ : execCcmdRestore core ctx σ = .next τ) : τ.mem.wf = true := by
  unfold execCcmdRestore at hτ
  exact State.eventOn_wf hw hτ

theorem execCcmdRelease_wf {core : Nat} {ctx : Fin 4} {σ τ : State} (hw : σ.mem.wf = true) (hτ : execCcmdRelease core ctx σ = .next τ) : τ.mem.wf = true := by
  unfold execCcmdRelease at hτ
  exact State.eventOn_wf hw hτ

theorem execCcmdContextReset_wf {core : Nat} {ctx : Fin 4} {σ τ : State} (hw : σ.mem.wf = true) (hτ : execCcmdContextReset core ctx σ = .next τ) : τ.mem.wf = true := by
  unfold execCcmdContextReset at hτ
  exact State.eventOn_wf hw hτ

theorem execPfqpop_wf {σ τ : State} (hw : σ.mem.wf = true) (hτ : execPfqpop σ = .next τ) : τ.mem.wf = true := by
  unfold execPfqpop at hτ
  rw [State.inspected_mem hτ]; exact hw

theorem execAowReadyClear_wf {core : Nat} {n : Fin 8} {t : BitVec 5} {σ τ : State} (hw : σ.mem.wf = true) (hτ : execAowReadyClear core n t σ = .next τ) : τ.mem.wf = true := by
  unfold execAowReadyClear at hτ
  exact State.eventOn_wf hw hτ

theorem execPwrctlWrite_wf {v : Word} {σ τ : State} (hw : σ.mem.wf = true) (hτ : execPwrctlWrite v σ = .next τ) : τ.mem.wf = true := by
  unfold execPwrctlWrite at hτ
  exact State.event_wf hw hτ

theorem execSharedWindowAccess_wf {off : BitVec 36} {len : Nat} {data : Option (List Byte)} {σ τ : State} (hw : σ.mem.wf = true) (hτ : execSharedWindowAccess off len data σ = .next τ) : τ.mem.wf = true := by
  unfold execSharedWindowAccess at hτ
  exact State.event_wf hw hτ

theorem execPeerRequest_wf {link : BitVec 4} {off : BitVec 48} {len : Nat} {op : PeerOp} {σ τ : State} (hw : σ.mem.wf = true) (hτ : execPeerRequest link off len op σ = .next τ) : τ.mem.wf = true := by
  unfold execPeerRequest at hτ
  exact State.event_wf hw hτ

theorem execBootPhaseComplete_wf {ok : Bool} {err : BitVec 8} {σ τ : State} (hw : σ.mem.wf = true) (hτ : execBootPhaseComplete ok err σ = .next τ) : τ.mem.wf = true := by
  unfold execBootPhaseComplete at hτ
  exact State.event_wf hw hτ

theorem execGetVersion_wf {σ τ : State} (hw : σ.mem.wf = true) (hτ : execGetVersion σ = .next τ) : τ.mem.wf = true := by
  unfold execGetVersion at hτ
  exact State.message_wf hw (fun _ _ w r => State.spdm_wf w r) hτ

theorem execGetCapabilities_wf {σ τ : State} (hw : σ.mem.wf = true) (hτ : execGetCapabilities σ = .next τ) : τ.mem.wf = true := by
  unfold execGetCapabilities at hτ
  exact State.message_wf hw (fun _ _ w r => State.spdm_wf w r) hτ

theorem execNegotiateAlgorithms_wf {σ τ : State} (hw : σ.mem.wf = true) (hτ : execNegotiateAlgorithms σ = .next τ) : τ.mem.wf = true := by
  unfold execNegotiateAlgorithms at hτ
  exact State.message_wf hw (fun _ _ w r => State.spdm_wf w r) hτ

theorem execGetDigests_wf {σ τ : State} (hw : σ.mem.wf = true) (hτ : execGetDigests σ = .next τ) : τ.mem.wf = true := by
  unfold execGetDigests at hτ
  exact State.message_wf hw (fun _ _ w r => State.spdm_wf w r) hτ

theorem execGetCertificate_wf {slot : BitVec 3} {σ τ : State} (hw : σ.mem.wf = true) (hτ : execGetCertificate slot σ = .next τ) : τ.mem.wf = true := by
  unfold execGetCertificate at hτ
  exact State.message_wf hw (fun _ _ w r => State.spdm_wf w r) hτ

theorem execChallenge_wf {slot : BitVec 3} {σ τ : State} (hw : σ.mem.wf = true) (hτ : execChallenge slot σ = .next τ) : τ.mem.wf = true := by
  unfold execChallenge at hτ
  exact State.message_wf hw (fun _ _ w r => State.spdm_wf w r) hτ

theorem execGetMeasurements_wf {index : BitVec 8} {σ τ : State} (hw : σ.mem.wf = true) (hτ : execGetMeasurements index σ = .next τ) : τ.mem.wf = true := by
  unfold execGetMeasurements at hτ
  exact State.message_wf hw (fun _ _ w r => State.spdm_wf w r) hτ

theorem execKeyExchange_wf {σ τ : State} (hw : σ.mem.wf = true) (hτ : execKeyExchange σ = .next τ) : τ.mem.wf = true := by
  unfold execKeyExchange at hτ
  exact State.message_wf hw (fun _ _ w r => State.spdm_wf w r) hτ

theorem execKeyUpdate_wf {σ τ : State} (hw : σ.mem.wf = true) (hτ : execKeyUpdate σ = .next τ) : τ.mem.wf = true := by
  unfold execKeyUpdate at hτ
  exact State.message_wf hw (fun _ _ w r => State.spdm_wf w r) hτ

theorem execHeartbeat_wf {σ τ : State} (hw : σ.mem.wf = true) (hτ : execHeartbeat σ = .next τ) : τ.mem.wf = true := by
  unfold execHeartbeat at hτ
  exact State.message_wf hw (fun _ _ w r => State.spdm_wf w r) hτ

theorem execDivisorRaise_wf {σ τ : State} (hw : σ.mem.wf = true) (hτ : execDivisorRaise σ = .next τ) : τ.mem.wf = true := by
  unfold execDivisorRaise at hτ
  exact State.event_wf hw hτ

theorem execStallWindowOpen_wf {cycles : Nat} {σ τ : State} (hw : σ.mem.wf = true) (hτ : execStallWindowOpen cycles σ = .next τ) : τ.mem.wf = true := by
  unfold execStallWindowOpen at hτ
  exact State.event_wf hw hτ

theorem execDivisorLower_wf {σ τ : State} (hw : σ.mem.wf = true) (hτ : execDivisorLower σ = .next τ) : τ.mem.wf = true := by
  unfold execDivisorLower at hτ
  exact State.event_wf hw hτ

theorem execThermalTrip_wf {σ τ : State} (hw : σ.mem.wf = true) (hτ : execThermalTrip σ = .next τ) : τ.mem.wf = true := by
  unfold execThermalTrip at hτ
  exact State.event_wf hw hτ

theorem execSoftError_wf {site : ErrorSite} {correctable : Bool} {σ τ : State} (hw : σ.mem.wf = true) (hτ : execSoftError site correctable σ = .next τ) : τ.mem.wf = true := by
  unfold execSoftError at hτ
  exact State.event_wf hw hτ

theorem execStallWindowClose_wf {σ τ : State} (hw : σ.mem.wf = true) (hτ : execStallWindowClose σ = .next τ) : τ.mem.wf = true := by
  unfold execStallWindowClose at hτ
  exact State.event_wf hw hτ

theorem execTripClear_wf {σ τ : State} (hw : σ.mem.wf = true) (hτ : execTripClear σ = .next τ) : τ.mem.wf = true := by
  unfold execTripClear at hτ
  exact State.event_wf hw hτ

theorem execIdeKeyManagement_wf {activate : Bool} {σ τ : State} (hw : σ.mem.wf = true) (hτ : execIdeKeyManagement activate σ = .next τ) : τ.mem.wf = true := by
  unfold execIdeKeyManagement at hτ
  exact State.event_wf hw hτ

theorem execTileFaultRecordClear_wf {h : FaultHolder} {σ τ : State} (hw : σ.mem.wf = true) (hτ : execTileFaultRecordClear h σ = .next τ) : τ.mem.wf = true := by
  unfold execTileFaultRecordClear at hτ
  split at hτ
  · exact State.eventOn_wf hw hτ
  · exact State.event_wf hw hτ

theorem execTriggeredFire_wf {core : Nat} {ctx : Fin 4} {q : Fin 32} {σ τ : State} (hw : σ.mem.wf = true) (hτ : execTriggeredFire core ctx q σ = .next τ) :
    τ.mem.wf = true := by
  unfold execTriggeredFire at hτ
  exact State.eventOn_wf hw hτ

theorem execReadbackApertureWrite_wf {core : Nat} {off : BitVec 16} {bytes : List Byte} {σ τ : State} (hw : σ.mem.wf = true)
    (hτ : execReadbackApertureWrite core off bytes σ = .next τ) : τ.mem.wf = true := by
  unfold execReadbackApertureWrite at hτ
  split at hτ
  · rw [State.inspected_mem hτ]; exact hw
  · cases hτ

theorem execColdReset_wf {σ τ : State} (hτ : execColdReset σ = .next τ) : τ.mem.wf = true := by cases hτ; rfl

theorem execThermalPowerOff_wf {σ τ : State} (hτ : execThermalPowerOff σ = .next τ) : τ.mem.wf = true := by cases hτ; rfl

theorem execWarmReset_wf {σ τ : State} (hw : σ.mem.wf = true) (hτ : execWarmReset σ = .next τ) : τ.mem.wf = true := by
  cases hτ
  split
  · rfl
  · exact hw

theorem execFunctionLevelReset_wf {σ τ : State} (hw : σ.mem.wf = true) (hτ : execFunctionLevelReset σ = .next τ) : τ.mem.wf = true := by
  cases hτ
  split
  · rfl
  · exact hw

theorem execFinish_wf {σ τ : State} (hw : σ.mem.wf = true) (hτ : execFinish σ = .next τ) : τ.mem.wf = true := by
  unfold execFinish at hτ
  refine State.message_wf hw (fun _ _ hw hτ => ?_) hτ
  split at hτ
  · rename_i e
    have k := State.spdm_wf hw e
    cases hτ
    split <;> exact k
  · rename_i ne
    exact absurd hτ (ne τ)

theorem execHeartbeatLoss_wf {σ τ : State} (hw : σ.mem.wf = true) (hτ : execHeartbeatLoss σ = .next τ) : τ.mem.wf = true := by
  unfold execHeartbeatLoss at hτ
  refine State.message_wf hw (fun _ _ hw hτ => ?_) hτ
  split at hτ
  · cases hτ; exact State.endSession_wf hw _
  · cases hτ; exact hw

theorem execEndSession_wf {σ τ : State} (hw : σ.mem.wf = true) (hτ : execEndSession σ = .next τ) : τ.mem.wf = true := by
  unfold execEndSession at hτ
  refine State.message_wf hw (fun _ _ hw hτ => ?_) hτ
  simp only at hτ
  split at hτ
  · cases hτ; exact hw
  · split at hτ
    · cases hτ; exact State.endSession_wf hw _
    · cases hτ; exact hw

theorem execSeal_wf {va : Word} {digest : BitVec 256} {size : Nat} {σ τ : State} (hw : σ.mem.wf = true) (hτ : execSeal va digest size σ = .next τ) :
    τ.mem.wf = true := by
  unfold execSeal at hτ
  refine State.message_wf hw (fun _ _ hw hτ => ?_) hτ
  simp only at hτ
  split at hτ
  · cases hτ; exact hw
  · split at hτ
    · cases hτ; exact hw
    · cases hτ; exact Sys.rekeyed_wf _ hw

theorem execUnseal_wf {σ τ : State} (hw : σ.mem.wf = true) (hτ : execUnseal σ = .next τ) : τ.mem.wf = true := by
  unfold execUnseal at hτ
  refine State.message_wf hw (fun _ _ hw hτ => ?_) hτ
  simp only at hτ
  split at hτ
  · cases hτ; exact hw
  · split at hτ
    · cases hτ; exact State.opened_wf hw
    · cases hτ; exact hw

theorem ccmdWritten_wf {g : Nat} {v : Word} {σ τ : State} (hw : σ.mem.wf = true) (hτ : ccmdWritten g v σ = .next τ) : τ.mem.wf = true := by
  unfold ccmdWritten at hτ
  simp only at hτ
  split at hτ
  · exact execCcmdRestore_wf hw hτ
  · exact execCcmdRelease_wf hw hτ
  · exact execCcmdContextReset_wf hw hτ
  · exact execCcmdSave_wf hw hτ
  · exact State.event_wf hw hτ

/-- A register write reaches one of the rows that a register stands for, or an inspection, or nothing. -/
theorem State.writeRegister_wf {off : Nat} {v : Word} {be : BitVec 8} {σ τ : State} (hw : σ.mem.wf = true) (hτ : σ.writeRegister off v be = .next τ) :
    τ.mem.wf = true := by
  have nop {υ : State} (e : Host.Outcome.next (φ := Fault) (ρ := Refusal) σ = .next υ) : υ.mem.wf = true := by cases e; exact hw
  have look {f : Sys → Sys} {υ : State} (e : σ.inspected f = .next υ) : υ.mem.wf = true := by rw [State.inspected_mem e]; exact hw
  unfold State.writeRegister at hτ
  simp only at hτ
  split at hτ
  · split at hτ
    · split at hτ
      · exact execWarmReset_wf hw hτ
      · exact State.event_wf hw hτ
    · exact State.event_wf hw hτ
  · split at hτ
    · exact execPfqpop_wf hw hτ
    · split at hτ
      · split at hτ
        · exact execReplay_wf hw hτ
        · exact nop hτ
      · split at hτ
        · exact look hτ
        · exact nop hτ
  · split at hτ
    · exact execCompareManifestStart_wf hw hτ
    · split at hτ
      · split at hτ
        · exact nop hτ
        · exact execWindowCounterWrite_wf hw hτ
      · exact look hτ
  · split at hτ
    · split at hτ
      · exact execTlbInvalidate_wf hw hτ
      · exact nop hτ
    · split at hτ
      · split at hτ
        · exact execTthaw_wf hw hτ
        · exact nop hτ
      · exact look hτ
  · split at hτ
    · exact execTlbInvalidate_wf hw hτ
    · split at hτ
      · split at hτ
        · exact execTthaw_wf hw hτ
        · exact nop hτ
      · exact look hτ
  · split at hτ
    · split at hτ
      · exact execTthaw_wf hw hτ
      · exact nop hτ
    · split at hτ
      · exact look hτ
      · exact nop hτ
  · exact look hτ
  · exact look hτ
  · split at hτ
    · split at hτ
      · exact execTkill_wf hw hτ
      · exact nop hτ
    · split at hτ
      · split at hτ
        · exact ccmdWritten_wf hw hτ
        · exact nop hτ
      · exact look hτ
  · exact nop hτ

theorem execRegisterWrite_wf {off : BitVec 29} {v : Word} {be : BitVec 8} {σ τ : State} (hw : σ.mem.wf = true) (hτ : execRegisterWrite off v be σ = .next τ) :
    τ.mem.wf = true := by
  unfold execRegisterWrite at hτ
  simp only at hτ
  generalize (off.toNat % 8 == 0 && (wholeAccess be || match blockOf off.toNat with | .aperture .. => true | _ => false)) = b at hτ
  split at hτ
  · exact State.writeRegister_wf hw hτ
  · cases hτ; exact hw

end Sys2Proof.Machine
end

