-- ==== Sys2Proof/Tests/Slice0.lean ====
section
/-! SUPPORT. Tests of single words and single steps, with results taken from the spec, and states that meet the hypotheses of the statements. -/

namespace Sys2Proof.Tests
open Sys2Proof Sys2Proof.Machine
/-- The word is an instruction of the slot. -/
def isWord (k : SlotKind) (w : W32) (i : Instr) : Bool :=
  match decodeSlot k w with
  | .ok j => decide (j = i)
  | .error _ => false

/-- Each word decodes to its instruction, which encodes to the word. -/
def reads (k : SlotKind) (l : List (W32 × Instr)) : Bool := l.all fun p => isWord k p.1 p.2 && decide (encode p.2 = some p.1)

/-! ## The encodings (R102, R104 to R111): one word of each row of the opcode table, its fields set, and what it stands for -/

theorem test_decode_control : reads .control [
    (0x04B4B4B5, .bra 11842741),
    (0x08CF0F10, .bz 6 986896),
    (0x0CCF0F10, .bnz 6 986896),
    (0x10CF0F10, .jr 6 986896),
    (0x213C3C3D, .loop 2 3947581),
    (0x24000000, .endl),
    (0x28000000, .breakLoop),
    (0x4001787A, .waits 1 30842),
    (0x44C0001F, .waitc 6 31),
    (0x48000000, .bar),
    (0x4C000015, .fence 2 5),
    (0x50C00003, .cti 6 3),
    (0x60C000F2, .rdst 6 242),
    (0x64C000F2, .wrst 6 242),
    (0x68C00000, .tick 6),
    (0x6CC0001A, .flrd 6 0 26),
    (0x7005E1E3, .flclr 1 123363),
    (0x74C0787A, .digest 6 30842),
    (0x80000000, .yield),
    (0x84000001, .trap 1),
    (0x88000000, .eret),
    (0x8C000000, .halt)] = true := by decide

theorem test_decode_scalar_1 : reads .scalar [
    (0x0134001A, .add 6 16 26),
    (0x113430F3, .addImm 6 16 12531),
    (0x0234001A, .sub 6 16 26),
    (0x0334001A, .and 6 16 26),
    (0x133430F3, .andImm 6 16 12531),
    (0x0434001A, .or 6 16 26),
    (0x0534001A, .xor 6 16 26),
    (0x0634001A, .shl 6 16 26),
    (0x163430F3, .shlImm 6 16 12531),
    (0x0734001A, .shr 6 16 26),
    (0x173430F3, .shrImm 6 16 12531),
    (0x0834001A, .sar 6 16 26),
    (0x09340024, .min 6 16 1 4),
    (0x0A340024, .max 6 16 1 4),
    (0x0B34001A, .cmpeq 6 16 26),
    (0x0C34001A, .cmplt 6 16 26),
    (0x0D34001A, .cmpltu 6 16 26),
    (0x2034001A, .mul 6 16 26),
    (0x21340024, .mulh 6 16 1 4),
    (0x2234001A, .clmul 6 16 26),
    (0x2334001A, .clmulh 6 16 26),
    (0x28340040, .brev 6 16 2)] = true := by decide

theorem test_decode_scalar_2 : reads .scalar [
    (0x29340000, .popc 6 16),
    (0x30340000, .mov 6 16),
    (0x31340000, .movx 6 16),
    (0x3233C3C6, .limm 6 3 50118),
    (0x3301801F, .movStaging 6 31),
    (0x383430F3, .ld 6 16 12531),
    (0x393430F3, .st 6 16 12531),
    (0x4034340E, .fadd 6 16 1 5 14),
    (0x4134340E, .fmul 6 16 1 5 14),
    (0x4234340E, .fma 6 16 1 5 14),
    (0x43340064, .fcmp 6 16 3 4),
    (0x443434E0, .fcvt 6 16 1 5 7)] = true := by decide

theorem test_decode_address : reads .address [
    (0x04D00000, .pset 6 16),
    (0x08D00000, .pstep 6 16),
    (0x0CD00000, .pwin 6 16),
    (0x10C0787A, .padv 6 30842),
    (0x20700002, .spcfg 3 16 2),
    (0x24600000, .sprst 3),
    (0x40300000, .xlat 1 16),
    (0x44200000, .xclr 1)] = true := by decide

theorem test_decode_lane_group_1 : reads .vector [
    (0x029FCC64, .vaddF 2 31 51 6 0 1 0),
    (0x049FCC64, .vsubF 2 31 51 6 0 1 0),
    (0x069FCC64, .vmulF 2 31 51 6 0 1 0),
    (0x089FCC64, .vfmaF 2 31 51 6 0 1 0),
    (0x0A9FCC64, .vfmsF 2 31 51 6 0 1 0),
    (0x0C9FCC64, .vfnmaF 2 31 51 6 0 1 0),
    (0x0E9FCC64, .vdivF 2 31 51 6 0 1 0),
    (0x109FCC09, .vsqrtF 2 31 51 1 1),
    (0x129FCC64, .vmaxF 2 31 51 6 0 1 0),
    (0x149FCC64, .vminF 2 31 51 6 0 1 0),
    (0x169FCC09, .vabsF 2 31 51 1 1),
    (0x189FCC09, .vnegF 2 31 51 1 1),
    (0x209FCC09, .vexp2F 2 31 51 1 1),
    (0x229FCC09, .vlog2F 2 31 51 1 1),
    (0x249FCC09, .vrcpF 2 31 51 1 1),
    (0x269FCC09, .vrsqF 2 31 51 1 1),
    (0x289FCC09, .vsinF 2 31 51 1 1),
    (0x2A9FCC09, .vcosF 2 31 51 1 1),
    (0x2C9FCC09, .vtanhF 2 31 51 1 1),
    (0x3085CC64, .vcmpeqF 2 5 51 6 0 1 0),
    (0x3285CC64, .vcmpneF 2 5 51 6 0 1 0),
    (0x3485CC64, .vcmpltF 2 5 51 6 0 1 0)] = true := by decide

theorem test_decode_lane_group_2 : reads .vector [
    (0x3685CC64, .vcmpleF 2 5 51 6 0 1 0),
    (0x389FCC09, .vclassF 2 31 51 1 1),
    (0x409FCC64, .vaddS 2 31 51 6 0 1 0),
    (0x429FCC64, .vsubS 2 31 51 6 0 1 0),
    (0x449FCC64, .vmulS 2 31 51 6 0 1 0),
    (0x469FCC64, .vmaxS 2 31 51 6 0 1 0),
    (0x489FCC64, .vminS 2 31 51 6 0 1 0),
    (0x4A85CC64, .vcmpeqS 2 5 51 6 0 1 0),
    (0x4C85CC64, .vcmpltS 2 5 51 6 0 1 0),
    (0x4E85CC64, .vcmpleS 2 5 51 6 0 1 0),
    (0x509FCC64, .vaddN 2 31 51 6 0 1 0),
    (0x529FCC64, .vsubN 2 31 51 6 0 1 0),
    (0x549FCC64, .vmulN 2 31 51 6 0 1 0),
    (0x569FCC64, .vmaxN 2 31 51 6 0 1 0),
    (0x589FCC64, .vminN 2 31 51 6 0 1 0),
    (0x5A85CC64, .vcmpeqN 2 5 51 6 0 1 0),
    (0x5C85CC64, .vcmpltN 2 5 51 6 0 1 0),
    (0x5E85CC64, .vcmpleN 2 5 51 6 0 1 0),
    (0x609FCC64, .vand 2 31 51 6 0 1 0),
    (0x629FCC64, .vor 2 31 51 6 0 1 0),
    (0x649FCC64, .vxor 2 31 51 6 0 1 0),
    (0x669FCC09, .vnot 2 31 51 1 1)] = true := by decide

theorem test_decode_lane_group_3 : reads .vector [
    (0x689FCC64, .vshl 2 31 51 6 0 1 0),
    (0x6A9FCC64, .vshr 2 31 51 6 0 1 0),
    (0x6C9FCC64, .vsar 2 31 51 6 0 1 0),
    (0x6E9FCC64, .vrot 2 31 51 6 0 1 0),
    (0x709FCEC2, .vcvt 2 31 51 1 0 12 0 2),
    (0x729FCFCA, .vcvtw 2 31 51 3 12 1 0 2),
    (0x749FCC42, .srnd 2 31 51 4 0 2),
    (0x769FCCC0, .filla 2 31 51 12 0),
    (0x789F00C0, .mkabs 2 31 12),
    (0x7A9FCC66, .vsel 2 31 51 6 0 1),
    (0x7C9FCC09, .vmov 2 31 51 1 1),
    (0x7C9F0012, .vmovFromCn 2 31),
    (0x7C807C2A, .vmovToCn 2 31 1),
    (0x80850030, .kand 2 5 0 3),
    (0x82850030, .kor 2 5 0 3),
    (0x84850030, .kxor 2 5 0 3),
    (0x86850000, .knot 2 5 0),
    (0x88850000, .kmov 2 5 0),
    (0x8885CC18, .kmovVk 2 5 51 1),
    (0x889F0020, .kmovKv 2 31 0),
    (0x889F0030, .kmovAv 2 31 0),
    (0x8A9FCCC0, .cntp 2 31 51 12 0)] = true := by decide

theorem test_decode_lane_group_4 : reads .vector [
    (0x8A9F0200, .cntpK 2 31 0),
    (0x909FCC64, .vperm 2 31 51 6 0 1),
    (0x909FCC65, .vpermB 2 31 51 6 0 1),
    (0x929FCC30, .vbcast 2 31 51 3 0),
    (0x929FCC31, .vbcastB 2 31 51 3 0),
    (0x949FCC30, .vrotl 2 31 51 3 0),
    (0x949FCC31, .vrotlSh 2 31 51 3 0),
    (0x969FCC30, .xg 2 31 51 3),
    (0x969FCCB0, .xgRel 2 31 51 3),
    (0xA09FCDC8, .redadd 2 31 51 1 12 1),
    (0xA29FCDC8, .redmul 2 31 51 1 12 1),
    (0xA49FCDC8, .redmax 2 31 51 1 12 1),
    (0xA69FCDC8, .redmin 2 31 51 1 12 1),
    (0xA89FCDC8, .redor 2 31 51 1 12 1),
    (0xAA9FCDC8, .redand 2 31 51 1 12 1),
    (0xAC9FCC64, .topk 2 31 51 6 0 1 0),
    (0xB09FCC30, .qpack 2 31 51 3 0),
    (0xB29FCC30, .qunpk 2 31 51 3),
    (0xB49FCC64, .angof 2 31 51 6 0 1),
    (0xB69FCC64, .vclmul 2 31 51 6 0 1 0),
    (0xB89FCC64, .vclmulh 2 31 51 6 0 1 0)] = true := by decide

theorem test_decode_tile_memory : reads .tileMem [
    (0x08002D2E, .tld 11566),
    (0x147AC3C6, .tst 1 122 50118),
    (0x1900787A, .ldw 1 30842),
    (0x2100787A, .stw 1 30842),
    (0x4100787A, .atomAdd 1 30842),
    (0x4900787A, .atomMin 1 30842),
    (0x5100787A, .atomMax 1 30842),
    (0x5900787A, .atomAnd 1 30842),
    (0x6100787A, .atomOr 1 30842),
    (0x6900787A, .atomXor 1 30842),
    (0x7100787A, .atomSwap 1 30842),
    (0x7900787A, .atomCas 1 30842)] = true := by decide

theorem test_decode_copy : reads .copy [
    (0x08002D2E, .cpy 11566),
    (0x10002D2E, .cpys 11566),
    (0x18002D2E, .cpyg 11566),
    (0x20002D2E, .cpyr 11566),
    (0x2C7AC3C6, .cpyst 1 122 50118),
    (0x30002D2E, .cpyf 11566)] = true := by decide

theorem test_decode_orrery : reads .orrery [
    (0x09010F12, .olatch 1 0 1 3858),
    (0x147AC3C6, .opass 1 122 50118),
    (0x1C7AC3C6, .opassr 1 122 50118),
    (0x247AC3C6, .oderive 1 122 50118),
    (0x2C7AC3C6, .oapply 1 122 50118),
    (0x30002D2E, .ofree 11566),
    (0x3909C3C6, .osave 1 9 50118),
    (0x4109C3C6, .orest 1 9 50118),
    (0x4809C3C6, .odrift 0 9 50118),
    (0x5109C3C6, .oscfg 1 9 50118)] = true := by decide

theorem test_decode_dot : reads .dot [
    (0x0C7AC3C6, .dot 1 122 50118),
    (0x147AC3C6, .dota 1 122 50118),
    (0x1900787A, .dcfg 1 30842),
    (0x2100787A, .ddrain 1 30842),
    (0x28002D2E, .dclr 11566),
    (0x30002D2E, .dstat 11566)] = true := by decide

theorem test_decode_load : reads .load [
    (0x09A75A5E, .ald 6 9 1 1 23134),
    (0x11A75A5E, .sld 6 9 1 1 23134),
    (0x19A75A5E, .ptld 6 9 1 1 23134),
    (0x21A75A5E, .ast 6 9 1 1 23134),
    (0x29A75A5E, .sst 6 9 1 1 23134)] = true := by decide

theorem test_decode_collective : reads .collective [
    (0x091FC3C6, .trig 1 31 50118),
    (0x111FC3C6, .cinc 1 31 50118),
    (0x180C787A, .cset 12 30842),
    (0x200C787A, .crd 12 30842),
    (0x28002D2E, .eph 11566),
    (0x3105C3C6, .aowcfg 1 5 50118),
    (0x3835C3C6, .ready 6 5 50118),
    (0x40002D2E, .ephend 11566)] = true := by decide

theorem test_decode_nop : decodeNop 0x01000000 = some (.nop 1 0) ∧ decodeNop 0x00800000 = some (.nop 0 1) ∧ decodeNop 0x00800001 = none := by decide

/-- BRA: opcode 0x01 in [31:26], displacement in [25:0] (R104, R122). -/
theorem test_bits_control : isWord .control (0b000001#6 ++ 0b00000000000000000000000101#26) (.bra 5) = true := by decide

/-- ADD: opcode, rd, ra, form bit, `fn`, rb (R105, R140). -/
theorem test_bits_scalar : isWord .scalar (0b00000001#8 ++ 0b00001#5 ++ 0b00010#5 ++ 0b0#1 ++ 0b00000000#8 ++ 0b00011#5) (.add 1 2 3) = true := by decide

/-- PADV: opcode 0x04 in [31:26], pointer, reserved, n (R106, R154). -/
theorem test_bits_address : isWord .address (0b000100#6 ++ 0b10000#5 ++ 0b00000#5 ++ 0b0000000000000100#16) (.padv 16 4) = true := by decide

/-- Reserved values and fields are refused by name (R317). -/
theorem test_refusals :
    (match decodeSlot .control 0 with | .error .unassigned => true | _ => false) = true ∧
    (match decodeSlot .scalar 0x01088023 with | .error .reservedField => true | _ => false) = true ∧
    (match decodeSlot .scalar 0x33038028 with | .error .reservedValue => true | _ => false) = true := by decide

/-! ## Well-formedness: a term that each check refuses -/

theorem test_ill_formed : ([.fence 3 0, .fence 0 6, .cti 0 4, .brev 0 0 3, .movStaging 0 0x28, .fadd 0 0 0 1 0, .fmul 0 0 0 1 0, .fma 0 0 0 1 0,
    .fcmp 0 0 4 0, .fcvt 0 0 0 1 0, .fcvt 0 0 1 0 8, .spcfg 0 0 3] : List Instr).all (fun i => !i.wf) = true := by decide

theorem test_ill_formed_lanes : ([.vaddF 0 0 0 0 0 0 3, .vsqrtF 0 0 0 0 3, .topk 0 0 0 0 0 0 3, .vcvt 0 0 0 0 0 0 0 0, .vcvtw 0 0 0 0 7 0 0 0,
    .filla 0 0 0 5 0, .mkabs 0 0 5, .cntp 0 0 0 11 0, .redadd 0 0 0 0 11 0, .redor 0 0 0 0 4 0, .qpack 0 0 0 7 0, .qunpk 0 0 0 7] : List Instr).all (fun i => !i.wf) = true := by decide

theorem test_ill_formed_engines : ([.tst 0 1 0, .cpyst 0 1 0, .opass 0 1 0, .dot 0 1 0, .odrift 1 1 0, .odrift 2 0 0, .ddrain 3 0, .dcfg 2 0, .ald 0 0 0 0 0,
    .sst 0 0 0 0 0, .trig 3 0 0, .cinc 2 0 0, .aowcfg 0 0 0] : List Instr).all (fun i => !i.wf) = true := by decide

/-! ## One step each, on a small state -/

/-- A running context 0 of core 0 with the whole windows, at a slot of the group at 0x40. -/
def st (slot : Nat) (f : Ctx → Ctx := id) : State :=
  let cur : Cursor := { slot := slot, ord := 32 + slot, grp := 0x40, next := 0x48 }
  let y : Sys := { State.reset.sys with cur := cur }
  { State.reset with sys := y.modCtx 0 0 (fun k => f { k with state := .running, win := wholeWindow }) }

/-- Scalar registers of file A set. -/
def regs (l : List (Nat × Word)) (k : Ctx) : Ctx := { k with regs := { k.regs with a := l.foldl (fun v p => vset v p.1 p.2) k.regs.a } }

/-- Staging registers set. -/
def stage (l : List (Nat × Word)) (k : Ctx) : Ctx := { k with regs := { k.regs with staging := l.foldl (fun v p => vset v p.1 p.2) k.regs.staging } }

/-- The state after a step; the reset state where there is none. -/
def after (o : Host.Outcome State Fault Refusal) : State :=
  match o with
  | .next t => t
  | _ => State.reset

/-- The scalar results on their way: tick, register, value. -/
def landing (s : State) : List (Nat × Nat × Word) := s.sys.agenda.filterMap fun e =>
  match e.act with
  | .scalar _ r _ v => some (e.due, r, v)
  | _ => none

/-- The class and code of the fault of the slot. -/
def faulted (s : State) : Option (Nat × Nat) :=
  match s.sys.cur.verdict with
  | .faulted f => some (f.cls, f.code)
  | _ => none

/-- ADD wraps modulo 2^64 and lands at issue + 1 (R140). -/
theorem test_add_wraps : landing (after (exec (.add 1 2 3) (st 1 (regs [(2, 0xFFFFFFFFFFFFFFFF), (3, 2)])))) = [(1, 1, 1)] := by decide

/-- SUB takes rb from ra (R140). -/
theorem test_sub_order : landing (after (exec (.sub 1 2 3) (st 1 (regs [(2, 5), (3, 7)])))) = [(1, 1, 0xFFFFFFFFFFFFFFFE)] := by decide

/-- The immediate of AND is sign-extended (R140). -/
theorem test_and_immediate : landing (after (exec (.andImm 1 2 0x3FFE) (st 1 (regs [(2, 0xFF00000000000003)])))) = [(1, 1, 0xFF00000000000002)] := by decide

/-- MIN compares as signed, MIN.U as unsigned (R140). -/
theorem test_min_signs : landing (after (exec (.min 1 2 0 3) (st 1 (regs [(2, 0xFFFFFFFFFFFFFFFF), (3, 1)])))) = [(1, 1, 0xFFFFFFFFFFFFFFFF)] ∧
    landing (after (exec (.min 1 2 1 3) (st 1 (regs [(2, 0xFFFFFFFFFFFFFFFF), (3, 1)])))) = [(1, 1, 1)] := by decide

/-- SAR keeps the sign; a distance is taken modulo 64 (R140, R141). -/
theorem test_sar : landing (after (exec (.sar 1 2 3) (st 1 (regs [(2, 0x8000000000000000), (3, 127)])))) = [(1, 1, 0xFFFFFFFFFFFFFFFF)] := by decide

/-- A shift distance of 64 as an immediate is an operand range fault (R141). -/
theorem test_shift_limit : faulted (after (exec (.shlImm 1 2 64) (st 1))) = some (3, 1) := by decide

/-- MULH of −1 and −1 is 0, MULH.U of them 2^64 − 2; both land at issue + 3 (R142). -/
theorem test_mulh : landing (after (exec (.mulh 1 2 0 2) (st 1 (regs [(2, 0xFFFFFFFFFFFFFFFF)])))) = [(3, 1, 0)] ∧
    landing (after (exec (.mulh 1 2 1 2) (st 1 (regs [(2, 0xFFFFFFFFFFFFFFFF)])))) = [(3, 1, 0xFFFFFFFFFFFFFFFE)] := by decide

/-- CLMUL of 3 and 3 is 5: no carry (R143). -/
theorem test_clmul : landing (after (exec (.clmul 1 2 2) (st 1 (regs [(2, 3)])))) = [(3, 1, 5)] := by decide

/-- BREV of 1 is bit 63; POPC counts (R144). -/
theorem test_bits : landing (after (exec (.brev 1 2 0) (st 1 (regs [(2, 1)])))) = [(1, 1, 0x8000000000000000)] ∧
    landing (after (exec (.popc 1 2) (st 1 (regs [(2, 0xF0F)])))) = [(1, 1, 8)] := by decide

/-- FADD: 1 + 2 = 3 in F32, landing at issue + 4 (R149, R150). -/
theorem test_fadd : landing (after (exec (.fadd 1 2 0 0 3) (st 1 (regs [(2, 0x3F800000), (3, 0x40000000)])))) = [(4, 1, 0x40400000)] := by decide

/-- A misaligned LD is an operand range fault; an aligned one is on its way (R148). -/
theorem test_ld : faulted (after (exec (.ld 1 2 4) (st 1))) = some (3, 1) ∧
    ((after (exec (.ld 1 2 8) (st 1))).sys.agenda.map fun e => (e.due, e.phase)) = [(2, 1)] := by decide

/-- BZ takes its branch from the group's own address, and the next group issues at + 2 (R121, R122). -/
theorem test_bz : (after (exec (.bz 2 0x1FFFFF) (st 0))).sys.here.pc = 0x3C ∧ (after (exec (.bz 2 0x1FFFFF) (st 0))).sys.here.readyAt = 2 := by decide

/-- ERET outside a handler is class 2, code 4 (R136, R301). -/
theorem test_eret_outside : faulted (after (exec .eret (st 0))) = some (2, 4) := by decide

/-- TRAP with a handler enabled goes there; EPC holds the fall-through address (R135). -/
theorem test_trap : let t := after (exec (.trap 7) (st 0 fun k => { k with tvecEn := true, tvecAddr := 0x100 }))
    t.sys.here.pc = 0x100 ∧ t.sys.here.epcRet = 0x48 ∧ t.sys.here.causeCode = 7 ∧ t.sys.here.epcInh = true := by decide

/-- FLRD of position 18 is an operand range fault (R131). -/
theorem test_flrd_limit : faulted (after (exec (.flrd 1 0 18) (st 0))) = some (3, 1) := by decide

/-- PADV of −64 from 0 without a window wraps modulo 2^28 (R44, R154). -/
theorem test_padv : ((after (exec (.padv 0 1) (st 3 fun k => { k with regs := { k.regs with ptr := vset k.regs.ptr 0 { step := 0xFFFFC0 } } }))).sys.here.pointer 0).addr = 0xFFFFFC0 := by decide

/-- A TLD with its tile and rows in range joins the engine's queue as the writer of its tile; one of no row is a fault (R190, R322). -/
theorem test_tld : ((after (exec (.tld 0) (st 4 (stage [(18, 0x0000000100000003)])))).sys.hereCore.cmds.map fun c => (c.eng, c.writes)) = [(.tm, [3])] ∧
    faulted (after (exec (.tld 0) (st 4))) = some (3, 1) := by decide

/-- A CSET beyond `tcount` is a fault; counter 63 is the last (R212, R322). -/
theorem test_cset : faulted (after (exec (.cset 63 0) (st 9))) = none := by decide

/-- VMUL.S clamps: the product of −2^31 + 1 and 2 gives −2^31 + 1 (R168). -/
theorem test_vmul_clamps :
    let r : BeatRead := ⟨List.replicate 16 0x80000001, List.replicate 16 2, List.replicate 16 0, BitVec.allOnes 16, 0, 0, 0, 0, 0⟩
    ((vwordOf (.vmulS 0 1 2 3 0 0 2)).map fun v => ((v.beat .rne false [r]).words.headD (0, [])).2.getD 15 none) = some (some 0x80000001) := by decide

/-- VADD.N of an absent code gives the absent code (R62). -/
theorem test_vadd_absent :
    let r : BeatRead := ⟨List.replicate 16 0xFFFFFFFF, List.replicate 16 2, List.replicate 16 0, BitVec.allOnes 16, 0, 0, 0, 0, 0⟩
    ((vwordOf (.vaddN 0 1 2 3 0 0 2)).map fun v => ((v.beat .rne false [r]).words.headD (0, [])).2.getD 0 none) = some (some 0xFFFFFFFF) := by decide

/-- A lane-group word starts in each lane group that takes it, and in no other (R99, R159). -/
theorem test_vector_starts :
    let s := st 10
    let s : State := { s with sys := { s.sys with cur := { s.sys.cur with lanes := [0, 7] } } }
    let c := (after (exec (.vand 0 1 2 3 0 0 2) s)).sys.hereCore
    (vget c.lane 0).isSome = true ∧ (vget c.lane 7).isSome = true ∧ vget c.lane 1 = none := by decide

/-- The F32 quotient 1/3 rounds to 0x3EAAAAAB, and to 0x3EAAAAAA toward zero (R68). -/
theorem test_third : (FloatFmt.f32.deliver .rne false ((FloatFmt.f32.decode false 0x3F800000).div (FloatFmt.f32.decode false 0x40400000))).1 = 0x3EAAAAAB ∧
    (FloatFmt.f32.deliver .rtz false ((FloatFmt.f32.decode false 0x3F800000).div (FloatFmt.f32.decode false 0x40400000))).1 = 0x3EAAAAAA := by decide

/-- 2^0 = 1 and log2 8 = 3 exactly (R165). -/
theorem test_exact_functions : FloatFmt.f32.deliver .rne false (FloatFmt.f32.decode false 0).exp2 = (0x3F800000, Flags.none) ∧
    FloatFmt.f32.deliver .rne false (FloatFmt.f32.decode false 0x41000000).log2 = (0x40400000, Flags.none) := by decide

/-- A CPY of 64 bytes joins the copy engine's queue; one of 32 bytes is a fault (R196, R322). -/
theorem test_cpy : ((after (exec (.cpy 0) (st 5 (stage [(26, 64)])))).sys.hereCore.cmds.map fun c => c.eng) = [.cp] ∧
    faulted (after (exec (.cpy 0) (st 5 (stage [(26, 32)])))) = some (3, 1) := by decide

/-- An OPASS of no row is a fault; one of one row runs (R81, R201). -/
theorem test_opass : faulted (after (exec (.opass 0 0 0) (st 6))) = some (3, 1) ∧ faulted (after (exec (.opass 0 0 0) (st 6 (stage [(0, 0x10000)])))) = none := by decide

/-- DDRAIN of four means needs a format; a count drains as N32 (R208). -/
theorem test_ddrain : faulted (after (exec (.ddrain 2 0) (st 7))) = some (3, 1) ∧ faulted (after (exec (.ddrain 2 0) (st 7 (stage [(10, 0xE0)])))) = none := by decide

/-- An ALD whose length passes the end of angle memory is a fault (R211, R322). -/
theorem test_ald : faulted (after (exec (.ald 16 0 0 0 1) (st 8))) = none ∧
    faulted (after (exec (.ald 16 0 0 0 1) (st 8 fun k => { k with regs := { k.regs with ptr := vset k.regs.ptr 16 { addr := 0x3FFFF } } }))) = some (3, 1) := by decide

/-- A TRIG takes the lowest free slot of the trigger queue (R216). -/
theorem test_trig : (vget (after (exec (.trig 0 5 0) (st 9 (stage [(33, 0x08000000)])))).sys.here.regs.tq 0).map (fun e => (e.tc, e.thr)) = some (5, 0) := by decide

/-- A record port write appends; the 65th entry is dropped with `ovf` (R254). -/
theorem test_window_full :
    let w : TileWindow := { entries := List.replicate 64 (.gate 0) }
    (w.push (.gate 1)).entries.length = 64 ∧ (w.push (.gate 1)).ovf = true := by decide

/-- PFQPOP drops the head (R314). -/
theorem test_pfqpop :
    let s : State := { sys := { pkg := { pfq := [(1, 2, 3, 4), (5, 6, 7, 8)], sec := { ready := true } } } }
    (after (exec .pfqpop s)).sys.pkg.pfq = [(5, 6, 7, 8)] ∧ (after (exec .pfqpop s)).sys.pkg.pfqHead = 1 := by decide

/-- The divisor stops at its bound and sets `alarm` (R355). -/
theorem test_divisor :
    let s : State := { sys := { pkg := { pw := { d := 3 } } } }
    (after (exec .divisorRaise s)).sys.pkg.pw.d = 4 ∧ (after (exec .divisorRaise s)).sys.pkg.pw.alarm = true := by decide

/-- A fifth boot phase makes the device ready (R285). -/
theorem test_boot :
    let s : State := { sys := { pkg := { sec := { phase := 4 } } } }
    (after (exec (.bootPhaseComplete true 0) s)).sys.pkg.sec.ready = true := by decide

/-- A context killed is in state 6 with class 12, code 1 (R342). -/
theorem test_tkill :
    let s := st 0
    let s : State := { s with sys := { s.sys with pkg := { sec := { ready := true } } } }
    let k := (after (exec (.tkill 0 0) s)).sys.ctx 0 0
    k.state = .faulted ∧ k.causeClass = 12 ∧ k.causeCode = 1 := by decide

/-- SHAKE256 of no bytes begins 46 B9 DD 2B (FIPS 202). -/
theorem test_shake : (shake256 []).take 4 = [0x46, 0xB9, 0xDD, 0x2B] := by decide +kernel

/-- An element that arrives in a summing region saturates at 0x7FFF_FFFF (R56). -/
theorem test_accumulate :
    let m : Memory := Memory.put [] 0 (leBytes 4 0x7FFFFFFF)
    (m.write (.accumulate 2 0 1)).word32 0 = 0x7FFFFFFF ∧ (m.write (.accumulate 2 0 0xFFFFFFFF)).word32 0 = 0x7FFFFFFE := by decide

/-- The byte that reads 0 is not listed (canonical form). -/
theorem test_canonical : Memory.put (Memory.put [] 5 [1]) 5 [0] = [] := by decide

/-- The task that withFetchWord places runs its word in the next step. -/
theorem test_fetch : landing (after (step (State.reset.withFetchWord 32 0x01088003))) = [(1, 1, 0)] := by decide

/-! ## States that meet the hypotheses of the statements, at the boundaries of their ranges -/

/-- The state with the module's part changed. -/
def with_ (s : State) (f : Sys → Sys) : State := { s with sys := f s.sys }

theorem test_meets_EncodeDecodeControlScalarAddress :
    (Instr.bra 0x3FFFFFF).kind = some .control ∧ (Instr.bra 0x3FFFFFF).wf = true ∧ (Instr.fcvt 31 31 1 7 7).kind = some .scalar ∧ (Instr.fcvt 31 31 1 7 7).wf = true ∧
    (Instr.padv 31 0xFFFF).kind = some .address ∧ (Instr.padv 31 0xFFFF).wf = true := by decide

theorem test_meets_EncodeDecodeEngines :
    (Instr.tst 1 255 0xFFFF).kind = some .tileMem ∧ (Instr.tst 1 255 0xFFFF).wf = true ∧ (Instr.cpyst 0 0 0).kind = some .copy ∧ (Instr.cpyst 0 0 0).wf = true ∧
    (Instr.odrift 1 0 0).kind = some .orrery ∧ (Instr.odrift 1 0 0).wf = true ∧ (Instr.ddrain 2 0).kind = some .dot ∧ (Instr.ddrain 2 0).wf = true ∧
    (Instr.ald 31 15 1 1 0xFFFF).kind = some .load ∧ (Instr.ald 31 15 1 1 0xFFFF).wf = true ∧ (Instr.trig 2 63 0).kind = some .collective ∧ (Instr.trig 2 63 0).wf = true := by decide

theorem test_meets_EncodeDecodeLaneGroups : (Instr.vaddF 7 63 63 63 1 1 2).kind = some .vector ∧ (Instr.vaddF 7 63 63 63 1 1 2).wf = true := by decide

/-- The lone bundle of an ADD, its turn next: every hypothesis of a step that runs it, the run included. -/
theorem test_meets_StepRunsDecodedInstruction :
    let s := State.reset.withFetchWord 32 0x01088003
    let u := with_ s fun y => { y with turn := [] }
    let own := u.sys.ctx 0 0
    let y := u.comeBack 0 0
    let k := y.sys.ctx 0 0
    let q := groupAt k.task.code k.pc
    s.sys.events = [] ∧ s.sys.programmed = [] ∧ s.sys.stage = 0 ∧ s.sys.turn = [0] ∧ u.sys.windowOpen = false ∧ (u.sys.core 0).sel = 0 ∧ own.live = true ∧ own.region.rback = false ∧
    own.readyAt ≤ u.sys.tick own.timed ∧
    k.barWait = false ∧ k.readyAt ≤ y.sys.tick k.timed ∧ y.sys.fenceHold y.mem 0 0 q = none ∧ k.closesRegion q = false ∧ k.deferred = [] ∧
    q.slots = [⟨1, 0x01088003, [], false⟩] ∧ q.faults = [] ∧ isWord .scalar 0x01088003 (.add 1 2 3) = true ∧
    (after (exec (.add 1 2 3) (with_ y fun y => ((y.found 0 0).prepare 0 0 q).at ⟨1, 0x01088003, [], false⟩))).sys.cur.verdict = .ran := by decide

/-- `etag` 5 without `chk` is one breach, a reserved field (R186); DDRAIN with `sel` 3 and a reserved bit is two (R302, R317). -/
theorem test_one_breach_or_two :
    (match decodeSlot .orrery 0x10050000 with | .error .reservedField => true | _ => false) = true ∧
    (match decodeSlot .dot 0x23010000 with | .error .reservedBoth => true | _ => false) = true := by decide

/-- A bad word, and an instruction that runs, one that holds and one that faults; a further copy of a broadcast word whose fault is told, and one whose is not. -/
theorem test_meets_SlotsRunInTurn :
    (match (⟨0, 0, [], false⟩ : SlotWord).decode with | .error .unassigned => true | _ => false) = true ∧
    (match (⟨1, 0x01088003, [], false⟩ : SlotWord).decode with | .ok i => decide (i = .add 1 2 3) | _ => false) = true ∧
    (after (exec (.add 1 2 3) (st 1))).sys.cur.verdict = .ran ∧
    (after (exec (.tick 1) (st 0 (regs [(1, 9)])))).sys.cur.verdict = .held false ∧ faulted (after (exec (.shlImm 1 2 64) (st 1))) = some (3, 1) ∧
    (let f : FaultRec := { cls := 5, code := 1, slot := 12 }
     let l : List FaultRec := [{ cls := 5, code := 1, slot := 10 }]
     (⟨12, 0, [], true⟩ : SlotWord).twin = true ∧ (∃ e ∈ l, e.cls = f.cls ∧ e.code = f.code ∧ 10 ≤ e.slot) ∧ ¬ ∃ e ∈ ([] : List FaultRec), e.cls = f.cls) := by decide

theorem test_meets_StepRunsEventsFirst :
    (with_ State.reset fun y => { y with events := [.coldReset] }).sys.events = [.coldReset] ∧
    (let s := with_ State.reset fun y => { y with programmed := [.pfqpop] }
     s.sys.events = [] ∧ s.sys.programmed = [.pfqpop]) ∧
    (let s := with_ State.reset fun y => { y with turn := [0], pkg := { pw := { stall := true } } }
     s.sys.events = [] ∧ s.sys.programmed = [] ∧ s.sys.stage = 0 ∧ s.sys.turn = [0] ∧ s.sys.pkg.pw.stall = true) := by decide

theorem test_meets_StepKeepsMemoryForm : State.reset.mem.wf = true ∧ (match step State.reset with | .next _ => true | _ => false) = true := by decide

theorem test_meets_MemoryReadAfterWrite : Memory.wf [] = true ∧ Memory.wf [⟨3, 1⟩] = true ∧ (∀ a, Memory.get [] a = Memory.get [] a) ∧ 3 < 4 := by
  refine ⟨by decide, by decide, fun _ => rfl, by decide⟩

/-- Sums at the last value in range and the first beyond it, on both sides. -/
theorem test_meets_AccumulateOnWrite :
    let m : Memory := Memory.put [] 0 (leBytes 4 0x7FFFFFFE)
    let n : Memory := Memory.put [] 0 (leBytes 4 0x80000002)
    m.wf = true ∧ n.wf = true ∧ (m.word32 0).toInt + (1 : W32).toInt = 2147483647 ∧ 2147483647 < (m.word32 0).toInt + (2 : W32).toInt ∧
    (n.word32 0).toInt + (0xFFFFFFFF : W32).toInt = -2147483647 ∧ (n.word32 0).toInt + (0xFFFFFFFE : W32).toInt < -2147483647 ∧
    (Memory.put [] 0 (leBytes 4 0x80000000)).word32 0 = 0x80000000 ∧ (Memory.put [] 0 (leBytes 4 0xFFC00001)).word32 0 = 0xFFC00001 := by decide

theorem test_meets_SlotsStoreNothingAtIssue : (Instr.st 1 2 0).kind ≠ none ∧ (match exec (.st 1 2 0) (st 1) with | .next _ => true | _ => false) = true := by decide

theorem readable (slot : Nat) (f : Ctx → Ctx) (b : Bool) (l : List (BitVec 5)) (h : (st slot f).sys.here.interlocked = false) : Readable (st slot f) b l := .inl h

theorem test_meets_Branches : Readable (st 0) false [1] ∧ (st 0).sys.regA 1 = 0 ∧ Readable (st 0 (regs [(1, 1)])) false [1] ∧ (st 0 (regs [(1, 1)])).sys.regA 1 ≠ 0 :=
  ⟨readable _ _ _ _ (by decide), by decide, readable _ _ _ _ (by decide), by decide⟩

/-- Loop-stack entries set. -/
def loops (l : List (Nat × LoopEntry)) (k : Ctx) : Ctx := { k with regs := { k.regs with loops := l.foldl (fun v p => vset v p.1 p.2) k.regs.loops } }

/-- A task whose six levels are temporal, of `n` iterations. -/
def levels (n : Nat) (k : Ctx) : Ctx := { k with task := { k.task with levels := List.replicate 6 { count := n, budget := 9 } } }

/-- A valid temporal entry. -/
def entry (index count : Nat) : LoopEntry := { index := BitVec.ofNat 32 index, count := BitVec.ofNat 32 count, budget := 9, valid := true }

/-- LOOP at level 0, and at level 5 with the outer five open; a level already open; ENDL of a single entry, and of the innermost of six, with an iteration left and without. -/
theorem test_meets_LoopsOpenTurnAndClose :
    (let k := (st 0 (levels 1)).sys.here
     k.task.levels[0]? = some { count := 1, budget := 9 } ∧ (vget k.regs.loops 0).valid = false) ∧
    (let k := (st 0 fun k => levels 0 (loops [(0, entry 0 1), (1, entry 0 1), (2, entry 0 1), (3, entry 0 1), (4, entry 0 1)] k)).sys.here
     k.task.levels[5]? = some { count := 0, budget := 9 } ∧ (∀ i, i < 5 → (vget k.regs.loops i).valid = true) ∧ (vget k.regs.loops 5).valid = false) ∧
    (vget (st 0 fun k => levels 1 (loops [(0, entry 0 1)] k)).sys.here.regs.loops 0).valid = true ∧
    (let k := (st 0 (loops [(0, entry 0 2)])).sys.here
     (vget k.regs.loops 0).valid = true ∧ (vget k.regs.loops 0).kind = .temporal ∧ (∀ i, i < 6 → 0 < i → (vget k.regs.loops i).valid = false) ∧
     (vget k.regs.loops 0).index + 1 < (vget k.regs.loops 0).count) ∧
    (let k := (st 0 (loops [(0, entry 0 2), (5, entry 1 2)])).sys.here
     (vget k.regs.loops 5).valid = true ∧ ¬ (vget k.regs.loops 5).index + 1 < (vget k.regs.loops 5).count) ∧
    (∀ i, i < 6 → (vget (st 0).sys.here.regs.loops i).valid = false) := by decide

/-- A command of the context that is not finished. -/
def cmd (reads writes : List Nat) : Cmd :=
  { id := 1, ctx := 0, eng := .tm, instr := .tld 0, word := 0x08000000, stg := [], rm := .rne, honour := false, ptrs := [], grp := 0, slot := 4, dispatched := 0, start := 0, reads := reads, writes := writes }

/-- Commands of core 0. -/
def cmds (l : List Cmd) (s : State) : State := with_ s fun y => y.modCore 0 fun c => { c with cmds := l }

/-- Tile 15 free, written and read; no tile named; counter 63; a distance of 2^31 − 1 and of 2^31; a tick reached and not. -/
theorem test_meets_WaitsHoldUntilTheirCondition :
    ((0x8000 : BitVec 16) ≠ 0 ∧ (∀ t, t < 16 → (0x8000 : BitVec 16).getLsbD t = true → t < (st 0).sys.here.win.vwin / 4) ∧ (st 0).sys.hereCore.wpend 0 15 = false ∧
      (cmds [cmd [] [15]] (st 0)).sys.hereCore.wpend 0 15 = true ∧ (cmds [cmd [15] []] (st 0)).sys.hereCore.readers 0 15 = 1) ∧
    ¬ (0 : BitVec 16) ≠ 0 ∧ (63 : BitVec 6).toNat < (st 0).sys.here.win.tcount ∧ ¬ (63 : BitVec 6).toNat < (st 0 fun k => { k with win := { wholeWindow with tcount := 63 } }).sys.here.win.tcount ∧
    ((0x7FFFFFFF : W32) - (0 : W32)).toNat < 2 ^ 31 ∧ ¬ ((0x80000000 : W32) - (0 : W32)).toNat < 2 ^ 31 ∧
    (st 0).sys.regA 1 = 0 ∧ 0 < ((st 0 (regs [(1, 1)])).sys.regA 1).toNat := by decide

theorem test_meets_StateRegisterAndFlagAccess :
    ((st 0).sys.stateReg 0 0 0).isSome = true ∧ ((st 0).sys.stateReg 0 0 0x1A0).isSome = true ∧
    (vget (st 0 fun k => { k with probe := vset k.probe 3 (some 1) }).sys.here.probe (0x1A3 - 0x1A0)).isSome = true ∧ (st 0).sys.stateReg 0 0 0x1FF = none ∧
    (st 0).sys.here.wrstOk 4 4 = true ∧ (st 0).sys.here.wrstOk 4 5 = false ∧ (17 : BitVec 5).toNat < 18 ∧ 18 ≤ (18 : BitVec 5).toNat := by decide

/-- An aligned record at offset 0, one off its alignment, a level that accepts nothing; 1 and 32,768 blocks that fit exactly, and one too many; a DIGEST in progress, in either mode. -/
theorem test_meets_RecordAndDigestIssue :
    (((st 0).sys.regA 1).toNat % 2 ^ 28 % 64 = 0 ∧ (st 0).sys.deaf (ctiLevel 0 0) = false ∧ (st 0).sys.queued (.context 0 0) (ctiLevel 0 0) + (st 0).sys.ctiReads 0 0 0 < 16) ∧
    ¬ ((st 0 (regs [(1, 32)])).sys.regA 1).toNat % 2 ^ 28 % 64 = 0 ∧
    (with_ (st 0) fun y => { y with pkg := { y.pkg with deafLevels := [(ctiLevel 0 3).number] } }).sys.deaf (ctiLevel 0 3) = true ∧
    (1 ≤ (32768 : BitVec 16).toNat ∧ (32768 : BitVec 16).toNat ≤ 32768 ∧ 0 + 64 * (32768 : BitVec 16).toNat ≤ 2 ^ 21) ∧ ¬ 64 + 64 * (32768 : BitVec 16).toNat ≤ 2 ^ 21 ∧
    (st 0).sys.here.digesting = [] ∧
    (let d : DigestRun := ⟨0, 0, 4, 0, 0, 0⟩
     ¬ d.start + d.n - 1 ≤ (st 0 fun k => { k with digesting := [d] }).sys.t ∧ ¬ d.start + d.n - 1 ≤ (st 0 fun k => { k with timed := true, digesting := [d] }).sys.t) := by decide

/-- A handler enabled and idle; none; one that runs; a fault queue with one place left. -/
theorem test_meets_TrapEntry :
    (let k := (st 0 fun k => { k with tvecEn := true }).sys.here
     k.tvecEn = true ∧ k.epcInh = false) ∧
    (let s := st 0
     s.sys.cur.ctx < 4 ∧ s.sys.here.tvecEn = false ∧ s.sys.here.timed = false ∧ s.sys.here.region.open_ = false ∧ s.sys.pkg.pfq.length < 64 ∧ s.sys.pkg.pfqNew = 0) ∧
    (st 0 fun k => { k with tvecEn := true, epcInh := true }).sys.here.epcInh = true ∧
    (with_ (st 0) fun y => { y with pkg := { y.pkg with pfq := List.replicate 63 (0, 0, 0, 0) } }).sys.pkg.pfq.length < 64 := by decide

theorem test_meets_HandlerReturn : (st 0 fun k => { k with epcInh := true }).sys.here.epcInh = true ∧ (st 0).sys.here.epcInh = false := by decide

theorem test_meets_scalar_statements : Readable (st 1) (st 1).sys.fileB [1, 2] ∧ Readable (st 2) (st 2).sys.fileB [1, 2, 31] ∧ Readable (st 1) (!(st 1).sys.fileB) [7] ∧ (63 : BitVec 14).toNat < 64 ∧ 64 ≤ (64 : BitVec 14).toNat :=
  ⟨readable _ _ _ _ (by decide), readable _ _ _ _ (by decide), readable _ _ _ _ (by decide), by decide, by decide⟩

theorem test_meets_ImmediateAndStagingMoves : (0x27 : BitVec 6).toNat < 0x28 ∧ 0x28 ≤ (0x28 : BitVec 6).toNat := by decide

theorem test_meets_ScalarResultLands :
    let e : Ev := { core := 0, ctx := 3, due := 1, phase := 0, ord := 1, act := .scalar true 31 allOnes 5 }
    e.act = .scalar true 31 allOnes 5 ∧ e.ctx < 4 ∧ 31 < 32 := by decide

/-- An aligned local address, a remote one of 64 hops, one of 65, and a misaligned one. -/
theorem test_meets_ScratchpadAccess :
    (8 % 8 = 0 ∧ 8 / 2 ^ 21 % 128 = (st 1).sys.cur.core % 128) ∧
    (let ea := 64 * 2 ^ 21
     ea % 8 = 0 ∧ (ea / 2 ^ 21 % 128 + 128 - (st 1).sys.cur.core % 128) % 128 ≤ 64 ∧ 128 * ((st 1).sys.cur.core / 128) + ea / 2 ^ 21 % 128 ≠ (st 1).sys.cur.core) ∧
    ¬ (65 * 2 ^ 21 / 2 ^ 21 % 128 + 128 - (st 1).sys.cur.core % 128) % 128 ≤ 64 ∧ ¬ 4 % 8 = 0 ∧
    (((st 1 (regs [(1, 64 * 2 ^ 21)])).sys.own 1).setWidth 28 + BitVec.ofInt 28 (0 : BitVec 14).toInt : BitVec 28).toNat = 64 * 2 ^ 21 := by decide

/-- FPCR's mode, an instruction's own, and one that is no mode. -/
theorem test_meets_FloatingPointResults : Rm.ofNat? (4 : BitVec 3).toNat ≠ none ∧ Rm.ofNat? (5 : BitVec 3).toNat = none ∧ (st 1).sys.here.regs.rm = .rne := by decide

/-- A quotient that is exact, one below, at and above the middle. -/
theorem test_meets_AbsentNanAndRounding :
    0 < 4 ∧ 8 % 4 = 0 ∧ 9 % 4 ≠ 0 ∧ 2 * (9 % 4) < 4 ∧ 2 * (10 % 4) = 4 ∧ 4 < 2 * (11 % 4) ∧
    Val.absent = Val.absent ∧ (Val.inf false).mul (.fin false 0 1 0) = .invalid ∧ Val.one.mul .nan ≠ .invalid ∧ Val.nan ≠ Val.absent ∧ Val.nan ≠ Val.invalid ∧ Val.one ≠ Val.absent ∧ Val.one ≠ Val.invalid := by decide

/-- An interlocked level with a result of a4 under way. -/
theorem test_meets_InterlockHolds :
    let s := st 1 (loops [(0, { (entry 0 1) with interlocked := true })])
    let s := with_ s fun y => { y with agenda := [{ core := 0, ctx := 0, due := 1, phase := 0, ord := 1, act := .scalar false 4 allOnes 5 }] }
    s.sys.here.interlocked = true ∧ s.sys.pendingScalar s.sys.fileB (s.sys.here.phys s.sys.fileB (4 : BitVec 5).toNat) = true ∧
    s.sys.pendingScalar false (s.sys.here.phys false (4 : BitVec 5).toNat) = true := by decide

/-- Pointers set. -/
def ptrs (l : List (Nat × Pointer)) (k : Ctx) : Ctx := { k with regs := { k.regs with ptr := l.foldl (fun v p => vset v p.1 p.2) k.regs.ptr } }

/-- No wrap window; an address at the last byte of its window, and at the first beyond it; a P pointer's window over two cores. -/
theorem test_meets_PointerAdvance :
    (1 : BitVec 16) ≠ 0 ∧ ((st 3).sys.here.pointer 0).wrap = 0 ∧
    (let x := (st 3 (ptrs [(16, { addr := 63, wrap := 64 })])).sys.here.pointer 16
     x.wrap ≠ 0 ∧ x.wbase.toNat ≤ x.addr.toNat ∧ x.addr.toNat < x.wbase.toNat + x.wrap.toNat) ∧
    (let x := (st 3 (ptrs [(16, { addr := 64, wrap := 64 })])).sys.here.pointer 16
     x.wrap ≠ 0 ∧ ¬ x.addr.toNat < x.wbase.toNat + x.wrap.toNat) ∧
    (let x := (st 3 (ptrs [(0, { addr := 0x1FFFFF, wbase := 0x1FFFFF, wrap := 2 })])).sys.here.pointer 0
     x.wrap ≠ 0 ∧ x.wbase.toNat / 2 ^ 21 ≠ (x.wbase.toNat + x.wrap.toNat - 1) / 2 ^ 21) := by decide

/-- The last address of the angle window and the first beyond it; a step at each limit of 24 bits and beyond; a wrap window of 2 MiB and one more; a base that is a multiple of 64 and one that is not. -/
theorem test_meets_PointerAndPortWrites :
    Readable (st 3) false [1] ∧ (0x3FFFF < (st 3).sys.here.pointerSpan 16 ∧ ¬ 0x40000 < (st 3).sys.here.pointerSpan 16) ∧
    ((0x7FFFFF : Word).toInt ≤ 8388607 ∧ ¬ (0x800000 : Word).toInt ≤ 8388607 ∧ -8388608 ≤ (0xFFFFFFFFFF800000 : Word).toInt ∧ ¬ -8388608 ≤ (0xFFFFFFFFFF7FFFFF : Word).toInt) ∧
    ((0x0002000000000000 : Word).toNat / 2 ^ 28 % 2 ^ 22 ≤ 2 ^ 21 ∧ ¬ (0x0002000010000000 : Word).toNat / 2 ^ 28 % 2 ^ 22 ≤ 2 ^ 21) ∧
    ((64 : Word).toNat % 64 = 0 ∧ (64 : Word).toNat / 2 ^ 24 % 64 = 0 ∧ ¬ (63 : Word).toNat % 64 = 0 ∧ ¬ (0x1000000 : Word).toNat / 2 ^ 24 % 64 = 0) :=
  ⟨readable _ _ _ _ (by decide), by decide, by decide, by decide, by decide⟩

theorem test_meets_PortWalk : 15 < 16 ∧ (st 10).sys.cur.ctx < 4 := by decide

/-- A probe that is due, with a clear of its register under way and without; one that is not yet due; and none. -/
theorem test_meets_TranslationProbe :
    Readable (st 3) false [1] ∧
    (let k := (st 3 fun k => { k with probe := vset k.probe 3 (some 1) }).sys.here
     (vget k.probe 3).isSome = true ∧ vget k.probeDue 3 ≤ (st 3).sys.wcyc) ∧
    ((st 3).sys.agenda = [] ∧ ∃ e ∈ [Due (st 3) 1 0 (.xaClear 3)], e.core = 0 ∧ e.ctx = 0 ∧ e.act = .xaClear 3) ∧
    (st 3).sys.wcyc < vget (st 3 fun k => { k with probeDue := vset k.probeDue 3 1 }).sys.here.probeDue 3 ∧ vget (st 3).sys.here.probe 0 = none ∧ 1023 < 1024 :=
  ⟨readable _ _ _ _ (by decide), by decide, by decide, by decide, by decide, by decide⟩

/-- A word for lane groups 0 and 7, free and without a breach; one for a busy lane group, in either mode. -/
theorem test_meets_LaneGroupWordsStart :
    (Instr.vand 0 1 2 3 0 0 2).kind = some .vector ∧ [0, 7].Nodup ∧ (st 10).sys.cur.ctx < 4 ∧
    (match vwordOf (.vand 0 1 2 3 0 0 2) with
     | some v => v.ok && v.named 64 && decide (v.ports = []) && decide (vectorFaults v (st 10).sys [0, 7] = []) && !(st 10).sys.vectorInterlock v 0 && !(st 10).sys.vectorInterlock v 7
     | none => false) = true ∧ (st 10).sys.laneBusy 0 = false ∧ (st 10).sys.laneBusy 7 = false ∧ (st 10).sys.here.interlocked = false ∧
    (let w : InFlight := { ctx := 0, instr := .vand 0 1 2 3 0 0 2, issued := 0, ord := 1, slot := 10, grp := 0, rm := .rne, honour := false, extra := 0, vd := 1, va := 2, vb := 3, vd1 := 2, srcGroup := 0, popA := none, popB := none }
     let s := with_ (st 10) fun y => ({ y with cur := { y.cur with lanes := [0] } } : Sys).modCore 0 fun c => { c with lane := vset c.lane 0 (some w) }
     s.sys.cur.lanes = [0] ∧ s.sys.laneBusy 0 = true ∧ s.sys.here.timed = false) := by decide

/-- The word of the test above at beats 0 and 15; a poisoned word in a register that it reads, and in one that it does not. -/
theorem test_meets_BeatsReadAndLand :
    let w : InFlight := { ctx := 0, instr := .vand 0 1 2 3 0 0 2, issued := 0, ord := 1, slot := 10, grp := 0, rm := .rne, honour := false, extra := 0, vd := 1, va := 2, vb := 3, vd1 := 2, srcGroup := 0, popA := none, popB := none }
    (vwordOf w.instr).isSome = true ∧ w.popA = none ∧ w.popB = none ∧ w.spoiled = [] ∧ State.reset.sys.pkg.pw.stall = false ∧ State.reset.sys.now 0 0 = w.issued + w.reads.length ∧
    ({ w with reads := List.replicate 15 default } : InFlight).reads.length < 16 ∧
    (with_ State.reset fun y => { y with run := 15 }).sys.now 0 0 = w.issued + 15 ∧ State.reset.sys.poison = [] ∧
    (let hit (r : Nat) : Bool := let s := with_ State.reset fun y => { y with poison := [vecKey 0 0 r 0 0 / 8] }
       match vwordOf w.instr with | some v => decide (s.sys.poison ≠ []) && w.meets v s.sys 0 0 0 | none => false
     hit 3 = true ∧ hit 1 = false) := by decide

theorem test_meets_ArithmeticBeats : 15 < 16 ∧ (BitVec.allOnes 16 : BitVec 16) = BitVec.allOnes 16 := by decide

theorem test_meets_RawAndPredicateBeats :
    (2 : BitVec 2) ≠ 3 ∧
    (let e : Ev := { core := 0, ctx := 3, due := 0, phase := 0, ord := 0, act := .pred 7 7 15 1 0 0xFFFF }
     e.act = .pred 7 7 15 1 0 0xFFFF ∧ e.ctx < 4 ∧ 7 < 8 ∧ 15 < 16) ∧ (0 + 15 ≤ 15 ∧ ¬ 1 + 15 ≤ 15) := by decide

theorem room (slot : Nat) (f : Ctx → Ctx) (e : Engine) : Room (st slot f) e := by
  have h : (st slot f).sys.hereCore.cmds = [] := rfl
  have c : (st slot f).sys.hereCore.frozenCopy = false := rfl
  cases e <;> simp [Room, h, c]

theorem freeAt (slot : Nat) (f : Ctx → Ctx) (e : Engine) (n : Nat) (h : (st slot f).sys.here.timed = false) : FreeAt (st slot f) e n := by
  intro t
  rw [h] at t
  cases t

/-- A timed context whose engine is free from the command's start on. -/
theorem test_meets_FreeAt_timed : FreeAt (with_ (st 4 fun k => { k with timed := true }) fun y => y.modCore 0 fun c => { c with free := vset c.free 0 7 }) .tm 7 := fun _ => by decide

/-- Rows and tile at the end of their ranges (16 rows' tile of 8-bit elements: 256 rows from 0; 128 rows of 16 bits to row 255) and beyond; the last counter; words aligned and not. -/
theorem test_meets_TileMemoryAndCopyDispatch :
    (st 4).sys.cur.ctx < 4 ∧ Room (st 4) .tm ∧ FreeAt (st 4) .tm 0 ∧ Room (st 5) .cp ∧
    (let ts : Word := 0x000001000000000F
     fld ts 32 9 = 256 ∧ fld ts 24 8 + fld ts 32 9 ≤ 2048 / (8 * 2 ^ fld ts 20 2) ∧ fld ts 0 4 < (st 4).sys.here.win.vwin / 4) ∧
    ¬ fld 0x0000010001000000 24 8 + fld 0x0000010001000000 32 9 ≤ 2048 / (8 * 2 ^ fld 0x0000010001000000 20 2) ∧
    (fld 0x283F 11 3 < 6 ∧ fld 0x283F 0 6 < (st 4).sys.here.win.tcount ∧ ¬ fld 0x3000 11 3 < 6) ∧
    ((8 : Word).toNat % 8 = 0 ∧ ¬ (4 : Word).toNat % 8 = 0 ∧ fld 8 0 28 % 8 = 0 ∧ fld 8 0 28 / 2 ^ 21 % 128 = (st 4).sys.cur.core % 128) ∧
    (fld 0x40000000 0 32 % 64 = 0 ∧ 64 ≤ fld 0x40000000 0 32 ∧ fld 0x40000000 0 32 ≤ 2 ^ 30 ∧ ¬ fld 0x40000040 0 32 ≤ 2 ^ 30) ∧
    (1 ≤ fld 0x0000FFFF00000040 32 32 ∧ fld 0x0000FFFF00000040 32 32 ≤ 65535 ∧ ¬ fld 0x0001000000000040 32 32 ≤ 65535) :=
  ⟨by decide, room _ _ _, freeAt _ _ _ _ (by decide), room _ _ _, by decide, by decide, by decide, by decide, by decide, by decide⟩

/-- One row, and the 64 rows of an F32 tile; none and 65; a bank beyond the window; a delay of 324 and of 323; a scratchpad block that just fits. -/
theorem test_meets_OrreryDispatch :
    (st 6).sys.cur.ctx < 4 ∧ Room (st 6) .orr ∧ FreeAt (st 6) .orr 0 ∧ (∀ j, j < 8 → 2 ≤ j → vget (st 6).sys.here.regs.staging j = 0) ∧
    (fld 0x0000000000400000 16 9 = 64 ∧ fld 0x0000000000400000 16 9 ≤ 2048 / Nat.max (floatOf 0).width (floatOf 0).width ∧
      ¬ fld 0x0000000000410000 16 9 ≤ 2048 / Nat.max (floatOf 0).width (floatOf 0).width ∧ fld 0 16 9 = 0) ∧
    (fld 4 32 5 ≤ 4 ∧ fld (4 * 2 ^ 32) 32 5 ≤ 4 ∧ ¬ fld (5 * 2 ^ 32) 32 5 ≤ 4) ∧ (fld (3 * 2 ^ 48) 48 2 < (st 6).sys.here.win.lbanks ∧ ¬ 3 < (st 6 fun k => { k with win := { wholeWindow with lbanks := 3 } }).sys.here.win.lbanks) ∧
    (fld (120 * 2 ^ 8) 8 8 ≤ 120 ∧ ¬ fld (121 * 2 ^ 8) 8 8 ≤ 120) ∧ (324 ≤ (324 : BitVec 16).toNat ∧ (323 : BitVec 16).toNat < 324) ∧
    ((2 ^ 21 - 20480) % 64 = 0 ∧ (2 ^ 21 - 20480) % 2 ^ 21 + 20480 ≤ 2 ^ 21) ∧ ((2 ^ 18 - 2048) % 64 = 0 ∧ 2 ^ 18 - 2048 + 2048 ≤ 2 ^ 18) ∧ (st 6).sys.hereCore.slotBusy 0 1 = false :=
  ⟨by decide, room _ _ _, freeAt _ _ _ _ (by decide), by decide, by decide, by decide, by decide, by decide, by decide, by decide, by decide, by decide⟩

/-- A DOT of one row of 32 columns, and one whose accumulators end with the window; 1 and 2,048 blocks that fit, and one too many; a drain of 128 rows; a clear of the last 128 entries. -/
theorem test_meets_DotDispatch :
    (st 7).sys.cur.ctx < 4 ∧ Room (st 7) .dot ∧ FreeAt (st 7) .dot 0 ∧
    (let d : Word := 0x0000010100000000
     fld d 40 8 ≠ 0 ∧ fld d 12 3 ≤ 6 ∧ fld d 9 3 ≤ 6 ∧ 1 ≤ fld d 32 4 ∧ fld d 32 4 ≤ 8 ∧ fld d 4 5 ≤ 4 ∧ 32 * fld d 32 4 ≤ 2048 / (floatOf (fld d 4 5)).width ∧
     fld d 0 4 < (st 7).sys.here.win.vwin / 4 ∧ 0 + 1 * (32 / 16 * (1 + 2 * (0 + 2))) ≤ (st 7).sys.here.win.opmem ∧ 16256 + 128 * 1 ≤ (st 7).sys.here.win.accmem) ∧
    fld 0 40 8 = 0 ∧ (fld (2048 * 2 ^ 32) 32 12 ≤ 2048 ∧ 64 * fld (2048 * 2 ^ 32) 32 12 ≤ 2 ^ 21 ∧ fld 0 32 12 = 0 ∧ ¬ fld (2049 * 2 ^ 32) 32 12 ≤ 2048) ∧
    (fld 0xE0 4 5 = 14 ∧ fld (63 * 2 ^ 16) 16 7 + 1 ≤ 64 ∧ ¬ fld (64 * 2 ^ 16) 16 7 + 1 ≤ 64) ∧ (16256 + 128 * (fld 0 0 7 + 1) ≤ 16384 ∧ ¬ 16257 + 128 * (fld 0 0 7 + 1) ≤ 16384) :=
  ⟨by decide, room _ _ _, freeAt _ _ _ _ (by decide), by decide, by decide, by decide, by decide, by decide⟩

/-- The load slot free and busy, in either mode; the last word of angle memory and the first beyond it; the last counter; 4,096 transits; a trigger queue with its last slot free, and full. -/
theorem test_meets_TransferAndCollectiveDispatch :
    (st 8).sys.cur.ctx < 4 ∧ vget (st 8).sys.hereCore.free 4 ≤ (st 8).sys.t ∧
    (let s := with_ (st 8 fun k => { k with timed := true }) fun y => y.modCore 0 fun c => { c with free := vset c.free 4 1 }
     ¬ vget s.sys.hereCore.free 4 ≤ s.sys.t ∧ s.sys.here.timed = true) ∧
    (16 ≤ (19 : BitVec 5).toNat ∧ (19 : BitVec 5).toNat < 16 + 4 ∧ ¬ (20 : BitVec 5).toNat < 16 + 4) ∧
    (0x3FFFC + 4 * (1 : BitVec 16).toNat ≤ (st 8).sys.here.pointerSpan 16 ∧ ¬ 0x3FFFD + 4 * (1 : BitVec 16).toNat ≤ (st 8).sys.here.pointerSpan 16) ∧
    ((4 : Nat) % 4 = 0 ∧ ¬ (2 : Nat) % 4 = 0 ∧ (0x1FFFFC : Nat) % 2 ^ 21 + 4 ≤ 2 ^ 21 ∧ ¬ (0x1FFFFC : Nat) % 2 ^ 21 + 8 ≤ 2 ^ 21 ∧ ((st 8).sys.served 0 0).here.pointer 16 = (st 8).sys.here.pointer 16) ∧
    Room (st 9) .col ∧ FreeAt (st 9) .col 0 ∧ ((63 : BitVec 6).toNat < (st 9).sys.here.win.tcount ∧ (63 : BitVec 6).toNat = 63) ∧
    (fld (2 ^ 21 - 131072) 0 28 % 64 = 0 ∧ fld 4096 0 16 ≤ 4096 ∧ fld (2 ^ 21 - 131072) 0 28 % 2 ^ 21 + 32 * fld 4096 0 16 ≤ 2 ^ 21 ∧ (st 9).sys.here.eph = none) ∧
    (hdrOk .tm 0x08000000 = true ∧ (2 : BitVec 2).toNat < 3) ∧
    (let full : Vector (Option Queued) 32 := Vector.replicate 32 (some {})
     (∀ q, q < 32 → (vget full q).isSome = true) ∧ vget (vset full 31 none) 31 = none ∧ ∀ p, p < 31 → (vget (vset full 31 none) p).isSome = true) :=
  ⟨by decide, by decide, by decide, by decide, by decide, by decide, room _ _ _, freeAt _ _ _ _ (by decide), by decide, by decide, by decide, by decide⟩

/-- A command of id 1 that may start; behind an earlier writer of a tile it reads, of varying timing and not; with a tag that differs; one that has started. -/
theorem test_meets_EngineQueuesAndStarts :
    let tst : Cmd := { (cmd [3] []) with id := 2, instr := .tst 1 7 0, stg := [0, 0, 3, 0, 0] }
    let own : Cmd := { (cmd [] [3]) with eng := .dot, instr := .ddrain 0 0, started := true }
    ¬ ((cmds (List.replicate 16 (cmd [] [])) (st 4)).sys.hereCore.cmds.filter fun m => m.eng == .tm).length < 16 ∧
    (let s := cmds [tst] (st 4)
     (s.sys.cmd 0 2).isSome = true ∧ s.sys.eligible 0 tst = true ∧ tst.checked = [3] ∧ s.sys.cmd 0 1 = none) ∧
    (let s := cmds [{ (cmd [] [3]) with started := true }, tst] (st 4)
     s.sys.eligible 0 tst = true ∧ (s.sys.core 0).cmds.any (fun m => m.writes.contains 3 && decide (m.id < 2)) = true) ∧
    (let s := cmds [own, tst] (st 4 fun k => { k with timed := true })
     s.sys.eligible 0 tst = true ∧ (s.sys.ctx 0 0).timed = true ∧ own.writes = [3]) ∧
    (let s := cmds [tst] (st 4 fun k => { k with timed := true })
     s.sys.eligible 0 tst = true ∧ (chkOf tst.instr).1 = true ∧ (vget (s.sys.ctx 0 0).sbTag 3).toNat % 256 ≠ (chkOf tst.instr).2) ∧
    (st 4).sys.eligible 0 { tst with started := true } = false := by decide

/-- A TLD with its last segment and one before it, a TST, an LDW, a copy at its end and before it, a refill with its tile free and read; a pass that is over, one with a row in flight, and none. -/
theorem test_meets_TransfersAndPassesComplete :
    let tld : Cmd := { (cmd [] [3]) with started := true, stg := [0, 0, 0x0000000100000003, 0, 0], done := 2, instr := .tld 0 }
    let cpy : Cmd := { (cmd [] []) with eng := .cp, instr := .cpy 0, stg := [0, 0, 64, 0, 0], started := true, done := 1 }
    let refill : Cmd := { (cmd [] [3]) with eng := .cp, instr := .cpyr 0, stg := [0, 0, 0x0000000100000003, 0, 0], started := true }
    let pass : Pass := { cmd := 1, kind := 0, word := 0, os := [], tag := 0, rm := .rne, honour := false }
    (cmds [tld] (st 4)).sys.moves 0 tld = true ∧ (cmds [tld] (st 4)).sys.cmd 0 1 = some tld ∧ tld.done = tld.units ∧
    ({ tld with done := 0 } : Cmd).done ≠ tld.units ∧ (cmds [cpy] (st 4)).sys.cmd 0 1 = some cpy ∧ cpy.done = cpy.copyTotal ∧ ({ cpy with done := 0 } : Cmd).done ≠ cpy.copyTotal ∧
    (cmds [refill] (st 4)).sys.moves 0 refill = true ∧ refill.fired = false ∧
    (cmds [{ (cmd [3] []) with id := 0 }, refill] (st 4)).sys.hereCore.cmds.any (fun b => b.reads.contains 3) = true ∧
    (let p : Pass := { pass with os := [0x10000], next := 1 }
     p.flight = [] ∧ p.next = p.rows ∧ p.round + 1 = p.rounds) ∧ ({ pass with flight := [{ row := 0, round := 0, age := 0 }] } : Pass).flight ≠ [] ∧
    (vget (st 4).sys.here.sweep 0).pass = none := by decide

/-- A fired operation a tick old, with a CPY as its command; a READY whose bit is set and one whose bit is not; one that lapses now; a transit of an open ephemeris, under way, at its end, and the last. -/
theorem test_meets_TriggersAndTransits :
    (let e : Queued := { eng := 1, hdr := 0x08000000, fired := some 0 }
     let s := with_ (st 9 fun k => { k with regs := { k.regs with tq := vset k.regs.tq 31 (some e) } }) fun y => { y with run := 1 }
     vget (s.sys.ctx 0 0).regs.tq 31 = some e ∧ 0 < s.sys.tick false ∧ (s.sys.ctx 0 0).engineRuns .col = true ∧ (s.sys.ctx 0 0).region.open_ = false ∧
     isWord (trigEngine 1).kind 0x08000000 (.cpy 0) = true ∧ s.sys.firedHold s.mem 0 0 .cp = none ∧
     ((cmds [cmd [] []] (st 9 fun k => { k with barWait := true })).sys.firedHold [] 0 0 .cp).isSome = true) ∧
    (let e : Queued := { isReady := true, armedAt := some 0, tile := 31, region := 7 }
     let s := with_ (st 9 fun k => { k with regs := { k.regs with tq := vset k.regs.tq 0 (some e) } }) fun y =>
       y.modCore 0 fun c => { c with aow := vset c.aow 7 { ready := 0x80000000 } }
     vget (s.sys.ctx 0 0).regs.tq 0 = some e ∧ (vget (s.sys.core 0).aow 7).ready.toNat / 2 ^ 31 % 2 = 1 ∧ (vget (s.sys.core 0).aow 6).ready.toNat / 2 ^ 31 % 2 = 0) ∧
    (let e : Queued := { isReady := true, lapse := some 0 }
     e.fired = none ∧ 0 ≤ State.reset.sys.mer ∧ ¬ 1 ≤ State.reset.sys.mer) ∧
    (let t : Transit := ⟨0, 1, 0, false, 63, true, 0, 0⟩
     let e : Ephemeris := { id := 1, table := 0, count := 1, start := 0, base := 0, grp := 0, entries := [t] }
     let m : Moving := { key := 4096, transit := t, start := 0, grp := 0, left := 0 }
     e.entries[4096 % 4096]? = some t ∧ 4096 / 4096 = e.id ∧ e.finished + 1 = e.count ∧ ([m].find? fun q => q.key == 4096) = some m ∧ m.left = 0 ∧ ({ m with left := 1 } : Moving).left ≠ 0 ∧
     ([m].find? fun q => q.key == 4097) = none) := by decide

/-- A fired CPY of one block and a fired CSET of the last counter: every condition on the state holds, in shared mode. -/
theorem test_meets_TriggersAndTransits_fires :
    (let e : Queued := { eng := 1, hdr := 0x08000000, fired := some 0, stg := [0, 0, 64, 0, 0] }
     let s := with_ (st 9 fun k => { k with regs := { k.regs with tq := vset k.regs.tq 31 (some e) }, win := { k.win with tcount := 64 } }) fun y => { y with run := 1 }
     let z : State := { s with sys := { s.sys with cur := { s.sys.cur with core := 0, ctx := 0 } } }
     vget (s.sys.ctx 0 0).regs.tq 31 = some e ∧ 0 < s.sys.tick false ∧ (s.sys.ctx 0 0).engineRuns .col = true ∧ (s.sys.ctx 0 0).region.open_ = false ∧
     isWord (trigEngine 1).kind 0x08000000 (.cpy 0) = true ∧ (Instr.cpy 0).kind = some (trigEngine 1).kind ∧ s.sys.firedHold s.mem 0 0 .cp = none ∧ Room z .cp ∧
     FireLimits (.cpy 0) 0 (s.sys.ctx 0 0) (s.sys.core 0) fun j => e.stg.getD j 0) ∧
    (let e : Queued := { eng := 2, hdr := 0x183F0000, fired := some 0 }
     let s := with_ (st 9 fun k => { k with regs := { k.regs with tq := vset k.regs.tq 31 (some e) }, win := { k.win with tcount := 64 } }) fun y => { y with run := 1 }
     let z : State := { s with sys := { s.sys with cur := { s.sys.cur with core := 0, ctx := 0 } } }
     isWord (trigEngine 2).kind 0x183F0000 (.cset 63 0) = true ∧ (Instr.cset 63 0).kind = some (trigEngine 2).kind ∧ s.sys.firedHold s.mem 0 0 .col = none ∧ Room z .col ∧
     FreeAt z .col (fireDelay (.cset 63 0)) ∧ FireLimits (.cset 63 0) 0 (s.sys.ctx 0 0) (s.sys.core 0) fun j => e.stg.getD j 0) := by
  unfold FireLimits Room FreeAt; decide

/-- A deferred fault of class 3 with a handler, and of class 4; a budget passed by one and one that is met; the body's; a fault queue with 63 and with 64 entries. -/
theorem test_meets_FaultsAreTaken :
    (let k := (st 0 fun k => { k with tvecEn := true, deferred := [{ cls := 3, code := 1 }] }).sys.ctx 0 0
     k.deferred = [{ cls := 3, code := 1 }] ∧ 3 ≤ 3 ∧ k.tvecEn = true ∧ k.epcInh = false ∧ k.timed = false ∧ k.region.open_ = false ∧ ({ cls := 3, code := 1 } : FaultRec).seen < (with_ (st 0) fun y => { y with wcyc := 1 }).sys.wcyc ∧
      (st 0).sys.wcyc ≤ ({ cls := 3, code := 1 } : FaultRec).seen) ∧ 3 < 4 ∧
    (let k := (st 0 (loops [(5, { (entry 0 1) with elapsed := 10 })])).sys.ctx 0 0
     k.live = true ∧ (vget k.regs.loops 5).valid = true ∧ (vget k.regs.loops 5).budget < (vget k.regs.loops 5).elapsed) ∧
    (let k := (st 0 (loops [(5, { (entry 0 1) with elapsed := 9 })])).sys.ctx 0 0
     ¬ (vget k.regs.loops 5).budget < (vget k.regs.loops 5).elapsed) ∧
    (let k := (st 0 fun k => { k with bodyElapsed := 1 }).sys.ctx 0 0
     k.task.bodyBudget < k.bodyElapsed ∧ ∀ j, j < 6 → (vget k.regs.loops j).valid = false) ∧
    (List.replicate 63 (0 : Nat)).length < 64 ∧ (List.replicate 64 (0 : Nat)).length = 64 ∧ (st 0).sys.pkg.pfqNew = 0 := by decide

/-- A spread of two whose barrier releases now; an open region that may commit; a task that has ended with nothing under way; a draining context at its boundary; a request that is refused and one that is taken. -/
theorem test_meets_TaskEvents :
    (let p : Spread := { id := 1, timed := false, members := [{ core := 0, ctx := 0 }, { core := 1, ctx := 0 }], record := 1, releaseAt := some 0 }
     let s := with_ (st 0 fun k => { k with task := { k.task with spread := 1 }, barWait := true, bars := 1 }) fun y => { y with pkg := { y.pkg with spreads := [p] } }
     s.sys.pkg.spreads.find? (·.id == 1) = some p ∧ 0 ≤ s.sys.tick p.timed ∧ (p.members.map fun m => (m.core, m.ctx)).Nodup ∧
     (s.sys.ctx 0 0).task.spread = 1 ∧ (s.sys.ctx 0 0).barWait = true ∧ (s.sys.ctx 0 0).bars = p.released + 1 ∧ s.sys.pkg.spreads.find? (·.id == 2) = none) ∧
    (let s := st 0 fun k => { k with region := { open_ := true } }
     (s.sys.ctx 0 0).region.open_ = true ∧ s.sys.regionReady s.mem 0 0 = true) ∧
    (let s := st 0 fun k => { k with ended := true, state := .halted }
     (s.sys.ctx 0 0).ended = true ∧ s.sys.outstanding 0 0 = false) ∧
    (let s := cmds [cmd [] []] (st 0 fun k => { k with ended := true })
     s.sys.outstanding 0 0 = true) ∧
    ((CtxState.draining = .draining) ∧ bit (0 : Word) 0 = false ∧ bit (1 : Word) 0 = true) ∧
    (let k := (st 0 fun k => { k with csab := 1 }).sys.ctx 0 0
     bit k.csab 0 = true ∧ k.timed = false ∧ k.ended = false ∧ k.state = .running ∧ k.boundary = false) := by decide

/-- A ready device with a context that runs, one that is halted and parked, one that is faulted; a save that is due and one that is not. -/
theorem test_meets_SupervisorCommands :
    let dev (f : Ctx → Ctx) : State :=
      { sys := ({ State.reset.sys with pkg := { sec := { ready := true } } } : Sys).modCtx 1023 3 f }
    (let s := dev fun k => { k with state := .running }
     s.sys.pkg.sec.ready = true ∧ fld 3 0 2 = 3 ∧ bit (3 : Word) 2 = false ∧ (s.sys.ctx 1023 3).timed = false ∧ (s.sys.ctx 1023 3).state ≠ .idle ∧ (s.sys.ctx 1023 3).killed = false ∧
     (s.sys.core 1023).ccmd.jobs = [] ∧ s.sys.answers = true ∧ State.reset.sys.answers = false) ∧
    (let s := dev fun k => { k with state := .halted, parked := true, csab := 1 }
     (s.sys.ctx 1023 3).state = .halted ∧ (s.sys.ctx 1023 3).ended = false ∧ (s.sys.ctx 1023 3).parked = true ∧ bit (s.sys.ctx 1023 3).csab 0 = true) ∧
    (let j : Job := { ctx := 3, restore := false, due := 0 }
     let s := with_ (dev fun k => { k with state := .faulted, parked := true }) fun y => y.modCore 1023 fun c => { c with ccmd := { jobs := [j] } }
     ((s.sys.core 1023).ccmd.jobs.find? fun j => j.ctx == 3) = some j ∧ s.sys.jobDue 1023 j = true ∧ s.sys.jobDue 1023 { j with due := 1 } = false) ∧
    (dev fun k => { k with state := .faulted, killed := true }).sys.pkg.sec.ready = true ∧ State.reset.sys.pkg.sec.ready = false := by decide

/-- A record of TBAR, and of TLOAD, that is due; a block that is due, and one that has to be copied back; one that is not yet; none of that number. -/
theorem test_meets_CamvelRecordsAct :
    let x (topc : Word) : Rec := { id := 7, source := .window 0, level := .pkg, record := { (default : CamvelRecord) with w0 := topc }, phase := .running, due := some 0 }
    let s (topc : Word) : State := with_ State.reset fun y => { y with pkg := { y.pkg with recs := [x topc] } }
    ((s 20).sys.pkg.recs.find? fun q => q.id == 7) = some (x 20) ∧ (x 20).topc = 20 ∧ (x 1).topc = 1 ∧ (x 1).parked = false ∧ 0 ≤ (s 1).sys.run ∧
    ¬ 1 ≤ (s 1).sys.run ∧
    (let l : Leaf := { pav := 0, core := some 0, due := some 0 }
     l.core.isSome = true ∧ l.out = none ∧ l.gone = false ∧ ∃ t ∈ l.due, t ≤ (s 1).sys.run) ∧ (let l : Leaf := { pav := 0, out := some {} }; l.out.isSome = true ∧ l.back = false) ∧ ((s 1).sys.pkg.recs.find? fun q => q.id == 8) = none ∧ (x 1).record ≠ default := by decide

/-- The opcodes of the blocks stated; an index that is absent, one that is missing, and the last that is there. -/
theorem test_meets_CamvelBlocks :
    let x (topc : Word) : Rec := { id := 7, source := .window 0, level := .pkg, record := { (default : CamvelRecord) with w0 := topc } }
    (x 1).topc = 1 ∧ (x 2).topc = 2 ∧ (x 3).topc = 3 ∧ (x 18).topc = 18 ∧ (x 4).topc = 4 ∧ (x 14).topc = 14 ∧ (x 15).topc = 15 ∧ (x 16).topc = 16 ∧
    Elem.n32.isAbsent (leNat [0xFF, 0xFF, 0xFF, 0xFF]) = true ∧ Elem.n32.isAbsent (leNat [1, 0, 0, 0]) = false ∧ 1 < [[0], [0]].length ∧ [[0]].length ≤ 1 := by decide

/-- An image that finds a seat and one that does not; one that its lodge stages, and one that its window cannot hold; a block for a pavilion with a free core, and none; lodge and arbour ready, with the core's check passed and not; a record that may complete and one that may not. -/
theorem test_meets_CamvelSchedule :
    let kern : Kernel := { timed := false, levels := [], bodyBudget := 9, code := [], data := [], vwin := 8, lbanks := 1, tcount := 4, tqueue := 1, opmem := 0, accmem := 0, params := [] }
    let x : Rec := { id := 7, source := .window 0, level := .core 0, record := { (default : CamvelRecord) with w0 := 5 }, phase := .running, image := some kern }
    let s : State := with_ State.reset fun y => { y with pkg := { y.pkg with recs := [x] } }
    (s.sys.pkg.recs.find? fun q => q.id == 7) = some x ∧ x.image = some kern ∧ x.spread = none ∧ x.phase = .running ∧ x.parked = false ∧ ({ x with phase := .done } : Rec).phase ≠ .running ∧ (State.reset.sys.placement kern (.core 1)).isSome = true ∧
    (match (s.sys.stageImages s.mem x kern []).2 with | .ok _ => true | .error _ => false) = true ∧
    (match (s.sys.stageImages s.mem { x with record := { (default : CamvelRecord) with w0 := 5, w3 := 0x1000000000000000 } } { kern with raw := [0] } [0]).2 with | .ok _ => false | .error e => decide (e.2.waits = false)) = true ∧
    (State.reset.sys.placement { kern with vwin := 65 } (.core 1)).isNone = true ∧
    (let z : Rec := { x with leaves := [{ pav := 7 }] }
     z.nextLeaf 7 = some 0 ∧ z.nextLeaf 6 = none ∧ State.reset.sys.freeCore 7 = some 896) ∧
    (let z : Rec := { x with leaves := [{ pav := 0 }], record := { (default : CamvelRecord) with w0 := 20 } }
     let c : Cut := z.cuts.getD 0 ⟨[], 0, 0, 0⟩
     let ok (r : Except (Trouble × Spot × Nat) (List (List Byte))) : Bool := match r with | .ok _ => true | .error _ => false
     (State.reset.sys.lodgeReady [] z 0).2.2 = true ∧ (State.reset.sys.arbourFault z c 0).isNone = true ∧ ok (State.reset.sys.readBlock [] z c 0 1).2 = true ∧ ok (State.reset.sys.readBlock [] z c 0 2).2 = true ∧
       (z.coreFault c 0).isNone = true) ∧
    (let z : Rec := { x with phase := .done, image := none, record := default }
     State.reset.sys.mayComplete z = true) ∧ s.sys.mayComplete x = false ∧ (s.sys.pkg.recs.find? fun q => q.id == 8) = none := by decide

/-- A ready device; a gate whose counter has just reached its threshold and one a step behind; the window of highest priority with a record; an empty one. -/
theorem test_meets_WindowsQueueAndAccept :
    let w : TileWindow := { en := true, prio := 7, entries := [.record default] }
    let s : State := with_ State.reset fun y => { y with pkg := { y.pkg with wins := vset (Vector.replicate 8 {}) 7 w, sec := { ready := true } } }
    s.sys.pkg.sec.ready = true ∧ (vget s.sys.pkg.wins 7).entries = [.record default] ∧ (vget s.sys.pkg.wins 7).en = true ∧ s.sys.deaf .pkg = false ∧
    s.sys.queued (.window 7) .pkg < 16 ∧ (∀ m, m < 8 → m ≠ 7 → (s.sys.headReady m).isNone = true) ∧ (vget s.sys.pkg.wins 0).entries = [] ∧ (vget s.sys.pkg.wins 0).en = false ∧
    (let g : Word := 0x0000000100000000
     let v : W32 := 1
     let u : W32 := 0
     (v - BitVec.ofNat 32 (fld g 32 32)).toNat < 2 ^ 31 ∧ ¬ (u - BitVec.ofNat 32 (fld g 32 32)).toNat < 2 ^ 31) ∧ s.sys.answers = true ∧ ({ (s.sys) with byProgram := true } : Sys).answers = false ∧ State.reset.sys.pkg.sec.ready = false := by decide

/-- Nothing being compared or invalidated, and both due; a page count of 1, none, and all; a queue with an entry; each master that a write of TTHAW can name. -/
theorem test_meets_BelvedereEvents :
    let o : Owner := { invDue := some 0 }
    let w : TileWindow := { cmDue := some 0 }
    o.invDue = some 0 ∧ 0 ≤ State.reset.sys.wcyc ∧ w.cmDue = some 0 ∧ (vget State.reset.sys.pkg.owners 4).invDue = none ∧ (vget State.reset.sys.pkg.wins 7).cmDue = none ∧
    (fld 0x0001000000000000 48 14 ≠ 0 ∧ bit (0x4000000000000000 : Word) 62 = true ∧ fld 0 48 14 = 0 ∧ bit (0 : Word) 62 = false) ∧
    (fld 0x02001000 24 8 = 2 ∧ fld 0x02001000 12 4 < 2 ∧ (vget (vset State.reset.sys.pkg.lodges 3 { frozen := 2 }) 3).frozen.getLsbD (fld 0x02001000 12 4) = true) ∧
    fld 0x03000000 24 8 = 3 ∧ fld 0x0400F000 24 8 = 4 ∧
    (let s := with_ State.reset fun y => y.modCore 1023 fun c => { c with frozenCopy := true }
     fld 0x017F0000 24 8 = 1 ∧ (s.sys.core (128 * 7 + fld 0x017F0000 16 7)).frozenCopy = true) ∧
    ({ (State.reset.sys.pkg) with pfq := [(1, 2, 3, 4)] } : Pkg).pfq ≠ [] ∧
    (let s := with_ State.reset fun y => { y with pkg := { y.pkg with sec := { ready := true } } }
     let wait (r : Except Trouble (List Byte)) : Bool := match r with | .error t => t.cls == 0 | .ok _ => false
     s.sys.answers = true ∧ wait (s.sys.readSpan s.mem 0 0 0 128).2 = false) := by decide

/-- An offset that is no multiple of 8, an access of no whole word, the last byte of the aperture; a window's ports with 56 bytes gathered; a context that stands still and one that runs; offsets within a window, and one that no window covers. -/
theorem test_meets_HostAccesses :
    (0x31 % 8 ≠ 0 ∧ (0x0F : BitVec 8) ≠ 0xFF ∧ (0x03 : BitVec 8) ≠ 0xFF ∧ (0x03 : BitVec 8) ≠ 0x0F ∧ (0x03 : BitVec 8) ≠ 0xF0) ∧ fld 0x5A4A525300000001 32 32 = 0x5A4A5253 ∧ bit (0x5A4A525300000001 : Word) 0 = true ∧
    (0x4000000 ≤ 0x402FFFF ∧ (0x402FFFF - 0x4000000) % 0x40000 < 0x30000 ∧ ¬ (0x4030000 - 0x4000000) % 0x40000 < 0x30000) ∧ fld 0x40 4 4 = 4 ∧
    (0x1100000 ≤ 0x1100038 ∧ 0x1100038 < 0x1100040 ∧ 0x1100038 % 8 = 0 ∧ ({ part := List.replicate 56 0 } : TileWindow).part.length = 56 ∧ ({ part := List.replicate 48 0 } : TileWindow).part.length < 56) ∧
    (State.reset.sys.ctx 0 0).state = .idle ∧ (st 0).sys.here.state = .running ∧
    (fld 0x001F0000 0 4 = 0 ∧ fld 0x001F0000 16 16 < 32 ∧ ¬ fld 0x00200000 16 16 < 32) ∧
    ((shwOf (vset (Vector.replicate 16 0) 0 0xC001000000000000) 0 8).isSome = true ∧ (shwOf (Vector.replicate 16 0) 0 8).isNone = true ∧
      (pwinOf (vset (Vector.replicate 32 0) 0 0xC001000000000000) 0 16).isSome = true ∧ (pwinOf (Vector.replicate 32 0) 0 16).isNone = true ∧
      bit (0xC001000000000000 : Word) 62 = true ∧ bit (0x8001000000000000 : Word) 62 = false) ∧
    (0x10000 : BitVec 17).getLsbD 16 = true ∧ (0 : BitVec 17).getLsbD 15 = false ∧
    (0x1100000 ≤ 0x1170130 ∧ 0x1170130 < 0x1180000 ∧ 0x1170130 % 0x10000 = 0x130) ∧ ¬ (fld 0x5A4A525300000000 32 32 = 0x5A4A5253 ∧ bit (0x5A4A525300000000 : Word) 0 = true) ∧
    (let ready (d : Security) : Sys := { State.reset.sys with pkg := { State.reset.sys.pkg with sec := { d with ready := true } } }
     (ready {}).answers = true ∧ (ready { sealState := 2 }).answers = false ∧ (ready { linkKeys := 0x8000 }).pkg.sec.linkKeys.getLsbD 15 = true ∧ (ready {}).pkg.sec.linkKeys.getLsbD 15 = false ∧
     State.reset.sys.pkg.pw.powered = true ∧ (State.reset.sys.core 1023).rbsel.toNat % 16 = 0) ∧
    (let ends (a : Sys × List Write × Arrived) : Nat := match a.2.2 with | .done _ => 0 | .waits _ => 1 | .trouble _ => 2
     let page : Word := 0xC000000000000000
     let y (o : Owner) : Sys := { State.reset.sys with pkg := { State.reset.sys.pkg with owners := vset State.reset.sys.pkg.owners 0 o } }
     ends ((y {}).arriveAt [] 0 (.read 0) true) = 0 ∧ ends ((y { inv := page, invDue := some 9 }).arriveAt [] 0 (.read 8) true) = 1) := by decide

/-- Limits and bounds at the ends of their ranges and beyond; a powered module and one without power; no context that drains and one that does; a window with no cycle left, and one for a trip. -/
theorem test_meets_PowerEvents :
    (100 ≤ fld 0x00640001 16 16 ∧ fld 0x01A40001 16 16 ≤ 420 ∧ ¬ fld 0x01A50001 16 16 ≤ 420 ∧ 1 ≤ fld 0x00640001 0 3 ∧ fld 0x00640004 0 3 ≤ 4 ∧ ¬ fld 0x00640005 0 3 ≤ 4) ∧
    State.reset.sys.pkg.pw.powered = true ∧ ({ powered := false } : Power).powered = false ∧
    (State.reset.sys.heard = true ∧ ({ State.reset.sys with pkg := { State.reset.sys.pkg with sec := { sealState := 2 } } } : Sys).heard = false) ∧ (1 ≤ State.reset.sys.pkg.pw.plim ∧ State.reset.sys.pkg.pw.trip = false) ∧
    (∀ g ∈ State.reset.sys.cores, ∀ k ∈ g.2.ctxs.toList, k.live = true → k.preq = false ∧ k.state ≠ .draining) ∧
    (let s := st 0 fun k => { k with preq := true }
     (s.sys.ctx 0 0).live = true ∧ (s.sys.ctx 0 0).preq = true) ∧
    (let p : Power := { stall := true, left := some 0 }
     p.stall = true ∧ p.left = some 0) ∧ State.reset.sys.pkg.pw.stall = false ∧ ({ trip := true, stall := true } : Power).trip = true ∧ State.reset.sys.pkg.pw.trip = false ∧ (1 : Nat) ≠ 0 :=
  ⟨by decide, by decide, by decide, by decide, by decide, fun _ h => (by cases h), by decide, by decide, by decide, by decide, by decide, by decide⟩

/-- Phases 0, 3 and 4 of a boot that has not failed; a boot that is over, and one that has failed. -/
theorem test_meets_ResetsAndBoot :
    State.reset.sys.pkg.pw.powered = true ∧ State.reset.sys.pkg.sec.fail = false ∧ State.reset.sys.pkg.sec.phase < 5 ∧ ({ phase := 3 } : Security).phase + 1 = 4 ∧
    ({ phase := 4 } : Security).phase + 1 ≠ 4 ∧ ¬ ({ phase := 5 } : Security).phase < 5 ∧ ({ fail := true } : Security).fail = true ∧
    (let s := with_ State.reset fun y => { y with pkg := { y.pkg with struck := [7], recs := [{ id := 1, source := .window 0, level := .pav 2, record := default }] } }
     7 ∈ s.sys.pkg.struck ∧ s.sys.pkg.struck = [7] ∧ s.sys.controls 7 = true ∧ s.sys.controls 8 = false ∧ s.sys.pkg.pfqNew = 0 ∧ s.sys.pkg.pfq.length < 64) := by decide

/-- A device whose firmware has been checked, with the exchange at each of its stages, and one whose has not. -/
theorem test_meets_AttestationMessages :
    (State.reset.sys.pkg.pw.powered = true ∧ 1 ≤ ({ phase := 1 } : Security).phase ∧ ¬ 1 ≤ State.reset.sys.pkg.sec.phase ∧ State.reset.sys.pkg.sec.fail = false) ∧
    (let x : Session := { version := true, capabilities := true, algorithms := true, keyed := true, session := true }
     let d : Security := { phase := 5, sessions := vset (Vector.replicate 17 {}) 16 x }
     let y := vget d.sessions 16
     y.version = true ∧ y.capabilities = true ∧ y.algorithms = true ∧ y.keyed = true ∧ y.session = true ∧ (vget d.sessions 15).version = false) ∧
    ((0 : BitVec 3) = 0 ∧ (7 : BitVec 3) ≠ 0) ∧ ((6 : BitVec 8).toNat ≤ 6 ∧ ¬ (7 : BitVec 8).toNat ≤ 6) ∧
    (State.reset.sys.channels.headD .doe = .doe ∧ ([.span 3, .doe] : List Channel).headD .doe = .span 3) := by decide

/-- A message on the channel of span link 3 is answered there, and on no other (R286). -/
theorem test_channel :
    (match Sys2Proof.Machine.exec .getVersion (with_ State.reset fun y => { y with channels := [.span 3], pkg := { y.pkg with sec := { phase := 5 } } }) with
     | .next t => (vget t.sys.pkg.sec.sessions 3).version && !(vget t.sys.pkg.sec.sessions 16).version && t.sys.channels == []
     | _ => false) = true := by decide

/-- A session on an open, idle device; on a sealed one whose seal it holds, and one whose seal another holds; a device with a running task; no session; a seal under way and over, its image the one the digest names; an unseal. -/
theorem test_meets_SealAndUnseal :
    let dev (d : Security) : State := with_ State.reset fun y =>
      { y with pkg := { y.pkg with sec := { d with phase := 5, ready := true, sessions := vset (Vector.replicate 17 {}) 16 { session := true } } } }
    let shut (w : Word) : Bool := !bit w 63
    ((dev {}).sys.pkg.pw.powered = true ∧ 1 ≤ (dev {}).sys.pkg.sec.phase ∧ (vget (dev {}).sys.pkg.sec.sessions 16).session = true ∧ (vget (dev {}).sys.pkg.sec.sessions 0).session = false ∧
      (dev {}).sys.pkg.opened = true ∧ (dev {}).sys.cores = [] ∧ ((dev {}).sys.pkg.wins.toList.all fun w => !w.en) = true ∧
      (∀ j, j < 16 → shut (vget (dev {}).sys.pkg.hwin (2 * j)) = true ∧ shut (vget (dev {}).sys.pkg.pwin (2 * j)) = true) ∧ ∀ j, j < 8 → shut (vget (dev {}).sys.pkg.shw (2 * j)) = true) ∧
    (let d := (dev { sealState := 2 }).sys.pkg.sec
     d.sealState = 2 ∧ d.sealer = 16 ∧ d.sealer ≠ 15 ∧ (dev { sealState := 2 }).sys.pkg.opened = false) ∧ (st 0).sys.here.state ≠ .idle ∧
    (let job (due : Nat) : Sealing := { due := due, image := some [], digest := shake256 [] }
     (dev { sealState := 1, sealing := some (job 1) }).sys.wcyc < (job 1).due ∧ (job 0).due ≤ (dev { sealState := 1, sealing := some (job 0) }).sys.wcyc ∧ (job 0).image ≠ none) ∧
    (let y := (dev { sealState := 3, unsealing := some 0 }).sys
     y.pkg.sec.sealing = none ∧ y.pkg.sec.unsealing = some 0 ∧ 0 ≤ y.wcyc ∧ ¬ y.wcyc < 0) := by decide

end Sys2Proof.Tests
end

section
/-! PROOFS. Bytes and little-endian words: a write of bytes read back as bytes and as a number (R3). -/

namespace Sys2Proof.Machine

/-! ## Little-endian words -/

@[simp] theorem length_leBytes (n v : Nat) : (leBytes n v).length = n := by
  induction n generalizing v with
  | zero => rfl
  | succ j ih => simp [leBytes, ih]

/-- The bytes of a number give its low bytes back (R3). -/
theorem leNat_leBytes (n v : Nat) : leNat (leBytes n v) = v % 256 ^ n := by
  induction n generalizing v with
  | zero => simp [leBytes, leNat, Nat.mod_one]
  | succ j ih =>
    rw [leBytes, leNat, ih, BitVec.toNat_ofNat, Nat.pow_succ' (m := 256), Nat.mod_mul]

/-! ## Reading bytes -/

@[simp] theorem Memory.write_put (m : Memory) (k : Nat) (data : List Byte) : m.write (.put k data) = m.put k data := rfl

/-- Taking bytes from cells at or above `k`: the first is the byte at `k`, and the cells left read as before above `k`. -/
theorem Memory.take_succ {n k : Nat} {m : Memory} (w : Memory.wfFrom k m = true) :
    ∃ rest : Memory, Memory.wfFrom (k + 1) rest = true ∧ Memory.take (n + 1) k m = m.get k :: Memory.take n (k + 1) rest ∧
      ∀ a, k < a → rest.get a = m.get a := by
  cases m with
  | nil => exact ⟨[], rfl, rfl, fun _ _ => rfl⟩
  | cons c rest =>
    have w' := w
    simp only [Memory.wfFrom, Bool.and_eq_true, decide_eq_true_eq] at w
    obtain ⟨⟨low, nonzero⟩, wrest⟩ := w
    by_cases e : c.1 = k
    · refine ⟨rest, e ▸ wrest, by simp [Memory.take, Memory.get, e], fun a lt => ?_⟩
      rw [Memory.get, if_neg (by omega)]
    · have above : Memory.wfFrom (k + 1) (c :: rest) = true := by
        simp only [Memory.wfFrom, Bool.and_eq_true, decide_eq_true_eq]
        exact ⟨⟨by omega, nonzero⟩, wrest⟩
      have absent : Memory.get (c :: rest) k = 0 := Memory.get_of_absent fun d hd => by have := Memory.keys_from above d hd; omega
      exact ⟨c :: rest, above, by rw [absent]; simp only [Memory.take, if_neg e], fun _ _ => rfl⟩

theorem Memory.take_eq_map_get {n k : Nat} {m : Memory} (w : Memory.wfFrom k m = true) :
    Memory.take n k m = (List.range n).map fun i => m.get (k + i) := by
  induction n generalizing k m with
  | zero => rfl
  | succ j ih =>
    obtain ⟨rest, wrest, first, others⟩ := Memory.take_succ (n := j) w
    rw [first, ih wrest, List.range_succ_eq_map, List.map_cons, List.map_map, Nat.add_zero]
    refine congrArg _ (List.map_congr_left fun i _ => ?_)
    rw [others _ (by omega), Function.comp_apply, Nat.succ_eq_add_one, Nat.add_assoc, Nat.add_comm 1 i]

/-- Reading `n` bytes is reading each of them. -/
theorem Memory.bytes_eq_map_get {m : Memory} (w : m.wf = true) (k n : Nat) : m.bytes k n = (List.range n).map fun i => m.get (k + i) := by
  rw [Memory.bytes, Memory.take_eq_map_get (Memory.wfFrom_dropBelow w)]
  exact List.map_congr_left fun i _ => Memory.get_dropBelow (Nat.le_add_right k i)

/-- The bytes that a write puts read back together. -/
theorem Memory.bytes_put {m : Memory} (w : m.wf = true) (k : Nat) (data : List Byte) : (m.put k data).bytes k data.length = data := by
  rw [Memory.bytes_eq_map_get (Memory.put_wf w k data)]
  refine List.ext_getElem (by simp) fun i _ h => ?_
  rw [List.getElem_map, List.getElem_range, Memory.get_put_inside w k data i h]

/-- An `n`-byte little-endian number that is written reads back. -/
theorem Memory.leNat_bytes_put {m : Memory} (w : m.wf = true) (k n v : Nat) : leNat ((m.put k (leBytes n v)).bytes k n) = v % 256 ^ n := by
  have back := Memory.bytes_put w k (leBytes n v)
  rw [length_leBytes] at back
  rw [back, leNat_leBytes]

theorem Memory.word_put {m : Memory} (w : m.wf = true) (k : Nat) (v : Word) : (m.put k (leBytes 8 v.toNat)).word k = v := by
  have fits : v.toNat < 256 ^ 8 := v.isLt
  rw [Memory.word, Memory.leNat_bytes_put w, Nat.mod_eq_of_lt fits, BitVec.ofNat_toNat, BitVec.setWidth_eq]

/-! ## O12 -/

/-- Settles O12: a write is read back byte by byte, and the canonical form is determined by what it reads. -/
theorem memoryReadAfterWrite : Obligations.MemoryReadAfterWrite := by
  unfold Obligations.MemoryReadAfterWrite
  refine ⟨fun m k data w => ⟨fun i h => ?_, fun a h => ?_⟩, fun m n wm wn h => ?_, fun m k v w => ?_⟩
  · exact Memory.get_put_inside w k data i h
  · exact Memory.get_put_outside w k data a h
  · exact Memory.ext_of_get wm wn h
  · exact Memory.word_put w k v

end Sys2Proof.Machine
end

section
/-! PROOFS. Scalar results that are due at issue, and the moves of R146 and R147. -/

namespace Sys2Proof

/-! ## Fields of a scalar word -/

/-- The number of two fields side by side. -/
theorem toNat_append_fields {m n : Nat} (x : BitVec m) (y : BitVec n) : (x ++ y).toNat = x.toNat * 2 ^ n + y.toNat := by
  rw [BitVec.toNat_append, ← Nat.shiftLeft_add_eq_or_of_lt y.isLt, Nat.shiftLeft_eq]

theorem pick_zero_fields (i : Instr) : pick false false i = if i.wf then .ok i else .error .reservedValue := by
  cases h : i.wf <;> simp [pick, h]

/-- A scalar word of opcode 0x33 whose reserved fields are zero is the move to the staging register that it names, if the number is one (R109, R147). -/
theorem decodeScalar_movStaging (a : BitVec 5) (n : BitVec 6) :
    decodeScalar (0x33#8 ++ 0#5 ++ a ++ 0#8 ++ n) = if n.toNat < 0x28 then .ok (.movStaging a n) else .error .reservedValue := by
  have word : (0x33#8 ++ 0#5 ++ a ++ 0#8 ++ n).toNat = 0x33 * 2 ^ 24 + a.toNat * 2 ^ 14 + n.toNat := by
    simp only [toNat_append_fields, BitVec.toNat_ofNat]; omega
  generalize 0x33#8 ++ 0#5 ++ a ++ 0#8 ++ n = w at word ⊢
  have ha := a.isLt
  have hn := n.isLt
  have opcode : w.toNat / 2 ^ 24 = 0x33 := by omega
  have middle : nz w 6 8 = false := by simp only [nz, bne_eq_false_iff_eq]; omega
  have rd : nz w 19 5 = false := by simp only [nz, bne_eq_false_iff_eq]; omega
  have ra : bf w 14 5 = a := BitVec.eq_of_toNat_eq (by simp only [bf, BitVec.toNat_ofNat]; omega)
  have number : bf w 0 6 = n := BitVec.eq_of_toNat_eq (by simp only [bf, BitVec.toNat_ofNat]; omega)
  simp only [decodeScalar, opcode, middle, rd, ra, number, Bool.or_false, pick_zero_fields, Instr.wf, decide_eq_true_eq]

namespace Machine

/-! ## Results that are due -/

/-- A readable group does not hold for its registers (R23). -/
theorem Readable.interlock {s : State} {b : Bool} {names : List (BitVec 5)} (h : Readable s b names) : s.sys.interlock b names = none := by
  rcases h with free | landed
  · exact Sys.interlock_free free b names
  · have none_pending : (names.any fun n => s.sys.pendingScalar b (s.sys.here.phys b n.toNat)) = false := by
      simpa using landed
    simp only [Sys.interlock, none_pending, Bool.not_false, holdUnless_met, ite_self]

/-- An instruction that neither holds nor has a limit, and whose effect is one landing, makes that landing due and nothing else. -/
theorem makes_of_land {i : Instr} {s : State} {n : Nat} {act : Sys → Act} (h : exec i s = s.issue none [] fun y => y.land n (act y)) :
    Makes i s [Due s n 0 (act s.sys)] := h

/-! ## LIMM -/

/-- The quarter `q` of a word that holds `x` there and zeros elsewhere (R146). -/
theorem getLsbD_quarter (x : BitVec 16) (q : Nat) {i : Nat} (h : i < 64) :
    (BitVec.ofNat 64 (x.toNat * 2 ^ (16 * q))).getLsbD i = (decide (i / 16 = q) && x.getLsbD (i % 16)) := by
  rw [BitVec.getLsbD_ofNat, Nat.testBit_mul_two_pow, decide_eq_true h, Bool.true_and, BitVec.testBit_toNat]
  by_cases inside : i / 16 = q
  · have : i - 16 * q = i % 16 := by omega
    rw [this, decide_eq_true (by omega), decide_eq_true inside]
  · rw [decide_eq_false inside, Bool.false_and]
    by_cases above : 16 * q ≤ i
    · rw [BitVec.getLsbD_of_ge x _ (by omega), Bool.and_false]
    · rw [decide_eq_false above, Bool.false_and]

theorem limm_makes (s : State) (d : BitVec 5) (q : BitVec 2) (imm : BitVec 16) :
    Makes (.limm d q imm) s [Due s 1 0 (.scalar s.sys.fileB (s.sys.here.phys s.sys.fileB d.toNat)
      (BitVec.ofNat 64 ((BitVec.allOnes 16).toNat * 2 ^ (16 * q.toNat))) (BitVec.ofNat 64 (imm.toNat * 2 ^ (16 * q.toNat))))] :=
  makes_of_land (act := fun y => .scalar y.fileB (y.here.phys y.fileB d.toNat) _ _) rfl

/-! ## The move to a staging register -/

theorem movStaging_makes {s : State} {a : BitVec 5} (n : BitVec 6) (h : Readable s s.sys.fileB [a]) :
    Makes (.movStaging a n) s [Due s 1 0 (.staging n.toNat (s.sys.own a &&& stagingMask n.toNat))] := by
  refine makes_of_land (act := fun y => .staging n.toNat (y.own a &&& stagingMask n.toNat)) ?_
  calc exec (.movStaging a n) s
      = s.issue (s.sys.interlock s.sys.fileB [a]) [] fun y => y.land 1 (.staging n.toNat (y.own a &&& stagingMask n.toNat)) := rfl
    _ = _ := by rw [h.interlock]

/-! ## O27 -/

/-- Settles O27: both instructions make one landing due; a quarter's mask and value are known bit by bit. -/
theorem immediateAndStagingMoves : Obligations.ImmediateAndStagingMoves := by
  unfold Obligations.ImmediateAndStagingMoves
  intro s d a q imm n given
  have given_eq : given = stagingMask n.toNat := rfl
  refine ⟨⟨_, _, limm_makes s d q imm, fun i h => ⟨?_, fun inside => ?_⟩⟩, fun readable => ?_, fun assigned => ?_, fun reserved => ?_⟩
  · rw [getLsbD_quarter _ _ h, BitVec.getLsbD_allOnes, decide_eq_true (Nat.mod_lt i (by decide)), Bool.and_true]
  · rw [getLsbD_quarter _ _ h, decide_eq_true inside, Bool.true_and]
  · rw [given_eq]; exact movStaging_makes n readable
  · exact (decodeScalar_movStaging a n).trans (if_pos assigned)
  · exact (decodeScalar_movStaging a n).trans (if_neg (by omega))

end Machine

end Sys2Proof
end

section
/-! PROOFS. A lane-group word at one of its beats: the tick in which it reads, and what it lands or reports (R23, R160, R161, R341). -/

namespace Sys2Proof.Machine

/-! ## Results that are due together -/

/-- Results of one word that land in one tick join the agenda in their order. -/
theorem Sys.foldl_post (s : Sys) (g x due phase ord : Nat) (acts : List Act) :
    acts.foldl (fun s a => s.post g x due phase ord a) s = { s with agenda := s.agenda ++ acts.map fun a => ⟨g, x, due, phase, ord, a⟩ } := by
  induction acts generalizing s with
  | nil => simp
  | cons a rest ih => rw [List.foldl_cons, ih]; simp [Sys.post]

/-! ## A word that pops no port -/

section
variable {s : Sys} {q : List Waiting} {m : Memory} {g lg : Nat} {w : InFlight} {v : VWord}

/-- In the tick of its beat, outside a stall, a word that pops no port reads the beat; after beat 15 the lane group is free (R159, R161). -/
theorem Sys.laneTick_of_due (named : vwordOf w.instr = some v) (popA : w.popA = none) (popB : w.popB = none) (shut : s.windowOpen = false)
    (goes : (s.ctx g w.ctx).timed = true → s.stalled = false) (due : s.now g w.ctx = w.issued + w.reads.length) :
    s.laneTick q m g lg w =
      (if w.reads.length = 15 then none else some (w.readNext v s m g lg (s.now g w.ctx)).1, (w.readNext v s m g lg (s.now g w.ctx)).2) := by
  have moving : ((s.ctx g w.ctx).timed && s.stalled) = false := by simpa using goes
  have reached : ¬ s.now g w.ctx < w.issued + w.reads.length := by omega
  simp [Sys.laneTick, named, popA, popB, shut, moving, reached, beatWaiting]

/-- A beat that meets no poisoned word makes its results due, `wait` cycles on (R160). -/
theorem InFlight.readNext_of_sound (popA : w.popA = none) (popB : w.popB = none) (unspoiled : w.spoiled = [])
    (sound : s.poison = [] ∨ w.meets v s g lg w.reads.length = false) (now : Nat) :
    let w' : InFlight := { w with reads := w.reads ++ [w.read v m g lg (vget (s.ctx g w.ctx).regs.lane lg) w.reads.length] }
    w.readNext v s m g lg now = (w', { s with agenda := s.agenda ++
      (w'.landings v lg (v.beat w.rm w.honour w'.reads)).map fun a => ⟨g, w.ctx, now + w.wait v, 0, w.ord, a⟩ }) := by
  have clean : (!s.poison.isEmpty && w.meets v s g lg w.reads.length) = false := by
    rcases sound with empty | unmet
    · simp [empty]
    · simp [unmet]
  simp [InFlight.readNext, popA, popB, unspoiled, clean, Sys.foldl_post, InFlight.wait]

/-- A beat that meets a poisoned word of the vector file is reported and makes nothing due (R9, R341). -/
theorem InFlight.readNext_of_poisoned (popA : w.popA = none) (popB : w.popB = none) (unspoiled : w.spoiled = [])
    (poison : s.poison ≠ []) (met : w.meets v s g lg w.reads.length = true) (now : Nat) :
    let told := s.deferFault g w.ctx { cls := 11, code := 1, slot := w.slot, grp := w.grp, lg := some lg }
    w.readNext v s m g lg now = ({ w with
      reads := w.reads ++ [w.read v m g lg (vget (told.ctx g w.ctx).regs.lane lg) w.reads.length], spoiled := [w.reads.length] }, told) := by
  have own : (!s.poison.isEmpty && w.meets v s g lg w.reads.length) = true := by simp [poison, met]
  simp [InFlight.readNext, popA, popB, unspoiled, own]

end

/-! ## O38 -/

/-- Settles O38: the beat is read in its tick; what it reads is sound and lands by its class, or is poisoned and is told of. -/
theorem beatsReadAndLand : Obligations.BeatsReadAndLand := by
  unfold Obligations.BeatsReadAndLand
  intro s q m g lg w v j now base named popA popB unspoiled shut goes due _ w'
  have tick := s.laneTick_of_due (q := q) (m := m) (lg := lg) named popA popB shut goes due
  refine ⟨fun sound => ?_, fun poison met => ?_⟩
  · have wait : w.wait v = base + w.extra := by
      simp only [InFlight.wait, base]
      cases v.cls <;> rfl
    have lands : s.now g w.ctx + w.wait v = w.issued + j + base + w.extra := by
      have arrives : s.now g w.ctx = w.issued + j := due
      omega
    rw [tick, InFlight.readNext_of_sound popA popB unspoiled sound, lands]
  · rw [tick, InFlight.readNext_of_poisoned popA popB unspoiled poison met]

end Sys2Proof.Machine
end

section
/-! PROOFS. Power events: readings taken for an event, the changes of the power state, stall windows and trips (R31, R270, R355, R356). -/

namespace Sys2Proof.Machine

/-! ## Events without writes -/

theorem idles_of_event {i : Instr} {s : State} {e : Sys → Sys × List Write} (row : exec i s = s.event e) (same : e s.sys = (s.sys, [])) :
    Idles i s := by
  rw [Idles, row, State.event_next, same]; rfl

theorem becomes_of_event {i : Instr} {s : State} {e : Sys → Sys × List Write} {f : Sys → Sys} (row : exec i s = s.event e)
    (effect : e s.sys = (f s.sys, [])) : Becomes i s f := by
  rw [Becomes, row, State.event_next, effect]; rfl

/-! ## The fields of PWRCTL and what they bound (R355) -/

/-- A write of PWRCTL touches the limit and the bound alone, each when its field is in range. -/
theorem Power.limits_eq (p : Power) (v : Word) :
    p.limits v = { p with
      plim := if 100 ≤ fld v 16 16 ∧ fld v 16 16 ≤ 420 then fld v 16 16 else p.plim
      dmax := if 1 ≤ fld v 0 3 ∧ fld v 0 3 ≤ 4 then fld v 0 3 else p.dmax } := by
  unfold Power.limits
  split <;> split <;> simp [*]

@[simp] theorem Power.limits_d (p : Power) (v : Word) : (p.limits v).d = p.d := by rw [Power.limits_eq]
@[simp] theorem Power.limits_alarm (p : Power) (v : Word) : (p.limits v).alarm = p.alarm := by rw [Power.limits_eq]
@[simp] theorem Power.limits_trip (p : Power) (v : Word) : (p.limits v).trip = p.trip := by rw [Power.limits_eq]

@[simp] theorem Power.settle_d (p : Power) : p.settle.d = Nat.min p.d p.dmax := by
  unfold Power.settle
  split
  · next above => exact (Nat.min_eq_right (Nat.le_of_lt above)).symm
  · next within => exact (Nat.min_eq_left (Nat.le_of_not_lt within)).symm

@[simp] theorem Power.settle_alarm (p : Power) : p.settle.alarm = (p.alarm || decide (p.dmax < p.d)) := by
  unfold Power.settle
  split <;> simp [*]

/-! ## Readings taken for an event (log 68) -/

/-- `q` is `p` with other readings of the sensors. -/
def Power.Rereads (p q : Power) : Prop := q = { p with pwr := q.pwr, tj := q.tj, tin := q.tin, tout := q.tout }

/-- `q` is `p` with readings of which one is over its limit, but where a trip holds the temperature below the throttling point (R356). -/
def Power.Exceeds (p q : Power) : Prop := p.Rereads q ∧ (p.trip = false ∨ 1520 < p.tj → q.plim < q.pwr ∨ 1520 < q.tj)

section
variable {p q : Power} (h : p.Rereads q)
include h

theorem Power.Rereads.d_eq : q.d = p.d := (congrArg Power.d h : _)
theorem Power.Rereads.dmax_eq : q.dmax = p.dmax := (congrArg Power.dmax h : _)
theorem Power.Rereads.alarm_eq : q.alarm = p.alarm := (congrArg Power.alarm h : _)
theorem Power.Rereads.trip_eq : q.trip = p.trip := (congrArg Power.trip h : _)
theorem Power.Rereads.stall_eq : q.stall = p.stall := (congrArg Power.stall h : _)
theorem Power.Rereads.nstall_eq : q.nstall = p.nstall := (congrArg Power.nstall h : _)
theorem Power.Rereads.left_eq : q.left = p.left := (congrArg Power.left h : _)
theorem Power.Rereads.pendingStall_eq : q.pendingStall = p.pendingStall := (congrArg Power.pendingStall h : _)

end

theorem Power.readOver_rereads (p : Power) (w : Word) : p.Rereads (p.readOver w) := by
  unfold Power.readOver
  split <;> rfl

theorem Power.readUnder_rereads (p : Power) (w : Word) : p.Rereads (p.readUnder w) := by
  unfold Power.readUnder
  split <;> rfl

theorem Power.over_iff (p : Power) : p.over = true ↔ p.plim < p.pwr ∨ 1520 < p.tj := by
  rw [Power.over, Bool.or_eq_true, decide_eq_true_eq, decide_eq_true_eq]; rfl

theorem Power.under_iff (p : Power) : p.under = true ↔ 10 * p.pwr < 9 * p.plim ∧ p.tj < 1440 := by
  rw [Power.under, Bool.and_eq_true, decide_eq_true_eq, decide_eq_true_eq]; rfl

theorem Power.exceeds_readOver (p : Power) (w : Word) : p.Exceeds (p.readOver w) := by
  refine ⟨p.readOver_rereads w, fun free => ?_⟩
  by_cases stands : p.over = true
  · simpa [Power.readOver, stands] using p.over_iff.mp stands
  · have untripped : p.trip = false := free.resolve_right fun hot => stands (p.over_iff.mpr (.inr hot))
    by_cases strong : p.plim < fld w 0 16
    · left; simpa [Power.readOver, stands, Power.read] using strong
    · right; simp only [Power.readOver, stands, Power.read, untripped, strong, hotPoint, Bool.false_eq_true, if_false]; omega

/-- What is read for an event of recovery is under both points (R356). -/
theorem Power.readUnder_recovers (p : Power) (w : Word) (limited : 1 ≤ p.plim) :
    10 * (p.readUnder w).pwr < 9 * p.plim ∧ (p.readUnder w).tj < 1440 := by
  unfold Power.readUnder
  split
  · next stands => exact p.under_iff.mp stands
  · have drawn : fld w 0 16 % ((9 * p.plim + 9) / 10) < (9 * p.plim + 9) / 10 := Nat.mod_lt _ (by omega)
    exact ⟨by simp only [Power.read]; omega, Nat.mod_lt _ (by decide)⟩

/-! ## Changes of the power state -/

/-- The power state becomes `q` in an event that takes a free value. -/
def Sys.reread (y : Sys) (q : Power) : Sys := ({ y with taken := y.taken + 1 } : Sys).setPower fun _ => q

/-- The readings for an event of a limit exceeded, and for one of recovery. -/
def Sys.hotReading (y : Sys) : Power := y.pkg.pw.readOver (Config.freeValue y.taken)
def Sys.coolReading (y : Sys) : Power := y.pkg.pw.readUnder (Config.freeValue y.taken)

/-- A change that follows new readings is reported against the state before them, for the readings themselves are not reported (R356). -/
theorem Sys.setPower_sense (y : Sys) {f : Power → Word → Power} (h : Power → Power)
    (reads : y.pkg.pw.Rereads (f y.pkg.pw (Config.freeValue y.taken))) :
    (y.sense f).setPower h = y.reread (h (f y.pkg.pw (Config.freeValue y.taken))) := by
  simp only [Sys.sense, Sys.reread, Sys.setPower, Sys.freeValue, reads.d_eq, reads.alarm_eq, reads.trip_eq]

theorem Sys.hotReading_exceeds (y : Sys) : y.pkg.pw.Exceeds y.hotReading := y.pkg.pw.exceeds_readOver _

theorem Sys.setPower_sense_over (y : Sys) (h : Power → Power) : (y.sense Power.readOver).setPower h = y.reread (h y.hotReading) :=
  y.setPower_sense h (y.pkg.pw.readOver_rereads _)

theorem Sys.setPower_sense_under (y : Sys) (h : Power → Power) : (y.sense Power.readUnder).setPower h = y.reread (h y.coolReading) :=
  y.setPower_sense h (y.pkg.pw.readUnder_rereads _)

@[simp] theorem Sys.setPower_pw (y : Sys) (f : Power → Power) : (y.setPower f).pkg.pw = f y.pkg.pw := rfl

theorem Sys.setPower_msix_of_told {y : Sys} {f : Power → Power}
    (told : (f y.pkg.pw).trip = true ∧ y.pkg.pw.trip = false ∨ (f y.pkg.pw).alarm = true ∧ y.pkg.pw.alarm = false) :
    (y.setPower f).pkg.msix = y.pkg.msix ||| 0x400 := by
  rcases told with ⟨now, before⟩ | ⟨now, before⟩ <;> simp [Sys.setPower, now, before]

/-! ## Stall windows (R31, R270) -/

theorem Sys.draining_eq_false_iff (y : Sys) :
    y.draining = false ↔ ∀ g ∈ y.cores, ∀ k ∈ g.2.ctxs.toList, k.live = true → k.preq = false ∧ k.state ≠ .draining := by
  simp only [Sys.draining, List.any_eq_false, Bool.and_eq_true, Bool.or_eq_true, beq_iff_eq, not_and, not_or, Bool.not_eq_true, ne_eq]

@[simp] theorem Sys.sense_draining (y : Sys) (f : Power → Word → Power) : (y.sense f).draining = y.draining := rfl
@[simp] theorem Sys.setPower_draining (y : Sys) (f : Power → Power) : (y.setPower f).draining = y.draining := rfl

/-- The cycles of the window that waits once one of `n` cycles has joined it; 0: until the trip clears. -/
def Power.waitFor (p : Power) (n : Nat) : Nat :=
  match p.pendingStall with
  | some m => if m = 0 ∨ n = 0 then 0 else Nat.max m n
  | none => n

theorem Sys.dueWindow_of_quiet {y : Sys} (quiet : y.draining = false) (n : Nat) : y.dueWindow n = y.setPower fun p => p.openFor n := by
  simp [Sys.dueWindow, quiet]

theorem Sys.dueWindow_of_draining {y : Sys} (busy : y.draining = true) (n : Nat) :
    y.dueWindow n = y.setPower fun p => { p with pendingStall := some (p.waitFor n) } := by
  simp only [Sys.dueWindow, busy, if_true]
  rfl

/-- The windows counted, with one more; the count stays at its greatest value (R355). -/
def Power.countWindow (p : Power) : W32 := if p.nstall = 0xFFFFFFFF then p.nstall else p.nstall + 1

theorem Power.openFor_of_closed {p : Power} (closed : p.stall = false) (n : Nat) :
    p.openFor n = { p with stall := true, nstall := p.countWindow, left := if n = 0 then none else some n } := by
  simp [Power.openFor, closed, Power.countWindow]

theorem Power.openFor_of_open {p : Power} (opened : p.stall = true) {n : Nat} (some_cycles : n ≠ 0) :
    p.openFor n = { p with left := p.left.map fun l => Nat.max l n } := by
  simp [Power.openFor, opened, some_cycles]

/-- A window that opens raises no interrupt: neither the divisor nor the alarm nor the trip changes (R356). -/
theorem Sys.setPower_openFor_msix (y : Sys) (n : Nat) : (y.setPower fun p => p.openFor n).pkg.msix = y.pkg.msix := by
  cases open_now : y.pkg.pw.stall <;> simp [Sys.setPower, Power.openFor, open_now]

/-! ## What each row does -/

section
variable (s : State)

theorem exec_pwrctlWrite (v : Word) : exec (.pwrctlWrite v) s = execPwrctlWrite v s := rfl
theorem exec_divisorRaise : exec .divisorRaise s = execDivisorRaise s := rfl
theorem exec_divisorLower : exec .divisorLower s = execDivisorLower s := rfl
theorem exec_stallWindowOpen (n : Nat) : exec (.stallWindowOpen n) s = execStallWindowOpen n s := rfl
theorem exec_stallWindowClose : exec .stallWindowClose s = execStallWindowClose s := rfl
theorem exec_thermalTrip : exec .thermalTrip s = execThermalTrip s := rfl
theorem exec_tripClear : exec .tripClear s = execTripClear s := rfl

end

section
variable {s : State}

/-- Without power none of these rows has an effect (R356). -/
theorem powerRows_idle_of_unpowered (off : s.sys.pkg.pw.powered = false) (v : Word) (n : Nat) :
    Idles (.pwrctlWrite v) s ∧ Idles .divisorRaise s ∧ Idles .divisorLower s ∧ Idles (.stallWindowOpen n) s ∧ Idles .thermalTrip s :=
  ⟨idles_of_event (exec_pwrctlWrite s v) (by simp [off]), idles_of_event (exec_divisorRaise s) (by simp [off]),
    idles_of_event (exec_divisorLower s) (by simp [off]), idles_of_event (exec_stallWindowOpen s n) (by simp [off]),
    idles_of_event (exec_thermalTrip s) (by simp [off])⟩

/-! ### PWRCTL -/

theorem pwrctlWrite_idles (v : Word) (unheard : s.sys.heard = false) : Idles (.pwrctlWrite v) s :=
  idles_of_event (exec_pwrctlWrite s v) (by simp [unheard])

theorem pwrctlWrite_becomes (v : Word) (on : s.sys.pkg.pw.powered = true) (heard : s.sys.heard = true) :
    Becomes (.pwrctlWrite v) s fun y => y.setPower fun p => p.limits v :=
  becomes_of_event (exec_pwrctlWrite s v) (by simp [on, heard])

/-! ### The divisor -/

theorem divisorRaise_becomes (on : s.sys.pkg.pw.powered = true) :
    let p := s.sys.pkg.pw
    let q := s.sys.hotReading
    Becomes .divisorRaise s fun y =>
      y.reread (if p.d < p.dmax then { q with hot := 0, d := p.d + 1, alarm := p.alarm || p.d + 1 == p.dmax } else q) := by
  obtain ⟨kept, -⟩ := s.sys.hotReading_exceeds
  exact becomes_of_event (exec_divisorRaise s)
    (by simp only [on, if_true, Sys.setPower_sense_over, kept.d_eq, kept.dmax_eq, kept.alarm_eq])

theorem divisorLower_idles (tripped : s.sys.pkg.pw.trip = true) : Idles .divisorLower s :=
  idles_of_event (exec_divisorLower s) (by simp [tripped])

/-- Recovery: throttling windows close, open or waiting, and the divisor falls by one (R356). -/
def Power.recover (p : Power) : Power :=
  { p with
    stall := p.stall && p.left.isNone, left := none, cool := 0, d := if 1 < p.d then p.d - 1 else p.d
    pendingStall := p.pendingStall.filter fun n => n == 0 }

theorem divisorLower_becomes (on : s.sys.pkg.pw.powered = true) (untripped : s.sys.pkg.pw.trip = false) :
    Becomes .divisorLower s fun y => y.reread s.sys.coolReading.recover := by
  refine becomes_of_event (exec_divisorLower s) ?_
  simp only [on, untripped, Bool.not_false, Bool.and_true, if_true, Sys.setPower_sense_under]
  cases open_for : s.sys.coolReading.left <;> simp [Power.recover, open_for]

/-! ### Stall windows -/

theorem stallWindowOpen_idles : Idles (.stallWindowOpen 0) s := idles_of_event (exec_stallWindowOpen s 0) (by simp)

section
variable {n : Nat} (on : s.sys.pkg.pw.powered = true) (some_cycles : n ≠ 0)
include on some_cycles

theorem stallWindowOpen_becomes_of_quiet (quiet : s.sys.draining = false) :
    Becomes (.stallWindowOpen n) s fun y => y.reread (s.sys.hotReading.openFor n) :=
  becomes_of_event (exec_stallWindowOpen s n)
    (by simp [on, some_cycles, Sys.dueWindow_of_quiet, quiet, Sys.setPower_sense_over])

theorem stallWindowOpen_becomes_of_draining (busy : s.sys.draining = true) :
    Becomes (.stallWindowOpen n) s fun y =>
      y.reread { s.sys.hotReading with pendingStall := some (s.sys.hotReading.waitFor n) } :=
  becomes_of_event (exec_stallWindowOpen s n)
    (by simp [on, some_cycles, Sys.dueWindow_of_draining, busy, Sys.setPower_sense_over])

end

theorem stallWindowClose_becomes (opened : s.sys.pkg.pw.stall = true) (spent : s.sys.pkg.pw.left = some 0) :
    Becomes .stallWindowClose s fun y => y.setPower fun p => { p with stall := false, left := none } :=
  becomes_of_event (exec_stallWindowClose s) (by simp [opened, spent])

theorem stallWindowClose_idles (going : s.sys.pkg.pw.stall = false ∨ s.sys.pkg.pw.left ≠ some 0) : Idles .stallWindowClose s :=
  idles_of_event (exec_stallWindowClose s) (by rcases going with h | h <;> simp [h])

/-! ### Trips -/

/-- The power state of a trip, before its window (R356). -/
def Power.tripped (p : Power) : Power := { p with trip := true, alarm := true, tj := Nat.max p.tj 1680 }

theorem thermalTrip_becomes (on : s.sys.pkg.pw.powered = true) (quiet : s.sys.draining = false) :
    Becomes .thermalTrip s fun y => (y.setPower Power.tripped).setPower fun p => p.openFor 0 := by
  refine becomes_of_event (exec_thermalTrip s) ?_
  simp only [on, if_true]
  rw [Sys.dueWindow_of_quiet (by simpa using quiet)]
  rfl

/-- A trip, or a window of one that is open or waits, is there to be cleared. -/
theorem Power.clearable_iff (p : Power) :
    (!p.trip && !p.tripWindow) = false ↔ p.trip = true ∨ (p.stall = true ∧ p.left = none) ∨ p.pendingStall = some 0 := by
  simp only [Power.tripWindow, Bool.and_eq_false_iff, Bool.not_eq_eq_eq_not, Bool.not_false, Bool.or_eq_true, Bool.and_eq_true,
    Option.isNone_iff_eq_none, beq_iff_eq]

/-- The power state below 100 °C: the trip and its window are gone; `tj` stands if it reads so, else it is what `w` gives (log 5). -/
def Power.cooled (p : Power) (w : Word) : Power :=
  { p with
    trip := false, tj := if p.tj < 1600 then p.tj else w.toNat % 1600, stall := p.stall && p.left.isSome
    pendingStall := p.pendingStall.filter fun n => n != 0 }

theorem Power.cooled_tj_lt (p : Power) (w : Word) : (p.cooled w).tj < 1600 := by
  unfold Power.cooled
  split
  · assumption
  · exact Nat.mod_lt _ (by decide)

theorem tripClear_idles (nothing : (!s.sys.pkg.pw.trip && !s.sys.pkg.pw.tripWindow) = true) : Idles .tripClear s :=
  idles_of_event (exec_tripClear s) (if_pos nothing)

theorem tripClear_becomes_of_between (there : (!s.sys.pkg.pw.trip && !s.sys.pkg.pw.tripWindow) = false)
    (between : 1600 ≤ s.sys.pkg.pw.tj ∧ s.sys.pkg.pw.tj < 1680) :
    Becomes .tripClear s fun y => y.setPower fun p => { p with trip := false } :=
  becomes_of_event (exec_tripClear s) ((if_neg (by simp [there])).trans (if_pos between))

theorem tripClear_becomes_of_outside (there : (!s.sys.pkg.pw.trip && !s.sys.pkg.pw.tripWindow) = false)
    (outside : ¬ (1600 ≤ s.sys.pkg.pw.tj ∧ s.sys.pkg.pw.tj < 1680)) :
    Becomes .tripClear s fun y => y.reread (s.sys.pkg.pw.cooled (Config.freeValue s.sys.taken)) :=
  becomes_of_event (exec_tripClear s) ((if_neg (by simp [there])).trans (if_neg outside))

end

/-! ## O57 -/

/-- Settles O57: each row's effect, with the readings it takes. -/
theorem powerEvents : Obligations.PowerEvents := by
  unfold Obligations.PowerEvents
  intro s v n y p tells sets quiet limit bound count took measured above all
  have quiet_iff : s.sys.draining = false ↔ quiet := s.sys.draining_eq_false_iff
  have hot : p.Exceeds s.sys.hotReading := s.sys.hotReading_exceeds
  have kept : p.Rereads s.sys.hotReading := p.readOver_rereads _
  refine ⟨fun off => ?unpowered, fun on => ⟨pwrctlWrite_idles v, fun heard => ?write, ?raise, divisorLower_idles,
      fun untripped => ?lower, fun some_cycles calm closed => ?opens, fun some_cycles calm opened => ?joins,
      fun some_cycles busy => ?waits, ?no_cycles, fun calm closed => ?trip⟩,
    stallWindowClose_becomes, stallWindowClose_idles, fun there low high => ?between, fun there outside => ?outside, fun nothing => ?nothing⟩
  case unpowered => simpa [all] using powerRows_idle_of_unpowered off v n
  case write =>
    refine ⟨p.limits v, pwrctlWrite_becomes v on heard, congrArg Power.plim (p.limits_eq v), congrArg Power.dmax (p.limits_eq v),
      p.limits_d v, p.limits_alarm v, p.limits_trip v, ?_, ?_⟩
    · rw [Power.settle_d, Power.limits_d]
    · rw [Power.settle_alarm, Power.limits_d, Power.limits_alarm]
  case raise => exact ⟨s.sys.hotReading, hot, divisorRaise_becomes on⟩
  case lower =>
    have cool : p.Rereads s.sys.coolReading := p.readUnder_rereads _
    refine ⟨s.sys.coolReading.recover, divisorLower_becomes on untripped, p.readUnder_recovers _, ?_, ?_, ?_, cool.alarm_eq⟩
    · simp only [Power.recover, cool.d_eq]
    · simp only [Power.recover, cool.stall_eq, cool.left_eq]
    · exact cool.trip_eq.trans untripped
  case opens =>
    refine ⟨s.sys.hotReading, hot, ?_⟩
    have opens := stallWindowOpen_becomes_of_quiet on some_cycles (quiet_iff.mpr calm)
    rw [Power.openFor_of_closed (kept.stall_eq.trans closed), Power.countWindow, kept.nstall_eq, if_neg some_cycles] at opens
    exact opens
  case joins =>
    refine ⟨s.sys.hotReading, hot, ?_⟩
    have opens := stallWindowOpen_becomes_of_quiet on some_cycles (quiet_iff.mpr calm)
    rw [Power.openFor_of_open (kept.stall_eq.trans opened) some_cycles, kept.left_eq] at opens
    exact opens
  case waits =>
    have draining : s.sys.draining = true := by simpa [← quiet_iff] using busy
    refine ⟨s.sys.hotReading, _, hot, stallWindowOpen_becomes_of_draining on some_cycles draining, fun none_waits => ?_⟩
    rw [Power.waitFor, kept.pendingStall_eq, none_waits]
  case no_cycles => rintro rfl; exact stallWindowOpen_idles
  case trip =>
    refine ⟨_, thermalTrip_becomes on (quiet_iff.mpr calm), rfl, ?_, fun news => ?_⟩
    · exact Power.openFor_of_closed (p := p.tripped) closed 0
    · have told : (s.sys.setPower Power.tripped).pkg.msix = y.pkg.msix ||| 0x400 :=
        Sys.setPower_msix_of_told (news.imp (⟨rfl, ·⟩) (⟨rfl, ·⟩))
      exact (Sys.setPower_openFor_msix _ 0).trans told
  case between => exact tripClear_becomes_of_between (p.clearable_iff.mpr there) ⟨low, high⟩
  case outside =>
    have not_between : ¬ (1600 ≤ p.tj ∧ p.tj < 1680) := by omega
    exact ⟨_, tripClear_becomes_of_outside (p.clearable_iff.mpr there) not_between, rfl, p.cooled_tj_lt _, fun low => if_pos low, rfl, rfl⟩
  case nothing => exact tripClear_idles (Bool.not_eq_false _ ▸ fun there => nothing (p.clearable_iff.mp there))

end Sys2Proof.Machine
end

section
/-! PROOFS. Absent operands, NaNs and invalid products of F32 arithmetic, and the one rounding of a quotient (R60, R68, R72, R73, R150). -/

namespace Sys2Proof.Machine

/-! ## Results that are no number -/

section
variable {x y z : Val}

/-- An absent operand decides a sum before anything else does (R72). -/
theorem Val.add_absent (rm : Rm) (gone : x = .absent ∨ y = .absent) : x.add rm y = .absent := by
  rcases gone with rfl | rfl
  · rfl
  · cases x <;> rfl

theorem Val.mul_absent (gone : x = .absent ∨ y = .absent) : x.mul y = .absent := by
  rcases gone with rfl | rfl
  · rfl
  · cases x <;> rfl

theorem Val.fma_absent (rm : Rm) (gone : x = .absent ∨ y = .absent ∨ z = .absent) : Val.fma rm x y z = .absent := by
  rcases gone with rfl | rfl | rfl
  · rfl
  · cases x <;> rfl
  · cases x <;> cases y <;> rfl

/-- With no operand absent, a NaN decides a sum (R72). -/
theorem Val.add_nan (rm : Rm) (hx : x ≠ .absent) (hy : y ≠ .absent) (nan : x = .nan ∨ y = .nan) : x.add rm y = .nan := by
  rcases nan with rfl | rfl
  · cases y with
    | absent => exact absurd rfl hy
    | _ => rfl
  · cases x with
    | absent => exact absurd rfl hx
    | _ => rfl

theorem Val.mul_nan (hx : x ≠ .absent) (hy : y ≠ .absent) (nan : x = .nan ∨ y = .nan) : x.mul y = .nan := by
  rcases nan with rfl | rfl
  · cases y with
    | absent => exact absurd rfl hy
    | _ => rfl
  · cases x with
    | absent => exact absurd rfl hx
    | _ => rfl

/-- A product is absent only by an absent operand. -/
theorem Val.mul_eq_absent_iff : x.mul y = .absent ↔ x = .absent ∨ y = .absent := by
  refine ⟨fun gone => ?_, Val.mul_absent⟩
  unfold Val.mul at gone
  split at gone
  case h_1 => exact .inl rfl
  case h_2 => exact .inr rfl
  case h_7 | h_8 => split at gone <;> cases gone
  all_goals cases gone

/-- With no operand absent, an invalid product decides; else it is added (R61, R73, log 22). -/
theorem Val.fma_of_present (rm : Rm) (hx : x ≠ .absent) (hy : y ≠ .absent) (hz : z ≠ .absent) :
    Val.fma rm x y z = if x.mul y = .invalid then .invalid else (x.mul y).add rm z := by
  unfold Val.fma
  split
  case h_4 => rfl
  all_goals contradiction

theorem Val.fma_nan (rm : Rm) (hx : x ≠ .absent) (hy : y ≠ .absent) (hz : z ≠ .absent) (nan : x = .nan ∨ y = .nan ∨ z = .nan)
    (valid : x.mul y ≠ .invalid) : Val.fma rm x y z = .nan := by
  have there : x.mul y ≠ .absent := fun gone => (Val.mul_eq_absent_iff.mp gone).elim hx hy
  rw [Val.fma_of_present rm hx hy hz, if_neg valid]
  refine Val.add_nan rm there hz ?_
  rcases nan with nx | ny | nz
  · exact .inl (Val.mul_nan hx hy (.inl nx))
  · exact .inl (Val.mul_nan hx hy (.inr ny))
  · exact .inr nz

/-- An invalid product decides whatever the addend, a NaN too (log 22). -/
theorem Val.fma_invalid (rm : Rm) (hz : z ≠ .absent) (invalid : x.mul y = .invalid) : Val.fma rm x y z = .invalid := by
  have there : ¬ (x = .absent ∨ y = .absent) := fun gone => by simp [Val.mul_absent gone] at invalid
  obtain ⟨hx, hy⟩ := not_or.mp there
  rw [Val.fma_of_present rm hx hy hz, if_pos invalid]

/-- A product of an infinity and a zero is invalid (R73). -/
theorem Val.inf_mul_zero (neg sign : Bool) (den : Nat) (e : Int) : (Val.inf neg).mul (.fin sign 0 den e) = .invalid := rfl

theorem Val.zero_mul_inf (neg sign : Bool) (den : Nat) (e : Int) : (Val.fin sign 0 den e).mul (.inf neg) = .invalid := rfl

end

section
variable (rm : Rm) (honour : Bool)

/-- The codes of R60 for the results of F32 that are no number. -/
@[simp] theorem deliver_f32_absent : FloatFmt.f32.deliver rm honour .absent = (0xFFC00001, .absentConsumed) := rfl

@[simp] theorem deliver_f32_nan : FloatFmt.f32.deliver rm honour .nan = (0x7FC00000, .nonFinite) := rfl

@[simp] theorem deliver_f32_invalid : FloatFmt.f32.deliver rm honour .invalid = (0x7FC00000, .invalid ||| .nonFinite) := rfl

end

/-! ## The rounding of a quotient (R68) -/

/-- A magnitude of whole part `q` and remainder `r` over `den` goes to the neighbour above. -/
def Rm.goesUp (rm : Rm) (neg : Bool) (q r den : Nat) : Bool :=
  match rm with
  | .rne => decide (den < 2 * r) || (2 * r == den && q % 2 == 1)
  | .rtz => false
  | .rup => !neg
  | .rdn => neg
  | .rna => decide (den ≤ 2 * r)

section
variable {rm : Rm} {q r num den : Nat} (neg : Bool)

theorem roundNat_of_whole (rm : Rm) (whole : num % den = 0) : roundNat rm neg num den = (num / den, false) := if_pos whole

theorem roundNat_of_rest (rm : Rm) (rest : num % den ≠ 0) :
    roundNat rm neg num den = (if rm.goesUp neg (num / den) (num % den) den then num / den + 1 else num / den, true) :=
  (if_neg rest).trans (by cases rm <;> rfl)

/-- Below the middle, both modes of the nearest neighbour stay. -/
theorem Rm.goesUp_of_below (nearest : rm = .rne ∨ rm = .rna) (below : 2 * r < den) : rm.goesUp neg q r den = false := by
  rcases nearest with rfl | rfl
  · have not_above : ¬ den < 2 * r := by omega
    have not_middle : ¬ 2 * r = den := by omega
    simp [Rm.goesUp, not_above, not_middle]
  · exact decide_eq_false (by omega)

theorem Rm.goesUp_of_above (nearest : rm = .rne ∨ rm = .rna) (above : den < 2 * r) : rm.goesUp neg q r den = true := by
  rcases nearest with rfl | rfl
  · simp [Rm.goesUp, above]
  · exact decide_eq_true (by omega)

/-- In the middle, the even mode leaves an odd whole part. -/
theorem Rm.goesUp_rne_of_middle (middle : 2 * r = den) : Rm.rne.goesUp neg q r den = decide (q % 2 = 1) := by
  have not_above : ¬ den < 2 * r := by omega
  rw [Rm.goesUp, decide_eq_false not_above, beq_iff_eq.mpr middle, Bool.false_or, Bool.true_and]
  rfl

theorem Rm.goesUp_rna_of_middle (middle : 2 * r = den) : Rm.rna.goesUp neg q r den = true := decide_eq_true (by omega)

end

/-! ## O31 -/

/-- Settles O31: absent decides before a NaN, a NaN unless the product is invalid; a quotient that is not whole goes to the neighbour of its mode. -/
theorem absentNanAndRounding : Obligations.AbsentNanAndRounding := by
  unfold Obligations.AbsentNanAndRounding
  refine ⟨fun rm h x y z => ⟨?absent, ?absentFused, ?nan, ?nanFused, ?infTimesZero, ?invalidFused⟩, fun rm neg num den _ => ⟨?whole, ?rest⟩⟩
  case absent =>
    intro gone
    rw [Val.add_absent rm gone, Val.mul_absent gone]
    exact ⟨deliver_f32_absent rm h, deliver_f32_absent rm h⟩
  case absentFused =>
    intro gone
    rw [Val.fma_absent rm gone]
    exact deliver_f32_absent rm h
  case nan =>
    intro hx hy nan _ _
    rw [Val.add_nan rm hx hy nan, Val.mul_nan hx hy nan]
    exact ⟨deliver_f32_nan rm h, deliver_f32_nan rm h⟩
  case nanFused =>
    intro hx hy hz nan _ _ _ valid
    rw [Val.fma_nan rm hx hy hz nan valid]
    exact deliver_f32_nan rm h
  case infTimesZero =>
    rintro neg _ den e rfl
    exact ⟨Val.inf_mul_zero neg false den e, Val.zero_mul_inf neg false den e⟩
  case invalidFused =>
    intro hz invalid
    rw [Val.fma_invalid rm hz invalid]
    exact deliver_f32_invalid rm h
  case whole => exact roundNat_of_whole neg rm
  case rest =>
    intro rest
    rw [roundNat_of_rest neg rm rest]
    refine ⟨rfl, ?neighbour, ?rtz, ?rup, ?rdn, fun nearest => ⟨fun below => ?_, fun above => ?_⟩, ?rneMiddle, ?rnaMiddle⟩
    case neighbour =>
      split
      · exact .inr rfl
      · exact .inl rfl
    case rtz => rintro rfl; rfl
    case rup => rintro rfl; cases neg <;> rfl
    case rdn => rintro rfl; rfl
    case rneMiddle =>
      rintro rfl middle
      simp only [Rm.goesUp_rne_of_middle neg middle, decide_eq_true_eq]
      split <;> omega
    case rnaMiddle => rintro rfl middle; exact if_pos (Rm.goesUp_rna_of_middle neg middle)
    · exact if_neg (by simp [Rm.goesUp_of_below neg nearest below])
    · exact if_pos (Rm.goesUp_of_above neg nearest above)

end Sys2Proof.Machine
end

section
/-! PROOFS. A beat of 32-bit elements: the governed lanes, integers clamped to the present range, and F32 rounded once (R62, R161, R164, R168). -/

namespace Sys2Proof.Machine

/-! ## A lane of a beat -/

theorem laneBit_eq_getLsbD (m : BitVec 16) (l : Nat) : laneBit m l = m.getLsbD l := by
  rw [laneBit, ← BitVec.testBit_toNat, Nat.testBit_eq_decide_div_mod_eq]
  rfl

/-- A lane is written just when its governing bit is 1 (R161). -/
theorem getD_governed (k : BitVec 16) (ws : List W32) {l : Nat} (h : l < 16) :
    (governed k ws).getD l none = if k.getLsbD l then some (laneOf ws l) else none := by
  simp [governed, laneBit_eq_getLsbD, h]

theorem subElem_32 (x : W32) : subElem 32 0 x = x.toNat := by
  rw [subElem, Nat.mul_zero, Nat.pow_zero, Nat.div_one, Nat.mod_eq_of_lt x.isLt]

/-- A 32-bit element fills its word. -/
theorem perWord_32 (f : Nat → Nat → Nat → Nat × Flags) (a b d : W32) :
    (perWord 32 f a b d).1 = BitVec.ofNat 32 (f a.toNat b.toNat d.toNat).1 := by
  have one : List.range (32 / 32) = [0] := rfl
  rw [perWord, one, List.foldl_cons, List.foldl_nil]
  simp only [subElem_32, Nat.mul_zero, Nat.pow_zero, Nat.mul_one]
  exact BitVec.eq_of_toNat_eq (by simp)

/-- What lane `l` of vd gets from a word whose beat 0 reads `r`. -/
def VWord.lane (v : VWord) (rm : Rm) (honour : Bool) (r : BeatRead) (l : Nat) : Option W32 :=
  ((v.beat rm honour [r]).words.headD (0, [])).2.getD l none

/-- An elementwise word of 32-bit elements writes its function of the lane's elements, where the lane is governed. -/
theorem VWord.lane_of_elem {v : VWord} {f : Rm → Bool → Nat → Nat → Nat → Nat × Flags} (elem : v.sem = .elem 32 f) (rm : Rm) (honour : Bool)
    {r : BeatRead} {l : Nat} (h : l < 16) :
    v.lane rm honour r l =
      if r.k.getLsbD l then some (BitVec.ofNat 32 (f rm honour (laneOf r.a l).toNat (laneOf r.b l).toNat (laneOf r.d l).toNat).1) else none := by
  have beat : v.beat rm honour [r] = beatElem 32 (f rm honour) 0 r := by simp [VWord.beat, elem]
  rw [VWord.lane, beat, beatElem, List.headD_cons, getD_governed _ _ h, laneOf, List.map_map]
  simp [h, perWord_32]

/-! ## Integers -/

/-- The present value nearest to `x` (R62). -/
def IntFmt.nearest (f : IntFmt) (x : Int) : Int := if x < f.lo then f.lo else if f.hi < x then f.hi else x

theorem IntFmt.ofNat_code (f : IntFmt) (x : Int) : BitVec.ofNat f.width (f.code x) = BitVec.ofInt f.width x := by
  have code : f.code x = (BitVec.ofInt f.width x).toNat := by rw [BitVec.toNat_ofInt, Int.natCast_pow]; rfl
  rw [code, BitVec.ofNat_toNat, BitVec.setWidth_eq]

theorem IntFmt.ofNat_clamp (f : IntFmt) (x : Int) : BitVec.ofNat f.width (f.clamp x).1 = BitVec.ofInt f.width (f.nearest x) := by
  unfold IntFmt.clamp IntFmt.nearest
  split
  · exact f.ofNat_code _
  · split <;> exact f.ofNat_code _

/-- Absent in gives absent out, and any other result is exact and then clamped (R62, R168). -/
theorem IntFmt.ofNat_arith (f : IntFmt) (o : IntOp) (x y : BitVec f.width) :
    BitVec.ofNat f.width (f.arith o x.toNat y.toNat).1 =
      if x.toNat = f.absent ∨ y.toNat = f.absent then BitVec.ofNat f.width f.absent
      else BitVec.ofInt f.width (f.nearest (o.apply (f.value x.toNat) (f.value y.toNat))) := by
  rw [IntFmt.arith, Nat.mod_eq_of_lt x.isLt, Nat.mod_eq_of_lt y.isLt]
  split
  · rfl
  · exact f.ofNat_clamp _

theorem IntOp.apply_max (x y : Int) : IntOp.apply .max x y = Max.max x y := by
  rw [IntOp.apply]
  split <;> omega

theorem IntOp.apply_min (x y : Int) : IntOp.apply .min x y = Min.min x y := by
  rw [IntOp.apply]
  split <;> omega

theorem value_signed {w : Nat} (x : BitVec w) : IntFmt.value ⟨true, w⟩ x.toNat = x.toInt := by
  rw [BitVec.toInt_eq_msb_cond, BitVec.msb_eq_decide, IntFmt.value, Nat.mod_eq_of_lt x.isLt, Int.natCast_pow]
  rfl

theorem value_unsigned {w : Nat} (x : BitVec w) : IntFmt.value ⟨false, w⟩ x.toNat = x.toNat := by
  rw [IntFmt.value, Nat.mod_eq_of_lt x.isLt]
  rfl

/-! ## Words of 32-bit elements -/

section
variable (k : BitVec 3) (d a b : BitVec 6) (p q : BitVec 1) (o : IntOp) (rm : Rm) (honour : Bool) {r : BeatRead} {l : Nat}

/-- A written lane of 32-bit integers: absent in gives absent out, else the exact result clamped (R62, R168). -/
theorem lane_int (signed : Bool) (h : l < 16) (on : r.k.getLsbD l = true) :
    let f : IntFmt := ⟨signed, 32⟩
    let x := (laneOf r.a l).toNat
    let y := (laneOf r.b l).toNat
    (vInt k d a b p q signed 2 o).lane rm honour r l =
      some (if x = f.absent ∨ y = f.absent then BitVec.ofNat 32 f.absent else BitVec.ofInt 32 (f.nearest (o.apply (f.value x) (f.value y)))) := by
  have sem : (vInt k d a b p q signed 2 o).sem = .elem 32 fun _ _ x y _ => IntFmt.arith ⟨signed, 32⟩ o x y := rfl
  rw [VWord.lane_of_elem sem rm honour h, if_pos on, IntFmt.ofNat_arith ⟨signed, 32⟩]

theorem lane_s32 (h : l < 16) (on : r.k.getLsbD l = true) :
    (vInt k d a b p q true 2 o).lane rm honour r l =
      some (if laneOf r.a l = 0x80000000 ∨ laneOf r.b l = 0x80000000 then 0x80000000
        else BitVec.ofInt 32 (IntFmt.nearest ⟨true, 32⟩ (o.apply (laneOf r.a l).toInt (laneOf r.b l).toInt))) := by
  have absent (v : W32) : v.toNat = IntFmt.absent ⟨true, 32⟩ ↔ v = 0x80000000 := BitVec.toNat_inj (y := 0x80000000)
  rw [lane_int k d a b p q o rm honour true h on, value_signed, value_signed]
  exact congrArg some (ite_congr (propext (or_congr (absent _) (absent _))) (fun _ => rfl) fun _ => rfl)

theorem lane_n32 (h : l < 16) (on : r.k.getLsbD l = true) :
    (vInt k d a b p q false 2 o).lane rm honour r l =
      some (if laneOf r.a l = 0xFFFFFFFF ∨ laneOf r.b l = 0xFFFFFFFF then 0xFFFFFFFF
        else BitVec.ofInt 32 (IntFmt.nearest ⟨false, 32⟩ (o.apply (laneOf r.a l).toNat (laneOf r.b l).toNat))) := by
  have absent (v : W32) : v.toNat = IntFmt.absent ⟨false, 32⟩ ↔ v = 0xFFFFFFFF := BitVec.toNat_inj (y := 0xFFFFFFFF)
  rw [lane_int k d a b p q o rm honour false h on, value_unsigned, value_unsigned]
  exact congrArg some (ite_congr (propext (or_congr (absent _) (absent _))) (fun _ => rfl) fun _ => rfl)

/-- A written lane of F32: the exact result rounded once (R164). -/
theorem lane_f32 (cls : LandClass) (readsD : Bool) (g : Rm → Val → Val → Val → Val) (h : l < 16) (on : r.k.getLsbD l = true) :
    let val (v : W32) : Val := FloatFmt.f32.decode honour v.toNat
    (vFloat k d a b p q 0 cls readsD g).lane rm honour r l =
      some (BitVec.ofNat 32 (FloatFmt.f32.deliver rm honour (g rm (val (laneOf r.a l)) (val (laneOf r.b l)) (val (laneOf r.d l)))).1) := by
  have sem : (vFloat k d a b p q 0 cls readsD g).sem = .elem 32 fun rm h x y z =>
      FloatFmt.f32.deliver rm h (g rm (FloatFmt.f32.decode h x) (FloatFmt.f32.decode h y) (FloatFmt.f32.decode h z)) := rfl
  rw [VWord.lane_of_elem sem rm honour h, if_pos on]

end

/-! ## O39 -/

/-- Settles O39: a governed lane gets the word's function of its elements, on integers the clamped exact result and on F32 the rounded one. -/
theorem arithmeticBeats : Obligations.ArithmeticBeats := by
  unfold Obligations.ArithmeticBeats
  intro k d a b p q rm h r l inside all x y z out clamp s32 n32 f32 val
  have on : r.k.getLsbD l = true := by rw [all, BitVec.getLsbD_allOnes, decide_eq_true inside]
  have signed (o : IntOp) : (vInt k d a b p q true 2 o).lane rm h r l = s32 (o.apply x.toInt y.toInt) := lane_s32 k d a b p q o rm h inside on
  have unsigned (o : IntOp) : (vInt k d a b p q false 2 o).lane rm h r l = n32 (o.apply x.toNat y.toNat) := lane_n32 k d a b p q o rm h inside on
  have float (cls : LandClass) (readsD : Bool) (g : Rm → Val → Val → Val → Val) :
      (vFloat k d a b p q 0 cls readsD g).lane rm h r l = f32 (g rm (val x) (val y) (val z)) := lane_f32 k d a b p q rm h cls readsD g inside on
  refine ⟨⟨signed .add, signed .sub, signed .mul, ?_, ?_⟩, ⟨unsigned .add, unsigned .sub, unsigned .mul, ?_, ?_⟩,
    float .o false _, float .o false _, float .o true _⟩
  · rw [← IntOp.apply_max]; exact signed .max
  · rw [← IntOp.apply_min]; exact signed .min
  · rw [← IntOp.apply_max]; exact unsigned .max
  · rw [← IntOp.apply_min]; exact unsigned .min

end Sys2Proof.Machine
end

section
/-! PROOFS. The dispatch of an engine's command: when it neither holds nor breaks a limit, and all that it changes (R108, R109, R187, R188). -/

namespace Sys2Proof.Machine

/-! ## A context of a core -/

theorem vset_vget_self {α : Type} [Inhabited α] {n : Nat} (v : Vector α n) (i : Nat) : vset v i (vget v i) = v := by
  refine Vector.ext fun j inside => ?_
  rw [vset, Vector.getElem_setIfInBounds inside]
  split
  · next same => subst same; simp [vget, inside]
  · rfl

theorem vset_vset {α : Type} {n : Nat} (v : Vector α n) (i : Nat) (a b : α) : vset (vset v i a) i b = vset v i b :=
  Vector.setIfInBounds_setIfInBounds ..

theorem Core.setCtx_ctx_self (c : Core) (x : Nat) : c.setCtx x (c.ctx x) = c := by
  rw [Core.setCtx, Core.ctx, vset_vget_self]

theorem Core.setCtx_setCtx (c : Core) (x : Nat) (k l : Ctx) : (c.setCtx x k).setCtx x l = c.setCtx x l := by
  rw [Core.setCtx, Core.setCtx_ctxs, vset_vset]; rfl

theorem Core.ctx_setCtx_same (c : Core) {x : Nat} (k : Ctx) (h : x < 4) : (c.setCtx x k).ctx x = k := vget_vset_same c.ctxs x k h

theorem Core.ctx_setCtx_other (c : Core) {x y : Nat} (k : Ctx) (ne : x ≠ y) : (c.setCtx x k).ctx y = c.ctx y := vget_vset_other c.ctxs x y k ne

/-! ## Changes of the own context -/

/-- From `y` to `z` the slot has changed its own context alone, which is now `k`: the slot itself, the rest of its core, the other cores, the agenda and the package stay. -/
structure Sys.OwnContext (y z : Sys) (k : Ctx) : Prop where
  cur : z.cur = y.cur
  pkg : z.pkg = y.pkg
  agenda : z.agenda = y.agenda
  core : z.hereCore = y.hereCore.setCtx y.cur.ctx k
  others : ∀ g, g ≠ y.cur.core → z.core g = y.core g

theorem Sys.OwnContext.refl (y : Sys) : y.OwnContext y y.here :=
  ⟨rfl, rfl, rfl, (y.hereCore.setCtx_ctx_self y.cur.ctx).symm, fun _ _ => rfl⟩

theorem Sys.advance_eq (z : Sys) (p : Nat) : z.advance p 1 = z.modHere fun l => { l with regs := advanced z.here [p] l.regs } := rfl

section
variable {y z : Sys} {k : Ctx} (own : y.OwnContext z k) (inside : y.cur.ctx < 4)
include own inside

theorem Sys.OwnContext.here : z.here = k := by
  have same : z.here = z.hereCore.ctx z.cur.ctx := rfl
  rw [same, own.core, own.cur, Core.ctx_setCtx_same _ _ inside]

theorem Sys.OwnContext.modHere (f : Ctx → Ctx) : y.OwnContext (z.modHere f) (f k) where
  cur := own.cur
  pkg := own.pkg
  agenda := own.agenda
  core := by
    have set : (z.modHere f).hereCore = z.hereCore.setCtx z.cur.ctx (f z.here) := Sys.core_setCore_same ..
    rw [set, own.here inside, own.core, own.cur, Core.setCtx_setCtx]
  others g ne := by
    have other : (z.modHere f).core g = z.core g := Sys.core_setCore_other _ _ _ _ (own.cur ▸ ne.symm)
    rw [other, own.others g ne]

/-- Pointers that advance in turn (R44). -/
theorem Sys.OwnContext.advances (codes : List Nat) :
    y.OwnContext (codes.foldl (fun s p => s.advance p 1) z) { k with regs := advanced k codes k.regs } := by
  induction codes generalizing z k with
  | nil => exact own
  | cons p rest ih =>
    have moved : y.OwnContext (z.advance p 1) { k with regs := advanced k [p] k.regs } := by
      rw [Sys.advance_eq, own.here inside]
      exact own.modHere inside _
    exact ih moved

end

/-! ## Open restart regions -/

/-- What a dispatch does to its context in an open restart region: shadows for the tiles it writes, and the entries of the gated buffer that it takes (R327, R328). -/
def Dispatch.inRegion (d : Dispatch) (k : Ctx) : Ctx :=
  (if k.region.open_ then d.writes.foldl (fun k t => k.shadowTile t) k else k).take d.gate

theorem Ctx.shadow_eq (k : Ctx) (lg reg : Nat) : ∃ r, k.shadow lg reg = { k with region := r } := by
  unfold Ctx.shadow
  split
  · exact ⟨_, rfl⟩
  · exact ⟨k.region, rfl⟩

theorem foldl_region {α : Type} {f : Ctx → α → Ctx} (h : ∀ k a, ∃ r, f k a = { k with region := r }) (l : List α) (k : Ctx) :
    ∃ r, l.foldl f k = { k with region := r } := by
  induction l generalizing k with
  | nil => exact ⟨k.region, rfl⟩
  | cons a rest ih =>
    obtain ⟨r, first⟩ := h k a
    obtain ⟨q, others⟩ := ih { k with region := r }
    exact ⟨q, by rw [List.foldl_cons, first, others]⟩

theorem Ctx.take_eq (k : Ctx) (n : Nat) : ∃ r, k.take n = { k with region := r } := by
  unfold Ctx.take
  split
  · exact ⟨_, rfl⟩
  · exact ⟨k.region, rfl⟩

theorem Dispatch.inRegion_eq (d : Dispatch) (k : Ctx) : ∃ r, d.inRegion k = { k with region := r } := by
  unfold Dispatch.inRegion
  split
  · obtain ⟨r, shadowed⟩ := foldl_region (f := fun k t => k.shadowTile t) (fun k t => foldl_region (fun k i => k.shadow_eq _ _) _ k) d.writes k
    obtain ⟨q, taken⟩ := Ctx.take_eq { k with region := r } d.gate
    exact ⟨q, by rw [shadowed, taken]⟩
  · exact k.take_eq d.gate

/-- The dispatching context afterwards: its pointers have advanced, and its open region has counted and shadowed (R44). -/
def Dispatch.context (d : Dispatch) (k : Ctx) : Ctx := d.inRegion { k with regs := advanced k d.advances k.regs }

section
variable (d : Dispatch) (k : Ctx)

theorem Dispatch.context_regs : (d.context k).regs = advanced k d.advances k.regs := by
  obtain ⟨r, region⟩ := d.inRegion_eq { k with regs := advanced k d.advances k.regs }
  rw [Dispatch.context, region]

theorem Dispatch.context_frame : { d.context k with regs := k.regs, region := k.region } = k := by
  obtain ⟨r, region⟩ := d.inRegion_eq { k with regs := advanced k d.advances k.regs }
  rw [Dispatch.context, region]

theorem Dispatch.context_region (closed : k.region.open_ = false) : (d.context k).region = k.region := by
  simp [Dispatch.context, Dispatch.inRegion, Ctx.take, closed]

end

/-! ## What a dispatch changes -/

/-- The command that a dispatch adds to its core's (R108, R109, R187). -/
def Dispatch.command (d : Dispatch) (y : Sys) : Cmd :=
  let k := y.here
  { id := y.cur.ord, ctx := y.cur.ctx, eng := d.eng, instr := d.instr, word := y.cur.word, stg := d.stg, rm := k.regs.rm, honour := k.interlocked,
    ptrs := d.ptrs, grp := y.cur.grp, slot := d.eng.slot, dispatched := y.t, start := y.t + d.delay, reads := d.reads, writes := d.writes,
    gated := k.region.open_ && d.gate != 0 }

/-- Beyond its own context a dispatch changes of its core the commands and when the engines are free. -/
theorem Dispatch.accept_eq (d : Dispatch) (y : Sys) : ∃ free : Core → Vector Nat 6, d.accept y =
    ((d.advances.foldl (fun s p => s.advance p 1) y).modHere d.inRegion).modHereCore fun q => { q with cmds := q.cmds ++ [d.command y], free := free q } :=
  ⟨_, rfl⟩

/-- After a dispatch: its own core, with the command, and every context but its own as before. -/
theorem Dispatch.accept_cores (d : Dispatch) {y : Sys} (inside : y.cur.ctx < 4) :
    let z := d.accept y
    z.cur = y.cur ∧ z.pkg = y.pkg ∧ z.agenda = y.agenda ∧
    (∃ free, z.hereCore = { y.hereCore.setCtx y.cur.ctx (d.context y.here) with cmds := y.hereCore.cmds ++ [d.command y], free := free }) ∧
    ∀ g x, g ≠ y.cur.core ∨ x ≠ y.cur.ctx → z.ctx g x = y.ctx g x := by
  obtain ⟨free, accepted⟩ := d.accept_eq y
  rw [accepted]
  have own : y.OwnContext _ (d.context y.here) := ((Sys.OwnContext.refl y).advances inside d.advances).modHere inside d.inRegion
  generalize (d.advances.foldl (fun s p => s.advance p 1) y).modHere d.inRegion = z at own ⊢
  have core : (z.modHereCore fun q => { q with cmds := q.cmds ++ [d.command y], free := free q }).core z.cur.core =
      { z.hereCore with cmds := z.hereCore.cmds ++ [d.command y], free := free z.hereCore } := Sys.core_setCore_same ..
  refine ⟨own.cur, own.pkg, own.agenda, ⟨_, core.trans (by rw [own.core, Core.setCtx_cmds])⟩, fun g x ne => ?_⟩
  rw [Sys.ctx, Sys.ctx]
  by_cases here : g = y.cur.core
  · have elsewhere : y.cur.ctx ≠ x := (ne.resolve_left fun n => n here).symm
    rw [here, ← own.cur, core, own.core, own.cur]
    exact Core.ctx_setCtx_other _ _ elsewhere
  · have other : (z.modHereCore fun q => { q with cmds := q.cmds ++ [d.command y], free := free q }).core g = z.core g :=
      Sys.core_setCore_other _ _ _ _ (own.cur ▸ Ne.symm here)
    rw [other, own.others g here]

theorem Dispatch.accept_dispatched (d : Dispatch) {s : State} (inside : s.sys.cur.ctx < 4) (unstarted : d.eng ≠ .load)
    (staged : d.stg = s.sys.here.staged d.eng) :
    Dispatched d.instr s { s with sys := (d.accept s.sys).ran } d.eng d.delay d.ptrs d.reads d.writes (advanced s.sys.here d.advances) [] := by
  obtain ⟨cur, pkg, agenda, ⟨free, core⟩, others⟩ := d.accept_cores inside
  have here : (d.accept s.sys).ran.here = d.context s.sys.here := by
    have same : (d.accept s.sys).ran.here = (d.accept s.sys).hereCore.ctx (d.accept s.sys).cur.ctx := rfl
    rw [same, core, cur]
    exact Core.ctx_setCtx_same _ _ inside
  have ranCore : (d.accept s.sys).ran.hereCore = (d.accept s.sys).hereCore := rfl
  refine ⟨rfl, rfl, pkg, agenda.trans (List.append_nil _).symm, ⟨d.command s.sys, s.sys.hereCore.cmds, ?cmds, rfl, rfl, rfl, rfl, rfl, rfl, rfl,
    ?started, staged, rfl, rfl, rfl, rfl, rfl, rfl⟩, ?regs, ?frame, fun closed => ?region, ?lane, ?aow, others⟩
  case cmds => rw [ranCore, core]
  case started => exact (beq_eq_false_iff_ne.mpr unstarted).symm
  case regs => rw [here, d.context_regs]
  case frame => rw [here, d.context_frame]
  case region => rw [here, d.context_region _ closed]
  case lane => rw [ranCore, core]; rfl
  case aow => rw [ranCore, core]; rfl

/-- What the slot makes due besides. -/
theorem Dispatched.makes {i : Instr} {s : State} {y : Sys} {e : Engine} {delay : Nat} {ptrs reads writes : List Nat} {f : Regs → Regs}
    (h : Dispatched i s { s with sys := y.ran } e delay ptrs reads writes f []) (g x due phase ord : Nat) (a : Act) :
    Dispatched i s { s with sys := (y.post g x due phase ord a).ran } e delay ptrs reads writes f [⟨g, x, due, phase, ord, a⟩] := by
  obtain ⟨verdict, mem, pkg, agenda, rest⟩ := h
  have same : y.agenda = s.sys.agenda := agenda.trans (List.append_nil _)
  exact ⟨verdict, mem, pkg, congrArg (· ++ _) same, rest⟩

/-! ## Limits -/

theorem Sys.range_eq_nil {y : Sys} {ok : Bool} {far : Word} (met : ok = true) : y.range ok far = [] := by rw [met, Sys.range_met]

theorem Sys.range_eq_fault {y : Sys} {ok : Bool} {far : Word} (broken : ok = false) : y.range ok far = [y.faultHere 3 1 far] := by
  rw [broken, Sys.range_broken]

/-! ## When a dispatch neither holds nor breaks a limit -/

theorem Room.queueFull {s : State} {e : Engine} (room : Room s e) : s.sys.hereCore.queueFull s.sys.cur.ctx e = false := by
  cases e with
  | load => rfl
  | _ => simpa [Core.queueFull, Room] using room

section
variable {d : Dispatch} {s : State} (room : Room s d.eng)
include room

/-- A command whose queue has room waits for nothing but its own hold (R187). -/
theorem Dispatch.waits_of_room : d.waits s.sys = d.hold := by
  have alone : orHold d.hold none = d.hold := by cases d.hold <;> rfl
  simp only [Dispatch.waits, room.queueFull, Bool.false_and, Bool.false_eq_true, if_false]
  split <;> exact alone

/-- With room, and the engine free at its start if it occupies it, a command breaks no limit but its own (R187). -/
theorem Dispatch.breaches_of_room (free : d.occ.isSome → FreeAt s d.eng d.delay) : d.breaches s.sys = d.faults := by
  have full := room.queueFull
  unfold Dispatch.breaches
  cases timed : s.sys.here.timed with
  | false => simp
  | true =>
    cases occupies : d.occ with
    | none => cases eng : d.eng <;> rw [eng] at full <;> simp [full]
    | some n =>
      have soon : vget s.sys.hereCore.free d.eng.index ≤ s.sys.t + d.delay := free (by rw [occupies]; rfl) timed
      have on_time : decide (s.sys.t + d.delay < vget s.sys.hereCore.free d.eng.index) = false := decide_eq_false (Nat.not_lt.mpr soon)
      cases eng : d.eng <;> rw [eng] at full on_time <;> simp [full, on_time]

section
variable {i : Instr} {e : Sys → Sys} (row : exec i s = s.issue (d.waits s.sys) (d.breaches s.sys) e) (unheld : d.hold = none)
  (free : d.occ.isSome → FreeAt s d.eng d.delay)
include row unheld free

/-- An engine's command that has room and breaks no limit has its effect (R108, R187). -/
theorem Dispatch.runs (met : d.faults = []) : exec i s = .next { s with sys := (e s.sys).ran } := by
  rw [row, Dispatch.waits_of_room room, Dispatch.breaches_of_room room free, unheld, met, State.issue_runs]

/-- One that has room and breaks a limit is a fault for it (R119, R187, R302). -/
theorem Dispatch.breaks {cls code : Nat} {far : Word} (broken : d.faults = [s.sys.faultHere cls code far]) : BreaksLimit i s cls code far := by
  refine ⟨s.sys.faultHere cls code far, rfl, rfl, rfl, rfl, rfl, ?_⟩
  rw [row, Dispatch.waits_of_room room, Dispatch.breaches_of_room room free, unheld, broken]
  simp [State.issue, slotFault, firstFault, Sys.faulted, Sys.faultHere]

end

theorem Dispatch.completes {i : Instr} (row : exec i s = s.dispatch d) (names : d.instr = i) (unheld : d.hold = none)
    (free : d.occ.isSome → FreeAt s d.eng d.delay) (met : d.faults = []) (inside : s.sys.cur.ctx < 4) (unstarted : d.eng ≠ .load)
    (staged : d.stg = s.sys.here.staged d.eng) :
    ∃ u, exec i s = .next u ∧ Dispatched i s u d.eng d.delay d.ptrs d.reads d.writes (advanced s.sys.here d.advances) [] := by
  subst names
  exact ⟨_, Dispatch.runs room row unheld free met, d.accept_dispatched inside unstarted staged⟩

end

end Sys2Proof.Machine
end

section
/-! PROOFS. The dispatch of the orrery's ten forms (R81, R84, R86, R201 to R205). -/

namespace Sys2Proof.Machine

/-! ## Limits of the orrery's staging registers -/

theorem restZero_staged_iff (k : Ctx) : restZero (k.staged .orr) = true ↔ ∀ j, 2 ≤ j → j < 8 → vget k.regs.staging j = 0 := by
  have rest : (k.staged .orr).drop 2 = (List.range' 2 6).map fun j => vget k.regs.staging (0 + j) := rfl
  simp only [restZero, rest, List.all_map, List.all_eq_true, List.mem_range'_1, Function.comp_apply, beq_iff_eq, Nat.zero_add, and_imp]

theorem Ctx.passOk_iff (k : Ctx) (kind : Nat) (os : List Word) :
    let o := os.getD 0 0
    k.passOk kind os = true ↔
      restZero os = true ∧ fld o 32 5 ≤ 4 ∧ fld o 37 5 ≤ 4 ∧ osSrc o < k.win.vwin / 4 ∧ osDst o < k.win.vwin / 4 ∧
      1 ≤ osRows o ∧ osRows o ≤ tileRows (Nat.max (osIn o).width (osOut o).width) ∧ (osRounds o = 1 ∨ fld o 37 5 = 0) ∧
      (2 ≤ kind → osRounds o = 1 ∧ osRenorm o = false ∧ osScale o = false ∧ osCol (os.getD 1 0) ≤ 120) ∧
      (kind < 2 → ∀ i, i < osRounds o → osBank o i < k.win.lbanks) := by
  by_cases sweeps : 2 ≤ kind
  · simp [Ctx.passOk, sweeps, and_assoc, Nat.not_lt.mpr sweeps]
  · simp [Ctx.passOk, sweeps, and_assoc, Nat.lt_of_not_le sweeps]

theorem sweepPointerOk_iff (g a : Nat) : sweepPointerOk g a = true ↔ a % 64 = 0 ∧ a / 2 ^ 21 % 128 = g % 128 ∧ a % 2 ^ 21 + 20480 ≤ 2 ^ 21 := by
  simp [sweepPointerOk, ownScratch, corePart, localOff, and_assoc]

/-! ## What each form does -/

/-- What OREST dispatches (R203). -/
def orestDispatch (y : Sys) (n : BitVec 1) (p : BitVec 4) (t : BitVec 16) : Dispatch :=
  let a := (y.here.pointer p.toNat).addr.toNat
  { eng := .orr, instr := .orest n p t, delay := t.toNat, stg := y.here.staged .orr, ptrs := [a],
    faults := y.range (restZero (y.here.staged .orr) && sweepPointerOk y.cur.core a && decide (324 ≤ t.toNat) && !y.hereCore.slotBusy y.cur.ctx n.toNat)
      (sweepFar y.cur.core a) }

theorem exec_orest (s : State) (n : BitVec 1) (p : BitVec 4) (t : BitVec 16) :
    exec (.orest n p t) s = s.issue ((orestDispatch s.sys n p t).waits s.sys) ((orestDispatch s.sys n p t).breaches s.sys) fun y =>
      ((orestDispatch s.sys n p t).accept y).post y.cur.core y.cur.ctx (y.t + 2) 1 y.cur.ord (.unitRead y.cur.ord 0) := rfl

section
variable {s : State} (room : Room s .orr)
include room

section
variable {i : Instr} {kind delay : Nat} (row : exec i s = s.orreryPass i kind delay) (free : FreeAt s .orr delay)
  (vacant : s.sys.here.timed = true → s.sys.hereCore.slotBusy s.sys.cur.ctx (fld (vget s.sys.here.regs.staging 0) 42 1) = false)
include row free vacant

omit room row free in
/-- In timed mode a pass needs a slot without one; in shared mode it waits at its start (R86). -/
theorem slotLimit_met :
    s.sys.limit (!(s.sys.here.timed && s.sys.hereCore.slotBusy s.sys.cur.ctx (fld (vget s.sys.here.regs.staging 0) 42 1))) 5 2 = [] := by
  cases timed : s.sys.here.timed with
  | false => rfl
  | true => rw [vacant timed]; rfl

theorem orreryPass_completes (inside : s.sys.cur.ctx < 4) (within : s.sys.here.passOk kind (s.sys.here.staged .orr) = true) :
    ∃ u, exec i s = .next u ∧
      Dispatched i s u .orr delay [(s.sys.here.pointer (20 + fld (vget s.sys.here.regs.staging 1) 0 2)).addr.toNat]
        [fld (vget s.sys.here.regs.staging 0) 4 4] [fld (vget s.sys.here.regs.staging 0) 8 4] id [] :=
  Dispatch.completes room row rfl rfl (fun _ => free)
    (List.append_eq_nil_iff.mpr ⟨by rw [within, Sys.range_met], slotLimit_met vacant⟩) inside nofun rfl

theorem orreryPass_breaks (beyond : s.sys.here.passOk kind (s.sys.here.staged .orr) = false) : BreaksLimit i s 3 1 0 := by
  refine Dispatch.breaks room row rfl (fun _ => free) ?_
  rw [beyond, Sys.range_broken]
  exact congrArg ([s.sys.faultHere 3 1 0] ++ ·) (slotLimit_met vacant)

end

section
variable (inside : s.sys.cur.ctx < 4) (clear : restZero (s.sys.here.staged .orr) = true)
include inside clear

theorem ofree_completes {t : BitVec 16} (free : FreeAt s .orr t.toNat) (format : fld (vget s.sys.here.regs.staging 0) 37 5 ≤ 4)
    (tile : fld (vget s.sys.here.regs.staging 0) 8 4 < s.sys.here.win.vwin / 4) :
    ∃ u, exec (.ofree t) s = .next u ∧ Dispatched (.ofree t) s u .orr t.toNat [] [] [fld (vget s.sys.here.regs.staging 0) 8 4] id [] := by
  have row : exec (.ofree t) s = execOfree t s := rfl
  have met : (restZero (s.sys.here.staged .orr) && decide (fld (vget s.sys.here.regs.staging 0) 37 5 ≤ 4) &&
      decide (fld (vget s.sys.here.regs.staging 0) 8 4 < s.sys.here.win.vwin / 4)) = true := by simp [clear, format, tile]
  exact Dispatch.completes room row rfl rfl (fun _ => free) (Sys.range_eq_nil met) inside nofun rfl

theorem olatch_completes {a b : BitVec 2} {v : BitVec 1} {t : BitVec 16} (bank : a.toNat < s.sys.here.win.lbanks)
    (aligned : (s.sys.here.pointer (16 + b.toNat)).addr.toNat % 64 = 0) (fits : (s.sys.here.pointer (16 + b.toNat)).addr.toNat + 2048 ≤ 2 ^ 18)
    (usable : v = 1 → (s.sys.here.pointer (16 + b.toNat)).usable (16 + b.toNat) = true) :
    ∃ u, exec (.olatch a v b t) s = .next u ∧
      Dispatched (.olatch a v b t) s u .orr t.toNat [(s.sys.here.pointer (16 + b.toNat)).addr.toNat] [] []
        (advanced s.sys.here (if v = 1 then [16 + b.toNat] else [])) [] := by
  have row : exec (.olatch a v b t) s = execOlatch a v b t s := rfl
  refine Dispatch.completes room row rfl rfl nofun (Sys.range_eq_nil ?_) inside nofun rfl
  have movable : (v == 0 || s.sys.here.advanceOk (16 + b.toNat)) = true := by
    rcases BitVec.eq_zero_or_eq_one v with zero | one
    · simp [zero]
    · simp [one, Ctx.advanceOk, usable one]
  rw [clear, decide_eq_true bank, decide_eq_true fits, beq_iff_eq.mpr aligned, movable]
  rfl

theorem osave_completes {n : BitVec 1} {p : BitVec 4} {t : BitVec 16}
    (place : sweepPointerOk s.sys.cur.core (s.sys.here.pointer p.toNat).addr.toNat = true) :
    ∃ u, exec (.osave n p t) s = .next u ∧ Dispatched (.osave n p t) s u .orr t.toNat [(s.sys.here.pointer p.toNat).addr.toNat] [] [] id [] := by
  have row : exec (.osave n p t) s = execOsave n p t s := rfl
  exact Dispatch.completes room row rfl rfl nofun (Sys.range_eq_nil (by rw [clear, place]; rfl)) inside nofun rfl

theorem orest_completes {n : BitVec 1} {p : BitVec 4} {t : BitVec 16}
    (place : sweepPointerOk s.sys.cur.core (s.sys.here.pointer p.toNat).addr.toNat = true) (late : 324 ≤ t.toNat)
    (vacant : s.sys.hereCore.slotBusy s.sys.cur.ctx n.toNat = false) :
    ∃ u, exec (.orest n p t) s = .next u ∧ Dispatched (.orest n p t) s u .orr t.toNat [(s.sys.here.pointer p.toNat).addr.toNat] [] [] id
      [Due s 2 1 (.unitRead s.sys.cur.ord 0)] := by
  have met : (orestDispatch s.sys n p t).faults = [] := Sys.range_eq_nil (by simp [clear, place, late, vacant])
  exact ⟨_, Dispatch.runs room (exec_orest s n p t) rfl nofun met, ((orestDispatch s.sys n p t).accept_dispatched inside nofun rfl).makes _ _ _ _ _ _⟩

theorem odrift_completes (b : BitVec 2) (m : BitVec 4) (t : BitVec 16) :
    ∃ u, exec (.odrift b m t) s = .next u ∧ Dispatched (.odrift b m t) s u .orr t.toNat [] [] [] id [] := by
  have row : exec (.odrift b m t) s = execOdrift b m t s := rfl
  exact Dispatch.completes room row rfl rfl nofun (Sys.range_eq_nil clear) inside nofun rfl

theorem oscfg_completes (b : BitVec 2) (m : BitVec 4) (t : BitVec 16) :
    ∃ u, exec (.oscfg b m t) s = .next u ∧ Dispatched (.oscfg b m t) s u .orr t.toNat [] [] [] id [] := by
  have row : exec (.oscfg b m t) s = execOscfg b m t s := rfl
  exact Dispatch.completes room row rfl rfl nofun (Sys.range_eq_nil clear) inside nofun rfl

end

/-- OREST with too short a delay: FAR is the pointer's address if that breaks a limit too, else 0 (R203, R322). -/
theorem orest_breaks {n : BitVec 1} {p : BitVec 4} {t : BitVec 16} (early : t.toNat < 324) :
    BreaksLimit (.orest n p t) s 3 1 (sweepFar s.sys.cur.core (s.sys.here.pointer p.toNat).addr.toNat) := by
  have broken : (orestDispatch s.sys n p t).faults = _ := Sys.range_eq_fault (by simp [Nat.not_le.mpr early])
  exact Dispatch.breaks room (exec_orest s n p t) rfl nofun broken

end

/-! ## O42 -/

/-- Settles O42: each form within its limits is a dispatch that completes; a pass without rows and an OREST too soon are faults. -/
theorem orreryDispatch : Obligations.OrreryDispatch := by
  unfold Obligations.OrreryDispatch
  intro s c v n e t b a p m y k os o tiles fmt widest rows rounds clear slot free common turnsOk sweepsOk scales pass code at_ pad padOk inside room
  have clear_iff : restZero (k.staged .orr) = true ↔ clear := restZero_staged_iff k
  have pad_iff : sweepPointerOk y.cur.core pad = true ↔ padOk := sweepPointerOk_iff _ _
  refine ⟨fun early limits => ?turns, fun early limits => ?sweeps, fun early none_named vacant => ?rowless, fun early zeros format tile => ?free,
    fun zeros bank aligned fits usable => ?latch, fun zeros place => ?save, fun zeros place late vacant => ?rest,
    fun late => ⟨fun place => ?own, fun misplaced => ?elsewhere⟩, fun zeros => ?drift⟩
  case turns =>
    obtain ⟨⟨zeros, srcFormat, dstFormat, src, dst, some_rows, fit, vacant⟩, one_round, banks⟩ := limits
    have within (kind : Nat) (turning : kind < 2) : k.passOk kind (k.staged .orr) = true :=
      (k.passOk_iff kind _).mpr ⟨clear_iff.mpr zeros, srcFormat, dstFormat, src, dst, some_rows, fit, one_round, fun sweeping => by omega, fun _ => banks⟩
    exact ⟨orreryPass_completes room rfl early vacant inside (within 0 (by decide)), orreryPass_completes room rfl early vacant inside (within 1 (by decide))⟩
  case sweeps =>
    obtain ⟨⟨zeros, srcFormat, dstFormat, src, dst, some_rows, fit, vacant⟩, one_round, plain, unscaled, column⟩ := limits
    have within (kind : Nat) (sweeping : 2 ≤ kind) : k.passOk kind (k.staged .orr) = true :=
      (k.passOk_iff kind _).mpr ⟨clear_iff.mpr zeros, srcFormat, dstFormat, src, dst, some_rows, fit, .inl one_round,
        fun _ => ⟨one_round, plain, unscaled, column⟩, fun turning => by omega⟩
    exact ⟨orreryPass_completes room rfl early vacant inside (within 2 (by decide)), orreryPass_completes room rfl early vacant inside (within 3 (by decide))⟩
  case rowless =>
    have beyond (kind : Nat) : k.passOk kind (k.staged .orr) = false := by
      refine Bool.eq_false_iff.mpr fun within => ?_
      obtain ⟨-, -, -, -, -, some_rows, -⟩ := (k.passOk_iff kind _).mp within
      exact Nat.ne_of_gt some_rows none_named
    exact ⟨orreryPass_breaks room rfl early vacant (beyond 0), orreryPass_breaks room rfl early vacant (beyond 1)⟩
  case free => exact ofree_completes room inside (clear_iff.mpr zeros) early format tile
  case latch => exact olatch_completes room inside (clear_iff.mpr zeros) bank aligned fits usable
  case save => exact osave_completes room inside (clear_iff.mpr zeros) (pad_iff.mpr place)
  case rest => exact orest_completes room inside (clear_iff.mpr zeros) (pad_iff.mpr place) late vacant
  case own =>
    have far : sweepFar y.cur.core pad = 0 := by simp [sweepFar, badAddress, pad_iff.mpr place]
    exact far ▸ orest_breaks room late
  case elsewhere =>
    have far : sweepFar y.cur.core pad = BitVec.ofNat 64 pad := by simp [sweepFar, badAddress, Bool.eq_false_iff.mpr (mt pad_iff.mp misplaced)]
    exact far ▸ orest_breaks room late
  case drift => exact ⟨odrift_completes room inside (clear_iff.mpr zeros) b m t, oscfg_completes room inside (clear_iff.mpr zeros) b m t⟩


end Sys2Proof.Machine
end

section
/-! PROOFS. The completion of transfers, copies, refills and passes (R87, R188, R189, R192, R193, R198, R199). -/

namespace Sys2Proof.Machine

/-! ## What a completed command makes due -/

/-- Something of a command due in the next tick of its own clock, or in the next wall cycle for one of varying timing (R188, R189). -/
def Cmd.nextTick (c : Cmd) (y : Sys) (g : Nat) (a : Act) : Ev :=
  { core := g, ctx := c.ctx, due := (if c.varies then y.wcyc else y.now g c.ctx) + 1, phase := if c.varies then 8 else 0, ord := c.id, act := a }

/-- More becomes due. -/
def Sys.adds (y : Sys) (es : List Ev) : Sys := { y with agenda := y.agenda ++ es }

section
variable (y : Sys) (g : Nat) (c : Cmd)

theorem Sys.adds_nil : y.adds [] = y := by rw [Sys.adds, List.append_nil]

theorem Sys.adds_adds (es fs : List Ev) : (y.adds es).adds fs = y.adds (es ++ fs) := by rw [Sys.adds, Sys.adds, List.append_assoc]; rfl

/-- What becomes due moves no clock. -/
theorem Cmd.nextTick_adds (es : List Ev) (a : Act) : c.nextTick (y.adds es) g a = c.nextTick y g a := rfl

theorem Sys.cmdSoon_eq (a : Act) : y.cmdSoon g c 1 0 a = y.adds [c.nextTick y g a] := by
  unfold Sys.cmdSoon Cmd.nextTick
  split <;> rfl

theorem Sys.foldl_cmdSoon (l : List Nat) (act : Nat → Act) :
    l.foldl (fun y t => y.cmdSoon g c 1 0 (act t)) y = y.adds (l.map fun t => c.nextTick y g (act t)) := by
  induction l generalizing y with
  | nil => exact y.adds_nil.symm
  | cons t rest ih =>
    rw [List.foldl_cons, ih, Sys.cmdSoon_eq, Sys.adds_adds]
    rfl

/-- A completion changes nothing but the agenda (R188, R189). -/
theorem Sys.complete_eq : y.complete g c = y.adds (completion y g c) := by
  unfold Sys.complete
  extract_lets word counted written
  have counts : counted = y.adds (if ((c.eng == .tm || c.eng == .cp) && bit word 6) = true then [c.nextTick y g (.tcAdd (fld word 0 6) 1)] else []) := by
    simp only [counted]
    split
    · exact y.cmdSoon_eq g c _
    · exact y.adds_nil.symm
  have writes : written = counted.adds (c.writes.map fun t => c.nextTick counted g (.wrote c.id t)) := counted.foldl_cmdSoon g c c.writes _
  rw [Sys.cmdSoon_eq, writes, counts, Sys.adds_adds, Sys.adds_adds, ← List.append_assoc]
  rfl

end

/-! ## Rows of a core -/

section
variable {s : State} {core : Nat} (there : core < 1024)
include there

/-- What a row's event does on a core of the module. -/
theorem eventOn_core (e : Sys → Sys × List Write) : s.eventOn (decide (core < 1024)) e = s.event e := by
  rw [decide_eq_true there, State.eventOn_present]

section
variable {id : Nat}

/-- Without its command none of these rows has an effect. -/
theorem commandRows_idle_of_gone (gone : s.sys.cmd core id = none) :
    Idles (.tileTransferComplete core id) s ∧ Idles (.copyComplete core id) s ∧ Idles (.cpyrFire core id) s :=
  ⟨idles_of_event (eventOn_core there _) (by rw [gone]),
    idles_of_event (eventOn_core there _) (by rw [gone]), idles_of_event (eventOn_core there _) (by rw [gone])⟩

variable {c : Cmd} (found : s.sys.cmd core id = some c)
include found

section
variable (unit : c.eng = .tm) (moving : s.sys.moves core c = true)
include unit moving

/-- The last segment of a TLD commits its rows (R192). -/
theorem tileTransferComplete_commits {t : BitVec 16} (load : c.instr = .tld t) (last : c.done = c.units) :
    let rows := c.commitRows ((s.sys.ctx core c.ctx).tileBase (tsTile (c.st 2))) core
    exec (.tileTransferComplete core id) s =
      .next { mem := s.mem.writeAll rows, sys := (s.sys.adds (completion s.sys core c)).mend rows } := by
  have row : exec (.tileTransferComplete core id) s = s.event _ := eventOn_core there _
  rw [row, State.event_next]
  simp [found, unit, moving, load, last, Sys.complete_eq]

theorem tileTransferComplete_ends_of_store {a : BitVec 1} {e : BitVec 8} {t : BitVec 16} (store : c.instr = .tst a e t) (last : c.done = c.units) :
    Becomes (.tileTransferComplete core id) s fun y => y.adds (completion y core c) :=
  becomes_of_event (eventOn_core there _) (by simp [found, unit, moving, store, last, Sys.complete_eq])

theorem tileTransferComplete_ends_of_word {w : BitVec 1} {t : BitVec 16} (word : c.instr = .ldw w t ∨ c.instr = .stw w t) (performed : 0 < c.done) :
    Becomes (.tileTransferComplete core id) s fun y => y.adds (completion y core c) := by
  have begun : c.done ≠ 0 := by omega
  refine becomes_of_event (eventOn_core there _) ?_
  rcases word with load | store
  · simp [found, unit, moving, load, begun, Sys.complete_eq]
  · simp [found, unit, moving, store, begun, Sys.complete_eq]

end

theorem tileTransferComplete_idles (unmoved : c.eng ≠ .tm ∨ s.sys.moves core c = false) : Idles (.tileTransferComplete core id) s := by
  refine idles_of_event (eventOn_core there _) ?_
  rcases unmoved with other | stopped
  · simp [found, other]
  · simp [found, stopped]

theorem copyComplete_ends (unit : c.eng = .cp) (last : c.done = c.copyTotal) :
    Becomes (.copyComplete core id) s fun y => y.adds (completion y core c) :=
  becomes_of_event (eventOn_core there _) (by simp [found, unit, last, Sys.complete_eq])

theorem copyComplete_idles (unfinished : c.eng ≠ .cp ∨ c.done ≠ c.copyTotal) : Idles (.copyComplete core id) s := by
  refine idles_of_event (eventOn_core there _) ?_
  rcases unfinished with other | going
  · simp [found, other]
  · simp [found, going]

section
variable {t : BitVec 16} (refill : c.instr = .cpyr t)
include refill

theorem cpyrFire_fires (started : c.started = true) (unfired : c.fired = false) (free : (s.sys.core core).refillFree c = true)
    (moving : s.sys.moves core c = true) :
    Becomes (.cpyrFire core id) s fun y => (y.modCmd core id fun c => { c with fired := true }).runCopy core c :=
  becomes_of_event (eventOn_core there _) (by simp [found, refill, started, unfired, free, moving])

theorem cpyrFire_idles (waits : c.started = false ∨ c.fired = true ∨ (s.sys.core core).refillFree c = false ∨ s.sys.moves core c = false) :
    Idles (.cpyrFire core id) s := by
  have unready : (c.started && !c.fired && (s.sys.core core).refillFree c && s.sys.moves core c) = false := by
    rcases waits with h | h | h | h <;> simp [h]
  exact idles_of_event (eventOn_core there _) (by simp [found, refill, unready])

end
end

/-! ## Passes -/

section
variable {x : Fin 4} {slot : Fin 2}

theorem passFinish_idles_of_empty (none_held : (vget (s.sys.ctx core x).sweep slot).pass = none) : Idles (.passFinish core x slot) s :=
  idles_of_event (eventOn_core there _) (by rw [none_held])

variable {p : Pass} (held : (vget (s.sys.ctx core x).sweep slot).pass = some p)
include held

/-- A pass whose last row has landed leaves its slot (R87). -/
theorem passFinish_ends (landed : p.flight = []) (rows : p.next = p.rows) (rounds : p.round + 1 = p.rounds) :
    Becomes (.passFinish core x slot) s fun y => y.passEnd s.mem core x slot :=
  becomes_of_event (eventOn_core there _) (by simp [held, landed, rows, rounds])

theorem passFinish_idles_of_flight (flying : p.flight ≠ []) : Idles (.passFinish core x slot) s :=
  idles_of_event (eventOn_core there _) (by simp [held, flying])

end
end

/-! ## O46 -/

/-- Settles O46: each row's effect in each of its cases, a completion being what it adds to the agenda. -/
theorem transfersAndPassesComplete : Obligations.TransfersAndPassesComplete := by
  unfold Obligations.TransfersAndPassesComplete
  intro s core id x slot there y tile copy fire
  refine ⟨commandRows_idle_of_gone there, fun c found => ?commands, fun p held => ⟨passFinish_ends there held, passFinish_idles_of_flight there held⟩,
    passFinish_idles_of_empty there⟩
  case commands =>
    intro ends readers
    have free_eq : (y.core core).refillFree c = !readers := rfl
    refine ⟨fun t load unit moving last => tileTransferComplete_commits there found unit moving load last,
      fun a e t store unit moving last => tileTransferComplete_ends_of_store there found unit moving store last,
      fun ⟨w, t, word⟩ unit moving performed => tileTransferComplete_ends_of_word there found unit moving word performed,
      tileTransferComplete_idles there found, copyComplete_ends there found, copyComplete_idles there found,
      fun t refill started unfired unread moving => ?fires, fun t refill waits => ?waits⟩
    case fires => exact cpyrFire_fires there found refill started unfired (by rw [free_eq, unread]; rfl) moving
    case waits =>
      exact cpyrFire_idles there found refill (by rw [free_eq, Bool.not_eq_false']; exact waits)

end Sys2Proof.Machine
end

section
/-! PROOFS. The outcomes of a slot's instruction: it runs, holds or breaks a limit (R118, R119). -/

namespace Sys2Proof.Machine

section
variable {i : Instr} {s : State} {h : Option Bool} {c : List FaultRec} {e : Sys → Sys}

/-- An instruction that neither holds nor breaks a limit has its effect (R118, R119). -/
theorem runs_of_issue (row : exec i s = s.issue h c e) (ready : h = none) (met : c = []) : Runs i s e := by
  rw [Runs, row, ready, met, State.issue_runs]

theorem holds_of_issue {v : Bool} (row : exec i s = s.issue h c e) (waits : h = some v) : Holds i s v := by
  rw [Holds, row, waits, State.issue_holds]; rfl

/-- One limit broken is the fault of its class and code (R119, R302). -/
theorem breaksLimit_of_issue {cls code : Nat} {far : Word} (row : exec i s = s.issue h c e) (ready : h = none)
    (broken : c = [s.sys.faultHere cls code far]) : BreaksLimit i s cls code far := by
  refine ⟨s.sys.faultHere cls code far, rfl, rfl, rfl, rfl, rfl, ?_⟩
  rw [row, ready, broken]
  simp [State.issue, slotFault, firstFault, Sys.faulted, Sys.faultHere]

end

/-- The wait for unlanded registers is of fixed timing, so it adds nothing to another wait of the slot (R23, R120). -/
theorem orHold_interlock (s : Sys) (fileB : Bool) (names : List (BitVec 5)) (v : Bool) : orHold (s.interlock fileB names) (some v) = some v := by
  unfold Sys.interlock holdUnless
  split
  · split <;> rfl
  · rfl

/-- A control or address instruction without limits of its own runs when it is readable (R23, R37). -/
theorem runs_of_readable {i : Instr} {s : State} {names : List (BitVec 5)} {e : Sys → Sys}
    (row : exec i s = s.issue (s.sys.interlock false names) [] e) (readable : Readable s false names) : Runs i s e :=
  runs_of_issue row readable.interlock rfl

/-- Two effects that agree on the state at hand. -/
theorem Runs.congr {i : Instr} {s : State} {e f : Sys → Sys} (runs : Runs i s e) (same : e s.sys = f s.sys) : Runs i s f := by
  rw [Runs, ← same]; exact runs

theorem Sys.limit_broken {y : Sys} {ok : Bool} {cls code : Nat} {far : Word} (broken : ok = false) :
    y.limit ok cls code far = [y.faultHere cls code far] := by
  rw [broken]; rfl

end Sys2Proof.Machine
end

section
/-! PROOFS. The control slot: branches, waits, records and digests, traps and returns (R118 to R136). -/

namespace Sys2Proof.Machine

/-! ## Branches (R121, R122) -/

section
variable {s : State} {a : BitVec 5} (d : BitVec 21) (readable : Readable s false [a])
include readable

theorem bz_runs : Runs (.bz a d) s fun y => if y.regA a = 0 then y.jumpTo (branchTarget y.cur.grp d) else y :=
  runs_of_readable rfl readable

theorem bnz_runs : Runs (.bnz a d) s fun y => if y.regA a = 0 then y else y.jumpTo (branchTarget y.cur.grp d) :=
  runs_of_readable rfl readable

end

/-- Settles O15: the test decides which of the two effects a conditional branch has. -/
theorem branches : Obligations.Branches := by
  unfold Obligations.Branches
  intro s a d d' sets
  refine ⟨runs_of_issue rfl rfl rfl, fun readable => ⟨fun zero => ⟨?bz, ?bnzPasses⟩, fun nonzero => ⟨?bnz, ?bzPasses⟩, runs_of_readable rfl readable⟩⟩
  case bz => exact (bz_runs d readable).congr (if_pos zero)
  case bnzPasses => exact (bnz_runs d readable).congr (if_pos zero)
  case bnz => exact (bnz_runs d readable).congr (if_neg nonzero)
  case bzPasses => exact (bz_runs d readable).congr (if_neg nonzero)

/-! ## Waits (R118, R124, R125, R130) -/

theorem mem_maskTiles {m : BitVec 16} {t : Nat} : t ∈ maskTiles m ↔ t < 16 ∧ m.getLsbD t = true := by
  simp [maskTiles, BitVec.getLsbD, Nat.testBit_eq_decide_div_mod_eq]

theorem Core.tileFree_iff (c : Core) (x : Nat) (idle : BitVec 1) (t : Nat) :
    c.tileFree x (idle == 1) t = true ↔ c.wpend x t = false ∧ (idle = 1 → c.readers x t = 0) := by
  rcases BitVec.eq_zero_or_eq_one idle with rfl | rfl <;> simp [Core.tileFree]

/-- WAITS names tiles, and each lies in the context's window (R124). -/
def waitsOk (k : Ctx) (m : BitVec 16) : Bool := m != 0 && (maskTiles m).all fun t => decide (t < k.win.vwin / 4)

theorem waitsOk_iff (k : Ctx) (m : BitVec 16) : waitsOk k m = true ↔ m ≠ 0 ∧ ∀ t, t < 16 ∧ m.getLsbD t = true → t < k.win.vwin / 4 := by
  simp [waitsOk, mem_maskTiles]

/-- Every tile that WAITS names is free (R124). -/
def waitsFree (c : Core) (x : Nat) (idle : BitVec 1) (m : BitVec 16) : Bool := (maskTiles m).all (c.tileFree x (idle == 1))

theorem waitsFree_iff (c : Core) (x : Nat) (idle : BitVec 1) (m : BitVec 16) : waitsFree c x idle m = true ↔
    ∀ t, t < 16 ∧ m.getLsbD t = true → c.wpend x t = false ∧ (idle = 1 → c.readers x t = 0) := by
  simp only [waitsFree, List.all_eq_true, mem_maskTiles, Core.tileFree_iff]

theorem exec_waits (s : State) (idle : BitVec 1) (m : BitVec 16) : ∃ v, exec (.waits idle m) s =
    s.issue (if waitsOk s.sys.here m && !waitsFree s.sys.hereCore s.sys.cur.ctx idle m then some v else none) (s.sys.range (waitsOk s.sys.here m)) id :=
  ⟨_, rfl⟩

theorem exec_waitc (s : State) (a : BitVec 5) (n : BitVec 6) : ∃ v, exec (.waitc a n) s =
    s.issue
      (orHold (if decide (n.toNat < s.sys.here.win.tcount) then s.sys.interlock false [a] else none)
        (if decide (n.toNat < s.sys.here.win.tcount) && !reached (vget s.sys.here.regs.tc n.toNat) ((s.sys.regA a).setWidth 32) then some v else none))
      (s.sys.range (decide (n.toNat < s.sys.here.win.tcount))) id :=
  ⟨_, rfl⟩

/-- The clock that TICK compares: the task tick in timed mode, wall cycles in shared mode (R130). -/
def tickClock (s : Sys) : Nat := if s.here.timed then (BitVec.ofNat 64 s.mer - s.here.tstm : Word).toNat else (BitVec.ofNat 64 s.wcyc : Word).toNat

theorem exec_tick (s : State) (a : BitVec 5) : exec (.tick a) s =
    s.issue (orHold (s.sys.interlock false [a]) (holdUnless (decide ((s.sys.regA a).toNat ≤ tickClock s.sys)))) [] id := by
  rw [tickClock, ← apply_ite BitVec.toNat]; rfl

/-- Settles O17: each wait's hold and limit are decided by its condition and by its own operand. -/
theorem waitsHoldUntilTheirCondition : Obligations.WaitsHoldUntilTheirCondition := by
  unfold Obligations.WaitsHoldUntilTheirCondition
  intro s idle m a n k c x named free window reaches now
  have window_iff : waitsOk k m = true ↔ window := waitsOk_iff k m
  have free_iff : waitsFree c x idle m = true ↔ ∀ t, named t → free t := waitsFree_iff c x idle m
  have reaches_eq : reached (vget k.regs.tc n.toNat) ((s.sys.regA a).setWidth 32) = decide reaches := rfl
  obtain ⟨v, waits⟩ := exec_waits s idle m
  obtain ⟨u, waitc⟩ := exec_waitc s a n
  have tick := exec_tick s a
  refine ⟨fun inside all => ?waitsPasses, fun inside some_busy => ⟨v, ?waitsHolds⟩, fun outside => ?waitsBreaks, fun outside => ?waitcBreaks,
    fun inside readable reached => ?waitcPasses, fun inside unreached => ⟨u, ?waitcHolds⟩, fun readable reached => ?tickPasses, fun early => ?tickHolds⟩
  case waitsPasses => exact runs_of_issue waits (by rw [free_iff.mpr all, Bool.not_true, Bool.and_false]; rfl) (Sys.range_eq_nil (window_iff.mpr inside))
  case waitsHolds =>
    have busy : waitsFree c x idle m = false := Bool.eq_false_iff.mpr (mt free_iff.mp some_busy)
    exact holds_of_issue waits (by rw [window_iff.mpr inside, busy]; rfl)
  case waitsBreaks =>
    have broken : waitsOk k m = false := Bool.eq_false_iff.mpr (mt window_iff.mp outside)
    exact breaksLimit_of_issue waits (by rw [broken]; rfl) (Sys.range_eq_fault broken)
  case waitcBreaks => exact breaksLimit_of_issue waitc (by rw [decide_eq_false outside]; rfl) (Sys.range_eq_fault (decide_eq_false outside))
  case waitcPasses =>
    refine runs_of_issue waitc ?_ (Sys.range_eq_nil (decide_eq_true inside))
    rw [reaches_eq, decide_eq_true reached, Bool.not_true, Bool.and_false, decide_eq_true inside, if_pos rfl, readable.interlock]
    rfl
  case waitcHolds =>
    refine holds_of_issue waitc ?_
    rw [reaches_eq, decide_eq_false unreached, decide_eq_true inside]
    exact orHold_interlock ..
  case tickPasses =>
    have passed : (s.sys.regA a).toNat ≤ tickClock s.sys := reached
    refine runs_of_issue tick ?_ rfl
    rw [readable.interlock, decide_eq_true passed, holdUnless_met, orHold_none_none]
  case tickHolds =>
    have ahead : ¬ (s.sys.regA a).toNat ≤ tickClock s.sys := Nat.not_le.mpr early
    refine holds_of_issue tick ?_
    rw [decide_eq_false ahead]
    exact orHold_interlock ..

/-! ## Records and digests (R128, R132, R222) -/

/-- The level takes no record of the context's: its queue is full with those on their way, or its controller takes none at all (R222, R341, log 52). -/
def ctiFull (y : Sys) (l : BitVec 3) : Bool :=
  y.deaf (ctiLevel y.cur.core l.toNat) ||
    decide (16 ≤ y.queued (.context y.cur.core y.cur.ctx) (ctiLevel y.cur.core l.toNat) + y.ctiReads y.cur.core y.cur.ctx l.toNat)

theorem ctiFull_eq_false_iff (y : Sys) (l : BitVec 3) : ctiFull y l = false ↔ y.deaf (ctiLevel y.cur.core l.toNat) = false ∧
    y.queued (.context y.cur.core y.cur.ctx) (ctiLevel y.cur.core l.toNat) + y.ctiReads y.cur.core y.cur.ctx l.toNat < 16 := by
  simp [ctiFull]

/-- The address is one of a 64-byte block of core `g`'s own scratchpad (R128, R132). -/
def ownBlock (g addr : Nat) : Bool := addr % 64 == 0 && ownScratch g addr

theorem ownBlock_iff (g addr : Nat) : ownBlock g addr = true ↔ addr % 64 = 0 ∧ addr / 2 ^ 21 % 128 = g % 128 := by
  simp [ownBlock, ownScratch, corePart]

/-- The `n` blocks of a DIGEST lie in core `g`'s own scratchpad, and there is one at least (R132). -/
def digestOk (g addr : Nat) (n : BitVec 16) : Bool :=
  ownBlock g addr && n != 0 && decide (n.toNat ≤ 32768) && decide (localOff addr + 64 * n.toNat ≤ 2 ^ 21)

theorem digestOk_iff (g addr : Nat) (n : BitVec 16) : digestOk g addr n = true ↔
    (addr % 64 = 0 ∧ addr / 2 ^ 21 % 128 = g % 128) ∧ 1 ≤ n.toNat ∧ n.toNat ≤ 32768 ∧ addr % 2 ^ 21 + 64 * n.toNat ≤ 2 ^ 21 := by
  have some_blocks : n ≠ 0 ↔ 1 ≤ n.toNat := by
    rw [Nat.one_le_iff_ne_zero, ne_eq, ← BitVec.toNat_inj]; rfl
  simp only [digestOk, Bool.and_eq_true, decide_eq_true_eq, bne_iff_ne, ownBlock_iff, and_assoc, some_blocks]
  rfl

theorem digestBusy_eq_false_iff (k : Ctx) (t : Nat) : k.digestBusy t = false ↔ ∀ d ∈ k.digesting, d.start + d.n - 1 ≤ t := by
  simp [Ctx.digestBusy]

section
variable (s : State) (a : BitVec 5)

theorem exec_cti (l : BitVec 3) :
    let addr := (s.sys.regA a).toNat % 2 ^ 28
    exec (.cti a l) s = s.issue (orHold (s.sys.interlock false [a]) (if ctiFull s.sys l then some true else none))
      (s.sys.range (ownBlock s.sys.cur.core addr) (BitVec.ofNat 64 addr))
      fun y => (y.perform 2 1 (.ctiRead addr l.toNat y.cur.grp)).modHere fun k => k.take 1 :=
  rfl

theorem exec_digest (n : BitVec 16) :
    let y := s.sys
    let k := y.here
    let addr := (y.regA a).toNat % 2 ^ 28
    exec (.digest a n) s = s.issue (orHold (y.interlock false [a]) (if k.digestBusy y.t && !k.timed then some false else none))
      (y.range (digestOk y.cur.core addr n) (BitVec.ofNat 64 addr) ++ y.limit (!(k.digestBusy y.t && k.timed)) 5 1)
      fun y => y.modHere fun k => { k with digesting := k.digesting ++ [⟨s.sys.cur.ord, addr, n.toNat, 0, s.sys.t + 2, s.sys.cur.grp⟩] } :=
  rfl

end

/-- Settles O20: room and idleness decide the holds, the address and the blocks the limits. -/
theorem recordAndDigestIssue : Obligations.RecordAndDigestIssue := by
  unfold Obligations.RecordAndDigestIssue
  intro s a l n y addr aligned room whole idle
  have full_iff : ctiFull y l = false ↔ room := ctiFull_eq_false_iff y l
  have aligned_iff : ownBlock y.cur.core addr = true ↔ aligned := ownBlock_iff _ _
  have whole_iff : digestOk y.cur.core addr n = true ↔ whole := digestOk_iff _ _ _
  have busy_iff : y.here.digestBusy y.t = false ↔ idle := digestBusy_eq_false_iff _ _
  have cti := exec_cti s a l
  have digest := exec_digest s a n
  refine ⟨fun readable inside free => ?ctiRuns, fun readable full => ?ctiHolds, fun readable outside free => ?ctiBreaks,
    fun readable blocks ready => ?digestRuns, fun readable busy shared => ?digestHolds, fun readable blocks busy timed => ?digestLate,
    fun readable outside ready => ?digestBreaks⟩
  case ctiRuns => exact runs_of_issue cti (by rw [readable.interlock, full_iff.mpr free]; rfl) (Sys.range_eq_nil (aligned_iff.mpr inside))
  case ctiHolds =>
    have closed : ctiFull y l = true := eq_true_of_ne_false (mt full_iff.mp full)
    exact holds_of_issue cti (by rw [closed, if_pos rfl, orHold_interlock])
  case ctiBreaks =>
    exact breaksLimit_of_issue cti (by rw [readable.interlock, full_iff.mpr free]; rfl)
      (Sys.range_eq_fault (Bool.eq_false_iff.mpr (mt aligned_iff.mp outside)))
  case digestRuns =>
    exact runs_of_issue digest (by rw [readable.interlock, busy_iff.mpr ready]; rfl) (by rw [whole_iff.mpr blocks, busy_iff.mpr ready]; rfl)
  case digestHolds =>
    have reading : y.here.digestBusy y.t = true := eq_true_of_ne_false (mt busy_iff.mp busy)
    refine holds_of_issue digest ?_
    rw [reading, shared]
    exact orHold_interlock ..
  case digestLate =>
    have reading : y.here.digestBusy y.t = true := eq_true_of_ne_false (mt busy_iff.mp busy)
    exact breaksLimit_of_issue digest (by rw [readable.interlock, reading, timed]; rfl) (by rw [whole_iff.mpr blocks, reading, timed]; rfl)
  case digestBreaks =>
    have broken : digestOk y.cur.core addr n = false := Bool.eq_false_iff.mpr (mt whole_iff.mp outside)
    exact breaksLimit_of_issue digest (by rw [readable.interlock, busy_iff.mpr ready]; rfl) (by rw [broken, busy_iff.mpr ready]; rfl)

/-! ## Faults taken (R303, R314) -/

section
variable {s : Sys} {g x : Nat} {f : FaultRec} {more : Bool} {ret : W32}

/-- A fault that the context's handler takes (R303). -/
theorem Sys.takeFault_of_handles (handles : (s.ctx g x).handles f = true) :
    s.takeFault g x f more ret = s.modCtx g x fun k => k.toHandler f more ret (s.now g x) := by
  rw [Sys.takeFault, if_pos handles]; rfl

theorem Sys.dropRegion_of_closed (closed : (s.ctx g x).region.open_ = false) : s.dropRegion g x = s := by
  rw [Sys.dropRegion, closed]; rfl

theorem Sys.stopSpread_of_shared (shared : (s.ctx g x).timed = false) : s.stopSpread g x = s := by
  rw [Sys.stopSpread, shared]; rfl

/-- A fault of a shared context without an open region that goes to the supervisor: the context stops, and the package fault queue takes its record (R303, R314). -/
theorem Sys.takeFault_of_supervised (inside : x < 4) (unhandled : (s.ctx g x).handles f = false) (shared : (s.ctx g x).timed = false)
    (closed : (s.ctx g x).region.open_ = false) :
    let k := (s.ctx g x).toSupervisor f more s.run
    s.takeFault g x f more ret = (s.setCtx g x k).pfqAppend (faultWord0 more f.cls f.code 0 0, f.path g x, f.far, k.fga.word) := by
  intro k
  have run : s.now g x = s.run := by rw [Sys.now, shared]; rfl
  have stopped : s.modCtx g x (fun k => k.toSupervisor f more s.run) = s.setCtx g x k := rfl
  have here : (s.setCtx g x k).ctx g x = k := Sys.ctx_setCtx_same s g x k inside
  have still_shared (e : Word × Word × Word × Word) : (((s.setCtx g x k).pfqAppend e).ctx g x).timed = false := by
    have same : ((s.setCtx g x k).pfqAppend e).ctx g x = (s.setCtx g x k).ctx g x := rfl
    rw [same, here]; exact shared
  rw [Sys.takeFault, if_neg (Bool.eq_false_iff.mp unhandled)]
  simp only [Sys.dropRegion_of_closed closed, run, stopped, here]
  exact Sys.stopSpread_of_shared (still_shared _)

end

/-- The first entry of its cycle joins the package fault queue behind all others, and raises vector 8 (R314). -/
theorem Pkg.pfqAppend_first (p : Pkg) (e : Word × Word × Word × Word) (room : p.pfq.length < 64) (first : p.pfqNew = 0) :
    (p.pfqAppend e).pfq = p.pfq ++ [e] ∧ (p.pfqAppend e).msix = p.msix ||| 0x100 := by
  have fits : (p.pfq ++ [e]).length ≤ 64 := by rw [List.length_append, List.length_singleton]; omega
  have all : (p.pfq ++ [e]).take 64 = p.pfq ++ [e] := List.take_of_length_le fits
  exact ⟨by simpa [Pkg.pfqAppend, first, insertPath] using all, if_pos room⟩

/-! ## Traps and returns (R135, R136) -/

theorem trap_runs (s : State) (c : BitVec 16) :
    Runs (.trap c) s fun y => y.takeFault y.cur.core y.cur.ctx (y.faultHere 0 c.toNat) false y.cur.next :=
  runs_of_issue rfl rfl rfl

/-- A trap goes to the handler if one is enabled and none runs (R303). -/
theorem handles_trap (k : Ctx) (y : Sys) (c : BitVec 16) : k.handles (y.faultHere 0 c.toNat) = (k.tvecEn && !k.epcInh) := rfl

/-- Settles O21: a trap is a fault of class 0 that is taken once its group has issued. -/
theorem trapEntry : Obligations.TrapEntry := by
  unfold Obligations.TrapEntry
  intro s c y k grp
  have code : BitVec.ofNat 16 c.toNat = c := BitVec.ofNat_toNat 16 c
  refine ⟨fun enabled outside => ?handler, fun inside unhandled shared closed => ?supervisor⟩
  case handler =>
    have handles : k.handles (y.faultHere 0 c.toNat) = true := by rw [handles_trap, enabled, outside]; rfl
    refine (trap_runs s c).congr ((Sys.takeFault_of_handles handles).trans ?_)
    simp only [Ctx.toHandler, Ctx.setCause, Sys.faultHere, code]
    rfl
  case supervisor =>
    have handles : k.handles (y.faultHere 0 c.toNat) = false := by
      rw [handles_trap]; rcases unhandled with disabled | running <;> simp [*]
    let stopped : Ctx := k.toSupervisor (y.faultHere 0 c.toNat) false y.run
    let record := (faultWord0 false 0 c.toNat 0 0, faultPathCore 0 y.cur.core y.cur.ctx, (0 : Word), stopped.fga.word)
    have runs : Runs (.trap c) s fun _ => (y.setCtx y.cur.core y.cur.ctx stopped).pfqAppend record :=
      (trap_runs s c).congr (Sys.takeFault_of_supervised inside handles shared closed)
    refine ⟨_, runs, rfl, rfl, ?context, rfl, fun room first => y.pkg.pfqAppend_first record room first⟩
    refine (Sys.ctx_setCtx_same y y.cur.core y.cur.ctx stopped inside).trans ?_
    simp only [stopped, Ctx.toSupervisor, Ctx.setCause, Sys.faultHere, code]
    rfl

/-- Settles O22: ERET's word, its effect and its limit. -/
theorem handlerReturn : Obligations.HandlerReturn := by
  unfold Obligations.HandlerReturn
  have row (s : State) : exec .eret s = s.issue none (s.sys.limit s.sys.here.epcInh 2 4) fun y => y.modHere fun k => k.returnFromHandler y.t := rfl
  refine ⟨rfl, rfl, fun s => ⟨fun running => ?_, fun outside => ?_⟩⟩
  · exact runs_of_issue (row s) rfl (by rw [running, Sys.limit_met])
  · exact breaksLimit_of_issue (row s) rfl (Sys.limit_broken outside)

end Sys2Proof.Machine
end

section
/-! PROOFS. The scalar slots: integer results, products, bits and moves, and the words of MUL, MULH, MOV and MOVX (R139 to R145). -/

namespace Sys2Proof

/-! ## Fields of a scalar word -/

/-- A field is not zero just when the value read from it is not. -/
theorem nz_eq_bf (w : W32) (lo n : Nat) : nz w lo n = (bf w lo n != 0) := by
  rw [Bool.eq_iff_iff, nz, bne_iff_ne, bne_iff_ne, ne_eq, ne_eq, ← BitVec.toNat_inj, bf, BitVec.toNat_ofNat]
  rfl

/-- A word of three registers: opcode, `rd`, `ra`, `fn`, `rb` (R105). -/
theorem fields_of_registers (op : BitVec 8) (d a : BitVec 5) (fn : BitVec 9) (b : BitVec 5) :
    let w : W32 := op ++ d ++ a ++ fn ++ b
    w.toNat / 2 ^ 24 = op.toNat ∧ bf w 19 5 = d ∧ bf w 14 5 = a ∧ bf w 0 5 = b ∧ bf w 5 9 = fn ∧ bf w 5 1 = fn.setWidth 1 ∧
      bf w 6 8 = (fn >>> 1).setWidth 8 := by
  intro w
  have word : w.toNat = op.toNat * 2 ^ 24 + d.toNat * 2 ^ 19 + a.toNat * 2 ^ 14 + fn.toNat * 2 ^ 5 + b.toNat := by
    simp only [w, toNat_append_fields]; omega
  have := d.isLt
  have := a.isLt
  have := fn.isLt
  have := b.isLt
  refine ⟨by omega, ?_, ?_, ?_, ?_, ?_, ?_⟩
  all_goals
    refine BitVec.eq_of_toNat_eq ?_
    simp only [bf, BitVec.toNat_ofNat, BitVec.toNat_setWidth, BitVec.toNat_ushiftRight, Nat.shiftRight_eq_div_pow]
    omega

/-- A word of two registers, its low 14 bits reserved (R145). -/
theorem fields_of_move (op : BitVec 8) (d a : BitVec 5) (rest : BitVec 14) :
    let w : W32 := op ++ d ++ a ++ rest
    w.toNat / 2 ^ 24 = op.toNat ∧ bf w 19 5 = d ∧ bf w 14 5 = a ∧ bf w 0 14 = rest := by
  intro w
  have word : w.toNat = op.toNat * 2 ^ 24 + d.toNat * 2 ^ 19 + a.toNat * 2 ^ 14 + rest.toNat := by
    simp only [w, toNat_append_fields]; omega
  have := d.isLt
  have := a.isLt
  have := rest.isLt
  refine ⟨by omega, ?_, ?_, ?_⟩
  all_goals
    refine BitVec.eq_of_toNat_eq ?_
    simp only [bf, BitVec.toNat_ofNat]
    omega

/-- A word with one reserved field, whose instruction has no value of its own to refuse (R317). -/
theorem pick_reserved {i : Instr} {w : W32} {lo n : Nat} {x : BitVec n} (field : bf w lo n = x) (ok : i.wf = true) (values : i.valuesOk = true) :
    pick (nz w lo n) false i = if x = 0 then .ok i else .error .reservedField := by
  rw [nz_eq_bf, field]
  by_cases zero : x = 0 <;> simp [pick, ok, values, zero]

section
variable (d a b : BitVec 5) (fn : BitVec 9) (rest : BitVec 14)

theorem decodeScalar_mul : decodeScalar (0x20#8 ++ d ++ a ++ fn ++ b) = if fn = 0 then .ok (.mul d a b) else .error .reservedField := by
  obtain ⟨opcode, rd, ra, rb, reserved, -, -⟩ := fields_of_registers 0x20#8 d a fn b
  rw [decodeScalar, opcode]
  exact (pick_reserved reserved rfl rfl).trans (by rw [rd, ra, rb])

theorem decodeScalar_mulh :
    decodeScalar (0x21#8 ++ d ++ a ++ fn ++ b) = if fn < 2 then .ok (.mulh d a (fn.setWidth 1) b) else .error .reservedField := by
  obtain ⟨opcode, rd, ra, rb, -, unsigned, reserved⟩ := fields_of_registers 0x21#8 d a fn b
  have clear_iff : (fn >>> 1).setWidth 8 = 0 ↔ fn < 2 := by
    have small : fn < 2 ↔ fn.toNat < 2 := Iff.rfl
    have zero : (0 : BitVec 8).toNat = 0 := rfl
    have := fn.isLt
    rw [← BitVec.toNat_inj, small, BitVec.toNat_setWidth, BitVec.toNat_ushiftRight, Nat.shiftRight_eq_div_pow, zero]
    omega
  rw [decodeScalar, opcode]
  exact (pick_reserved reserved rfl rfl).trans (by rw [unsigned, rd, ra, rb]; exact ite_congr (propext clear_iff) (fun _ => rfl) fun _ => rfl)

theorem decodeScalar_mov : decodeScalar (0x30#8 ++ d ++ a ++ rest) = if rest = 0 then .ok (.mov d a) else .error .reservedField := by
  obtain ⟨opcode, rd, ra, reserved⟩ := fields_of_move 0x30#8 d a rest
  rw [decodeScalar, opcode]
  exact (pick_reserved reserved rfl rfl).trans (by rw [rd, ra])

theorem decodeScalar_movx : decodeScalar (0x31#8 ++ d ++ a ++ rest) = if rest = 0 then .ok (.movx d a) else .error .reservedField := by
  obtain ⟨opcode, rd, ra, reserved⟩ := fields_of_move 0x31#8 d a rest
  rw [decodeScalar, opcode]
  exact (pick_reserved reserved rfl rfl).trans (by rw [rd, ra])

end

namespace Machine

/-! ## Operations on words (R140 to R142) -/

theorem truth_decide (p : Prop) [Decidable p] : truth (decide p) = if p then 1 else 0 := by
  by_cases holds : p <;> simp [truth, holds]

/-- A shift to the left multiplies by a power of two (R141). -/
theorem shiftLeft_eq_ofNat (x : Word) (n : Nat) : x <<< n = BitVec.ofNat 64 (x.toNat * 2 ^ n) :=
  BitVec.eq_of_toNat_eq (by rw [BitVec.toNat_shiftLeft, BitVec.toNat_ofNat, Nat.shiftLeft_eq])

/-- A shift to the right divides by a power of two (R141). -/
theorem ushiftRight_eq_ofNat (x : Word) (n : Nat) : x >>> n = BitVec.ofNat 64 (x.toNat / 2 ^ n) := by
  rw [← Nat.shiftRight_eq_div_pow, ← BitVec.toNat_ushiftRight, BitVec.ofNat_toNat, BitVec.setWidth_eq]

/-- An arithmetic shift to the right is the floor of the division by a power of two (R141). -/
theorem sshiftRight_eq_ofInt (x : Word) (n : Nat) : x.sshiftRight n = BitVec.ofInt 64 (x.toInt / 2 ^ n) := by
  have power : ((2 ^ n : Nat) : Int) = 2 ^ n := Int.natCast_pow 2 n
  rw [BitVec.sshiftRight, Int.shiftRight_eq_div_pow, power]

theorem mul_eq_ofNat (x y : Word) : x * y = BitVec.ofNat 64 (x.toNat * y.toNat % 2 ^ 64) := by
  rw [← BitVec.toNat_mul, BitVec.ofNat_toNat, BitVec.setWidth_eq]

/-! ## Results that land -/

section
variable {i : Instr} {s : State} {n : Nat} {d a b : BitVec 5}

/-- A readable scalar instruction within its limits lands its value and changes nothing else (R36, R37). -/
theorem lands_of_scalarOp {srcs : List (BitVec 5)} {c : List FaultRec} {v : Sys → Word} (row : exec i s = s.scalarOp srcs c n d v)
    (readable : Readable s s.sys.fileB srcs) (met : c = []) : Lands i s n d (v s.sys) :=
  runs_of_issue row readable.interlock met

/-- One beyond a limit is the fault of it (R119). -/
theorem breaksLimit_of_scalarOp {srcs : List (BitVec 5)} {c : List FaultRec} {v : Sys → Word} {cls code : Nat} {far : Word}
    (row : exec i s = s.scalarOp srcs c n d v) (readable : Readable s s.sys.fileB srcs) (broken : c = [s.sys.faultHere cls code far]) :
    BreaksLimit i s cls code far :=
  breaksLimit_of_issue row readable.interlock broken

theorem lands_of_int2 {f : Word → Word → Word} (row : exec i s = s.int2 n d a b f) (readable : Readable s s.sys.fileB [a, b]) :
    Lands i s n d (f (s.sys.own a) (s.sys.own b)) :=
  lands_of_scalarOp row readable rfl

theorem Lands.of_eq {v w : Word} (lands : Lands i s n d v) (same : v = w) : Lands i s n d w := same ▸ lands

end

/-! ## O23 -/

section
variable (s : State) (d a : BitVec 5) (imm : BitVec 14)

theorem exec_shlImm : exec (.shlImm d a imm) s = s.scalarOp [a] (s.sys.range (decide (imm.toNat < 64))) 1 d fun y => y.own a <<< imm.toNat := rfl

theorem exec_shrImm : exec (.shrImm d a imm) s = s.scalarOp [a] (s.sys.range (decide (imm.toNat < 64))) 1 d fun y => y.own a >>> imm.toNat := rfl

end

/-- Settles O23: each instruction lands its operation's word, which is the one the rule states. -/
theorem integerAndShiftResults : Obligations.IntegerAndShiftResults := by
  unfold Obligations.IntegerAndShiftResults
  refine ⟨fun s d a b u imm => ?integers, fun s d a b imm => ?shifts⟩
  case integers =>
    intro x y k bool less
    refine ⟨fun readable => ⟨?addImm, ?andImm⟩, fun readable => ?registers⟩
    case addImm => exact lands_of_scalarOp (v := fun y => y.own a + sxImm imm) rfl readable rfl
    case andImm => exact lands_of_scalarOp (v := fun y => y.own a &&& sxImm imm) rfl readable rfl
    case registers =>
      exact ⟨lands_of_int2 rfl readable, lands_of_int2 rfl readable, lands_of_int2 rfl readable, lands_of_int2 rfl readable,
        lands_of_int2 rfl readable, (lands_of_int2 (f := fun x y => truth (x == y)) rfl readable).of_eq (truth_decide _),
        (lands_of_int2 (f := fun x y => truth (x.slt y)) rfl readable).of_eq (truth_decide _),
        (lands_of_int2 (f := fun x y => truth (x.ult y)) rfl readable).of_eq (truth_decide _), lands_of_int2 (f := fun x y => if lessBy u y x then y else x) rfl readable,
        lands_of_int2 (f := fun x y => if lessBy u x y then y else x) rfl readable⟩
  case shifts =>
    intro x n
    refine ⟨fun readable => ⟨?shl, ?shr, ?sar⟩, fun readable inside => ?immediates, fun readable beyond => ?beyond⟩
    case shl => exact (lands_of_int2 (f := fun x y => x <<< shiftDist y) rfl readable).of_eq (shiftLeft_eq_ofNat x n)
    case shr => exact (lands_of_int2 (f := fun x y => x >>> shiftDist y) rfl readable).of_eq (ushiftRight_eq_ofNat x n)
    case sar => exact (lands_of_int2 (f := fun x y => x.sshiftRight (shiftDist y)) rfl readable).of_eq (sshiftRight_eq_ofInt x n)
    case immediates =>
      have met : s.sys.range (decide (imm.toNat < 64)) = [] := Sys.range_eq_nil (decide_eq_true inside)
      exact ⟨(lands_of_scalarOp (exec_shlImm s d a imm) readable met).of_eq (shiftLeft_eq_ofNat x _),
        (lands_of_scalarOp (exec_shrImm s d a imm) readable met).of_eq (ushiftRight_eq_ofNat x _)⟩
    case beyond =>
      have broken : s.sys.range (decide (imm.toNat < 64)) = _ := Sys.range_eq_fault (decide_eq_false (Nat.not_lt.mpr beyond))
      exact ⟨breaksLimit_of_scalarOp (exec_shlImm s d a imm) readable broken, breaksLimit_of_scalarOp (exec_shrImm s d a imm) readable broken⟩

/-! ## O24 -/

/-- Settles O24: both words decode by their `fn`, and each product is a part of the exact one. -/
theorem multiplyResults : Obligations.MultiplyResults := by
  unfold Obligations.MultiplyResults
  refine ⟨⟨rfl, fun d a b fn => ⟨decodeScalar_mul d a b fn, decodeScalar_mulh d a b fn⟩⟩, fun s d a b readable => ?_⟩
  intro x y
  exact ⟨(lands_of_int2 rfl readable).of_eq (mul_eq_ofNat x y), lands_of_int2 (f := mulHigh 0) rfl readable, lands_of_int2 (f := mulHigh 1) rfl readable⟩

/-! ## The carry-less product (R143) -/

/-- The product of the rule's loop, over the low `n` bits of `b`. -/
def clmulLoop (n : Nat) (a b : Word) : BitVec 128 :=
  (List.range n).foldl (fun p i => if b.getLsbD i then p ^^^ (a.setWidth 128 <<< i) else p) 0

theorem clmulLoop_succ (n : Nat) (a b : Word) :
    clmulLoop (n + 1) a b = if b.getLsbD n then clmulLoop n a b ^^^ (a.setWidth 128 <<< n) else clmulLoop n a b := by
  rw [clmulLoop, List.range_succ, List.foldl_append]; rfl

/-- A 64-bit operand shifted by less than 64 loses no bit of 128. -/
theorem toNat_wide_shift (a : Word) {n : Nat} (h : n < 64) : (a.setWidth 128 <<< n).toNat = a.toNat * 2 ^ n := by
  have fits : a.toNat * 2 ^ n < 2 ^ 128 := by
    calc a.toNat * 2 ^ n < 2 ^ 64 * 2 ^ n := Nat.mul_lt_mul_of_pos_right a.isLt (Nat.two_pow_pos n)
      _ ≤ 2 ^ 64 * 2 ^ 64 := Nat.mul_le_mul_left _ (Nat.pow_le_pow_right (by decide) (Nat.le_of_lt h))
      _ = 2 ^ 128 := by decide
  rw [BitVec.toNat_shiftLeft, BitVec.toNat_setWidth_of_le (by decide), Nat.shiftLeft_eq, Nat.mod_eq_of_lt fits]

/-- The model's product of numbers is that of the loop. -/
theorem toNat_clmulLoop (a b : Word) {n : Nat} (h : n ≤ 64) : (clmulLoop n a b).toNat = clmulNat n a.toNat b.toNat := by
  induction n with
  | zero => rfl
  | succ n ih =>
    have bit_eq : b.getLsbD n = decide (b.toNat / 2 ^ n % 2 = 1) := Nat.testBit_eq_decide_div_mod_eq
    rw [clmulLoop_succ, clmulNat, ← ih (by omega), bit_eq]
    by_cases set : b.toNat / 2 ^ n % 2 = 1
    · rw [if_pos (decide_eq_true set), if_pos set, BitVec.toNat_xor, toNat_wide_shift a (by omega)]
    · rw [if_neg (by simpa using set), if_neg set, Nat.xor_zero]

/-! ## Bits reversed and counted (R144) -/

theorem revBits_lt (n x : Nat) : revBits n x < 2 ^ n := by
  induction n generalizing x with
  | zero => exact Nat.one_pos
  | succ n ih =>
    have := ih (x / 2)
    have : x % 2 * 2 ^ n ≤ 1 * 2 ^ n := Nat.mul_le_mul_right _ (by omega)
    rw [revBits, Nat.pow_succ]
    omega

theorem testBit_revBits {n i : Nat} (x : Nat) (h : i < n) : (revBits n x).testBit i = x.testBit (n - 1 - i) := by
  induction n generalizing x i with
  | zero => omega
  | succ n ih =>
    rw [revBits, Nat.mul_comm, Nat.testBit_two_pow_mul_add _ (revBits_lt n _)]
    split
    · next low =>
      have above : n + 1 - 1 - i = n - 1 - i + 1 := by omega
      rw [ih _ low, above, Nat.testBit_succ]
    · next high =>
      have top : i = n := by omega
      rw [top, Nat.sub_self, Nat.add_sub_cancel, Nat.sub_self, Nat.testBit_zero, Nat.testBit_zero, Nat.mod_mod]

/-- A bit of a little-endian number is a bit of one of its bytes. -/
theorem testBit_leNat (l : List Byte) (j : Nat) {i : Nat} (h : i < 8) : (leNat l).testBit (8 * j + i) = (l.getD j 0).getLsbD i := by
  induction l generalizing j with
  | nil => simp [leNat]
  | cons b rest ih =>
    rw [leNat, Nat.add_comm, Nat.testBit_two_pow_mul_add (i := 8) _ b.isLt]
    cases j with
    | zero => rw [if_pos (by omega), Nat.mul_zero, Nat.zero_add]; rfl
    | succ j =>
      have next : 8 * (j + 1) + i - 8 = 8 * j + i := by omega
      rw [if_neg (by omega), next, ih j]; rfl

/-- Byte `j` of a number (R3). -/
theorem getElem?_leBytes {n j : Nat} (v : Nat) (h : j < n) : (leBytes n v)[j]? = some (BitVec.ofNat 8 (v / 2 ^ (8 * j))) := by
  induction n generalizing v j with
  | zero => omega
  | succ n ih =>
    cases j with
    | zero => simp [leBytes]
    | succ j =>
      have pow : 2 ^ (8 * (j + 1)) = 256 * 2 ^ (8 * j) := by rw [Nat.mul_succ, Nat.pow_add, Nat.mul_comm]
      rw [leBytes, List.getElem?_cons_succ, ih _ (by omega), Nat.div_div_eq_div_mul, pow]

section
variable (x : Word)

theorem getLsbD_brevWord_zero {i : Nat} (h : i < 64) : (brevWord 0 x).getLsbD i = x.getLsbD (63 - i) := by
  have whole : brevWord 0 x = BitVec.ofNat 64 (revBits 64 x.toNat) := rfl
  rw [whole, BitVec.getLsbD_ofNat, decide_eq_true h, Bool.true_and, testBit_revBits _ h]
  rfl

theorem getLsbD_brevWord_one {i : Nat} (h : i < 64) : (brevWord 1 x).getLsbD i = (decide (i < 32) && x.getLsbD (31 - i)) := by
  have half : brevWord 1 x = BitVec.ofNat 64 (revBits 32 x.toNat) := rfl
  rw [half, BitVec.getLsbD_ofNat, decide_eq_true h, Bool.true_and]
  by_cases low : i < 32
  · rw [decide_eq_true low, Bool.true_and, testBit_revBits _ low]; rfl
  · have above : revBits 32 x.toNat < 2 ^ i := Nat.lt_of_lt_of_le (revBits_lt 32 _) (Nat.pow_le_pow_right (by decide) (by omega))
    rw [decide_eq_false low, Bool.false_and, Nat.testBit_lt_two_pow above]

theorem getLsbD_brevWord_two {j i : Nat} (hj : j < 8) (hi : i < 8) : (brevWord 2 x).getLsbD (8 * j + i) = x.getLsbD (8 * j + 7 - i) := by
  have bytes : brevWord 2 x = BitVec.ofNat 64 (leNat ((leBytes 8 x.toNat).map fun b => BitVec.ofNat 8 (revBits 8 b.toNat))) := rfl
  have place : 7 - i < 8 := by omega
  have same : 7 - i + 8 * j = 8 * j + 7 - i := by omega
  rw [bytes, BitVec.getLsbD_ofNat, decide_eq_true (by omega), Bool.true_and, testBit_leNat _ _ hi, List.getD_eq_getElem?_getD, List.getElem?_map,
    getElem?_leBytes _ hj, Option.map_some, Option.getD_some, BitVec.getLsbD_ofNat, decide_eq_true hi, Bool.true_and, testBit_revBits _ hi,
    BitVec.testBit_toNat, BitVec.getLsbD_ofNat, decide_eq_true place, Bool.true_and, Nat.testBit_div_two_pow, same]
  rfl

end

theorem popNat_eq_length_filter (n x : Nat) : popNat n x = ((List.range n).filter fun i => x.testBit i).length := by
  induction n generalizing x with
  | zero => rfl
  | succ n ih =>
    have shifted : ((List.range n).map Nat.succ).filter (fun i => x.testBit i) = ((List.range n).filter fun i => (x / 2).testBit i).map Nat.succ := by
      rw [List.filter_map]
      exact congrArg _ (List.filter_congr fun i _ => Nat.testBit_succ x i)
    rw [popNat, ih, List.range_succ_eq_map, List.filter_cons, shifted, Nat.testBit_zero]
    rcases Nat.mod_two_eq_zero_or_one x with even | odd
    · simp [even]
    · simp [odd, Nat.add_comm]

/-- The number of 1 bits fits in a word. -/
theorem toNat_popcount (x : Word) : (BitVec.ofNat 64 (popNat 64 x.toNat)).toNat = ((List.range 64).filter fun i => x.getLsbD i).length := by
  have counted := popNat_eq_length_filter 64 x.toNat
  have few : popNat 64 x.toNat < 2 ^ 64 := by
    calc popNat 64 x.toNat = _ := counted
      _ ≤ (List.range 64).length := List.length_filter_le ..
      _ < 2 ^ 64 := by rw [List.length_range]; decide
  rw [BitVec.toNat_ofNat, Nat.mod_eq_of_lt few, counted]
  rfl

/-! ## O25 -/

/-- Settles O25: the product by induction on the loop, the reversals and the count by the bits of the numbers that the model computes. -/
theorem carryLessAndBitResults : Obligations.CarryLessAndBitResults := by
  unfold Obligations.CarryLessAndBitResults
  refine ⟨fun s d a b readable => ?products, fun s d a readable => ?bits⟩
  case products =>
    intro p
    have product : clmulNat 64 (s.sys.own a).toNat (s.sys.own b).toNat = p.toNat := (toNat_clmulLoop _ _ (Nat.le_refl 64)).symm
    have low : BitVec.ofNat 64 (clmulNat 64 (s.sys.own a).toNat (s.sys.own b).toNat) = p.setWidth 64 := by rw [product, BitVec.ofNat_toNat]
    have high : BitVec.ofNat 64 (clmulNat 64 (s.sys.own a).toNat (s.sys.own b).toNat / 2 ^ 64) = (p >>> 64).setWidth 64 := by
      rw [product, ← Nat.shiftRight_eq_div_pow, ← BitVec.toNat_ushiftRight, BitVec.ofNat_toNat]
    exact ⟨(lands_of_int2 (f := fun x y => BitVec.ofNat 64 (clmulNat 64 x.toNat y.toNat)) rfl readable).of_eq low,
      (lands_of_int2 (f := fun x y => BitVec.ofNat 64 (clmulNat 64 x.toNat y.toNat / 2 ^ 64)) rfl readable).of_eq high⟩
  case bits =>
    intro x
    have brev (w : BitVec 2) : Lands (.brev d a w) s 1 d (brevWord w x) := lands_of_scalarOp (v := fun y => brevWord w (y.own a)) rfl readable rfl
    have popc : Lands (.popc d a) s 1 d (BitVec.ofNat 64 (popNat 64 x.toNat)) :=
      lands_of_scalarOp (v := fun y => BitVec.ofNat 64 (popNat 64 (y.own a).toNat)) rfl readable rfl
    exact ⟨⟨_, brev 0, fun i h => getLsbD_brevWord_zero x h⟩, ⟨_, brev 1, fun i h => getLsbD_brevWord_one x h⟩,
      ⟨_, brev 2, fun j i hj hi => getLsbD_brevWord_two x hj hi⟩, ⟨_, popc, toNat_popcount x⟩⟩

/-! ## O26 -/

/-- Settles O26: the words by their reserved bits; MOV is an operation of its own file, MOVX reads the other. -/
theorem moveResults : Obligations.MoveResults := by
  unfold Obligations.MoveResults
  refine ⟨⟨rfl, rfl, fun d a rest => ⟨decodeScalar_mov d a rest, decodeScalar_movx d a rest⟩⟩, fun s d a => ⟨fun readable => ?_, fun readable => ?_⟩⟩
  · exact lands_of_scalarOp (v := fun y => y.own a) rfl readable rfl
  · exact runs_of_issue (e := fun y => y.landReg 2 d (y.here.reg (!y.fileB) a.toNat)) rfl readable.interlock rfl

end Machine
end Sys2Proof
end

section
/-! PROOFS. The advance of a pointer by PADV, and the probe of XLAT where the walk meets a poisoned table (R44, R154, R157, R341). -/

namespace Sys2Proof

/-- A PADV word: opcode, `p`, reserved bits, `n` (R154). -/
theorem decodeAddress_padv (p a : BitVec 5) (n : BitVec 16) :
    decodeAddress (0x04#6 ++ p ++ a ++ n) = if a = 0 then .ok (.padv p n) else .error .reservedField := by
  have word : (0x04#6 ++ p ++ a ++ n).toNat = 0x04 * 2 ^ 26 + p.toNat * 2 ^ 21 + a.toNat * 2 ^ 16 + n.toNat := by
    simp only [toNat_append_fields, BitVec.toNat_ofNat]; omega
  generalize 0x04#6 ++ p ++ a ++ n = w at word ⊢
  have hp := p.isLt
  have ha := a.isLt
  have hn := n.isLt
  have opcode : w.toNat / 2 ^ 26 = 0x04 := by omega
  have pointer : bf w 21 5 = p := BitVec.eq_of_toNat_eq (by simp only [bf, BitVec.toNat_ofNat]; omega)
  have middle : bf w 16 5 = a := BitVec.eq_of_toNat_eq (by simp only [bf, BitVec.toNat_ofNat]; omega)
  have number : bf w 0 16 = n := BitVec.eq_of_toNat_eq (by simp only [bf, BitVec.toNat_ofNat]; omega)
  rw [decodeAddress, opcode]
  exact (pick_reserved middle rfl rfl).trans (by rw [pointer, number])

namespace Machine

/-! ## The advance of a pointer (R44, R154) -/

/-- A pointer without a wrap window may always advance; with one, its address must lie in the window, and a P window in one core (R44). -/
theorem Pointer.usable_iff (x : Pointer) (code : Nat) : x.usable code = true ↔ x.wrap = 0 ∨
    (x.wbase.toNat ≤ x.addr.toNat ∧ x.addr.toNat < x.wbase.toNat + x.wrap.toNat ∧
      (16 ≤ code ∨ x.wbase.toNat / 2 ^ 21 = (x.wbase.toNat + x.wrap.toNat - 1) / 2 ^ 21)) := by
  simp [Pointer.usable, and_assoc]

theorem Pointer.advance_of_unwrapped {x : Pointer} (unwrapped : x.wrap = 0) (span n : Nat) :
    x.advance span n = BitVec.ofInt 28 (((x.addr.toNat : Int) + n * x.step.toInt) % span) := by
  rw [Pointer.advance, if_pos unwrapped, Int.mul_comm]

theorem Pointer.advance_of_wrapped {x : Pointer} (wrapped : x.wrap ≠ 0) (span n : Nat) :
    x.advance span n = BitVec.ofInt 28 (x.wbase.toNat + ((x.addr.toNat : Int) - x.wbase.toNat + n * x.step.toInt) % x.wrap.toNat) := by
  rw [Pointer.advance, if_neg wrapped, Int.mul_comm]

theorem exec_padv (s : State) (p : BitVec 5) (n : BitVec 16) : exec (.padv p n) s =
    s.issue none (s.sys.range (n != 0 && (s.sys.here.pointer p.toNat).usable p.toNat)) fun y => y.advance p.toNat n.toNat := rfl

/-- A PADV within its limits sets the address of its pointer and nothing else (R154). -/
theorem padv_changes {s : State} {p : BitVec 5} {n : BitVec 16} {x : Pointer} {addr : BitVec 28} (named : s.sys.here.pointer p.toNat = x)
    (steps : n ≠ 0) (usable : x.usable p.toNat = true) (moves : x.advance (s.sys.here.pointerSpan p.toNat) n.toNat = addr) :
    Changes (.padv p n) s fun k => { k with regs := { k.regs with ptr := vset k.regs.ptr p.toNat { x with addr := addr } } } := by
  subst named moves
  exact (runs_of_issue (exec_padv s p n) rfl (Sys.range_eq_nil (by rw [usable, bne_iff_ne.mpr steps]; rfl))).congr rfl

/-! ## O33 -/

/-- Settles O33: the word by its reserved bits, the new address with and without a wrap window, and the two breaches. -/
theorem pointerAdvance : Obligations.PointerAdvance := by
  unfold Obligations.PointerAdvance
  refine ⟨⟨rfl, decodeAddress_padv⟩, fun s p n => ?_⟩
  intro x m inWindow sets
  have usable_iff : x.usable p.toNat = true ↔ x.wrap = 0 ∨ inWindow := x.usable_iff p.toNat
  have span : s.sys.here.pointerSpan p.toNat = m := by
    simp only [m]
    split
    · next low => rw [Ctx.pointerSpan, if_pos low]
    · rfl
  refine ⟨fun steps unwrapped => ?plain, fun steps wrapped inside => ?window, fun none_asked => ?rest, fun wrapped outside => ?outside⟩
  case plain => exact padv_changes rfl steps (usable_iff.mpr (.inl unwrapped)) (span ▸ Pointer.advance_of_unwrapped unwrapped _ _)
  case window => exact padv_changes rfl steps (usable_iff.mpr (.inr inside)) (Pointer.advance_of_wrapped wrapped _ _)
  case rest => exact breaksLimit_of_issue (exec_padv s p n) rfl (Sys.range_eq_fault (by rw [none_asked]; rfl))
  case outside =>
    have unusable : x.usable p.toNat = false := Bool.eq_false_iff.mpr (mt usable_iff.mp (not_or_intro wrapped outside))
    exact breaksLimit_of_issue (exec_padv s p n) rfl (Sys.range_eq_fault (by rw [unusable, Bool.and_false]))

/-! ## O36 -/

/-- Context 0 of core 0 awaits a probe of address 0, which is due; die 0 has a table for it, whose first entry lies in a poisoned word (R274, R341). -/
def poisonedProbe : State :=
  { mem := [],
    sys := ({ poison := [farKey 0 0 / 8], pkg := { owners := vset (Vector.replicate 5 {}) 0 { ptb := 1 } } } : Sys).modCtx 0 0 fun k =>
      { k with probe := vset k.probe 0 (some 0) } }

/-- When the result lands, the lodge that met the poison is to be told of: the package has changed beyond the owner's translations (R341, log 43). -/
theorem poisonedProbe_strikes_walker : ∃ t, exec (.xlatResult 0 0 0) poisonedProbe = .next t ∧ t.sys.pkg.walked = [walker 0] :=
  ⟨_, rfl, by decide⟩

/-- Refutes O36: a probe whose walk meets a poisoned table entry also strikes the controller that walks, which is no change of the owner's translations. -/
theorem not_translationProbe : ¬ Obligations.TranslationProbe := by
  unfold Obligations.TranslationProbe
  intro holds
  obtain ⟨-, -, results⟩ := holds poisonedProbe 0 0
  obtain ⟨-, lands, -⟩ := results 0 0 (by decide)
  obtain ⟨v, owners, -, -, landed⟩ := lands (by decide) (by decide) (by rintro ⟨e, due, -⟩; exact List.not_mem_nil due)
  obtain ⟨t, next, struck⟩ := poisonedProbe_strikes_walker
  rw [landed] at next
  cases next
  have told : poisonedProbe.sys.pkg.walked = [walker 0] := struck
  exact absurd told (by decide)

end Machine
end Sys2Proof
end

section
/-! PROOFS. The dispatch of the tile memory engine's twelve forms and of the six copies (R189, R190, R192 to R194, R196, R197, R322). -/

namespace Sys2Proof.Machine

/-! ## The address that a breach concerns -/

@[simp] theorem badAddress_nil : badAddress [] = 0 := rfl

@[simp] theorem badAddress_cons (ok : Bool) (a : Word) (l : List (Bool × Word)) :
    badAddress ((ok, a) :: l) = if ok = true then badAddress l else a := by
  cases ok <;> rfl

theorem BreaksLimit.of_eq {i : Instr} {s : State} {cls code : Nat} {far far' : Word} (breaks : BreaksLimit i s cls code far) (same : far = far') :
    BreaksLimit i s cls code far' := same ▸ breaks

/-! ## Limits that several forms share -/

theorem ownScratch_iff (g a : Nat) : ownScratch g a = true ↔ a / 2 ^ 21 % 128 = g % 128 := beq_iff_eq

theorem Ctx.tsOk_iff (k : Ctx) (v : Word) : k.tsOk v = true ↔
    1 ≤ tsRows v ∧ tsRows v ≤ 256 ∧ tsRow0 v + tsRows v ≤ tileRows (tsWidth v) ∧ tsTile v < k.win.vwin / 4 := by
  simp [Ctx.tsOk, and_assoc]

theorem Ctx.tcOk_iff (k : Ctx) (n : Nat) : k.tcOk n = true ↔ n < k.win.tcount := decide_eq_true_iff

theorem Ctx.ts4Ok_iff (k : Ctx) (v : Word) : k.ts4Ok v = true ↔ fld v 11 3 < 6 ∧ fld v 0 6 < k.win.tcount := by
  simp [Ctx.ts4Ok, Ctx.tcOk_iff]

theorem lengthOk_iff (n : Nat) : lengthOk n = true ↔ n % 64 = 0 ∧ 64 ≤ n ∧ n ≤ 2 ^ 30 := by
  simp [lengthOk, and_assoc]

/-! ## Rows of a tile (R190, R192) -/

theorem Ctx.rowsOk_iff (k : Ctx) :
    let st := k.staged .tm
    let ts := st.getD 2 0
    k.rowsOk = true ↔ fld (st.getD 0 0) 0 6 = 0 ∧ fld (st.getD 1 0) 0 6 = 0 ∧ 1 ≤ tsRows ts ∧ tsRows ts ≤ 256 ∧
      tsRow0 ts + tsRows ts ≤ tileRows (tsWidth ts) ∧ tsTile ts < k.win.vwin / 4 ∧ fld (st.getD 4 0) 11 3 < 6 ∧ fld (st.getD 4 0) 0 6 < k.win.tcount := by
  simp [Ctx.rowsOk, Ctx.tsOk_iff, Ctx.ts4Ok_iff, and_assoc]

theorem Ctx.rowsFar_eq (k : Ctx) : k.rowsFar = if fld ((k.staged .tm).getD 0 0) 0 6 = 0 then 0 else (k.staged .tm).getD 0 0 := by
  simp [Ctx.rowsFar]

section
variable {s : State} {t : BitVec 16} (room : Room s .tm) (free : FreeAt s .tm t.toNat)
include room free

section
variable (inside : s.sys.cur.ctx < 4) (within : s.sys.here.rowsOk = true)
include inside within

theorem tld_completes : ∃ u, exec (.tld t) s = .next u ∧
    Dispatched (.tld t) s u .tm t.toNat [] [] [tsTile (vget s.sys.here.regs.staging 18)] id [] := by
  have row : exec (.tld t) s = execTld t s := rfl
  exact Dispatch.completes room row rfl rfl (fun _ => free) (Sys.range_eq_nil within) inside nofun rfl

theorem tst_completes (c : BitVec 1) (e : BitVec 8) : ∃ u, exec (.tst c e t) s = .next u ∧
    Dispatched (.tst c e t) s u .tm t.toNat [] [tsTile (vget s.sys.here.regs.staging 18)] [] id [] := by
  have row : exec (.tst c e t) s = execTst c e t s := rfl
  exact Dispatch.completes room row rfl rfl (fun _ => free) (Sys.range_eq_nil within) inside nofun rfl

end

section
variable (beyond : s.sys.here.rowsOk = false)
include beyond

theorem tld_breaks : BreaksLimit (.tld t) s 3 1 s.sys.here.rowsFar := by
  have row : exec (.tld t) s = execTld t s := rfl
  exact Dispatch.breaks room row rfl (fun _ => free) (Sys.range_eq_fault beyond)

theorem tst_breaks (c : BitVec 1) (e : BitVec 8) : BreaksLimit (.tst c e t) s 3 1 s.sys.here.rowsFar := by
  have row : exec (.tst c e t) s = execTst c e t s := rfl
  exact Dispatch.breaks room row rfl (fun _ => free) (Sys.range_eq_fault beyond)

end

/-! ## Words (R190, R193, R194) -/

section
variable {i : Instr} {gate : Nat} (row : exec i s = s.wordAccess i gate) (delay : wordDelay i = t.toNat)
include row delay

theorem wordAccess_completes (inside : s.sys.cur.ctx < 4) (within : s.sys.here.wordOk s.sys.cur.core (wordBytes i) = true) :
    ∃ u, exec i s = .next u ∧ Dispatched i s u .tm t.toNat [] [] [] id [] := by
  rw [← delay] at free ⊢
  exact Dispatch.completes room row rfl rfl (fun _ => free) (Sys.range_eq_nil within) inside nofun rfl

theorem wordAccess_breaks (beyond : s.sys.here.wordOk s.sys.cur.core (wordBytes i) = false) :
    BreaksLimit i s 3 1 (s.sys.here.wordFar s.sys.cur.core (wordBytes i)) := by
  rw [← delay] at free
  exact Dispatch.breaks room row rfl (fun _ => free) (Sys.range_eq_fault beyond)

end

end

/-- The ten forms that move or change one word of `w`'s size (R193, R194). -/
def wordForms (w : BitVec 1) (t : BitVec 16) : List Instr :=
  [.ldw w t, .stw w t, .atomAdd w t, .atomMin w t, .atomMax w t, .atomAnd w t, .atomOr w t, .atomXor w t, .atomSwap w t, .atomCas w t]

theorem exec_wordForms {w : BitVec 1} {t : BitVec 16} {i : Instr} (form : i ∈ wordForms w t) (s : State) :
    (∃ gate, exec i s = s.wordAccess i gate) ∧ wordDelay i = t.toNat ∧ wordBytes i = if w = 1 then 8 else 4 := by
  simp only [wordForms, List.mem_cons, List.not_mem_nil, or_false] at form
  rcases form with rfl | rfl | rfl | rfl | rfl | rfl | rfl | rfl | rfl | rfl <;> exact ⟨⟨_, rfl⟩, rfl, rfl⟩

theorem Ctx.wordOk_iff (k : Ctx) (g n : Nat) :
    let st := k.staged .tm
    let pad := fld (st.getD 1 0) 0 28
    k.wordOk g n = true ↔ (st.getD 0 0).toNat % n = 0 ∧ (pad % 8 = 0 ∧ pad / 2 ^ 21 % 128 = g % 128) ∧
      fld (st.getD 4 0) 11 3 < 6 ∧ fld (st.getD 4 0) 0 6 < k.win.tcount := by
  simp [Ctx.wordOk, ownScratch_iff, Ctx.ts4Ok_iff, and_assoc]

theorem Ctx.wordFar_eq (k : Ctx) (g n : Nat) :
    let st := k.staged .tm
    let pad := fld (st.getD 1 0) 0 28
    k.wordFar g n = if (st.getD 0 0).toNat % n = 0 then if pad % 8 = 0 ∧ pad / 2 ^ 21 % 128 = g % 128 then 0 else BitVec.ofNat 64 pad else st.getD 0 0 := by
  simp [Ctx.wordFar, ownScratch_iff]

/-! ## Copies (R196, R197) -/

section
variable {s : State} (room : Room s .cp) {i : Instr} {delay : Nat} {reads writes : List Nat} (row : exec i s = s.copy i delay reads writes)
include room row

theorem copy_completes (inside : s.sys.cur.ctx < 4) (within : s.sys.here.copyOk i = true) :
    ∃ u, exec i s = .next u ∧ Dispatched i s u .cp delay [] reads writes id [] :=
  Dispatch.completes room row rfl rfl nofun (Sys.range_eq_nil within) inside nofun rfl

theorem copy_breaks (beyond : ¬ s.sys.here.copyOk i = true) : BreaksLimit i s 3 1 (s.sys.here.copyFar i) :=
  Dispatch.breaks room row rfl nofun (Sys.range_eq_fault (Bool.eq_false_iff.mpr beyond))

end

/-! ## Limits of each copy (R189, R196, R197, R322) -/

section
variable (k : Ctx) (c : BitVec 1) (e : BitVec 8) (t : BitVec 16)

theorem Ctx.copyOk_cpy_iff :
    let st := k.staged .cp
    let n := fld (st.getD 2 0) 0 32
    k.copyOk (.cpy t) = true ↔
      fld (st.getD 4 0) 0 6 < k.win.tcount ∧ fld (st.getD 0 0) 0 6 = 0 ∧ fld (st.getD 1 0) 0 6 = 0 ∧ n % 64 = 0 ∧ 64 ≤ n ∧ n ≤ 2 ^ 30 := by
  simp [Ctx.copyOk, Ctx.tcOk_iff, lengthOk_iff, and_assoc]

theorem Ctx.copyOk_cpys_iff :
    let st := k.staged .cp
    let n := fld (st.getD 2 0) 0 32
    let count := fld (st.getD 2 0) 32 32
    k.copyOk (.cpys t) = true ↔
      fld (st.getD 4 0) 0 6 < k.win.tcount ∧ fld (st.getD 0 0) 0 6 = 0 ∧ fld (st.getD 1 0) 0 6 = 0 ∧ (n % 64 = 0 ∧ 64 ≤ n ∧ n ≤ 2 ^ 30) ∧
      (1 ≤ count ∧ count ≤ 65535) ∧ fld (st.getD 3 0) 0 6 = 0 ∧ fld (st.getD 3 0) 32 6 = 0 := by
  simp [Ctx.copyOk, Ctx.tcOk_iff, lengthOk_iff, and_assoc]

theorem Ctx.copyOk_cpyg_iff :
    let st := k.staged .cp
    let n := fld (st.getD 2 0) 0 32
    let count := fld (st.getD 2 0) 32 32
    k.copyOk (.cpyg t) = true ↔
      fld (st.getD 4 0) 0 6 < k.win.tcount ∧ fld (st.getD 0 0) 0 6 = 0 ∧ fld (st.getD 1 0) 0 6 = 0 ∧ (n % 64 = 0 ∧ 64 ≤ n ∧ n ≤ 2 ^ 30) ∧
      (1 ≤ count ∧ count ≤ 65535) ∧ ownerCode (st.getD 0 0) ≤ 3 ∧ bit (st.getD 4 0) 7 = false := by
  simp [Ctx.copyOk, Ctx.tcOk_iff, lengthOk_iff, and_assoc]

theorem Ctx.copyOk_cpyr_iff :
    let st := k.staged .cp
    let ts := st.getD 2 0
    k.copyOk (.cpyr t) = true ↔ fld (st.getD 4 0) 0 6 < k.win.tcount ∧ fld (st.getD 0 0) 0 6 = 0 ∧
      (1 ≤ tsRows ts ∧ tsRows ts ≤ 256 ∧ tsRow0 ts + tsRows ts ≤ tileRows (tsWidth ts) ∧ tsTile ts < k.win.vwin / 4) ∧ fld (st.getD 3 0) 0 6 = 0 := by
  simp [Ctx.copyOk, Ctx.tcOk_iff, Ctx.tsOk_iff, and_assoc]

theorem Ctx.copyOk_cpyst_iff :
    let st := k.staged .cp
    let ts := st.getD 2 0
    k.copyOk (.cpyst c e t) = true ↔ fld (st.getD 4 0) 0 6 < k.win.tcount ∧ fld (st.getD 1 0) 0 6 = 0 ∧
      (1 ≤ tsRows ts ∧ tsRows ts ≤ 256 ∧ tsRow0 ts + tsRows ts ≤ tileRows (tsWidth ts) ∧ tsTile ts < k.win.vwin / 4) ∧ fld (st.getD 3 0) 0 6 = 0 := by
  simp [Ctx.copyOk, Ctx.tcOk_iff, Ctx.tsOk_iff, and_assoc]

theorem Ctx.copyOk_cpyf_iff :
    let st := k.staged .cp
    let n := fld (st.getD 2 0) 0 32
    k.copyOk (.cpyf t) = true ↔ fld (st.getD 4 0) 0 6 < k.win.tcount ∧ fld (st.getD 1 0) 0 6 = 0 ∧ n % 64 = 0 ∧ 64 ≤ n ∧ n ≤ 2 ^ 30 := by
  simp [Ctx.copyOk, Ctx.tcOk_iff, lengthOk_iff]

/-! ## The address of a copy's breach (R322) -/

/-- The destination, where it is not a multiple of 64, else 0. -/
def Ctx.dstFar : Word := if fld ((k.staged .cp).getD 1 0) 0 6 = 0 then 0 else (k.staged .cp).getD 1 0

theorem Ctx.copyFar_of_ends {i : Instr} (ends : i = .cpy t ∨ i = .cpys t) :
    k.copyFar i = if fld ((k.staged .cp).getD 0 0) 0 6 = 0 then k.dstFar else (k.staged .cp).getD 0 0 := by
  rcases ends with rfl | rfl <;> simp [Ctx.copyFar, Ctx.dstFar]

theorem Ctx.copyFar_cpyg : k.copyFar (.cpyg t) =
    if fld ((k.staged .cp).getD 0 0) 0 6 = 0 ∧ ownerCode ((k.staged .cp).getD 0 0) ≤ 3 then k.dstFar else (k.staged .cp).getD 0 0 := by
  simp [Ctx.copyFar, Ctx.dstFar]

theorem Ctx.copyFar_cpyr : k.copyFar (.cpyr t) = if fld ((k.staged .cp).getD 0 0) 0 6 = 0 then 0 else (k.staged .cp).getD 0 0 := by
  simp [Ctx.copyFar]

/-- CPYST and CPYF have no source address. -/
theorem Ctx.copyFar_of_dst {i : Instr} (dst : i = .cpyst c e t ∨ i = .cpyf t) : k.copyFar i = k.dstFar := by
  rcases dst with rfl | rfl <;> simp [Ctx.copyFar, Ctx.dstFar]

end

/-! ## O41 -/

/-- Settles O41: each form within its limits is a dispatch that completes, and beyond them a fault for the address concerned. -/
theorem tileMemoryAndCopyDispatch : Obligations.TileMemoryAndCopyDispatch := by
  unfold Obligations.TileMemoryAndCopyDispatch
  refine ⟨fun s c w e t => ?tileMemory, fun s c e t => ?copies⟩
  case tileMemory =>
    intro y k st tile rows pad order vaOk padOk rowsOk words inside room free
    have rows_iff : k.rowsOk = true ↔ rowsOk := k.rowsOk_iff
    have word_iff : k.wordOk y.cur.core (if w = 1 then 8 else 4) = true ↔ vaOk ∧ padOk ∧ order := k.wordOk_iff _ _
    refine ⟨fun limits => ?rows, fun va place ordered i form => ?words, fun breach => ?rowsBreak, fun i form => ?wordsBreak⟩
    case rows => exact ⟨tld_completes room free inside (rows_iff.mpr limits), tst_completes room free inside (rows_iff.mpr limits) c e⟩
    case words =>
      obtain ⟨⟨gate, row⟩, delay, bytes⟩ := exec_wordForms form s
      exact wordAccess_completes room free row delay inside (bytes ▸ word_iff.mpr ⟨va, place, ordered⟩)
    case rowsBreak =>
      have beyond : k.rowsOk = false := Bool.eq_false_iff.mpr (mt rows_iff.mp breach)
      exact ⟨(tld_breaks room free beyond).of_eq k.rowsFar_eq, (tst_breaks room free beyond c e).of_eq k.rowsFar_eq⟩
    case wordsBreak =>
      obtain ⟨⟨gate, row⟩, delay, bytes⟩ := exec_wordForms form s
      have breaks (breach : ¬ (vaOk ∧ padOk ∧ order)) : BreaksLimit i s 3 1 (k.wordFar y.cur.core (if w = 1 then 8 else 4)) :=
        bytes ▸ wordAccess_breaks room free row delay (bytes ▸ Bool.eq_false_iff.mpr (mt word_iff.mp breach))
      have far := k.wordFar_eq y.cur.core (if w = 1 then 8 else 4)
      refine ⟨fun va => ?address, fun va place => ?pad, fun va place disordered => ?rest⟩
      case address => exact (breaks fun ⟨aligned, _⟩ => va aligned).of_eq (far.trans (if_neg va))
      case pad => exact (breaks fun ⟨_, inPad, _⟩ => place inPad).of_eq (far.trans ((if_pos va).trans (if_neg place)))
      case rest => exact (breaks fun ⟨_, _, ordered⟩ => disordered ordered).of_eq (far.trans ((if_pos va).trans (if_pos place)))
  case copies =>
    intro y k st n count tile rows src dst stack len cnt rowsOk tc cpyOk cpysOk cpygOk cpyrOk cpystOk cpyfOk atDst atSrc inside room
    have cpy_iff : k.copyOk (.cpy t) = true ↔ cpyOk := k.copyOk_cpy_iff t
    have cpys_iff : k.copyOk (.cpys t) = true ↔ cpysOk := k.copyOk_cpys_iff t
    have cpyg_iff : k.copyOk (.cpyg t) = true ↔ cpygOk := k.copyOk_cpyg_iff t
    have cpyr_iff : k.copyOk (.cpyr t) = true ↔ cpyrOk := k.copyOk_cpyr_iff t
    have cpyst_iff : k.copyOk (.cpyst c e t) = true ↔ cpystOk := k.copyOk_cpyst_iff c e t
    have cpyf_iff : k.copyOk (.cpyf t) = true ↔ cpyfOk := k.copyOk_cpyf_iff t
    refine ⟨fun ok => copy_completes room rfl inside (cpy_iff.mpr ok), fun ok => copy_completes room rfl inside (cpys_iff.mpr ok),
      fun ok => copy_completes room rfl inside (cpyg_iff.mpr ok), fun ok => copy_completes room rfl inside (cpyr_iff.mpr ok),
      fun ok => copy_completes room rfl inside (cpyst_iff.mpr ok), fun ok => copy_completes room rfl inside (cpyf_iff.mpr ok),
      fun bad => ?cpy, fun bad => ?cpys, fun bad => ?cpyg, fun bad => ?cpyr, fun bad => ?cpyst, fun bad => ?cpyf⟩
    case cpy => exact (copy_breaks room rfl (mt cpy_iff.mp bad)).of_eq (k.copyFar_of_ends t (.inl rfl))
    case cpys => exact (copy_breaks room rfl (mt cpys_iff.mp bad)).of_eq (k.copyFar_of_ends t (.inr rfl))
    case cpyg =>
      have breaks := copy_breaks room rfl (mt cpyg_iff.mp bad)
      have far := k.copyFar_cpyg t
      exact ⟨fun aligned owned => breaks.of_eq (far.trans (if_pos ⟨aligned, owned⟩)), fun misplaced => breaks.of_eq (far.trans (if_neg misplaced))⟩
    case cpyr => exact (copy_breaks room rfl (mt cpyr_iff.mp bad)).of_eq (k.copyFar_cpyr t)
    case cpyst => exact (copy_breaks room rfl (mt cpyst_iff.mp bad)).of_eq (k.copyFar_of_dst c e t (.inl rfl))
    case cpyf => exact (copy_breaks room rfl (mt cpyf_iff.mp bad)).of_eq (k.copyFar_of_dst c e t (.inr rfl))

end Sys2Proof.Machine
end

section
/-! PROOFS. The dispatch of the dot engine's six forms (R206 to R209, R322). -/

namespace Sys2Proof.Machine

/-- A limit on one address alone. -/
theorem badAddress_decide (p : Prop) [Decidable p] (a : Word) : badAddress [(decide p, a)] = if p then 0 else a := by simp

/-! ## Limits of the dot engine's staging registers (R206) -/

theorem Ctx.rowsInWindow_iff (k : Ctx) (d : Word) :
    k.rowsInWindow d = true ↔ (k.pointer (dsOp d)).addr.toNat + dsM d * rowOfA d ≤ k.win.opmem := decide_eq_true_iff

theorem Ctx.entriesInWindow_iff (k : Ctx) (d : Word) : k.entriesInWindow d = true ↔
    ∀ g < 8, bit d (40 + g) = true → (k.pointer (dsCp d)).addr.toNat + 128 * (dsM d - 1) + 16 * (g + 1) ≤ k.win.accmem := by
  simp only [Ctx.entriesInWindow, List.all_eq_true, List.mem_range, Bool.or_eq_true, Bool.not_eq_true', decide_eq_true_iff]
  refine forall₂_congr fun g inside => ?_
  cases bit d (40 + g) with
  | false => exact iff_of_true (.inl rfl) nofun
  | true => exact ⟨fun fits _ => fits.resolve_left nofun, fun fits => .inr (fits rfl)⟩

theorem Ctx.dotOk_iff (k : Ctx) (d : Word) : k.dotOk d = true ↔
    dsMask d ≠ 0 ∧ fld d 12 3 ≤ 6 ∧ fld d 9 3 ≤ 6 ∧ 1 ≤ fld d 32 4 ∧ fld d 32 4 ≤ 8 ∧ fld d 4 5 ≤ 4 ∧ dsK d ≤ tileRows (dsFmt d).width ∧
      dsSrc d < k.win.vwin / 4 ∧ dsM d ≤ 128 ∧ k.rowsInWindow d = true ∧ k.entriesInWindow d = true := by
  simp [Ctx.dotOk, and_assoc]

theorem Ctx.dotFar_eq (k : Ctx) (d : Word) : k.dotFar d =
    if k.rowsInWindow d = true then if k.entriesInWindow d = true then 0 else BitVec.ofNat 64 (k.pointer (dsCp d)).addr.toNat
    else BitVec.ofNat 64 (k.pointer (dsOp d)).addr.toNat := by
  simp [Ctx.dotFar]

theorem ds4Ok_iff (g : Nat) (d : Word) : ds4Ok g d = true ↔
    1 ≤ ds4Blocks d ∧ ds4Blocks d ≤ 2048 ∧ ds4Addr d % 64 = 0 ∧ ds4Addr d / 2 ^ 21 % 128 = g % 128 ∧ localOff (ds4Addr d) + 64 * ds4Blocks d ≤ 2 ^ 21 := by
  simp [ds4Ok, ownScratch_iff, and_assoc]

/-- A breach on the scratchpad side is reported first (R322). -/
theorem ds4Far_of_pad {g : Nat} {d : Word} (outside : ds4Ok g d = false) (fits : Bool) (a : Nat) : ds4Far g d fits a = BitVec.ofNat 64 (ds4Addr d) := by
  simp [ds4Far, outside]

/-- An advance that DS4 asks for is of a pointer inside its wrap window (R44, R206). -/
theorem Ctx.advance_allowed_iff (k : Ctx) (asked : Bool) (code : Nat) :
    (!asked || k.advanceOk code) = true ↔ (asked = true → (k.pointer code).usable code = true) := by
  cases asked <;> simp [Ctx.advanceOk]

/-- Limits of DDRAIN (R208). -/
def Ctx.drainOk (k : Ctx) (n : BitVec 2) (d : Word) : Bool :=
  (if n = 2 then ds2Fmt d == 14 else decide (ds2Fmt d ≤ 4)) && decide (ds2Rows d ≤ (if drainWidth d = 32 then 64 else 128)) &&
    decide (ds2Dst d < k.win.vwin / 4) && decide ((k.pointer (ds2Cp d)).addr.toNat + 128 * ds2Rows d ≤ k.win.accmem)

theorem Ctx.drainOk_iff (k : Ctx) (n : BitVec 2) (d : Word) : k.drainOk n d = true ↔
    (if n = 2 then ds2Fmt d = 14 else ds2Fmt d ≤ 4) ∧ ds2Rows d ≤ (if drainWidth d = 32 then 64 else 128) ∧ ds2Dst d < k.win.vwin / 4 ∧
      (k.pointer (ds2Cp d)).addr.toNat + 128 * ds2Rows d ≤ k.win.accmem := by
  by_cases counts : n = 2 <;> simp [Ctx.drainOk, counts, and_assoc]

/-! ## What each form does -/

/-- What DCFG and DSTAT dispatch: blocks between the scratchpad and the engine memory at pointer `code`, where they fit or not (R206, R209). -/
def blocksDispatch (y : Sys) (i : Instr) (code : Nat) (fits : Bool) (delay : Nat) : Dispatch :=
  let k := y.here
  let d := (k.staged .dot).getD 4 0
  let a := (k.pointer code).addr.toNat
  { eng := .dot, instr := i, delay := delay, stg := k.staged .dot, ptrs := [a], advances := if bit d 46 then [code] else [],
    occ := some (ds4Blocks d), faults := y.range (ds4Ok y.cur.core d && fits && (!bit d 46 || k.advanceOk code)) (ds4Far y.cur.core d fits a) }

section
variable {s : State} {t : BitVec 16} (room : Room s .dot) (free : FreeAt s .dot t.toNat)
include room free

/-! ### DOT and DOTA (R207) -/

section
variable {i : Instr} (row : exec i s = s.dotCommand i t.toNat)
include row

theorem dotCommand_completes (inside : s.sys.cur.ctx < 4) :
    let k := s.sys.here
    let d := vget k.regs.staging 8
    k.dotOk d = true → ∃ u, exec i s = .next u ∧
      Dispatched i s u .dot t.toNat [(k.pointer (dsOp d)).addr.toNat, (k.pointer (dsCp d)).addr.toNat] [dsSrc d] [] id [] :=
  fun within => Dispatch.completes room row rfl rfl (fun _ => free) (Sys.range_eq_nil within) inside nofun rfl

theorem dotCommand_breaks :
    let d := vget s.sys.here.regs.staging 8
    s.sys.here.dotOk d = false → BreaksLimit i s 3 1 (s.sys.here.dotFar d) :=
  fun beyond => Dispatch.breaks room row rfl (fun _ => free) (Sys.range_eq_fault beyond)

end

/-! ### DCFG and DSTAT (R209) -/

section
variable {i : Instr} {code : Nat} {fits : Bool} (row : exec i s = s.dispatch (blocksDispatch s.sys i code fits t.toNat))
include row

theorem blocks_complete (inside : s.sys.cur.ctx < 4) (fit : fits = true) :
    let k := s.sys.here
    let d := vget k.regs.staging 12
    ds4Ok s.sys.cur.core d = true → (bit d 46 = true → (k.pointer code).usable code = true) →
      ∃ u, exec i s = .next u ∧
        Dispatched i s u .dot t.toNat [(k.pointer code).addr.toNat] [] [] (advanced k (if bit d 46 then [code] else [])) [] := by
  intro k d pad movable
  have met : (ds4Ok s.sys.cur.core d && fits && (!bit d 46 || k.advanceOk code)) = true := by
    rw [pad, fit, (k.advance_allowed_iff _ code).mpr movable]; rfl
  exact Dispatch.completes room row rfl rfl (fun _ => free) (Sys.range_eq_nil met) inside nofun rfl

/-- Blocks that the scratchpad side does not allow are a fault for its address (R322). -/
theorem blocks_break :
    let d := vget s.sys.here.regs.staging 12
    ds4Ok s.sys.cur.core d = false → BreaksLimit i s 3 1 (BitVec.ofNat 64 (ds4Addr d)) := by
  intro d outside
  have broken : (ds4Ok s.sys.cur.core d && fits && (!bit d 46 || s.sys.here.advanceOk code)) = false := by rw [outside]; rfl
  exact (Dispatch.breaks room row rfl (fun _ => free) (Sys.range_eq_fault broken)).of_eq (ds4Far_of_pad outside fits _)

end

/-! ### DDRAIN (R208) -/

section
variable {n : BitVec 2}

theorem ddrain_completes (inside : s.sys.cur.ctx < 4) :
    let k := s.sys.here
    let d := vget k.regs.staging 10
    k.drainOk n d = true → ∃ u, exec (.ddrain n t) s = .next u ∧
      Dispatched (.ddrain n t) s u .dot t.toNat [(k.pointer (ds2Cp d)).addr.toNat] [] [ds2Dst d] id [] := by
  have row : exec (.ddrain n t) s = execDdrain n t s := rfl
  exact fun within => Dispatch.completes room row rfl rfl (fun _ => free) (Sys.range_eq_nil within) inside nofun rfl

theorem ddrain_breaks :
    let k := s.sys.here
    let d := vget k.regs.staging 10
    let a := (k.pointer (ds2Cp d)).addr.toNat
    k.drainOk n d = false → BreaksLimit (.ddrain n t) s 3 1 (if a + 128 * ds2Rows d ≤ k.win.accmem then 0 else BitVec.ofNat 64 a) := by
  have row : exec (.ddrain n t) s = execDdrain n t s := rfl
  exact fun beyond => (Dispatch.breaks room row rfl (fun _ => free) (Sys.range_eq_fault beyond)).of_eq (badAddress_decide _ _)

end

/-! ### DCLR (R209) -/

theorem dclr_completes (inside : s.sys.cur.ctx < 4) :
    let k := s.sys.here
    let d := vget k.regs.staging 11
    let a := (k.pointer (28 + fld d 8 2)).addr.toNat
    a + 128 * (fld d 0 7 + 1) ≤ k.win.accmem → ∃ u, exec (.dclr t) s = .next u ∧ Dispatched (.dclr t) s u .dot t.toNat [a] [] [] id [] := by
  have row : exec (.dclr t) s = execDclr t s := rfl
  exact fun fit => Dispatch.completes room row rfl rfl (fun _ => free) (Sys.range_eq_nil (decide_eq_true fit)) inside nofun rfl

theorem dclr_breaks :
    let k := s.sys.here
    let d := vget k.regs.staging 11
    let a := (k.pointer (28 + fld d 8 2)).addr.toNat
    ¬ a + 128 * (fld d 0 7 + 1) ≤ k.win.accmem → BreaksLimit (.dclr t) s 3 1 (BitVec.ofNat 64 a) := by
  have row : exec (.dclr t) s = execDclr t s := rfl
  exact fun beyond => (Dispatch.breaks room row rfl (fun _ => free) (Sys.range_eq_fault (decide_eq_false beyond))).of_eq
    ((badAddress_decide _ _).trans (if_neg beyond))

end

/-! ## O43 -/

/-- Settles O43: each form within its limits is a dispatch that completes, and beyond them a fault for the address concerned. -/
theorem dotDispatch : Obligations.DotDispatch := by
  unfold Obligations.DotDispatch
  intro s c e t n y k ds addr d op cp kk m rowA rowsIn entriesIn dotOk stops x blocks pad padOk code4 moves usable z width dr drows drainIn drainOk q clrOk far
    inside room free
  have rows_iff : k.rowsInWindow d = true ↔ rowsIn := k.rowsInWindow_iff d
  have entries_iff : k.entriesInWindow d = true ↔ entriesIn := k.entriesInWindow_iff d
  have dot_iff : k.dotOk d = true ↔ dotOk := by rw [k.dotOk_iff, rows_iff, entries_iff]; exact Iff.rfl
  have pad_iff : ds4Ok y.cur.core x = true ↔ padOk := ds4Ok_iff _ x
  have drain_iff : k.drainOk n z = true ↔ drainOk := k.drainOk_iff n z
  have dcfg_row (sel : BitVec 2) : exec (.dcfg sel t) s = s.dispatch (blocksDispatch y (.dcfg sel t) (code4 (if sel = 0 then 24 else 28))
      (if sel = 0 then decide (addr (code4 (if sel = 0 then 24 else 28)) + 64 * blocks ≤ k.win.opmem)
        else decide (addr (code4 (if sel = 0 then 24 else 28)) + 8 * blocks ≤ k.win.accmem)) t.toNat) := rfl
  have dstat_row : exec (.dstat t) s =
      s.dispatch (blocksDispatch y (.dstat t) (code4 28) (decide (addr (code4 28) + 8 * blocks ≤ k.win.accmem)) t.toNat) := rfl
  refine ⟨fun limits => ?dot, fun breach => ?dotBreaks, fun place movable fit => ?operands, fun place movable fit => ?accumulators, fun misplaced => ?blocksBreak,
    fun limits => ddrain_completes room free inside (drain_iff.mpr limits), fun fit breach => ?drainLimits, fun unfit => ?drainWindow,
    fun fit => dclr_completes room free inside fit, fun unfit => dclr_breaks room free unfit⟩
  case dot => exact ⟨dotCommand_completes room free rfl inside (dot_iff.mpr limits), dotCommand_completes room free rfl inside (dot_iff.mpr limits)⟩
  case dotBreaks =>
    have beyond : k.dotOk d = false := Bool.eq_false_iff.mpr (mt dot_iff.mp breach)
    have both {far : Word} (same : k.dotFar d = far) : stops far :=
      ⟨(dotCommand_breaks room free rfl beyond).of_eq same, (dotCommand_breaks room free rfl beyond).of_eq same⟩
    have named := k.dotFar_eq d
    exact ⟨fun rows => both (named.trans (if_neg (mt rows_iff.mp rows))),
      fun rows entries => both (named.trans ((if_pos (rows_iff.mpr rows)).trans (if_neg (mt entries_iff.mp entries)))),
      fun rows entries => both (named.trans ((if_pos (rows_iff.mpr rows)).trans (if_pos (entries_iff.mpr entries))))⟩
  case operands => exact blocks_complete room free (dcfg_row 0) inside (decide_eq_true fit) (pad_iff.mpr place) movable
  case accumulators =>
    exact ⟨blocks_complete room free (dcfg_row 1) inside (decide_eq_true fit) (pad_iff.mpr place) movable,
      blocks_complete room free dstat_row inside (decide_eq_true fit) (pad_iff.mpr place) movable⟩
  case blocksBreak =>
    have outside : ds4Ok y.cur.core x = false := Bool.eq_false_iff.mpr (mt pad_iff.mp misplaced)
    exact ⟨blocks_break room free (dcfg_row n) outside, blocks_break room free dstat_row outside⟩
  case drainLimits => exact (ddrain_breaks room free (Bool.eq_false_iff.mpr (mt drain_iff.mp breach))).of_eq (if_pos fit)
  case drainWindow =>
    have beyond : k.drainOk n z = false := by
      refine Bool.eq_false_iff.mpr fun within => ?_
      obtain ⟨-, -, -, fit⟩ := drain_iff.mp within
      exact unfit fit
    exact (ddrain_breaks room free beyond).of_eq (if_neg unfit)

end Sys2Proof.Machine
end

section
/-! PROOFS. No step is refused: every row of the opcode table has a meaning, and a step that runs rows hands on what they answer (R222, R317). -/

namespace Sys2Proof.Machine

/-! ## Outcomes that are no refusal -/

/-- The outcome is the next state or a fault of the model: the row has a meaning. -/
inductive Meaningful : Host.Outcome State Fault Refusal → Prop
  | next (t : State) : Meaningful (.next t)
  | fault (f : Fault) : Meaningful (.fault f)

theorem Meaningful.ne_refused {o : Host.Outcome State Fault Refusal} (h : Meaningful o) (r : Refusal) : o ≠ .refused r := by
  rintro rfl; nomatch h

theorem Meaningful.ite {c : Prop} [Decidable c] {a b : Host.Outcome State Fault Refusal} (yes : Meaningful a) (no : Meaningful b) :
    Meaningful (if c then a else b) := by
  split
  · exact yes
  · exact no

/-! ## The shapes of the rows -/

section
variable (s : State)

theorem State.issue_meaningful (h : Option Bool) (c : List FaultRec) (e : Sys → Sys) : Meaningful (s.issue h c e) := by
  obtain ⟨t, goes⟩ := s.issue_goes_on h c e
  rw [goes]; exact .next t

theorem State.scalarOp_meaningful (l : List (BitVec 5)) (c : List FaultRec) (n : Nat) (d : BitVec 5) (v : Sys → Word) : Meaningful (s.scalarOp l c n d v) :=
  s.issue_meaningful ..

theorem State.int2_meaningful (n : Nat) (d a b : BitVec 5) (f : Word → Word → Word) : Meaningful (s.int2 n d a b f) := s.scalarOp_meaningful ..

theorem State.f32Op_meaningful (l : List (BitVec 5)) (o : BitVec 1) (m : BitVec 3) (d : BitVec 5) (f : Sys → Rm → Bool → Nat × Flags) :
    Meaningful (s.f32Op l o m d f) := by
  unfold State.f32Op
  exact s.issue_meaningful ..

/-- A word of a lane group without a meaning of its own still goes on. -/
theorem State.vector_meaningful (i : Instr) : Meaningful (s.vector i) := by
  unfold State.vector
  split
  · exact .next _
  · exact s.issue_meaningful ..

theorem State.dispatch_meaningful (d : Dispatch) : Meaningful (s.dispatch d) := s.issue_meaningful ..

theorem State.wordAccess_meaningful (i : Instr) (n : Nat) : Meaningful (s.wordAccess i n) := s.dispatch_meaningful _

theorem State.copy_meaningful (i : Instr) (n : Nat) (a b : List Nat) : Meaningful (s.copy i n a b) := s.dispatch_meaningful _

theorem State.dotCommand_meaningful (i : Instr) (n : Nat) : Meaningful (s.dotCommand i n) := s.dispatch_meaningful _

theorem State.orreryPass_meaningful (i : Instr) (k n : Nat) : Meaningful (s.orreryPass i k n) := s.dispatch_meaningful _

theorem State.transfer_meaningful (i : Instr) (r : Transfer) (a b : BitVec 1) : Meaningful (s.transfer i r a b) := by
  unfold State.transfer
  exact s.issue_meaningful ..

/-- The operation joins the queue at its dispatch, or the dispatch waits for a free slot (R214). -/
theorem State.queue_meaningful (d : Dispatch) (entry : Queued) : Meaningful (s.queue d entry) := by
  unfold State.queue
  extract_lets
  split
  · exact s.dispatch_meaningful _
  · exact s.issue_meaningful ..

theorem State.eventOn_meaningful (present : Bool) (e : Sys → Sys × List Write) : Meaningful (s.eventOn present e) :=
  .ite (.next _) (.fault _)

/-! ## The rows that choose between others -/

theorem execTileFaultRecordClear_meaningful (h : FaultHolder) : Meaningful (execTileFaultRecordClear h s) := by
  cases h with
  | context core ctx => exact s.eventOn_meaningful ..
  | window n => exact .next _

theorem execReadbackApertureWrite_meaningful (core : Nat) (off : BitVec 16) (bytes : List Byte) : Meaningful (execReadbackApertureWrite core off bytes s) :=
  .ite (.next _) (.fault _)

/-- A write of CCMD is the command it names, or the register takes it alone (R352). -/
theorem ccmdWritten_meaningful (g : Nat) (v : Word) : Meaningful (ccmdWritten g v s) := by
  unfold ccmdWritten
  extract_lets
  split
  · exact s.eventOn_meaningful ..
  · exact s.eventOn_meaningful ..
  · exact s.eventOn_meaningful ..
  · exact s.eventOn_meaningful ..
  · exact .next _

/-- A write of a register is a row of its own, an inspection, or nothing (R351, R357). -/
theorem State.writeRegister_meaningful (off : Nat) (v : Word) (be : BitVec 8) : Meaningful (s.writeRegister off v be) := by
  unfold State.writeRegister
  extract_lets
  -- The blocks of the window in their order: device, belvedere, window, lodge, hub, arbour, state registers, aperture, core, nothing.
  split
  case h_1 => exact .ite (.ite (.next _) (.next _)) (.next _)
  case h_2 => exact .ite (.next _) (.ite (.ite (.next _) (.next _)) (.ite (.next _) (.next _)))
  case h_3 => exact .ite (.next _) (.ite (.ite (.next _) (.next _)) (.next _))
  case h_4 =>
    refine .ite ?_ (.ite (.ite (.next _) (.next _)) (.next _))
    split
    · exact .next _
    · exact .next _
  case h_5 => exact .ite (.next _) (.ite (.ite (.next _) (.next _)) (.next _))
  case h_6 => exact .ite (.ite (.next _) (.next _)) (.ite (.next _) (.next _))
  case h_7 => exact .next _
  case h_8 => exact .next _
  case h_9 => exact .ite (.ite (s.eventOn_meaningful ..) (.next _)) (.ite (.ite (ccmdWritten_meaningful s ..) (.next _)) (.next _))
  case h_10 => exact .next _

end

/-! ## Every row -/

/-- Every row of the opcode table has a meaning: the arms by their shape. -/
theorem exec_meaningful (i : Instr) (s : State) : Meaningful (exec i s) := by
  cases i
  -- A slot's instruction is issued: it runs, holds or breaks a limit.
  case bra | bz | bnz | jr | loop | endl | breakLoop | waits | waitc | bar | fence | cti | rdst | wrst | tick | flrd | flclr | digest | yield | trap |
      eret | halt | nop | movx | limm | movStaging | ld | st | pset | pstep | pwin | padv | spcfg | sprst | xlat | xclr | orest =>
    simp only [exec, execBra, execBz, execBnz, execJr, execLoop, execEndl, execBreakLoop, execWaits, execWaitc, execBar, execFence, execCti, execRdst,
      execWrst, execTick, execFlrd, execFlclr, execDigest, execYield, execTrap, execEret, execHalt, execNop, execMovx, execLimm, execMovStaging, execLd,
      execSt, execPset, execPstep, execPwin, execPadv, execSpcfg, execSprst, execXlat, execXclr, execOrest, State.issue_meaningful]
  case addImm | andImm | shlImm | shrImm | brev | popc | mov =>
    simp only [exec, execAddImm, execAndImm, execShlImm, execShrImm, execBrev, execPopc, execMov, State.scalarOp_meaningful]
  case add | sub | and | or | xor | shl | shr | sar | min | max | cmpeq | cmplt | cmpltu | mul | mulh | clmul | clmulh =>
    simp only [exec, execAdd, execSub, execAnd, execOr, execXor, execShl, execShr, execSar, execMin, execMax, execCmpeq, execCmplt, execCmpltu, execMul,
      execMulh, execClmul, execClmulh, State.int2_meaningful]
  case fadd | fmul | fma | fcmp | fcvt =>
    simp only [exec, execFadd, execFmul, execFma, execFcmp, execFcvt, State.f32Op_meaningful]
  case vaddF | vsubF | vmulF | vfmaF | vfmsF | vfnmaF | vdivF | vsqrtF | vmaxF | vminF | vabsF | vnegF | vexp2F | vlog2F | vrcpF | vrsqF | vsinF | vcosF |
      vtanhF | vcmpeqF | vcmpneF | vcmpltF | vcmpleF | vclassF | vaddS | vsubS | vmulS | vmaxS | vminS | vcmpeqS | vcmpltS | vcmpleS | vaddN | vsubN |
      vmulN | vmaxN | vminN | vcmpeqN | vcmpltN | vcmpleN | vand | vor | vxor | vnot | vshl | vshr | vsar | vrot | vcvt | vcvtw | srnd | filla | mkabs |
      vsel | vmov | vmovFromCn | vmovToCn | kand | kor | kxor | knot | kmov | kmovVk | kmovKv | kmovAv | cntp | cntpK | vperm | vpermB | vbcast |
      vbcastB | vrotl | vrotlSh | xg | xgRel | redadd | redmul | redmax | redmin | redor | redand | topk | qpack | qunpk | angof | vclmul | vclmulh =>
    simp only [exec, execVaddF, execVsubF, execVmulF, execVfmaF, execVfmsF, execVfnmaF, execVdivF, execVsqrtF, execVmaxF, execVminF, execVabsF, execVnegF,
      execVexp2F, execVlog2F, execVrcpF, execVrsqF, execVsinF, execVcosF, execVtanhF, execVcmpeqF, execVcmpneF, execVcmpltF, execVcmpleF, execVclassF,
      execVaddS, execVsubS, execVmulS, execVmaxS, execVminS, execVcmpeqS, execVcmpltS, execVcmpleS, execVaddN, execVsubN, execVmulN, execVmaxN, execVminN,
      execVcmpeqN, execVcmpltN, execVcmpleN, execVand, execVor, execVxor, execVnot, execVshl, execVshr, execVsar, execVrot, execVcvt, execVcvtw, execSrnd,
      execFilla, execMkabs, execVsel, execVmov, execVmovFromCn, execVmovToCn, execKand, execKor, execKxor, execKnot, execKmov, execKmovVk, execKmovKv,
      execKmovAv, execCntp, execCntpK, execVperm, execVpermB, execVbcast, execVbcastB, execVrotl, execVrotlSh, execXg, execXgRel, execRedadd, execRedmul,
      execRedmax, execRedmin, execRedor, execRedand, execTopk, execQpack, execQunpk, execAngof, execVclmul, execVclmulh, State.vector_meaningful]
  case tld | tst | olatch | ofree | osave | odrift | oscfg | dcfg | ddrain | dclr | dstat | cinc | cset | crd | eph | aowcfg | ephend =>
    simp only [exec, execTld, execTst, execOlatch, execOfree, execOsave, execOdrift, execOscfg, execDcfg, execDdrain, execDclr, execDstat, execCinc,
      execCset, execCrd, execEph, execAowcfg, execEphend, State.dispatch_meaningful]
  case ldw | stw | atomAdd | atomMin | atomMax | atomAnd | atomOr | atomXor | atomSwap | atomCas =>
    simp only [exec, execLdw, execStw, execAtomAdd, execAtomMin, execAtomMax, execAtomAnd, execAtomOr, execAtomXor, execAtomSwap, execAtomCas,
      State.wordAccess_meaningful]
  case cpy | cpys | cpyg | cpyr | cpyst | cpyf =>
    simp only [exec, execCpy, execCpys, execCpyg, execCpyr, execCpyst, execCpyf, State.copy_meaningful]
  case dot | dota =>
    simp only [exec, execDot, execDota, State.dotCommand_meaningful]
  case opass | opassr | oderive | oapply =>
    simp only [exec, execOpass, execOpassr, execOderive, execOapply, State.orreryPass_meaningful]
  case ald | sld | ptld | ast | sst =>
    simp only [exec, execAld, execSld, execPtld, execAst, execSst, State.transfer_meaningful]
  case trig | ready =>
    simp only [exec, execTrig, execReady, State.queue_meaningful]
  case xlatResult | tileTransferComplete | cpyrFire | copyComplete | passFinish | engineCommandStart | triggeredFire | readySlotFire | transitStart |
      transitComplete | readyTimeout | regionCommit | deadlineFault | deferredFaultRaise | taskFinish | drainHalt | contextSaveAreaDone |
      preemptionRequest | tkill | ccmdSave | ccmdRestore | ccmdRelease | ccmdContextReset | aowReadyClear =>
    simp only [exec, execXlatResult, execTileTransferComplete, execCpyrFire, execCopyComplete, execPassFinish, execEngineCommandStart, execTriggeredFire,
      execReadySlotFire, execTransitStart, execTransitComplete, execReadyTimeout, execRegionCommit, execDeadlineFault, execDeferredFaultRaise,
      execTaskFinish, execDrainHalt, execContextSaveAreaDone, execPreemptionRequest, execTkill, execCcmdSave, execCcmdRestore, execCcmdRelease,
      execCcmdContextReset, execAowReadyClear, State.eventOn_meaningful]
  -- The other events of the module answer with a next state, whatever they do.
  case barrierRelease | tload | tstore | tcopy | tfill | tmap | trot | trotr | tqr | tapply | tdot | tred | tnorm | ttopk | tconv | tgather | tscatter |
      tallred | tbcast | tflipv | tbar | tmapPlace | blockDelivery | camvelRecordComplete | gateRelease | windowAccept | compareManifestDone |
      tlbInvalidateDone | windowRecordPortWrite | windowGatePortWrite | windowCounterWrite | compareManifestStart | tlbInvalidate | replay | tthaw |
      pfqpop | pwrctlWrite | sharedWindowAccess | peerRequest | coldReset | warmReset | functionLevelReset | bootPhaseComplete | getVersion |
      getCapabilities | negotiateAlgorithms | getDigests | getCertificate | challenge | getMeasurements | keyExchange | finish | keyUpdate | heartbeat |
      divisorRaise | stallWindowOpen | divisorLower | thermalTrip | thermalPowerOff | softError | stallWindowClose | tripClear | ideKeyManagement =>
    exact .next _
  case tileFaultRecordClear h => exact execTileFaultRecordClear_meaningful s h
  case readbackApertureWrite core off bytes => exact execReadbackApertureWrite_meaningful s core off bytes
  case registerWrite off v be => exact .ite (s.writeRegister_meaningful ..) (.next _)
  -- These answer the session they come from, or not, but always go on.
  case heartbeatLoss => exact .ite (.next _) (.next _)
  case endSession => exact .ite (.next _) (.ite (.next _) (.next _))
  -- SEAL and UNSEAL are left, whose names are words of Lean's own.
  · exact .ite (.next _) (.ite (.next _) (.next _))
  · exact .ite (.next _) (.ite (.next _) (.next _))

/-! ## What runs rows -/

/-- A group that was stopped in its trial was stopped by an outcome that is no refusal. -/
def Tried.Meaningful : Tried → Prop
  | .stopped o => Machine.Meaningful o
  | _ => True

/-- What stopped the slots of a group, if anything did, is no refusal. -/
def Ran.StopsWell (r : Ran) : Prop := ∀ o, r.stop = some o → Machine.Meaningful o

theorem Ran.stopsWell_of_none {r : Ran} (free : r.stop = none) : r.StopsWell := by
  intro o stopped
  rw [free] at stopped; cases stopped

theorem Ran.stopsWell_of_some {r : Ran} {o : Host.Outcome State Fault Refusal} (stopped : r.stop = some o) (sound : Meaningful o) : r.StopsWell := by
  intro p same
  rw [stopped] at same; cases same; exact sound

section
variable {ex : Instr → State → Host.Outcome State Fault Refusal} (h : ∀ i s, Meaningful (ex i s))
include h

theorem Ran.slot_stopsWell {r : Ran} (before : r.StopsWell) (w : SlotWord) : (r.slot ex w).StopsWell := by
  unfold Ran.slot
  split
  · split <;> exact before
  · split
    · split
      · exact before
      · exact before
      · split <;> exact before
    · exact Ran.stopsWell_of_some rfl (h _ _)

theorem Ran.foldl_slot_stopsWell (words : List SlotWord) {r : Ran} (before : r.StopsWell) : (words.foldl (Ran.slot ex) r).StopsWell := by
  induction words generalizing r with
  | nil => exact before
  | cons w rest ih => exact ih (Ran.slot_stopsWell h before w)

theorem State.runGroup_stopsWell (s : State) (g x : Nat) (q : Group) : (s.runGroup ex g x q).StopsWell := by
  unfold State.runGroup
  simp only
  split
  · split
    · exact Ran.stopsWell_of_none rfl
    · exact Ran.stopsWell_of_some rfl (h _ _)
  · exact Ran.foldl_slot_stopsWell h _ (Ran.stopsWell_of_none rfl)

theorem State.also_meaningful (s : State) (i : Instr) {next : State → Tried} (hn : ∀ t, (next t).Meaningful) : (s.also ex i next).Meaningful := by
  unfold State.also
  split
  · exact hn _
  · exact h i s

theorem State.settle_meaningful (s : State) (g : Nat) (x : Fin 4) (q : Group) : (s.settle ex g x q).Meaningful := by
  unfold State.settle
  extract_lets r
  split
  · next o stopped => exact s.runGroup_stopsWell h g x q o stopped
  · split
    · trivial
    · split
      · exact s.also_meaningful h _ fun _ => trivial
      · split <;> trivial

theorem State.holdClosed_meaningful (s : State) (g : Nat) (x : Fin 4) (v : Bool) : (s.holdClosed ex g x v).Meaningful := by
  unfold State.holdClosed
  extract_lets t
  split
  · exact t.also_meaningful h _ fun _ => trivial
  · trivial

theorem State.tryOpen_meaningful (s : State) (g : Nat) (x : Fin 4) (q : Group) : (s.tryOpen ex g x q).Meaningful := by
  unfold State.tryOpen
  split
  · exact s.holdClosed_meaningful h g x _
  · split
    · exact s.holdClosed_meaningful h g x _
    · exact s.settle_meaningful h g x q

theorem State.tryGroup_meaningful (s : State) (g : Nat) (x : Fin 4) : (s.tryGroup ex g x).Meaningful := by
  unfold State.tryGroup
  extract_lets t k q
  split
  · split
    · exact t.also_meaningful h _ fun u => u.tryOpen_meaningful h g x q
    · exact t.holdClosed_meaningful h g x _
  · exact t.tryOpen_meaningful h g x q

/-- The contexts asked in turn: what stops the turn is what stopped a group. -/
theorem State.turnFrom_meaningful (s : State) (g : Nat) (order : List (Fin 4)) : Meaningful (s.turnFrom ex g order) := by
  induction order generalizing s with
  | nil => exact .next s
  | cons x rest ih =>
    unfold State.turnFrom
    extract_lets _ back _
    refine .ite (ih _) (.ite (ih _) (.ite (.ite (.next _) (ih _)) ?_))
    have tried := back.tryGroup_meaningful h g x
    split
    · exact .next _
    · exact ih _
    · exact ih _
    · next o stopped => rw [stopped] at tried; exact tried

theorem State.turn_meaningful (s : State) (g : Nat) : Meaningful (s.turn ex g) :=
  .ite (.next s) (s.turnFrom_meaningful h g _)

/-- A step is an event, a due write of the control cores, a core's turn, or the next stage of the cycle. -/
theorem State.microStep_meaningful (s : State) : Meaningful (s.microStep ex) := by
  unfold State.microStep
  split
  · exact h _ _
  · split
    · exact h _ _
    · exact State.turn_meaningful h _ _
    · exact .next _

end

/-! ## O8 -/

/-- Settles O8: a step runs rows, and every row has a meaning. -/
theorem stepNeverRefuses : Obligations.StepNeverRefuses := by
  unfold Obligations.StepNeverRefuses
  exact fun s => (State.microStep_meaningful exec_meaningful s).ne_refused

end Sys2Proof.Machine
end

section
/-! PROOFS. Camvel records that are due: their effect, their completion in the same cycle, and what does nothing (R222, R223, R225 to R236). -/

namespace Sys2Proof.Machine

/-! ## Records by number -/

section
variable {y : Sys} {id : Nat} {x : Rec}

theorem Sys.id_of_rec? (found : y.rec? id = some x) : x.id = id := by
  simpa using List.find?_some found

/-- A change of one record that keeps the numbers, seen through the search by number. -/
theorem Sys.rec?_modRec (n : Nat) {f : Rec → Rec} (keeps : ∀ q, (f q).id = q.id) :
    (Sys.modRec y n f).rec? id = (y.rec? id).map fun q => if q.id = n then f q else q := by
  have same : ((fun q : Rec => q.id == id) ∘ fun q => if q.id = n then f q else q) = fun q => q.id == id := by
    funext q
    simp only [Function.comp_apply]
    split
    · rw [keeps]
    · rfl
  rw [Sys.rec?, Sys.modRec, List.find?_map, same, Sys.rec?]

/-- The record that ends is found again, done, with the faults of its tree (R223, R310). -/
theorem Sys.rec?_finishRec (found : y.rec? id = some x) (fs : List TreeFault) :
    (y.finishRec x fs).rec? id = some { x with phase := .done, due := none, fault := x.report (x.faults ++ fs) } := by
  have map := Sys.rec?_modRec (y := y) (id := id) x.id (f := fun q => { q with phase := .done, due := none, fault := x.report (q.faults ++ fs) }) fun _ => rfl
  rw [found] at map
  exact map.trans (congrArg some (if_pos rfl))

end

/-! ## Records that are due -/

/-- A record has something to do: it runs, nothing parks it, and the time of its effect or of a block has come (R222, R239). -/
theorem Rec.ready_iff (x : Rec) (run : Nat) : x.ready run = true ↔ x.phase = .running ∧ x.parked = false ∧
    ((∃ t, x.due = some t ∧ t ≤ run) ∨ ∃ l ∈ x.leaves, (l.out.isSome = true ∧ l.back = false) ∨
      (l.core.isSome = true ∧ l.out = none ∧ l.gone = false ∧ ∃ t, l.due = some t ∧ t ≤ run)) := by
  simp only [Rec.ready, Bool.and_eq_true, Bool.or_eq_true, Bool.not_eq_true', List.any_eq_true, Option.any_eq_true, decide_eq_true_eq, beq_iff_eq, and_assoc,
    Option.isNone_iff_eq_none]

theorem Sys.recDue_eq_some_iff {y : Sys} {id : Nat} {x : Rec} : y.recDue id = some x ↔ y.rec? id = some x ∧ x.ready y.run = true := by
  simp only [Sys.recDue, Option.bind_eq_some_iff, Option.ite_none_right_eq_some, Option.some.injEq]
  constructor
  · rintro ⟨_, found, ready, rfl⟩; exact ⟨found, ready⟩
  · rintro ⟨found, ready⟩; exact ⟨x, found, ready, rfl⟩

/-! ## Completions that follow -/

@[simp] theorem Sys.mend_events (y : Sys) (ws : List Write) : (y.mend ws).events = y.events := by cases ws <;> rfl

theorem Sys.mend_happens (y : Sys) (i : Instr) (ws : List Write) : (y.happens i).mend ws = { (y.mend ws) with events := y.events ++ [i] } := by
  cases ws <;> rfl

theorem Sys.happens_mend_ne (y : Sys) (i : Instr) (ws : List Write) : (y.happens i).mend ws ≠ y.mend ws := by
  intro same
  have events := congrArg Sys.events same
  simp [Sys.happens] at events

/-- The record is done and completes by itself; TMAP waits for its tasks (R223, R227). -/
def Sys.completes (y : Sys) (id : Nat) : Bool := (y.rec? id).any fun q => q.phase == .done && (q.topc != 5)

theorem Sys.completes_eq_false_iff {y : Sys} {id : Nat} :
    y.completes id = false ↔ ∀ q, (y.pkg.recs.find? fun q => q.id == id) = some q → ¬ (q.phase = .done ∧ q.topc ≠ 5) := by
  simp only [Sys.completes, Sys.rec?, ← Bool.not_eq_true, Option.any_eq_true, Bool.and_eq_true, beq_iff_eq, bne_iff_ne]
  exact not_exists.trans (forall_congr' fun q => not_and)

/-- The state after an effect: the completion of a record that completes follows in this cycle (R223). -/
def Sys.followed (y : Sys) (id : Nat) : Sys := if y.completes id then y.happens (.camvelRecordComplete id) else y

theorem Sys.followed_mend (y : Sys) (id : Nat) (ws : List Write) :
    ((y.followed id).mend ws = y.mend ws ∨ (y.followed id).mend ws = { (y.mend ws) with events := y.events ++ [.camvelRecordComplete id] }) ∧
      ((y.followed id).mend ws = y.mend ws ↔ y.completes id = false) := by
  unfold Sys.followed
  cases completes : y.completes id with
  | false => exact ⟨.inl rfl, iff_of_true rfl rfl⟩
  | true => exact ⟨.inr (y.mend_happens _ ws), iff_of_false (y.happens_mend_ne _ ws) nofun⟩

/-! ## The row of a record -/

section
variable {i : Instr} {s : State} {id : Nat} {r : CamvelRecord} {x : Rec} {effect : Sys → Memory → Rec → Sys × List Write}
  (row : exec i s = s.record id r effect)
include row

theorem record_idles_of_none (none_due : s.sys.recDue id = none) : Idles i s := by
  refine idles_of_event row ?_
  rw [none_due]

theorem record_idles_of_other (due : s.sys.recDue id = some x) (other : x.record ≠ r) : Idles i s := by
  refine idles_of_event row ?_
  rw [due]; exact if_neg other

/-- The record that is due has its effect, and its completion follows when it is done (R223). -/
theorem record_exec (due : s.sys.recDue id = some x) (same : x.record = r) :
    let o := effect s.sys s.mem x
    exec i s = .next { mem := s.mem.writeAll o.2, sys := (o.1.followed id).mend o.2 } := by
  rw [row, State.record, State.event_next, due]
  simp only [if_pos same]
  rfl

/-- Its writes are made, and the completion is the one thing that the row adds to the effect (R223). -/
theorem record_acts (due : s.sys.recDue id = some x) (same : x.record = r) :
    let o := effect s.sys s.mem x
    ∃ t, exec i s = .next t ∧ t.mem = s.mem.writeAll o.2 ∧
      (t.sys = o.1.mend o.2 ∨ t.sys = { (o.1.mend o.2) with events := o.1.events ++ [.camvelRecordComplete id] }) ∧
      (t.sys = o.1.mend o.2 ↔ ∀ q, (o.1.pkg.recs.find? fun q => q.id == id) = some q → ¬ (q.phase = .done ∧ q.topc ≠ 5)) := by
  intro o
  obtain ⟨follows, unchanged⟩ := o.1.followed_mend id o.2
  exact ⟨_, record_exec row due same, rfl, follows, unchanged.trans Sys.completes_eq_false_iff⟩

end

/-! ## TBAR (R235) -/

theorem tbar_row (s : State) (id : Nat) (r : CamvelRecord) : exec (.tbar id r) s = s.record id r fun y _ x => (y.finishRec x [], []) := rfl

theorem Sys.finishRec_completes {y : Sys} {id : Nat} {x : Rec} (found : y.rec? id = some x) (alone : x.topc ≠ 5) (fs : List TreeFault) :
    (y.finishRec x fs).completes id = true := by
  rw [Sys.completes, Sys.rec?_finishRec found]
  exact bne_iff_ne.mpr alone

/-- A TBAR that is due ends, and completes (R235). -/
theorem tbar_becomes {s : State} {id : Nat} {r : CamvelRecord} {x : Rec} (due : s.sys.recDue id = some x) (same : x.record = r) (bar : x.topc = 20) :
    Becomes (.tbar id r) s fun y => (y.finishRec x []).happens (.camvelRecordComplete id) := by
  have found := (Sys.recDue_eq_some_iff.mp due).1
  have completes : (s.sys.finishRec x []).completes id = true := Sys.finishRec_completes found (by omega) []
  rw [Becomes, record_exec (tbar_row s id r) due same, Sys.followed, if_pos completes]
  rfl

/-! ## O51 -/

/-- Settles O51: every row of a record is the one shape, with the effect of its instruction. -/
theorem camvelRecordsAct : Obligations.CamvelRecordsAct := by
  unfold Obligations.CamvelRecordsAct
  intro s id r y due plain any acts
  have due_iff (x : Rec) : due x ↔ y.recDue id = some x := by
    rw [Sys.recDue_eq_some_iff, Rec.ready_iff]; exact Iff.rfl
  have plain_row (i : Instr) (h : plain i) : exec i s = s.record id r Sys.effect := by
    rcases h with rfl | rfl | rfl | rfl | rfl | rfl | rfl | rfl | rfl | rfl | rfl | rfl | rfl | rfl | rfl | rfl | rfl <;> rfl
  have any_row (i : Instr) (h : any i) : ∃ effect, exec i s = s.record id r effect := by
    rcases h with h | rfl | rfl | rfl
    · exact ⟨Sys.effect, plain_row i h⟩
    · exact ⟨Sys.readImage, rfl⟩
    · exact ⟨Sys.flip, rfl⟩
    · exact ⟨_, tbar_row s id r⟩
  refine ⟨fun i row idle => ?_, fun i x row isDue other => ?_, fun x isDue same => ?_⟩
  · obtain ⟨effect, row⟩ := any_row i row
    exact record_idles_of_none row (Option.eq_none_iff_forall_ne_some.mpr fun x h => idle x ((due_iff x).mpr h))
  · obtain ⟨effect, row⟩ := any_row i row
    exact record_idles_of_other row ((due_iff x).mp isDue) other
  · have found := (due_iff x).mp isDue
    refine ⟨fun i h => record_acts (plain_row i h) found same, record_acts rfl found same, record_acts rfl found same, fun bar => ?_⟩
    have number : x.id = id := Sys.id_of_rec? (Sys.recDue_eq_some_iff.mp found).1
    have ends := tbar_becomes found same bar
    simp only [Sys.finishRec, List.append_nil, number] at ends
    exact ends

end Sys2Proof.Machine
end

section
/-! PROOFS. The rows that a block of a Camvel record puts: copies, fills, conversions, gathers and scatters (R225, R226, R233, R234, R237). -/

namespace Sys2Proof.Machine

/-! ## Rows put one below the other -/

/-- The rows `f 0`, `f 1`, … put below one another at the part of the destination. -/
def Piece.puts (pd : Piece) (f : Nat → List Byte) (n : Nat) : List Put := (List.range n).map fun i => ⟨0, pd.r0 + i, pd.off, f i⟩

/-- Rows put below one another are known by their number and one by one. -/
theorem Piece.rows_of_puts {pd : Piece} {f : Nat → List Byte} {n : Nat} {ps : List Put} (same : ps = pd.puts f n) :
    ps.length = n ∧ ∀ i, i < n → ps[i]? = some ⟨0, pd.r0 + i, pd.off, f i⟩ := by
  subst same
  refine ⟨by simp [Piece.puts], fun i inside => ?_⟩
  rw [Piece.puts, List.getElem?_map, List.getElem?_range inside, Option.map_some]

/-- An entry within a list, looked up in its image. -/
theorem getD_map_of_lt {α β : Type} (g : α → β) {l : List α} {i : Nat} (inside : i < l.length) (d : α) (e : β) : (l.map g).getD i e = g (l.getD i d) := by
  simp [List.getD, inside]

/-! ## The block of each instruction -/

section
variable {x : Rec} (c : Cut) (pa pd : Piece) (a b : List (List Byte))

/-- TLOAD, TSTORE and TCOPY put the rows of A as they stand (R225). -/
theorem Rec.leaf_puts_of_copy (copies : x.topc = 1 ∨ x.topc = 2 ∨ x.topc = 3) : (x.leaf c pa pd a b).puts = pd.puts (fun i => a.getD i []) a.length := by
  rcases copies with h | h | h <;> simp only [Rec.leaf, h, Piece.puts]

/-- TBCAST puts those that lie within its part of the destination (R234, R237). -/
theorem Rec.leaf_puts_of_bcast (h : x.topc = 18) : (x.leaf c pa pd a b).puts = pd.puts (fun i => (a.getD i []).take pd.len) (Nat.min a.length pd.nr) := by
  simp only [Rec.leaf, h, Piece.puts]

/-- TFILL puts the element of word 7 in every column (R226). -/
theorem Rec.leaf_puts_of_fill (h : x.topc = 4) :
    (x.leaf c pa pd a b).puts = pd.puts (fun _ => (List.range pd.nc).flatMap fun _ => leBytes (x.dst.fmt.width / 8) x.w7.toNat) pd.nr := by
  simp only [Rec.leaf, h, Piece.puts]

/-- TCONV puts each row converted (R233). -/
theorem Rec.leaf_puts_of_conv (h : x.topc = 14) :
    (x.leaf c pa pd a b).puts =
      pd.puts (fun i => ((a.map fun bs => x.dst.convertRow x.rm x.sat (x.a.vals pa.nc bs)).getD i ([], [])).1) a.length := by
  simp only [Rec.leaf, h, List.length_map, Piece.puts]

/-- What TGATHER puts for an index: the row of A that it names, or an absent row (R233). -/
def Rec.gathered (x : Rec) (a : List (List Byte)) (t : Nat) : List Byte :=
  if Elem.n32.isAbsent t then x.dst.absentRow else (a[t]?).getD x.dst.absentRow

section
variable {x : Rec} {a : List (List Byte)} {t : Nat}

theorem Rec.gathered_of_missing (missing : Elem.n32.isAbsent t = true ∨ a.length ≤ t) : x.gathered a t = x.dst.absentRow := by
  unfold Rec.gathered
  split
  · rfl
  · next present => rw [List.getElem?_eq_none (missing.resolve_left present), Option.getD_none]

theorem Rec.gathered_of_present (present : ¬ Elem.n32.isAbsent t = true) (named : t < a.length) : x.gathered a t = a.getD t [] := by
  rw [Rec.gathered, if_neg present]
  simp [List.getD, named]

end

theorem Rec.leaf_puts_of_gather (h : x.topc = 15) :
    (x.leaf c pa pd a b).puts = pd.puts (fun i => x.gathered a ((b.map leNat).getD i 0)) b.length := by
  simp only [Rec.leaf, h, List.length_map, Piece.puts, Rec.gathered]

/-- What TSCATTER puts for its row `i`: the row of A at the row of the destination that the index names, if it names one (R233). -/
def Rec.scattered (x : Rec) (a : List (List Byte)) (i t : Nat) : Option Put :=
  if Elem.n32.isAbsent t ∨ x.dst.rows ≤ t then none else some ⟨0, t, 0, a.getD i []⟩

theorem Rec.scattered_eq_some_iff {x : Rec} {a : List (List Byte)} {i t : Nat} {p : Put} :
    x.scattered a i t = some p ↔ ¬ Elem.n32.isAbsent t = true ∧ t < x.dst.rows ∧ p = ⟨0, t, 0, a.getD i []⟩ := by
  unfold Rec.scattered
  split
  · next missing => exact iff_of_false nofun fun ⟨present, named, _⟩ => missing.elim present (Nat.not_le.mpr named)
  · next names =>
    obtain ⟨present, named⟩ := not_or.mp names
    exact ⟨fun same => ⟨present, Nat.lt_of_not_le named, (Option.some.inj same).symm⟩, fun ⟨_, _, same⟩ => congrArg some same.symm⟩

theorem Rec.leaf_puts_of_scatter (h : x.topc = 16) :
    (x.leaf c pa pd a b).puts = (List.range b.length).filterMap fun i => x.scattered a i ((b.map leNat).getD i 0) := by
  simp only [Rec.leaf, h, List.length_map, Rec.scattered]

end

/-! ## Rows converted (R233) -/

/-- TCONV writes the encoded row: that it may consume absent elements shows in the flags alone (R73, R233). -/
theorem Operand.convertRow_fst (o : Operand) (rm : Rm) (sat : Bool) (vs : List Val) : (o.convertRow rm sat vs).1 = (o.encodeRow rm sat vs).1 := by
  unfold Operand.convertRow
  extract_lets
  split <;> rfl

/-- Between formats that have elements, the row is converted element by element, subnormals flushed (R233, log 33). -/
theorem Operand.encodeRow_vals_of_elem {o q : Operand} {e f : Elem} (source : q.fmt = .elem e) (into : o.fmt = .elem f) (rm : Rm) (sat : Bool) (n : Nat)
    (bs : List Byte) :
    (o.encodeRow rm sat (q.vals n bs)).1 = (codesOf e.width n bs).flatMap fun v => leBytes (f.width / 8) (convert e f rm false sat v).1 := by
  simp only [Operand.encodeRow, Operand.vals, source, into, List.map_map, List.flatMap_map, Function.comp_apply]
  cases f with
  | flt g => simp only [convert, Bool.and_eq_true, bne_iff_ne]
  | int g => rfl

/-! ## O52 -/

/-- Settles O52: each block is a list of rows put, and the rows are known one by one. -/
theorem camvelBlocks : Obligations.CamvelBlocks := by
  unfold Obligations.CamvelBlocks
  intro x c pa pd a b row out w index absent
  have index_eq {i : Nat} (inside : i < b.length) : (b.map leNat).getD i 0 = index i := getD_map_of_lt leNat inside [] 0
  refine ⟨fun copies => ?_, fun bcast => ?_, fun fill => ?_, fun conv => ?_, fun gather => ?_, fun scatter => ?_⟩
  · exact Piece.rows_of_puts (x.leaf_puts_of_copy c pa pd a b copies)
  · obtain ⟨number, rows⟩ := Piece.rows_of_puts (Rec.leaf_puts_of_bcast c pa pd a b bcast)
    exact ⟨number, fun i inA inside => rows i (Nat.lt_min.mpr ⟨inA, inside⟩)⟩
  · exact Piece.rows_of_puts (Rec.leaf_puts_of_fill c pa pd a b fill)
  · obtain ⟨number, rows⟩ := Piece.rows_of_puts (Rec.leaf_puts_of_conv c pa pd a b conv)
    refine ⟨number, fun i inside => ?_⟩
    have encoded : out.puts[i]? = some (row i (x.dst.encodeRow x.rm x.sat (x.a.vals pa.nc (a.getD i []))).1) := by
      rw [rows i inside, getD_map_of_lt _ inside [], Operand.convertRow_fst]
    exact ⟨encoded, fun e f source into => by rw [encoded, Operand.encodeRow_vals_of_elem source into]⟩
  · obtain ⟨number, rows⟩ := Piece.rows_of_puts (Rec.leaf_puts_of_gather c pa pd a b gather)
    refine ⟨number, fun i inside => ?_⟩
    rw [rows i inside, index_eq inside]
    exact ⟨fun missing => by rw [Rec.gathered_of_missing missing], fun present named => by rw [Rec.gathered_of_present present named]⟩
  · have puts := Rec.leaf_puts_of_scatter c pa pd a b scatter
    have mem_puts (p : Put) : p ∈ out.puts ↔ ∃ i, i < b.length ∧ ¬ absent i ∧ index i < x.dst.rows ∧ p = ⟨0, index i, 0, a.getD i []⟩ := by
      rw [puts, List.mem_filterMap]
      refine exists_congr fun i => ?_
      rw [List.mem_range]
      exact and_congr_right fun inside => by rw [index_eq inside, Rec.scattered_eq_some_iff]
    exact ⟨fun i inside present named => (mem_puts _).mpr ⟨i, inside, present, named, rfl⟩, fun p mem => (mem_puts p).mp mem⟩

end Sys2Proof.Machine
end

section
/-! PROOFS. The tile issue windows: ports, gates, acceptance by priority, counters (R222, R254 to R257, R284, R285). -/

namespace Sys2Proof.Machine

/-! ## Writes of the inspection window (R284, R285) -/

section
variable {i : Instr} {s : State} {e : Sys → Sys}

theorem becomes_of_inspected (row : exec i s = s.inspected e) (heard : s.sys.answers = true) : Becomes i s e :=
  becomes_of_event row (Prod.ext (if_pos heard) rfl)

theorem idles_of_inspected (row : exec i s = s.inspected e) (deaf : s.sys.answers = false) : Idles i s :=
  idles_of_event row (Prod.ext (if_neg (Bool.eq_false_iff.mp deaf)) rfl)

end

/-! ## The head of a window (R255, R256) -/

section
variable {y : Sys} {n : Nat} {rest : List WinEntry}

/-- The entry at the head of a window leaves it; the other windows stay. -/
theorem Sys.modWin_drop_head {e : WinEntry} (head : (vget y.pkg.wins n).entries = e :: rest) :
    (y.modWin n fun w => { w with entries := w.entries.drop 1 }) =
      { y with pkg := { y.pkg with wins := vset y.pkg.wins n { vget y.pkg.wins n with entries := rest } } } := by
  rw [Sys.modWin, vmod, head, List.drop_one, List.tail_cons]

theorem Sys.headReady_of_record {r : CamvelRecord} (head : (vget y.pkg.wins n).entries = .record r :: rest) (enabled : (vget y.pkg.wins n).en = true)
    (hears : y.deaf .pkg = false) (room : y.queued (.window n) .pkg < 16) : y.headReady n = some r := by
  simp [Sys.headReady, head, enabled, hears, room]

theorem Sys.headReady_of_empty (empty : (vget y.pkg.wins n).entries = []) : y.headReady n = none := by
  simp [Sys.headReady, empty]

theorem Sys.gateLeaves_of_gate {g : Word} (head : (vget y.pkg.wins n).entries = .gate g :: rest) (enabled : (vget y.pkg.wins n).en = true) :
    y.gateLeaves n = y.gateOpen g := by
  simp [Sys.gateLeaves, head, enabled]

theorem Sys.gateLeaves_of_disabled (disabled : (vget y.pkg.wins n).en = false) : y.gateLeaves n = false := by
  simp [Sys.gateLeaves, disabled]

theorem Sys.gateLeaves_of_empty (empty : (vget y.pkg.wins n).entries = []) : y.gateLeaves n = false := by
  simp [Sys.gateLeaves, empty]

end

/-! ## The window that gives a record (R256) -/

section
variable (y : Sys)

/-- The better of a window found so far and the next one: it must be ready, and of a higher priority than the one found. -/
def Sys.betterWindow (best : Option Nat) (n : Nat) : Option Nat :=
  if (y.headReady n).isSome then
    match best with
    | some b => if (vget y.pkg.wins b).prio < (vget y.pkg.wins n).prio then some n else best
    | none => some n
  else best

theorem Sys.acceptPick_eq_foldl : y.acceptPick = (List.range 8).foldl y.betterWindow none := rfl

/-- The window comes behind `n`: it is not ready, or its priority is lower. -/
def Sys.Behind (n m : Nat) : Prop := y.headReady m = none ∨ (vget y.pkg.wins m).prio < (vget y.pkg.wins n).prio

variable {y} {n : Nat}

theorem Sys.of_mem_betterWindow {best : Option Nat} {m b : Nat} (chosen : b ∈ y.betterWindow best m) : b = m ∨ b ∈ best := by
  unfold Sys.betterWindow at chosen
  split at chosen
  · split at chosen
    · split at chosen
      · exact .inl (Option.mem_some.mp chosen).symm
      · exact .inr chosen
    · exact .inl (Option.mem_some.mp chosen).symm
  · exact .inr chosen

theorem Sys.betterWindow_of_not_ready {m : Nat} (idle : y.headReady m = none) (best : Option Nat) : y.betterWindow best m = best := by
  simp [Sys.betterWindow, idle]

theorem Sys.betterWindow_of_ready {r : CamvelRecord} (ready : y.headReady n = some r) {best : Option Nat}
    (lower : ∀ b ∈ best, (vget y.pkg.wins b).prio < (vget y.pkg.wins n).prio) : y.betterWindow best n = some n := by
  cases best with
  | none => simp [Sys.betterWindow, ready]
  | some b => simp [Sys.betterWindow, ready, lower b rfl]

/-- A window that has been found stays, while those that follow come behind it. -/
theorem Sys.betterWindow_keeps {m : Nat} (behind : m ≠ n → y.Behind n m) : y.betterWindow (some n) m = some n := by
  have not_higher : ¬ ((y.headReady m).isSome ∧ (vget y.pkg.wins n).prio < (vget y.pkg.wins m).prio) := by
    rintro ⟨ready, higher⟩
    have other : m ≠ n := by rintro rfl; exact Nat.lt_irrefl _ higher
    rcases behind other with idle | lower
    · simp [idle] at ready
    · exact Nat.lt_asymm lower higher
  unfold Sys.betterWindow
  split
  · next ready => exact if_neg fun higher => not_higher ⟨ready, higher⟩
  · rfl

theorem Sys.foldl_betterWindow_keeps {l : List Nat} (behind : ∀ m ∈ l, m ≠ n → y.Behind n m) : l.foldl y.betterWindow (some n) = some n := by
  induction l with
  | nil => rfl
  | cons m rest ih =>
    rw [List.foldl_cons, Sys.betterWindow_keeps (behind m (List.mem_cons_self ..))]
    exact ih fun k mem => behind k (List.mem_cons_of_mem _ mem)

/-- The ready window behind which all others come is found, wherever it stands. -/
theorem Sys.foldl_betterWindow_finds {r : CamvelRecord} (ready : y.headReady n = some r) {l : List Nat} (mem : n ∈ l)
    (behind : ∀ m ∈ l, m ≠ n → y.Behind n m) {best : Option Nat} (lower : ∀ b ∈ best, (vget y.pkg.wins b).prio < (vget y.pkg.wins n).prio) :
    l.foldl y.betterWindow best = some n := by
  induction l generalizing best with
  | nil => cases mem
  | cons m rest ih =>
    have later : ∀ k ∈ rest, k ≠ n → y.Behind n k := fun k mem => behind k (List.mem_cons_of_mem _ mem)
    rw [List.foldl_cons]
    by_cases here : m = n
    · rw [here, Sys.betterWindow_of_ready ready lower]
      exact Sys.foldl_betterWindow_keeps later
    · refine ih ((List.mem_cons.mp mem).resolve_left (Ne.symm here)) later ?_
      rcases behind m (List.mem_cons_self ..) here with idle | lower_m
      · rw [Sys.betterWindow_of_not_ready idle]; exact lower
      · intro b chosen
        rcases Sys.of_mem_betterWindow chosen with rfl | before
        · exact lower_m
        · exact lower b before

theorem Sys.acceptPick_of_first {r : CamvelRecord} (ready : y.headReady n = some r) (inside : n < 8) (behind : ∀ m, m < 8 → m ≠ n → y.Behind n m) :
    y.acceptPick = some n := by
  rw [Sys.acceptPick_eq_foldl]
  exact Sys.foldl_betterWindow_finds ready (List.mem_range.mpr inside) (fun m mem => behind m (List.mem_range.mp mem)) nofun

end

/-! ## What each row does -/

section
variable (s : State) (win : BitVec 3)

theorem windowRecordPortWrite_row (r : CamvelRecord) :
    exec (.windowRecordPortWrite win r) s = s.inspected fun y => y.modWin win.toNat fun w => w.push (.record r) := rfl

theorem windowGatePortWrite_row (g : Word) : exec (.windowGatePortWrite win g) s = s.inspected fun y => y.modWin win.toNat fun w => w.push (.gate g) := rfl

theorem windowCounterWrite_row (tc : BitVec 6) (v : W32) : exec (.windowCounterWrite win tc v) s = s.inspected fun y =>
    y.modWin win.toNat fun w => { w with tc := vset w.tc tc.toNat (v + BitVec.ofNat 32 (w.landed.count tc.toNat)) } := rfl

theorem gateRelease_row : exec (.gateRelease win) s = s.event fun y =>
    (if y.gateLeaves win.toNat then y.modWin win.toNat fun w => { w with entries := w.entries.drop 1 } else y, []) := rfl

theorem windowAccept_row : exec (.windowAccept win) s = s.event fun y =>
    if y.acceptPick = some win.toNat then
      match y.headReady win.toNat with
      | some r => ((y.modWin win.toNat fun w => { w with entries := w.entries.drop 1 }).enqueue (.window win.toNat) .pkg 0 r, [])
      | none => (y, [])
    else (y, []) := rfl

end

section
variable {s : State} {win : BitVec 3}

/-- A gate that does not leave stays (R255). -/
theorem gateRelease_idles (stays : s.sys.gateLeaves win.toNat = false) : Idles (.gateRelease win) s := by
  refine idles_of_event (gateRelease_row s win) ?_
  rw [stays]; rfl

/-- A gate whose counter has reached its threshold leaves the head of its window (R255). -/
theorem gateRelease_becomes {e : WinEntry} {rest : List WinEntry} (head : (vget s.sys.pkg.wins win.toNat).entries = e :: rest)
    (leaves : s.sys.gateLeaves win.toNat = true) :
    Becomes (.gateRelease win) s fun y =>
      { y with pkg := { y.pkg with wins := vset y.pkg.wins win.toNat { vget s.sys.pkg.wins win.toNat with entries := rest } } } := by
  refine becomes_of_event (gateRelease_row s win) ?_
  rw [leaves, if_pos rfl, Sys.modWin_drop_head head]

/-- A window without a ready record gives none (R256). -/
theorem windowAccept_idles (idle : s.sys.headReady win.toNat = none) : Idles (.windowAccept win) s := by
  refine idles_of_event (windowAccept_row s win) ?_
  rw [idle]; exact ite_self _

/-- The window of the highest priority gives the record at its head to the package (R222, R256). -/
theorem windowAccept_becomes {r : CamvelRecord} {rest : List WinEntry} (head : (vget s.sys.pkg.wins win.toNat).entries = .record r :: rest)
    (ready : s.sys.headReady win.toNat = some r) (picked : s.sys.acceptPick = some win.toNat) :
    Becomes (.windowAccept win) s fun y =>
      ({ y with pkg := { y.pkg with wins := vset y.pkg.wins win.toNat { vget s.sys.pkg.wins win.toNat with entries := rest } } } : Sys).enqueue (.window win.toNat) .pkg 0 r := by
  refine becomes_of_event (windowAccept_row s win) ?_
  rw [ready, if_pos picked, ← Sys.modWin_drop_head head]

end

/-! ## O54 -/

/-- Settles O54: a write of a port or counter is an inspection, a gate leaves by its counter, and the one window ahead of the others gives its record. -/
theorem windowsQueueAndAccept : Obligations.WindowsQueueAndAccept := by
  unfold Obligations.WindowsQueueAndAccept
  intro s win r g tc v y n w sets pushed
  refine ⟨fun heard => ⟨?_, ?_, ?_⟩, fun deaf => ⟨?_, ?_, ?_⟩, fun rest head enabled => ⟨fun reached => ?_, fun short => ?_⟩,
    fun disabled => gateRelease_idles (Sys.gateLeaves_of_disabled disabled), fun rest head enabled hears room ahead => ?_, fun empty => ⟨?_, ?_⟩⟩
  · exact becomes_of_inspected (windowRecordPortWrite_row s win r) heard
  · exact becomes_of_inspected (windowGatePortWrite_row s win g) heard
  · exact becomes_of_inspected (windowCounterWrite_row s win tc v) heard
  · exact idles_of_inspected (windowRecordPortWrite_row s win r) deaf
  · exact idles_of_inspected (windowGatePortWrite_row s win g) deaf
  · exact idles_of_inspected (windowCounterWrite_row s win tc v) deaf
  · exact gateRelease_becomes head ((Sys.gateLeaves_of_gate head enabled).trans (decide_eq_true reached))
  · exact gateRelease_idles ((Sys.gateLeaves_of_gate head enabled).trans (decide_eq_false short))
  · have ready : y.headReady n = some r := Sys.headReady_of_record head enabled hears room
    exact windowAccept_becomes head ready (Sys.acceptPick_of_first ready win.isLt ahead)
  · exact windowAccept_idles (Sys.headReady_of_empty empty)
  · exact gateRelease_idles (Sys.gateLeaves_of_empty empty)

end Sys2Proof.Machine
end

section
/-! PROOFS. What a step does first: a pending event, then a due write of the control cores, then a core's turn, which passes in a stall window (R270, R284). -/

namespace Sys2Proof.Machine

/-! ## The step by what is pending -/

section
variable (ex : Instr → State → Host.Outcome State Fault Refusal) {s : State} {i : Instr} {rest : List Instr}

/-- A pending event is taken off the list and its row runs, whatever else waits. -/
theorem State.microStep_of_event (pending : s.sys.events = i :: rest) :
    s.microStep ex = ex i { s with sys := { s.sys with events := rest, byProgram := false } } := by
  simp only [State.microStep, pending]

/-- Without an event, a write of the control cores that is due runs as a row by the program (R284). -/
theorem State.microStep_of_programmed (quiet : s.sys.events = []) (due : s.sys.programmed = i :: rest) :
    s.microStep ex = ex i { s with sys := { s.sys with programmed := rest, byProgram := true } } := by
  simp only [State.microStep, quiet, due]

/-- Without an event and a due write, the next core of the issue stage has its turn. -/
theorem State.microStep_of_turn {g : Nat} {cores : List Nat} (quiet : s.sys.events = []) (noneDue : s.sys.programmed = [])
    (issuing : s.sys.stage = 0) (turns : s.sys.turn = g :: cores) :
    s.microStep ex = State.turn ex { s with sys := { s.sys with turn := cores } } g := by
  simp only [State.microStep, quiet, noneDue, issuing, turns]

/-- In a stall window a core's turn passes without a group (R270). -/
theorem State.turn_of_windowOpen (core : Nat) (stalled : s.sys.windowOpen = true) : s.turn ex core = .next s := if_pos stalled

end

/-! ## O7 -/

/-- Settles O7: the three cases of a step, the last with the turn that a stall window lets pass. -/
theorem stepRunsEventsFirst : Obligations.StepRunsEventsFirst := by
  unfold Obligations.StepRunsEventsFirst
  refine ⟨fun s i rest pending => ?_, fun s i rest quiet due => ?_, fun s g rest quiet noneDue issuing turns stalled => ?_⟩
  · exact State.microStep_of_event exec pending
  · exact State.microStep_of_programmed exec quiet due
  · calc step s
      _ = State.turn exec { s with sys := { s.sys with turn := rest } } g := State.microStep_of_turn exec quiet noneDue issuing turns
      _ = .next { s with sys := { s.sys with turn := rest } } := State.turn_of_windowOpen exec g stalled

end Sys2Proof.Machine
end

section
/-! PROOFS. The state after reset: contexts, registers and memory (R348). -/

namespace Sys2Proof.Machine

/-! ## Vectors of one value -/

/-- Every entry of a vector of one value is that value, beyond its end too where it is the type's default. -/
theorem vget_replicate {α : Type} [Inhabited α] (n i : Nat) (a : α) (there : a = default ∨ i < n) : vget (Vector.replicate n a) i = a := by
  unfold vget
  by_cases inside : i < n
  · simp [inside]
  · rw [there.resolve_right inside]; simp [inside]

/-! ## Contexts after reset -/

theorem State.reset_ctx (g : Nat) (x : Fin 4) : State.reset.sys.ctx g x = {} := vget_replicate 4 x.val ({} : Ctx) (.inr x.isLt)

/-! ## O10, O11 -/

/-- Settles O10: no byte is listed in memory after reset. -/
theorem resetMemoryForm : Obligations.ResetMemoryForm := rfl

/-- Settles O11: a context of any core is as the model's record of registers begins, and each register file holds one value. -/
theorem resetState : Obligations.ResetState := by
  unfold Obligations.ResetState
  refine ⟨⟨rfl, rfl, rfl, rfl⟩, fun g x => ?_, fun _ => rfl⟩
  rw [State.reset_ctx]
  refine ⟨rfl, rfl, rfl, rfl, rfl, rfl, rfl, rfl, fun p => vget_replicate 18 p _ (.inl rfl), rfl, fun b n => ?_, fun n => vget_replicate 64 n _ (.inl rfl),
    fun n => vget_replicate 40 n _ (.inl rfl), fun n => ?_⟩
  · cases b <;> exact vget_replicate 32 n _ (.inl rfl)
  · have zero : vget (Vector.replicate 32 ({} : Pointer)) n = {} := vget_replicate 32 n _ (.inl rfl)
    exact ⟨congrArg Pointer.addr zero, congrArg Pointer.step zero, congrArg Pointer.wbase zero, congrArg Pointer.wrap zero⟩

end Sys2Proof.Machine
end

section
/-! PROOFS. Resets, boot phases and soft errors (R285, R289, R341, R348, R356). -/

namespace Sys2Proof.Machine

/-! ## Resets -/

section
variable (s : State)

theorem coldReset_row : exec .coldReset s = .next (s.resetTo 0 true) := rfl
theorem thermalPowerOff_row : exec .thermalPowerOff s = .next (s.resetTo 0 false) := rfl
theorem warmReset_row : exec .warmReset s = .next (if s.sys.pkg.pw.powered then s.resetTo 1 true else s) := rfl
theorem functionLevelReset_row : exec .functionLevelReset s = .next (if s.sys.pkg.pw.powered then s.resetTo 1 true else s) := rfl

theorem softError_row (site : ErrorSite) (correctable : Bool) : exec (.softError site correctable) s = execSoftError site correctable s := rfl
theorem bootPhaseComplete_row (ok : Bool) (err : BitVec 8) : exec (.bootPhaseComplete ok err) s = execBootPhaseComplete ok err s := rfl

/-- `t` is the device as after a reset, at a boot phase: every register of cores, contexts and package, and nothing under way (R348). -/
def State.Anew (phase : Nat) (powered : Bool) (t : State) : Prop :=
  t.mem = [] ∧ t.sys.cores = [] ∧ t.sys.mer = 0 ∧ t.sys.wcyc = 0 ∧ t.sys.run = 0 ∧ t.sys.agenda = [] ∧ t.sys.flits = [] ∧ t.sys.events = [] ∧ t.sys.turn = [] ∧
    t.sys.poison = [] ∧ t.sys.pkg = { sec := { phase := phase }, pw := { powered := powered } }

theorem State.resetTo_anew (phase : Nat) (powered : Bool) : State.Anew phase powered (s.resetTo phase powered) :=
  ⟨rfl, rfl, rfl, rfl, rfl, rfl, rfl, rfl, rfl, rfl, rfl⟩

end

section
variable {s : State}

theorem warmResets_anew (on : s.sys.pkg.pw.powered = true) :
    exec .warmReset s = .next (s.resetTo 1 true) ∧ exec .functionLevelReset s = .next (s.resetTo 1 true) := by
  rw [warmReset_row, functionLevelReset_row, if_pos on]; exact ⟨rfl, rfl⟩

theorem warmResets_idle (off : s.sys.pkg.pw.powered = false) : Idles .warmReset s ∧ Idles .functionLevelReset s := by
  simp [Idles, warmReset_row, functionLevelReset_row, off]

/-! ## Boot (R285) -/

/-- The boot runs: the device has power, no phase has failed, and the last is still to come. -/
def Sys.boots (y : Sys) : Prop := y.pkg.pw.powered = true ∧ y.pkg.sec.fail = false ∧ y.pkg.sec.phase < 5

theorem Sys.boots_iff (y : Sys) : y.boots ↔ (!y.pkg.pw.powered || y.pkg.sec.fail || decide (5 ≤ y.pkg.sec.phase)) = false := by
  simp [Sys.boots, and_assoc]

theorem bootPhaseComplete_idles (stopped : ¬ s.sys.boots) (ok : Bool) (err : BitVec 8) : Idles (.bootPhaseComplete ok err) s :=
  idles_of_event (bootPhaseComplete_row s ok err) (if_pos (Bool.not_eq_false _ ▸ mt (Sys.boots_iff _).mpr stopped))

section
variable (boots : s.sys.boots) (err : BitVec 8)
include boots

/-- The phase after the present one. -/
theorem bootPhaseComplete_reaches (other : s.sys.pkg.sec.phase + 1 ≠ 4) : Becomes (.bootPhaseComplete true err) s fun y =>
    { y with pkg := { y.pkg with sec := { y.pkg.sec with phase := y.pkg.sec.phase + 1, ready := y.pkg.sec.phase + 1 == 5 } } } := by
  have other : (s.sys.pkg.sec.phase + 1 == 4) = false := beq_eq_false_iff_ne.mpr other
  refine becomes_of_event (bootPhaseComplete_row s true err) ((if_neg (Bool.eq_false_iff.mp ((Sys.boots_iff _).mp boots))).trans ?_)
  simp only [other, Bool.and_false, Bool.false_eq_true, if_false, if_true]

/-- Phase 4 draws the keys (R289). -/
theorem bootPhaseComplete_reaches_keys (fourth : s.sys.pkg.sec.phase + 1 = 4) : Becomes (.bootPhaseComplete true err) s fun y =>
    { y with pkg := { y.pkg.newKeys with sec := { y.pkg.sec with phase := 4, ready := false } } } := by
  refine becomes_of_event (bootPhaseComplete_row s true err) ((if_neg (Bool.eq_false_iff.mp ((Sys.boots_iff _).mp boots))).trans ?_)
  simp only [fourth, beq_self_eq_true, Bool.and_self, if_true]
  rfl

theorem bootPhaseComplete_fails : Becomes (.bootPhaseComplete false err) s fun y =>
    { y with pkg := { y.pkg with sec := { y.pkg.sec with phase := y.pkg.sec.phase + 1, fail := true, err := err } } } :=
  becomes_of_event (bootPhaseComplete_row s false err) (if_neg (Bool.eq_false_iff.mp ((Sys.boots_iff _).mp boots)))

end

end

/-- Keys drawn anew: the generation of each owner's key rises by one, and its tables stay (R289). -/
theorem Pkg.newKeys_owner (p : Pkg) {o : Nat} (inside : o < 5) : vget p.newKeys.owners o = { vget p.owners o with keyGen := (vget p.owners o).keyGen + 1 } := by
  simp [Pkg.newKeys, vget, inside]

/-! ## Soft errors (R341) -/

/-- The controller of level `n` meets an uncorrectable word in its state: it is reported, and the level accepts no further record. -/
def Sys.reportController (y : Sys) (n : Nat) : Sys :=
  let z := y.pfqAppend (faultWord0 false 11 4 0 0, levelPath n, 0, 0)
  { z with pkg := { z.pkg with struck := z.pkg.struck.filter (· != n), deafLevels := if z.pkg.deafLevels.contains n then z.pkg.deafLevels else z.pkg.deafLevels ++ [n] } }

theorem Sys.controllerReads_eq_foldl (y : Sys) : y.controllerReads = (y.pkg.struck.filter y.controls).foldl Sys.reportController y := rfl

theorem Sys.mem_deafLevels_reportController {y : Sys} {n m : Nat} :
    m ∈ (y.reportController n).pkg.deafLevels ↔ m = n ∨ m ∈ y.pkg.deafLevels := by
  simp only [Sys.reportController, Sys.pfqAppend, Pkg.pfqAppend, List.contains_iff_mem]
  split
  · next deaf => exact ⟨.inr, fun h => h.elim (fun e => e ▸ deaf) id⟩
  · simp [or_comm]

theorem Sys.mem_deafLevels_foldl_reportController {l : List Nat} {y : Sys} {m : Nat} :
    m ∈ (l.foldl Sys.reportController y).pkg.deafLevels ↔ m ∈ l ∨ m ∈ y.pkg.deafLevels := by
  induction l generalizing y with
  | nil => simp
  | cons n rest ih => rw [List.foldl_cons, ih, Sys.mem_deafLevels_reportController, List.mem_cons, or_left_comm, or_assoc]

theorem Sys.controllerReads_deafens {y : Sys} {n : Nat} (struck : n ∈ y.pkg.struck) (reads : y.controls n = true) : n ∈ y.controllerReads.pkg.deafLevels := by
  rw [Sys.controllerReads_eq_foldl, Sys.mem_deafLevels_foldl_reportController]
  exact .inl (List.mem_filter.mpr ⟨struck, reads⟩)

theorem Sys.controllerReads_of_one {y : Sys} {n : Nat} (struck : y.pkg.struck = [n]) (reads : y.controls n = true) : y.controllerReads = y.reportController n := by
  rw [Sys.controllerReads_eq_foldl, struck, List.filter_cons_of_pos reads]; rfl

theorem Sys.reportController_struck (y : Sys) (n : Nat) : (y.reportController n).pkg.struck = y.pkg.struck.filter (· != n) := rfl

theorem Sys.reportController_pfq (y : Sys) (n : Nat) : (y.reportController n).pkg.pfq = (y.pkg.pfqAppend (faultWord0 false 11 4 0 0, levelPath n, 0, 0)).pfq := rfl

/-! ## O58 -/

/-- Settles O58: every reset leaves one and the same state but for its phase and power, and a controller that reads a struck word is reported. -/
theorem resetsAndBoot : Obligations.ResetsAndBoot := by
  unfold Obligations.ResetsAndBoot
  intro s ok err key n y anew d boots counted
  refine ⟨⟨_, coldReset_row s, s.resetTo_anew 0 true⟩, ⟨_, thermalPowerOff_row s, s.resetTo_anew 0 false⟩, fun on => ?warm, warmResets_idle,
    fun stopped => bootPhaseComplete_idles stopped ok err, fun boots => ⟨bootPhaseComplete_reaches boots err, fun fourth => ?keys, bootPhaseComplete_fails boots err⟩,
    fun site => becomes_of_event (softError_row s site true) rfl, becomes_of_event (softError_row s (.memory key) false) rfl, ?strikes,
    Sys.controllerReads_deafens, fun struck reads first room => ?report⟩
  case warm =>
    obtain ⟨warm, level⟩ := warmResets_anew on
    exact ⟨⟨_, warm, s.resetTo_anew 1 true⟩, ⟨_, level, s.resetTo_anew 1 true⟩⟩
  case keys =>
    have drawn (o : Nat) (inside : o < 5) := y.pkg.newKeys_owner inside
    refine ⟨y.pkg.newKeys.owners, bootPhaseComplete_reaches_keys boots err fourth, fun o inside => ?_⟩
    rw [drawn o inside]; exact ⟨rfl, rfl⟩
  case strikes => exact becomes_of_event (softError_row s (.controller n) false) (by simp)
  case report =>
    rw [Sys.controllerReads_of_one struck reads, Sys.reportController_struck, Sys.reportController_pfq, struck]
    exact ⟨by simp, (y.pkg.pfqAppend_first _ room first).1⟩

end Sys2Proof.Machine
end

section
/-! PROOFS. Twidom's answers to SPDM messages (R281, R285 to R287). -/

namespace Sys2Proof.Machine

/-! ## The message at hand -/

theorem Sys.attests_iff (y : Sys) : y.attests = true ↔ y.pkg.pw.powered = true ∧ (1 ≤ y.pkg.sec.phase ∨ y.pkg.sec.fail = true) := by
  simp [Sys.attests]

/-- The state once the message at hand has been taken from its channel. -/
def State.taken (s : State) : State := { s with sys := { s.sys with channels := s.sys.channels.tail } }

theorem State.message_eq (s : State) (f : Channel → State → Host.Outcome State Fault Refusal) : s.message f = f s.sys.channel s.taken := rfl

/-- The exchange on a channel comes to `x`, the agreed keys of the links to `keys`. -/
def Sys.tell (y : Sys) (ch : Channel) (x : Session) (keys : BitVec 16) : Sys :=
  { y with pkg := { y.pkg with sec := { y.pkg.sec with sessions := vset y.pkg.sec.sessions (sessionOf ch) x, linkKeys := keys } } }

/-! ## What a message can do -/

section
variable {u : State} {ch : Channel} {a : Session → Bool} {f : Session → Session} {code : Nat} {data : Sys → List Byte}
  {algs : List Algorithm} {signs : Bool}

/-- Before its firmware has been checked Twidom answers nothing (R285). -/
theorem State.spdm_of_silent (silent : u.sys.attests = false) : u.spdm ch a f code data algs signs = .next u := by
  rw [State.spdm, State.event_next, silent]; rfl

/-- A message for which the exchange has not come far enough is answered with ERROR. -/
theorem State.spdm_of_refused (attests : u.sys.attests = true) (refused : a (u.sys.pkg.sec.session ch) = false) :
    u.spdm ch a f code data algs signs =
      .next { u with sys := u.sys.tell ch { u.sys.pkg.sec.session ch with response := some { code := 0x7F } } u.sys.pkg.sec.linkKeys } := by
  simp only [State.spdm, State.event_next, attests, refused, Bool.not_true, Bool.not_false, Bool.false_eq_true, if_false, if_true]
  rfl

/-- Another is answered, with a signature where it asks for one. -/
theorem State.spdm_of_allowed (attests : u.sys.attests = true) (allowed : a (u.sys.pkg.sec.session ch) = true) :
    ∃ r : Response, r.code = code ∧ r.signature.isSome = signs ∧ r.algorithms = algs ∧ u.spdm ch a f code data algs signs =
      .next { u with sys := (({ u.sys with taken := if signs then u.sys.taken + 1 else u.sys.taken } : Sys).tell ch
        { f (u.sys.pkg.sec.session ch) with response := some r } u.sys.pkg.sec.linkKeys) } := by
  refine ⟨{ code := code, data := data u.sys, algorithms := algs, signature := if signs then some u.sys.freeValue.1 else none }, rfl, ?_, rfl, ?_⟩
  · cases signs <;> rfl
  · simp only [State.spdm, State.event_next, attests, allowed, Bool.not_true, Bool.false_eq_true, if_false]
    cases signs <;> rfl

end

/-! ## Rows that are messages -/

/-- The row answers the message at hand, on a channel: nothing while Twidom is silent, ERROR where the exchange does not allow it, else with `code`,
and the exchange on the channel comes to `x`. -/
def Answers (ch : Channel) (i : Instr) (s : State) (allowed : Prop) (x : Session) (keys : BitVec 16) (code : Nat) (signed : Bool) (algs : List Algorithm) : Prop :=
  let y := s.taken.sys
  let attests : Prop := y.pkg.pw.powered = true ∧ (1 ≤ y.pkg.sec.phase ∨ y.pkg.sec.fail = true)
  (¬ attests → Becomes i s fun _ => y) ∧
  (attests → ¬ allowed → Becomes i s fun _ => y.tell ch { y.pkg.sec.session ch with response := some { code := 0x7F } } y.pkg.sec.linkKeys) ∧
  (attests → allowed → ∃ r : Response, r.code = code ∧ r.signature.isSome = signed ∧ r.algorithms = algs ∧ Becomes i s fun _ =>
    ({ y with taken := if signed then y.taken + 1 else y.taken } : Sys).tell ch { x with response := some r } keys)

section
variable {i : Instr} {s : State} {ch : Channel} (here : s.sys.channel = ch) {a : Session → Bool} {f : Session → Session} {code : Nat} {data : Sys → List Byte}
  {algs : List Algorithm} {signs : Bool}

include here

theorem answers_of_spdm (row : exec i s = s.message fun ch u => u.spdm ch a f code data algs signs) {allowed : Prop}
    (allows : a (s.sys.pkg.sec.session ch) = true ↔ allowed) :
    Answers ch i s allowed (f (s.sys.pkg.sec.session ch)) s.sys.pkg.sec.linkKeys code signs algs := by
  rw [State.message_eq, here] at row
  refine ⟨fun silent => ?_, fun attests refused => ?_, fun attests allowed => ?_⟩
  · exact row.trans (State.spdm_of_silent (Bool.eq_false_iff.mpr (mt (Sys.attests_iff _).mp silent)))
  · exact row.trans (State.spdm_of_refused ((Sys.attests_iff _).mpr attests) (Bool.eq_false_iff.mpr (mt allows.mp refused)))
  · obtain ⟨r, coded, signed, named, answered⟩ := State.spdm_of_allowed (u := s.taken) (ch := ch) (a := a) (f := f) (code := code) (data := data)
      (algs := algs) (signs := signs) ((Sys.attests_iff _).mpr attests) (allows.mpr allowed)
    exact ⟨r, coded, signed, named, row.trans answered⟩

end

section
variable (s : State)

theorem getVersion_row : exec .getVersion s = s.message fun ch u => u.spdm ch (fun _ => true) (fun x => { x with version := true }) 0x04 (fun _ => [0x13]) [] false := rfl

theorem getCapabilities_row : exec .getCapabilities s =
    s.message fun ch u => u.spdm ch (·.version) (fun x => { x with capabilities := true }) 0x61 (fun _ => capabilityFlags) [] false := rfl

theorem negotiateAlgorithms_row : exec .negotiateAlgorithms s =
    s.message fun ch u => u.spdm ch (·.capabilities) (fun x => { x with algorithms := true }) 0x63 (fun _ => []) [.mlDsa65, .shake256, .mlKem768, .aes256Gcm] false := rfl

theorem getDigests_row : exec .getDigests s =
    s.message fun ch u => u.spdm ch (·.algorithms) (fun x => x) 0x01 (fun _ => digestBytes Config.identityDigest) [] false := rfl

theorem getCertificate_row (slot : BitVec 3) : exec (.getCertificate slot) s =
    s.message fun ch u => u.spdm ch (fun x => x.algorithms && slot == 0) (fun x => x) 0x02 (fun y => openBytes y.taken 64) [] false := rfl

theorem challenge_row (slot : BitVec 3) : exec (.challenge slot) s =
    s.message fun ch u => u.spdm ch (fun x => x.algorithms && slot == 0) (fun x => x) 0x03 (fun _ => []) [] true := rfl

theorem getMeasurements_row (index : BitVec 8) : exec (.getMeasurements index) s =
    s.message fun ch u => u.spdm ch (fun x => x.algorithms && (decide (index.toNat ≤ 6) || index == 0xFF)) (fun x => x) 0x60
      (fun y => if index = 0 then [6] else if index = 0xFF then [1, 2, 3, 4, 5, 6].flatMap y.measurementBlock else y.measurementBlock index.toNat) [] true := rfl

theorem keyExchange_row : exec .keyExchange s = s.message fun ch u => u.spdm ch (·.algorithms) (fun x => { x with keyed := true }) 0x64 (fun _ => []) [] true := rfl

theorem keyUpdate_row : exec .keyUpdate s = s.message fun ch u => u.spdm ch (·.session) (fun x => x) 0x69 (fun _ => []) [] false := rfl

theorem heartbeat_row : exec .heartbeat s = s.message fun ch u => u.spdm ch (·.session) (fun x => x) 0x68 (fun _ => []) [] false := rfl

end

/-! ## FINISH (R281) -/

/-- The links with an agreed key once a session has come to stand on a channel. -/
def linksAgreed (ch : Channel) (keys : BitVec 16) : BitVec 16 := match ch with | .span k => keys ||| ((1 : BitVec 16) <<< k.toNat) | .doe => keys

theorem Sys.agreed_tell (y : Sys) (ch : Channel) (x : Session) (keys : BitVec 16) : (y.tell ch x keys).agreed ch = y.tell ch x (linksAgreed ch keys) := by
  cases ch <;> rfl

theorem finish_row (s : State) : exec .finish s =
    match s.taken.spdm s.sys.channel (·.keyed) (fun d => { d with keyed := false, session := true }) 0x65 (fun _ => []) [] false with
    | .next t => .next (if s.taken.sys.attests && (s.taken.sys.pkg.sec.session s.sys.channel).keyed then { t with sys := t.sys.agreed s.sys.channel } else t)
    | o => o := rfl

theorem finish_answers {s : State} {ch : Channel} (here : s.sys.channel = ch) :
    let x := s.sys.pkg.sec.session ch
    Answers ch .finish s (x.keyed = true) { x with keyed := false, session := true } (linksAgreed ch s.sys.pkg.sec.linkKeys) 0x65 false [] := by
  have row := finish_row s
  rw [here] at row
  refine ⟨fun silent => ?_, fun attests refused => ?_, fun attests allowed => ?_⟩
  · have silent : s.taken.sys.attests = false := Bool.eq_false_iff.mpr (mt (Sys.attests_iff _).mp silent)
    rw [State.spdm_of_silent silent] at row
    exact row.trans (by rw [silent]; rfl)
  · have refused : (s.taken.sys.pkg.sec.session ch).keyed = false := Bool.eq_false_iff.mpr refused
    rw [State.spdm_of_refused ((Sys.attests_iff _).mpr attests) refused] at row
    exact row.trans (by rw [refused, Bool.and_false]; rfl)
  · have attests : s.taken.sys.attests = true := (Sys.attests_iff _).mpr attests
    have allowed : (s.taken.sys.pkg.sec.session ch).keyed = true := allowed
    obtain ⟨r, coded, signed, named, answered⟩ := State.spdm_of_allowed (a := (·.keyed)) (f := fun d => { d with keyed := false, session := true }) (code := 0x65)
      (data := fun _ => []) (algs := []) (signs := false) attests allowed
    rw [answered] at row
    refine ⟨r, coded, signed, named, row.trans ?_⟩
    rw [attests, allowed, Bool.and_self]
    exact congrArg (fun y => Host.Outcome.next { s with sys := y }) (Sys.agreed_tell ..)

/-! ## The exchange on a channel -/

theorem twidom_answers {s : State} {ch : Channel} (here : s.sys.channel = ch) (slot : BitVec 3) (index : BitVec 8) :
    let keys := s.sys.pkg.sec.linkKeys
    let x := s.sys.pkg.sec.session ch
    Answers ch .getVersion s True { x with version := true } keys 0x04 false [] ∧
    Answers ch .getCapabilities s (x.version = true) { x with capabilities := true } keys 0x61 false [] ∧
    Answers ch .negotiateAlgorithms s (x.capabilities = true) { x with algorithms := true } keys 0x63 false [.mlDsa65, .shake256, .mlKem768, .aes256Gcm] ∧
    Answers ch .getDigests s (x.algorithms = true) x keys 0x01 false [] ∧
    Answers ch (.getCertificate slot) s (x.algorithms = true ∧ slot = 0) x keys 0x02 false [] ∧
    Answers ch (.challenge slot) s (x.algorithms = true ∧ slot = 0) x keys 0x03 true [] ∧
    Answers ch (.getMeasurements index) s (x.algorithms = true ∧ (index.toNat ≤ 6 ∨ index = 0xFF)) x keys 0x60 true [] ∧
    Answers ch .keyExchange s (x.algorithms = true) { x with keyed := true } keys 0x64 true [] ∧
    Answers ch .finish s (x.keyed = true) { x with keyed := false, session := true } (linksAgreed ch keys) 0x65 false [] ∧
    Answers ch .keyUpdate s (x.session = true) x keys 0x69 false [] ∧
    Answers ch .heartbeat s (x.session = true) x keys 0x68 false [] := by
  refine ⟨answers_of_spdm here (getVersion_row s) (iff_of_true rfl trivial), answers_of_spdm here (getCapabilities_row s) Iff.rfl,
    answers_of_spdm here (negotiateAlgorithms_row s) Iff.rfl, answers_of_spdm here (getDigests_row s) Iff.rfl, answers_of_spdm here (getCertificate_row s slot) ?_,
    answers_of_spdm here (challenge_row s slot) ?_, answers_of_spdm here (getMeasurements_row s index) ?_, answers_of_spdm here (keyExchange_row s) Iff.rfl,
    finish_answers here, answers_of_spdm here (keyUpdate_row s) Iff.rfl, answers_of_spdm here (heartbeat_row s) Iff.rfl⟩
  · exact Bool.and_eq_true_iff.trans (and_congr Iff.rfl beq_iff_eq)
  · exact Bool.and_eq_true_iff.trans (and_congr Iff.rfl beq_iff_eq)
  · exact Bool.and_eq_true_iff.trans (and_congr Iff.rfl (Bool.or_eq_true_iff.trans (or_congr decide_eq_true_iff beq_iff_eq)))

/-! ## O59 -/

/-- Settles O59: each message is one exchange of the form `Answers`, FINISH with the key that it agrees. -/
theorem attestationMessages : Obligations.AttestationMessages := by
  unfold Obligations.AttestationMessages
  intro s slot index
  generalize here : s.sys.channels.headD .doe = ch
  cases ch with
  | doe => exact twidom_answers here slot index
  | span k => exact twidom_answers here slot index

end Sys2Proof.Machine
end

section
/-! PROOFS. Sealing: the stages of a seal and of an unseal, the end of a session, IDE keys (R282, R288 to R290). -/

namespace Sys2Proof.Machine

/-! ## When a seal may start (R290) -/

theorem Sys.quiet_iff (y : Sys) : y.quiet = true ↔
    (∀ g ∈ y.cores, ∀ k ∈ g.2.ctxs.toList, k.state = .idle) ∧ (∀ w ∈ y.pkg.wins.toList, w.en = false) ∧
      (∀ j, j < 16 → bit (vget y.pkg.hwin (2 * j)) 63 = false ∧ bit (vget y.pkg.pwin (2 * j)) 63 = false) ∧ ∀ j, j < 8 → bit (vget y.pkg.shw (2 * j)) 63 = false := by
  have shared_first (p : Nat → Prop) : (∀ j, j < 16 → 8 ≤ j ∨ p j) ↔ ∀ j, j < 8 → p j :=
    ⟨fun h j first => (h j (by omega)).resolve_left (by omega), fun h j _ => (Nat.lt_or_ge j 8).symm.imp_right (h j)⟩
  simp only [Sys.quiet, Bool.and_eq_true, List.all_eq_true, beq_iff_eq, Bool.not_eq_true', List.mem_range, Bool.or_eq_true, decide_eq_true_eq, and_assoc,
    forall_and, shared_first]

theorem Security.holdsSeal_iff (d : Security) (ch : Channel) :
    d.holdsSeal ch = true ↔ (d.sealState = 1 ∨ d.sealState = 2) ∧ d.sealer = sessionOf ch := by
  simp [Security.holdsSeal]

theorem sessionOf_lt (ch : Channel) : sessionOf ch < 17 := by
  cases ch with
  | doe => decide
  | span k => exact Nat.lt_succ_of_lt k.isLt

/-! ## The device emptied (R289, R290) -/

/-- `t` holds no context, nothing under way, and of memory no more than `s` does; every owner's keys are new. -/
def State.EmptiedFrom (s t : State) : Prop :=
  t.sys.cores = [] ∧ t.sys.agenda = [] ∧ t.sys.flits = [] ∧ t.sys.pkg.recs = [] ∧ t.sys.pkg.spreads = [] ∧
    (∀ o, o < 5 → (vget t.sys.pkg.owners o).keyGen = (vget s.sys.pkg.owners o).keyGen + 1) ∧ ∀ c ∈ t.mem, c ∈ s.mem

theorem vget_map {α β : Type} [Inhabited α] [Inhabited β] {n : Nat} (f : α → β) (v : Vector α n) {i : Nat} (inside : i < n) : vget (v.map f) i = f (vget v i) := by
  simp [vget, inside]

theorem Sys.mem_of_mem_rekeyed (y : Sys) {m : Memory} {c : Host.Cell} (left : c ∈ y.rekeyed m) : c ∈ m := (List.mem_filter.mp left).1

theorem Pkg.zeroed_keyGen (p : Pkg) {o : Nat} (inside : o < 5) : (vget p.zeroed.owners o).keyGen = (vget p.owners o).keyGen + 1 := by
  rw [Pkg.zeroed, vget_map _ _ inside]

theorem State.opened_keyGen (u : State) {o : Nat} (inside : o < 5) : (vget u.opened.sys.pkg.owners o).keyGen = (vget u.sys.pkg.owners o).keyGen + 1 := by
  have mapped : u.opened.sys.pkg.owners = (u.sys.pkg.owners.map fun w => { w with keyGen := w.keyGen + 1 }).map fun w => { w with flipping := none } := rfl
  rw [mapped, vget_map _ _ inside, vget_map _ _ inside]

theorem State.opened_emptied (u : State) (f : Security → Security) : u.EmptiedFrom { u.opened with sys := u.opened.sys.modSec f } :=
  ⟨rfl, rfl, rfl, rfl, rfl, fun _ inside => u.opened_keyGen inside, fun _ left => u.sys.mem_of_mem_rekeyed left⟩

/-! ## What the rows do -/

/-- The row answers the request with `code` on the channel of number `n`, and nothing else changes. -/
def Replies (n : Nat) (i : Instr) (s : State) (code : Nat) : Prop := Becomes i s fun _ => s.taken.sys.modSec fun d => d.answer n code

/-- The row starts the unseal. -/
def Opens (i : Instr) (s : State) : Prop :=
  ∃ t due, exec i s = .next t ∧ s.taken.EmptiedFrom t ∧ t.sys.pkg.sec.sealState = 3 ∧ t.sys.pkg.sec.gen = s.sys.pkg.sec.gen ∧ t.sys.pkg.sec.program = [] ∧
    t.sys.pkg.sec.sealing = none ∧ t.sys.pkg.sec.unsealing = some due ∧ s.sys.wcyc < due

/-- The row ends the session of number `n`, and no more. -/
def Closes (n : Nat) (i : Instr) (s : State) : Prop :=
  ∃ t, exec i s = .next t ∧ t.mem = s.mem ∧ t.sys.cores = s.sys.cores ∧ t.sys.pkg.sec.sealState = s.sys.pkg.sec.sealState ∧
    (vget t.sys.pkg.sec.sessions n).session = false ∧ (vget t.sys.pkg.sec.sessions n).keyed = false

/-- The seal has started: its image is read from what is left of memory. -/
def Seals (n : Nat) (va : Word) (digest : BitVec 256) (size : Nat) (s : State) : Prop :=
  ∃ t job, exec (.seal va digest size) s = .next t ∧ s.taken.EmptiedFrom t ∧ t.sys.pkg.sec.sealState = 1 ∧ t.sys.pkg.sec.gen = s.sys.pkg.sec.gen ∧
    t.sys.pkg.sec.sealer = n ∧ t.sys.pkg.sec.sealing = some job ∧ s.sys.wcyc < job.due ∧ job.digest = leBytes 32 digest.toNat ∧
    job.image = (match ((s.taken.sys.readSpan s.mem 0 0 va size).1.readSpan t.mem 0 0 va size).2 with | .ok bs => some bs | .error _ => none)

section
variable {s : State} {ch : Channel} (here : s.sys.channel = ch) {va : Word} {digest : BitVec 256} {size : Nat}
include here

theorem unseal_row : exec .unseal s =
    if !s.taken.sys.attests then .next s.taken
    else if (s.taken.sys.pkg.sec.session ch).session && s.taken.sys.pkg.sec.holdsSeal ch then
      .next { s.taken.opened with sys := s.taken.opened.sys.modSec fun d => d.answer (sessionOf ch) 0x7E }
    else .next { s.taken with sys := s.taken.sys.modSec fun d => d.answer (sessionOf ch) 0x7F } := by
  rw [← here]; rfl

theorem heartbeatLoss_row : exec .heartbeatLoss s =
    if s.taken.sys.attests && (s.taken.sys.pkg.sec.session ch).session then .next (s.taken.endSession ch) else .next s.taken := by
  rw [← here]; rfl

theorem endSession_row : exec .endSession s =
    if !s.taken.sys.attests then .next s.taken
    else if (s.taken.sys.pkg.sec.session ch).session then
      .next { s.taken.endSession ch with sys := (s.taken.endSession ch).sys.modSec fun d => d.answer (sessionOf ch) 0x6C }
    else .next { s.taken with sys := s.taken.sys.modSec fun d => d.answer (sessionOf ch) 0x7F } := by
  rw [← here]; rfl

theorem seal_row (va : Word) (digest : BitVec 256) (size : Nat) : exec (.seal va digest size) s =
    if !s.taken.sys.attests then .next s.taken
    else if !((s.taken.sys.pkg.sec.session ch).session && s.taken.sys.pkg.opened && s.taken.sys.quiet) then
      .next { s.taken with sys := s.taken.sys.modSec fun d => d.answer (sessionOf ch) 0x7F }
    else
      let y := s.taken.sys
      let m := y.rekeyed s.mem
      let img := (y.readSpan s.mem 0 0 va size).1.readSpan m 0 0 va size
      let t := y.latency
      let job : Sealing := { due := y.wcyc + t.1, image := match img.2 with | .ok bs => some bs | .error _ => none, digest := digestBytes digest }
      .next { mem := m, sys := (t.2.emptied y.pkg.zeroed).modSec fun d => { d with sealState := 1, sealer := (sessionOf ch), sealing := some job } } := by
  rw [← here]; rfl

/-! ### Without a checked firmware, or outside a session -/

theorem sealRows_idle_of_silent (silent : s.sys.attests = false) :
    ∀ i ∈ [.seal va digest size, .unseal, .endSession, .heartbeatLoss], Becomes i s fun _ => s.taken.sys := by
  have silent : s.taken.sys.attests = false := silent
  simp only [List.forall_mem_cons, List.not_mem_nil, false_implies, implies_true, and_true]
  refine ⟨(seal_row here va digest size).trans ?_, (unseal_row here).trans ?_, (endSession_row here).trans ?_, (heartbeatLoss_row here).trans ?_⟩ <;> rw [silent] <;> rfl

section
variable (attests : s.sys.attests = true)
include attests

theorem seal_replies (refused : ((s.sys.pkg.sec.session ch).session && s.sys.pkg.opened && s.sys.quiet) = false) :
    Replies (sessionOf ch) (.seal va digest size) s 0x7F := by
  have attests : s.taken.sys.attests = true := attests
  have refused : ((s.taken.sys.pkg.sec.session ch).session && s.taken.sys.pkg.opened && s.taken.sys.quiet) = false := refused
  refine (seal_row here va digest size).trans ?_
  rw [attests, refused]; rfl

theorem unseal_replies (refused : ((s.sys.pkg.sec.session ch).session && s.sys.pkg.sec.holdsSeal ch) = false) :
    Replies (sessionOf ch) .unseal s 0x7F := by
  have attests : s.taken.sys.attests = true := attests
  have refused : ((s.taken.sys.pkg.sec.session ch).session && s.taken.sys.pkg.sec.holdsSeal ch) = false := refused
  refine (unseal_row here).trans ?_
  rw [attests, refused]; rfl

theorem endSession_replies (outside : (s.sys.pkg.sec.session ch).session = false) : Replies (sessionOf ch) .endSession s 0x7F := by
  have attests : s.taken.sys.attests = true := attests
  have outside : (s.taken.sys.pkg.sec.session ch).session = false := outside
  refine (endSession_row here).trans ?_
  rw [attests, outside]; rfl

end

theorem heartbeatLoss_becomes_of_outside (outside : (s.sys.pkg.sec.session ch).session = false) : Becomes .heartbeatLoss s fun _ => s.taken.sys := by
  have outside : (s.taken.sys.pkg.sec.session ch).session = false := outside
  refine (heartbeatLoss_row here).trans ?_
  rw [outside, Bool.and_false]; rfl

/-! ### The seal, the unseal, the end of a session -/

theorem seal_seals (attests : s.sys.attests = true) (may : ((s.sys.pkg.sec.session ch).session && s.sys.pkg.opened && s.sys.quiet) = true) :
    Seals (sessionOf ch) va digest size s := by
  have attests : s.taken.sys.attests = true := attests
  have may : ((s.taken.sys.pkg.sec.session ch).session && s.taken.sys.pkg.opened && s.taken.sys.quiet) = true := may
  have row := seal_row here va digest size
  rw [attests, may] at row
  refine ⟨_, _, row, ⟨rfl, rfl, rfl, rfl, rfl, fun _ inside => s.taken.sys.pkg.zeroed_keyGen inside, fun _ left => s.taken.sys.mem_of_mem_rekeyed left⟩,
    rfl, rfl, rfl, rfl, ?_, rfl, rfl⟩
  show s.sys.wcyc < s.sys.wcyc + (1 + _)
  omega

section
variable (attests : s.sys.attests = true) (session : (s.sys.pkg.sec.session ch).session = true)
include attests session

theorem heartbeatLoss_ends : exec .heartbeatLoss s = .next (s.taken.endSession ch) := by
  have attests : s.taken.sys.attests = true := attests
  have session : (s.taken.sys.pkg.sec.session ch).session = true := session
  rw [heartbeatLoss_row here, attests, session]; rfl

theorem endSession_ends :
    exec .endSession s = .next { s.taken.endSession ch with sys := (s.taken.endSession ch).sys.modSec fun d => d.answer (sessionOf ch) 0x6C } := by
  have attests : s.taken.sys.attests = true := attests
  have session : (s.taken.sys.pkg.sec.session ch).session = true := session
  rw [endSession_row here, attests, session]; rfl

end

end

/-- An unseal that starts, with what the row that starts it does to the sessions alone. -/
theorem opens_of_opened {i : Instr} {s : State} {f : Security → Security} (row : exec i s = .next { s.taken.opened with sys := s.taken.opened.sys.modSec f })
    (sessions_only : ∀ d, f d = { d with sessions := (f d).sessions }) : Opens i s := by
  have secured : (s.taken.opened.sys.modSec f).pkg.sec = { s.taken.opened.sys.pkg.sec with sessions := (f s.taken.opened.sys.pkg.sec).sessions } := sessions_only _
  refine ⟨_, _, row, s.taken.opened_emptied f, congrArg Security.sealState secured, (congrArg Security.gen secured :), congrArg Security.program secured,
    congrArg Security.sealing secured, congrArg Security.unsealing secured, ?_⟩
  show s.sys.wcyc < s.sys.wcyc + (1 + _)
  omega

theorem State.endSession_of_holds {u : State} {ch : Channel} (holds : u.sys.pkg.sec.holdsSeal ch = true) :
    u.endSession ch = { u.opened with sys := u.opened.sys.modSec fun d => d.modSession ch fun x => { x with session := false, keyed := false } } := by
  simp only [State.endSession, holds, if_true]

theorem State.endSession_of_other {u : State} {ch : Channel} (other : u.sys.pkg.sec.holdsSeal ch = false) :
    u.endSession ch = { u with sys := u.sys.modSec fun d => d.modSession ch fun x => { x with session := false, keyed := false } } := by
  simp only [State.endSession, other, Bool.false_eq_true, if_false]

section
variable {s : State} {ch : Channel} (here : s.sys.channel = ch) (attests : s.sys.attests = true) (session : (s.sys.pkg.sec.session ch).session = true)
include here attests session

/-- UNSEAL, the end of the sealing session and the loss of its heartbeat start the unseal (R290). -/
theorem sealer_opens (holds : s.sys.pkg.sec.holdsSeal ch = true) : Opens .unseal s ∧ Opens .endSession s ∧ Opens .heartbeatLoss s := by
  have holds : s.taken.sys.pkg.sec.holdsSeal ch = true := holds
  have attests_now : s.taken.sys.attests = true := attests
  have session_now : (s.taken.sys.pkg.sec.session ch).session = true := session
  have unsealed := unseal_row here
  have ended := endSession_ends here attests session
  have lost := heartbeatLoss_ends here attests session
  rw [attests_now, session_now, holds] at unsealed
  rw [State.endSession_of_holds holds] at ended lost
  exact ⟨opens_of_opened unsealed fun _ => rfl,
    opens_of_opened (f := fun d => (d.modSession ch fun x => { x with session := false, keyed := false }).answer (sessionOf ch) 0x6C) ended fun _ => rfl,
    opens_of_opened lost fun _ => rfl⟩

/-- The end of another session ends that session alone (R290). -/
theorem other_closes (other : s.sys.pkg.sec.holdsSeal ch = false) : Closes (sessionOf ch) .endSession s ∧ Closes (sessionOf ch) .heartbeatLoss s := by
  have ended := State.endSession_of_other (u := s.taken) other
  have inside := sessionOf_lt ch
  refine ⟨⟨_, endSession_ends here attests session, ?_⟩, ⟨_, heartbeatLoss_ends here attests session, ?_⟩⟩
  · rw [ended]
    refine ⟨rfl, rfl, rfl, ?_⟩
    simp [Sys.modSec, Security.answer, Security.modSession, vmod, vget_vset_same _ _ _ inside]
  · rw [ended]
    refine ⟨rfl, rfl, rfl, ?_⟩
    simp [Sys.modSec, Security.modSession, vmod, vget_vset_same _ _ _ inside]

end

/-! ## The ends of a seal and of an unseal (R290) -/

theorem Sys.settleSeal_of_sealing {y : Sys} {job : Sealing} (sealing : y.pkg.sec.sealing = some job) :
    y.settleSeal = if job.due ≤ y.wcyc then y.modSec fun d => d.sealEnds job else y := by
  simp only [Sys.settleSeal, sealing]

theorem Sys.settleSeal_of_unsealing {y : Sys} {due : Nat} (none_sealing : y.pkg.sec.sealing = none) (unsealing : y.pkg.sec.unsealing = some due) :
    y.settleSeal = if due ≤ y.wcyc then y.modSec fun d => { d with sealState := 0, unsealing := none } else y := by
  simp only [Sys.settleSeal, none_sealing, unsealing]

theorem Sys.settleSeal_of_none {y : Sys} (none_sealing : y.pkg.sec.sealing = none) (none_unsealing : y.pkg.sec.unsealing = none) : y.settleSeal = y := by
  simp only [Sys.settleSeal, none_sealing, none_unsealing]

/-- The image is the one whose digest was given. -/
def Sealing.Good (job : Sealing) : Prop := ∃ bs, job.image = some bs ∧ shake256 bs = job.digest

theorem Security.sealEnds_of_good (d : Security) {job : Sealing} (good : job.Good) : ∃ bs, job.image = some bs ∧
    d.sealEnds job = { d.answer d.sealer 0x7E with sealState := 2, gen := d.gen + 1, measured := job.digest, program := bs, sealing := none } := by
  obtain ⟨bs, image, digest⟩ := good
  exact ⟨bs, image, by simp [Security.sealEnds, image, digest]⟩

theorem Security.sealEnds_of_bad (d : Security) {job : Sealing} (bad : ¬ job.Good) :
    d.sealEnds job = { d.answer d.sealer 0x7F with sealState := 0, sealing := none } := by
  unfold Security.sealEnds
  split
  · next bs image => exact if_neg fun same => bad ⟨bs, image, beq_iff_eq.mp same⟩
  · rfl

/-! ## IDE (R282) -/

theorem ideKeyManagement_row (s : State) (active : Bool) :
    exec (.ideKeyManagement active) s = s.event fun y => (if y.attests then y.modSec fun d => { d with ide := active } else y, []) := rfl

theorem ideKeyManagement_idles {s : State} (silent : s.sys.attests = false) (active : Bool) : Idles (.ideKeyManagement active) s :=
  idles_of_event (ideKeyManagement_row s active) (by rw [silent]; rfl)

theorem ideKeyManagement_becomes {s : State} (attests : s.sys.attests = true) (active : Bool) :
    Becomes (.ideKeyManagement active) s fun y => y.modSec fun d => { d with ide := active } :=
  becomes_of_event (ideKeyManagement_row s active) (by rw [attests]; rfl)

/-! ## O60 -/

/-- What each row does on the channel of its message. -/
theorem seal_stages {s : State} {ch : Channel} (here : s.sys.channel = ch) (va : Word) (digest : BitVec 256) (size : Nat) (active : Bool) :
    let y := s.taken.sys
    let d := y.pkg.sec
    let n := sessionOf ch
    let x := vget d.sessions n
    let attests : Prop := y.pkg.pw.powered = true ∧ (1 ≤ d.phase ∨ d.fail = true)
    let shut (w : Word) : Prop := bit w 63 = false
    let idle : Prop := (∀ g ∈ y.cores, ∀ k ∈ g.2.ctxs.toList, k.state = .idle) ∧ (∀ w ∈ y.pkg.wins.toList, w.en = false) ∧
      (∀ j, j < 16 → shut (vget y.pkg.hwin (2 * j)) ∧ shut (vget y.pkg.pwin (2 * j))) ∧ ∀ j, j < 8 → shut (vget y.pkg.shw (2 * j))
    let may : Prop := x.session = true ∧ y.pkg.opened = true ∧ idle
    let holds : Prop := (d.sealState = 1 ∨ d.sealState = 2) ∧ d.sealer = n
    (¬ attests → (∀ i ∈ [.seal va digest size, .unseal, .endSession, .heartbeatLoss], Becomes i s fun _ => y) ∧ Idles (.ideKeyManagement active) s) ∧
    (attests →
      (¬ may → Replies n (.seal va digest size) s 0x7F) ∧ (may → Seals n va digest size s) ∧
      (x.session = true → holds → Opens .unseal s ∧ Opens .endSession s ∧ Opens .heartbeatLoss s) ∧
      (x.session = false ∨ ¬ holds → Replies n .unseal s 0x7F) ∧
      (x.session = false → Replies n .endSession s 0x7F ∧ Becomes .heartbeatLoss s fun _ => y) ∧
      (x.session = true → ¬ holds → Closes n .endSession s ∧ Closes n .heartbeatLoss s) ∧
      Becomes (.ideKeyManagement active) s fun y => y.modSec fun d => { d with ide := active }) := by
  intro y d n x attests shut idle may holds
  have may_iff : ((d.session ch).session && y.pkg.opened && y.quiet) = true ↔ may := by rw [Bool.and_eq_true, Bool.and_eq_true, Sys.quiet_iff, and_assoc]; rfl
  have holds_iff : d.holdsSeal ch = true ↔ holds := d.holdsSeal_iff ch
  refine ⟨fun silent => ?_, fun attests => ?_⟩
  · have silent : s.sys.attests = false := Bool.eq_false_iff.mpr (mt (Sys.attests_iff _).mp silent)
    exact ⟨sealRows_idle_of_silent here silent, ideKeyManagement_idles silent active⟩
  · have attests : s.sys.attests = true := (Sys.attests_iff _).mpr attests
    refine ⟨fun refused => seal_replies here attests (Bool.eq_false_iff.mpr (mt may_iff.mp refused)), fun allowed => seal_seals here attests (may_iff.mpr allowed),
      fun session sealer => sealer_opens here attests session (holds_iff.mpr sealer), fun refused => unseal_replies here attests ?_,
      fun outside => ⟨endSession_replies here attests outside, heartbeatLoss_becomes_of_outside here outside⟩,
      fun session other => other_closes here attests session (Bool.eq_false_iff.mpr (mt holds_iff.mp other)), ideKeyManagement_becomes attests active⟩
    rcases refused with outside | other
    · exact Bool.and_eq_false_imp.mpr fun session => absurd session (Bool.eq_false_iff.mp outside)
    · exact Bool.and_eq_false_imp.mpr fun _ => Bool.eq_false_iff.mpr (mt holds_iff.mp other)

/-- What a cycle makes of a seal or an unseal under way. -/
theorem settleSeal_stages (y : Sys) :
    let d := y.pkg.sec
    let z := y.settleSeal.pkg.sec
    (∀ job, d.sealing = some job →
      (y.wcyc < job.due → y.settleSeal = y) ∧
      (job.due ≤ y.wcyc → z.sealing = none ∧
        (job.Good → z.sealState = 2 ∧ z.gen = d.gen + 1 ∧ z.measured = job.digest ∧ job.image = some z.program) ∧ (¬ job.Good → z.sealState = 0 ∧ z.gen = d.gen))) ∧
    (∀ due, d.sealing = none → d.unsealing = some due →
      (y.wcyc < due → y.settleSeal = y) ∧ (due ≤ y.wcyc → z.sealState = 0 ∧ z.unsealing = none ∧ z.gen = d.gen)) ∧
    (d.sealing = none → d.unsealing = none → y.settleSeal = y) := by
  intro d z
  refine ⟨fun job sealing => ⟨fun early => ?_, fun late => ?_⟩, fun due none_sealing unsealing => ⟨fun early => ?_, fun late => ?_⟩, Sys.settleSeal_of_none⟩
  · rw [Sys.settleSeal_of_sealing sealing, if_neg (Nat.not_le_of_lt early)]
  · have ends : z = d.sealEnds job := by simp only [z, Sys.settleSeal_of_sealing sealing, if_pos late]; rfl
    by_cases good : job.Good
    · obtain ⟨bs, image, ended⟩ := d.sealEnds_of_good good
      rw [ends, ended]
      exact ⟨rfl, fun _ => ⟨rfl, rfl, rfl, image⟩, fun bad => absurd good bad⟩
    · rw [ends, d.sealEnds_of_bad good]
      exact ⟨rfl, fun h => absurd h good, fun _ => ⟨rfl, rfl⟩⟩
  · rw [Sys.settleSeal_of_unsealing none_sealing unsealing, if_neg (Nat.not_le_of_lt early)]
  · have ends : z = { d with sealState := 0, unsealing := none } := by simp only [z, Sys.settleSeal_of_unsealing none_sealing unsealing, if_pos late]; rfl
    rw [ends]
    exact ⟨rfl, rfl, rfl⟩

/-- Settles O60: the rows by the channel of their message, and the ends of a seal and an unseal by the cycle. -/
theorem sealAndUnseal : Obligations.SealAndUnseal := by
  unfold Obligations.SealAndUnseal
  intro s va digest size active
  generalize here : s.sys.channels.headD .doe = ch
  have settles := settleSeal_stages s.taken.sys
  have stages := seal_stages here va digest size active
  cases ch with
  | doe => exact ⟨stages.1, stages.2, settles⟩
  | span k => exact ⟨stages.1, stages.2, settles⟩

end Sys2Proof.Machine
end

section
/-! PROOFS. What the supervisor does to a context: TKILL, and the commands of CCMD (R342, R343, R352, R353). -/

namespace Sys2Proof.Machine

/-! ## Contexts that a change leaves as they are -/

theorem Sys.ctx_of_cores {y w : Sys} (same : y.cores = w.cores) (g x : Nat) : y.ctx g x = w.ctx g x := by
  simp only [Sys.ctx, Sys.core, same]

/-- A change of a core that keeps its contexts keeps every context. -/
theorem Sys.ctx_modCore (y : Sys) (g : Nat) {f : Core → Core} (keeps : ∀ c, (f c).ctxs = c.ctxs) (h x : Nat) : (y.modCore g f).ctx h x = y.ctx h x := by
  by_cases same : g = h
  · subst same; simp [Sys.modCore, Sys.ctx, Core.ctx, keeps]
  · simp [Sys.modCore, Sys.ctx, Sys.core_setCore_other, same]

section
variable {g x h z : Nat} (ne : g ≠ h ∨ x ≠ z)
include ne

theorem Sys.ctx_cancel_other (y : Sys) (since : Nat) : (y.cancel g x since).ctx h z = y.ctx h z := by
  unfold Sys.cancel
  rw [Sys.ctx_modCtx_other _ _ _ _ _ _ ne, Sys.ctx_modCore]
  · rfl
  · exact fun _ => rfl

theorem Sys.ctx_dropRegion_other (y : Sys) : (y.dropRegion g x).ctx h z = y.ctx h z := by
  by_cases opened : (y.ctx g x).region.open_ = true
  · have dropped : y.dropRegion g x = _ := if_pos opened
    rw [dropped]
    cases (y.ctx g x).region.checkpoint with
    | some r =>
      dsimp -zeta only
      extract_lets cancelled unraised undone
      calc Sys.ctx _ h z
        _ = undone.ctx h z := Sys.ctx_of_cores rfl h z
        _ = unraised.ctx h z := Sys.ctx_modCtx_other _ _ _ _ _ _ ne
        _ = cancelled.ctx h z := Sys.ctx_of_cores rfl h z
        _ = y.ctx h z := y.ctx_cancel_other ne _
    | none =>
      dsimp -zeta only
      extract_lets ungated unread
      calc Sys.ctx _ h z
        _ = unread.ctx h z := Sys.ctx_modCtx_other _ _ _ _ _ _ ne
        _ = ungated.ctx h z := Sys.ctx_of_cores rfl h z
        _ = y.ctx h z := by refine Sys.ctx_modCore y g ?_ h z; exact fun _ => rfl
  · rw [y.dropRegion_of_closed (Bool.eq_false_iff.mpr opened)]

end

/-! ## TKILL (R342, R343) -/

theorem tkill_row (s : State) (core : Nat) (v : Word) : exec (.tkill core v) s = s.eventOn (decide (core < 1024)) fun y =>
    if !y.answers || (y.ctx core (fld v 0 2)).state == .idle then (y, [])
    else
      let all := if bit v 2 || (y.ctx core (fld v 0 2)).timed then y.mates core (fld v 0 2) else [(core, fld v 0 2)]
      (all.foldl (fun y p => y.kill s.mem p.1 p.2 (if p = (core, fld v 0 2) then 1 else 2)) y, []) := rfl

theorem Ctx.mortal_iff (k : Ctx) : k.mortal = true ↔ k.state ≠ .idle ∧ k.killed = false := by simp [Ctx.mortal]

theorem Sys.kill_of_immortal {y : Sys} {g x : Nat} (safe : (y.ctx g x).mortal = false) (m : Memory) (code : Nat) : y.kill m g x code = y := by
  simp [Sys.kill, safe]

/-- A killed context: it is stopped with class 12, and nothing of it goes on (R342). -/
def Ctx.killedAt (k : Ctx) (code : Nat) (grp : W32) (t : Nat) : Ctx :=
  { k.toSupervisor { cls := 12, code := code, grp := grp } false t with
    fga := ⟨false, false, 0, grp⟩, killed := true, region := {}, deferred := [], barWait := false, ended := false, relReq := false }

theorem Sys.ctx_kill {y : Sys} {g x : Nat} (mortal : (y.ctx g x).mortal = true) (m : Memory) (code : Nat) :
    ∃ grp, ∀ h z, (y.kill m g x code).ctx h z = ((y.dropRegion g x).modCtx g x fun k => k.killedAt code grp (y.now g x)).ctx h z := by
  unfold Sys.kill
  extract_lets k fence grp f stopped jobless
  refine ⟨grp, fun h z => ?_⟩
  rw [if_neg (by simp [k, mortal])]
  calc Sys.ctx _ h z
    _ = jobless.ctx h z := Sys.ctx_of_cores rfl h z
    _ = stopped.ctx h z := by refine Sys.ctx_modCore stopped g ?_ h z; exact fun _ => rfl

/-- A kill stops its context, and leaves every other. -/
theorem Sys.kill_stops {y : Sys} {g x : Nat} (mortal : (y.ctx g x).mortal = true) (inside : x < 4) (m : Memory) (code : Nat) :
    (∃ k grp t, (y.kill m g x code).ctx g x = Ctx.killedAt k code grp t) ∧ ∀ h z, g ≠ h ∨ x ≠ z → (y.kill m g x code).ctx h z = y.ctx h z := by
  obtain ⟨grp, killed⟩ := Sys.ctx_kill mortal m code
  refine ⟨⟨_, grp, _, (killed g x).trans (Sys.ctx_modCtx_same _ _ _ _ inside)⟩, fun h z ne => ?_⟩
  rw [killed, Sys.ctx_modCtx_other _ _ _ _ _ _ ne, Sys.ctx_dropRegion_other ne]

section
variable {s : State} {core : Nat} {v : Word} (there : core < 1024)
include there

theorem tkill_idles_of_unheard (unheard : (!s.sys.answers || (s.sys.ctx core (fld v 0 2)).state == .idle) = true) : Idles (.tkill core v) s :=
  idles_of_event ((tkill_row s core v).trans (eventOn_core there _)) (if_pos unheard)

/-- In shared mode, without its bit 2, TKILL kills the one context that it names. -/
theorem tkill_kills (heard : (!s.sys.answers || (s.sys.ctx core (fld v 0 2)).state == .idle) = false) (alone : bit v 2 = false)
    (shared : (s.sys.ctx core (fld v 0 2)).timed = false) : Becomes (.tkill core v) s fun y => y.kill s.mem core (fld v 0 2) 1 := by
  refine becomes_of_event ((tkill_row s core v).trans (eventOn_core there _)) ((if_neg (Bool.eq_false_iff.mp heard)).trans ?_)
  simp only [alone, shared, Bool.or_self, Bool.false_eq_true, if_false, List.foldl_cons, List.foldl_nil, if_true]

/-- A context that is killed already stays as it is. -/
theorem tkill_idles_of_killed (dead : (s.sys.ctx core (fld v 0 2)).killed = true) (alone : bit v 2 = false) (shared : (s.sys.ctx core (fld v 0 2)).timed = false) :
    Idles (.tkill core v) s := by
  by_cases heard : (!s.sys.answers || (s.sys.ctx core (fld v 0 2)).state == .idle) = false
  · refine (tkill_kills there heard alone shared).trans ?_
    have safe : (s.sys.ctx core (fld v 0 2)).mortal = false := by simp [Ctx.mortal, dead]
    exact congrArg (fun z => Host.Outcome.next { s with sys := z }) (Sys.kill_of_immortal safe s.mem 1)
  · exact tkill_idles_of_unheard there (Bool.not_eq_false _ ▸ heard)

end

/-! ## CCMD (R352) -/

theorem Ctx.stopped_iff (k : Ctx) : k.stopped = true ↔ k.state = .halted ∨ k.state = .faulted ∨ k.state = .frozen := by
  unfold Ctx.stopped
  cases k.state <;> simp

theorem Sys.takesCcmd_iff (y : Sys) (g : Nat) : y.takesCcmd g = true ↔ y.answers = true ∧ (y.core g).ccmd.jobs = [] := by
  simp [Sys.takesCcmd]

@[simp] theorem Sys.ctx_ccmd (y : Sys) (g x op h z : Nat) : (y.ccmd g x op).ctx h z = y.ctx h z := by
  refine Sys.ctx_modCore y g ?_ h z
  exact fun _ => rfl

/-- A restore takes a context that is idle, or stopped and not frozen, and is not killed, while CSAB.`en` is 1; a release one that is halted and parked and has not ended. -/
def Ctx.restorable (k : Ctx) : Bool := (k.state == .idle || (k.stopped && k.state != .frozen)) && !k.killed && bit k.csab 0
def Ctx.releasable (k : Ctx) : Bool := k.state == .halted && !k.ended && k.parked

theorem Ctx.restorable_iff (k : Ctx) : k.restorable = true ↔ (k.state = .idle ∨ k.stopped = true ∧ k.state ≠ .frozen) ∧ k.killed = false ∧ bit k.csab 0 = true := by
  simp [Ctx.restorable, and_assoc]

theorem Ctx.releasable_iff (k : Ctx) : k.releasable = true ↔ k.state = .halted ∧ k.ended = false ∧ k.parked = true := by
  simp [Ctx.releasable, and_assoc]

section
variable (s : State) (core : Nat) (x : Fin 4)

theorem ccmdSave_row : exec (.ccmdSave core x) s = s.eventOn (decide (core < 1024)) fun y => if !y.takesCcmd core then (y, []) else
    (if ((y.ccmd core x 4).ctx core x).stopped then (y.ccmd core x 4).beginJob core x false else y.ccmd core x 4, []) := rfl

theorem ccmdRestore_row : exec (.ccmdRestore core x) s = s.eventOn (decide (core < 1024)) fun y => if !y.takesCcmd core then (y, []) else
    (if ((y.ccmd core x 1).ctx core x).restorable then (y.ccmd core x 1).beginJob core x true else y.ccmd core x 1, []) := rfl

theorem ccmdRelease_row : exec (.ccmdRelease core x) s = s.eventOn (decide (core < 1024)) fun y => if !y.takesCcmd core then (y, []) else
    (if ((y.ccmd core x 2).ctx core x).releasable then (y.ccmd core x 2).release core x else y.ccmd core x 2, []) := rfl

theorem ccmdContextReset_row : exec (.ccmdContextReset core x) s = s.eventOn (decide (core < 1024)) fun y => if !y.takesCcmd core then (y, []) else
    let k := (y.ccmd core x 3).ctx core x
    if k.stopped then (((y.ccmd core x 3).purge core x).modCtx core x Ctx.cleared, clearWindow core k.win) else (y.ccmd core x 3, []) := rfl

theorem contextSaveAreaDone_row : exec (.contextSaveAreaDone core x) s = s.eventOn (decide (core < 1024)) fun y =>
    match (y.core core).ccmd.jobs.find? fun j => j.ctx == x.val with
    | none => (y, [])
    | some j => if !y.jobDue core j then (y, []) else if j.restore then y.restoreArea s.mem core x else y.save s.mem core x := rfl

end

section
variable {i : Instr} {s : State} {core : Nat} {x : Fin 4} (there : core < 1024)
include there

/-- A command that meets a job in progress, or that the device does not hear, is discarded. -/
theorem idles_of_ccmd {e : Sys → Sys × List Write} (row : exec i s = s.eventOn (decide (core < 1024)) fun y => if !y.takesCcmd core then (y, []) else e y)
    (busy : s.sys.takesCcmd core = false) : Idles i s :=
  idles_of_event (row.trans (eventOn_core there _)) (by rw [busy]; rfl)

section
variable (busy : s.sys.takesCcmd core = false)
include busy

theorem ccmds_idle (x : Fin 4) : Idles (.ccmdSave core x) s ∧ Idles (.ccmdRestore core x) s ∧ Idles (.ccmdRelease core x) s ∧ Idles (.ccmdContextReset core x) s :=
  ⟨idles_of_ccmd there (ccmdSave_row s core x) busy, idles_of_ccmd there (ccmdRestore_row s core x) busy, idles_of_ccmd there (ccmdRelease_row s core x) busy,
    idles_of_ccmd there (ccmdContextReset_row s core x) busy⟩

end

variable (takes : s.sys.takesCcmd core = true)
include takes

/-- One that is taken has its effect. -/
theorem event_of_ccmd {e : Sys → Sys × List Write} (row : exec i s = s.eventOn (decide (core < 1024)) fun y => if !y.takesCcmd core then (y, []) else e y) :
    exec i s = s.event e := by
  rw [row, eventOn_core there, State.event_next, takes]; rfl

/-- A command that begins something, if its context lets it (`c`), and otherwise shows in CCMD alone. -/
theorem becomes_of_ccmd {op : Nat} {c : Ctx → Bool} {e : Sys → Sys}
    (row : exec i s = s.eventOn (decide (core < 1024)) fun y =>
      if !y.takesCcmd core then (y, []) else (if c ((y.ccmd core x op).ctx core x) then e (y.ccmd core x op) else y.ccmd core x op, [])) :
    (c (s.sys.ctx core x) = true → Becomes i s fun y => e (y.ccmd core x op)) ∧ (c (s.sys.ctx core x) = false → Becomes i s fun y => y.ccmd core x op) := by
  refine ⟨fun yes => becomes_of_event (event_of_ccmd there takes row) ?_, fun no => becomes_of_event (event_of_ccmd there takes row) ?_⟩
  · rw [Sys.ctx_ccmd, if_pos yes]
  · rw [Sys.ctx_ccmd, if_neg (Bool.eq_false_iff.mp no)]

theorem ccmdContextReset_becomes_of_going (going : (s.sys.ctx core x).stopped = false) : Becomes (.ccmdContextReset core x) s fun y => y.ccmd core x 3 :=
  becomes_of_event (event_of_ccmd there takes (ccmdContextReset_row s core x)) (by simp only [Sys.ctx_ccmd, going, Bool.false_eq_true, if_false])

theorem ccmdContextReset_resets (stopped : (s.sys.ctx core x).stopped = true) : exec (.ccmdContextReset core x) s =
    .next { mem := s.mem.writeAll (clearWindow core (s.sys.ctx core x).win),
            sys := (((s.sys.ccmd core x 3).purge core x).modCtx core x Ctx.cleared).mend (clearWindow core (s.sys.ctx core x).win) } := by
  rw [event_of_ccmd there takes (ccmdContextReset_row s core x)]
  simp only [State.event_next, Sys.ctx_ccmd, stopped, if_true]

end

/-! ### What a context reset leaves (R353) -/

@[simp] theorem Sys.ctx_mend (y : Sys) (ws : List Write) (g x : Nat) : (y.mend ws).ctx g x = y.ctx g x := by cases ws <;> rfl
@[simp] theorem Sys.mend_agenda (y : Sys) (ws : List Write) : (y.mend ws).agenda = y.agenda := by cases ws <;> rfl

/-- A context of which everything under way is discarded: its registers stay, but for the trigger queue. -/
def Ctx.discarded (k : Ctx) : Ctx :=
  { k with
    suspended := [], probe := Vector.replicate 4 none, eph := none, moving := [], digesting := [], fences := []
    regs := { k.regs with tq := Vector.replicate 32 none }
    sweep := k.sweep.map fun w => { w with pass := none } }

theorem Sys.ctx_purge (y : Sys) (g : Nat) {x : Nat} (inside : x < 4) : (y.purge g x).ctx g x = (y.ctx g x).discarded := by
  unfold Sys.purge
  extract_lets emptied discarded
  calc Sys.ctx _ g x
    _ = discarded.ctx g x := Sys.ctx_of_cores rfl g x
    _ = (emptied.ctx g x).discarded := Sys.ctx_modCtx_same emptied g x _ inside
    _ = (y.ctx g x).discarded := by refine congrArg Ctx.discarded (Sys.ctx_modCore y g ?_ g x); exact fun _ => rfl

theorem Sys.mem_agenda_purge {y : Sys} {g x : Nat} {e : Ev} (left : e ∈ (y.purge g x).agenda) : ¬ (e.core = g ∧ e.ctx = x) := by
  have kept : (!(e.core == g && e.ctx == x)) = true := (List.mem_filter.mp left).2
  rw [Bool.not_eq_true', Bool.and_eq_false_iff, beq_eq_false_iff_ne, beq_eq_false_iff_ne] at kept
  exact fun ⟨core, ctx⟩ => kept.elim (· core) (· ctx)

/-- A context reset clears the scalar registers of both files (R353). -/
theorem Ctx.cleared_scalar (k : Ctx) (b : Bool) (n : Nat) : k.cleared.regs.scalar b n = 0 := by
  cases b <;> exact vget_replicate 32 n _ (.inl rfl)

/-! ### A job that is due (R352) -/

section
variable {s : State} {core : Nat} {x : Fin 4} (there : core < 1024)
include there

theorem contextSaveAreaDone_idles_of_none (none_begun : ∀ j ∈ (s.sys.core core).ccmd.jobs, j.ctx ≠ x.val) : Idles (.contextSaveAreaDone core x) s := by
  have missing : ((s.sys.core core).ccmd.jobs.find? fun j => j.ctx == x.val) = none := List.find?_eq_none.mpr fun j mem => by simpa using none_begun j mem
  exact idles_of_event ((contextSaveAreaDone_row s core x).trans (eventOn_core there _)) (by rw [missing])

variable {j : Job} (found : ((s.sys.core core).ccmd.jobs.find? fun j => j.ctx == x.val) = some j)
include found

theorem contextSaveAreaDone_idles_of_early (early : s.sys.jobDue core j = false) : Idles (.contextSaveAreaDone core x) s :=
  idles_of_event ((contextSaveAreaDone_row s core x).trans (eventOn_core there _)) (by simp only [found, early, Bool.not_false, if_true])

theorem contextSaveAreaDone_next (due : s.sys.jobDue core j = true) :
    let r := if j.restore then s.sys.restoreArea s.mem core x else s.sys.save s.mem core x
    exec (.contextSaveAreaDone core x) s = .next { mem := s.mem.writeAll r.2, sys := r.1.mend r.2 } := by
  rw [contextSaveAreaDone_row, eventOn_core there, State.event_next]
  simp only [found, due, Bool.not_true, Bool.false_eq_true, if_false]

end

/-! ## O50 -/

/-- Settles O50: TKILL by what a kill leaves of each context, a command of CCMD by its row, once the core takes it. -/
theorem supervisorCommands : Obligations.SupervisorCommands := by
  unfold Obligations.SupervisorCommands
  intro s core x v there y k ready idle stopped takes begins
  have stopped_iff : k.stopped = true ↔ stopped := k.stopped_iff
  have takes_iff : y.takesCcmd core = true ↔ ready ∧ idle := y.takesCcmd_iff core
  refine ⟨fun heard named alone shared busy live => ?kills, fun named refused => ?spared, fun refused => ccmds_idle there ?discarded x, fun heard free => ?taken,
    contextSaveAreaDone_idles_of_none there, fun j found => ⟨contextSaveAreaDone_idles_of_early there found, fun due => ?job⟩⟩
  case kills =>
    have mortal : (y.ctx core x).mortal = true := k.mortal_iff.mpr ⟨busy, live⟩
    have named_busy : (!y.answers || (y.ctx core (fld v 0 2)).state == .idle) = false := by
      rw [named, Bool.or_eq_false_iff, beq_eq_false_iff_ne, Bool.not_eq_false']; exact ⟨heard, busy⟩
    have row : Becomes (.tkill core v) s fun y => y.kill s.mem core (fld v 0 2) 1 := tkill_kills there named_busy alone (named ▸ shared)
    rw [named] at row
    obtain ⟨⟨k', grp, t, killed⟩, others⟩ := Sys.kill_stops mortal x.isLt s.mem 1
    refine ⟨_, row, rfl, ?_⟩
    have stays (g c : Nat) (other : g ≠ core ∨ c ≠ x.val) := others g c (other.imp Ne.symm Ne.symm)
    rw [killed]
    exact ⟨rfl, rfl, rfl, rfl, rfl, rfl, stays⟩
  case spared =>
    rcases refused with unheard | free | ⟨dead, alone, shared⟩
    · exact tkill_idles_of_unheard there (by rw [Bool.eq_false_iff.mpr unheard]; rfl)
    · exact tkill_idles_of_unheard there (by rw [named, beq_iff_eq.mpr free, Bool.or_true])
    · exact tkill_idles_of_killed there (named ▸ dead) alone (named ▸ shared)
  case discarded => exact Bool.eq_false_iff.mpr fun takes => refused.elim (absurd (takes_iff.mp takes).1) (absurd (takes_iff.mp takes).2)
  case taken =>
    have takes_now : y.takesCcmd core = true := takes_iff.mpr ⟨heard, free⟩
    have going_of (going : ¬ stopped) : k.stopped = false := Bool.eq_false_iff.mpr (mt stopped_iff.mp going)
    have saves := becomes_of_ccmd (c := Ctx.stopped) (e := fun y => y.beginJob core x false) there takes_now (ccmdSave_row s core x)
    have restores := becomes_of_ccmd (c := Ctx.restorable) (e := fun y => y.beginJob core x true) there takes_now (ccmdRestore_row s core x)
    have releases := becomes_of_ccmd (c := Ctx.releasable) (e := fun y => y.release core x) there takes_now (ccmdRelease_row s core x)
    refine ⟨fun stop => saves.1 (stopped_iff.mpr stop), fun going => saves.2 (going_of going), fun live enabled may => restores.1 ?_, fun refused => restores.2 ?_,
      fun halted going parked shared => (releases.1 (k.releasable_iff.mpr ⟨halted, going, parked⟩)).trans ?_, fun other => releases.2 ?_, fun stop => ?_,
      fun going => ccmdContextReset_becomes_of_going there takes_now (going_of going)⟩
    · exact k.restorable_iff.mpr ⟨may.imp_right fun m => ⟨stopped_iff.mpr m.1, m.2⟩, live, enabled⟩
    · refine Bool.eq_false_iff.mpr fun able => ?_
      obtain ⟨-, live, enabled⟩ := k.restorable_iff.mp able
      exact refused.elim (Bool.eq_false_iff.mp live) fun shut => Bool.eq_false_iff.mp shut enabled
    · have released : (y.ccmd core x 2).release core x = (y.ccmd core x 2).letGo core x := if_pos (by rw [Sys.ctx_ccmd, Bool.not_eq_true']; exact shared)
      exact congrArg (fun z => Host.Outcome.next { s with sys := z }) released
    · exact Bool.eq_false_iff.mpr fun able => other (k.releasable_iff.mp able).1
    · refine ⟨_, ccmdContextReset_resets there takes_now (stopped_iff.mpr stop), rfl, ?_⟩
      have reset : (((y.ccmd core x 3).purge core x).modCtx core x Ctx.cleared).ctx core x = k.discarded.cleared := by
        rw [Sys.ctx_modCtx_same _ _ _ _ x.isLt, Sys.ctx_purge _ _ x.isLt, Sys.ctx_ccmd]
      rw [Sys.ctx_mend, Sys.mend_agenda, reset]
      exact ⟨rfl, rfl, Ctx.cleared_scalar _, rfl, rfl, rfl, fun e left => Sys.mem_agenda_purge left⟩
  case job =>
    have next := contextSaveAreaDone_next there found due
    cases kind : j.restore with
    | false =>
      simp only [kind, Bool.false_eq_true, if_false] at next
      exact ⟨_, next, fun _ => ⟨rfl, rfl⟩, nofun⟩
    | true =>
      simp only [kind, if_true] at next
      exact ⟨_, next, nofun, fun _ => ⟨rfl, rfl⟩⟩

end Sys2Proof.Machine
end

section
/-! PROOFS. Writes of the inspection window: the block that an offset names, and what each register takes (R5, R30, R254, R283 to R285, R348, R350, R351, R357). -/

namespace Sys2Proof.Machine

/-! ## Where an offset lies (R283) -/

/-- What the offset of a block, or its core's number, is bound to be. -/
def Block.Bounds (o : Nat) : Block → Prop
  | .device _ => o < 0x10000
  | .window _ b => 0x1100000 ≤ o ∧ o < 0x1180000 ∧ b = o % 0x10000
  | .core g _ => g < 1024
  | .aperture .. => 0x4000000 ≤ o ∧ o < 0x14000000 ∧ 0x20000 ≤ (o - 0x4000000) % 0x40000 ∧ (o - 0x4000000) % 0x40000 < 0x30000
  | _ => True

theorem blockOf_bounds {o : Nat} {b : Block} (block : blockOf o = b) : b.Bounds o := by
  simp only [blockOf] at block
  split at block
  case isTrue device => subst block; exact device
  split at block
  case isTrue belvedere =>
    split at block <;> subst block
    · exact (⟨by omega, by omega, by omega⟩ : 0x1100000 ≤ o ∧ o < 0x1180000 ∧ (o - 0x1000000) % 0x10000 = o % 0x10000)
    · exact True.intro
  iterate 3
    split at block
    case isTrue => subst block; exact True.intro
  split at block
  case isTrue core =>
    split at block
    case isTrue => subst block; exact True.intro
    split at block <;> subst block
    case isTrue aperture =>
      exact (⟨by omega, by omega, aperture⟩ : 0x4000000 ≤ o ∧ o < 0x14000000 ∧ 0x20000 ≤ (o - 0x4000000) % 0x40000 ∧ (o - 0x4000000) % 0x40000 < 0x30000)
    case isFalse => exact (by omega : (o - 0x4000000) / 0x40000 < 1024)
  case isFalse => subst block; exact True.intro

section
variable {o : Nat}

theorem blockOf_recordPort (from_ : 0x1100000 ≤ o) (below : o < 0x1100040) : blockOf o = .window 0 (o - 0x1100000) := by
  have number : (o - 0x1000000 - 0x100000) / 0x10000 = 0 := by omega
  have offset : (o - 0x1000000) % 0x10000 = o - 0x1100000 := by omega
  simp only [blockOf]
  rw [if_neg (by omega), if_pos (by omega), if_pos (by omega), number, offset]

theorem blockOf_rstctl : blockOf 0x30 = .device 0x30 := by simp [blockOf]
theorem blockOf_pwrctl : blockOf 0x28 = .device 0x28 := by simp [blockOf]
theorem blockOf_pfqpop : blockOf 0x1000808 = .belvedere 0x808 := by simp [blockOf]
theorem blockOf_replay : blockOf 0x1000810 = .belvedere 0x810 := by simp [blockOf]
theorem blockOf_tlbinv : blockOf 0x2000008 = .lodge 0 8 := by simp [blockOf]
theorem blockOf_tthaw : blockOf 0x2800308 = .hub 0x308 := by simp [blockOf]
theorem blockOf_tkill : blockOf 0x403F008 = .core 0 0x3F008 := by simp [blockOf]
theorem blockOf_ccmd : blockOf 0x403F010 = .core 0 0x3F010 := by simp [blockOf]
theorem blockOf_windowControl : blockOf 0x1100100 = .window 0 0x100 := by simp [blockOf]
theorem blockOf_pc : blockOf 0x4000000 = .stateReg 0 0 0 := by simp [blockOf]

end

/-! ## Fields of a word that an access carries -/

@[simp] theorem byteMask_whole : byteMask 0xFF = allOnes := by decide

theorem allOnes_eq : allOnes = BitVec.allOnes 64 := by decide

@[simp] theorem and_allOnes (v : Word) : v &&& allOnes = v := by rw [allOnes_eq, BitVec.and_allOnes]

/-- A whole write leaves nothing of the old register. -/
theorem written_whole (old v rw : Word) : written old v 0xFF rw = v &&& rw := by
  show ((old &&& ~~~byteMask 0xFF) ||| (v &&& byteMask 0xFF)) &&& rw = v &&& rw
  rw [byteMask_whole, allOnes_eq, BitVec.not_allOnes, BitVec.and_zero, BitVec.zero_or, BitVec.and_allOnes]

theorem fld_and_low (v m : Word) (n : Nat) (covers : m.toNat % 2 ^ n = 2 ^ n - 1) : fld (v &&& m) 0 n = fld v 0 n := by
  simp only [fld, Nat.pow_zero, Nat.div_one, BitVec.toNat_and, Nat.and_mod_two_pow, covers, Nat.and_two_pow_sub_one_eq_mod, Nat.mod_mod]

theorem bit_eq_getLsbD (v : Word) (i : Nat) : bit v i = v.getLsbD i := by
  rw [bit, BitVec.getLsbD, Nat.testBit_eq_decide_div_mod_eq]; rfl

theorem bit_and (v m : Word) (i : Nat) (covers : bit m i = true) : bit (v &&& m) i = bit v i := by
  simp only [bit_eq_getLsbD, BitVec.getLsbD_and] at covers ⊢
  rw [covers, Bool.and_true]

/-- The upper half of a word is what its own bits give. -/
theorem upper_half (v : Word) : ((v &&& 0xFFFFFFFF00000000) >>> 32).setWidth 32 = (v >>> 32).setWidth 32 := by
  have upper : ∀ i, i < 32 → (0xFFFFFFFF00000000#64).getLsbD (32 + i) = true := by decide
  refine BitVec.eq_of_getLsbD_eq fun i inside => ?_
  simp [upper i inside]

theorem carried_whole (v : Word) : carried v 0xFF = leBytes 8 v.toNat := by
  have all : (List.range 8).filter (fun i => (0xFF : BitVec 8).getLsbD i) = [0, 1, 2, 3, 4, 5, 6, 7] := by decide
  simp only [carried, all, List.map_cons, List.map_nil, leBytes, Nat.div_div_eq_div_mul, Nat.mul_zero, Nat.pow_zero, Nat.div_one, Nat.reduceMul, Nat.reducePow]

/-! ## Writes that are not heard (R284, R285) -/

section
variable {s : State}

theorem State.inspected_of_deaf (deaf : s.sys.answers = false) (e : Sys → Sys) : s.inspected e = .next s := by
  rw [State.inspected, State.event_next, deaf]; rfl

theorem State.inspected_of_heard (heard : s.sys.answers = true) (e : Sys → Sys) : s.inspected e = .next { s with sys := e s.sys } := by
  rw [State.inspected, State.event_next, heard]; rfl

/-- A comparison starts on a device whose boot is complete, sealed or not (R269, R284). -/
theorem execCompareManifestStart_of_booting (booting : s.sys.pkg.sec.ready = false) (win : BitVec 3) (addr : Word) : execCompareManifestStart win addr s = .next s := by
  rw [execCompareManifestStart, State.event_next]
  simp only [booting, Bool.false_eq_true, if_false]
  rfl

theorem ccmdWritten_of_deaf (deaf : s.sys.answers = false) {g : Nat} (there : g < 1024) (v : Word) : ccmdWritten g v s = .next s := by
  have busy : s.sys.takesCcmd g = false := by rw [Sys.takesCcmd, deaf]; rfl
  obtain ⟨saves, restores, releases, resets⟩ := ccmds_idle there busy (Fin.ofNat 4 (fld v 0 2))
  simp only [ccmdWritten]
  split
  · exact restores
  · exact releases
  · exact resets
  · exact saves
  · rw [State.event_next, busy]; rfl

/-- A choice between two rows that both do nothing does nothing. -/
theorem ite_next {c : Prop} [Decidable c] {a b : Host.Outcome State Fault Refusal} (then_ : c → a = .next s) (else_ : b = .next s) :
    (if c then a else b) = .next s :=
  iteInduction (motive := fun row => row = Host.Outcome.next s) then_ fun _ => else_

/-- A write outside the device block that is not heard has no effect, but for the one that starts a comparison. -/
theorem State.writeRegister_of_deaf (deaf : s.sys.answers = false) {o : Nat} (outside : 0x10000 ≤ o)
    (uncompared : s.sys.pkg.sec.ready = false ∨ ¬ (0x1100000 ≤ o ∧ o < 0x1180000 ∧ o % 0x10000 = 0x130)) (v : Word) (be : BitVec 8) :
    s.writeRegister o v be = .next s := by
  have discarded := State.inspected_of_deaf deaf
  unfold State.writeRegister
  cases block : blockOf o with
  | device b => exact absurd (show o < 0x10000 from blockOf_bounds block) (Nat.not_lt_of_le outside)
  | belvedere b =>
    exact ite_next (fun _ => discarded _) (ite_next (fun _ => ite_next (fun _ => discarded _) rfl) (ite_next (fun _ => discarded _) rfl))
  | window n b =>
    obtain ⟨from_, below, offset⟩ : 0x1100000 ≤ o ∧ o < 0x1180000 ∧ b = o % 0x10000 := blockOf_bounds block
    refine ite_next (fun comparison => ?_) (ite_next (fun _ => ite_next (fun _ => rfl) (discarded _)) (discarded _))
    exact execCompareManifestStart_of_booting (uncompared.resolve_right (not_not_intro ⟨from_, below, offset ▸ comparison⟩)) _ _
  | lodge d b =>
    refine ite_next (fun _ => ?_) (ite_next (fun _ => ite_next (fun _ => discarded _) rfl) (discarded _))
    split
    · exact discarded _
    · rfl
  | hub b =>
    exact ite_next (fun _ => discarded _) (ite_next (fun _ => ite_next (fun _ => discarded _) rfl) (discarded _))
  | arbour p b =>
    exact ite_next (fun _ => ite_next (fun _ => discarded _) rfl) (ite_next (fun _ => discarded _) rfl)
  | stateReg g c n => exact discarded _
  | aperture g b => exact discarded _
  | core g b =>
    have there : g < 1024 := blockOf_bounds block
    exact ite_next (fun _ => ite_next (fun _ => tkill_idles_of_unheard there (by rw [deaf]; rfl)) rfl)
      (ite_next (fun _ => ite_next (fun _ => ccmdWritten_of_deaf deaf there v) rfl) (discarded _))
  | nothing => rfl

/-! ## Accesses that are no whole register (R357) -/

theorem registerWrite_row (s : State) (off : BitVec 29) (v : Word) (be : BitVec 8) : exec (.registerWrite off v be) s = execRegisterWrite off v be s := rfl

variable {off : BitVec 29} {v : Word} {be : BitVec 8}

theorem registerWrite_idles_of_unaligned (unaligned : off.toNat % 8 ≠ 0) : Idles (.registerWrite off v be) s := by
  refine (registerWrite_row s off v be).trans (if_neg ?_)
  rw [beq_eq_false_iff_ne.mpr unaligned, Bool.false_and]; exact Bool.false_ne_true

theorem registerWrite_idles_of_partial (whole : be ≠ 0xFF) (low : be ≠ 0x0F) (high : be ≠ 0xF0)
    (outside : ¬ (0x4000000 ≤ off.toNat ∧ off.toNat < 0x14000000 ∧ 0x20000 ≤ (off.toNat - 0x4000000) % 0x40000 ∧ (off.toNat - 0x4000000) % 0x40000 < 0x30000)) :
    Idles (.registerWrite off v be) s := by
  refine (registerWrite_row s off v be).trans (if_neg ?_)
  have no_whole : wholeAccess be = false := by simp only [wholeAccess, Bool.or_eq_false_iff, beq_eq_false_iff_ne]; exact ⟨⟨whole, low⟩, high⟩
  rw [no_whole, Bool.false_or]
  cases block : blockOf off.toNat with
  | aperture g b => exact absurd (blockOf_bounds block) outside
  | _ => simp

theorem registerWrite_idles_of_deaf (deaf : s.sys.answers = false) (outside : 0x10000 ≤ off.toNat)
    (uncompared : s.sys.pkg.sec.ready = false ∨ ¬ (0x1100000 ≤ off.toNat ∧ off.toNat < 0x1180000 ∧ off.toNat % 0x10000 = 0x130)) : Idles (.registerWrite off v be) s := by
  rw [Idles, registerWrite_row, execRegisterWrite]
  simp only [State.writeRegister_of_deaf deaf outside uncompared, ite_self]

theorem registerWrite_whole {o : Nat} (at_ : off.toNat = o) (aligned : o % 8 = 0) : exec (.registerWrite off v 0xFF) s = s.writeRegister o v 0xFF := by
  subst at_
  refine (registerWrite_row s off v 0xFF).trans (if_pos ?_)
  rw [beq_iff_eq.mpr aligned]; rfl

/-! ## Device registers (R348, R355) -/

theorem resetsWarm_iff (v : Word) : resetsWarm v 0xFF = true ↔ fld v 32 32 = 0x5A4A5253 ∧ bit v 0 = true := by
  simp [resetsWarm]

theorem writeRegister_rstctl : s.writeRegister 0x30 v 0xFF =
    if resetsWarm v 0xFF then execWarmReset s else s.event fun y => (if y.pkg.pw.powered then y.keepKey v 0xFF else y, []) := by
  rw [State.writeRegister, blockOf_rstctl]; exact if_pos rfl

theorem Sys.keepKey_whole (y : Sys) (v : Word) : y.keepKey v 0xFF = { y with pkg := { y.pkg with rstKey := (v >>> 32).setWidth 32 } } := by
  rw [Sys.keepKey, written_whole, upper_half]

theorem rstctl_resets (at_ : off.toNat = 0x30) (warm : resetsWarm v 0xFF = true) : exec (.registerWrite off v 0xFF) s = exec .warmReset s := by
  rw [registerWrite_whole at_ (by decide), writeRegister_rstctl, if_pos warm]; rfl

theorem rstctl_event (at_ : off.toNat = 0x30) (cold : ¬ resetsWarm v 0xFF = true) :
    exec (.registerWrite off v 0xFF) s = s.event fun y => (if y.pkg.pw.powered then y.keepKey v 0xFF else y, []) := by
  rw [registerWrite_whole at_ (by decide), writeRegister_rstctl, if_neg cold]

theorem rstctl_keeps_key (at_ : off.toNat = 0x30) (cold : ¬ resetsWarm v 0xFF = true) (on : s.sys.pkg.pw.powered = true) :
    Becomes (.registerWrite off v 0xFF) s fun y => { y with pkg := { y.pkg with rstKey := (v >>> 32).setWidth 32 } } :=
  becomes_of_event (rstctl_event at_ cold) (by rw [if_pos on, Sys.keepKey_whole])

theorem rstctl_idles (at_ : off.toNat = 0x30) (cold : ¬ resetsWarm v 0xFF = true) (unpowered : s.sys.pkg.pw.powered = false) :
    Idles (.registerWrite off v 0xFF) s :=
  idles_of_event (rstctl_event at_ cold) (by rw [unpowered]; rfl)

theorem write_pwrctl (at_ : off.toNat = 0x28) : exec (.registerWrite off v 0xFF) s = exec (.pwrctlWrite v) s := by
  have row : s.writeRegister 0x28 v 0xFF =
    s.event fun y => (if y.pkg.pw.powered && y.heard then y.setPower fun p => p.limits (written p.pwrctl v 0xFF allOnes) else y, []) := by
    rw [State.writeRegister, blockOf_pwrctl]; exact if_neg (by decide)
  rw [registerWrite_whole at_ (by decide), row]
  simp only [written_whole, and_allOnes]
  rfl

/-! ## Registers that have a row of their own -/

theorem write_pfqpop (at_ : off.toNat = 0x1000808) : exec (.registerWrite off v 0xFF) s = exec .pfqpop s := by
  rw [registerWrite_whole at_ (by decide), State.writeRegister, blockOf_pfqpop]; rfl

theorem write_replay (at_ : off.toNat = 0x1000810) (set : bit v 0 = true) : exec (.registerWrite off v 0xFF) s = exec .replay s := by
  have row : s.writeRegister 0x1000810 v 0xFF = if bit (v &&& byteMask 0xFF) 0 then execReplay s else .next s := by rw [State.writeRegister, blockOf_replay]; rfl
  rw [registerWrite_whole at_ (by decide), row, byteMask_whole, and_allOnes, if_pos set]; rfl

theorem write_tlbinv (at_ : off.toNat = 0x2000008) : exec (.registerWrite off v 0xFF) s = exec (.tlbInvalidate 0 v) s := by
  have row : s.writeRegister 0x2000008 v 0xFF = execTlbInvalidate 0 (written (vget s.sys.pkg.owners 0).inv v 0xFF allOnes) s := by
    rw [State.writeRegister, blockOf_tlbinv]; rfl
  rw [registerWrite_whole at_ (by decide), row, written_whole, and_allOnes]; rfl

theorem write_tthaw (at_ : off.toNat = 0x2800308) : exec (.registerWrite off v 0xFF) s = exec (.tthaw .hub v) s := by
  rw [registerWrite_whole at_ (by decide), State.writeRegister, blockOf_tthaw]; rfl

theorem write_tkill (at_ : off.toNat = 0x403F008) : exec (.registerWrite off v 0xFF) s = exec (.tkill 0 v) s := by
  rw [registerWrite_whole at_ (by decide), State.writeRegister, blockOf_tkill]; rfl

theorem write_ccmd_save (at_ : off.toNat = 0x403F010) (save : fld v 4 4 = 4) :
    exec (.registerWrite off v 0xFF) s = exec (.ccmdSave 0 (Fin.ofNat 4 (fld v 0 2))) s := by
  have row : s.writeRegister 0x403F010 v 0xFF = ccmdWritten 0 v s := by rw [State.writeRegister, blockOf_ccmd]; rfl
  rw [registerWrite_whole at_ (by decide), row]
  simp only [ccmdWritten, save]
  rfl

end

end Sys2Proof.Machine
end

section
/-! PROOFS. Writes of the inspection window with an effect of their own: a window's control register and record port, a context's pc, the data aperture (R30, R254, R350, R351). -/

namespace Sys2Proof.Machine

/-! ## Windows (R254) -/

section
variable {s : State} {off : BitVec 29} {v : Word} (heard : s.sys.answers = true)
include heard

theorem write_windowControl (at_ : off.toNat = 0x1100100) : Becomes (.registerWrite off v 0xFF) s fun y =>
    { y with pkg := { y.pkg with wins := vset y.pkg.wins 0 { (vget y.pkg.wins 0) with en := bit v 8, prio := fld v 0 3 } } } := by
  have row : s.writeRegister 0x1100100 v 0xFF = s.inspected fun y => y.inspectWindow 0 0x100 v 0xFF := by
    rw [State.writeRegister, blockOf_windowControl]; rfl
  have control (w : TileWindow) : (let c := written w.ctl v 0xFF 0x107; { w with en := bit c 8, prio := fld c 0 3 }) = { w with en := bit v 8, prio := fld v 0 3 } := by
    simp only [written_whole, bit_and v 0x107 8 (by decide), fld_and_low v 0x107 3 (by decide)]
  rw [Becomes, registerWrite_whole at_ (by decide), row, State.inspected_of_heard heard]
  exact congrArg (fun w => Host.Outcome.next { s with sys := s.sys.modWin 0 w }) (funext control)

/-- The bytes of an access to the record port of window 0 arrive there (R254). -/
theorem write_recordPort (from_ : 0x1100000 ≤ off.toNat) (below : off.toNat < 0x1100040) (aligned : off.toNat % 8 = 0) :
    Becomes (.registerWrite off v 0xFF) s fun y => y.modWin 0 fun w => w.arrive false (leBytes 8 v.toNat) := by
  have port : off.toNat - 0x1100000 < 0x40 := by omega
  have block := blockOf_recordPort from_ below
  generalize off.toNat - 0x1100000 = b at port block
  have row : s.writeRegister off.toNat v 0xFF = s.inspected fun y => y.inspectWindow 0 b v 0xFF := by
    rw [State.writeRegister, block]
    exact (if_neg (by omega)).trans (if_neg (by omega))
  have arrives (y : Sys) : y.inspectWindow 0 b v 0xFF = y.modWin 0 fun w => w.arrive false (leBytes 8 v.toNat) := by
    simp only [Sys.inspectWindow, if_pos port, carried_whole]
  rw [Becomes, registerWrite_whole rfl aligned, row, State.inspected_of_heard heard, arrives]

end

section
variable {w : TileWindow} {bs : List Byte}

theorem TileWindow.arrive_part (short : (w.part ++ bs).length < 64) : w.arrive false bs = { w with part := w.part ++ bs } := by
  rw [TileWindow.arrive, if_neg Bool.false_ne_true, if_pos short]

/-- The 64th byte makes a record (log 6). -/
theorem TileWindow.arrive_record (whole : (w.part ++ bs).length = 64) : w.arrive false bs = { w with
    part := [], entries := if w.entries.length < 64 then w.entries ++ [.record (recordOf (w.part ++ bs))] else w.entries, ovf := w.ovf || decide (64 ≤ w.entries.length) } := by
  have all : (w.part ++ bs).take 64 = w.part ++ bs := List.take_of_length_le (Nat.le_of_eq whole)
  have rest : (w.part ++ bs).drop 64 = [] := List.drop_of_length_le (Nat.le_of_eq whole)
  rw [TileWindow.arrive, if_neg Bool.false_ne_true, if_neg (by rw [whole]; exact Nat.lt_irrefl 64)]
  simp only [all, rest, TileWindow.push]
  by_cases room : w.entries.length < 64
  · simp [room, Nat.not_le_of_lt room]
  · simp [room, Nat.le_of_not_lt room]

end

/-! ## The pc of a context (R30, R351) -/

theorem Ctx.still_iff (k : Ctx) : k.still = true ↔ k.state = .idle ∨ k.state = .halted ∨ k.state = .faulted ∨ k.state = .frozen := by
  unfold Ctx.still
  cases k.state <;> simp

section
variable {s : State} {off : BitVec 29} {v : Word} (heard : s.sys.answers = true) (at_ : off.toNat = 0x4000000)
include heard at_

theorem write_pc_row : exec (.registerWrite off v 0xFF) s = .next { s with sys := s.sys.inspectState 0 0 0 v 0xFF } := by
  rw [registerWrite_whole at_ (by decide), State.writeRegister, blockOf_pc]
  exact State.inspected_of_heard heard _

theorem write_pc (still : (s.sys.ctx 0 0).still = true) : Becomes (.registerWrite off v 0xFF) s fun y => y.modCtx 0 0 fun k => { k with pc := v.setWidth 32 } := by
  refine (write_pc_row heard at_).trans ?_
  simp only [Sys.inspectState, still, Bool.not_true, Bool.false_eq_true, if_false, if_true, written_whole, and_allOnes]

theorem write_pc_idles (going : (s.sys.ctx 0 0).still = false) : Idles (.registerWrite off v 0xFF) s := by
  refine (write_pc_row heard at_).trans ?_
  simp only [Sys.inspectState, going, Bool.not_false, if_true]

end

/-! ## The data aperture (R350) -/

theorem readbackApertureWrite_row (s : State) {core : Nat} (there : core < 1024) (page : BitVec 16) (bytes : List Byte) :
    exec (.readbackApertureWrite core page bytes) s = s.inspected fun y => y.writeAperture core page.toNat ((bytes.take (0x10000 - page.toNat)).map some) := if_pos there

/-- A byte of the scratchpad that RBSEL's page shows is put at its write port, last in its cycle (R350, R351). -/
theorem Sys.writeAperture_scratch (y : Sys) (core off : Nat) (b : Byte) (scratch : fld (y.core core).rbsel 0 4 = 0) (page : fld (y.core core).rbsel 16 16 < 32) :
    y.writeAperture core off [some b] = y.post core (fld (y.core core).rbsel 8 2) y.wcyc 10 (32 * y.ord + 31)
      (.put (scratchKey core (0x10000 * fld (y.core core).rbsel 16 16 + off)) 255 [b]) := by
  have no_sweep : (y.core core).shownSweep = none := by simp [Core.shownSweep, scratch]
  have shown : (y.core core).shown core off = some (scratchKey core (0x10000 * fld (y.core core).rbsel 16 16 + off)) := by simp [Core.shown, scratch, page]
  simp [Sys.writeAperture, no_sweep, scratch, shown, runsOf, List.range_succ]

theorem readbackApertureWrite_posts {s : State} {core : Nat} {page : BitVec 16} {b : Byte} (there : core < 1024) (heard : s.sys.answers = true)
    (scratch : fld (s.sys.core core).rbsel 0 4 = 0) (shown : fld (s.sys.core core).rbsel 16 16 < 32) :
    Becomes (.readbackApertureWrite core page [b]) s fun y => y.post core (fld (y.core core).rbsel 8 2) y.wcyc 10 (32 * y.ord + 31)
      (.put (scratchKey core (0x10000 * fld (y.core core).rbsel 16 16 + page.toNat)) 255 [b]) := by
  have first : [b].take (0x10000 - page.toNat) = [b] := List.take_of_length_le (by have := page.isLt; simp only [List.length_singleton]; omega)
  refine ((readbackApertureWrite_row s there page [b]).trans (State.inspected_of_heard heard _)).trans ?_
  rw [first, List.map_singleton, Sys.writeAperture_scratch _ _ _ _ scratch shown]

end Sys2Proof.Machine
end

section
/-! PROOFS. Accesses from outside by virtual address: the shared windows of the host and the peer windows of the span links (R276, R281, R285, R291, R312, R330). -/

namespace Sys2Proof.Machine

/-! ## Requests -/

theorem requestPosted_iff (q : PeerRequest) : requestPosted q = true ↔ ∃ d, q = .write d := by cases q <;> simp [requestPosted]

theorem requestWrites_iff (q : PeerRequest) : requestWrites q = true ↔ ∀ n, q ≠ .read n := by cases q <;> simp [requestWrites]

/-- The answer of a request that is not posted. -/
def Sys.answer (y : Sys) (link : Nat) (data : Option (List Byte)) : Sys := { y with pkg := { y.pkg with completion := some { link := link, data := data } } }

section
variable {q : PeerRequest} (y : Sys) (link : Nat) (data : Option (List Byte))

theorem Sys.reply_of_posted (posted : ∃ d, q = .write d) : y.reply link q data = y := if_pos ((requestPosted_iff q).mpr posted)

theorem Sys.reply_of_answered (answered : ¬ ∃ d, q = .write d) : y.reply link q data = y.answer link data := if_neg (mt (requestPosted_iff q).mp answered)

end

/-- What is left of a request that waits, with the offset at which it goes on: a read starts anew. -/
def waitingRequest (link at_ m : Nat) (q : PeerRequest) : Nat × Nat × PeerRequest := match q with | .write d => (link, at_ + m, .write (d.drop m)) | q => (link, at_, q)

theorem requestRest_waiting (link at_ m : Nat) (q : PeerRequest) : (link, at_ + (requestRest q m).1, (requestRest q m).2) = waitingRequest link at_ m q := by
  cases q <;> rfl

/-! ## A request that a window covers -/

/-- The row is the request `q` of a link at `at_`, which arrives at `va`: it ends with its data, or waits with what is left of it (R276). -/
def Ends (i : Instr) (s : State) (link at_ : Nat) (q : PeerRequest) (va : Word) (host : Bool) : Prop :=
  let r := s.sys.arriveAt s.mem va q host
  let becomes (z : Sys) : Prop := exec i s = .next { mem := s.mem.writeAll r.2.1, sys := z.mend r.2.1 }
  (∃ t, exec i s = .next t ∧ t.mem = s.mem.writeAll r.2.1) ∧
  (∀ bs, r.2.2 = .done bs → ((∃ d, q = .write d) → becomes r.1) ∧ ((¬ ∃ d, q = .write d) → becomes (r.1.answer link (some bs)))) ∧
  (∀ m, r.2.2 = .waits m → becomes { r.1 with retried := r.1.retried ++ [waitingRequest link at_ m q] })

section
variable {i : Instr} {s : State} {mst link at_ : Nat} {q : PeerRequest} {va : Word}

theorem ends_of_request (row : exec i s = .next
    { mem := s.mem.writeAll (s.sys.request s.mem mst link at_ va q).2, sys := (s.sys.request s.mem mst link at_ va q).1.mend (s.sys.request s.mem mst link at_ va q).2 }) :
    Ends i s link at_ q va (link == 16) := by
  refine ⟨⟨_, row, rfl⟩, fun bs done => ⟨fun posted => row.trans ?_, fun answered => row.trans ?_⟩, fun m waits => row.trans ?_⟩
  · simp only [Sys.request, done, Sys.reply_of_posted _ _ _ posted]
  · simp only [Sys.request, done, Sys.reply_of_answered _ _ _ answered]
  · simp only [Sys.request, waits, requestRest_waiting]

end

/-! ## The shared windows (R285, R291, R312) -/

theorem sharedWindowAccess_row (s : State) (off : BitVec 36) (len : Nat) (data : Option (List Byte)) :
    exec (.sharedWindowAccess off len data) s = s.event fun y => y.hostAccess s.mem off.toNat (hostRequest len data) := rfl

section
variable {y : Sys} (m : Memory) (off : Nat) (q : PeerRequest)

theorem Sys.hostAccess_of_unpowered (unpowered : y.pkg.pw.powered = false) : y.hostAccess m off q = (y, []) := by
  simp only [Sys.hostAccess, unpowered, Bool.not_false, if_true]

variable (on : y.pkg.pw.powered = true)
include on

theorem Sys.hostAccess_of_booting (booting : ¬ y.pkg.sec.ready = true) :
    y.hostAccess m off q = (y.reply 16 q (some (List.replicate (requestLength q) 0)), []) := by
  simp only [Sys.hostAccess, on, booting, Bool.not_true, Bool.not_false, Bool.false_eq_true, if_false, if_true]

variable (ready : y.pkg.sec.ready = true)
include ready

theorem Sys.hostAccess_of_frozen (frozen : y.pkg.frozenLinks.getLsbD 16 = true) : y.hostAccess m off q = (y.reply 16 q none, []) := by
  simp only [Sys.hostAccess, on, ready, frozen, Bool.not_true, Bool.false_eq_true, if_false, if_true]

variable (thawed : ¬ y.pkg.frozenLinks.getLsbD 16 = true)
include thawed

theorem Sys.hostAccess_of_uncovered (uncovered : shwOf y.pkg.shw off 8 = none) :
    y.hostAccess m off q = (y.reply 16 q (some (List.replicate (requestLength q) 0xFF)), []) := by
  simp only [Sys.hostAccess, on, ready, thawed, uncovered, Bool.not_true, Bool.false_eq_true, if_false]

variable {w : Word × Word} (covered : shwOf y.pkg.shw off 8 = some w)
include covered

theorem Sys.hostAccess_of_forbidden (writes : requestWrites q = true) (forbidden : bit w.1 62 = false) : y.hostAccess m off q = (y, []) := by
  simp only [Sys.hostAccess, on, ready, thawed, covered, writes, forbidden, Bool.not_true, Bool.not_false, Bool.and_self, Bool.false_eq_true, if_false, if_true]

theorem Sys.hostAccess_of_covered (allowed : requestWrites q = false ∨ bit w.1 62 = true) :
    y.hostAccess m off q = y.request m 3 16 off (w.2 + BitVec.ofNat 64 (off - fld w.1 21 15 * 2 ^ 21)) q := by
  have free : (requestWrites q && !bit w.1 62) = false := by rcases allowed with reads | writable <;> simp [*]
  simp only [Sys.hostAccess, on, ready, thawed, covered, free, Bool.not_true, Bool.false_eq_true, if_false]

end

/-! ## The span links (R281, R312) -/

theorem peerRequest_row (s : State) (link : BitVec 4) (off : BitVec 48) (len : Nat) (op : PeerOp) :
    exec (.peerRequest link off len op) s = s.event fun y => y.peerAccess s.mem link.toNat off.toNat (peerRequestOf len op) := rfl

/-- The request of a link is a violation: it is reported, the link is frozen, and the request ends with an error. -/
def Sys.peerViolates (y : Sys) (k off : Nat) (q : PeerRequest) : Sys := (y.linkFault 4 k (BitVec.ofNat 64 off) 2).reply k q none

section
variable {y : Sys} (m : Memory) (k off : Nat) (q : PeerRequest)

theorem Sys.peerAccess_of_closed (closed : ¬ y.pkg.sec.ready = true ∨ ¬ y.pkg.sec.linkKeys.getLsbD k = true) : y.peerAccess m k off q = (y, []) := by
  have dead : (!y.pkg.sec.ready || !y.pkg.sec.linkKeys.getLsbD k) = true := by rcases closed with booting | keyless <;> simp [*]
  simp only [Sys.peerAccess, dead, if_true]

variable (ready : y.pkg.sec.ready = true) (keyed : y.pkg.sec.linkKeys.getLsbD k = true)
include ready keyed

theorem Sys.peerAccess_of_frozen (frozen : y.pkg.frozenLinks.getLsbD k = true) : y.peerAccess m k off q = (y.reply k q none, []) := by
  simp only [Sys.peerAccess, ready, keyed, frozen, Bool.not_true, Bool.or_self, Bool.false_eq_true, if_false, if_true]

variable (thawed : ¬ y.pkg.frozenLinks.getLsbD k = true)
include thawed

theorem Sys.peerAccess_of_violation
    (violation : pwinOf y.pkg.pwin off 16 = none ∨ ∃ w, pwinOf y.pkg.pwin off 16 = some w ∧ requestWrites q = true ∧ bit w.1 62 = false) :
    y.peerAccess m k off q = (y.peerViolates k off q, []) := by
  rcases violation with uncovered | ⟨w, covered, writes, forbidden⟩
  · simp only [Sys.peerAccess, ready, keyed, thawed, uncovered, Bool.not_true, Bool.or_self, Bool.false_eq_true, if_false]
    rfl
  · simp only [Sys.peerAccess, ready, keyed, thawed, covered, writes, forbidden, Bool.not_true, Bool.not_false, Bool.or_self, Bool.and_self, Bool.false_eq_true, if_false, if_true]
    rfl

theorem Sys.peerAccess_of_covered {w : Word × Word} (covered : pwinOf y.pkg.pwin off 16 = some w) (allowed : requestWrites q = false ∨ bit w.1 62 = true) :
    y.peerAccess m k off q = y.request m 4 k off (w.2 + BitVec.ofNat 64 (off - fld w.1 21 27 * 2 ^ 21)) q := by
  have free : (requestWrites q && !bit w.1 62) = false := by rcases allowed with reads | writable <;> simp [*]
  simp only [Sys.peerAccess, ready, keyed, thawed, covered, free, Bool.not_true, Bool.or_self, Bool.false_eq_true, if_false]

end

/-! ### A violation (R312, R330) -/

section
variable (y : Sys) {k : Nat} (off : Nat) (q : PeerRequest)

theorem Sys.peerViolates_freezes (inside : k < 17) : (y.peerViolates k off q).pkg.frozenLinks.getLsbD k = true := by
  have frozen : (y.peerViolates k off q).pkg.frozenLinks = y.pkg.frozenLinks ||| ((1 : BitVec 17) <<< k) := by
    unfold Sys.peerViolates Sys.reply
    split <;> rfl
  rw [frozen]
  simp [inside]

theorem Sys.peerViolates_reports : (y.peerViolates k off q).pkg.pfq = (y.pkg.pfqAppend (faultWord0 false 7 2 0 0, BitVec.ofNat 64 (4 * 2 ^ 27), BitVec.ofNat 64 off, 0)).pfq := by
  unfold Sys.peerViolates Sys.reply
  split <;> rfl

theorem Sys.peerViolates_completion (answered : ¬ ∃ d, q = .write d) : (y.peerViolates k off q).pkg.completion = some { link := k, data := none } := by
  rw [Sys.peerViolates, Sys.reply_of_answered _ _ _ answered]; rfl

end

/-! ## What the rows do -/

section
variable {s : State} {off : BitVec 36} {len : Nat} {data : Option (List Byte)}

/-- An access of the host that ends at once: a read with what it is answered, a write without effect. -/
theorem sharedWindow_replies {e : Nat → Option (List Byte)}
    (access : s.sys.hostAccess s.mem off.toNat (hostRequest len data) = (s.sys.reply 16 (hostRequest len data) (e (requestLength (hostRequest len data))), [])) :
    (data = none → Becomes (.sharedWindowAccess off len data) s fun y => y.answer 16 (e len)) ∧ (data.isSome = true → Idles (.sharedWindowAccess off len data) s) := by
  cases data with
  | none => exact ⟨fun _ => becomes_of_event (sharedWindowAccess_row s off len none) access, nofun⟩
  | some d => exact ⟨nofun, fun _ => idles_of_event (sharedWindowAccess_row s off len (some d)) access⟩

theorem sharedWindow_reads_iff : requestWrites (hostRequest len data) = false ↔ data = none := by cases data <;> simp [hostRequest, requestWrites]

theorem sharedWindow_ends {va : Word} (access : s.sys.hostAccess s.mem off.toNat (hostRequest len data) = s.sys.request s.mem 3 16 off.toNat va (hostRequest len data)) :
    Ends (.sharedWindowAccess off len data) s 16 off.toNat (hostRequest len data) va true :=
  ends_of_request (mst := 3) ((sharedWindowAccess_row s off len data).trans (by rw [State.event_next, access]))

end

section
variable {s : State} {i : Instr} {link : BitVec 4} {at_ : Nat} {q : PeerRequest} (row : exec i s = s.event fun y => y.peerAccess s.mem link.toNat at_ q)
include row

/-- A request through a frozen link ends with an error. -/
theorem peer_replies (access : s.sys.peerAccess s.mem link.toNat at_ q = (s.sys.reply link.toNat q none, [])) :
    ((¬ ∃ d, q = .write d) → Becomes i s fun y => y.answer link.toNat none) ∧ ((∃ d, q = .write d) → Idles i s) :=
  ⟨fun answered => becomes_of_event row (by rw [access, Sys.reply_of_answered _ _ _ answered]), fun posted => idles_of_event row (by rw [access, Sys.reply_of_posted _ _ _ posted])⟩

theorem peer_violates (access : s.sys.peerAccess s.mem link.toNat at_ q = (s.sys.peerViolates link.toNat at_ q, [])) :
    exec i s = .next { s with sys := s.sys.peerViolates link.toNat at_ q } := by
  rw [row, State.event_next, access]; rfl

theorem peer_ends {va : Word} (access : s.sys.peerAccess s.mem link.toNat at_ q = s.sys.request s.mem 4 link.toNat at_ va q) : Ends i s link.toNat at_ q va false := by
  have span : (link.toNat == 16) = false := beq_eq_false_iff_ne.mpr (Nat.ne_of_lt link.isLt)
  rw [← span]
  exact ends_of_request (mst := 4) (row.trans (by rw [State.event_next, access]))

end

/-! ## O56 -/

/-- Settles O56: a write of the inspection window by the register at its offset, an access by virtual address by its window. -/
theorem hostAccesses : Obligations.HostAccesses := by
  unfold Obligations.HostAccesses
  refine ⟨fun s off v be core page bytes b => ?inspection, fun s off o link len data op => ?outside⟩
  case inspection =>
    intro y o write aperture comparison warm open_
    have deaf_of (shut : ¬ open_) : y.answers = false := Bool.eq_false_iff.mpr shut
    have deaf_of_booting (booting : y.pkg.sec.ready = false) : y.answers = false := by rw [Sys.answers, booting, Bool.false_and]
    refine ⟨registerWrite_idles_of_unaligned, registerWrite_idles_of_partial, fun at_ whole key => ?_, fun at_ whole cold on => ?_, fun at_ whole cold unpowered => ?_,
      fun at_ whole => ?_, fun at_ whole => ?_, fun at_ whole set => ?_, fun at_ whole => ?_, fun at_ whole => ?_, fun at_ whole => ?_, fun at_ whole save => ?_,
      fun at_ whole heard => ?_, fun from_ below aligned whole heard => ?_, fun at_ whole heard => ?_,
      fun outside booting => registerWrite_idles_of_deaf (deaf_of_booting booting) outside (.inl booting),
      fun outside shut uncompared => registerWrite_idles_of_deaf (deaf_of shut) outside (.inr uncompared),
      fun there shut => (readbackApertureWrite_row s there page bytes).trans (State.inspected_of_deaf (deaf_of shut) _),
      fun there heard scratch shown => readbackApertureWrite_posts there heard scratch shown⟩
    all_goals subst whole
    · exact rstctl_resets at_ ((resetsWarm_iff v).mpr key)
    · exact rstctl_keeps_key at_ (mt (resetsWarm_iff v).mp cold) on
    · exact rstctl_idles at_ (mt (resetsWarm_iff v).mp cold) unpowered
    · exact write_pwrctl at_
    · exact write_pfqpop at_
    · exact write_replay at_ set
    · exact write_tlbinv at_
    · exact write_tthaw at_
    · exact write_tkill at_
    · exact write_ccmd_save at_ save
    · exact write_windowControl heard at_
    · intro w bytes sets
      have arrives : ∀ w', w.arrive false (leBytes 8 v.toNat) = w' → Becomes write s (sets w') := by
        rintro _ rfl
        exact write_recordPort heard from_ below aligned
      have length : (w.part ++ leBytes 8 v.toNat).length = w.part.length + 8 := by rw [List.length_append, length_leBytes]
      exact ⟨fun short => arrives _ (TileWindow.arrive_part (by omega)), fun full => arrives _ (TileWindow.arrive_record (by omega))⟩
    · intro k still
      exact ⟨fun stands => write_pc heard at_ (k.still_iff.mpr stands), fun going => write_pc_idles heard at_ (Bool.eq_false_iff.mpr (mt k.still_iff.mp going))⟩
  case outside =>
    intro y host shw q peer posted writes frozen on ready keyed answers ends
    have same : peerRequestOf len op = q := by cases op <;> rfl
    have row : exec peer s = s.event fun y => y.peerAccess s.mem link.toNat o.toNat q := by rw [← same]; exact peerRequest_row s link o len op
    refine ⟨fun unpowered => ?_, fun on booting => ?_, fun closed => ?_, fun on ready cold => ?_, fun ready keyed cold => ?_, fun on ready thawed uncovered => ?_,
      fun w on ready thawed covered is_write forbidden => ?_, fun ready keyed thawed violation => ?_,
      fun w on ready thawed covered allowed => ?_, fun w ready keyed thawed covered allowed => ?_⟩
    · exact idles_of_event (sharedWindowAccess_row s off len data) (Sys.hostAccess_of_unpowered _ _ _ unpowered)
    · exact sharedWindow_replies (e := fun n => some (List.replicate n 0)) (Sys.hostAccess_of_booting _ _ _ on booting)
    · exact idles_of_event row (Sys.peerAccess_of_closed _ _ _ _ closed)
    · exact sharedWindow_replies (e := fun _ => none) (Sys.hostAccess_of_frozen _ _ _ on ready cold)
    · exact peer_replies row (Sys.peerAccess_of_frozen _ _ _ _ ready keyed cold)
    · exact sharedWindow_replies (e := fun n => some (List.replicate n 0xFF)) (Sys.hostAccess_of_uncovered _ _ _ on ready thawed uncovered)
    · have not_read : requestWrites (hostRequest len data) = true :=
        Bool.not_eq_false _ ▸ fun reads => Option.isSome_iff_ne_none.mp is_write (sharedWindow_reads_iff.mp reads)
      exact idles_of_event (sharedWindowAccess_row s off len data) (Sys.hostAccess_of_forbidden _ _ _ on ready thawed covered not_read forbidden)
    · have violates : pwinOf y.pkg.pwin o.toNat 16 = none ∨ ∃ w, pwinOf y.pkg.pwin o.toNat 16 = some w ∧ requestWrites q = true ∧ bit w.1 62 = false :=
        violation.imp_right fun ⟨w, covered, is_write, forbidden⟩ => ⟨w, covered, (requestWrites_iff q).mpr is_write, forbidden⟩
      refine ⟨_, peer_violates row (Sys.peerAccess_of_violation _ _ _ _ ready keyed thawed violates), rfl, Sys.peerViolates_freezes _ _ _ (Nat.lt_succ_of_lt link.isLt),
        Sys.peerViolates_completion _ _ _, fun room first => ?_⟩
      rw [Sys.peerViolates_reports, (y.pkg.pfqAppend_first _ room first).1, BitVec.ofNat_toNat]
    · have ended := sharedWindow_ends (Sys.hostAccess_of_covered s.mem off.toNat (hostRequest len data) on ready thawed covered (allowed.imp_left sharedWindow_reads_iff.mpr))
      cases data <;> exact ended
    · have is_read (reads : ¬ writes q) : requestWrites q = false := Bool.eq_false_iff.mpr (mt (requestWrites_iff q).mp reads)
      have ended := peer_ends row (Sys.peerAccess_of_covered s.mem link.toNat o.toNat q ready keyed thawed covered (allowed.imp_left is_read))
      cases op <;> exact ended

end Sys2Proof.Machine
end
